-- ==== Sys2Proof/Word.lean ====
section
/-!
DEFINITION. Sys2Proof/Word.lean: the word types of the Tchiaro T1, its index types, and the plainest arithmetic on them
(00 R9: bits are numbered from 0, a range is written high:low).
-/
namespace Sys2Proof

/-- A byte of memory. -/
abbrev Byte := BitVec 8

/-- A 64-bit word: a general register, a descriptor word, a 64-bit set-up register. -/
abbrev Word := BitVec 64

/-- A 32-bit set-up register or counter. -/
abbrev Half := BitVec 32

/-- Physical tile index t (01 R17). -/
abbrev TileId := Fin 128

/-- Physical solve engine and sheaf index (01 R17). -/
abbrev EngId := Fin 16

/-- Partition PT0 to PT15 (14 R322). -/
abbrev Pid := Fin 16

/-- Host function: 0 is PF0, 1 to 16 are VF1 to VF16 (14 R326). -/
abbrev Fn := Fin 17

/-- Ring pair of a function (16 R360). -/
abbrev RingId := Fin 64

/-- Link port Pp (01 R17). -/
abbrev PortId := Fin 8

/-- Half-port Pp.h as number 2p + h (14 R326). -/
abbrev HalfId := Fin 16

/-- Memory stack MSm (01 R17). -/
abbrev StackId := Fin 8

/-- Module ID (11 R261). -/
abbrev ModId := BitVec 16

/-- Register number of g, f and v (07 R151). -/
abbrev RegId := Fin 32

/-- Program slot of a partition (16 R367). -/
abbrev SlotId := Fin 8

/-- Physical channel of an engine (05 R106). -/
abbrev ChanId := Fin 32

/-- Bits high:low of a word as a number (00 R9). -/
def bits {w : Nat} (x : BitVec w) (hi lo : Nat) : Nat := (x.toNat >>> lo) % 2 ^ (hi + 1 - lo)

/-- One bit of a word. -/
def bit {w : Nat} (x : BitVec w) (i : Nat) : Bool := x.getLsbD i

/-- 64-bit word i of a record whose word 0 holds the lowest bytes. -/
def wordOf {w : Nat} (x : BitVec w) (i : Nat) : Word := BitVec.ofNat 64 (x.toNat >>> (64 * i))

/-- Truth as one bit. -/
def b2n (b : Bool) : Nat := if b then 1 else 0

/-- The value of a number as w-bit two's complement. -/
def signedOf (w n : Nat) : Int := if n % 2 ^ w < 2 ^ (w - 1) then (n % 2 ^ w : Nat) else (n % 2 ^ w : Nat) - (2 ^ w : Nat)

/-- The w-bit two's complement code of an integer. -/
def codeOf (w : Nat) (i : Int) : Nat := (i % (2 ^ w : Nat)).toNat

/-- ⌈a / b⌉. -/
def ceilDiv (a b : Nat) : Nat := (a + b - 1) / b

/-- Set or clear one bit of a word. -/
def setBit {w : Nat} (x : BitVec w) (i : Nat) (b : Bool) : BitVec w :=
  if b then x ||| BitVec.ofNat w (2 ^ i) else x &&& ~~~ BitVec.ofNat w (2 ^ i)

/-- The natural numbers from lo below hi. -/
def natRange (lo hi : Nat) : List Nat := (List.range (hi - lo)).map (· + lo)

end Sys2Proof
end

