-- ==== Sys2Proof/Syntax.lean ====
section
/-!
DEFINITION. Sys2Proof/Syntax.lean: the commands of the Tchiaro T1, one constructor per row of spec/opcode_table.json, in
the table's order, and the types of their operands. The table gives no operands and no bits; the operands are the model's
(log 1): which unit the step concerns, the stamp in gt of a step that the manual ties to a moment (log 5), and what the
outside world answers (host data, what a sensor reads, what a peer sends, what a test finds).
-/
namespace Sys2Proof

/-! ### Host side operands -/

/-- What the host returns to the reads a command makes, or to its writes: data, or an error completion (16 R364, R373). -/
inductive HostReply where
  | ok (data : List Byte)
  | error
  deriving DecidableEq, Repr

/-- Where a management or debug request comes from (15 R355 SRC). -/
inductive Source where
  | pf0 | mctpI3c | mctpPcie | jtag | tdisp
  deriving DecidableEq, Repr

/-- The two MCTP bindings (19 R435). -/
inductive Binding where
  | i3c | pcie
  deriving DecidableEq, Repr

/-- Who starts a device reset (17 R405). -/
inductive ResetBy where
  | register | management | fatal
  deriving DecidableEq, Repr

/-! ### Core instruction operands (07) -/

/-- Integer operations of classes INT and INTI (07 R156; the list is the model's, log 22). -/
inductive IntOp where
  | add | sub | and | or | xor | sll | srl | sra | slt | sltu | mul | div | divu | rem | remu
  deriving DecidableEq, Repr

/-- Branches and jumps of class BR (07 R153, R155; the list is the model's, log 22). -/
inductive BrOp where
  | eq | ne | lt | ge | ltu | geu | jump | jumpReg
  deriving DecidableEq, Repr

/-- Scalar FP64 operations of class FP (07 R157). -/
inductive FpOp where
  | add | sub | mul | fma | div | sqrt | min | max | cmpEq | cmpLt | cmpLe
  deriving DecidableEq, Repr

/-- Rounding of scalar and vector arithmetic: RND 0b00 and 0b01 (07 R157). -/
inductive Rnd where
  | rne | rtz
  deriving DecidableEq, Repr

/-- Register file of a scalar load or store (07 R153). -/
inductive RegFile where
  | g | f
  deriving DecidableEq, Repr

/-- A scalar load or store (07 R153, R155, R164): direction, file, register, base register, offset, access size 2^size
bytes, and for a load of a g register whether it is sign-extended. -/
structure LsOp where
  store  : Bool
  file   : RegFile
  reg    : RegId
  base   : RegId
  offset : Word
  size   : Fin 4
  signed : Bool
  deriving DecidableEq, Repr

/-- Core status registers (07 R165). -/
inductive Csr where
  | ltile | lsheaf | gtime | missued | mdone | dissued | ddone | vcfg | vstat | vidle | vtid | veidx
  deriving DecidableEq, Repr

/-- Element width EW as in VCLAIM (07 R172). -/
inductive Ew where
  | e8 | e16 | e32 | e64
  deriving DecidableEq, Repr

/-- Grouping GRP as in VCLAIM (07 R172). -/
inductive Grp where
  | g1 | g2 | g4 | g8
  deriving DecidableEq, Repr

/-- Fixed-point functions of class VINT (07 R178). -/
inductive VIntFn where
  | vadd | vsub | vsadd | vsaddu | vssub | vssubu | vrshr | vrshru | vfmulh | vnsat | vnsatu | vavg
  deriving DecidableEq, Repr

/-- Fixed-point rounding FRM (07 R179). -/
inductive Frm where
  | rnu | rne | rdn | rod
  deriving DecidableEq, Repr

/-- A vector fixed-point instruction (07 R178). -/
structure VIntOp where
  fn    : VIntFn
  vd    : RegId
  vs1   : RegId
  vs2   : RegId
  frm   : Frm
  ew    : Ew
  mask  : Bool
  short : Bool
  deriving DecidableEq, Repr

/-- Vector floating-point element operations (07 R153, R174; the list is the model's, log 22). -/
inductive VFpFn where
  | add | sub | mul | fma | div | sqrt | min | max
  deriving DecidableEq, Repr

/-- Floating-point formats a vector element may hold, by code (02 R30). -/
structure VFpOp where
  fn   : VFpFn
  vd   : RegId
  vs1  : RegId
  vs2  : RegId
  fmt  : BitVec 4
  ew   : Ew
  rnd  : Rnd
  mask : Bool
  deriving DecidableEq, Repr

/-- A vector conversion (07 R175): formats, CVC. -/
structure VCvtOp where
  vd   : RegId
  vs1  : RegId
  fmtD : BitVec 4
  fmtS : BitVec 4
  cvc  : BitVec 6
  ew   : Ew
  mask : Bool
  deriving DecidableEq, Repr

/-- Vector reductions and permutations (07 R175; the list beside the floating-point sum is the model's, log 22). -/
inductive VRedFn where
  | fsum | isum | gather
  deriving DecidableEq, Repr

structure VRedOp where
  fn   : VRedFn
  vd   : RegId
  vs1  : RegId
  vs2  : RegId
  fmt  : BitVec 4
  ew   : Ew
  mask : Bool
  deriving DecidableEq, Repr

/-- A vector load or store of consecutive elements at the byte offset in a g register (07 R175, log 22). -/
structure VLsOp where
  store : Bool
  vreg  : RegId
  base  : RegId
  ew    : Ew
  mask  : Bool
  deriving DecidableEq, Repr

/-! ### Arrays (03) -/

/-- An event of a tile's array, with the array clock's count (03 R77 to R81). -/
structure ArrayAt where
  tile : TileId
  ac   : Nat
  deriving DecidableEq, Repr

/-- An event of a tile with its stamp in gt. -/
structure TileAt where
  tile : TileId
  now  : Nat
  deriving DecidableEq, Repr

/-! ### Sync (10) -/

/-- Operations on sync objects (10 R246). -/
inductive SyncOp where
  | signal (n : Word) | take (n : Word) | arrive (f : Bool) | setf (m : Word) | clrf (m : Word)
  | wany (m : Word) | wall (m : Word) | adv (v : Word) | wge (v : Word)
  deriving DecidableEq, Repr

/-- Who waits at a sync object (10 R246): a tile, a host command, a link work entry. -/
inductive Waiter where
  | tile (t : TileId)
  | host (fn : Fn) (cid : Nat)
  | link (p : Pid) (entry : Nat)
  deriving DecidableEq, Repr

/-! ### Links (11, 12) -/

/-- Virtual channels (11 R265): sync, collectives, puts and key handshakes. -/
inductive Vc where
  | vs | vd0 | vd1
  deriving DecidableEq, Repr

/-- A number for each virtual channel. -/
structure PerVc where
  vs  : Nat
  vd0 : Nat
  vd1 : Nat
  deriving DecidableEq, Repr

/-- What a received frame carries, beyond its header (11 R264, R266, R250, R252): a piece of a put (the sender's number of the transfer,
its silo address, whether it is the last piece), a piece of a rank's contribution to a collective, sync messages, credits alone. -/
inductive FrameBody where
  | put (xfer addr : Nat) (data : List Byte) (last : Bool)
  | contribution (entry rank : Nat) (carry : Bool) (data : List Byte) (last : Bool)
  | syncOp (index : BitVec 16) (op : SyncOp)
  | arrive (index : BitVec 16) (flag : Bool) (gen : BitVec 16)
  | keepAlive
  | credit
  deriving DecidableEq, Repr

/-- How a datagram arrives on an Ethernet port (11 R271): acceptable, or of a kind that is discarded. -/
inductive Carrier where
  | native | datagram | extensionHeader | ipv4 | badChecksum | otherIcmp | oversize
  deriving DecidableEq, Repr

/-- A received frame (11 R264, R265): header with its virtual channel, the sequence number of the pair on that channel, credits
returned in 64 B units and, on Ethernet, the number up to which the pair's frames of each channel have arrived; what the checks of
CRC and tag say; body. -/
structure Frame where
  carrier : Carrier
  src     : ModId
  dst     : ModId
  jobTag  : Word
  vc      : Vc
  seq     : Nat
  credits : PerVc
  arrived : PerVc
  crcOk   : Bool
  tagOk   : Bool
  body    : FrameBody
  deriving DecidableEq, Repr

/-- A frame that this module sent to a peer of a partition's job. -/
structure FrameId where
  pid  : Pid
  peer : ModId
  vc   : Vc
  seq  : Nat
  deriving DecidableEq, Repr

/-- A release message of a barrier (10 R253): GEN, FLAG, and the release count of a launch barrier. -/
structure Release where
  gen  : BitVec 16
  flag : Bool
  r    : Option Nat
  deriving DecidableEq, Repr

/-- What training of a port found (11 R260, R261, R267, R270): lanes usable at both ends, lanes whose training failed, the peer's module ID, versions 1.0
and 1.1 the peer supports, the lane delays recorded: way in less way out, in gt. -/
structure Training where
  usable : BitVec 8
  failed : BitVec 8
  peer   : ModId
  v10    : Bool
  v11    : Bool
  skew   : Int
  deriving DecidableEq, Repr

/-- What a time message returns of the receiver's own last one (10 R237): when it was sent, by the receiver's counter, and when it
arrived, by the sender's. -/
structure TimeEcho where
  sent : Nat
  got  : Nat
  deriving DecidableEq, Repr

/-! ### Memory (09) -/

/-- How a read of a sector that failed its code ended (09 R226, R227). -/
inductive ReadError where
  | corrected (rereadClean : Bool)
  | retried (decoded : Bool)
  deriving DecidableEq, Repr

/-- Who needed the sector (09 R227, 18 R415). -/
inductive Reader where
  | command (fn : Fn) (cid : Nat)
  | tileDma (t : TileId)
  | coreFetch (t : TileId)
  | engine (e : EngId)
  | linkEntry (p : Pid) (entry : Nat)
  | launchHash (p : Pid)
  | block
  | partialWrite (fn : Fn) (cid : Nat)
  deriving DecidableEq, Repr

/-- What the engine's own checks find (18 R411): nothing permanent, a faulty slice of a channel, a lane fault of the running command. -/
inductive SolveFault where
  | none | slice (c : ChanId) | lane
  deriving DecidableEq, Repr

/-! ### Power and start-up (17, 19) -/

/-- A regulator sample (17 R390, R395): input power P, predicted power P_up of the next step up, measured non-compute
power, attributed compute power of each partition, all in W. -/
structure Sample where
  p          : Nat
  pUp        : Nat
  nonCompute : Nat
  compute    : List Nat
  deriving DecidableEq, Repr

/-- What self-test found (19 R428, R429): defective processing elements beyond the known ones (tile, physical row,
physical column), faulty channel slices, engines to retire. -/
structure TestReport where
  defects  : List (Nat × Nat × Nat)
  channels : List (Nat × Nat)
  engines  : List Nat
  repairRecordOk : Bool
  deriving DecidableEq, Repr

/-- How a boot stage ended (19 R426, R428). -/
inductive StageEnd where
  | root (romOk : Bool) (cause : Fin 4)
  | verify (imageOk : Bool) (ownerOk : Bool) (presetOk : Bool)
  | test (r : TestReport)
  | mem (failedPcs : List Nat) (stackFailed : Bool)
  | link (failedPorts : List Nat)
  deriving DecidableEq, Repr

/-- Loop of die and stack over-temperature (17 R397). -/
inductive TripBy where
  | die | stack | regulator
  deriving DecidableEq, Repr

/-- Kinds of units whose state the binding table holds (14 R325, 18 R417, R421). -/
inductive UnitKind where
  | sheaf | granule | syncBlock | port | function
  deriving DecidableEq, Repr

/-- Entry states (14 R324). -/
inductive PState where
  | free | bound | moulting
  deriving DecidableEq, Repr

/-- A unit's state: owner, entry state, EPOCH (18 R417). -/
structure UnitState where
  owner : Option Pid
  st    : PState
  epoch : Half
  deriving DecidableEq, Repr

/-- One unit. -/
structure UnitId where
  kind  : UnitKind
  index : Nat
  deriving DecidableEq, Repr

/-! ### Security and management (15, 19) -/

/-- GET_CAPABILITIES: the way it came and the SPDM versions that the requester speaks, 0x10 for 1.0 and so on (15 R340). -/
structure SpdmHello where
  via      : Source
  versions : List Byte
  deriving DecidableEq, Repr

/-- What NEGOTIATE_ALGORITHMS offers for signatures, hash and measurement hash: brainpoolP384r1 with SHA-384, SHA-384, SHA-384
(15 R340). -/
structure SpdmAsym where
  brainpool : Bool
  sha       : Bool
  measSha   : Bool
  deriving DecidableEq, Repr

/-- KEY_EXCHANGE: the requester's half of the session number and the certificate slot (15 R340). -/
structure SpdmKeyReq where
  session : BitVec 16
  slot    : Nat
  deriving DecidableEq, Repr

/-- What the verification of a peer's certificate gives in a link handshake (11 R274, 15 R343), and whether the peer supports version
1.1 of the transport (11 R267). -/
structure PeerCert where
  chainOk : Bool
  svn     : BitVec 16
  v11     : Bool
  deriving DecidableEq, Repr

/-- A peer with which a pair rekeys, and its certificate (11 R274). -/
structure PeerAt where
  id   : ModId
  cert : PeerCert
  deriving DecidableEq, Repr

/-- The components of a firmware update (19 R438). -/
inductive Component where
  | firmware | config
  deriving DecidableEq, Repr

/-- How the verification of a staged component ended (19 R438, R440). -/
inductive VerifyEnd where
  | ok | badSignature | badField | unreadable
  deriving DecidableEq, Repr

/-- The commands, in the order of spec/opcode_table.json. -/
inductive Instr where
  -- host commands and launches (16, 10, 14, 15)
  | loadProgram (fn : Fn) (cid : Nat) (image : HostReply)
  | programUnload (fn : Fn) (cid : Nat)
  | launch (fn : Fn) (cid : Nat)
  | launchAt (fn : Fn) (cid : Nat)
  | launchReady (p : Pid) (now : Nat)
  | launchHint (p : Pid) (now : Nat)
  | launchRelease (p : Pid) (now : Nat)
  | launchComplete (p : Pid) (now : Nat)
  | copy (fn : Fn) (cid : Nat) (host : HostReply)
  | fill (fn : Fn) (cid : Nat)
  | solveDelta (fn : Fn) (cid : Nat)
  | solveAdjoint (fn : Fn) (cid : Nat)
  | signal (fn : Fn) (cid : Nat)
  | wait (fn : Fn) (cid : Nat)
  | fence (fn : Fn) (cid : Nat)
  | bind (fn : Fn) (cid : Nat) (record : Option (BitVec 8192))
  | unbind (fn : Fn) (cid : Nat)
  | moultStepEnd (p : Pid) (now : Nat)
  | keyRotate (fn : Fn) (cid : Nat)
  | keyRotateLink (fn : Fn) (cid : Nat)
  | query (fn : Fn) (cid : Nat) (host : HostReply)
  | digestRead (fn : Fn) (cid : Nat) (host : HostReply)
  | abort (fn : Fn) (cid : Nat)
  | sqTail (fn : Fn) (page : Fin 128) (value : Half)
  | cqHead (fn : Fn) (page : Fin 128) (value : Half)
  | abortDb (fn : Fn) (page : Fin 128) (value : Half)
  | descriptorFetch (data : Option (BitVec 512))
  | atsInvalidation (fn : Fn) (page : BitVec 52)
  -- set-up registers (20)
  | hifVersionReq (fn : Fn) (value : Half)
  | hifRingCfg (fn : Fn) (ring : RingId) (value : Half)
  | hifEvqCfg (fn : Fn) (value : Half)
  | registerWrite (fn : Fn) (offset : BitVec 24) (eight : Bool) (value : Word)
  | pwrCapCfg (value : Half)
  | pwrPolicy (value : Half)
  | deepIdleRequest
  | deepIdleEntered (now : Nat)
  | deepIdleLeave
  | deepIdleExitEnd (now : Nat)
  | devrst (by_ : ResetBy)
  | go (value : Half)
  | partitionResetEnd (now : Nat)
  | dbgAttach (value : Half) (src : Source)
  | portReconfigure (port : PortId) (value : Half)
  | retrain (port : PortId)
  | lnkModId (value : Half)
  | lnkLaneRet (value : Word)
  | lnkEthPrefix (value : Word)
  | synTimeCfg (value : Half)
  | memBudgetCfg (value : Half)
  -- core instructions (07, 08, 10)
  | int (t : TileId) (op : IntOp) (rd rs1 rs2 : RegId)
  | inti (t : TileId) (op : IntOp) (rd rs1 : RegId) (imm : Word)
  | ls (t : TileId) (op : LsOp) (corrected : Nat)
  | br (t : TileId) (op : BrOp) (rd rs1 rs2 : RegId) (offset : Word)
  | fp (t : TileId) (op : FpOp) (rnd : Rnd) (rd rs1 rs2 rs3 : RegId)
  | cvt (t : TileId) (cvc : BitVec 4) (fmtD fmtS : BitVec 4) (rd rs1 : RegId)
  | mopadr (t : TileId) (rd rs1 rs2 : RegId)
  | mop (t : TileId) (rs1 : RegId)
  | mwait (t : TileId) (n : BitVec 6)
  | dma (t : TileId) (rs1 : RegId)
  | dwait (t : TileId) (n : BitVec 6)
  | solve (t : TileId) (rs1 : RegId)
  | swait (t : TileId) (rs1 rs2 : RegId)
  | ssig (t : TileId) (rd rs1 rs2 : RegId)
  | stake (t : TileId) (rd rs1 rs2 : RegId)
  | sarr (t : TileId) (rd rs1 rs2 : RegId)
  | ssetf (t : TileId) (rd rs1 rs2 : RegId)
  | sclrf (t : TileId) (rd rs1 rs2 : RegId)
  | swany (t : TileId) (rd rs1 rs2 : RegId)
  | swall (t : TileId) (rd rs1 rs2 : RegId)
  | sadv (t : TileId) (rd rs1 rs2 : RegId)
  | swge (t : TileId) (rd rs1 rs2 : RegId)
  | wupd (t : TileId) (rs1 : RegId)
  | uwait (t : TileId) (n : BitVec 6)
  | nclr (t : TileId) (a : Fin 4)
  | nsq (t : TileId) (rd rs1 rs2 : RegId) (gfmt : BitVec 4) (a : Fin 4)
  | nst (t : TileId) (rs1 : RegId) (a : Fin 4)
  | nadd (t : TileId) (rs1 : RegId) (a : Fin 4)
  | csrr (t : TileId) (rd : RegId) (csr : Csr)
  | csrw (t : TileId) (csr : Csr) (rs1 : RegId)
  | halt (t : TileId)
  | rbegin (t : TileId) (rs1 rs2 : RegId)
  | rcheck (t : TileId)
  | rcmpb (t : TileId)
  | rcmpe (t : TileId)
  | stasha (t : TileId) (rd rs1 rs2 : RegId)
  | stashr (t : TileId) (rs1 rs2 : RegId)
  | vclaim (t : TileId) (rd rs1 : RegId) (ew : Ew) (grp : Grp)
  | vls (t : TileId) (op : VLsOp)
  | vint (t : TileId) (op : VIntOp)
  | vfp (t : TileId) (op : VFpOp)
  | vcvt (t : TileId) (op : VCvtOp)
  | vred (t : TileId) (op : VRedOp)
  | vectorSleep (t : TileId)
  -- arrays, tile DMA, update unit, solve engine (03, 04, 05, 07, 08)
  | blockLoad (x : ArrayAt)
  | passStart (x : ArrayAt) (reruns : Fin 3)
  | mopComplete (x : ArrayAt)
  | offloadMopStart (x : ArrayAt) (record : BitVec 256)
  | loadLevelStep (x : ArrayAt)
  | hintRampStep (x : TileAt)
  | hintLapse (t : TileId) (now : Nat)
  | dmaTransferRun (t : TileId)
  | dmaTransferComplete (t : TileId)
  | updateOperationRun (t : TileId) (reruns : Fin 3)
  | updateOperationComplete (t : TileId)
  | solveCommandHead (e : EngId) (now : Nat) (retries : Nat) (fault : SolveFault)
  -- sync and time (10)
  | syncOperationArrival (id : Nat) (now : Nat)
  | barrierReleaseReceipt (p : Pid) (index : BitVec 16) (rel : Release) (now : Nat)
  | launchBarrierHint (obj : Fin 65536) (now : Nat)
  | launchBarrierRelease (obj : Fin 65536) (now : Nat)
  | remoteAck (id : Nat) (code : BitVec 16)
  | waitTimeout (w : Waiter) (now : Nat)
  | timeMessageSend (now : Nat)
  | timeMessageReceipt (port : HalfId) (upstream : Word) (echo : TimeEcho) (now : Nat)
  | counterSlew
  | holdoverEntry (now : Nat)
  | synTimeUnlock (now : Nat)
  -- links (11, 12)
  | portTrainingComplete (port : HalfId) (found : Training) (now : Nat)
  | laneRetrainStart (lane : Fin 64) (now : Nat)
  | laneRetrainEnd (lane : Fin 64) (ok : Bool) (now : Nat)
  | laneRetryTimer (lane : Fin 64) (now : Nat)
  | frameReceipt (port : HalfId) (frame : Frame) (now : Nat)
  | frameNak (port : HalfId) (frame : FrameId)
  | datagramResend (port : HalfId) (frame : FrameId)
  | neighborSolicitation (port : PortId) (target : BitVec 128)
  | echoRequest (port : PortId) (dst : BitVec 128) (payload : List Byte)
  | linkHandshake (p : Pid) (peer : ModId) (cert : PeerCert) (now : Nat)
  | rekey (p : Pid) (peer : PeerAt)
  | keepaliveSend (now : Nat)
  | keepaliveTimeout (p : Pid) (peer : ModId) (now : Nat)
  | retrainNotice (p : Pid) (peer : ModId) (now : Nat)
  | retrainSuspensionExpiry (p : Pid) (peer : ModId) (now : Nat)
  | unbindFrame (src : ModId) (jobTag : Word) (epoch : Half) (sigOk : Bool) (now : Nat)
  | abortFrame (src : ModId) (jobTag : Word) (now : Nat)
  | linkEntryStart (p : Pid) (now : Nat)
  | transferAck (p : Pid) (entry : Nat) (peer : ModId)
  | linkEntryComplete (p : Pid) (entry : Nat) (inputs : List (Nat × List Byte)) (now : Nat)
  | readyNotice (p : Pid) (entry : Nat) (rank : Nat) (carry : Bool) (now : Nat)
  | deadlineClose (p : Pid) (entry : Nat) (now : Nat)
  | verdict (p : Pid) (entry : Nat) (excluded carrying waited : List Nat) (now : Nat)
  -- memory (09, 15)
  | memoryReadError (addr : Nat) (how : ReadError) (reader : Reader) (now : Nat)
  | migrationComplete (now : Nat)
  | errorWindowEnd (now : Nat)
  | stackTempReading (m : StackId) (temp : Byte) (now : Nat)
  | granuleClearComplete (now : Nat)
  | sweepPage (p : Pid) (now : Nat)
  -- power, thermal, start-up (17, 19, 21)
  | regulatorSample (sample : Sample) (now : Nat)
  | railSettled (sheaf : EngId)
  | dieTempReading (die : Fin 2) (temp : Byte) (now : Nat)
  | regulatorWarning (die : Fin 2) (overCurrent : Bool) (status : BitVec 16) (now : Nat)
  | railWarningRelease (die : Fin 2) (now : Nat)
  | thermalTrip (by_ : TripBy) (now : Nat)
  | ageingMonitorRead (die : Fin 2) (slow : Bool) (now : Nat)
  | inputApplied
  | powerLoss
  | perstAssert
  | perstRelease (sincePwrgd : Nat)
  | bootStageEnd (how : StageEnd)
  | flr (fn : Fn)
  | peRefclkLoss
  | lnkRefclkLoss (now : Nat)
  -- errors (18)
  | tileHardFault (t : TileId) (unit : Fin 3) (retries : Nat) (now : Nat)
  | bindingAudit (seen : List (UnitId × UnitState)) (now : Nat)
  | fatalResetTimer (now : Nat)
  -- SPDM, TDISP, IDE (15)
  | getVersion (via : Source)
  | getCapabilities (hello : SpdmHello)
  | negotiateAlgorithms (via : Source) (asym : SpdmAsym) (offersSecp384 offersAesGcm : Bool)
  | getDigests (via : Source)
  | getCertificate (via : Source) (slot : Nat) (offset length : Nat)
  | challenge (via : Source) (slot : Nat) (nonce : BitVec 256)
  | getMeasurements (via : Source) (index : Byte) (nonce : BitVec 256) (signed : Option Nat)
  | keyExchange (via : Source) (req : SpdmKeyReq) (now : Nat)
  | finish (session : BitVec 32) (macOk : Bool) (period : Byte) (now : Nat)
  | endSession (session : BitVec 32)
  | keyUpdate (session : BitVec 32)
  | heartbeat (session : BitVec 32) (now : Nat)
  | heartbeatTimeout (session : BitVec 32) (now : Nat)
  | unsupportedRequest (via : Source) (code : Byte)
  | getTdispVersion (session : BitVec 32)
  | getTdispCapabilities (session : BitVec 32)
  | lockInterfaceRequest (session : BitVec 32) (vf : Fn)
  | getDeviceInterfaceReport (session : BitVec 32) (vf : Fn)
  | getDeviceInterfaceState (session : BitVec 32) (vf : Fn)
  | startInterfaceRequest (session : BitVec 32) (vf : Fn)
  | stopInterfaceRequest (session : BitVec 32) (vf : Fn) (now : Nat)
  | lockedConfigWrite (vf : Fn) (now : Nat)
  | spdmSessionLoss (session : BitVec 32) (now : Nat)
  | ideKmQuery (session : BitVec 32)
  | ideKmKeyProgram (session : BitVec 32) (stream : Fin 18) (keySet : Bool)
  | ideKmKeySetGo (session : BitVec 32) (stream : Fin 18) (keySet : Bool)
  | ideKmKeySetStop (session : BitVec 32) (stream : Fin 18) (keySet : Bool)
  | drbgHealthFailure
  | debugHalt (p : Pid)
  | debugSingleStep (t : TileId)
  -- management (19)
  | setEndpointId (b : Binding) (eid : Byte)
  | getEndpointId (b : Binding)
  | getMctpVersionSupport (b : Binding) (msgType : Byte)
  | getMessageTypeSupport (b : Binding)
  | getVendorDefinedMessageSupport (b : Binding) (selector : Byte)
  | entdaa (address : BitVec 7)
  | setdasa (static dynamic : BitVec 7)
  | seteventreceiver (b : Binding) (eid : Byte) (enable : Bool)
  | sensorRefresh (id : BitVec 16) (reading : Int)
  | regRead (b : Binding) (offset : BitVec 24)
  | regWrite (b : Binding) (offset : BitVec 24) (value : Word)
  | devReset (b : Binding)
  | attlogRead (b : Binding) (first : Nat)
  | forceRecovery (b : Binding)
  | requestupdate (b : Binding) (c : Component) (size : Nat)
  | firmwareDataReceipt (data : List Byte)
  | transfercomplete
  | updateVerifyEnd (how : VerifyEnd)
  | applycomplete
  | activatefirmware
  | cancelupdate
  -- later rows of the table
  | solveCommandEnd (e : EngId) (now : Nat)
  | peRefclkReturn
  | lnkRefclkReturn
  | perstHoldExpiry
  | inputSag
  | inputSagEnd
  | deviceFatalFault (cause : Fin 5) (now : Nat)
  | priorityFlowControl (port : PortId) (pause : Bool)
  | msixVectorUnmask (fn : Fn) (vec : Nat)
  | srIovEnable (vfs : Nat)
  | jtagAttach (value : Half)
  deriving DecidableEq, Repr

end Sys2Proof
end

