-- ==== Sys2Proof/Decode.lean ====
section
/-!
DEFINITION. Sys2Proof/Decode.lean: the command a word spells. No row of spec/opcode_table.json gives bits, so decodeTableWord answers none
(log 1). The manual gives the control core's instruction words (07 R153): coreCommand reads those of the classes whose encodings it
gives, and spells says which command the word at a core's program counter stands for.
-/
namespace Sys2Proof

/-! ### The opcode table -/

/-- The rows of the table that give bits, as mask, pattern and command: none. -/
def tableRows : List (Nat × Nat × Instr) := []

/-- The command whose row has nbits bits and matches w. -/
def decodeTableWord (nbits w : Nat) : Option Instr :=
  (tableRows.find? fun r => decide (w < 2 ^ nbits) && decide (w &&& r.1 = r.2.1)).map fun r => r.2.2

/-! ### Instruction words of the control core (07 R153) -/

/-- Bits high:low of a number. -/
def nbits (x hi lo : Nat) : Nat := x / 2 ^ lo % 2 ^ (hi + 1 - lo)

/-- Fields of Table Instruction layout. -/
def wMajor (w : Nat) : Nat := nbits w 31 26
def wRd (w : Nat) : RegId := Fin.ofNat 32 (nbits w 25 21)
def wRs1 (w : Nat) : RegId := Fin.ofNat 32 (nbits w 20 16)
def wRs2 (w : Nat) : RegId := Fin.ofNat 32 (nbits w 15 11)

/-- A command, when the fields that must be zero are. -/
def whenZero (fields : List Nat) (i : Instr) : Option Instr := if fields.all (· == 0) then some i else none

/-- Class CVT: formats other than BF16S and the reserved codes, RND 0b00 or 0b01 (07 R157, R158). -/
def cvtCommand (t : TileId) (w : Nat) : Option Instr :=
  if nbits w 13 12 < 2 ∧ nbits w 10 7 < 10 ∧ nbits w 6 3 < 10 then
    whenZero [nbits w 11 11, nbits w 2 0]
      (.cvt t (BitVec.ofNat 4 (nbits w 15 12)) (BitVec.ofNat 4 (nbits w 10 7)) (BitVec.ofNat 4 (nbits w 6 3)) (wRd w) (wRs1 w))
  else none

/-- Classes ARR, DMA and SLV: Table Engine-control instructions (07 R159). -/
def queueCommand (t : TileId) (w : Nat) : Option Instr :=
  let rd := (wRd w).val
  let rs1 := (wRs1 w).val
  let rs2 := (wRs2 w).val
  let low := nbits w 5 0
  match wMajor w, nbits w 10 6 with
  | 0x08, 0x00 => whenZero [low] (.mopadr t (wRd w) (wRs1 w) (wRs2 w))
  | 0x08, 0x01 => whenZero [rd, rs2, low] (.mop t (wRs1 w))
  | 0x08, 0x02 => whenZero [rd, rs1, rs2] (.mwait t (BitVec.ofNat 6 low))
  | 0x09, 0x00 => whenZero [rd, rs2, low] (.dma t (wRs1 w))
  | 0x09, 0x01 => whenZero [rd, rs1, rs2] (.dwait t (BitVec.ofNat 6 low))
  | 0x0A, 0x00 => whenZero [rd, rs2, low] (.solve t (wRs1 w))
  | 0x0A, 0x01 => whenZero [rd, low] (.swait t (wRs1 w) (wRs2 w))
  | _, _ => none

/-- Class SYNC: Table Sync instructions (10 R247). -/
def syncCommand (t : TileId) (w : Nat) : Option Instr :=
  let go (f : TileId → RegId → RegId → RegId → Instr) : Option Instr := whenZero [nbits w 5 0] (f t (wRd w) (wRs1 w) (wRs2 w))
  match nbits w 10 6 with
  | 0x00 => go .ssig
  | 0x01 => go .stake
  | 0x02 => go .sarr
  | 0x03 => go .ssetf
  | 0x04 => go .sclrf
  | 0x05 => go .swany
  | 0x06 => go .swall
  | 0x07 => go .sadv
  | 0x08 => go .swge
  | _ => none

/-- Class UPD: Table Update instructions (08 R183); GFMT is one of the gradient formats of 08 R184. -/
def updCommand (t : TileId) (w : Nat) : Option Instr :=
  let rd := (wRd w).val
  let rs1 := (wRs1 w).val
  let rs2 := (wRs2 w).val
  let a : Fin 4 := Fin.ofNat 4 (nbits w 1 0)
  match nbits w 10 6 with
  | 0x00 => whenZero [rd, rs2, nbits w 5 0] (.wupd t (wRs1 w))
  | 0x01 => whenZero [rd, rs1, rs2] (.uwait t (BitVec.ofNat 6 (nbits w 5 0)))
  | 0x02 => whenZero [rd, rs1, rs2, nbits w 5 2] (.nclr t a)
  | 0x03 =>
    if [1, 2, 3, 4, 5].contains (nbits w 5 2) then some (.nsq t (wRd w) (wRs1 w) (wRs2 w) (BitVec.ofNat 4 (nbits w 5 2)) a) else none
  | 0x04 => whenZero [rd, rs2, nbits w 5 2] (.nst t (wRs1 w) a)
  | 0x05 => whenZero [rd, rs2, nbits w 5 2] (.nadd t (wRs1 w) a)
  | _ => none

/-- The core status register of a number (07 R165). -/
def csrOf (n : Nat) : Option Csr :=
  match n with
  | 0x000 => some .ltile
  | 0x001 => some .lsheaf
  | 0x002 => some .gtime
  | 0x010 => some .missued
  | 0x011 => some .mdone
  | 0x012 => some .dissued
  | 0x013 => some .ddone
  | 0x020 => some .vcfg
  | 0x021 => some .vstat
  | 0x022 => some .vidle
  | 0x023 => some .vtid
  | 0x024 => some .veidx
  | _ => none

/-- Registers that CSRW may name. -/
def csrWritable : Csr → Bool
  | .vstat | .vidle | .vtid | .veidx => true
  | _ => false

/-- Class SYS: Table SYS functions (07 R165) and Table Marker instructions (08 R208). -/
def sysCommand (t : TileId) (w : Nat) : Option Instr :=
  let rd := (wRd w).val
  let rs1 := (wRs1 w).val
  let rs2 := (wRs2 w).val
  match nbits w 10 9 with
  | 0b00 => (csrOf (nbits w 8 0)).bind fun r => whenZero [rs1, rs2] (.csrr t (wRd w) r)
  | 0b01 => (csrOf (nbits w 8 0)).bind fun r => if csrWritable r then whenZero [rd, rs2] (.csrw t r (wRs1 w)) else none
  | 0b11 =>
    match nbits w 8 0 with
    | 0x1FF => whenZero [rd, rs1, rs2] (.halt t)
    | 0x180 => whenZero [rd] (.rbegin t (wRs1 w) (wRs2 w))
    | 0x181 => whenZero [rd, rs1, rs2] (.rcheck t)
    | 0x182 => whenZero [rd, rs1, rs2] (.rcmpb t)
    | 0x183 => whenZero [rd, rs1, rs2] (.rcmpe t)
    | 0x184 => some (.stasha t (wRd w) (wRs1 w) (wRs2 w))
    | 0x185 => whenZero [rd] (.stashr t (wRs1 w) (wRs2 w))
    | _ => none
  | _ => none

/-- Element width and grouping codes (07 R172). -/
def ewOf (n : Nat) : Ew :=
  match n with
  | 0 => .e8
  | 1 => .e16
  | 2 => .e32
  | _ => .e64

def grpOf (n : Nat) : Grp :=
  match n with
  | 0 => .g1
  | 1 => .g2
  | 2 => .g4
  | _ => .g8

/-- Class VCFG: VCLAIM (07 R172). -/
def vcfgCommand (t : TileId) (w : Nat) : Option Instr :=
  whenZero [(wRs2 w).val, nbits w 10 8, nbits w 5 4, nbits w 1 0]
    (.vclaim t (wRd w) (wRs1 w) (ewOf (nbits w 3 2)) (grpOf (nbits w 7 6)))

/-- Functions of Table Fixed-point operations (07 R178). -/
def vintFn (n : Nat) : Option VIntFn :=
  [VIntFn.vadd, .vsub, .vsadd, .vsaddu, .vssub, .vssubu, .vrshr, .vrshru, .vfmulh, .vnsat, .vnsatu, .vavg][n]?

/-- Roundings of Table Fixed-point rounding (07 R179). -/
def frmOf (n : Nat) : Frm :=
  match n with
  | 0 => .rnu
  | 1 => .rne
  | 2 => .rdn
  | _ => .rod

/-- Functions that round (07 R178). -/
def vintRounds (f : VIntFn) : Bool :=
  match f with
  | .vrshr | .vrshru | .vfmulh | .vnsat | .vnsatu | .vavg => true
  | _ => false

/-- Functions that narrow (07 R178). -/
def vintNarrows (f : VIntFn) : Bool := f = .vnsat || f = .vnsatu

/-- A fixed-point instruction LOAD_PROGRAM admits (07 R177, R178). -/
def vintLoads (op : VIntOp) : Bool :=
  (vintRounds op.fn || decide (op.frm = .rnu)) && !(vintNarrows op.fn && decide (op.ew = .e64)) &&
    (!op.short || (!op.mask && decide (op.vd.val ≤ 15) && decide (op.vs1.val ≤ 15) && decide (op.vs2.val ≤ 15)))

/-- Class VINT: Table VINT layout (07 R178). -/
def vintCommand (t : TileId) (w : Nat) : Option Instr :=
  (vintFn (nbits w 10 6)).bind fun f =>
    let op : VIntOp :=
      { fn := f, vd := wRd w, vs1 := wRs1 w, vs2 := wRs2 w, frm := frmOf (nbits w 5 4), ew := ewOf (nbits w 3 2)
        mask := decide (nbits w 1 1 = 1), short := decide (nbits w 0 0 = 1) }
    if vintLoads op then some (.vint t op) else none

/-- The command of tile t that a word of a class with a given encoding spells; none where the word is not an instruction, and for the
classes whose functions the manual does not list (log 22). -/
def coreCommand (t : TileId) (w : Nat) : Option Instr :=
  match wMajor w with
  | 0x06 => cvtCommand t w
  | 0x08 => queueCommand t w
  | 0x09 => queueCommand t w
  | 0x0A => queueCommand t w
  | 0x0B => syncCommand t w
  | 0x0C => updCommand t w
  | 0x0D => sysCommand t w
  | 0x10 => vcfgCommand t w
  | 0x12 => vintCommand t w
  | _ => none

/-- RND of class FP (07 R157). -/
def rndCode : Rnd → Nat
  | .rne => 0
  | .rtz => 1

/-- The word at a core's program counter stands for a command of its tile: the one it spells, or in a class whose functions the manual
does not list a command of that class with the registers of the general layout (07 R153, R157, log 22). -/
def spells (t : TileId) (w : Nat) (i : Instr) : Bool :=
  match i with
  | .int u _ rd rs1 rs2 => decide (u = t) && wMajor w == 0x01 && wRd w == rd && wRs1 w == rs1 && wRs2 w == rs2
  | .inti u _ rd rs1 _ => decide (u = t) && wMajor w == 0x02 && wRd w == rd && wRs1 w == rs1
  | .ls u _ _ => decide (u = t) && wMajor w == 0x03
  | .br u _ _ _ _ _ => decide (u = t) && wMajor w == 0x04
  | .fp u _ rnd rd rs1 rs2 _ =>
    decide (u = t) && wMajor w == 0x05 && nbits w 1 0 == rndCode rnd && wRd w == rd && wRs1 w == rs1 && wRs2 w == rs2
  | .vls u _ => decide (u = t) && wMajor w == 0x11
  | .vfp u op => decide (u = t) && wMajor w == 0x13 && wRd w == op.vd && wRs1 w == op.vs1 && wRs2 w == op.vs2
  | .vcvt u op => decide (u = t) && wMajor w == 0x14 && wRd w == op.vd && wRs1 w == op.vs1
  | .vred u op => decide (u = t) && wMajor w == 0x15 && wRd w == op.vd && wRs1 w == op.vs1 && wRs2 w == op.vs2
  | i => decide (coreCommand t w = some i)

end Sys2Proof
end

