-- ==== Sys2Proof/Config.lean ====
section
/-!
DEFINITION. Sys2Proof/Config.lean: what an implementation fixes, and the free values: constants without a body, of which
nothing can be proved (notes/assumptions 2, 21, 22, 23).
-/
namespace Sys2Proof.Config

/-- A byte whose value the manual leaves unspecified: the n-th such byte (log 2). -/
opaque freeByte : Nat → Byte

/-- A 64-bit value the manual leaves open: the n-th such value (log 2). -/
opaque freeWord : Nat → Word

/-- A choice between two outcomes that the manual leaves open: the n-th (log 2). -/
opaque freeBool : Nat → Bool

/-- Draob's forward schedule of a pattern image, as the engine reads it: the supernodes in forward-schedule order, each
the list of its pivot columns in elimination order. The encoding is opaque (05 R112, log 21). -/
opaque schedule : List Byte → List (List Nat)

/-- RES (0) and THR (1) of a command that ends in RANGE_EXCEEDED and so returns no iterate, for its inputs (06 R142, log 2). -/
opaque rangeNorm : Nat → List Byte → Word

/-- Byte n of the factor region after a factorisation that stopped, for its inputs (05 R127, log 2). -/
opaque stoppedFactor : List Byte → Nat → Byte

/-- Byte n of a channel slice, whose layout the manual does not give, for what the slice holds: command records, and table entry and
pivot record as numbers (05 R106, log 81). -/
opaque sliceByte : List (BitVec 512) → List Nat → Nat → Byte

/-- The order in which a factorisation writes factor entries into the factor region: entry (row, column) of L (true) or
of U or D (false) (05 R125, log 21). -/
opaque factorOrder : List Byte → List (Nat × Nat × Bool)

/-- The tree neighbours of a module in the schedules of a group (11 R284, log 21). -/
opaque treeNeighbours : Nat → List Nat → List Nat

/-- Source UDP port of sync datagrams, and the n-th of the 64 source ports of data datagrams to a module (11 R272, log 23). -/
opaque ethSyncPort : BitVec 16
opaque ethDataPort : BitVec 16 → Nat → BitVec 16

/-- Units in the receive buffer of an Ethernet port from which on the port pauses its peer's data priority (11 R262, R271, log 23). -/
opaque pfcUnits : Nat

/-- Element i of the source of a vector conversion to elements less than half as wide, which lies outside the register group, for the
source format and the first register (07 R173, log 86). -/
opaque vcvtOutside : BitVec 4 → Nat → Nat → Nat

/-- Whether a word of a class whose functions the manual does not list (INT, INTI, LS, BR, VLS, VFP, VCVT, VRED, and FP beside its RND field) is
an instruction (07 R154, log 22). -/
opaque classWordAllowed : BitVec 32 → Bool

/-- The root secret that the part's PUF gives; salt and info of the key derivation from it (15 R337, log 23). -/
opaque rootSecret : BitVec 256
opaque hkdfSalt : List Byte
opaque keyInfo : List Byte → List (List Byte) → List Byte

/-- A public key as bytes; the signed part of a level 3 certificate, and the certificate, in DER; levels 0 to 2 (15 R338, log 23). -/
opaque pointBytes : Nat → Nat → List Byte
opaque certBody : List (List Byte) → List Byte
opaque certDer : List Byte → BitVec 384 × BitVec 384 → List Byte
opaque upperCerts : List Byte

/-- The nonce of the n-th signature for which the manual gives none (log 27). -/
opaque signNonce : Nat → Nat

/-- AES-XTS-256 of a 64-byte data unit, by key and tweak: decryption gives back what was encrypted, so State holds the plaintext
(09 R222, log 14). -/
opaque aesXts : Nat → BitVec 128 → List Byte → List Byte

/-- SHA-384 of the mask ROM, measurement 7 (15 R341, log 23). -/
opaque romDigest : BitVec 384

/-- The image that the module came with (15 R342, log 23). -/
opaque factoryImage : List Byte

/-- The microcode of an image that reaches results, and its revision where it is not that of the first image (13 R309; 20 R446, log 23). -/
opaque resultMicrocode : List Byte → List Byte
opaque ucodeRev : List Byte → Half

/-- The security version and the version string in an image's header (15 R341, R343, log 23). -/
opaque svnOf : List Byte → BitVec 16
opaque versionOf : List Byte → List Byte

/-- The vendor ID in PF0's configuration space (19 R435, log 23). -/
opaque vendorId : BitVec 16

/-- The lowest rail voltage of die d at point k, in microvolts, from the signed factory record (17 R391, log 23). -/
opaque vmin : Nat → Nat → Nat

/-- BAR addresses the host gave each function (16 R358, log 23). -/
opaque barAddress : Fn → Nat → Word

end Sys2Proof.Config
end

