-- ==== Sys2Proof/Machine/Sha384.lean ====
section
/-!
DEFINITION. Sys2Proof/Machine/Sha384.lean: SHA-384 (FIPS 180-4, which the manual names and does not spell out: log 27).
-/
namespace Sys2Proof.Machine

/-! ### SHA-384 -/

/-- The 80 round constants in their order, eight to a row, each written as 16 hexadecimal digits. -/
def roundRows : List Nat :=
  [0x428a2f98d728ae227137449123ef65cdb5c0fbcfec4d3b2fe9b5dba58189dbbc3956c25bf348b53859f111f1b605d019923f82a4af194f9bab1c5ed5da6d8118,
   0xd807aa98a303024212835b0145706fbe243185be4ee4b28c550c7dc3d5ffb4e272be5d74f27b896f80deb1fe3b1696b19bdc06a725c71235c19bf174cf692694,
   0xe49b69c19ef14ad2efbe4786384f25e30fc19dc68b8cd5b5240ca1cc77ac9c652de92c6f592b02754a7484aa6ea6e4835cb0a9dcbd41fbd476f988da831153b5,
   0x983e5152ee66dfaba831c66d2db43210b00327c898fb213fbf597fc7beef0ee4c6e00bf33da88fc2d5a79147930aa72506ca6351e003826f142929670a0e6e70,
   0x27b70a8546d22ffc2e1b21385c26c9264d2c6dfc5ac42aed53380d139d95b3df650a73548baf63de766a0abb3c77b2a881c2c92e47edaee692722c851482353b,
   0xa2bfe8a14cf10364a81a664bbc423001c24b8b70d0f89791c76c51a30654be30d192e819d6ef5218d69906245565a910f40e35855771202a106aa07032bbd1b8,
   0x19a4c116b8d2d0c81e376c085141ab532748774cdf8eeb9934b0bcb5e19b48a8391c0cb3c5c95a634ed8aa4ae3418acb5b9cca4f7763e373682e6ff3d6b2b8a3,
   0x748f82ee5defb2fc78a5636f43172f6084c87814a1f0ab728cc702081a6439ec90befffa23631e28a4506cebde82bde9bef9a3f7b2c67915c67178f2e372532b,
   0xca273eceea26619cd186b8c721c0c207eada7dd6cde0eb1ef57d4f7fee6ed17806f067aa72176fba0a637dc5a2c898a6113f9804bef90dae1b710b35131c471b,
   0x28db77f523047d8432caab7b40c724933c9ebe0a15c9bebc431d67c49c100d4c4cc5d4becb3e42b6597f299cfc657e2a5fcb6fab3ad6faec6c44198c4a475817]

/-- The eight 64-bit words of a row, the first one highest. -/
def wordsOfRow (row : Nat) : List Nat := (List.range 8).map fun i => row >>> (448 - 64 * i) % 2 ^ 64

def shaK : List Nat := roundRows.flatMap wordsOfRow

/-- Initial hash value of SHA-384. -/
def shaH : List Nat :=
  wordsOfRow
    0xcbbb9d5dc1059ed8629a292a367cd5079159015a3070dd17152fecd8f70e593967332667ffc00b318eb44a8768581511db0c2e0d64f98fa747b5481dbefa4fa4

/-- Addition modulo 2^64. -/
def add64 (a b : Nat) : Nat := (a + b) % 2 ^ 64

/-- Rotation right of a 64-bit word. -/
def rotr64 (x n : Nat) : Nat := x >>> n ||| (x <<< (64 - n)) % 2 ^ 64

def shaS0 (x : Nat) : Nat := rotr64 x 28 ^^^ rotr64 x 34 ^^^ rotr64 x 39
def shaS1 (x : Nat) : Nat := rotr64 x 14 ^^^ rotr64 x 18 ^^^ rotr64 x 41
def shaG0 (x : Nat) : Nat := rotr64 x 1 ^^^ rotr64 x 8 ^^^ x >>> 7
def shaG1 (x : Nat) : Nat := rotr64 x 19 ^^^ rotr64 x 61 ^^^ x >>> 6
def shaCh (x y z : Nat) : Nat := (x &&& y) ^^^ ((2 ^ 64 - 1 - x) &&& z)
def shaMaj (x y z : Nat) : Nat := (x &&& y) ^^^ (x &&& z) ^^^ (y &&& z)

/-- Big-endian 64-bit words of a list of bytes, n of them. -/
def beWords : Nat → List Byte → List Nat
  | 0, _ => []
  | n + 1, bs => ((bs.take 8).foldl (fun a b => a * 256 + b.toNat) 0) :: beWords n (bs.drop 8)

/-- The working variables. -/
structure ShaVars where
  a : Nat
  b : Nat
  c : Nat
  d : Nat
  e : Nat
  f : Nat
  g : Nat
  h : Nat
  deriving DecidableEq, Repr

def shaRound (v : ShaVars) (k w : Nat) : ShaVars :=
  let t1 := add64 (add64 (add64 v.h (shaS1 v.e)) (add64 (shaCh v.e v.f v.g) k)) w
  let t2 := add64 (shaS0 v.a) (shaMaj v.a v.b v.c)
  { a := add64 t1 t2, b := v.a, c := v.b, d := v.c, e := add64 v.d t1, f := v.e, g := v.f, h := v.g }

/-- Rounds over the constants that are left; the list holds the next sixteen words of the message schedule. -/
def shaRounds : List Nat → List Nat → ShaVars → ShaVars
  | [], _, v => v
  | k :: ks, ws, v =>
    let w0 := ws.headD 0
    let w := add64 (add64 (shaG1 (ws.getD 14 0)) (ws.getD 9 0)) (add64 (shaG0 (ws.getD 1 0)) w0)
    shaRounds ks (ws.drop 1 ++ [w]) (shaRound v k w0)

/-- One block of 128 bytes. -/
def shaBlock (h : ShaVars) (block : List Byte) : ShaVars :=
  let v := shaRounds shaK (beWords 16 block) h
  { a := add64 h.a v.a, b := add64 h.b v.b, c := add64 h.c v.c, d := add64 h.d v.d, e := add64 h.e v.e, f := add64 h.f v.f,
    g := add64 h.g v.g, h := add64 h.h v.h }

/-- n blocks. -/
def shaBlocks : Nat → List Byte → ShaVars → ShaVars
  | 0, _, h => h
  | n + 1, bs, h => shaBlocks n (bs.drop 128) (shaBlock h (bs.take 128))

/-- n bytes of a number, highest first. -/
def beBytesN : Nat → Nat → List Byte
  | 0, _ => []
  | n + 1, v => BitVec.ofNat 8 (v / 256 ^ n) :: beBytesN n v

/-- The padded message. -/
def shaPad (bs : List Byte) : List Byte :=
  bs ++ [0x80] ++ List.replicate ((239 - bs.length % 128) % 128) 0 ++ beBytesN 16 (8 * bs.length)

/-- SHA-384 of a list of bytes, 48 bytes. -/
def sha384 (bs : List Byte) : List Byte :=
  let m := shaPad bs
  let h := shaBlocks (m.length / 128) m
    { a := shaH.getD 0 0, b := shaH.getD 1 0, c := shaH.getD 2 0, d := shaH.getD 3 0, e := shaH.getD 4 0, f := shaH.getD 5 0,
      g := shaH.getD 6 0, h := shaH.getD 7 0 }
  beBytesN 8 h.a ++ beBytesN 8 h.b ++ beBytesN 8 h.c ++ beBytesN 8 h.d ++ beBytesN 8 h.e ++ beBytesN 8 h.f

end Sys2Proof.Machine
end

