-- ==== Sys2Proof/Machine/Ecdsa.lean ====
section
/-!
DEFINITION. Sys2Proof/Machine/Ecdsa.lean: HMAC and HKDF with SHA-384, the curve brainpoolP384r1, ECDSA on it with the nonce of RFC 6979
(13 R318; 15 R337). The standards are those that the manual names and does not spell out (PRESUMED, log 27).
-/
namespace Sys2Proof.Machine

/-! ### HMAC and HKDF (RFC 2104, RFC 5869) -/

/-- The number that bytes spell, highest first. -/
def beNat (bs : List Byte) : Nat := bs.foldl (fun n b => 256 * n + b.toNat) 0

/-- A key as one block of the hash, 128 bytes. -/
def hmacBlock (key : List Byte) : List Byte :=
  let k := if key.length ≤ 128 then key else sha384 key
  k ++ List.replicate (128 - k.length) 0

/-- HMAC with SHA-384. -/
def hmac (key msg : List Byte) : List Byte :=
  let pad (x : Byte) : List Byte := (hmacBlock key).map fun b => b ^^^ x
  sha384 (pad 0x5C ++ sha384 (pad 0x36 ++ msg))

/-- 384 bits of HKDF output: one block. -/
def hkdf (salt secret info : List Byte) : List Byte := hmac (hmac salt secret) (info ++ [0x01])

/-! ### brainpoolP384r1 (RFC 5639) -/

/-- The field's prime, and the order of the base point. -/
def curveP : Nat :=
  0x8cb91e82a3386d280f5d6f7e50e641df152f7109ed5456b412b1da197fb71123acd3a729901d1a71874700133107ec53
def curveN : Nat :=
  0x8cb91e82a3386d280f5d6f7e50e641df152f7109ed5456b31f166e6cac0425a7cf3ab6af6b7fc3103b883202e9046565

/-- Coefficient a of y² = x³ + a x + b. -/
def curveA : Nat :=
  0x7bc382c63d8c150c3c72080ace05afa0c2bea28e4fb22787139165efba91f90f8aa5814a503ad4eb04a8c7dd22ce2826

/-- A point, or the point at infinity. -/
abbrev CurvePoint := Option (Nat × Nat)

/-- The base point. -/
def curveG : CurvePoint := some
  (0x1d1c64f068cf45ffa2a63a81b7c13f6b8847a3e77ef14fe3db7fcafe0cbd10e8e826e03436d646aaef87b2e247d4af1e,
   0x8abe1d7520f9c2a45cb1eb8e95cfd55262b70b29feec5864e19c054ff99129280e4646217791811142820341263c5315)

/-- The lowest n bits of e, highest first, drive square and multiply: x^e modulo m. -/
def powMod (m x e : Nat) : Nat → Nat
  | 0 => 1
  | n + 1 =>
    let h := powMod m x (e / 2) n
    let q := h * h % m
    if e % 2 = 1 then q * x % m else q

/-- Inverse modulo a prime, by Fermat. -/
def invMod (m x : Nat) : Nat := powMod m (x % m) (m - 2) 384

/-- A difference in the field. -/
def fieldSub (x y : Nat) : Nat := (x + curveP - y) % curveP

/-- The third point on the line of slope t through a point with abscissa x2, mirrored. -/
def thirdPoint (t : Nat) (a : Nat × Nat) (x2 : Nat) : CurvePoint :=
  let x := fieldSub (fieldSub (t * t % curveP) a.1) x2
  some (x, fieldSub (t * fieldSub a.1 x % curveP) a.2)

/-- Sum of two points. -/
def pointAdd : CurvePoint → CurvePoint → CurvePoint
  | none, b => b
  | a, none => a
  | some a, some b =>
    if a.1 ≠ b.1 then thirdPoint (fieldSub b.2 a.2 * invMod curveP (fieldSub b.1 a.1) % curveP) a b.1
    else if a.2 = b.2 ∧ a.2 ≠ 0 then
      thirdPoint ((3 * a.1 * a.1 + curveA) * invMod curveP (2 * a.2) % curveP) a a.1
    else none

/-- k times a point, over the lowest n bits of k. -/
def pointMul (k : Nat) (a : CurvePoint) : Nat → CurvePoint
  | 0 => none
  | n + 1 =>
    let h := pointMul (k / 2) a n
    let d := pointAdd h h
    if k % 2 = 1 then pointAdd d a else d

/-- The public key of a private key. -/
def publicKey (d : Nat) : CurvePoint := pointMul d curveG 384

/-- A private key from 384 bits: reduced modulo the group order, 0 replaced by 1 (15 R337). -/
def privateKey (bs : List Byte) : Nat :=
  let d := beNat bs % curveN
  if d = 0 then 1 else d

/-! ### ECDSA -/

/-- r and s. -/
abbrev Signature := BitVec 384 × BitVec 384

/-- The signature of a hash under key d with nonce k; none where r or s is 0. -/
def signWith (d : Nat) (hash : List Byte) (k : Nat) : Option Signature :=
  let r := match pointMul k curveG 384 with | none => 0 | some q => q.1 % curveN
  let s := invMod curveN k * ((beNat hash + r * d) % curveN) % curveN
  if r = 0 ∨ s = 0 then none else some (BitVec.ofNat 384 r, BitVec.ofNat 384 s)

/-- The generator of RFC 6979, section 3.2, step h: candidates in turn until one will do, at most n. -/
def nonceLoop (d : Nat) (hash : List Byte) : Nat → List Byte → List Byte → Option Signature
  | 0, _, _ => none
  | n + 1, k, v =>
    let v := hmac k v
    let c := beNat v
    match (if 1 ≤ c ∧ c < curveN then signWith d hash c else none) with
    | some g => some g
    | none =>
      let k := hmac k (v ++ [0x00])
      nonceLoop d hash n k (hmac k v)

/-- The signature of a message with the nonce of RFC 6979; after 4,096 candidates, each good with a chance above one half, 0 (log 27). -/
def ecdsaSign (d : Nat) (msg : List Byte) : Signature :=
  let hash := sha384 msg
  let seed := beBytesN 48 d ++ beBytesN 48 (beNat hash % curveN)
  let v := List.replicate 48 (0x01 : Byte)
  let k := hmac (List.replicate 48 0) (v ++ [0x00] ++ seed)
  let v := hmac k v
  let k := hmac k (v ++ [0x01] ++ seed)
  (nonceLoop d hash 4096 k (hmac k v)).getD (0, 0)

end Sys2Proof.Machine
end

