-- ==== Sys2Proof/Machine/StateHost.lean ====
section
/-!
DEFINITION. Sys2Proof/Machine/StateHost.lean: the state of one host function (rings, event ring, fetched commands) and of one
partition (binding entry, program slots, launch, watch table, link work).
-/
namespace Sys2Proof.Machine

/-! ### Host functions (16) -/

/-- How far a fetched command is: fetched and not yet started, or started and waiting for its end (16 R369). -/
inductive CmdPhase where
  | fetched | started
  deriving DecidableEq, Repr

/-- How a command ended whose record has yet to be written to the silo: the record's partition, address and length, and what the
completion will say (13 R317, 06 R143). -/
structure Ended where
  pid    : Pid
  addr   : Nat
  len    : Nat
  code   : BitVec 16
  status : Nat
  info   : Nat
  deriving DecidableEq, Repr

/-- A fetched command that has not completed (16 R362). -/
structure Cmd where
  cid   : Nat
  ring  : RingId
  desc  : BitVec 512
  phase : CmdPhase
  done  : Option Ended := none         -- it ended, its record waits for a clear
  deriving DecidableEq, Repr

/-- One ring pair (16 R360, R361, R370). -/
structure Ring where
  sqBase : Word                -- HIF_SQ_BASEn
  cqBase : Word                -- HIF_CQ_BASEn
  en     : Bool                -- HIF_RING_CFGn
  prio   : Bool
  vec    : BitVec 11
  cqlog  : Byte
  sqlog  : Byte
  cfgErr : Bool                -- HIF_RING_STATn
  dbErr  : Bool
  sqHead : Nat                 -- SQHD
  sqTail : Nat
  cqTail : Nat                 -- next completion entry the module writes
  cqHead : Nat
  phase  : Bool
  abort  : Option Nat          -- ring index written to ABORT_DB, not yet fetched
  deriving DecidableEq, Repr

/-- An event before its entry is written (16 R384). -/
structure Event where
  code  : BitVec 16
  pid   : Byte
  stamp : Word
  d2    : Word
  d3    : Word
  deriving DecidableEq, Repr

/-- The event ring (16 R384, 19 R430). -/
structure EvRing where
  base   : Word
  en     : Bool
  vec    : BitVec 11
  log    : Byte
  tail   : Nat
  head   : Nat
  phase  : Bool
  lost   : Half                -- HIF_EVQ_LOST
  drops  : Half                -- dropped since the last overflow event
  unread : List (BitVec 16)    -- codes of the entries not yet consumed, oldest first
  held   : List Event          -- raised before the ring is enabled
  deriving DecidableEq, Repr

/-- One host function. -/
structure Func where
  maxv    : Byte               -- HIF_VERSION_REQ
  minv    : Byte
  act     : Byte               -- HIF_VERSION_ACT
  rings   : Vector Ring 64
  evq     : EvRing
  cmds    : List Cmd           -- fetched, incomplete, in fetch order
  nextCid : Nat                -- number of the next command fetched (log 15)
  unmasked : List Nat          -- MSI-X vectors whose Mask bit is 0
  msixPend : List Nat          -- Pending Bits
  atc     : List (BitVec 52)   -- pages held in the address translation cache
  lastHi  : Nat                -- round robin among high-priority pairs
  lastLo  : Nat
  deriving DecidableEq, Repr

/-! ### Partitions (14) -/

/-- The binding entry (14 R324, R326). -/
structure Entry where
  st     : PState
  epoch  : Half
  mstep  : Nat                 -- PART_STATEn.MSTEP
  hfn    : Fn
  sheaves : BitVec 16
  gran   : List Nat            -- device granules in silo order
  blk    : List Nat            -- sync-object blocks in order
  weight : Byte
  ports  : BitVec 16
  pshare : Byte
  jobTag : Word
  record : BitVec 8192         -- the binding record in effect (16 R377)
  unbindBy : Option (Fn × Nat) -- the UNBIND command that waits for the moult
  keyMoult : Bool              -- a key moult runs (15 R353)
  moultSrc : Source            -- what started it
  moultFull : Bool             -- FULL debug is granted at its end (15 R354)
  deriving DecidableEq, Repr

/-- An allocated logical channel of a program (05 R117). -/
structure ChanMap where
  lse : Nat
  lch : Nat
  eng : EngId
  ch  : ChanId
  deriving DecidableEq, Repr

/-- A loaded program (16 R371, R380; 01 R26). -/
structure Program where
  image  : List Byte
  addr   : Nat                 -- silo address of the image
  s      : Nat
  t      : Nat
  e      : Nat
  sheafs : List EngId          -- physical sheaf of logical sheaf k
  tiles  : List TileId         -- physical tile of logical tile L
  chans  : List ChanMap
  chain  : List Byte           -- CHAIN_prev (13 R319)
  deriving DecidableEq, Repr

/-- Watch entry of a partition (08 R196, R197). -/
structure Watch where
  widx    : Nat
  thresh  : Nat
  tid     : BitVec 32
  streak  : Half
  touched : Bool
  nz      : Bool
  deriving DecidableEq, Repr

/-- Phases of a launch (10 R255, 13 R311): started, accepted with a count C, hint sent, released. -/
inductive LaunchPhase where
  | started | accepted | hinted | released
  deriving DecidableEq, Repr

/-- A started link work entry: moving data, before its verdict, or reducing after it (11 R276, 12 R294, R295). -/
inductive LinkPhase where
  | moving | awaitVerdict | reducing
  deriving DecidableEq, Repr

/-- A link work entry that has started and not completed. -/
structure LinkEntry where
  idx      : Nat
  phase    : LinkPhase
  carry    : Bool                      -- own deferral buffer was VALID at the start (12 R297)
  unacked  : List (ModId × Nat)        -- transfers not yet acknowledged: module, number among those to it (11 R283)
  deriving DecidableEq, Repr

/-- A contribution of another rank to a link entry, as far as its pieces have arrived (11 R279). -/
structure Arrival where
  entry : Nat
  rank  : Nat
  carry : Bool
  src   : ModId
  data  : List Byte
  whole : Bool
  deriving DecidableEq, Repr

/-- A ready notice that the arbiter stamped (12 R294). -/
structure Notice where
  entry : Nat
  rank  : Nat
  stamp : Nat
  carry : Bool
  deriving DecidableEq, Repr

/-- A verdict (12 R295): excluded, carrying and waited-for ranks, and whether it ends the entry with E_FIELD (12 R301). -/
structure Verdict where
  entry    : Nat
  excluded : List Nat
  carrying : List Nat
  waited   : List Nat
  bad      : Bool
  deriving DecidableEq, Repr

/-- Intervention flags of a launch (13 R312), each with the earliest stamp of an event that sets it. -/
structure Flags where
  pwr  : Option Nat
  thm  : Option Nat
  tmg  : Option Nat
  mnt  : Option Nat
  cont : Option Nat
  deriving DecidableEq, Repr

/-- A launch of a partition (16 R367, R372). -/
structure Launch where
  slot    : SlotId
  fn      : Fn
  cid     : Nat
  at_     : Bool               -- LAUNCH_AT
  nmod    : Nat
  rrec    : Bool
  dgst    : Bool
  sign    : Bool
  rplay   : Bool
  seed    : Word
  step    : Word
  c       : Nat                -- emergence count
  raddr   : Nat
  phase   : LaunchPhase
  overflow : Bool              -- REGION_OVERFLOW was raised (08 R202)
  ended   : Bool               -- every participant stopped at the top rung with OVA = 1
  whash   : BitVec 384
  ihash   : BitVec 384
  flags   : Flags
  tEnd    : Nat                -- stamp of the last result write so far
  nextEntry : Nat              -- link work list (11 R276)
  lwait   : Option (Nat × Option (BitVec 16)) -- the next entry's wait: issue stamp, the code it ended with
  active  : List LinkEntry
  inbox   : List Arrival       -- contributions received (11 R279)
  notices : List Notice        -- received as arbiter
  closed  : List Nat           -- entries whose window closed before any notice (12 R295)
  sentVerdicts : List Nat      -- entries whose verdict this arbiter has sent
  verdicts : List Verdict      -- received
  deriving DecidableEq, Repr

/-- Keys and state of one peer of the partition's job (11 R274, R275, R284). -/
structure Peer where
  id      : ModId
  keyed   : Bool
  keyGen  : Nat                -- which key was drawn
  rekey   : Bool               -- a rekey is due (15 R350)
  frames  : Nat                -- frame counter since the key
  fails   : Nat                -- frames failed in a row
  lastAlive : Nat
  suspended : Option Nat       -- keep-alive test suspended until
  lost    : Option (BitVec 16) -- the code that ended the peer (11 R284, R285)
  lastPut : Option Nat
  ver     : BitVec 4           -- transport version of the pair in Ethernet mode (11 R267)
  xfers   : Nat                -- transfers issued to it (10 R248)
  tx      : PerVc              -- number of the next frame to it (11 R264)
  rx      : PerVc              -- number of the next frame expected from it
  ahead   : List Nat           -- sync frames taken before their turn
  early   : List (HalfId × Frame) -- data frames in the receive buffers, before their turn or for a granule that waits (11 R266)
  out     : PerVc              -- Ethernet: credit units sent and not returned (11 R272)
  owed    : PerVc              -- Ethernet: credit units freed here and not yet returned
  torn    : Option (BitVec 16) -- first failure in the put that is arriving
  deriving DecidableEq, Repr

/-- One partition. -/
structure Part where
  entry   : Entry
  slots   : Vector (Option Program) 8
  results : Vector (Option (BitVec 4096)) 8   -- result-record copies (16 R378)
  launch  : Option Launch
  watch   : List Watch
  stash   : List Nat           -- counters, logical sheaf × 4 (08 R206)
  peers   : List Peer
  slackN  : BitVec 24          -- PWR_SLACKn.NREL
  slack   : BitVec 40          -- PWR_SLACKn.SLACK
  deferred : List (Nat × Nat × Nat) -- as arbiter: slot, entry and rank of contributions deferred and not yet seen carried (12 R297)
  lastArr : List (Nat × Nat)   -- launch barriers: object, stamp of the last local arrival (17 R399)
  shed    : Half × Half        -- LNK_COLL_SHEDn ENG0, ENG1
  cvt     : Half × Half        -- LNK_COLL_CVTn
  excl    : Half × Half        -- LNK_DL_EXCLn
  waited  : Half × Half        -- LNK_DL_WAITEDn
  waitLim : BitVec 49          -- SYN_WAIT_LIMITn
  aborting : Bool              -- an ABORT runs: no descriptor is fetched (16 R379)
  deriving DecidableEq, Repr

end Sys2Proof.Machine
end

