-- ==== Sys2Proof/Machine/StatePlat.lean ====
section
/-!
DEFINITION. Sys2Proof/Machine/StatePlat.lean: the state of the module beside tiles, engines, partitions and functions: time
and sync fabric (10), unit copies and clear queue (14, 18, 09), memory controllers (09, 15), power and pins (17, 21), links
(11, 12), security (15), boot and management (19).
-/
namespace Sys2Proof.Machine

/-! ### Messages the module sends (log 3) -/

/-- What a module sends on its links (10 R250, 11, 12). -/
inductive Message where
  | sync (index : BitVec 16) (op : SyncOp) (id : Nat)
  | arrive (index : BitVec 16) (flag : Bool) (gen : BitVec 16)
  | refuseArrive (index : BitVec 16) (code : BitVec 16)
  | release (index : BitVec 16) (rel : Release)
  | ack (seq : Nat) (code : BitVec 16)                        -- of a sync operation
  | landed (xfer : Nat) (code : BitVec 16)                    -- of a put or collective transfer (11 R283)
  | nak (src : ModId) (vc : Vc) (seq : Nat)
  | credit (units : PerVc)                                    -- a credit frame (11 R265)
  | time (gt : Word)
  | ptpSync (gt : Word)                                       -- IEEE 1588 on Ethernet ports (11 R273)
  | ptpDelayReq
  | pfc (pause : Bool)                                        -- IEEE 802.1Qbb, data priority (11 R262, R271)
  | keepAlive
  | retrainNotice (peer : ModId)
  | unbind (peer : ModId) (epoch : Half)
  | abort
  | handshake
  | put (xfer addr : Nat) (data : List Byte) (last : Bool)
  | contribution (entry rank : Nat) (carry : Bool) (data : List Byte) (last : Bool)
  | ready (entry : Nat) (carry : Bool)
  | verdict (entry : Nat) (excluded carrying waited : List Nat)
  deriving DecidableEq, Repr

/-- Addresses and marks of a datagram (11 R272). -/
structure NetHeader where
  dst  : BitVec 128
  mac  : BitVec 48
  udp  : BitVec 16
  src  : BitVec 16
  dscp : BitVec 6
  deriving DecidableEq, Repr

/-- Header of a frame as it leaves (11 R264, R265): half-port, modules, job, virtual channel, payload length, sequence number, credits
returned, what has arrived from the pair, and on Ethernet the datagram it travels in. -/
structure TxHeader where
  half    : HalfId
  src     : ModId
  dst     : ModId
  job     : Word
  vc      : Vc
  len     : Nat
  seq     : Nat
  credits : PerVc
  arrived : PerVc
  net     : Option NetHeader
  deriving DecidableEq, Repr

/-- What leaves the module, in order (log 3). -/
inductive Output where
  | msix (fn : Fn) (vec : Nat)                     -- MSI-X message (16 R385)
  | link (job : Pid) (peer : ModId) (m : Message)  -- to a peer of a partition's job, without key and credit
  | frame (hd : TxHeader) (m : Message)            -- a frame to a peer of a partition's job
  | port (half : HalfId) (m : Message)             -- on one port or half-port
  | net (port : PortId) (body : List Byte)         -- neighbour advertisement, echo reply (11 R273)
  | mctp (b : Binding) (body : List Byte)          -- MCTP, vendor and PLDM responses (19 R435 to R438)
  | i3cAddr (a : BitVec 7)                         -- dynamic address taken (19 R435)
  | pldmEvent (code : BitVec 16)                   -- PLDM event notification (19 R437)
  | spdm (via : Source) (body : List Byte)         -- SPDM responses (15 R340)
  | signed (via : Source) (r s : BitVec 384)       -- signature of a response (15 R340)
  | read (b : Binding) (value : Word)              -- reply of REG_READ (19 R436)
  | jtag (granted : BitVec 2)                      -- answer to an attach through JTAG (15 R354)
  deriving DecidableEq, Repr

/-! ### Global time (10 R236 to R241, 20 R454) -/

/-- Lock states (10 R238). -/
inductive Lock where
  | unlocked | acquiring | locked | holdover
  deriving DecidableEq, Repr

structure TimeSt where
  gt       : Word              -- master counter
  cd0      : Word              -- copy on CD0
  cd1      : Word              -- copy on CD1
  lastSend : Option Nat        -- stamp of the last time messages sent
  lock     : Lock
  offset   : BitVec 16         -- SYN_TIME_STAT.OFFSET
  good     : Nat               -- consecutive messages within 1 gt
  lastMsg  : Nat               -- stamp of the last time message
  holdAt   : Nat               -- stamp of the entry into HOLDOVER
  slew     : Int               -- correction still to be made
  lastSlew : Int               -- the last correction (10 R238)
  slewAt   : Nat               -- count at the last slewed tick
  stepLeft : Bool              -- no step and no lock since reset (10 R237, R238)
  root     : Bool              -- SYN_TIME_CFG
  upHalf   : Bool
  upPort   : BitVec 3
  lead     : BitVec 16         -- SYN_LAUNCH_LEAD
  lateRel  : Half              -- SYN_LATE_REL
  deriving DecidableEq, Repr

/-! ### Sync fabric (10 R242 to R258) -/

/-- A waiting operation (10 R246, R249). -/
structure SyncWait where
  obj   : Nat
  who   : Waiter
  op    : SyncOp
  stamp : Nat                  -- arrival at the object
  issue : Nat
  deriving DecidableEq, Repr

/-- An operation a tile issued that has not arrived at the object (10 R247, R248): what must complete first, whether the
tile waits for the status. -/
structure SyncSent where
  id     : Nat
  src    : TileId
  pid    : Pid
  remote : Option ModId
  index  : BitVec 16
  op     : SyncOp
  needM  : Word
  needD  : Word
  needU  : Word
  needX  : Nat                 -- transfers issued to the remote module before it
  issue  : Nat
  reply  : Bool
  deriving DecidableEq, Repr

/-- A remote operation sent and not acknowledged (10 R250). -/
structure RemoteOp where
  id    : Nat
  pid   : Pid
  peer  : ModId
  who   : Option Waiter        -- who waits for its code
  bar   : Option Nat           -- the barrier object whose aggregated arrival this is (10 R252)
  deriving DecidableEq, Repr

/-- A launch barrier's release received and not yet acted on (10 R253, R254). -/
structure PendRelease where
  obj    : Nat
  pid    : Pid
  r      : Nat
  flag   : Bool
  hinted : Bool
  deriving DecidableEq, Repr

structure SyncSt where
  objs     : List (Nat × BitVec 128)   -- objects that are not all zero, by ascending index (10 R244)
  waits    : List SyncWait             -- in arrival order
  sent     : List SyncSent
  children : List (Nat × ModId × BitVec 16)  -- child modules of a barrier, with the generation they arrived in (10 R252)
  pends    : List PendRelease
  remotes  : List RemoteOp
  lastArr  : List (Nat × Nat × Nat)    -- object, stamp and source rank of its last operation (10 R246)
  nextId   : Nat
  deriving DecidableEq, Repr

/-! ### Binding state held in the units (14 R325, 18 R417, R418), clear queue (09 R234) -/

structure BindSt where
  bepoch   : Half
  sheaves  : Vector UnitState 16
  grans    : Vector UnitState 376
  blocks   : Vector UnitState 64
  ports    : Vector UnitState 16       -- half-ports
  fns      : Vector UnitState 17
  fenced   : List UnitId               -- units that refuse access (18 R418)
  clrPend  : BitVec 376                -- PART_CLR_PENDn
  clearing : Option Nat                -- the granule whose clear runs
  moved    : List Nat                  -- granules moved to the head by a held write, first come first
  heldWr   : List (Nat × List Byte)    -- held writes of the module's own records, oldest first (09 R234)
  rstPid   : Pid                       -- PART_RST_CTL
  rstOn    : Pid                       -- the partition whose reset runs (17 R407)
  rstBusy  : Bool
  rstErr   : Bool
  deriving DecidableEq, Repr

/-! ### Memory (09) -/

structure StackSt where
  temp  : Byte                         -- MEM_STACK_STATm
  level : BitVec 4
  ref2  : Bool
  deriving DecidableEq, Repr

/-- A retirement of a pseudo-channel that runs or waits (09 R230, R231). -/
structure Migration where
  pc   : Nat
  slot : Fin 8
  deriving DecidableEq, Repr

/-- A line of a memory-side cache (09 R218): its device address / 256, the sectors held, whether it is dirty, its KEEP mark, and
while it is dirty the values it had since it was last written back, latest first. -/
structure CacheLine where
  line  : Nat
  held  : BitVec 4
  dirty : Bool
  keep  : Bool
  old   : List (List Byte)
  deriving DecidableEq, Repr

structure MemSt where
  cache    : List CacheLine            -- both dies' caches, in each set the most recent line first
  cleared  : List Nat                  -- granules whose sectors carry clear marks (09 R233)
  wrote    : List Nat                  -- sectors (address / 64) of those granules written since
  bad      : List Nat                  -- uncorrectable sectors, by address (09 R227)
  epochOne : List Nat                  -- pages whose epoch bit is 1 (15 R346)
  stackSt  : Vector StackSt 8
  tthr     : Byte                      -- MEM_THROT_CFG
  pcue     : BitVec 5                  -- MEM_BUDGET_CFG
  pcpce    : BitVec 16
  rowpce   : Byte
  ce       : Half                      -- MEM_CE_CNT
  ue       : Half                      -- MEM_UE_CNT
  rowRep   : Half                      -- MEM_ROW_REP_CNT
  rowCnt   : List ((Nat × Nat × Nat) × Nat)   -- persistent errors of a row (pc, bank, row) in the window (09 R228)
  pcCnt    : List (Nat × Nat)          -- persistent errors of a pseudo-channel in the window
  pcUeCnt  : List (Nat × Nat)          -- uncorrectable errors of a pseudo-channel in the window
  window   : Nat                       -- number of the error window
  repaired : List (Nat × Nat × Nat)    -- rows replaced by spare rows (09 R229)
  pcRet    : BitVec 512                -- MEM_PC_RETn
  slots    : Vector (Option (Fin 512)) 8   -- MEM_RET_SLOTk
  running  : Option Migration
  queued   : List Nat                  -- pseudo-channels whose retirement waits, ascending
  exhausted : List Nat                 -- pseudo-channels whose headroom event was raised (09 R232)
  deriving DecidableEq, Repr

/-! ### Power, thermal control, pins (17, 21) -/

/-- Deep idle (17 R402). -/
inductive Deep where
  | none | entering | inside | leaving
  deriving DecidableEq, Repr

/-- The 54 V input (21 R460 to R463). -/
inductive InputSt where
  | none | applied | sag
  deriving DecidableEq, Repr

/-- Causes of ALERT_N (21 R461). -/
inductive Alert where
  | floor | diverged | fatal | rom
  deriving DecidableEq, Repr

structure PowerSt where
  cap      : BitVec 16                 -- PWR_CAP_CFG
  dthr     : Byte                      -- PWR_POLICY
  mmin     : BitVec 4
  kmax     : BitVec 5
  kmin     : BitVec 5
  pavg     : BitVec 16                 -- PWR_STAT
  plast    : BitVec 16
  mlvl     : BitVec 4
  klow     : BitVec 5
  fast     : Bool                      -- the last sample was above 1,800 W
  unmet    : Bool                      -- CAPUNMET: the last sample could not be met at the floors
  deepest  : Bool
  cfgErr   : Bool
  k        : Vector (BitVec 5) 16      -- operating point of each sheaf
  target   : Vector (Option (BitVec 5)) 16  -- a point that waits for the rail to settle, or for a release (17 R393, R409)
  pk       : Vector (BitVec 5) 16      -- the point that R395 gives each running partition
  lim      : Vector (BitVec 5) 16      -- the limit that safety loops set on each sheaf; 20: none
  window   : Nat                       -- number of the 1 ms window
  sum      : Nat                       -- of its samples
  count    : Nat
  unmetWin : Option Nat                -- the last window in which the cap could not be met
  ovrWin   : Option Nat                -- the last window for which a floor override was reported
  railWarn : Vector (Option Nat) 2     -- stamp of the last warning of the die's rail
  dieTemp  : Vector Byte 2
  dieThrot : Vector Bool 2             -- thermal throttle at work
  trim     : Vector Nat 2              -- ageing trim in 0.1 mV
  deep     : Deep
  deepReq  : Bool                      -- PWR_CTL.DEEP
  deriving DecidableEq, Repr

/-- A completion that waits for the PCIe link (21 R470). -/
structure HeldCpl where
  fn     : Fn
  cmd    : Cmd
  code   : BitVec 16
  status : Nat
  info   : Nat
  deriving DecidableEq, Repr

structure PinSt where
  input    : InputSt
  on       : Bool                      -- the module's rails are up
  pwrgd    : Bool
  perst    : Bool                      -- PERST_N is asserted
  hold     : Bool                      -- release of PERST_N comes early and is held (21 R461)
  trip     : Bool                      -- THERMTRIP_N is asserted
  alerts   : List Alert
  peClk    : Bool                      -- PE_REFCLK is present
  lnkClk   : Bool                      -- LNK_REFCLK is present
  pcieUp   : Bool
  heldCpl  : List HeldCpl               -- completions held while PCIe is down (21 R470)
  deriving DecidableEq, Repr

/-! ### Links (11, 12) -/

/-- State of a port or half-port (11 R263). -/
inductive PortState where
  | down | training | up | retrain | failed
  deriving DecidableEq, Repr

/-- LNK_PORT_CFGp (11 R262). -/
structure PortCfg where
  maxw  : BitVec 2
  split : Bool
  eth   : Bool
  epmd  : BitVec 2
  an    : Bool
  pfc   : Bool
  en    : Bool
  deriving DecidableEq, Repr

/-- A frame in a replay buffer (11 R268). -/
structure SentFrame where
  id    : FrameId
  hd    : TxHeader
  msg   : Message
  dgram : Bool
  sends : Nat
  at_   : Nat                          -- stamp of the last sending
  deriving DecidableEq, Repr

/-- A frame that waits for a key, a port or credit (11 R265, R274). -/
structure TxItem where
  pid  : Pid
  peer : ModId
  msg  : Message
  deriving DecidableEq, Repr

/-- A port (half 0 of an unsplit port) or half-port (11 R263, R264). -/
structure HalfPort where
  state   : PortState
  peer    : ModId
  lanes   : Byte                       -- ACTLANES: bit map of the active lanes
  rtcnt   : Nat
  width   : Nat
  ver     : BitVec 4
  out     : PerVc                      -- credit units sent and not returned (11 R265)
  owed    : PerVc                      -- units freed here and not yet returned
  replay  : List SentFrame
  skew    : Int                        -- lane delays recorded at training (10 R237)
  trained : Option Nat                 -- stamp of the last training
  deriving DecidableEq, Repr

/-- A lane (11 R269, R270). -/
structure Lane where
  retrain : Bool
  retryAt : Option Nat
  fails   : List Nat                   -- stamps of its failures, newest first
  tries   : Nat
  deriving DecidableEq, Repr

structure LinkSt where
  modId    : ModId
  cfg      : Vector PortCfg 8
  half     : Vector HalfPort 16
  laneRet  : Word
  lanes    : Vector Lane 64
  replays  : Half                      -- LNK_REPLAY_CNT
  discards : Half                      -- LNK_RX_DISCARD
  authFail : Half                      -- LNK_AUTH_FAIL
  pfx      : Word                      -- LNK_ETH_PREFIX
  gwmac    : Vector (BitVec 48) 8
  udp      : BitVec 16
  dscp     : BitVec 6
  paused   : Vector Bool 8             -- data priority paused by PFC
  pausing  : Vector Bool 8             -- the port has paused its peer's data priority
  txq      : List TxItem               -- frames that wait, oldest first
  deriving DecidableEq, Repr

/-! ### Security (15) -/

/-- TDI states (15 R352). -/
inductive Tdi where
  | unlocked | locked | run | error
  deriving DecidableEq, Repr

/-- An SPDM session (15 R340). -/
structure Session where
  id      : BitVec 32
  via     : Source
  up      : Bool                       -- FINISH has been answered
  period  : Nat                        -- heartbeat period in seconds
  last    : Nat
  keyGen  : Nat
  deriving DecidableEq, Repr

structure Rotation where
  link   : Bool                        -- the rotation of link keys (LINKRK)
  active : Bool
  cur    : Bool
  next   : Half                        -- NEXTPG
  waiter : Option (Fn × Nat)           -- the KEY_ROTATE of the memory rotation
  linkWaiter : Option (Fn × Nat)       -- and of the link rotation
  deriving DecidableEq, Repr

/-- State of an IDE stream (15 R351): key sets programmed, the key set at work. -/
structure Ide where
  prog   : Bool × Bool
  active : Option Bool
  deriving DecidableEq, Repr

/-- The firmware image in flash: the one it came with, or one that an update wrote (15 R342; 19 R438). -/
inductive FwImage where
  | factory
  | written (bytes : List Byte)
  deriving DecidableEq, Repr

structure SecSt where
  root     : Bool                      -- the root secret stands since this boot's ROOT stage (15 R337); its value is Config's
  dik      : Bool                      -- and the device identity key
  ak       : Option FwImage            -- the image whose attestation key is in place
  transport : Option Nat               -- transport key and device key, by the number of their draw (log 14)
  device   : Option Nat
  idCause  : BitVec 4                  -- SEC_ID_STAT
  peerMin  : BitVec 16                 -- SEC_SVN.PEERMIN
  drbgDown : Bool
  keyGen   : Nat                       -- keys drawn so far (log 14)
  silo     : Vector (Option Nat × Option Nat) 16   -- K0, K1 of each partition; none is erased
  rot      : Vector Rotation 16
  dbg      : Vector (BitVec 2) 16      -- SEC_DBG_STAT.LVL
  attach   : BitVec 32                 -- DBG_ATTACH
  dbgSess  : Vector (Option Source) 16 -- who is attached
  log      : List (List Byte)          -- attestation log, oldest first
  lost     : Half
  lchain   : List Byte
  ver      : Bool                      -- GET_VERSION answered
  spdm     : Byte                      -- version in use, 0 before GET_CAPABILITIES
  caps     : Bool
  algs     : Bool
  sessions : List Session
  period   : Nat
  tdi      : Vector Tdi 17
  tdiSess  : Vector (Option (BitVec 32)) 17
  ide      : Vector Ide 18
  deriving DecidableEq, Repr

/-! ### Boot and management (19) -/

/-- Stages of start-up (19 R426, R427). -/
inductive Stage where
  | none | root | verify | test | mem | link | ready
  deriving DecidableEq, Repr

/-- MGMT_FWU_STAT.STATE (19 R439). -/
inductive FwuState where
  | idle | receiving | verifying | applying | pending
  deriving DecidableEq, Repr

structure MgmtSt where
  stage    : Stage
  halted   : Bool                      -- MGMT_BOOT_STAT
  forced   : Bool
  recov    : Bool
  noId     : Bool
  cfgRej   : Byte
  lastFatal : BitVec 4
  fwu      : FwuState
  fwuVia   : Binding                   -- the binding of the update agent
  comp     : Component
  progress : Byte
  fwuCode  : BitVec 16
  data     : List Byte                 -- staged update
  dataNeed : Nat
  image    : FwImage                   -- firmware image at work
  pendImg  : Option FwImage            -- the one in flash that the next reset runs
  imgOk    : Bool
  owner    : List Byte                 -- OWNER record in flash, empty when there is none (19 R431)
  preset   : List Byte                 -- PRESET record in flash
  effOwner : List Byte                 -- OWNER and PRESET record in effect since the last VERIFY (15 R341, 19 R433)
  effPreset : List Byte
  ownerTorn : Bool                     -- a CONFIG write of the OWNER record was cut off (19 R440)
  presetTorn : Bool                    -- of the PRESET record
  force    : Bool                      -- recovery forced at the next boot
  fatalRec : BitVec 4                  -- last fatal cause recorded
  boots    : Nat
  i3cCfg   : BitVec 32                 -- MGMT_I3C_CFG as written
  i3cAct   : BitVec 32                 -- as in effect
  i3cAddr  : Option (BitVec 7)
  eidI3c   : Byte
  eidPcie  : Byte
  receiver : Option (Binding × Byte)
  sensors  : List (BitVec 16 × Int)
  resetting : Bool                     -- a device reset runs
  fatalAt  : Option Nat                -- stamp of a fatal fault (18 R420)
  deriving DecidableEq, Repr

end Sys2Proof.Machine
end

