-- ==== Sys2Proof/Machine/Identity.lean ====
section
/-!
DEFINITION. Sys2Proof/Machine/Identity.lean: what the module knows of a firmware image, the keys derived from root secret and image, the level 3
certificate, keys on their way to the compute dies, attestation-log entries (13 R309; 15 R337, R338, R341, R343, R345, R355).
-/
namespace Sys2Proof.Machine

/-! ### Firmware images (13 R309; 15 R341 to R343; 20 R446) -/

/-- The bytes of an image. -/
def FwImage.bytes : FwImage → List Byte
  | .factory => Config.factoryImage
  | .written bs => bs

/-- SHA-384 of the image: measurement 1. -/
def FwImage.digest (x : FwImage) : List Byte := sha384 x.bytes

/-- The security version and the version string in its header (log 23). -/
def FwImage.svn (x : FwImage) : BitVec 16 := Config.svnOf x.bytes
def FwImage.version (x : FwImage) : List Byte := Config.versionOf x.bytes

/-- NUMERICS_ID.UCODE: 1 for the first image and every one with its result microcode; a revision that goes by the result microcode alone
(13 R309; 20 R446). -/
def FwImage.ucode (x : FwImage) : Half :=
  if Config.resultMicrocode x.bytes = Config.resultMicrocode Config.factoryImage then 1
  else Config.ucodeRev (Config.resultMicrocode x.bytes)

/-- n bytes of a number, lowest first. -/
def leOf (n v : Nat) : List Byte := (beBytesN n v).reverse

/-! ### Identity keys (15 R337) -/

/-- HKDF from the root secret, over a label and what the key depends on. The manual gives no salt and no layout of the info (log 23). -/
def rootKey (label : String) (parts : List (List Byte)) : List Byte :=
  hkdf Config.hkdfSalt (beBytesN 32 Config.rootSecret.toNat)
    (Config.keyInfo (label.toList.map (fun c => BitVec.ofNat 8 c.toNat)) parts)

/-- The device identity key, fixed for the life of the part. -/
def dikPrivate : Nat := privateKey (rootKey "JG-DIK" [])

/-- The attestation key of an image. -/
def akPrivate (x : FwImage) : Nat := privateKey (rootKey "JG-AK" [x.digest, leOf 2 x.svn.toNat])

/-- A public key as bytes (log 23). -/
def keyBytes (d : Nat) : List Byte := match publicKey d with | none => [] | some q => Config.pointBytes q.1 q.2

/-! ### Certificates (15 R338) -/

/-- What the level 3 certificate says: the Jagus extension, the subject key, the serial number. -/
structure AttestCert where
  digest    : List Byte
  svn       : BitVec 16
  partId    : Nat
  stepping  : Nat
  numerics  : Word
  key       : List Byte
  serial    : List Byte
  deriving DecidableEq, Repr

/-- The certificate of an image's attestation key: its serial is the first 16 bytes of the SHA-384 of the public key. -/
def certOf (x : FwImage) (partId stepping : Nat) (numerics : Word) : AttestCert :=
  let k := keyBytes (akPrivate x)
  { digest := x.digest, svn := x.svn, partId := partId, stepping := stepping, numerics := numerics, key := k, serial := (sha384 k).take 16 }

/-- The part that DIK signs, in DER (log 23). -/
def AttestCert.body (c : AttestCert) : List Byte :=
  Config.certBody [c.digest, leOf 2 c.svn.toNat, leOf 4 c.partId, leOf 4 c.stepping, leOf 8 c.numerics.toNat, c.key, c.serial]

/-- The chain of slot 0: levels 0 to 2 as made, then level 3, signed by DIK. The manual gives no nonce for this signature: it is that of
RFC 6979 (log 27). -/
def certChain (c : AttestCert) : List Byte := Config.upperCerts ++ Config.certDer c.body (ecdsaSign dikPrivate c.body)

/-! ### Keys from XD to the compute dies (15 R337, R345) -/

/-- A key on its way, wrapped under a transport key. -/
structure WrappedKey where
  under : Nat
  key   : Nat
  deriving DecidableEq, Repr

/-- XD wraps a key under the transport key of the boot. -/
def SecSt.wrap (x : SecSt) (k : Nat) : Option WrappedKey := x.transport.map fun t => { under := t, key := k }

/-- The controllers of both compute dies unwrap it: they load the same key. -/
def SecSt.unwrap (x : SecSt) (w : Option WrappedKey) : Option Nat :=
  match w with
  | none => none
  | some w => if x.transport = some w.under then some w.key else none

/-- What a key slot of both dies holds after XD sent a key. -/
def SecSt.load (x : SecSt) (k : Nat) : Option Nat := x.unwrap (x.wrap k)

/-- The keys drawn at a boot: transport key and device key (15 R337; 09 R213). -/
def SecSt.bootKeys (x : SecSt) : SecSt :=
  { x with transport := some (x.keyGen + 1), device := some (x.keyGen + 2), keyGen := x.keyGen + 2 }

/-! ### Attestation-log entries (15 R355) -/

/-- A 64-byte entry. -/
def logEntry (ty pid level src epoch stamp : Nat) (detail : List Byte) : List Byte :=
  [BitVec.ofNat 8 ty, BitVec.ofNat 8 (ty / 256), BitVec.ofNat 8 pid, BitVec.ofNat 8 level, BitVec.ofNat 8 src, 0, 0, 0] ++
    leOf 4 epoch ++ leOf 8 stamp ++ (detail ++ List.replicate 44 0).take 44

/-- The BOOT entry: the first 43 bytes of the image digest and the cause of the last device-fatal fault. -/
def bootEntry (image : FwImage) (fatal stamp : Nat) : List Byte :=
  logEntry 0x0001 0xFF 0 0 0 stamp (image.digest.take 43 ++ [BitVec.ofNat 8 fatal])

end Sys2Proof.Machine
end

