-- ==== Sys2Proof/Machine/StateTile.lean ====
section
/-!
DEFINITION. Sys2Proof/Machine/StateTile.lean: the state of one tile (core, queues, array, update unit, counters) and of one
solve engine (channels), as plain data.
-/
namespace Sys2Proof.Machine

/-! ### Control core (07 R151) -/

/-- What the core is doing: idle (no program, or an idle tile), running, waiting on a sync operation, halted by HALT,
stopped by a tile fault or the end of its launch (07 R152, R155, R166). -/
inductive CoreStatus where
  | idle | running | waiting | halted | stopped
  deriving DecidableEq, Repr

/-- An open replay region (08 R200). -/
structure Region where
  rid   : BitVec 16
  rung  : Nat
  table : List (BitVec 32)
  snapG : Vector Word 32
  snapF : Vector Word 32
  flag  : Bool
  deriving DecidableEq, Repr

/-- What a waiting core resumes to: the register that receives the status word, or the region check of RCHECK. -/
inductive Resume where
  | status (rd : RegId)
  | rcheck
  deriving DecidableEq, Repr

/-- Core state (07 R151, R165). -/
structure Core where
  status   : CoreStatus
  slot     : SlotId            -- program slot the core runs
  ltile    : Nat               -- LTILE, index L of 01 R26
  lsheaf   : Nat               -- LSHEAF
  code     : Nat               -- directory index of the code section
  pc       : Nat               -- byte offset in it
  g        : Vector Word 32
  f        : Vector Word 32
  v        : Vector (BitVec 2048) 32
  latch    : Option (BitVec 32 × BitVec 32 × BitVec 32)
  missued  : Word
  mdone    : Word
  dissued  : Word
  ddone    : Word
  uissued  : Word              -- update-queue operations issued (08 R183)
  udone    : Word              -- and complete
  vl       : BitVec 12         -- VCFG.VL
  vew      : BitVec 2          -- VCFG.EW
  vgrp     : BitVec 2          -- VCFG.GRP
  vsat     : Bool              -- VSTAT.VSAT
  vidle    : BitVec 16
  vtid     : Word
  veidx    : Word
  awake    : Bool              -- long-vector unit awake (07 R176)
  seq      : Nat               -- issue order over the three queues (03 R63, 08 R186)
  seed     : Word              -- SEED and STEP of the launch: dither keys (08 R193)
  step     : Word
  region   : Option Region
  span     : Bool              -- recomputation span open (08 R207)
  resume   : Option Resume
  dbgHalt  : Bool              -- halted under FULL debug (15 R354)
  dbgSteps : Nat               -- single steps granted
  deriving DecidableEq, Repr

/-! ### Queues -/

/-- An issued, incomplete MOP (03 R60, 07 R160): the record as copied, the addresses in effect, RECORD and PC for a fault,
issue order, passes started, blocks loaded, the array's count at issue and at the first feed of the last pass started. -/
structure QMop where
  record : BitVec 256
  aAddr  : Nat
  bAddr  : Nat
  cAddr  : Nat
  offset : Nat
  pc     : Nat
  seq    : Nat
  passes : Nat
  loads  : Nat
  issued : Nat
  lastAt : Nat
  deriving DecidableEq, Repr

/-- An issued, incomplete tile DMA transfer (07 R161, 08 R194): descriptor, VTID and VEIDX at issue. -/
structure QDma where
  desc   : BitVec 512
  vtid   : Word
  veidx  : Word
  offset : Nat
  pc     : Nat
  seq    : Nat
  ran    : Bool
  deriving DecidableEq, Repr

/-- Update-queue operations (08 R183). -/
inductive UpdOp where
  | wupd (desc : BitVec 1024)
  | nclr (a : Fin 4)
  | nsq (addr count : Nat) (scale : Word) (gfmt : BitVec 4) (a : Fin 4)
  | nst (addr : Nat) (a : Fin 4)
  | nadd (addr : Nat) (a : Fin 4)
  deriving DecidableEq, Repr

/-- An issued, incomplete update-queue operation (08 R182). -/
structure QUpd where
  op     : UpdOp
  offset : Nat
  pc     : Nat
  seq    : Nat
  ran    : Bool
  deriving DecidableEq, Repr

/-- A norm accumulator (08 R190): the integer in units of 2^-344, and the flags. -/
structure Norm where
  value : BitVec 704
  inf   : Bool
  nan   : Bool
  deriving DecidableEq, Repr

/-! ### Array (03) -/

/-- A weight block by the key that R66 compares: its region, its mode and format, its place in the region. -/
structure BlockKey where
  bAddr : Nat
  amode : Nat
  fmtB  : Nat
  index : Nat
  deriving DecidableEq, Repr

/-- What a 36-bit weight register holds in every PE: the block and the segment it was loaded from, and the 9,216 registers of the
logical array, row by row (03 R58). -/
structure WeightBlock where
  key   : BlockKey
  seg   : Nat
  words : List (BitVec 36)
  deriving DecidableEq, Repr

/-- Array state: its clock count at its last event, load level (03 R80), imminent-release hint (R81), weight registers and
residency (R58, R66, R77), the last pass started with its M, lane count of the last MOP (R78), stagger of the coordinated start
(R83). Counts are in ac. -/
structure ArrayState where
  ac       : Nat
  level    : Fin 9
  stepAt   : Nat               -- count at the last step of the load level
  hintNext : Nat               -- stamp from which the next step of a hint's ramp is due
  hint     : Option Nat        -- stamp of an active hint
  hintOver : Bool              -- the hint lapsed
  hold     : Bool              -- level held at 8 until the first feed or the end of the program
  ramp     : Bool              -- release received below level 8, level rising from the release edge
  stagger  : Option Nat        -- ac from the release (or from level 8) to the first feed
  relAt    : Nat               -- count from which the stagger runs
  shadow   : Option WeightBlock
  freeAt   : Nat               -- count at which the shadow register became free
  active   : Option WeightBlock
  slot     : Option (Nat × Nat) -- first feed and M of the last pass started
  keep     : Bool              -- last MOP had WKEEP = 1 and ran one pass
  lastQuad : Option Bool       -- lane count of the last MOP: quad-lane or single-lane
  deriving DecidableEq, Repr

/-! ### Counters and fault registers (02 R55, 04 R99, 18 R412, 20 R448) -/

structure Counters where
  range    : Half              -- TILE_CVT_RANGE
  infSat   : Half              -- TILE_CVT_INFSAT
  nanZero  : Half              -- TILE_CVT_NANZ
  intSat   : Half              -- TILE_INT_SAT
  intWrap  : Half              -- TILE_INT_WRAP
  scaleBad : Half              -- TILE_SCALE_BAD
  shed     : Half              -- TILE_RANGE_SHED
  deriving DecidableEq, Repr

structure FaultRegs where
  mop  : Word                  -- TILE_MOP_FAULT
  core : Word                  -- TILE_CORE_FAULT
  dma  : Word                  -- TILE_DMA_FAULT
  upd  : Word                  -- TILE_UPD_FAULT
  deriving DecidableEq, Repr

/-- One tile. Its 4 MiB store is in the device memory at the window of 00 R12. -/
structure Tile where
  made     : Bool              -- not disabled at manufacture (01 R22)
  retired  : Bool              -- disabled by retirement at a boot (PART_TILE_RETn)
  pend     : Bool              -- PART_TILE_PENDn (18 R413)
  factory  : List (Nat × Nat)  -- defective processing elements of the factory repair record in flash (01 R21)
  defects  : List (Nat × Nat)  -- those known at this boot (physical row, column)
  rowsOut  : List Nat          -- physical rows the row map skips (01 R20)
  colsOut  : List Nat          -- physical columns the column map skips
  rowTrim  : Vector Half 6     -- TILE_ROW_TRIM0-5 (03 R71)
  colTrim  : Vector Half 6     -- TILE_COL_TRIM0-5
  cnt      : Counters
  retryCnt : Half              -- TILE_RETRY_CNT
  sramCnt  : Half              -- TILE_SRAM_CE_CNT
  faults   : FaultRegs
  core     : Core
  mops     : List QMop         -- array queue, oldest first
  dmas     : List QDma         -- tile DMA queue
  upds     : List QUpd         -- update queue
  norms    : Vector Norm 4
  array    : ArrayState
  deriving DecidableEq, Repr

/-! ### Solve engine (05, 06) -/

/-- Who issued a solve command (05 R116 ISSUER). -/
inductive SolveIssuer where
  | tile (t : TileId)
  | host (fn : Fn) (cid : Nat)
  deriving DecidableEq, Repr

/-- A queued solve command: the record of 05 R120 and its issuer. -/
structure QSolve where
  record : BitVec 512
  issuer : SolveIssuer
  deriving DecidableEq, Repr

/-- State of the factor (05 R125, R127; 06 R135, R145): none computed since allocation, valid, invalid because a range was
exceeded, invalid because the factorisation was ended otherwise. -/
inductive FactorState where
  | none | valid | range | broken
  deriving DecidableEq, Repr

/-- A factor as the engine holds it: elimination order, entries of L below the diagonal and of U (or D) by (row, column) in
solver fixed point (05 R125). -/
structure Factor where
  st    : FactorState
  order : List Nat
  l     : List ((Nat × Nat) × Int)
  u     : List ((Nat × Nat) × Int)
  deriving DecidableEq, Repr

/-- The allocation of a physical channel (05 R116, R117, R114). -/
structure ChanAlloc where
  pid     : Pid
  slot    : SlotId
  lse     : Nat
  lch     : Nat
  hostOwn : Bool               -- ISSUER
  tau     : Nat
  refresh : Nat
  pattern : List Byte          -- the pattern image
  valAddr : Nat
  facAddr : Nat
  lastAdr : Nat
  fprint  : Word
  deriving DecidableEq, Repr

/-- A channel's factor as a command found it: factor, replacement count, pivot record, AGE, and the bytes of the factor region that
the command replaced. -/
structure FactorBefore where
  factor : Factor
  nreg   : Half
  pivots : List Nat
  age    : Nat
  region : List (Nat × Byte)
  deriving DecidableEq, Repr

/-- The command at work on an engine between SOLVE_COMMAND_HEAD and SOLVE_COMMAND_END: its completion record, the bytes
that its outputs replaced, put back if it ends with an error, and the factor it found, put back if its last solution cannot be read
(06 R141, R150; log 24). -/
structure SolveRun where
  cmd    : QSolve
  record : BitVec 512
  undo   : List (Nat × Byte)
  warm   : Option (Bool × Word × Nat)   -- warm record before the command
  before : FactorBefore
  deriving DecidableEq, Repr

/-- One physical channel (05 R106, R114 to R126; 06 R135, R137). -/
structure Channel where
  alloc   : Option ChanAlloc
  queue   : List QSolve
  factor  : Factor
  nreg    : Half               -- replacement count of the factorisation in effect (05 R126)
  pivots  : List Nat           -- first 16 replaced columns
  age     : Nat                -- AGE (06 R135)
  wmcnt   : Half
  wvalid  : Bool               -- warm record
  wprint  : Word
  waddr   : Nat
  tStart  : Option Nat         -- stamp at which the head command became the head (06 R142)
  run     : Option SolveRun
  deriving DecidableEq, Repr

/-- One solve engine. Its working buffer is in the device memory at the window of 00 R12; the channel slices of the window are the
channels. `panel`: since a command worked, the panel area holds what the engine left there, free bytes from this number on, but for
the ranges written since (05 R106, log 81). -/
structure Engine where
  made     : Bool              -- not disabled at manufacture
  retired  : Bool              -- PART_SE_EN bit 16 + s
  selfTest : Bool              -- recorded for a full self-test at the next boot (01 R24)
  chanRet  : Half              -- SE_CHAN_RETe
  retryCnt : Half              -- SE_RETRY_CNTe
  chans    : Vector Channel 32
  panel    : Option (Nat × List (Nat × Nat))
  running  : Option ChanId     -- channel whose command runs (05 R124)
  served   : Nat × Nat         -- rotation: logical channel and slot served last
  held     : Option (List Nat × Nat × Nat)   -- offload tiles, first byte and size of the held region (05 R131)
  deriving DecidableEq, Repr

end Sys2Proof.Machine
end

