-- ==== Sys2Proof/Machine/State.lean ====
section
/-!
DEFINITION. Sys2Proof/Machine/State.lean: the whole state of the module, the reasons a command can stop, and the state after
reset: a device reset or PERST# followed by the boot stages up to READY (17 R406, 19 R426, log 19).
-/
namespace Sys2Proof.Machine

/-- Why a command is a fault of the model: nothing the manual describes happens. -/
inductive Fault where
  /-- Raised by the commands that stand for an event of the module whose condition does not hold in the state (a
  completion of work that is not there, a timer that has not run out): the manual gives the event no occurrence then.
  Safe: the model stops where the module would not have acted. -/
  | notDue (mnemonic : String)
  deriving DecidableEq, Repr

/-- Why a command is refused by the model. -/
inductive Refusal where
  /-- Raised by the arm of a command that has no meaning yet. Safe: nothing is claimed of it. -/
  | notModelled (mnemonic : String)
  deriving DecidableEq, Repr

/-- The state of the module (INVENTORY.md lists every piece with its rule). -/
structure State where
  pending : List Instr         -- commands waiting, first in first out (the model's own)
  freeCtr : Nat                -- free values handed out so far (the model's own, log 2)
  outputs : List Output        -- what left the module, newest first (the model's own, log 3)
  time    : TimeSt
  sync    : SyncSt
  bind    : BindSt
  parts   : Vector Part 16
  funcs   : Vector Func 17
  vfs     : Nat                -- VFs enabled by SR-IOV, VF1 first
  lastFn  : Fn                 -- function served last (16 R362, log 16)
  tiles   : Vector Tile 128
  engines : Vector Engine 16
  mem     : List Host.Cell     -- device addresses: memory, tile stores, solve buffers (00 R12)
  hostMem : List Host.Cell     -- bytes the module wrote to host memory, by IOVA (log 4)
  memctl  : MemSt
  power   : PowerSt
  pins    : PinSt
  links   : LinkSt
  sec     : SecSt
  mgmt    : MgmtSt
  deriving DecidableEq, Repr

/-! ### Reset values -/

def Ring.reset : Ring :=
  { sqBase := 0, cqBase := 0, en := false, prio := false, vec := 0, cqlog := 0, sqlog := 0, cfgErr := false, dbErr := false,
    sqHead := 0, sqTail := 0, cqTail := 0, cqHead := 0, phase := true, abort := none }

def EvRing.reset : EvRing :=
  { base := 0, en := false, vec := 0, log := 0, tail := 0, head := 0, phase := true, lost := 0, drops := 0, unread := [], held := [] }

def Func.reset : Func :=
  { maxv := 0x10, minv := 0x10, act := 0x10, rings := Vector.replicate 64 Ring.reset, evq := EvRing.reset, cmds := [], nextCid := 0,
    unmasked := [], msixPend := [], atc := [], lastHi := 63, lastLo := 63 }

def Entry.reset : Entry :=
  { st := .free, epoch := 0, mstep := 0, hfn := 0, sheaves := 0, gran := [], blk := [], weight := 0, ports := 0, pshare := 0,
    jobTag := 0, record := 0, unbindBy := none, keyMoult := false, moultSrc := .pf0, moultFull := false }

def Part.reset : Part :=
  { entry := Entry.reset, slots := Vector.replicate 8 none, results := Vector.replicate 8 none, launch := none, watch := [],
    stash := [], peers := [], deferred := [], slackN := 0, slack := 0, lastArr := [], shed := (0, 0), cvt := (0, 0), excl := (0, 0),
    waited := (0, 0), waitLim := 0x400000000, aborting := false }

def Core.reset : Core :=
  { status := .idle, slot := 0, ltile := 0, lsheaf := 0, code := 0, pc := 0, g := Vector.replicate 32 0,
    f := Vector.replicate 32 0, v := Vector.replicate 32 0, latch := none, missued := 0, mdone := 0, dissued := 0, ddone := 0,
    uissued := 0, udone := 0, vl := 0, vew := 0, vgrp := 0, vsat := false, vidle := 4096, vtid := 0, veidx := 0, awake := true,
    seq := 0, seed := 0, step := 0, region := none, span := false, resume := none, dbgHalt := false, dbgSteps := 0 }

def ArrayState.reset : ArrayState :=
  { ac := 0, level := 0, stepAt := 0, hintNext := 0, hint := none, hintOver := false, hold := false, ramp := false,
    stagger := none, relAt := 0, shadow := none, freeAt := 0, active := none, slot := none, keep := false, lastQuad := none }

def Counters.reset : Counters :=
  { range := 0, infSat := 0, nanZero := 0, intSat := 0, intWrap := 0, scaleBad := 0, shed := 0 }

def FaultRegs.reset : FaultRegs := { mop := 0, core := 0, dma := 0, upd := 0 }

def Norm.reset : Norm := { value := 0, inf := false, nan := false }

/-- A tile of a part without defects: no row or column is removed (log 8). -/
def Tile.reset : Tile :=
  { made := true, retired := false, pend := false, factory := [], defects := [], rowsOut := [], colsOut := [],
    rowTrim := Vector.replicate 6 0, colTrim := Vector.replicate 6 0, cnt := Counters.reset, retryCnt := 0, sramCnt := 0,
    faults := FaultRegs.reset, core := Core.reset, mops := [], dmas := [], upds := [], norms := Vector.replicate 4 Norm.reset,
    array := ArrayState.reset }

def Factor.reset : Factor := { st := .none, order := [], l := [], u := [] }

def Channel.reset : Channel :=
  { alloc := none, queue := [], factor := Factor.reset, nreg := 0, pivots := [], age := 0, wmcnt := 0, wvalid := false,
    wprint := 0, waddr := 0, tStart := none, run := none }

def Engine.reset : Engine :=
  { made := true, retired := false, selfTest := false, chanRet := 0, retryCnt := 0, chans := Vector.replicate 32 Channel.reset,
    panel := none, running := none, served := (0, 0), held := none }

def TimeSt.reset : TimeSt :=
  { gt := 0, cd0 := 0, cd1 := 0, lastSend := none, lock := .unlocked, offset := 0, good := 0, lastMsg := 0, holdAt := 0, slew := 0, lastSlew := 0,
    slewAt := 0, stepLeft := true, root := false, upHalf := false, upPort := 0, lead := 4096, lateRel := 0 }

def SyncSt.reset : SyncSt :=
  { objs := [], waits := [], sent := [], children := [], pends := [], remotes := [], lastArr := [], nextId := 0 }

def UnitState.reset : UnitState := { owner := none, st := .free, epoch := 0 }

/-- Every allocatable granule is queued for clear, and the clear of the lowest runs (14 R331, 09 R234, log 7). -/
def BindSt.reset : BindSt :=
  { bepoch := 0, sheaves := Vector.replicate 16 UnitState.reset, grans := Vector.replicate 376 UnitState.reset,
    blocks := Vector.replicate 64 UnitState.reset, ports := Vector.replicate 16 UnitState.reset,
    fns := Vector.replicate 17 UnitState.reset, fenced := [], clrPend := BitVec.allOnes 376, clearing := some 0, moved := [], heldWr := [],
    rstPid := 0, rstOn := 0, rstBusy := false, rstErr := false }

def StackSt.reset : StackSt := { temp := 0, level := 8, ref2 := false }

def MemSt.reset : MemSt :=
  { cache := [], cleared := [], wrote := [], bad := [], epochOne := [], stackSt := Vector.replicate 8 StackSt.reset, tthr := 95, pcue := 2, pcpce := 4096,
    rowpce := 4, ce := 0, ue := 0, rowRep := 0, rowCnt := [], pcCnt := [], pcUeCnt := [], window := 0, repaired := [],
    pcRet := 0, slots := Vector.replicate 8 none, running := none, queued := [], exhausted := [] }

def PowerSt.reset : PowerSt :=
  { cap := 1500, dthr := 100, mmin := 1, kmax := 20, kmin := 8, pavg := 0, plast := 0, mlvl := 8, klow := 20, fast := false,
    unmet := false, deepest := false, cfgErr := false, k := Vector.replicate 16 20, target := Vector.replicate 16 none,
    pk := Vector.replicate 16 20, lim := Vector.replicate 16 20, window := 0, sum := 0, count := 0, unmetWin := none,
    ovrWin := none, railWarn := Vector.replicate 2 none, dieTemp := Vector.replicate 2 0, dieThrot := Vector.replicate 2 false,
    trim := Vector.replicate 2 0, deep := .none, deepReq := false }

/-- Power applied, PERST_N released, clocks present (log 18). -/
def PinSt.reset : PinSt :=
  { input := .applied, on := true, pwrgd := true, perst := false, hold := false, trip := false, alerts := [], peClk := true,
    lnkClk := true, pcieUp := true, heldCpl := [] }

def PortCfg.reset : PortCfg :=
  { maxw := 0, split := false, eth := false, epmd := 0, an := true, pfc := false, en := true }

def PerVc.zero : PerVc := { vs := 0, vd0 := 0, vd1 := 0 }

def HalfPort.reset : HalfPort :=
  { state := .down, peer := 0xFFFF, lanes := 0, rtcnt := 0, width := 0, ver := 0, out := PerVc.zero, owed := PerVc.zero, replay := [],
    skew := 0, trained := none }

def Lane.reset : Lane := { retrain := false, retryAt := none, fails := [], tries := 0 }

def LinkSt.reset : LinkSt :=
  { modId := 0xFFFF, cfg := Vector.replicate 8 PortCfg.reset, half := Vector.replicate 16 HalfPort.reset, laneRet := 0,
    lanes := Vector.replicate 64 Lane.reset, replays := 0, discards := 0, authFail := 0, pfx := 0,
    gwmac := Vector.replicate 8 0, udp := 50432, dscp := 26, paused := Vector.replicate 8 false, pausing := Vector.replicate 8 false,
    txq := [] }

def Rotation.reset : Rotation := { link := false, active := false, cur := false, next := 0, waiter := none, linkWaiter := none }

def Ide.reset : Ide := { prog := (false, false), active := none }

/-- The attestation log holds the BOOT entry that reaching READY writes (15 R355, 19 R426, log 19). -/
def SecSt.reset : SecSt :=
  { root := true, dik := true, ak := some .factory, transport := some 1, device := some 2, spdm := 0,
    idCause := 0, peerMin := 0, drbgDown := false, keyGen := 2, silo := Vector.replicate 16 (none, none),
    rot := Vector.replicate 16 Rotation.reset, dbg := Vector.replicate 16 0, attach := 0, dbgSess := Vector.replicate 16 none,
    log := [bootEntry .factory 0 0], lost := 0, lchain := sha384 (List.replicate 48 0 ++ bootEntry .factory 0 0), ver := false, caps := false, algs := false, sessions := [],
    period := 60, tdi := Vector.replicate 17 .unlocked, tdiSess := Vector.replicate 17 none, ide := Vector.replicate 18 Ide.reset }

def MgmtSt.reset : MgmtSt :=
  { stage := .ready, halted := false, forced := false, recov := false, noId := false, cfgRej := 0, lastFatal := 0, fwu := .idle, fwuVia := .i3c,
    comp := .firmware, progress := 0, fwuCode := 0, data := [], dataNeed := 0, image := .factory, pendImg := none, imgOk := true,
    owner := [], preset := [], effOwner := [], effPreset := [], ownerTorn := false, presetTorn := false, force := false,
    fatalRec := 0, boots := 0, i3cCfg := 0x160, i3cAct := 0x160,
    i3cAddr := none, eidI3c := 0, eidPcie := 0, receiver := none, sensors := [], resetting := false, fatalAt := none }

/-- The module right after reset (17 R406). -/
def State.reset : State :=
  { pending := [], freeCtr := 0, outputs := [], time := TimeSt.reset, sync := SyncSt.reset, bind := BindSt.reset,
    parts := Vector.replicate 16 Part.reset, funcs := Vector.replicate 17 Func.reset, vfs := 0, lastFn := 16,
    tiles := Vector.replicate 128 Tile.reset, engines := Vector.replicate 16 Engine.reset, mem := [], hostMem := [],
    memctl := MemSt.reset, power := PowerSt.reset, pins := PinSt.reset, links := LinkSt.reset, sec := SecSt.reset,
    mgmt := MgmtSt.reset }

end Sys2Proof.Machine
end

