-- ==== Sys2Proof/Machine/Tab.lean ====
section
/-!
DEFINITION. Sys2Proof/Machine/Tab.lean: sparse tables in one canonical form (addresses strictly rising, no entry equal to what
an unlisted address holds), and memory as such a table of bytes: what an unlisted address reads as is 0x00 (14 R331, R332 for
the silo; log 9 for tile stores and solve buffers).
-/
namespace Sys2Proof.Machine

/-- The value a table holds at a key; d where it lists none. -/
def Tab.get {α : Type} (d : α) : List (Nat × α) → Nat → α
  | [], _ => d
  | (k, v) :: r, a => if a < k then d else if a = k then v else Tab.get d r a

/-- The table with x at key a; storing d removes the entry. -/
def Tab.put {α : Type} [DecidableEq α] (d : α) : List (Nat × α) → Nat → α → List (Nat × α)
  | [], a, x => if x = d then [] else [(a, x)]
  | (k, v) :: r, a, x =>
    if a < k then (if x = d then (k, v) :: r else (a, x) :: (k, v) :: r)
    else if a = k then (if x = d then r else (a, x) :: r)
    else (k, v) :: Tab.put d r a x

/-- Every key is at or above lo, keys rise strictly, and no value is d. -/
def Tab.wfFrom {α : Type} [DecidableEq α] (d : α) : Nat → List (Nat × α) → Bool
  | _, [] => true
  | lo, (k, v) :: r => decide (lo ≤ k) && !decide (v = d) && Tab.wfFrom d (k + 1) r

/-- The canonical form. -/
def Tab.wf {α : Type} [DecidableEq α] (d : α) (l : List (Nat × α)) : Bool := Tab.wfFrom d 0 l

/-- The table without the keys from a below b. -/
def Tab.drop {α : Type} (l : List (Nat × α)) (a b : Nat) : List (Nat × α) :=
  l.filter fun c => !(decide (a ≤ c.1) && decide (c.1 < b))

/-! ### Memory -/

/-- What an address that memory does not list reads as. -/
def Memory.unlisted : Byte := 0

/-- The byte at an address. -/
def Memory.read (m : List Host.Cell) (a : Nat) : Byte := Tab.get Memory.unlisted m a

/-- Memory with byte x at address a. -/
def Memory.write (m : List Host.Cell) (a : Nat) (x : Byte) : List Host.Cell := Tab.put Memory.unlisted m a x

/-- Canonical form of memory. -/
def Memory.wf (m : List Host.Cell) : Bool := Tab.wf Memory.unlisted m

/-- n bytes from address a on. -/
def Memory.readBytes (m : List Host.Cell) (a n : Nat) : List Byte := (List.range n).map fun i => Memory.read m (a + i)

/-- Bytes stored from address a on. -/
def Memory.writeBytes : List Host.Cell → Nat → List Byte → List Host.Cell
  | m, _, [] => m
  | m, a, x :: xs => Memory.writeBytes (Memory.write m a x) (a + 1) xs

/-- The range from a below b set to zero. -/
def Memory.clear (m : List Host.Cell) (a b : Nat) : List Host.Cell := Tab.drop m a b

/-! ### Little-endian values (16 R380: all fields are little-endian) -/

/-- The number that bytes hold, lowest first. -/
def leNat : List Byte → Nat
  | [] => 0
  | x :: xs => x.toNat + 256 * leNat xs

/-- n bytes of a number, lowest first. -/
def leBytes : Nat → Nat → List Byte
  | 0, _ => []
  | n + 1, v => BitVec.ofNat 8 v :: leBytes n (v / 256)

/-- n bytes of a number, highest first. -/
def beBytes (n v : Nat) : List Byte := (leBytes n v).reverse

/-- The number n bytes at a hold. -/
def Memory.readLe (m : List Host.Cell) (a n : Nat) : Nat := leNat (Memory.readBytes m a n)

/-- n bytes of v stored at a. -/
def Memory.writeLe (m : List Host.Cell) (a n v : Nat) : List Host.Cell := Memory.writeBytes m a (leBytes n v)

end Sys2Proof.Machine
end

