-- ==== Sys2Proof/Machine/Clock.lean ====
section
/-!
DEFINITION. Sys2Proof/Machine/Clock.lean: the passing of time: the counter moves forward to a stamp that a command carries
(log 5), and by one tick when no command waits (log 20).
-/
namespace Sys2Proof.Machine

/-- The counter and its copies moved forward to a stamp; a counter never decreases (10 R236). -/
def TimeSt.advance (t : TimeSt) (now : Nat) : TimeSt :=
  let x : Word := BitVec.ofNat 64 now
  { t with gt := if t.gt.toNat < x.toNat then x else t.gt
           cd0 := if t.cd0.toNat < x.toNat then x else t.cd0
           cd1 := if t.cd1.toNat < x.toNat then x else t.cd1 }

/-- The state at a stamp. -/
def State.at_ (s : State) (now : Nat) : State := { s with time := s.time.advance now }

/-- One tick: each copy increments by 1 every gt while the module has power and is out of reset (10 R236). -/
def State.tick (s : State) : State :=
  if s.pins.on && !s.pins.perst then
    { s with time := { s.time with gt := s.time.gt + 1, cd0 := s.time.cd0 + 1, cd1 := s.time.cd1 + 1 } }
  else s

/-- The counter as a number. -/
def State.now (s : State) : Nat := s.time.gt.toNat

end Sys2Proof.Machine
end

