-- ==== Sys2Proof/Machine/MemMap.lean ====
section
/-!
DEFINITION. Sys2Proof/Machine/MemMap.lean: where an HBM device address lies: pseudo-channel, bank, row, stack, reserved bands, the place of a
line after retirements, tweak of a sector (09 R210 to R213, R222, R230, R231).
-/
namespace Sys2Proof.Machine

/-! ### Interleave (09 R211, R212) -/

/-- Pseudo-channel of an HBM device address. -/
def pcOf (a : Nat) : Nat :=
  let l := a / 256 % 2 ^ 31
  (List.range 9).foldl (fun p i =>
    p + 2 ^ i * ((l / 2 ^ i + l / 2 ^ (i + 9) + l / 2 ^ (i + 18) + l / 2 ^ (i + 27)) % 2)) 0

/-- Offset within the pseudo-channel, in lines. -/
def pcOffset (a : Nat) : Nat := a / 256 % 2 ^ 31 / 2 ^ 9

/-- Stack, channel of the stack, pseudo-channel of the channel. -/
def stackOf (p : Nat) : StackId := Fin.ofNat 8 p
def channelOf (p : Nat) : Nat := p / 8 % 32
def halfChannelOf (p : Nat) : Nat := p / 256 % 2

/-- Line of an offset within its row, and row. -/
def columnOf (o : Nat) : Nat := o % 4
def rowOf (o : Nat) : Nat := o / 2 ^ 8 % 2 ^ 14

/-- Bank of an offset, and the bank's group: 16 groups of 4 (09 R210). -/
def bankOf (o : Nat) : Nat := (o / 4 % 64) ^^^ (o / 2 ^ 8 % 64) ^^^ (o / 2 ^ 14 % 64)
def bankGroupOf (b : Nat) : Nat := b / 4

/-- Sector of an address within its line. -/
def sectorOf (a : Nat) : Nat := a / 64 % 4

/-! ### Reserved bands (09 R210, R213) -/

/-- Offsets of the headroom band, 12 MiB, and of the device tables, 4 MiB, in every pseudo-channel. -/
def headroomBase : Nat := 0x2F0000
def tableBase : Nat := 0x2FC000
def inHeadroom (o : Nat) : Bool := decide (headroomBase ≤ o) && decide (o < tableBase)
def inTables (o : Nat) : Bool := decide (tableBase ≤ o)

/-! ### Encryption (09 R222) -/

/-- Tweak of the AES-XTS data unit that holds a device address. -/
def tweakOf (a : Nat) : BitVec 128 := BitVec.ofNat 128 (a / 64 % 2 ^ 33)

/-! ### Retirement (09 R230, R231) -/

/-- Pseudo-channel p is retired. -/
def MemSt.retired (m : MemSt) (p : Nat) : Bool := m.pcRet.getLsbD p

/-- The slot that a retired pseudo-channel took. -/
def MemSt.slotOf (m : MemSt) (p : Nat) : Option Nat :=
  ((List.finRange 8).find? fun k => decide ((m.slots[k]).map (·.val) = some p)).map (·.val)

/-- Pseudo-channels not retired, ascending. -/
def MemSt.healthy (m : MemSt) : List Nat := (List.range 512).filter fun p => !m.retired p

/-- Place of line o of a pseudo-channel retired in slot k. -/
def MemSt.relocate (m : MemSt) (k o : Nat) : Nat × Nat :=
  let j := if o < headroomBase then o else o - 0xC000
  let c := j % 512
  let s := j / 512
  if !m.retired c then (c, headroomBase + 6144 * k + s)
  else
    let i := ((List.range c).filter m.retired).length
    let d := 6048 * i + s
    (m.healthy.getD (d / 96) 0, headroomBase + 6144 * k + 6048 + d % 96)

/-- Pseudo-channel and offset that hold line o of pseudo-channel p. -/
def MemSt.place (m : MemSt) (p o : Nat) : Nat × Nat :=
  match m.slotOf p with
  | none => (p, o)
  | some k => if inHeadroom o then (p, o) else m.relocate k o

/-- Pseudo-channel and offset that hold a device address. -/
def MemSt.physical (m : MemSt) (a : Nat) : Nat × Nat := m.place (pcOf a) (pcOffset a)

/-- The line at a device address is one of those that a retirement migrates. -/
def MemSt.migrates (before after : MemSt) (a : Nat) : Bool := decide (before.physical a ≠ after.physical a)

end Sys2Proof.Machine
end

