-- ==== Sys2Proof/Machine/Cache.lean ====
section
/-!
DEFINITION. Sys2Proof/Machine/Cache.lean: the memory-side caches of the two compute dies: sets, replacement, KEEP marks, cache hints, dirty
lines (09 R218 to R221). The memory of the state is what every unit sees; a dirty line also remembers the values that the stack may
hold in its place.
-/
namespace Sys2Proof.Machine

/-- Set of a line (its device address / 256): the die of its stack, and the set index of that die's cache. -/
def cacheSet (line : Nat) : Nat :=
  let p := pcOf (256 * line)
  let o := pcOffset (256 * line)
  p / 4 % 2 * 2 ^ 14 + (o % 64 * 2 ^ 8 + p / 256 * 2 ^ 7 + p / 8 % 32 * 4 + p % 4)

def ways : Nat := 16
def keepLimit : Nat := 12

/-- The line as cached. -/
def cacheFind (c : List CacheLine) (l : Nat) : Option CacheLine := c.find? fun x => decide (x.line = l)

def cacheDrop (c : List CacheLine) (l : Nat) : List CacheLine := c.filter fun x => !decide (x.line = l)

/-- Lines of a set, most recent first. -/
def cacheOf (c : List CacheLine) (k : Nat) : List CacheLine := c.filter fun x => decide (cacheSet x.line = k)

/-- Room for one more line in a set: of a full set, the least recently used line without KEEP is written back. -/
def cacheRoom (c : List CacheLine) (k : Nat) : List CacheLine :=
  if (cacheOf c k).length < ways then c
  else match ((cacheOf c k).filter fun x => !x.keep).getLast? with
    | none => c
    | some x => cacheDrop c x.line

/-- Room for one more KEEP mark in a set: the least recently used of 12 KEEP lines loses its mark (09 R220). -/
def cacheUnkeep (c : List CacheLine) (k : Nat) : List CacheLine :=
  let ks := (cacheOf c k).filter (·.keep)
  if ks.length < keepLimit then c
  else match ks.getLast? with
    | none => c
    | some x => c.map fun y => if y.line = x.line then { y with keep := false } else y

/-- A line that a read brings in. -/
def freshLine (l : Nat) (keep : Bool) : CacheLine := { line := l, held := BitVec.allOnes 4, dirty := false, keep := keep, old := [] }

/-- A read of a line under a hint (09 R219). -/
def cacheRead (hint : Nat) (c : List CacheLine) (l : Nat) : List CacheLine :=
  let k := cacheSet l
  match cacheFind c l with
  | some x =>
    match hint with
    | 0 => x :: cacheDrop c l
    | 2 => if x.keep then c else (cacheUnkeep c k).map fun y => if y.line = l then { y with keep := true } else y
    | 3 => cacheDrop c l
    | _ => c
  | none =>
    match hint with
    | 0 => freshLine l false :: cacheRoom c k
    | 2 => freshLine l true :: cacheRoom (cacheUnkeep c k) k
    | _ => c

/-- A write of some sectors of a line under a hint; `whole`: of all the line; `was`: the line before it (09 R218, R219). -/
def cacheWrite (hint : Nat) (c : List CacheLine) (l : Nat) (sectors : BitVec 4) (whole : Bool) (was : List Byte) : List CacheLine :=
  let k := cacheSet l
  let x := (cacheFind c l).getD { line := l, held := 0, dirty := false, keep := false, old := [] }
  let here := (cacheFind c l).isSome
  let y := { x with held := x.held ||| sectors, dirty := true, old := was :: x.old }
  match hint with
  | 1 =>
    if whole then c.map fun z => if z.line = l then freshLine l z.keep else z
    else if here then c.map fun z => if z.line = l then y else z
    else cacheRoom c k ++ [y]
  | 2 =>
    let c := if x.keep then c else cacheUnkeep c k
    { y with keep := true } :: (if here then cacheDrop c l else cacheRoom c k)
  | _ => y :: (if here then cacheDrop c l else cacheRoom c k)

/-- A sector at a device address is held in a cache. -/
def MemSt.cached (m : MemSt) (a : Nat) : Bool :=
  match cacheFind m.cache (a / 256) with
  | none => false
  | some x => x.held.getLsbD (sectorOf a)

/-- A sector carries a clear mark: its granule was cleared and the sector not written since (09 R233). -/
def MemSt.marked (m : MemSt) (a : Nat) : Bool := m.cleared.contains (a / 2 ^ 30) && !m.wrote.contains (a / 64)

/-- Bytes lo to hi of a device line are written: the cache, the sectors that can be read again (those written whole, and those merged in
the cache), the clear marks that go (09 R218, R227, R233). -/
def MemSt.writeLine (m : MemSt) (mem : List Host.Cell) (hint line lo hi : Nat) : MemSt :=
  let touched := (List.range 4).filter fun i => decide (lo < 64 * i + 64) && decide (64 * i < hi)
  let good (a : Nat) : Bool :=
    decide (a / 256 = line) && touched.contains (sectorOf a) &&
      ((decide (lo ≤ a % 256) && decide (a % 256 + 64 ≤ hi)) || m.cached a)
  { m with
    cache := cacheWrite hint m.cache line (BitVec.ofNat 4 ((touched.map fun i => 2 ^ i).sum)) (decide (lo = 0) && decide (hi = 256))
      (Memory.readBytes mem (256 * line) 256)
    bad := m.bad.filter fun a => !good a
    wrote := if m.cleared.contains (line / 2 ^ 22) then
        ((touched.map fun i => 4 * line + i).filter fun z => !m.wrote.contains z) ++ m.wrote
      else m.wrote }

/-- A LAST_USE read of a device line: dirty data is discarded, and the stack holds one of the values that the line had since it was last
written back: a free choice (09 R219, R220). -/
def discardLine (m : MemSt) (mem : List Host.Cell) (line : Nat) (pick : Word) : MemSt × List Host.Cell :=
  match cacheFind m.cache line with
  | none => (m, mem)
  | some x =>
    ({ m with cache := cacheDrop m.cache line },
      if !x.dirty then mem else
        match x.old[pick.toNat % x.old.length]? with
        | none => mem
        | some bs => Memory.writeBytes mem (256 * line) bs)

end Sys2Proof.Machine
end

