-- ==== Sys2Proof/Machine/Ops.lean ====
section
/-!
DEFINITION. Sys2Proof/Machine/Ops.lean: the named operations over the state that the meanings share: access to tiles, engines,
partitions and functions, free values, messages out, completion codes.
-/
namespace Sys2Proof.Machine

/-! ### Access and update -/

def State.tile (s : State) (t : TileId) : Tile := s.tiles[t]
def State.setTile (s : State) (t : TileId) (x : Tile) : State := { s with tiles := s.tiles.set t x }
def State.modTile (s : State) (t : TileId) (f : Tile → Tile) : State := s.setTile t (f (s.tile t))

/-- The core of a tile. -/
def State.core (s : State) (t : TileId) : Core := (s.tile t).core
def State.modCore (s : State) (t : TileId) (f : Core → Core) : State := s.modTile t fun x => { x with core := f x.core }

def State.engine (s : State) (e : EngId) : Engine := s.engines[e]
def State.setEngine (s : State) (e : EngId) (x : Engine) : State := { s with engines := s.engines.set e x }
def State.modEngine (s : State) (e : EngId) (f : Engine → Engine) : State := s.setEngine e (f (s.engine e))

/-- A physical channel. -/
def State.chan (s : State) (e : EngId) (c : ChanId) : Channel := (s.engine e).chans[c]
def State.modChan (s : State) (e : EngId) (c : ChanId) (f : Channel → Channel) : State :=
  s.modEngine e fun x => { x with chans := x.chans.set c (f x.chans[c]) }

def State.part (s : State) (p : Pid) : Part := s.parts[p]
def State.setPart (s : State) (p : Pid) (x : Part) : State := { s with parts := s.parts.set p x }
def State.modPart (s : State) (p : Pid) (f : Part → Part) : State := s.setPart p (f (s.part p))

def State.func (s : State) (n : Fn) : Func := s.funcs[n]
def State.setFunc (s : State) (n : Fn) (x : Func) : State := { s with funcs := s.funcs.set n x }
def State.modFunc (s : State) (n : Fn) (f : Func → Func) : State := s.setFunc n (f (s.func n))

def State.ring (s : State) (n : Fn) (r : RingId) : Ring := (s.func n).rings[r]
def State.modRing (s : State) (n : Fn) (r : RingId) (f : Ring → Ring) : State :=
  s.modFunc n fun x => { x with rings := x.rings.set r (f x.rings[r]) }

/-- The same update on every tile that satisfies a test. -/
def State.mapTiles (s : State) (which : TileId → Bool) (f : Tile → Tile) : State :=
  { s with tiles := Vector.ofFn fun t => if which t then f (s.tile t) else s.tile t }

def State.mapEngines (s : State) (which : EngId → Bool) (f : Engine → Engine) : State :=
  { s with engines := Vector.ofFn fun e => if which e then f (s.engine e) else s.engine e }

/-! ### Free values (log 2), messages (log 3) -/

/-- State after n free values were handed out. -/
def State.skipFree (s : State) (n : Nat) : State := { s with freeCtr := s.freeCtr + n }

/-- The next n free bytes. -/
def State.freeBytes (s : State) (n : Nat) : List Byte := (List.range n).map fun i => Config.freeByte (s.freeCtr + i)

/-- The next free word. -/
def State.freeWord (s : State) : Word := Config.freeWord s.freeCtr

def State.emit (s : State) (o : Output) : State := { s with outputs := o :: s.outputs }

/-! ### Saturating counters (20 R451: a count stays at 0xFFFF_FFFF) -/

/-- Count n more events in a 32-bit counter that saturates. -/
def satAdd (c : Half) (n : Nat) : Half := if c.toNat + n < 2 ^ 32 then c + BitVec.ofNat 32 n else 0xFFFFFFFF

/-- Re-runs of a pass, drain or update element are counted (18 R411, R412). -/
def State.countReruns (s : State) (t : TileId) (n : Nat) : State := s.modTile t fun x => { x with retryCnt := satAdd x.retryCnt n }

/-- Corrections of tile-store words and registers are counted (18 R411, R412). -/
def State.countCorrected (s : State) (t : TileId) (n : Nat) : State := s.modTile t fun x => { x with sramCnt := satAdd x.sramCnt n }

/-! ### Units (01 R17, R22) -/

/-- Sheaf of a tile. -/
def sheafOf (t : TileId) : EngId := ⟨t.val / 8, by omega⟩

/-- Compute die of a sheaf. -/
def dieOf (e : EngId) : Fin 2 := ⟨e.val / 8, by omega⟩

/-- Compute die of a memory stack (01 R14, R17). -/
def dieOfStack (m : StackId) : Fin 2 := ⟨m.val / 4, by omega⟩

/-- Compute die of a link port: the link engine that serves it (01 R14, R17). -/
def dieOfPort (p : PortId) : Fin 2 := ⟨p.val / 4, by omega⟩

def Tile.enabled (x : Tile) : Bool := x.made && !x.retired
def Engine.enabled (x : Engine) : Bool := x.made && !x.retired

def allTiles : List TileId := List.finRange 128
def allEngines : List EngId := List.finRange 16
def allParts : List Pid := List.finRange 16
def allFns : List Fn := List.finRange 17

/-! ### Partitions (14) -/

/-- Sheaf s is in the partition. -/
def Entry.hasSheaf (e : Entry) (x : EngId) : Bool := bit e.sheaves x.val

/-- The partition that holds a function: its entry is not FREE (14 R324, R326). -/
def State.partOfFn (s : State) (n : Fn) : Option Pid :=
  allParts.find? fun p => decide ((s.part p).entry.st ≠ .free) && decide ((s.part p).entry.hfn = n)

/-- The partition that holds a sheaf. -/
def State.partOfSheaf (s : State) (x : EngId) : Option Pid :=
  allParts.find? fun p => decide ((s.part p).entry.st ≠ .free) && (s.part p).entry.hasSheaf x

/-- The partition that holds a tile. -/
def State.partOfTile (s : State) (t : TileId) : Option Pid := s.partOfSheaf (sheafOf t)

/-- HIF_FN_STATE (14 R333, 15 R353): a key moult reads as MOULTING. -/
def State.fnState (s : State) (n : Fn) : PState :=
  match s.partOfFn n with
  | none => .free
  | some p => if (s.part p).entry.keyMoult then .moulting else (s.part p).entry.st

/-- A moult or a key moult of the partition runs (14 R329, 15 R353). -/
def State.moults (s : State) (p : Pid) : Bool := decide ((s.part p).entry.st = .moulting) || (s.part p).entry.keyMoult

/-- Code of an entry state (14 R333). -/
def pstateCode : PState → Nat
  | .free => 0
  | .bound => 1
  | .moulting => 2

/-- The program of a slot. -/
def State.prog (s : State) (p : Pid) (k : SlotId) : Option Program := (s.part p).slots[k]

/-- A unit is fenced (18 R418). -/
def State.fenced (s : State) (k : UnitKind) (i : Nat) : Bool := s.bind.fenced.contains { kind := k, index := i }

/-! ### Half-ports (11 R262, R263) -/

/-- Port of a half-port. -/
def portOf (h : HalfId) : PortId := ⟨h.val / 2, by omega⟩

def State.half (s : State) (h : HalfId) : HalfPort := s.links.half[h]
def State.cfgOf (s : State) (h : HalfId) : PortCfg := s.links.cfg[portOf h]

/-- The half-port exists: half 1 only in split mode. -/
def State.halfThere (s : State) (h : HalfId) : Bool := decide (h.val % 2 = 0) || (s.cfgOf h).split

/-- A half may train at all: enabled, not fenced, its clock present (11 R262; 18 R418; 21 R459). -/
def State.mayTrain (s : State) (h : HalfId) : Bool :=
  s.halfThere h && (s.cfgOf h).en && s.pins.lnkClk && !s.fenced .port h.val

/-- A half without a link: no lane, peer or version, and no credit in use. -/
def HalfPort.stop (h : HalfPort) (st : PortState) : HalfPort :=
  { h with state := st, lanes := 0, width := 0, ver := 0, peer := 0xFFFF, out := PerVc.zero, owed := PerVc.zero }

/-! ### The module as the host sees it (17 R406, 19 R426, R428, R434) -/

/-- Power is on, PERST_N released, no reset runs and READY is reached. -/
def State.up (s : State) : Bool :=
  s.pins.on && !s.pins.perst && !s.mgmt.resetting && decide (s.mgmt.stage = .ready ∨ s.mgmt.halted = true)

/-- The function answers: the PCIe link is up, and in service state or recovery only PF0 is there. -/
def State.fnUp (s : State) (n : Fn) : Bool :=
  s.up && s.pins.pcieUp && (decide (n.val = 0) || (decide (n.val ≤ s.vfs) && !s.mgmt.halted && !s.mgmt.recov))

/-! ### Codes (16 R365) -/

def cOk : BitVec 16 := 0x0000
def eOpcode : BitVec 16 := 0x0101
def eField : BitVec 16 := 0x0102
def eVersion : BitVec 16 := 0x0103
def eNotBound : BitVec 16 := 0x0104
def eRange : BitVec 16 := 0x0105
def eAlign : BitVec 16 := 0x0106
def eCapacity : BitVec 16 := 0x0107
def eMemUncorrectable : BitVec 16 := 0x0201
def eRegionOverflow : BitVec 16 := 0x0202
def eHostDma : BitVec 16 := 0x0203
def eLinkLost : BitVec 16 := 0x0301
def ePeerLost : BitVec 16 := 0x0302
def eTimeout : BitVec 16 := 0x0303
def eAuth : BitVec 16 := 0x0401
def eSignature : BitVec 16 := 0x0402
def eKey : BitVec 16 := 0x0403
def eBusy : BitVec 16 := 0x0501
def eAborted : BitVec 16 := 0x0502
def eRetired : BitVec 16 := 0x0503
def eMoulting : BitVec 16 := 0x0504

/-- The outcome of a check: a code, or no objection. -/
abbrev Check := Option (BitVec 16)

/-- The first check that fails decides the code (16 R364). -/
def firstFail : List (Bool × BitVec 16) → Check
  | [] => none
  | (bad, c) :: r => if bad then some c else firstFail r

/-- A step that the manual gives no occurrence of in this state. -/
def notDue (mnemonic : String) : Host.Outcome State Fault Refusal := .fault (.notDue mnemonic)

/-- The step happens when it is due. -/
def whenDue (due : Bool) (mnemonic : String) (t : State) : Host.Outcome State Fault Refusal :=
  if due then .next t else notDue mnemonic

end Sys2Proof.Machine
end

