-- ==== Sys2Proof/Machine/Tx.lean ====
section
/-!
DEFINITION. Sys2Proof/Machine/Tx.lean: sending on the links: virtual channels, credits, ports that reach a module, Ethernet addressing,
frames that wait, replay buffers (10 R250; 11 R264 to R266, R268, R272, R274).
-/
namespace Sys2Proof

/-! ### Numbers of the virtual channels -/

def PerVc.get (x : PerVc) : Vc → Nat
  | .vs => x.vs
  | .vd0 => x.vd0
  | .vd1 => x.vd1

def PerVc.set (x : PerVc) (c : Vc) (n : Nat) : PerVc :=
  match c with
  | .vs => { x with vs := n }
  | .vd0 => { x with vd0 := n }
  | .vd1 => { x with vd1 := n }

def PerVc.add (x : PerVc) (c : Vc) (n : Nat) : PerVc := x.set c (x.get c + n)

/-- Credits come back. -/
def PerVc.minus (x y : PerVc) : PerVc := { vs := x.vs - y.vs, vd0 := x.vd0 - y.vd0, vd1 := x.vd1 - y.vd1 }

/-- Payload bytes of a received frame: sync messages are 32 B (10 R250). -/
def Frame.payload (f : Frame) : Nat :=
  match f.body with
  | .put _ _ d _ => d.length
  | .contribution _ _ _ d _ => d.length
  | _ => 32

end Sys2Proof

namespace Sys2Proof.Machine

/-! ### Virtual channels and units (11 R264, R265) -/

/-- Virtual channel of a message: collectives on VD0, puts and handshakes on VD1, everything else on VS (10 R250; 11 R265, R283). -/
def Message.vc : Message → Vc
  | .contribution _ _ _ _ _ => .vd0
  | .put _ _ _ _ | .handshake => .vd1
  | _ => .vs

/-- Payload bytes: sync messages are 32 B (10 R250). -/
def Message.payload : Message → Nat
  | .put _ _ d _ => d.length
  | .contribution _ _ _ d _ => d.length
  | _ => 32

/-- Largest payload of a frame (11 R264). -/
def frameMax : Nat := 512

/-- Credit units of a frame: header, payload and tag in 64 B units. -/
def unitsOf (payload : Nat) : Nat := (payload + 32 + 63) / 64

/-- Data cut at 512 B: offset, bytes, whether it is the last piece. -/
def pieces (d : List Byte) : List (Nat × List Byte × Bool) :=
  let n := max 1 ((d.length + frameMax - 1) / frameMax)
  (List.range n).map fun i => (frameMax * i, (d.drop (frameMax * i)).take frameMax, decide (i + 1 = n))

/-- The frames of a message. -/
def Message.frames : Message → List Message
  | .put x a d _ => (pieces d).map fun k => .put x (a + k.1) k.2.1 k.2.2
  | .contribution e r c d _ => (pieces d).map fun k => .contribution e r c k.2.1 k.2.2
  | m => [m]

/-! ### Receive buffers (11 R265, R272) -/

/-- Room in the receive buffer at the other end of a native link: 16 KiB for VS, 16 KiB for each data channel and a pool of 976 KiB
that both draw from; half of each for a half-port. -/
def linkRoom (split : Bool) (out : PerVc) (c : Vc) (n : Nat) : Bool :=
  let k := if split then 1 else 2
  let x := out.add c n
  match c with
  | .vs => decide (x.vs ≤ 128 * k)
  | _ => decide ((x.vd0 - 128 * k) + (x.vd1 - 128 * k) ≤ 7808 * k)

/-- Room that an Ethernet peer grants: 16 KiB on each channel (log 82). -/
def peerRoom (out : PerVc) (c : Vc) (n : Nat) : Bool := decide ((out.add c n).get c ≤ 256)

/-! ### Ports (11 R266, R272) -/

/-- The half reaches a module: directly, through a switch, or over Ethernet. -/
def State.reaches (s : State) (h : HalfId) (m : ModId) : Bool :=
  (s.cfgOf h).eth || decide ((s.links.half[h]).peer = m) || decide ((s.links.half[h]).peer = 0xFFFE)

/-- Half-ports that a partition's traffic to a module may use. -/
def State.halvesTo (s : State) (p : Pid) (m : ModId) : List HalfId :=
  (List.finRange 16).filter fun h => bit (s.part p).entry.ports h.val && decide ((s.links.half[h]).state = .up) && s.reaches h m

/-- The half-port a frame leaves by: the lowest with credit whose data priority is not paused; the choice affects timing only. -/
def State.txHalf (s : State) (p : Pid) (q : Peer) (c : Vc) (n : Nat) : Option HalfId :=
  (s.halvesTo p q.id).find? fun h =>
    if (s.cfgOf h).eth then peerRoom q.out c n && !(decide (c ≠ .vs) && s.links.paused[portOf h])
    else linkRoom (s.cfgOf h).split (s.links.half[h]).out c n

/-- IPv6 address of port p of module m: the /64 prefix and m * 256 + p (11 R272). -/
def State.ethAddress (s : State) (m : ModId) (p : PortId) : BitVec 128 :=
  BitVec.ofNat 128 (s.links.pfx.toNat * 2 ^ 64 + m.toNat * 256 + p.val)

/-- The datagram of a frame: data under LNK_ETH_UDP and LNK_ETH_DSCP from one of 64 source ports, VS under the next port, DSCP 46 and
one source port (11 R272). -/
def State.netHeader (s : State) (p : PortId) (m : ModId) (c : Vc) (seq : Nat) : NetHeader :=
  { dst := s.ethAddress m p, mac := s.links.gwmac[p]
    udp := if c = .vs then s.links.udp + 1 else s.links.udp
    src := if c = .vs then Config.ethSyncPort else Config.ethDataPort m (seq % 64)
    dscp := if c = .vs then 46 else s.links.dscp }

/-! ### Peers -/

def Peer.fresh (m : ModId) (now : Nat) : Peer :=
  { id := m, keyed := false, keyGen := 0, rekey := false, frames := 0, fails := 0, lastAlive := now, suspended := none, lost := none,
    lastPut := none, ver := 0, xfers := 0, tx := PerVc.zero, rx := PerVc.zero, ahead := [], early := [], out := PerVc.zero, owed := PerVc.zero,
    torn := none }

/-- The partition knows the peer. -/
def State.ensurePeer (s : State) (p : Pid) (m : ModId) : State :=
  if (s.part p).peers.any fun q => decide (q.id = m) then s
  else s.modPart p fun x => { x with peers := x.peers ++ [Peer.fresh m s.now] }

/-- A peer's entry changes. -/
def State.modPeer (s : State) (p : Pid) (m : ModId) (f : Peer → Peer) : State :=
  s.modPart p fun x => { x with peers := x.peers.map fun q => if q.id = m then f q else q }

def State.peer (s : State) (p : Pid) (m : ModId) : Option Peer := (s.part p).peers.find? fun q => decide (q.id = m)

def State.setHalf (s : State) (h : HalfId) (f : HalfPort → HalfPort) : State :=
  { s with links := { s.links with half := s.links.half.set h (f s.links.half[h]) } }

/-! ### Frames out (11 R264, R268) -/

/-- Bytes of a replay buffer: 1 MiB per port, half of it for a half-port (11 R268). -/
def replayBytes (split : Bool) : Nat := if split then 2 ^ 19 else 2 ^ 20

/-- Bytes that frames take in a replay buffer. -/
def replaySize (fs : List SentFrame) : Nat := fs.foldl (fun n f => n + f.hd.len + 32) 0

/-- The newest frames that a replay buffer holds; `fs` in order of sending. -/
def replayKeep (limit : Nat) (fs : List SentFrame) : List SentFrame :=
  (List.range (fs.length + 1)).foldl (fun ys _ => if limit < replaySize ys then ys.drop 1 else ys) fs

/-- A frame leaves by a half-port: its header, its credit, its place in the replay buffer, the key's frame counter (11 R264, R265, R268,
R274). Under version 1.1 a data frame returns the credits owed (R265). -/
def State.transmit (s : State) (x : TxItem) (q : Peer) (h : HalfId) : State :=
  let c := x.msg.vc
  let n := unitsOf x.msg.payload
  let eth := (s.cfgOf h).eth
  let hp := s.links.half[h]
  let back := decide (c ≠ .vs) && decide ((if eth then q.ver else hp.ver) = 2)
  let hd : TxHeader :=
    { half := h, src := s.links.modId, dst := x.peer, job := (s.part x.pid).entry.jobTag, vc := c, len := x.msg.payload
      seq := q.tx.get c, credits := if !back then PerVc.zero else if eth then q.owed else hp.owed, arrived := q.rx
      net := if eth then some (s.netHeader (portOf h) x.peer c (q.tx.get c)) else none }
  let f : SentFrame :=
    { id := { pid := x.pid, peer := x.peer, vc := c, seq := q.tx.get c }, hd := hd, msg := x.msg, dgram := eth, sends := 1, at_ := s.now }
  let s := s.setHalf h fun y =>
    { y with
      out := if eth then y.out else y.out.add c n
      owed := if back && !eth then PerVc.zero else y.owed
      replay := replayKeep (replayBytes (s.cfgOf h).split) (y.replay ++ [f]) }
  (s.modPeer x.pid x.peer fun y =>
    { y with frames := y.frames + 1, tx := y.tx.add c 1, out := if eth then y.out.add c n else y.out,
             owed := if back && eth then PerVc.zero else y.owed }).emit (.frame hd x.msg)

/-- A waiting frame goes out when its pair holds keys, their frame counter is below 2^40, and a half-port has credit (11 R265, R274). -/
def State.trySend (s : State) (x : TxItem) : Option State :=
  match s.peer x.pid x.peer with
  | none => none
  | some q =>
    if !q.keyed || decide (2 ^ 40 ≤ q.frames) then none
    else (s.txHalf x.pid q x.msg.vc (unitsOf x.msg.payload)).map fun h => s.transmit x q h

/-- Frames of one pair on one virtual channel. -/
def TxItem.same (x y : TxItem) : Bool := decide (x.pid = y.pid) && decide (x.peer = y.peer) && decide (x.msg.vc = y.msg.vc)

/-- Waiting frames that can go out do, sync frames first, those of one pair and channel in order (10 R250; 11 R265). -/
def State.pump (s : State) : State :=
  let q := s.links.txq
  let r := (q.filter (fun x => decide (x.msg.vc = .vs)) ++ q.filter fun x => !decide (x.msg.vc = .vs)).foldl
    (fun (r : State × List TxItem) x =>
      if r.2.any x.same then (r.1, r.2 ++ [x])
      else match r.1.trySend x with
        | none => (r.1, r.2 ++ [x])
        | some t => (t, r.2)) (s, [])
  { r.1 with links := { r.1.links with txq := r.2 } }

/-- What a moulting partition's ports still carry: keep-alives, and the refusals of remote operations (14 R334). -/
def Message.inMoult : Message → Bool
  | .ack _ code | .refuseArrive _ code => decide (code = eNotBound)
  | .keepAlive => true
  | _ => false

/-- A message to a peer of a partition's job: its frames wait for keys and credit, and go out as they can. Nothing goes to a peer that is
lost (11 R284), and from a moulting partition only what R334 of 14 lists. -/
def State.send (s : State) (p : Pid) (m : ModId) (x : Message) : State :=
  if s.moults p && !x.inMoult then s else
  let s := s.ensurePeer p m
  if ((s.peer p m).bind (·.lost)).isSome then s
  else { s with links := { s.links with txq := s.links.txq ++ x.frames.map fun f => ({ pid := p, peer := m, msg := f } : TxItem) } }.pump

/-- A message of the port itself on VS, sent when the half-port has credit. -/
def State.portSend (s : State) (h : HalfId) (m : Message) : State :=
  if linkRoom (s.cfgOf h).split (s.links.half[h]).out .vs 1 || (s.cfgOf h).eth then
    (s.setHalf h fun y => { y with out := if (s.cfgOf h).eth then y.out else y.out.add .vs 1 }).emit (.port h m)
  else s

/-- Frames to a peer that wait are dropped, and those to it in the replay buffers. -/
def State.dropTx (s : State) (which : Pid → ModId → Bool) : State :=
  { s with links := { s.links with
      txq := s.links.txq.filter fun x => !which x.pid x.peer
      half := s.links.half.map fun h => { h with replay := h.replay.filter fun f => !which f.id.pid f.id.peer } } }

/-! ### Credits (11 R265) -/

/-- Buffer space of a native link became free: a credit frame on VS at once, or, under version 1.1 while data frames wait to go back,
the next of them. -/
def State.freeLink (s : State) (h : HalfId) (c : Vc) (n : Nat) : State :=
  let s := s.setHalf h fun y => { y with owed := y.owed.add c n }
  let wait := decide ((s.links.half[h]).ver = 2) && s.links.txq.any fun x =>
    decide (x.msg.vc ≠ .vs) && (s.halvesTo x.pid x.peer).contains h
  if wait then s
  else (s.setHalf h fun y => { y with owed := PerVc.zero }).emit (.port h (.credit (s.links.half[h]).owed))

/-- The same end to end, for a peer on Ethernet (11 R272). -/
def State.freePeer (s : State) (p : Pid) (m : ModId) (c : Vc) (n : Nat) : State :=
  let s := s.modPeer p m fun y => { y with owed := y.owed.add c n }
  match s.peer p m with
  | none => s
  | some q =>
    if decide (q.ver = 2) && s.links.txq.any (fun x => decide (x.pid = p) && decide (x.peer = m) && decide (x.msg.vc ≠ .vs)) then s
    else (s.modPeer p m fun y => { y with owed := PerVc.zero }).emit (.link p m (.credit q.owed))

/-- Space that a frame took in the receive buffers became free. -/
def State.freeUnits (s : State) (p : Pid) (m : ModId) (h : HalfId) (c : Vc) (n : Nat) : State :=
  if (s.cfgOf h).eth then s.freePeer p m c n else s.freeLink h c n

/-- The room of a discarded frame is free again: on a native link to the link, on Ethernet to a peer there is none to name. -/
def State.freeRoom (s : State) (h : HalfId) (f : Frame) : State :=
  if (s.cfgOf h).eth then s else s.freeLink h f.vc (unitsOf f.payload)

/-- Credits return from the other end: of the link, or of the pair on Ethernet. -/
def State.takeCredits (s : State) (p : Pid) (m : ModId) (h : HalfId) (x : PerVc) : State :=
  if (s.cfgOf h).eth then s.modPeer p m fun y => { y with out := y.out.minus x }
  else s.setHalf h fun y => { y with out := y.out.minus x }

/-- Frames of a pair that have arrived leave the replay buffers (11 R268). -/
def State.dropArrived (s : State) (p : Pid) (m : ModId) (x : PerVc) : State :=
  { s with links := { s.links with half := s.links.half.map fun h =>
      { h with replay := h.replay.filter fun f =>
          !(decide (f.id.pid = p) && decide (f.id.peer = m) && decide (f.id.seq < x.get f.id.vc)) } } }

end Sys2Proof.Machine
end

