-- ==== Sys2Proof/Machine/Events.lean ====
section
/-!
DEFINITION. Sys2Proof/Machine/Events.lean: interrupts, event rings and completions (16 R370, R384, R385; 18 R421; 19 R430,
R437; 21 R470).
-/
namespace Sys2Proof.Machine

/-- The MSI-X message of a vector is sent, or its Pending Bit set while the vector is masked (16 R385). -/
def State.irq (s : State) (n : Fn) (vec : Nat) : State :=
  if (s.func n).unmasked.contains vec then s.emit (.msix n vec)
  else s.modFunc n fun f => if f.msixPend.contains vec then f else { f with msixPend := vec :: f.msixPend }

/-! ### Event rings -/

/-- Entries of a ring of 2^LOG entries that the host has not consumed. -/
def ringFill (log : Byte) (head tail : Nat) : Nat := (tail + 2 ^ log.toNat - head) % 2 ^ log.toNat

/-- The ring holds 2^LOG - 1 unconsumed entries (16 R361, R384). -/
def EvRing.full (r : EvRing) : Bool := decide (ringFill r.log r.head r.tail = 2 ^ r.log.toNat - 1)

/-- The 32 bytes of an event entry (16 R384). -/
def Event.bytes (e : Event) (phase : Bool) : List Byte :=
  leBytes 8 (e.code.toNat * 2 ^ 48 + e.pid.toNat * 2 ^ 40 + b2n phase) ++ leBytes 8 e.stamp.toNat ++
    leBytes 8 e.d2.toNat ++ leBytes 8 e.d3.toNat

/-- The ring after one entry was written. -/
def EvRing.push (r : EvRing) (code : BitVec 16) : EvRing :=
  { r with tail := (r.tail + 1) % 2 ^ r.log.toNat
           phase := if r.tail + 1 = 2 ^ r.log.toNat then !r.phase else r.phase
           unread := r.unread ++ [code] }

/-- One entry is written to the function's ring; the interrupt follows. An event of PF0's ring also goes to the PLDM event
receiver (19 R437). -/
def State.writeEvent (s : State) (n : Fn) (e : Event) : State :=
  let r := (s.func n).evq
  let s := { s with hostMem := Memory.writeBytes s.hostMem (r.base.toNat + 32 * r.tail) (e.bytes r.phase) }
  let s := s.modFunc n fun f => { f with evq := f.evq.push e.code }
  let s := s.irq n r.vec.toNat
  if n.val = 0 ∧ s.mgmt.receiver.isSome then s.emit (.pldmEvent e.code) else s

/-- The overflow event (18 R421): events dropped since the last one. -/
def overflowEvent (s : State) (n : Fn) : Event :=
  { code := 0x0504, pid := 0xFF, stamp := s.time.gt, d2 := BitVec.setWidth 64 (s.func n).evq.drops, d3 := 0 }

/-- The overflow event is written first once a ring that dropped events has space (16 R384). -/
def State.flushOverflow (s : State) (n : Fn) : State :=
  let r := (s.func n).evq
  if r.en && decide (r.drops ≠ 0) && !r.full && s.pins.pcieUp then
    (s.writeEvent n (overflowEvent s n)).modFunc n fun f => { f with evq := { f.evq with drops := 0 } }
  else s

/-- An event is dropped and counted. -/
def State.dropEvent (s : State) (n : Fn) : State :=
  s.modFunc n fun f => { f with evq := { f.evq with lost := satAdd f.evq.lost 1, drops := satAdd f.evq.drops 1 } }

/-- An event comes to a function's ring: written; dropped when the ring is full; held, up to 64, before the ring is enabled
(19 R430; for a VF's ring the model's choice, log 25), and held while PCIe is down (21 R470). -/
def State.raise (s : State) (n : Fn) (e : Event) : State :=
  let r := (s.func n).evq
  if !r.en then
    if r.held.length < 64 then s.modFunc n fun f => { f with evq := { f.evq with held := f.evq.held ++ [e] } }
    else s.dropEvent n
  else if !s.pins.pcieUp then
    s.modFunc n fun f => { f with evq := { f.evq with held := f.evq.held ++ [e] } }
  else
    let s := s.flushOverflow n
    if (s.func n).evq.full then s.dropEvent n else s.writeEvent n e

/-- The held events are written in their order (19 R430). -/
def State.flushHeld (s : State) (n : Fn) : State :=
  let es := (s.func n).evq.held
  let s := s.modFunc n fun f => { f with evq := { f.evq with held := [] } }
  (es.foldl (fun s e => if (s.func n).evq.full then s.dropEvent n else s.writeEvent n e) s).flushOverflow n

/-- An event of a partition, or of none, stamped now. -/
def mkEvent (s : State) (code : BitVec 16) (pid : Option Pid) (d2 d3 : Nat) : Event :=
  { code := code, pid := match pid with | none => 0xFF | some p => BitVec.ofNat 8 p.val, stamp := s.time.gt,
    d2 := BitVec.ofNat 64 d2, d3 := BitVec.ofNat 64 d3 }

/-- An event on PF0's ring (18 R421). -/
def State.raisePf0 (s : State) (code : BitVec 16) (pid : Option Pid) (d2 d3 : Nat) : State :=
  s.raise 0 (mkEvent s code pid d2 d3)

/-- An event on the ring of the function bound to a partition ("Fn" of 18 R421). -/
def State.raiseFn (s : State) (code : BitVec 16) (p : Pid) (d2 d3 : Nat) : State :=
  if (s.part p).entry.st = .free then s else s.raise (s.part p).entry.hfn (mkEvent s code (some p) d2 d3)

/-- An event for "Fn, PF0": one entry when both are the same ring. -/
def State.raiseBoth (s : State) (code : BitVec 16) (p : Option Pid) (d2 d3 : Nat) : State :=
  match p with
  | none => s.raisePf0 code none d2 d3
  | some p =>
    if (s.part p).entry.st = .free ∨ (s.part p).entry.hfn.val = 0 then s.raisePf0 code (some p) d2 d3
    else (s.raiseFn code p d2 d3).raisePf0 code (some p) d2 d3

/-! ### Completions (16 R370) -/

/-- The 16 bytes of a completion entry. -/
def cplBytes (code : BitVec 16) (status : Nat) (ring : RingId) (tag : Nat) (phase : Bool) (sqhd info : Nat) : List Byte :=
  leBytes 8 (code.toNat * 2 ^ 48 + (status % 16) * 2 ^ 44 + ring.val * 2 ^ 38 + tag % 2 ^ 32) ++
    leBytes 8 (b2n phase * 2 ^ 63 + (sqhd % 2 ^ 16) * 2 ^ 40 + info % 2 ^ 40)

/-- The completion entry is written, the interrupt sent unless NIRQ = 1; a disabled ring gets none. -/
def State.postCpl (s : State) (n : Fn) (ring : RingId) (tag : Nat) (nirq : Bool) (code : BitVec 16) (status info : Nat) :
    State :=
  let r := s.ring n ring
  if !r.en then s else
  let s := { s with hostMem := Memory.writeBytes s.hostMem (r.cqBase.toNat + 16 * r.cqTail)
                                (cplBytes code status ring tag r.phase r.sqHead info) }
  let s := s.modRing n ring fun r =>
    { r with cqTail := (r.cqTail + 1) % 2 ^ r.cqlog.toNat
             phase := if r.cqTail + 1 = 2 ^ r.cqlog.toNat then !r.phase else r.phase }
  if nirq then s else s.irq n r.vec.toNat

/-- Word i of a descriptor. -/
def dw (d : BitVec 512) (i : Nat) : Word := wordOf d i

/-- TAG and NIRQ of a descriptor (16 R363). -/
def descTag (d : BitVec 512) : Nat := bits (dw d 0) 31 0
def descNirq (d : BitVec 512) : Bool := bit (dw d 0) 46

/-- A fetched command ends: its completion is posted, or held while PCIe is down (21 R470), and it leaves the fetched
commands. -/
def State.complete (s : State) (n : Fn) (c : Cmd) (code : BitVec 16) (status info : Nat) : State :=
  let s := s.modFunc n fun f => { f with cmds := f.cmds.filter fun x => !decide (x.cid = c.cid) }
  if s.pins.pcieUp then s.postCpl n c.ring (descTag c.desc) (descNirq c.desc) code status info
  else { s with pins := { s.pins with
           heldCpl := s.pins.heldCpl ++ [{ fn := n, cmd := c, code := code, status := status, info := info }] } }

/-- Completions and events held for the link are written once it returns (21 R470). -/
def State.flushHost (s : State) : State :=
  let held := s.pins.heldCpl
  let s := { s with pins := { s.pins with heldCpl := [] } }
  let s := held.foldl (fun s h =>
    s.postCpl h.fn h.cmd.ring (descTag h.cmd.desc) (descNirq h.cmd.desc) h.code h.status h.info) s
  allFns.foldl (fun s n => if (s.func n).evq.en then s.flushHeld n else s) s

/-- Which fetched commands may start (16 R369): every earlier command of the ring has started, none of them is a FENCE, and
with ORD = 1 all of them have completed. -/
def startable (cmds : List Cmd) (c : Cmd) : Bool :=
  let before := (cmds.takeWhile fun x => !decide (x.cid = c.cid)).filter fun x => decide (x.ring = c.ring)
  decide (c.phase = .fetched) && (before.all fun x => decide (x.phase = .started) && !decide (bits (dw x.desc 0) 63 56 = 0x32)) &&
    (!bit (dw c.desc 0) 47 || before.isEmpty)

/-- A fetched command by its number. -/
def State.findCmd (s : State) (n : Fn) (cid : Nat) : Option Cmd := (s.func n).cmds.find? fun c => decide (c.cid = cid)

/-- The command number cid of function n, of opcode opc, when it may start; none starts while the function moults (14 R329, R334). -/
def State.dueCmd (s : State) (n : Fn) (cid opc : Nat) : Option Cmd :=
  match s.findCmd n cid with
  | none => none
  | some c =>
    if decide (bits (dw c.desc 0) 63 56 = opc) && startable (s.func n).cmds c && s.up && decide (s.fnState n ≠ .moulting) then
      some c else none

/-- A fetched command is at work from now on. -/
def State.startCmd (s : State) (n : Fn) (c : Cmd) : State :=
  s.modFunc n fun f => { f with cmds := f.cmds.map fun x => if x.cid = c.cid then { x with phase := .started } else x }

end Sys2Proof.Machine
end

