-- ==== Sys2Proof/Machine/Silo.lean ====
section
/-!
DEFINITION. Sys2Proof/Machine/Silo.lean: silo addresses, the device address map, granules that wait for their clear, sectors
that cannot be corrected, cache hints that discard data (00 R12, R13; 09 R211 to R214, R219, R220, R227, R234; 14 R331, R332).
-/
namespace Sys2Proof.Machine

/-! ### The map (00 R12) -/

def granSize : Nat := 2 ^ 30
def tileBase : Nat := 0x0001000000000000
def tileSize : Nat := 2 ^ 22
def engBase : Nat := 0x0001010000000000
def engSize : Nat := 2 ^ 23
def syncBase : Nat := 0x0001020000000000

/-- First device address of a tile store. -/
def tileAddr (t : TileId) : Nat := tileBase + t.val * tileSize

/-- First device address of a solve engine's working buffer. -/
def engAddr (e : EngId) : Nat := engBase + e.val * engSize

/-! ### Silos (09 R214) -/

def Part.siloSize (x : Part) : Nat := x.entry.gran.length * granSize

/-- Device address of a silo address. -/
def Part.devAddr (x : Part) (a : Nat) : Nat := (x.entry.gran[a / granSize]?.getD 0) * granSize + a % granSize

/-- The range lies inside the silo. -/
def Part.inSilo (x : Part) (a n : Nat) : Bool := decide (a + n ≤ x.siloSize)

/-- Device granules of a silo range. -/
def Part.granules (x : Part) (a n : Nat) : List Nat :=
  if n = 0 then [] else (natRange (a / granSize) ((a + n - 1) / granSize + 1)).map fun i => x.entry.gran[i]?.getD 0

/-- The granule waits for its clear (14 R331). -/
def State.granPending (s : State) (g : Nat) : Bool := s.bind.clrPend.getLsbD g

/-- A byte of memory by device address as a block of a partition reads it: zero while the granule waits for its clear
(14 R332). -/
def State.hbmByte (s : State) (a : Nat) : Byte :=
  if s.granPending (a / granSize) then 0 else Memory.read s.mem a

/-! ### Keys (09 R222; 15 R345, R346) -/

/-- The key of a sector: the slot of its silo that its page's epoch bit names; none where the slot is erased. -/
def State.sectorKey (s : State) (p : Pid) (d : Nat) : Option Nat :=
  if s.memctl.epochOne.contains (d / 4096) then (s.sec.silo[p]).2 else (s.sec.silo[p]).1

/-- Both slots of a silo are erased: its pending writes are dropped (14 R329). -/
def State.keyless (s : State) (p : Pid) : Bool := decide (s.sec.silo[p] = (none, none))

/-- What the stacks hold of the sector at a device address: nothing was encrypted where a clear left its mark, else the AES-XTS
ciphertext of the sector under a key, with the sector's tweak. -/
def State.storedSector (s : State) (key : Option Nat) (d : Nat) : List Byte :=
  let plain := (List.range 64).map fun i => Memory.read s.mem (d / 64 * 64 + i)
  match key with
  | none => plain
  | some k => if s.memctl.marked (d / 64 * 64) then plain else Config.aesXts k (tweakOf d) plain

/-- A sector of a silo, and one of the reserved region, which the device key encrypts (09 R213, R222; 15 R337). -/
def State.siloSector (s : State) (p : Pid) (d : Nat) : List Byte := s.storedSector (s.sectorKey p d) d
def State.reservedSector (s : State) (d : Nat) : List Byte := s.storedSector s.sec.device d

/-- A byte of a silo: decrypted under its sector's key; zero, without error, once the key is erased (14 R329). -/
def State.siloByte (s : State) (p : Pid) (a : Nat) : Byte :=
  let d := (s.part p).devAddr a
  if (s.sectorKey p d).isNone then 0 else s.hbmByte d

def State.siloBytes (s : State) (p : Pid) (a n : Nat) : List Byte := (List.range n).map fun i => s.siloByte p (a + i)

/-- A little-endian value in the silo. -/
def State.siloLe (s : State) (p : Pid) (a n : Nat) : Nat := leNat (s.siloBytes p a n)

/-- First address in the range whose sector cannot be corrected (09 R227); a cached sector is not read from its stack, and a granule
that waits for its clear, or has no key, counts no error (14 R329, R332). -/
def State.siloBadAt (s : State) (p : Pid) (a n : Nat) : Option Nat :=
  if s.memctl.bad.isEmpty then none else
  (List.range n).findSome? fun i =>
    let d := (s.part p).devAddr (a + i)
    if s.memctl.bad.contains (d / 64 * 64) && !s.memctl.cached d && !s.granPending (d / granSize) &&
        (s.sectorKey p d).isSome then some (a + i) else none

/-- A sector that cannot be corrected lies in the range. -/
def State.siloBad (s : State) (p : Pid) (a n : Nat) : Bool := (s.siloBadAt p a n).isSome

/-- Granules of the range that are fenced (18 R418). -/
def State.siloFenced (s : State) (p : Pid) (a n : Nat) : Bool := ((s.part p).granules a n).any fun g => s.fenced .granule g

/-- Granules of the range that wait for their clear: a write is held (14 R332). -/
def State.siloWaiting (s : State) (p : Pid) (a n : Nat) : List Nat := ((s.part p).granules a n).filter s.granPending

/-- The clears of the granules a held write needs move to the head, behind those moved before (09 R234). -/
def BindSt.moveAhead (b : BindSt) (gs : List Nat) : BindSt :=
  { b with moved := b.moved ++ gs.filter fun g => !b.moved.contains g && !decide (b.clearing = some g) }

/-- A write that must wait: the granules' clears move ahead and nothing is written; none when no granule waits. -/
def State.holdWrites (s : State) (p : Pid) (ranges : List (Nat × Nat)) : Option State :=
  let gs := ranges.flatMap fun r => s.siloWaiting p r.1 r.2
  if gs.isEmpty then none else some { s with bind := s.bind.moveAhead gs }

/-- The first sector that a write covers only in part and that cannot be corrected: the write is not performed (09 R227). -/
def State.partialBadAt (s : State) (p : Pid) (a n : Nat) : Option Nat :=
  if n = 0 ∨ s.memctl.bad = [] then none else
  ((natRange (a / 64) ((a + n + 63) / 64)).find? fun i =>
    (decide (i * 64 < a) || decide (a + n < i * 64 + 64)) && s.siloBad p (i * 64) 64).map (64 * ·)

def State.partialBad (s : State) (p : Pid) (a n : Nat) : Bool := (s.partialBadAt p a n).isSome

/-- What a write of a silo range does to caches, sectors and clear marks. -/
def State.writeLines (s : State) (p : Pid) (hint a n : Nat) : MemSt :=
  if n = 0 then s.memctl else
  (natRange (a / 256) ((a + n + 255) / 256)).foldl (fun m i =>
    m.writeLine s.mem hint ((s.part p).devAddr (256 * i) / 256) (a - 256 * i) (min 256 (a + n - 256 * i))) s.memctl

/-- Bytes stored to the silo under a cache hint; dropped when its keys are erased. The caller has checked range, waiting granules and
partial sectors. -/
def State.siloWriteH (s : State) (p : Pid) (hint a : Nat) (bs : List Byte) : State :=
  if s.keyless p then s else
  let mem := (bs.zipIdx).foldl (fun m x => Memory.write m ((s.part p).devAddr (a + x.2)) x.1) s.mem
  { s with mem := mem, memctl := s.writeLines p hint a bs.length }

/-- Bytes stored to the silo under NORMAL. -/
def State.siloWrite (s : State) (p : Pid) (a : Nat) (bs : List Byte) : State := s.siloWriteH p 0 a bs

/-- Zeros stored to a silo range. -/
def State.siloZero (s : State) (p : Pid) (a n : Nat) : State :=
  if s.keyless p then s else
  let gs := (natRange (a / granSize) ((a + n + granSize - 1) / granSize))
  { s with
    mem := gs.foldl (fun m i =>
      let lo := max a (i * granSize)
      let hi := min (a + n) ((i + 1) * granSize)
      let d := (s.part p).devAddr lo
      Memory.clear m d (d + (hi - lo))) s.mem
    memctl := s.writeLines p 0 a n }

/-- A range of bytes cut at granule boundaries. -/
def granChunks (a : Nat) (bs : List Byte) : List (Nat × List Byte) :=
  (natRange (a / granSize) ((a + bs.length + granSize - 1) / granSize)).map fun i =>
    (max a (i * granSize), (bs.drop (i * granSize - a)).take (min (a + bs.length) ((i + 1) * granSize) - max a (i * granSize)))

/-- A record the module writes for itself (result record, completion record, log, status word): what lies in a granule that waits for
its clear is held and lands when the clear completes (09 R234); a part of a sector that cannot be read is not written (09 R227). -/
def State.siloRecord (s : State) (p : Pid) (a : Nat) (bs : List Byte) : State :=
  if s.keyless p then s else
  (granChunks a bs).foldl (fun s (c : Nat × List Byte) =>
    if (s.siloWaiting p c.1 c.2.length).isEmpty then
      if s.partialBad p c.1 c.2.length then s else s.siloWrite p c.1 c.2
    else { s with bind := { s.bind.moveAhead (s.siloWaiting p c.1 c.2.length) with
                              heldWr := s.bind.heldWr ++ [((s.part p).devAddr c.1, c.2)] } }) s

/-! ### Reads and cache hints (09 R219, R220) -/

/-- Device lines of a silo range. -/
def Part.lines (x : Part) (a n : Nat) : List Nat :=
  if n = 0 ∨ !x.inSilo a n then [] else (natRange (a / 256) ((a + n + 255) / 256)).map fun i => x.devAddr (256 * i) / 256

/-- The lines of a LAST_USE read are invalidated, dirty data discarded. -/
def State.lastUse (s : State) (p : Pid) (a n : Nat) : State :=
  ((s.part p).lines a n).foldl (fun s l =>
    let r := discardLine s.memctl s.mem l s.freeWord
    { s with memctl := r.1, mem := r.2 }.skipFree 1) s

/-- The effect of a read under a HINT on the caches and on what later reads give. -/
def State.hintRead (s : State) (p : Pid) (hint a n : Nat) : State :=
  if hint = 3 then s.lastUse p a n
  else { s with memctl := { s.memctl with cache := ((s.part p).lines a n).foldl (cacheRead hint) s.memctl.cache } }

/-- Reads of an engine, which use NORMAL (09 R219). -/
def State.readLines (s : State) (p : Pid) (rs : List (Nat × Nat)) : State :=
  rs.foldl (fun s (r : Nat × Nat) => s.hintRead p 0 r.1 r.2) s

/-! ### Tile stores -/

def State.storeByte (s : State) (t : TileId) (a : Nat) : Byte := Memory.read s.mem (tileAddr t + a)

def State.storeBytes (s : State) (t : TileId) (a n : Nat) : List Byte := Memory.readBytes s.mem (tileAddr t + a) n

def State.storeLe (s : State) (t : TileId) (a n : Nat) : Nat := leNat (s.storeBytes t a n)

def State.storeWrite (s : State) (t : TileId) (a : Nat) (bs : List Byte) : State :=
  { s with mem := Memory.writeBytes s.mem (tileAddr t + a) bs }

end Sys2Proof.Machine
end

