-- ==== Sys2Proof/Machine/Image.lean ====
section
/-!
DEFINITION. Sys2Proof/Machine/Image.lean: reading a program image: header, section directory and the records of each section
(16 R380, R381; 05 R112, R116; 08 R196, R199, R206; 11 R277, R279; 12 R292; 13 R313).
-/
namespace Sys2Proof.Machine

/-- n bytes of an image at an offset, as a number. -/
def imgLe (img : List Byte) (off n : Nat) : Nat := leNat ((img.drop off).take n)

/-- A directory entry (16 R381). -/
structure Section where
  idx   : Nat
  ty    : Nat
  resv  : Nat
  count : Nat
  off   : Nat
  size  : Nat
  addr  : Nat
  deriving DecidableEq, Repr

/-- Directory entry k. -/
def imgSection (img : List Byte) (k : Nat) : Section :=
  let o := 256 + 32 * k
  { idx := k, ty := imgLe img o 2, resv := imgLe img (o + 2) 2, count := imgLe img (o + 4) 4, off := imgLe img (o + 8) 8,
    size := imgLe img (o + 16) 8, addr := imgLe img (o + 24) 8 }

def imgNsec (img : List Byte) : Nat := imgLe img 6 2

/-- The directory. -/
def imgSections (img : List Byte) : List Section := (List.range (imgNsec img)).map (imgSection img)

/-- The section of a type. -/
def imgFind (img : List Byte) (ty : Nat) : Option Section := (imgSections img).find? fun x => decide (x.ty = ty)

/-- Section types (16 R381). -/
def sCode : Nat := 0x01
def sEntry : Nat := 0x02
def sChannel : Nat := 0x03
def sPattern : Nat := 0x04
def sSync : Nat := 0x05
def sRegion : Nat := 0x06
def sWatch : Nat := 0x07
def sRlog : Nat := 0x08
def sLinkw : Nat := 0x09
def sGroup : Nat := 0x0A
def sDeadline : Nat := 0x0B
def sDlog : Nat := 0x0C
def sDigest : Nat := 0x0D
def sStash : Nat := 0x0E

/-- The bytes of a section held in the image. -/
def imgBytes (img : List Byte) (x : Section) : List Byte := (img.drop x.off).take x.size

/-- Offsets in the image of the records of a section of fixed-size records. -/
def imgRecords (img : List Byte) (ty sz : Nat) : List Nat :=
  match imgFind img ty with
  | none => []
  | some x => (List.range x.count).map fun i => x.off + sz * i

/-! ### ENTRY and CODE -/

/-- Directory index of the code section and entry offset of logical tile L (16 R381). -/
def imgEntry (img : List Byte) (l : Nat) : Nat × Nat :=
  match imgFind img sEntry with
  | none => (0, 0)
  | some x => (imgLe img (x.off + 16 * l) 2, imgLe img (x.off + 16 * l + 8) 8)

/-- Size of the code section at a directory index. -/
def imgCodeSize (img : List Byte) (k : Nat) : Nat := (imgSection img k).size

/-- The instruction word at a byte offset of the code section at a directory index, little-endian (07 R153). -/
def imgCodeWord (img : List Byte) (k pc : Nat) : Nat := imgLe img ((imgSection img k).off + pc) 4

/-! ### Solve channels and patterns -/

/-- A channel record (05 R116). -/
structure ChanRec where
  lse     : Nat
  lch     : Nat
  host    : Bool
  tau     : Nat
  refresh : Nat
  resv    : Nat
  pattern : Nat
  val     : Nat
  fac     : Nat
  last    : Nat
  deriving DecidableEq, Repr

def imgChan (img : List Byte) (o : Nat) : ChanRec :=
  let w := imgLe img o 8
  { lse := nbits w 63 60, lch := nbits w 59 55, host := decide (nbits w 54 54 = 1), tau := nbits w 53 48,
    refresh := nbits w 47 32, resv := nbits w 31 0 + imgLe img (o + 40) 24, pattern := imgLe img (o + 8) 8,
    val := imgLe img (o + 16) 8, fac := imgLe img (o + 24) 8, last := imgLe img (o + 32) 8 }

def imgChans (img : List Byte) : List ChanRec := (imgRecords img sChannel 64).map (imgChan img)

/-! ### Regions, watch records, quotas -/

/-- A region record (08 R199). -/
structure RegionRec where
  rid   : Nat
  nrm1  : Nat
  ova   : Bool
  resv  : Nat
  bar   : Nat
  lead  : Nat
  codes : List Nat
  deriving DecidableEq, Repr

def imgRegion (img : List Byte) (o : Nat) : RegionRec :=
  let w := imgLe img o 8
  let v := imgLe img (o + 8) 8
  { rid := nbits w 63 48, nrm1 := nbits w 47 46, ova := decide (nbits w 45 45 = 1),
    resv := nbits w 44 32 + nbits v 47 0 + imgLe img (o + 16) 16, bar := nbits w 31 16, lead := nbits w 15 0,
    codes := [nbits v 63 60, nbits v 59 56, nbits v 55 52, nbits v 51 48] }

def imgRegions (img : List Byte) : List RegionRec := (imgRecords img sRegion 32).map (imgRegion img)

/-- Byte limit of quota q of logical sheaf k; 0 without a STASH section (08 R206, 16 R383). -/
def imgStash (img : List Byte) (k q : Nat) : Nat :=
  match imgFind img sStash with
  | none => 0
  | some x => imgLe img (x.off + 32 * k + 8 * q) 8

/-! ### Link work -/

/-- A link work record (11 R277). -/
structure LinkRec where
  op    : Nat
  mode  : Nat
  etype : Nat
  cvc   : Nat
  group : Nat
  dln   : Nat
  wcond : Nat
  resv  : Nat
  tgt   : Nat
  dval  : Nat
  count : Nat
  src   : Nat
  dst   : Nat
  wref  : Nat
  wval  : Nat
  dref  : Nat
  resv7 : Nat
  deriving DecidableEq, Repr

def imgLinkRec (img : List Byte) (o : Nat) : LinkRec :=
  let w := imgLe img o 8
  let v := imgLe img (o + 8) 8
  { op := nbits w 63 60, mode := nbits w 59 59, etype := nbits w 58 55, cvc := nbits w 54 49, group := nbits w 48 41,
    dln := nbits w 40 33, wcond := nbits w 32 31, resv := nbits w 30 16, tgt := nbits w 15 0, dval := nbits v 63 32,
    count := nbits v 31 0, src := imgLe img (o + 16) 8, dst := imgLe img (o + 24) 8, wref := imgLe img (o + 32) 8,
    wval := imgLe img (o + 40) 8, dref := imgLe img (o + 48) 8, resv7 := imgLe img (o + 56) 8 }

def imgLinks (img : List Byte) : List LinkRec := (imgRecords img sLinkw 64).map (imgLinkRec img)

/-- A group as held: its rank count, reserved bytes, members, and the offset of the next (16 R381, 11 R279). -/
structure Group where
  n    : Nat
  resv : Nat
  ids  : List Nat
  next : Nat
  deriving DecidableEq, Repr

def imgGroupAt (img : List Byte) (o : Nat) : Group :=
  let n := imgLe img o 2
  { n := n, resv := imgLe img (o + 2) 6, ids := (List.range (min n 8192)).map fun i => imgLe img (o + 8 + 2 * i) 2,
    next := o + 8 + (2 * n + 7) / 8 * 8 }

/-- k groups from an offset on. -/
def imgGroupsFrom (img : List Byte) : Nat → Nat → List Group
  | 0, _ => []
  | k + 1, o => let g := imgGroupAt img o; g :: imgGroupsFrom img k g.next

def imgGroups (img : List Byte) : List Group :=
  match imgFind img sGroup with
  | none => []
  | some x => imgGroupsFrom img x.count x.off

/-- Bytes of an element of a link record's type (11 R278, 08 R191). -/
def linkElem (ety : Nat) : Nat :=
  match ety with
  | 0 => 8
  | 1 => 4
  | 2 => 2
  | 3 => 2
  | 4 => 1
  | 5 => 1
  | 6 => 1
  | 7 => 4
  | 8 => 4
  | 9 => 8
  | 0xC => 128
  | _ => 1

/-- Ranks of a record's group. -/
def groupRanks (img : List Byte) (g : Nat) : Nat := ((imgGroups img)[g]?.map (·.n)).getD 0

/-- The DST region of a record in this module's silo; none for a PUT (11 R277, R279). -/
def linkDst (img : List Byte) (r : LinkRec) : Option (Nat × Nat) :=
  let b := linkElem r.etype * r.count
  if r.op = 1 then none else some (r.dst, if r.op = 3 then b * groupRanks img r.group else b)

/-- A deadline entry (12 R292). -/
structure Deadline where
  policy : Nat
  maxx   : Nat
  resv   : Nat
  close  : Nat
  dbuf   : Nat
  deriving DecidableEq, Repr

def imgDeadline (img : List Byte) (o : Nat) : Deadline :=
  let w := imgLe img o 8
  { policy := nbits w 63 62, maxx := nbits w 61 54, resv := nbits w 53 48, close := nbits w 47 0, dbuf := imgLe img (o + 8) 8 }

def imgDeadlines (img : List Byte) : List Deadline := (imgRecords img sDeadline 16).map (imgDeadline img)

/-- A digest-list entry (13 R313). -/
structure DigestRec where
  kind : Nat
  len  : Nat
  resv : Nat
  addr : Nat
  deriving DecidableEq, Repr

def imgDigest (img : List Byte) (o : Nat) : DigestRec :=
  let w := imgLe img o 8
  { kind := nbits w 63 62, len := nbits w 39 0, resv := nbits w 61 40, addr := imgLe img (o + 8) 8 }

def imgDigests (img : List Byte) : List DigestRec := (imgRecords img sDigest 16).map (imgDigest img)

/-! ### Logical maps (01 R26) -/

/-- Logical tile of a physical tile in a program. -/
def Program.logical (x : Program) (t : TileId) : Option Nat := x.tiles.findIdx? fun u => decide (u = t)

/-- Logical sheaf of a logical tile. -/
def Program.lsheafOf (x : Program) (l : Nat) : Nat := l / x.t

/-- The tile is an enabled tile of the partition that the program does not map: an idle tile (01 R26, R29). -/
def State.idleFor (s : State) (p : Pid) (x : Program) (t : TileId) : Bool :=
  (s.tile t).enabled && (s.part p).entry.hasSheaf (sheafOf t) && !x.tiles.contains t

/-- The program whose launch runs in a partition. -/
def State.running (s : State) (p : Pid) : Option (Launch × Program) :=
  match (s.part p).launch with
  | none => none
  | some l => (s.prog p l.slot).map fun x => (l, x)

/-- The same, unless the partition moults: from the moult's start on no result of the launch leaves the module (14 R329, R334). -/
def State.live (s : State) (p : Pid) : Option (Launch × Program) := if s.moults p then none else s.running p

/-- Bytes of the contribution a rank makes to a reduction (12 R293). -/
def contribution (img : List Byte) (r : LinkRec) : Nat :=
  linkElem r.etype * r.count * (if r.op = 2 then groupRanks img r.group else 1)

end Sys2Proof.Machine
end

