-- ==== Sys2Proof/Machine/Clocks.lean ====
section
/-!
DEFINITION. Sys2Proof/Machine/Clocks.lean: the operating points of the sheaves: the point that R395 and the safety loops give each,
and how a change takes effect (17 R392, R393, R395, R397, R409).
-/
namespace Sys2Proof.Machine

/-- The lower of two points. -/
def lowerK (a b : BitVec 5) : BitVec 5 := if a.toNat ≤ b.toNat then a else b

/-- A launch of the partition runs (17 R394). -/
def State.partRuns (s : State) (p : Pid) : Bool :=
  match (s.part p).launch with
  | none => false
  | some l => decide (l.phase = .released)

/-- The sheaf belongs to a running partition. -/
def State.sheafRuns (s : State) (e : EngId) : Bool :=
  match s.partOfSheaf e with
  | none => false
  | some p => s.partRuns p

/-- The point R395 gives a sheaf; KMAX without a running launch. -/
def State.capK (s : State) (e : EngId) : BitVec 5 :=
  match s.partOfSheaf e with
  | none => s.power.kmax
  | some p => if s.partRuns p then s.power.pk[p] else s.power.kmax

/-- The point the sheaf is to run at: that of R395, held down by the safety loops. -/
def State.wantK (s : State) (e : EngId) : BitVec 5 := lowerK (s.capK e) s.power.lim[e]

/-- A change of k is withheld from an imminent-release hint to its release (17 R409; the 120 ac after it: log 99). -/
def State.kWithheld (s : State) (e : EngId) : Bool :=
  match s.partOfSheaf e with
  | none => false
  | some p =>
    (match (s.part p).launch with | none => false | some l => decide (l.phase = .hinted)) ||
      s.sync.pends.any fun x => decide (x.pid = p) && x.hinted

/-- Point and pending point of a sheaf that is to run at `want`: a fall takes effect at once, a rise when the rail has settled
(17 R393). -/
def changeK (k want : BitVec 5) (withheld : Bool) : BitVec 5 × Option (BitVec 5) :=
  if want = k then (k, none)
  else if withheld then (k, some want)
  else if want.toNat < k.toNat then (want, none)
  else (k, some want)

/-- KLOW: the lowest point of a running sheaf; without one it stays. -/
def State.lowestK (s : State) (k : Vector (BitVec 5) 16) : BitVec 5 :=
  match allEngines.filter s.sheafRuns with
  | [] => s.power.klow
  | e :: es => es.foldl (fun m x => lowerK m k[x]) k[e]

/-- Every sheaf moves towards its point. -/
def State.settleK (s : State) : State :=
  let n : Vector (BitVec 5 × Option (BitVec 5)) 16 := Vector.ofFn fun e => changeK s.power.k[e] (s.wantK e) (s.kWithheld e)
  let k := n.map (·.1)
  { s with power := { s.power with k := k, target := n.map (·.2), klow := s.lowestK k } }

end Sys2Proof.Machine
end

