-- ==== Sys2Proof/Machine/Flags.lean ====
section
/-!
DEFINITION. Sys2Proof/Machine/Flags.lean: the intervention flags of a launch (13 R312).
-/
namespace Sys2Proof.Machine

inductive FlagKind where
  | pwr | thm | tmg | mnt | cont
  deriving DecidableEq, Repr

/-- The earlier of a flag's stamp and a new one. -/
def earliest (f : Option Nat) (now : Nat) : Option Nat :=
  match f with
  | none => some now
  | some t => some (min t now)

def Flags.mark (f : Flags) (k : FlagKind) (now : Nat) : Flags :=
  match k with
  | .pwr => { f with pwr := earliest f.pwr now }
  | .thm => { f with thm := earliest f.thm now }
  | .tmg => { f with tmg := earliest f.tmg now }
  | .mnt => { f with mnt := earliest f.mnt now }
  | .cont => { f with cont := earliest f.cont now }

/-- A flag of the released launch of a partition. -/
def State.markPart (s : State) (p : Pid) (k : FlagKind) : State :=
  s.modPart p fun x =>
    match x.launch with
    | none => x
    | some l => if l.phase = .released then { x with launch := some { l with flags := l.flags.mark k s.now } } else x

/-- A flag of every released launch that a test admits. -/
def State.markWhere (s : State) (k : FlagKind) (which : Pid → Bool) : State :=
  allParts.foldl (fun s p => if which p then s.markPart p k else s) s

def State.markAll (s : State) (k : FlagKind) : State := s.markWhere k fun _ => true

/-- Another partition's activity (CONT). -/
def State.markOthers (s : State) (p : Pid) : State := s.markWhere .cont fun q => !decide (q = p)

/-- The stamp lies before T_END (13 R312, 10 R240). -/
def flagSet (f : Option Nat) (tEnd : Nat) : Nat :=
  match f with
  | none => 0
  | some t => b2n (decide (t < tEnd))

/-- FLAGS bits 3 to 7. -/
def Flags.bits (f : Flags) (tEnd : Nat) : Nat :=
  8 * flagSet f.pwr tEnd + 16 * flagSet f.thm tEnd + 32 * flagSet f.tmg tEnd + 64 * flagSet f.mnt tEnd + 128 * flagSet f.cont tEnd

/-- A result write of the partition's launch: T_END follows it (13 R311). -/
def State.touchEnd (s : State) (p : Pid) : State :=
  s.modPart p fun x =>
    match x.launch with
    | none => x
    | some l => { x with launch := some { l with tEnd := max l.tEnd s.now } }

end Sys2Proof.Machine
end

