-- ==== Sys2Proof/Machine/MemErr.lean ====
section
/-!
DEFINITION. Sys2Proof/Machine/MemErr.lean: counting of memory errors against the budgets of a window, row repair and retirement of
pseudo-channels (09 R226 to R232, R235).
-/
namespace Sys2Proof.Machine

/-- Length of an error window: 24 h in gt (09 R228). -/
def errWindow : Nat := 86400000000000

/-- The counts belong to the window of a stamp; a later window starts with none. -/
def MemSt.roll (m : MemSt) (now : Nat) : MemSt :=
  if m.window = now / errWindow then m else { m with window := now / errWindow, rowCnt := [], pcCnt := [], pcUeCnt := [] }

/-- The count of a key. -/
def countOf {α : Type} [DecidableEq α] (l : List (α × Nat)) (k : α) : Nat :=
  ((l.find? fun (x : α × Nat) => decide (x.1 = k)).map (·.2)).getD 0

/-- The list with the key's count one higher. -/
def countUp {α : Type} [DecidableEq α] (l : List (α × Nat)) (k : α) : List (α × Nat) :=
  (k, countOf l k + 1) :: l.filter fun (x : α × Nat) => !decide (x.1 = k)

/-- The lowest free slot (09 R230). -/
def MemSt.freeSlot (m : MemSt) : Option (Fin 8) := (List.finRange 8).find? fun k => (m.slots[k]).isNone

/-- A number into an ascending list. -/
def insertNat (x : Nat) : List Nat → List Nat
  | [] => [x]
  | y :: r => if x < y then x :: y :: r else if x = y then y :: r else y :: insertNat x r

/-- Retirement of a pseudo-channel starts: bit, slot, event, migration (09 R230, R231). -/
def State.retirePc (s : State) (p : Nat) : State :=
  match s.memctl.freeSlot with
  | none => s
  | some k =>
    let s := { s with memctl := { s.memctl with
      pcRet := setBit s.memctl.pcRet p true
      slots := s.memctl.slots.set k (some (Fin.ofNat 512 p))
      running := some { pc := p, slot := k } } }
    (s.markAll .mnt).raisePf0 0x0203 none (p + k.val * 2 ^ 16) 0

/-- Eight pseudo-channels are retired or about to be. -/
def MemSt.headroomGone (m : MemSt) : Bool :=
  decide (8 ≤ (m.slots.toList.filter (·.isSome)).length + m.queued.length)

/-- A pseudo-channel reached a budget (09 R230, R232, R235): retired, queued behind the migration that runs, or left in service with
one MEM_HEADROOM_EXHAUSTED. -/
def State.pcBudget (s : State) (p : Nat) : State :=
  if s.memctl.retired p || s.memctl.queued.contains p then s
  else if s.memctl.headroomGone then
    if s.memctl.exhausted.contains p then s
    else { s with memctl := { s.memctl with exhausted := p :: s.memctl.exhausted } }.raisePf0 0x0204 none p 0
  else if s.memctl.running.isSome then { s with memctl := { s.memctl with queued := insertNat p s.memctl.queued } }
  else s.retirePc p

/-- One more uncorrectable error of a pseudo-channel in the window. -/
def State.pcUe (s : State) (p : Nat) : State :=
  let m := s.memctl.roll s.now
  let s := { s with memctl := { m with pcUeCnt := countUp m.pcUeCnt p } }
  if s.memctl.pcue.toNat ≤ countOf s.memctl.pcUeCnt p then s.pcBudget p else s

/-- A read whose retry failed counts in MEM_UE_CNT and against the pseudo-channel that holds the line (09 R227, R230). -/
def State.countUe (s : State) (dev : Nat) : State :=
  { s with memctl := { s.memctl with ue := satAdd s.memctl.ue 1 } }.pcUe (s.memctl.physical dev).1

/-- A corrected or retried read counts in MEM_CE_CNT (09 R226, R227). -/
def State.countCe (s : State) : State := { s with memctl := { s.memctl with ce := satAdd s.memctl.ce 1 } }

/-- Row repair: the row takes one of the two spare rows of its bank; without one the refusal counts as an uncorrectable error
(09 R228, R229). -/
def State.repairRow (s : State) (k : Nat × Nat × Nat) : State :=
  let used := (s.memctl.repaired.filter fun (x : Nat × Nat × Nat) => decide (x.1 = k.1) && decide (x.2.1 = k.2.1)).length
  if 2 ≤ used then s.pcUe k.1
  else
    let s := { s with memctl := { s.memctl with
      repaired := k :: s.memctl.repaired
      rowRep := satAdd s.memctl.rowRep 1
      rowCnt := s.memctl.rowCnt.filter fun (x : (Nat × Nat × Nat) × Nat) => !decide (x.1 = k) } }
    (s.markAll .mnt).raisePf0 0x0202 none (k.1 + k.2.1 * 2 ^ 9 + k.2.2 * 2 ^ 16) 0

/-- A persistent corrected error counts against the row and the pseudo-channel that hold the line (09 R226, R228, R230). -/
def State.countPersistent (s : State) (dev : Nat) : State :=
  let x := s.memctl.physical dev
  let k := (x.1, bankOf x.2, rowOf x.2)
  let m := s.memctl.roll s.now
  let s := { s with memctl := { m with rowCnt := countUp m.rowCnt k, pcCnt := countUp m.pcCnt x.1 } }
  let s := if s.memctl.rowpce.toNat ≤ countOf s.memctl.rowCnt k then s.repairRow k else s
  if s.memctl.pcpce.toNat ≤ countOf s.memctl.pcCnt x.1 then s.pcBudget x.1 else s

end Sys2Proof.Machine
end

