-- ==== Sys2Proof/Machine/Operands.lean ====
section
/-!
DEFINITION. Sys2Proof/Machine/Operands.lean: numbers and their formats: exact values, decoding and encoding of the storage formats,
rounding, narrowing beyond range, the extended accumulator format, scales, the dither generator (02 R30 to R55; 08 R187, R193, R195).
-/
namespace Sys2Proof.Machine

/-! ### Exact values -/

/-- An exact value: NaN, an infinity, or (-1)^neg * (n / d) * 2^e with a signed zero; d is positive. -/
inductive Num where
  | nan
  | inf (neg : Bool)
  | fin (neg : Bool) (n d : Nat) (e : Int)
  deriving DecidableEq, Repr

def Num.zero : Num := .fin false 0 1 0
def Num.one : Num := .fin false 1 1 0

/-- The integer i in units of 2^e. -/
def Num.ofInt (i : Int) (e : Int) : Num := .fin (decide (i < 0)) i.natAbs 1 e

def Num.isNan (x : Num) : Bool := match x with | .nan => true | _ => false
def Num.isInf (x : Num) : Bool := match x with | .inf _ => true | _ => false
def Num.isZero (x : Num) : Bool := match x with | .fin _ n _ _ => decide (n = 0) | _ => false
def Num.isFin (x : Num) : Bool := match x with | .fin _ _ _ _ => true | _ => false
def Num.sign (x : Num) : Bool := match x with | .nan => false | .inf s => s | .fin s _ _ _ => s

/-- Numerators of two finite values over one denominator, and that denominator with its exponent. -/
def align (s1 : Bool) (n1 d1 : Nat) (e1 : Int) (s2 : Bool) (n2 d2 : Nat) (e2 : Int) : Int × Int × Nat × Int :=
  let e := min e1 e2
  let a : Int := ((n1 * d2 * 2 ^ (e1 - e).toNat : Nat) : Int)
  let b : Int := ((n2 * d1 * 2 ^ (e2 - e).toNat : Nat) : Int)
  (if s1 then -a else a, if s2 then -b else b, d1 * d2, e)

/-- x + y, exact. A zero sum is -0 when both terms are negative, as IEEE 754 gives for a scalar addition. -/
def Num.add : Num → Num → Num
  | .nan, _ => .nan
  | _, .nan => .nan
  | .inf a, .inf b => if a = b then .inf a else .nan
  | .inf a, _ => .inf a
  | _, .inf b => .inf b
  | .fin s1 n1 d1 e1, .fin s2 n2 d2 e2 =>
    let r := align s1 n1 d1 e1 s2 n2 d2 e2
    let t := r.1 + r.2.1
    if t = 0 then .fin (s1 && s2) 0 1 0 else .fin (decide (t < 0)) t.natAbs r.2.2.1 r.2.2.2

def Num.neg : Num → Num
  | .nan => .nan
  | .inf a => .inf (!a)
  | .fin s n d e => .fin (!s) n d e

/-- x + y as a step of an accumulation: an exactly zero sum is +0 (02 R35). -/
def Num.acc (x y : Num) : Num :=
  match x.add y with
  | .fin _ 0 _ _ => Num.zero
  | z => z

/-- x * y, exact; infinity times zero is NaN (02 R34). -/
def Num.mul : Num → Num → Num
  | .nan, _ => .nan
  | _, .nan => .nan
  | .inf a, .inf b => .inf (a != b)
  | .inf a, .fin s n _ _ => if n = 0 then .nan else .inf (a != s)
  | .fin s n _ _, .inf b => if n = 0 then .nan else .inf (s != b)
  | .fin s1 n1 d1 e1, .fin s2 n2 d2 e2 => .fin (s1 != s2) (n1 * n2) (d1 * d2) (e1 + e2)

/-- x / y, exact (07 R157: a finite nonzero value over zero is an infinity). -/
def Num.div : Num → Num → Num
  | .nan, _ => .nan
  | _, .nan => .nan
  | .inf _, .inf _ => .nan
  | .inf a, .fin s _ _ _ => .inf (a != s)
  | .fin s _ _ _, .inf b => .fin (s != b) 0 1 0
  | .fin s1 n1 d1 e1, .fin s2 n2 d2 e2 =>
    if n2 = 0 then (if n1 = 0 then .nan else .inf (s1 != s2)) else .fin (s1 != s2) (n1 * d2) (d1 * n2) (e1 - e2)

/-- x * 2^k. -/
def Num.scale2 (x : Num) (k : Int) : Num :=
  match x with
  | .fin s n d e => .fin s n d (e + k)
  | _ => x

/-- x < y for values that are not NaN; zeros are equal. -/
def Num.lt : Num → Num → Bool
  | .nan, _ => false
  | _, .nan => false
  | .inf a, .inf b => a && !b
  | .inf a, _ => a
  | _, .inf b => !b
  | .fin s1 n1 d1 e1, .fin s2 n2 d2 e2 => let r := align s1 n1 d1 e1 s2 n2 d2 e2; decide (r.1 < r.2.1)

/-- x = y as IEEE 754 compares. -/
def Num.eq (x y : Num) : Bool := !x.isNan && !y.isNan && !x.lt y && !y.lt x

/-- Minimum and maximum of IEEE 754-2019: a NaN gives NaN, -0 is below +0 (07 R157). -/
def Num.minimum (x y : Num) : Num :=
  if x.isNan || y.isNan then .nan else if x.lt y then x else if y.lt x then y else if x.sign then x else y

def Num.maximum (x y : Num) : Num :=
  if x.isNan || y.isNan then .nan else if x.lt y then y else if y.lt x then x else if x.sign then y else x

/-- |x|. -/
def Num.abs : Num → Num
  | .nan => .nan
  | .inf _ => .inf false
  | .fin _ n d e => .fin false n d e

/-! ### Rounding (02 R46 to R48) -/

/-- A rounding with the dither it uses. -/
inductive RMode where
  | rne | rtz | sr (dither : Nat)
  deriving DecidableEq, Repr

/-- a / b rounded to an integer. -/
def roundQuot (m : RMode) (a b : Nat) : Nat :=
  let q := a / b
  let r := a % b
  match m with
  | .rne => if b < 2 * r ∨ (b = 2 * r ∧ q % 2 = 1) then q + 1 else q
  | .rtz => q
  | .sr d => if 2 ^ 16 ≤ r * 2 ^ 16 / b + d then q + 1 else q

/-- (n / d) * 2^k rounded to an integer. -/
def roundUnits (m : RMode) (n d : Nat) (k : Int) : Nat := roundQuot m (n * 2 ^ k.toNat) (d * 2 ^ (-k).toNat)

/-- ⌊log2 (n / d)⌋ for n, d > 0. -/
def log2Quot (n d : Nat) : Int :=
  let k : Int := (Nat.log2 n : Int) - (Nat.log2 d : Int)
  if d * 2 ^ k.toNat ≤ n * 2 ^ (-k).toNat then k else k - 1

/-- ⌊log2 |x|⌋ of a finite nonzero value. -/
def Num.log2 (x : Num) : Int :=
  match x with
  | .fin _ n d e => log2Quot n d + e
  | _ => 0

/-! ### Floating-point formats (02 R31, R32, R38) -/

/-- Exponent and fraction widths, bias, and whether the format is E4M3, which has no infinity. -/
structure FFmt where
  ebits : Nat
  fbits : Nat
  bias  : Nat
  ocp   : Bool
  deriving DecidableEq, Repr

def fp64 : FFmt := { ebits := 11, fbits := 52, bias := 1023, ocp := false }
def fp32 : FFmt := { ebits := 8, fbits := 23, bias := 127, ocp := false }
def fp16 : FFmt := { ebits := 5, fbits := 10, bias := 15, ocp := false }
def bf16 : FFmt := { ebits := 8, fbits := 7, bias := 127, ocp := false }
def e4m3 : FFmt := { ebits := 4, fbits := 3, bias := 7, ocp := true }
def e5m2 : FFmt := { ebits := 5, fbits := 2, bias := 15, ocp := false }
def extended : FFmt := { ebits := 10, fbits := 39, bias := 511, ocp := false }

/-- Exponent of the smallest subnormal. -/
def FFmt.qmin (f : FFmt) : Int := 1 - (f.bias : Int) - (f.fbits : Int)

/-- The sign bit as a number. -/
def FFmt.signBit (f : FFmt) : Nat := 2 ^ (f.ebits + f.fbits)

/-- Code of infinity. -/
def FFmt.infCode (f : FFmt) : Nat := (2 ^ f.ebits - 1) * 2 ^ f.fbits

/-- Code of the largest finite value. -/
def FFmt.maxCode (f : FFmt) : Nat := if f.ocp then f.infCode + 2 ^ f.fbits - 2 else f.infCode - 1

/-- The canonical NaN. -/
def FFmt.nanCode (f : FFmt) : Nat := if f.ocp then f.infCode + 2 ^ f.fbits - 1 else f.infCode + 2 ^ (f.fbits - 1)

/-- The value a code stands for. -/
def FFmt.decode (f : FFmt) (c : Nat) : Num :=
  let s := decide (c / f.signBit % 2 = 1)
  let m := c % f.signBit
  if f.ocp ∧ m = f.nanCode then .nan
  else if !f.ocp ∧ m = f.infCode then .inf s
  else if !f.ocp ∧ f.infCode < m then .nan
  else
    let ef := m / 2 ^ f.fbits
    if ef = 0 then .fin s m 1 f.qmin else .fin s (2 ^ f.fbits + m % 2 ^ f.fbits) 1 (f.qmin + ((ef - 1 : Nat) : Int))

/-- The code of a magnitude rounded with an unbounded exponent: above the largest finite code when it is out of range. -/
def FFmt.roundCode (f : FFmt) (m : RMode) (n d : Nat) (e : Int) : Nat :=
  if n = 0 then 0 else
  let q := max (log2Quot n d + e - (f.fbits : Int)) f.qmin
  (q - f.qmin).toNat * 2 ^ f.fbits + roundUnits m n d (e - q)

/-! ### Conversion with range handling (02 R49 to R53) -/

/-- What a conversion counts. -/
inductive Cnt where
  | none | range | infSat | nanZero | intSat | intWrap
  deriving DecidableEq, Repr

/-- The CVC field (02 R46). -/
structure Cvc where
  ovf : Bool
  nrw : Bool
  rnd : Nat
  deriving DecidableEq, Repr

def cvcOf (x : Nat) : Cvc := { ovf := decide (x / 8 % 2 = 1), nrw := decide (x / 4 % 2 = 1), rnd := x % 4 }

/-- RND = 0b11 or a reserved bit. -/
def cvcBad (x : Nat) : Bool := decide (x / 16 ≠ 0) || decide (x % 4 = 3)

def Cvc.mode (c : Cvc) (dither : Nat) : RMode := if c.rnd = 0 then .rne else if c.rnd = 1 then .rtz else .sr dither

/-- Conversion to a floating-point format. -/
def FFmt.convert (f : FFmt) (m : RMode) (nrw : Bool) (x : Num) : Nat × Cnt :=
  match x with
  | .nan => (f.nanCode, .none)
  | .inf s => if f.ocp then (b2n s * f.signBit + f.maxCode, .infSat) else (b2n s * f.signBit + f.infCode, .none)
  | .fin s n d e =>
    let c := f.roundCode m n d e
    if c ≤ f.maxCode then (b2n s * f.signBit + c, .none)
    else if nrw && !f.ocp && !decide (m = .rtz) then (b2n s * f.signBit + f.infCode, .range)
    else (b2n s * f.signBit + f.maxCode, .range)

/-- The end of a w-bit two's complement range. -/
def rangeEnd (w : Nat) (neg : Bool) : Nat := if neg then 2 ^ (w - 1) else 2 ^ (w - 1) - 1

/-- Conversion to a w-bit integer, in units of the destination's resolution. -/
def convertInt (w : Nat) (m : RMode) (ovf allInt : Bool) (x : Num) : Nat × Cnt :=
  match x with
  | .nan => (0, .nanZero)
  | .inf s => (rangeEnd w s, .infSat)
  | .fin s n d e =>
    let q := roundUnits m n d e
    if (if s then q ≤ 2 ^ (w - 1) else q < 2 ^ (w - 1)) then (codeOf w (if s then -(q : Int) else q), .none)
    else if !allInt then (rangeEnd w s, .range)
    else if ovf then (codeOf w (if s then -(q : Int) else q), .intWrap)
    else (rangeEnd w s, .intSat)

/-! ### Storage formats by code (02 R30) -/

/-- Bytes of an element; BF16S is read as its high tensor (02 R41). -/
def fmtBytes (fmt : Nat) : Nat :=
  match fmt with
  | 0 => 8
  | 1 => 4
  | 2 => 2
  | 3 => 2
  | 7 => 4
  | 8 => 4
  | 9 => 8
  | 0xA => 2
  | _ => 1

/-- The floating-point format of a code. -/
def floatFmt (fmt : Nat) : Option FFmt :=
  match fmt with
  | 0 => some fp64
  | 1 => some fp32
  | 2 => some fp16
  | 3 => some bf16
  | 4 => some e4m3
  | 5 => some e5m2
  | 0xA => some bf16
  | _ => none

def isIntFmt (fmt : Nat) : Bool := fmt = 6 || fmt = 7 || fmt = 8 || fmt = 9
def isFxFmt (fmt : Nat) : Bool := fmt = 8 || fmt = 9

/-- Formats that carry a SCALE (02 R43). -/
def hasScale (fmt : Nat) : Bool := fmt = 4 || fmt = 5 || fmt = 6 || fmt = 8 || fmt = 9

/-- The value of an element before any SCALE, with binary-point exponent fxp for an FX format (02 R37). -/
def decodeFmt (fmt : Nat) (fxp : Int) (c : Nat) : Num :=
  match floatFmt fmt with
  | some f => f.decode c
  | none => Num.ofInt (signedOf (8 * fmtBytes fmt) c) (if isFxFmt fmt then -fxp else 0)

/-- Conversion of a value to a storage format: code and count; allInt: every operand is integer or FX (02 R52). -/
def convertFmt (fmt : Nat) (fxp : Int) (c : Cvc) (dither : Nat) (allInt : Bool) (x : Num) : Nat × Cnt :=
  match floatFmt fmt with
  | some f => f.convert (c.mode dither) c.nrw x
  | none => convertInt (8 * fmtBytes fmt) (c.mode dither) c.ovf allInt (x.scale2 (if isFxFmt fmt then fxp else 0))

/-- The code of a stored element is NaN or an infinity (08 R201). -/
def codeSpecial (fmt c : Nat) : Bool :=
  match floatFmt fmt with
  | some f => !(f.decode c).isFin
  | none => false

/-- A valid SCALE: positive, finite, normal FP32 (02 R44). -/
def scaleOk (c : Nat) : Bool := decide (c < 0x7F800000) && decide (0x00800000 ≤ c)

def scaleNum (c : Nat) : Num := fp32.decode c

/-! ### Results in a format -/

/-- x rounded to a floating-point format; beyond its range an infinity. -/
def FFmt.roundTo (f : FFmt) (m : RMode) (x : Num) : Num :=
  match x with
  | .fin s n d e => let c := f.roundCode m n d e; if c ≤ f.maxCode then f.decode (b2n s * f.signBit + c) else .inf s
  | _ => x

/-- ⟨x⟩ of 08 R187: x rounded once to FP32 under RNE. -/
def Num.r32 (x : Num) : Num := fp32.roundTo .rne x

/-- A step in the extended accumulator format (02 R38, 03 R74). -/
def Num.accE (x y : Num) : Num := extended.roundTo .rne (x.acc y)

/-- The code of a value the format holds exactly. -/
def FFmt.code (f : FFmt) (x : Num) : Nat := (f.convert .rne true x).1

/-! ### Square root -/

/-- ⌊√n⌋, bit by bit from bit k - 1 down. -/
def isqrtFrom (n : Nat) : Nat → Nat → Nat
  | 0, acc => acc
  | k + 1, acc => if (acc + 2 ^ k) * (acc + 2 ^ k) ≤ n then isqrtFrom n k (acc + 2 ^ k) else isqrtFrom n k acc

def isqrt (n : Nat) : Nat := isqrtFrom n (Nat.log2 n / 2 + 1) 0

/-- √x with at least 64 exact bits and the rest as one sticky bit below them, which rounds as √x does to any format of at most 62
significand bits; -0 stays, a negative value gives NaN. -/
def Num.sqrt (x : Num) : Num :=
  match x with
  | .nan => .nan
  | .inf s => if s then .nan else x
  | .fin s n d e =>
    if n = 0 then x else if s then .nan else
    let j := (if e % 2 = 0 then 0 else 1) + 2 * (64 + Nat.log2 d)
    let a := n * 2 ^ j
    let r := isqrt (a / d)
    .fin false (2 * r + if r * r * d = a then 0 else 1) 1 ((e - (j : Int)) / 2 - 1)

/-! ### The dither generator (08 R193) -/

def mix (z : Word) : Word :=
  let z := (z ^^^ (z >>> 30)) * 0xBF58476D1CE4E5B9
  let z := (z ^^^ (z >>> 27)) * 0x94D049BB133111EB
  z ^^^ (z >>> 31)

/-- The 16 dither bits of a key. -/
def ditherOf (seed step : Word) (tid pass : Nat) (eidx : Word) : Nat :=
  let x := mix (seed ^^^ 0x9E3779B97F4A7C15)
  let x := mix (x ^^^ step)
  let x := mix (x ^^^ BitVec.ofNat 64 (tid * 2 ^ 16 + pass))
  let x := mix (x ^^^ eidx)
  bits x 63 48

/-! ### Counters and the region flag (02 R55, 08 R201) -/

def Counters.count (c : Counters) (k : Cnt) : Counters :=
  match k with
  | .none => c
  | .range => { c with range := satAdd c.range 1 }
  | .infSat => { c with infSat := satAdd c.infSat 1 }
  | .nanZero => { c with nanZero := satAdd c.nanZero 1 }
  | .intSat => { c with intSat := satAdd c.intSat 1 }
  | .intWrap => { c with intWrap := satAdd c.intWrap 1 }

/-- The count sets a region flag. -/
def Cnt.flags (k : Cnt) : Bool :=
  match k with
  | .none => false
  | .intWrap => false
  | _ => true

/-- An open region's flag is set. -/
def Core.flagIf (c : Core) (b : Bool) : Core := { c with region := c.region.map fun g => { g with flag := g.flag || b } }

/-- The tile counts the conversions of written elements (format, code, count) and its region notes them. -/
def Tile.countAll (x : Tile) (fmt : Nat) (rs : List (Nat × Cnt)) : Tile :=
  { x with cnt := rs.foldl (fun c (r : Nat × Cnt) => c.count r.2) x.cnt
           core := x.core.flagIf (rs.any fun (r : Nat × Cnt) => r.2.flags || codeSpecial fmt r.1) }

/-- SCALE_BAD of one instruction (02 R44). -/
def Tile.countScaleBad (x : Tile) : Tile :=
  { x with cnt := { x.cnt with scaleBad := satAdd x.cnt.scaleBad 1 }, core := x.core.flagIf true }

end Sys2Proof.Machine
end

