-- ==== Sys2Proof/Machine/Objects.lean ====
section
/-!
DEFINITION. Sys2Proof/Machine/Objects.lean: sync objects, their fields, partition indexes, and which waiters an operation wakes (10 R242
to R246); the end of a link work entry as the launch ends (11 R276, R285).
-/
namespace Sys2Proof.Machine

/-! ### Objects (10 R244) -/

def State.obj (s : State) (o : Nat) : BitVec 128 := Tab.get 0 s.sync.objs o

def State.setObj (s : State) (o : Nat) (x : BitVec 128) : State :=
  { s with sync := { s.sync with objs := Tab.put 0 s.sync.objs o x } }

/-- An object is written anew: the children recorded for a barrier there are forgotten (10 R245, R252). -/
def State.initObj (s : State) (o : Nat) (x : BitVec 128) : State :=
  let s := s.setObj o x
  { s with sync := { s.sync with children := s.sync.children.filter fun c => !decide (c.1 = o) } }

/-- KIND: 0 semaphore, 1 barrier, 2 event flags, 3 sequence latch. -/
def objKind (x : BitVec 128) : Nat := bits x 127 126
def objCount (x : BitVec 128) : Nat := bits x 31 0
def objWord (x : BitVec 128) : Word := wordOf x 0
def objExpect (x : BitVec 128) : Nat := bits x 62 42
def objArrived (x : BitVec 128) : Nat := bits x 41 21
def objFlag (x : BitVec 128) : Bool := bit x 125
def objLnch (x : BitVec 128) : Bool := bit x 124
def objRoot (x : BitVec 128) : Bool := bit x 123
def objUp (x : BitVec 128) : BitVec 16 := BitVec.ofNat 16 (bits x 111 96)
def objGen (x : BitVec 128) : BitVec 16 := BitVec.ofNat 16 (bits x 95 80)

/-- Word 0 replaced. -/
def objSet0 (x : BitVec 128) (w : Word) : BitVec 128 := (BitVec.setWidth 128 (wordOf x 1) <<< 64) ||| BitVec.setWidth 128 w

/-- One more arrival with flag f. -/
def objArrive (x : BitVec 128) (f : Bool) : BitVec 128 := setBit (x + BitVec.ofNat 128 (2 ^ 21)) 125 (objFlag x || f)

/-- A barrier after its release: GEN one higher modulo 2^16, ARRIVED and FLAG 0 (10 R253). -/
def objRelease (x : BitVec 128) : BitVec 128 :=
  BitVec.ofNat 128 (bits x 124 96 * 2 ^ 96 + (2 ^ 126) + ((objGen x).toNat + 1) % 2 ^ 16 * 2 ^ 80 + objExpect x * 2 ^ 42)

/-- A 16-byte object may be written (10 R245): no waiter and no arrival on its way, fields as the rule demands. -/
def objFieldOk (x : BitVec 128) : Bool :=
  decide (bits x 122 112 = 0) && decide (bits x 79 64 = 0) &&
    (if objKind x = 1 then
      decide (bits x 63 63 = 0) && decide (bits x 20 0 = 0) && decide (objExpect x ≠ 0) && decide (objArrived x = 0) &&
        !objFlag x && decide (objGen x = 0) && !(objRoot x && decide (objUp x ≠ 0))
    else decide (bits x 125 80 = 0) && (decide (objKind x ≠ 0) || decide (bits x 63 32 = 0)))

/-- Object of a partition index (10 R242); none outside the blocks. -/
def Part.objOf (x : Part) (i : Nat) : Option Nat := (x.entry.blk[i / 1024]?).map fun b => 1024 * b + i % 1024

/-- Partition index of an object. -/
def Part.indexOf (x : Part) (o : Nat) : BitVec 16 :=
  match x.entry.blk.findIdx? fun b => decide (b = o / 1024) with
  | none => 0
  | some k => BitVec.ofNat 16 (1024 * k + o % 1024)

/-! ### Waiters that an operation wakes (10 R246) -/

/-- Takes served from a count, strictly in order: the count left, the waiters served and those that stay. -/
def serveTakes : List SyncWait → Nat → Nat → Nat × List SyncWait × List SyncWait
  | [], _, n => (n, [], [])
  | w :: ws, o, n =>
    match w.op with
    | .take k =>
      if w.obj = o then
        if k.toNat ≤ n then
          let r := serveTakes ws o (n - k.toNat)
          (r.1, w :: r.2.1, r.2.2)
        else (n, [], w :: ws)
      else
        let r := serveTakes ws o n
        (r.1, r.2.1, w :: r.2.2)
    | _ =>
      let r := serveTakes ws o n
      (r.1, r.2.1, w :: r.2.2)

/-- The condition of a waiter that consumes nothing holds on an object's word 0. -/
def condHolds (op : SyncOp) (w : Word) : Bool :=
  match op with
  | .wany m => decide (w &&& m ≠ 0)
  | .wall m => decide (w &&& m = m)
  | .wge v => decide (v.toNat ≤ w.toNat)
  | _ => false

/-! ### Link entries (11 R276 to R279; 12 R292, R298) -/

/-- Record of an entry. -/
def linkRec (g : Program) (idx : Nat) : Option LinkRec := (imgLinks g.image)[idx]?

/-- Members of a record's group, in rank order. -/
def linkGroup (g : Program) (r : LinkRec) : List Nat := ((imgGroups g.image)[r.group]?.map (·.ids)).getD []

/-- This module's rank (11 R279). -/
def State.ownRank (s : State) (g : Program) (r : LinkRec) : Nat :=
  ((linkGroup g r).findIdx? fun m => decide (m = s.links.modId.toNat)).getD 0

/-- Deadline entry of a record (12 R292). -/
def linkDeadline (g : Program) (r : LinkRec) : Option Deadline := if r.dln = 0 then none else (imgDeadlines g.image)[r.dln - 1]?

/-- The entry involves a module: the target of a PUT, a member of the group. -/
def involves (g : Program) (r : LinkRec) (m : ModId) : Bool :=
  if r.op = 1 then decide (r.tgt = m.toNat) else (linkGroup g r).contains m.toNat

/-- The verdict of an entry, once received. -/
def Launch.verdictOf (l : Launch) (idx : Nat) : Option Verdict := l.verdicts.find? fun v => decide (v.entry = idx)

/-- Everything the entry expects has landed: one contribution of full length from each included rank, two from a carrying one, the
root's for a broadcast. -/
def State.landed (s : State) (g : Program) (r : LinkRec) (v : Option Verdict) (inputs : List (Nat × List Byte)) : Bool :=
  let own := s.ownRank g r
  let n := (linkGroup g r).length
  let len := contribution g.image r
  let need (k : Nat) : Nat :=
    if r.op = 5 then b2n (decide (k = r.tgt)) else
    match v with
    | none => 1
    | some v => if v.excluded.contains k then 0 else if v.carrying.contains k then 2 else 1
  (List.range n).all fun k => decide (k = own) ||
    decide ((inputs.filter fun (i : Nat × List Byte) => decide (i.1 = k) && decide (i.2.length = len)).length = need k)

/-- Deadline status bits (12 R298). -/
def statusFlags (own : Nat) (e : LinkEntry) (v : Option Verdict) : Nat :=
  match v with
  | none => 0
  | some v =>
    b2n (v.excluded.contains own) * 2 ^ 17 + b2n (!v.excluded.isEmpty) * 2 ^ 18 +
      b2n (e.carry && !v.excluded.contains own) * 2 ^ 19 + b2n (v.waited.contains own) * 2 ^ 20

/-! ### Link entries that end with their launch (11 R276, R285) -/

/-- The operation that signals an entry's DONE object: SIGNAL 1 on a semaphore, ADV DVAL on a sequence latch (11 R277). -/
def doneWord (x : BitVec 128) (dval : Nat) : BitVec 128 :=
  if objKind x = 0 then (if objCount x = 0xFFFFFFFF then x else objSet0 x (BitVec.ofNat 64 (objCount x + 1)))
  else if objKind x = 3 then objSet0 x (if (objWord x).toNat < dval then BitVec.ofNat 64 dval else objWord x)
  else x

/-- Host commands that wait at an object are served; no tile and no entry waits any more. -/
def State.wakeHosts (s : State) (o : Nat) : State :=
  let x := s.obj o
  let r := if objKind x = 0 then serveTakes s.sync.waits o (objCount x)
    else (0, s.sync.waits.filter (fun w => decide (w.obj = o) && condHolds w.op (objWord x)),
      s.sync.waits.filter fun w => !(decide (w.obj = o) && condHolds w.op (objWord x)))
  let s := if objKind x = 0 then s.setObj o (objSet0 x (BitVec.ofNat 64 r.1)) else s
  let s := { s with sync := { s.sync with waits := r.2.2 } }
  r.2.1.foldl (fun s w =>
    match w.who with
    | .host n cid => (match s.findCmd n cid with | none => s | some c => s.complete n c cOk 0 0)
    | _ => s) s

/-- A link entry's status word (11 R276, 12 R298): bits of Table Deadline status bits in `flags`. -/
def State.entryStatus (s : State) (p : Pid) (img : List Byte) (idx : Nat) (code : BitVec 16) (flags : Nat) : State :=
  match imgFind img sLinkw with
  | none => s
  | some x => s.siloRecord p (x.addr + 8 * idx) (leBytes 8 (code.toNat + 2 ^ 16 + flags))

/-- Deadline status bits without CARRY, of an entry that failed (12 R298). -/
def failFlags (own : Nat) (v : Option Verdict) : Nat :=
  match v with
  | none => 0
  | some v => b2n (v.excluded.contains own) * 2 ^ 17 + b2n (!v.excluded.isEmpty) * 2 ^ 18 + b2n (v.waited.contains own) * 2 ^ 20

/-- Contributions that have arrived whole for an entry: rank and bytes, a carry after the rank's own data. -/
def Launch.arrived (l : Launch) (idx : Nat) : List (Nat × List Byte) :=
  let xs := l.inbox.filter fun a => decide (a.entry = idx) && a.whole
  (xs.filter (fun a => !a.carry) ++ xs.filter fun a => a.carry).map fun a => (a.rank, a.data)

/-- Something of an entry may have been written to DST: not before its verdict, and in an exact reduction not before the exponent
phase is over, which takes every contribution (11 R280, R286; 12 R295). -/
def State.mayHaveWritten (s : State) (l : Launch) (g : Program) (e : LinkEntry) (r : LinkRec) : Bool :=
  let exact := (decide (r.op = 2) || decide (r.op = 4)) && decide (r.mode = 0) && !isIntFmt r.etype && decide (r.etype ≠ 0xC)
  !decide (e.phase = .awaitVerdict) && !(exact && !s.landed g r (l.verdictOf e.idx) (l.arrived e.idx))

/-- The DST contents of an entry that failed are unspecified (11 R284, log 2). -/
def State.spoilDst (s : State) (p : Pid) (img : List Byte) (r : LinkRec) : State :=
  match linkDst img r with
  | none => s
  | some d =>
    if !(s.part p).inSilo d.1 d.2 || !(s.siloWaiting p d.1 d.2).isEmpty || s.siloFenced p d.1 d.2 then s
    else (s.siloWrite p d.1 (s.freeBytes d.2)).skipFree d.2

/-- What an entry that fails may have left in DST. -/
def State.spoilEntry (s : State) (p : Pid) (l : Launch) (g : Program) (e : LinkEntry) (r : LinkRec) : State :=
  if s.mayHaveWritten l g e r then s.spoilDst p g.image r else s

/-- DONE of an entry that ends with its launch: hosts that wait there are served. -/
def State.endDone (s : State) (p : Pid) (r : LinkRec) : State :=
  match (s.part p).objOf (r.dref % 2 ^ 16) with
  | none => s
  | some o => (s.setObj o (doneWord (s.obj o) r.dval)).wakeHosts o

/-- The active entries of a launch that ends fail with a code: status words, then DONE. -/
def State.endEntries (s : State) (p : Pid) (code : BitVec 16) : State :=
  match s.running p with
  | none => s
  | some (l, g) =>
    l.active.foldl (fun s e =>
      match linkRec g e.idx with
      | none => s.entryStatus p g.image e.idx code 0
      | some r =>
        ((s.entryStatus p g.image e.idx code (failFlags (s.ownRank g r) (if r.dln = 0 then none else l.verdictOf e.idx))).spoilEntry
          p l g e r).endDone p r) s

end Sys2Proof.Machine
end

