-- ==== Sys2Proof/Machine/Work.lean ====
section
/-!
DEFINITION. Sys2Proof/Machine/Work.lean: ending work: a launch and its result record, solve commands, waits, link entries, the
commands of a partition; tile faults; the peer set (05 R133; 06 R150; 10 R258; 11 R284, R285; 13 R316, R319; 16 R379; 18 R413,
R414).
-/
namespace Sys2Proof.Machine

/-! ### Identity values (20 R446) -/

/-- NUMERICS_ID. -/
def State.numericsId (s : State) : Word := 0x0D1B000100000000 ||| BitVec.setWidth 64 s.mgmt.image.ucode

/-- The private attestation key: of the image whose key is in place. -/
def State.attestKey (s : State) : Nat := akPrivate (s.sec.ak.getD s.mgmt.image)

/-! ### Result records (13 R316) -/

/-- The hash fields of a record. -/
structure Hashes where
  phash  : List Byte
  whash  : List Byte
  ihash  : List Byte
  lhash  : List Byte
  digest : List Byte
  ohash  : List Byte
  chain  : List Byte
  deriving DecidableEq, Repr

/-- 48 zero bytes. -/
def zeros48 : List Byte := List.replicate 48 0

def Hashes.zero : Hashes :=
  { phash := zeros48, whash := zeros48, ihash := zeros48, lhash := zeros48, digest := zeros48, ohash := zeros48, chain := zeros48 }

/-- Bytes [399:0] of a result record. -/
def recordHead (s : State) (l : Launch) (code : BitVec 16) (flags : Nat) (h : Hashes) : List Byte :=
  leBytes 4 0x54524331 ++ leBytes 2 0x0100 ++ leBytes 2 code.toNat ++ leBytes 8 flags ++ leBytes 8 l.step.toNat ++
    leBytes 8 l.seed.toNat ++ leBytes 4 l.nmod ++ leBytes 2 s.links.modId.toNat ++ leBytes 2 0 ++
    leBytes 8 s.numericsId.toNat ++ leBytes 8 l.c ++ leBytes 8 l.tEnd ++ h.phash ++ h.whash ++ h.ihash ++ h.lhash ++ h.digest ++
    h.ohash ++ h.chain

/-- Command cid of function n ended: its completion is posted once the record at a silo range, if it has one, is written (13 R317, 06
R143). -/
def State.finishCmd (s : State) (n : Fn) (cid : Nat) (p : Pid) (rec : Option (Nat × Nat)) (code : BitVec 16) (status info : Nat) :
    State :=
  match s.findCmd n cid with
  | none => s
  | some c =>
    match rec with
    | some r =>
      if (s.siloWaiting p r.1 r.2).isEmpty then s.complete n c code status info
      else s.modFunc n fun f => { f with cmds := f.cmds.map fun x => if x.cid = cid then
        { x with done := some { pid := p, addr := r.1, len := r.2, code := code, status := status, info := info } } else x }
    | none => s.complete n c code status info

/-- Completions whose records are written by now; none of a moulting partition (14 R334). -/
def State.postWritten (s : State) : State :=
  allFns.foldl (fun s n => (s.func n).cmds.foldl (fun s c =>
    match c.done with
    | none => s
    | some e => if (s.siloWaiting e.pid e.addr e.len).isEmpty && !s.moults e.pid then s.complete n c e.code e.status e.info else s) s) s

/-- The record is written to the silo and kept for DIGEST_READ (16 R378). -/
def State.putRecord (s : State) (p : Pid) (l : Launch) (bs : List Byte) : State :=
  let s := s.siloRecord p l.raddr bs
  s.modPart p fun x => { x with results := x.results.set l.slot (some (BitVec.ofNat 4096 (leNat bs))) }

/-- FLAGS of a launch that ended without hashes. -/
def Launch.plainFlags (l : Launch) : Nat := 4 * b2n l.rplay + l.flags.bits l.tEnd

/-- CHAIN_prev after a launch that wrote no digest (13 R319). -/
def gapChain : List Byte := List.replicate 48 0xFF

def State.setChain (s : State) (p : Pid) (k : SlotId) (c : List Byte) : State :=
  s.modPart p fun x =>
    match x.slots[k] with
    | none => x
    | some g => { x with slots := x.slots.set k (some { g with chain := c }) }

/-! ### Cores of a partition -/

/-- The tile's program is over: the core stops issuing, its queues and its array hold nothing of it. -/
def Tile.stop (x : Tile) : Tile :=
  { x with core := { x.core with status := .stopped, resume := none, region := none, span := false }
           mops := [], dmas := [], upds := []
           array := { x.array with shadow := none, active := none, keep := false, hold := false, stagger := none } }

/-- The tile is on a sheaf of the partition. -/
def State.onPart (s : State) (p : Pid) (t : TileId) : Bool := (s.part p).entry.hasSheaf (sheafOf t)

def State.stopTiles (s : State) (p : Pid) : State := s.mapTiles (s.onPart p) Tile.stop

/-! ### Waits and operations on their way (10 R258) -/

/-- The waiter belongs to a partition. -/
def State.waiterOf (s : State) (p : Pid) : Waiter → Bool
  | .tile t => s.onPart p t
  | .host n _ => decide (s.partOfFn n = some p)
  | .link q _ => decide (q = p)

/-- Waits of tiles and link entries of a partition end, operations on their way are dropped; the objects stay, but for a
host TAKE that waited behind one that ends (10 R246). Host waits end with their commands. -/
def State.dropSync (s : State) (p : Pid) (hosts : Bool) : State :=
  let gone (w : Waiter) : Bool := s.waiterOf p w && (hosts || match w with | .host _ _ => false | _ => true)
  let taken := ((s.sync.waits.filter fun w => gone w.who && (match w.op with | .take _ => true | _ => false)).map (·.obj)).eraseDups
  let s := { s with sync := { s.sync with
      waits := s.sync.waits.filter fun w => !gone w.who
      sent := s.sync.sent.filter fun x => !decide (x.pid = p)
      pends := s.sync.pends.filter fun x => !decide (x.pid = p)
      remotes := s.sync.remotes.filter fun x => !(decide (x.pid = p) &&
        (match x.who with | some (.host _ _) => hosts | _ => true)) } }
  if hosts then s else taken.foldl (fun s o => s.wakeHosts o) s

/-- Waits of tiles and link entries of a partition end with its launch; operations on their way have their effect with no one to answer
(08 R202). -/
def State.forgetWaits (s : State) (p : Pid) : State :=
  let host (w : Waiter) : Bool := match w with | .host _ _ => true | _ => false
  let gone (w : Waiter) : Bool := s.waiterOf p w && !host w
  let taken := ((s.sync.waits.filter fun w => gone w.who && (match w.op with | .take _ => true | _ => false)).map (·.obj)).eraseDups
  let s := { s with sync := { s.sync with
      waits := s.sync.waits.filter fun w => !gone w.who
      sent := s.sync.sent.map fun x => if x.pid = p then { x with reply := false } else x
      remotes := s.sync.remotes.map fun x => if x.pid = p ∧ !(x.who.any host) then { x with who := none } else x } }
  taken.foldl (fun s o => s.wakeHosts o) s

/-! ### Launches -/

/-- TOUCHED and NZ are cleared (08 R198). -/
def Watch.clear (w : Watch) : Watch := { w with touched := false, nz := false }

/-- T_REL and T_END of a launch that has none: the manual gives no value then (log 32). -/
def State.settleTimes (s : State) (l : Launch) : State × Launch :=
  let c := if l.c = 0 then (s.freeWord).toNat else l.c
  let e := if l.tEnd = 0 then (Config.freeWord (s.freeCtr + 1)).toNat else l.tEnd
  (s.skipFree 2, { l with c := c, tEnd := e })

/-- The arrays of a program's sheaves after its end: no hold for a release that is over (03 R84). -/
def State.endHold (s : State) (p : Pid) : State :=
  s.mapTiles (s.onPart p) fun x =>
    { x with array := { x.array with hold := false, ramp := false, stagger := none, hint := none, hintOver := false } }

/-- The launch of a partition is gone: watch bits cleared, arrays let go, clocks as without it. -/
def State.clearLaunch (s : State) (p : Pid) : State :=
  let s := s.modPart p fun x => { x with launch := none, watch := x.watch.map Watch.clear }
  (s.endHold p).settleK

/-- The launch of a partition ends with an error: the record without hashes, the watch table cleared, the deferral log as it
stands, the completion posted (08 R198; 12 R300; 13 R319 and its table; 16 R372). -/
def State.failLaunch (s : State) (p : Pid) (code : BitVec 16) : State :=
  match (s.part p).launch with
  | none => s
  | some l0 =>
    let sl := (s.endEntries p eAborted).settleTimes l0
    let l := sl.2
    let s := if l.rrec then sl.1.putRecord p l (recordHead sl.1 l code l.plainFlags Hashes.zero ++ List.replicate 112 0) else sl.1
    let s := (s.setChain p l.slot gapChain).clearLaunch p
    s.finishCmd l.fn l.cid p (if l.rrec then some (l.raddr, 512) else none) code 0 (l.plainFlags % 256)

/-- The launch fails with the partition unchanged: no record, no break of the chain (10 R255, 16 R372). -/
def State.refuseLaunch (s : State) (p : Pid) (code : BitVec 16) : State :=
  match (s.part p).launch with
  | none => s
  | some l =>
    let s := s.clearLaunch p
    match s.findCmd l.fn l.cid with
    | none => s
    | some c => s.complete l.fn c code 0 0

/-! ### Solve commands (05 R133; 06 R142, R150) -/

/-- A completion record of a failed command (06 R142). -/
def failRecord (code : BitVec 16) (tag t0 t1 : Nat) : List Byte :=
  leBytes 8 (code.toNat * 2 ^ 48 + 1) ++ leBytes 8 (tag * 2 ^ 32) ++ leBytes 24 0 ++ leBytes 8 t0 ++ leBytes 8 t1 ++ leBytes 8 0

/-- STAT_ADDR can take a record: a multiple of 64 within the silo (05 R122). -/
def Part.statOk (x : Part) (a : Nat) : Bool := decide (a % 64 = 0) && x.inSilo a 64

/-- A solve command's record is written and its host command completed. -/
def State.finishSolve (s : State) (p : Pid) (q : QSolve) (rec512 : List Byte) (code : BitVec 16) (status iter : Nat)
    (write : Bool) : State :=
  let stat := (wordOf q.record 6).toNat
  let put := write && (s.part p).statOk stat
  let s := if put then s.siloRecord p stat rec512 else s
  match q.issuer with
  | .tile _ => s
  | .host n cid => s.finishCmd n cid p (if put then some (stat, 64) else none) code status iter

/-- A command joins the channel's queue; at its head it starts the clock of its record (06 R142). -/
def Channel.enqueue (c : Channel) (q : QSolve) (now : Nat) : Channel :=
  { c with queue := c.queue ++ [q], tStart := if c.queue.isEmpty then some now else c.tStart }

/-- TAG of a solve command. -/
def QSolve.tag (q : QSolve) : Nat := bits (wordOf q.record 7) 63 32

/-- The outputs of the running command are taken back (06 R150): bytes it replaced, warm record; a factorisation that it
started may have been cut off, which leaves the factor invalid (05 R133): a free choice (log 24). -/
def State.undoSolve (s : State) (e : EngId) (c : ChanId) : State :=
  match (s.chan e c).run with
  | none => s
  | some r =>
    let cut := bit (wordOf r.record 0) 4 && Config.freeBool s.freeCtr
    let s := { s with mem := r.undo.foldl (fun m (x : Nat × Byte) => Memory.write m x.1 x.2) s.mem }
    let s := s.skipFree 1
    s.modChan e c fun x =>
      let x := match r.warm with
        | none => x
        | some w => { x with wvalid := w.1, wprint := w.2.1, waddr := w.2.2 }
      { x with run := none, factor := if cut then { x.factor with st := .broken } else x.factor }

/-- The channel's factor, its records and its region are again as a command found them (06 R150). -/
def State.restoreFactor (s : State) (e : EngId) (c : ChanId) (b : FactorBefore) : State :=
  let s := { s with mem := b.region.foldl (fun m (x : Nat × Byte) => Memory.write m x.1 x.2) s.mem }
  s.modChan e c fun x => { x with factor := b.factor, nreg := b.nreg, pivots := b.pivots, age := b.age }

/-- Every command of a channel ends with a code, the running one undone. -/
def State.endChannel (s : State) (e : EngId) (c : ChanId) (code : BitVec 16) (write : Bool) : State :=
  match (s.chan e c).alloc with
  | none => s
  | some a =>
    let qs := (s.chan e c).queue
    let t0 := (s.chan e c).tStart.getD s.now
    let s := s.undoSolve e c
    let s := s.modEngine e fun x => { x with running := if x.running = some c then none else x.running
                                             held := if x.running = some c then none else x.held }
    let s := s.modChan e c fun x => { x with queue := [], tStart := none }
    (qs.zipIdx).foldl (fun s x =>
      s.finishSolve a.pid x.1 (failRecord code x.1.tag (if x.2 = 0 then t0 else s.now) s.now) code 0 0 write) s

/-- Every channel that a test admits. -/
def State.endChannels (s : State) (which : ChanAlloc → Bool) (code : BitVec 16) (write : Bool) : State :=
  allEngines.foldl (fun s e => (List.finRange 32).foldl (fun s c =>
    match (s.chan e c).alloc with
    | none => s
    | some a => if which a then s.endChannel e c code write else s) s) s

/-! ### Peers (11 R284) -/

/-- Objects of a partition's blocks. -/
def Part.hasObj (x : Part) (o : Nat) : Bool := x.entry.blk.contains (o / 1024)

/-- Modules a module sends keep-alives to for a partition: tree neighbours of its group schedules, parents and children of
its barriers, modules it put data to in the last 1 ms; at most 512. -/
def State.peerSet (s : State) (p : Pid) : List ModId :=
  let x := s.part p
  let progs := (x.slots.toList).filterMap id
  let tree := progs.flatMap fun g => (imgGroups g.image).flatMap fun r => Config.treeNeighbours s.links.modId.toNat r.ids
  let objs := s.sync.objs.filter fun o => x.hasObj o.1 && decide (bits o.2 127 126 = 1)
  let parents := objs.filterMap fun o =>
    if bit o.2 123 ∨ bits o.2 111 96 = 0xFFFF then none else some (bits o.2 111 96)
  let kids := (s.sync.children.filter fun c => x.hasObj c.1).map fun c => c.2.1.toNat
  let puts := (x.peers.filter fun q => match q.lastPut with | none => false | some t => decide (s.now ≤ t + 1000000)).map fun q =>
    q.id.toNat
  let all := (tree ++ parents ++ kids ++ puts).filter fun m => !decide (m = s.links.modId.toNat)
  (all.eraseDups.take 512).map fun m => BitVec.ofNat 16 m

/-- An abort frame goes to the peer set (11 R285). -/
def State.sendAbort (s : State) (p : Pid) : State := (s.peerSet p).foldl (fun s m => s.send p m .abort) s

/-! ### Commands of a partition (16 R379 step 1) -/

/-- The partition a fetched command is for (16 R366, R367). -/
def State.cmdTarget (s : State) (n : Fn) (c : Cmd) : Option Pid :=
  let opc := bits (dw c.desc 0) 63 56
  let pid : Pid := ⟨bits (dw c.desc 1) 3 0, by
    unfold bits; exact Nat.mod_lt _ (by decide)⟩
  if opc = 0x41 ∨ opc = 0x42 ∨ opc = 0x60 then some pid
  else if opc = 0x40 then none
  else if n.val = 0 ∧ (opc = 0x32 ∨ opc = 0x50) then none
  else s.partOfFn n

/-- Every fetched command of the partition that has not completed ends with E_ABORTED, save the one that asked for it and, while records
may be written, those that have ended and wait for theirs. -/
def State.endCmds (s : State) (p : Pid) (save : Option (Fn × Nat)) (write : Bool) : State :=
  allFns.foldl (fun s n =>
    ((s.func n).cmds.filter fun c => decide (s.cmdTarget n c = some p) && !decide (save = some (n, c.cid)) && !(write && c.done.isSome) &&
        !decide (bits (dw c.desc 0) 63 56 = 0x41)).foldl
      (fun s c => s.complete n c eAborted 0 0) s) s

/-- Work in flight of a partition ends as ABORT ends it (16 R379 step 1), the launch with its own code; `write`: records may
still be written to the silo. -/
def State.endWork (s : State) (p : Pid) (launchCode : BitVec 16) (save : Option (Fn × Nat)) (write : Bool) : State :=
  let s := (s.stopTiles p).dropSync p true
  let s := if write then s.failLaunch p launchCode
    else (s.modPart p fun x => { x with launch := x.launch.map fun l => { l with rrec := false, active := [] } }).failLaunch p launchCode
  let s := s.endChannels (fun a => decide (a.pid = p)) eAborted write
  s.endCmds p save write

/-! ### Tile faults (18 R413, R414) -/

/-- The four fault registers (20 R449). -/
inductive FaultSrc where
  | mop | core | dma | upd
  deriving DecidableEq, Repr

/-- DETAIL source code of TILE_FAULT (18 R421). -/
def FaultSrc.code : FaultSrc → Nat
  | .mop => 1
  | .core => 2
  | .dma => 3
  | .upd => 4

/-- Value of a fault register (20 R449). -/
def faultWord (cause rec22 pc : Nat) : Word :=
  BitVec.ofNat 64 (2 ^ 63 + (cause % 16) * 2 ^ 56 + (rec22 % 2 ^ 22) * 2 ^ 32 + pc % 2 ^ 32)

/-- The first fault of the tile stands (20 R449). -/
def keepFirst (old new : Word) : Word := if bit old 63 then old else new

def FaultRegs.record (f : FaultRegs) (k : FaultSrc) (w : Word) : FaultRegs :=
  match k with
  | .mop => { f with mop := keepFirst f.mop w }
  | .core => { f with core := keepFirst f.core w }
  | .dma => { f with dma := keepFirst f.dma w }
  | .upd => { f with upd := keepFirst f.upd w }

def FaultRegs.get (f : FaultRegs) : FaultSrc → Word
  | .mop => f.mop
  | .core => f.core
  | .dma => f.dma
  | .upd => f.upd

/-- A tile fault: recorded, every tile of the partition stops, work in flight ends, the event is raised, peers receive an
abort frame (18 R414). -/
def State.tileFault (s : State) (t : TileId) (k : FaultSrc) (cause rec22 pc : Nat) (uncorrectable : Bool) : State :=
  let s := s.modTile t fun x => { x with faults := x.faults.record k (faultWord cause rec22 pc) }
  match s.partOfTile t with
  | none => s.modTile t Tile.stop
  | some p =>
    let s := s.sendAbort p
    let s := s.endWork p (if uncorrectable then eMemUncorrectable else eAborted) none true
    s.raiseBoth 0x0101 (some p) (t.val + k.code * 2 ^ 16) ((s.tile t).faults.get k).toNat

/-- A core fault of the tile's current instruction (07 R155): MOPs and transfers it had issued complete (07 R181). -/
def State.coreFaultU (s : State) (t : TileId) (cause addr : Nat) (uncorrectable : Bool) : State :=
  let old := s.tile t
  (s.tileFault t .core cause addr (s.core t).pc uncorrectable).modTile t fun x =>
    { x with mops := old.mops, dmas := old.dmas, array := { old.array with hold := false, stagger := none } }

def State.coreFault (s : State) (t : TileId) (cause addr : Nat) : State := s.coreFaultU t cause addr false

/-- A failed read of a sector: counted (09 R227, 18 R424: one for each read), MEM_UNCORRECTABLE on PF0's ring and the function's
ring (18 R415, R421). -/
def State.raiseUncorrectable (s : State) (p : Option Pid) (dev : Nat) : State :=
  (s.countUe dev).raiseBoth 0x0205 p (pcOf (dev / 64 * 64)) (dev / 64 * 64)

/-- The launch of a partition ends for a cause that ends nothing else (18 R413, R418): its tiles, its tiles' waits and its
link entries stop with it. -/
def State.killLaunch (s : State) (p : Pid) (code : BitVec 16) : State :=
  if (s.part p).launch.isSome then
    ((((s.sendAbort p).stopTiles p).dropSync p false).failLaunch p code)
  else s

end Sys2Proof.Machine
end

