-- ==== Sys2Proof/Machine/CoreOps.lean ====
section
/-!
DEFINITION. Sys2Proof/Machine/CoreOps.lean: registers of the control core, its program counter, issue of an instruction
(07 R151, R155), and what an imminent-release hint and a coordinated release do to an array (03 R81 to R84).
-/
namespace Sys2Proof.Machine

/-- g0 reads as 0 (07 R151). -/
def Core.rg (c : Core) (r : RegId) : Word := if r = 0 then 0 else c.g[r]

/-- Writes to g0 are ignored (07 R151). -/
def Core.wg (c : Core) (r : RegId) (x : Word) : Core := if r = 0 then c else { c with g := c.g.set r x }

def Core.rf (c : Core) (r : RegId) : Word := c.f[r]
def Core.wf (c : Core) (r : RegId) (x : Word) : Core := { c with f := c.f.set r x }

/-- The program counter moves past a 4-byte instruction (07 R153). -/
def Core.next (c : Core) : Core := { c with pc := c.pc + 4 }

/-- The program a tile's core runs. -/
def State.progOfTile (s : State) (t : TileId) : Option (Pid × Program) :=
  match s.partOfTile t with
  | none => none
  | some p => (s.prog p (s.core t).slot).map fun x => (p, x)

/-- Size of the code section the core is in. -/
def State.codeSize (s : State) (t : TileId) : Nat :=
  match s.progOfTile t with
  | none => 0
  | some (_, x) => imgCodeSize x.image (s.core t).code

/-- The core issues an instruction now: it runs, debug does not hold it, and nothing of its sheaf is fenced (15 R354, 18 R418). -/
def State.issuing (s : State) (t : TileId) : Bool :=
  decide ((s.core t).status = .running) && (!(s.core t).dbgHalt || decide (0 < (s.core t).dbgSteps)) &&
    !s.fenced .sheaf (sheafOf t).val && (s.progOfTile t).isSome

/-- A single step granted by debug is used up (15 R354). -/
def Core.useStep (c : Core) : Core := if c.dbgHalt then { c with dbgSteps := c.dbgSteps - 1 } else c

/-- The instruction word at a core's program counter (07 R151, R153). -/
def State.codeWord (s : State) (t : TileId) : Nat :=
  match s.progOfTile t with
  | none => 0
  | some (_, x) => imgCodeWord x.image (s.core t).code (s.core t).pc

/-- A command is the core's next instruction: the core issues, and the word at its program counter spells the command, or the counter has
passed the end of the code section, where there is none. -/
def State.issues (s : State) (t : TileId) (i : Instr) : Bool :=
  s.issuing t && (decide (s.codeSize t ≤ (s.core t).pc) || spells t (s.codeWord t) i)

/-- What every core instruction shares: it must be the core's next, and a program counter past the end of the code section is a
core fault in place of the instruction (07 R155). The effect is on the state after the single step of debug is used up. -/
def coreInstr (mnemonic : String) (i : Instr) (t : TileId) (s : State) (effect : State → State) : Host.Outcome State Fault Refusal :=
  if !s.issues t i then notDue mnemonic
  else
    let s := s.modCore t Core.useStep
    if s.codeSize t ≤ (s.core t).pc then .next (s.coreFault t 0x1 0)
    else .next (effect s)

/-- An instruction that stalls until a condition holds (07 R160, R181): until then it stays at the program counter and nothing
changes. -/
def coreWait (mnemonic : String) (i : Instr) (t : TileId) (s : State) (ready : Bool) (effect : State → State) :
    Host.Outcome State Fault Refusal :=
  if !s.issues t i then notDue mnemonic
  else if ready || decide (s.codeSize t ≤ (s.core t).pc) then coreInstr mnemonic i t s effect
  else .next s

/-- The core of a tile changes and moves to the next instruction. -/
def State.retire (s : State) (t : TileId) (f : Core → Core) : State := s.modCore t fun c => (f c).next

/-! ### Arrays: hint and release (03 R81 to R84) -/

/-- The array receives the imminent-release hint. -/
def ArrayState.receiveHint (a : ArrayState) (now : Nat) : ArrayState := { a with hint := some now, hintOver := false, hintNext := now + 256 }

/-- The array receives a coordinated release: at level 8 the level is held until the first feed, below it rises from the
release edge; the first pass waits for the stagger of logical tile L. -/
def ArrayState.receiveRelease (a : ArrayState) (l : Nat) : ArrayState :=
  { a with hint := none, hintOver := false, hold := decide (a.level = 8), ramp := decide (a.level ≠ 8),
           stagger := some ((l % 16) * 8), relAt := a.ac }

/-- Tiles a coordinated release of a partition's running program concerns, with their logical index. -/
def State.mappedTiles (s : State) (p : Pid) : List (TileId × Nat) :=
  match s.running p with
  | none => []
  | some (_, x) => x.tiles.zipIdx

/-- The hint goes to the arrays of the program's mapped tiles, and with `idle` to its idle tiles (03 R84); pending tiles take no
part when idle (18 R413). -/
def State.sendHint (s : State) (p : Pid) (idle : Bool) : State :=
  match s.running p with
  | none => s
  | some (_, x) =>
    s.mapTiles (fun t => x.tiles.contains t || (idle && s.idleFor p x t && !(s.tile t).pend)) fun y =>
      { y with array := y.array.receiveHint s.now }

end Sys2Proof.Machine
end

