-- ==== Sys2Proof/Machine/Array.lean ====
section
/-!
DEFINITION. Sys2Proof/Machine/Array.lean: what a matrix operation record asks for and what its results are: fields, regions and layouts,
ordered and exact accumulation, block-fixed form and the recombiner, complex products, the drain (03 R59 to R76; 04 R85 to R105; 08
R194, R195).
-/
namespace Sys2Proof.Machine

/-! ### The record (03 R60) -/

structure Mop where
  amode  : Nat
  dir    : Bool
  cplx   : Bool
  c3m    : Bool
  wkeep  : Bool
  tcls   : Bool
  resv   : Nat
  fmtA   : Nat
  fmtB   : Nat
  fmtC   : Nat
  cvc    : Nat
  m      : Nat
  n      : Nat
  k      : Nat
  scl    : Nat
  tensor : Nat
  deriving DecidableEq, Repr

def mopOf (r : BitVec 256) : Mop :=
  let w := wordOf r 0
  { amode := bits w 63 60, dir := bit w 59, cplx := bit w 58, c3m := bit w 57, wkeep := bit w 56, tcls := bit w 55,
    resv := bits w 54 52 + bits w 33 30 + bits (wordOf r 3) 31 0, fmtA := bits w 51 48, fmtB := bits w 47 44,
    fmtC := bits w 43 40, cvc := bits w 39 34, m := bits w 29 20 + 1, n := bits w 19 10 + 1, k := bits w 9 0 + 1,
    scl := bits (wordOf r 2) 31 0, tensor := bits (wordOf r 3) 63 32 }

/-- A_ADDR, B_ADDR and C_ADDR of a record. -/
def recordAddrs (r : BitVec 256) : Nat × Nat × Nat := (bits (wordOf r 1) 63 32, bits (wordOf r 1) 31 0, bits (wordOf r 2) 63 32)

/-! ### Modes (03 R59, 04 R85) -/

/-- Lanes of a mode. -/
def lanes (amode : Nat) : Nat := if amode < 2 then 4 else 1

/-- M32F, M32E, M64F, M64E. -/
def isMMode (amode : Nat) : Bool := decide (4 ≤ amode) && decide (amode ≤ 7)

/-- The exact discipline. -/
def Mop.exact (x : Mop) : Bool := isMMode x.amode || decide (x.amode = 3) || (decide (x.amode = 0) && decide (x.fmtA = 6))

/-- Window W in bits. -/
def windowBits (amode : Nat) : Nat := if amode = 4 ∨ amode = 5 then 36 else if amode = 6 then 54 else if amode = 7 then 72 else 18

/-- Operand formats of a mode. -/
def Mop.formatsOk (x : Mop) : Bool :=
  match x.amode with
  | 0 => (x.fmtA = 6 && x.fmtB = 6) || ((x.fmtA = 4 || x.fmtA = 5) && (x.fmtB = 4 || x.fmtB = 5))
  | 1 => (x.fmtA = 3 || x.fmtA = 0xA) && (x.fmtB = 3 || x.fmtB = 0xA)
  | 2 => x.fmtA = 2 && x.fmtB = 2
  | 3 => (x.fmtA = 7 || x.fmtA = 8) && (x.fmtB = 7 || x.fmtB = 8)
  | 4 => (x.fmtA = 1 || x.fmtA = 8) && (x.fmtB = 1 || x.fmtB = 8)
  | 5 => (x.fmtA = 1 || x.fmtA = 8) && (x.fmtB = 1 || x.fmtB = 8)
  | 6 => x.fmtA = 0 && x.fmtB = 0
  | 7 => (x.fmtA = 0 || x.fmtA = 9) && (x.fmtB = 0 || x.fmtB = 9)
  | _ => false

/-- The checks of R61. -/
def Mop.bad (x : Mop) : Bool :=
  decide (x.resv ≠ 0) || decide (7 < x.amode) || !x.formatsOk || decide (10 ≤ x.fmtC) || cvcBad x.cvc ||
    (x.c3m && (!x.cplx || !x.exact || decide (x.amode = 3))) || decide (x.scl % 16 ≠ 0) || decide (tileSize < x.scl + 16)

/-! ### Regions and layouts (03 R67, R69; 04 R91, R101) -/

/-- Bytes of the element in a segment slot. -/
def slotElem (amode : Nat) : Nat := if amode = 4 ∨ amode = 5 ∨ amode = 3 then 4 else 8

/-- Bytes of an element of A and of B as stored. -/
def Mop.esA (x : Mop) : Nat := if isMMode x.amode then slotElem x.amode + 2 else fmtBytes x.fmtA
def Mop.esB (x : Mop) : Nat := if isMMode x.amode then slotElem x.amode + 4 else fmtBytes x.fmtB

/-- Contraction extent, columns of C, contraction elements of one fold. -/
def Mop.depth (x : Mop) : Nat := if x.dir then x.n else x.k
def Mop.cols (x : Mop) : Nat := if x.dir then x.k else x.n
def Mop.laneA (x : Mop) : Nat := if x.dir then 1 else lanes x.amode
def Mop.foldSize (x : Mop) : Nat := 96 * x.laneA

/-- K-folds and N-folds. -/
def Mop.fK (x : Mop) : Nat := ceilDiv x.k (96 * lanes x.amode)
def Mop.fN (x : Mop) : Nat := ceilDiv x.n 96

/-- Contraction folds of an output element. -/
def Mop.folds (x : Mop) : Nat := if x.dir then x.fN else x.fK

def Mop.parts (x : Mop) : Nat := if x.cplx then 2 else 1

/-- Sizes of one part of each region. -/
def Mop.lineA (x : Mop) : Nat := 96 * x.laneA * x.esA
def Mop.sizeA (x : Mop) : Nat := x.folds * (x.m + 95) * x.lineA
def Mop.blockB (x : Mop) : Nat := 96 * (96 * lanes x.amode) * x.esB
def Mop.sizeB (x : Mop) : Nat := x.fK * x.fN * x.blockB
def Mop.sizeC (x : Mop) : Nat := x.m * x.cols * fmtBytes x.fmtC

/-- Segment pairs (i, j) of a block's passes, in order (04 R92). -/
def segPairs (amode : Nat) : List (Nat × Nat) :=
  match amode with
  | 4 => [(0, 0), (0, 1), (1, 0)]
  | 5 => [(0, 0), (0, 1), (1, 0), (1, 1)]
  | 6 => [(0, 0), (0, 1), (1, 0), (0, 2), (1, 1), (2, 0)]
  | 7 => [(0, 0), (0, 1), (1, 0), (0, 2), (1, 1), (2, 0), (0, 3), (1, 2), (2, 1), (3, 0), (1, 3), (2, 2), (3, 1), (2, 3), (3, 2),
      (3, 3)]
  | _ => [(0, 0)]

/-- Operand parts of a block's sub-products, in order: 0 real, 1 imaginary, 2 the sum of both (04 R102, R103). -/
def Mop.products (x : Mop) : List (Nat × Nat) :=
  if !x.cplx then [(0, 0)] else if x.c3m then [(0, 0), (1, 1), (2, 2)] else [(0, 0), (1, 1), (0, 1), (1, 0)]

/-- Passes per weight block (04 R92, R103) and of the whole MOP (03 R68). -/
def Mop.perBlock (x : Mop) : Nat := (segPairs x.amode).length * x.products.length

def Mop.passes (x : Mop) : Nat := x.fK * x.fN * x.perBlock

/-- A pass: K-fold and N-fold of its weight block, operand parts of its sub-product, segments of A and of B. -/
structure Pass where
  kFold : Nat
  nFold : Nat
  partA : Nat
  partB : Nat
  segA  : Nat
  segB  : Nat
  deriving DecidableEq, Repr

/-- Pass n of a MOP: the contraction folds of one output fold before the next output fold (03 R68), the sub-products of a block in
order, the segment pairs of a sub-product in order (04 R92). -/
def Mop.pass (x : Mop) (n : Nat) : Pass :=
  let block := n / x.perBlock
  let w := n % x.perBlock
  let part := x.products.getD (w / (segPairs x.amode).length) (0, 0)
  let seg := (segPairs x.amode).getD (w % (segPairs x.amode).length) (0, 0)
  { kFold := if x.dir then block / x.fN else block % x.fK
    nFold := if x.dir then block % x.fN else block / x.fK
    partA := part.1, partB := part.2, segA := seg.1, segB := seg.2 }

/-- Place of a pass's weight block in region B (03 R69). -/
def Mop.blockIndex (x : Mop) (p : Pass) : Nat := p.nFold * x.fK + p.kFold

/-- Regions A, B, C and scale of an issued MOP. -/
def QMop.mop (q : QMop) : Mop := mopOf q.record
def QMop.regionC (q : QMop) : Nat × Nat := (q.cAddr, q.mop.parts * q.mop.sizeC)
def QMop.inputs (q : QMop) : List (Nat × Nat) :=
  [(q.aAddr, q.mop.parts * q.mop.sizeA), (q.bAddr, q.mop.parts * q.mop.sizeB), (q.mop.scl, 16)]
def QMop.regions (q : QMop) : List (Nat × Nat) := q.regionC :: q.inputs

/-- Offset of the slot of A for output row i and contraction index kk (skewed layout). -/
def QMop.offA (q : QMop) (part i kk : Nat) : Nat :=
  let x := q.mop
  let w := kk % x.foldSize
  q.aAddr + part * x.sizeA + (kk / x.foldSize * (x.m + 95) + i + w / x.laneA) * x.lineA + w * x.esA

/-- Offset of the slot of B for row k and column n (weight blocks). -/
def QMop.offB (q : QMop) (part k n : Nat) : Nat :=
  let x := q.mop
  let l := lanes x.amode
  q.bAddr + part * x.sizeB + (n / 96 * x.fK + k / (96 * l)) * x.blockB + (k % (96 * l) / l * (96 * l) + n % 96 * l + k % l) * x.esB

/-- The slot of B that contraction index kk and output column c use. -/
def QMop.slotB (q : QMop) (part kk c : Nat) : Nat := if q.mop.dir then q.offB part c kk else q.offB part kk c

/-! ### Elements -/

/-- A stored element's value, scale and binary point left out; FX18 reads 18 bits (04 R86), FX operands of an M mode are integers
(R90). -/
def elemNum (amode fmt c : Nat) : Num :=
  if amode = 3 then Num.ofInt (signedOf 18 c) 0
  else if isIntFmt fmt then Num.ofInt (signedOf (8 * fmtBytes fmt) c) 0
  else decodeFmt fmt 0 c

def State.numA (s : State) (t : TileId) (q : QMop) (part i kk : Nat) : Num :=
  elemNum q.mop.amode q.mop.fmtA (s.storeLe t (q.offA part i kk) (fmtBytes q.mop.fmtA))

def State.numB (s : State) (t : TileId) (q : QMop) (part kk c : Nat) : Num :=
  elemNum q.mop.amode q.mop.fmtB (s.storeLe t (q.slotB part kk c) (fmtBytes q.mop.fmtB))

/-- The block exponent that a slot holds, 16 bits. -/
def State.expA (s : State) (t : TileId) (q : QMop) (part i kk : Nat) : Nat :=
  s.storeLe t (q.offA part i kk + slotElem q.mop.amode) 2

def State.expB (s : State) (t : TileId) (q : QMop) (part kk c : Nat) : Nat :=
  s.storeLe t (q.slotB part kk c + slotElem q.mop.amode + (if q.mop.dir then 2 else 0)) 2

/-! ### Block-fixed form (04 R88 to R90) -/

/-- An element of an M mode: sign, magnitude in units of 2^q, its class (an infinity, NaN or overrange, else finite), whether its value
is zero, whether it counts as shed. -/
structure MElem where
  neg  : Bool
  n    : Nat
  q    : Int
  inf  : Bool
  nan  : Bool
  zero : Bool
  shed : Bool
  deriving DecidableEq, Repr

/-- Element x of format fmt in a block with exponent e. -/
def mConvert (amode fmt : Nat) (c3m : Bool) (e : Nat) (x : Num) : MElem :=
  let w := windowBits amode
  let qx : Int := signedOf 16 e - (w : Int) + (if c3m then 2 else 1)
  match x with
  | .nan => { neg := false, n := 0, q := qx, inf := false, nan := true, zero := false, shed := false }
  | .inf s => { neg := s, n := 0, q := qx, inf := true, nan := false, zero := false, shed := false }
  | .fin s n d ex =>
    if isIntFmt fmt then { neg := s, n := n, q := 0, inf := false, nan := false, zero := decide (n = 0), shed := false }
    else if n = 0 then { neg := s, n := 0, q := qx, inf := false, nan := false, zero := true, shed := false }
    else if e = 0x8000 ∨ signedOf 16 e < x.log2 then
      { neg := s, n := 0, q := qx, inf := false, nan := true, zero := false, shed := true }
    else
      let r := roundUnits .rne n d (ex - qx)
      { neg := s, n := r, q := qx, inf := false, nan := false, zero := false, shed := !(Num.eq (.fin s r 1 qx) x) }

/-- Block exponent for the window (R90, R94, R471): none when empty. -/
def blockExp (amode fmt e : Nat) : Option Int :=
  if isFxFmt fmt then some ((windowBits amode : Int) - 1) else if e = 0x8000 then none else some (signedOf 16 e)

def State.mA (s : State) (t : TileId) (q : QMop) (part i kk : Nat) : MElem :=
  mConvert q.mop.amode q.mop.fmtA q.mop.c3m (s.expA t q part i kk) (s.numA t q part i kk)

def State.mB (s : State) (t : TileId) (q : QMop) (part kk c : Nat) : MElem :=
  mConvert q.mop.amode q.mop.fmtB q.mop.c3m (s.expB t q part kk c) (s.numB t q part kk c)

/-- An exact sum of integers with exponents. -/
def exAdd (a b : Int × Int) : Int × Int :=
  if a.1 = 0 then b else if b.1 = 0 then a else
  let e := min a.2 b.2
  (a.1 * 2 ^ (a.2 - e).toNat + b.1 * 2 ^ (b.2 - e).toNat, e)

def exNeg (a : Int × Int) : Int × Int := (-a.1, a.2)

/-- An element as an integer with its exponent; the sum of two parts for C3M (R103). -/
def MElem.val (a : MElem) : Int × Int := (if a.neg then -(a.n : Int) else a.n, a.q)

/-- Segment i of a magnitude. -/
def segmentOf (amode n i : Nat) : Nat := n / 2 ^ (18 * (windowBits amode / 18 - 1 - i)) % 2 ^ 18

/-- The kept segment-pair products of two magnitudes (R89, R92): all pairs, or those with i + j below the segment count in an F mode. -/
def keptProduct (amode : Nat) (a b : Nat) : Nat :=
  let sg := windowBits amode / 18
  if amode = 4 ∨ amode = 6 then
    ((List.range sg).flatMap fun i => (List.range (sg - i)).map fun j => segmentOf amode a i * segmentOf amode b j * 2 ^ (18 * (2 * (sg - 1) - i - j))).foldl (· + ·) 0
  else a * b

/-- The product of two elements as an M mode or another exact mode forms it. -/
def keptSigned (amode : Nat) (a b : Int × Int) : Int × Int :=
  let p := keptProduct amode a.1.natAbs b.1.natAbs
  (if (decide (a.1 < 0)) != decide (b.1 < 0) then -(p : Int) else p, a.2 + b.2)

/-! ### Exact discipline (03 R76; 04 R94 to R96, R102, R103) -/

/-- Sub-products of a part: operand parts (2: the sum of both) and sign. Part 0 is real, 1 imaginary. -/
def Mop.subs (x : Mop) (part : Nat) : List (Nat × Nat × Bool) :=
  if !x.cplx then [(0, 0, false)]
  else if part = 0 then [(0, 0, false), (1, 1, true)]
  else if x.c3m then [(2, 2, false), (0, 0, true), (1, 1, true)]
  else [(0, 1, false), (1, 0, false)]

/-- Sub-products of the four-multiply form. -/
def Mop.subs4 (x : Mop) (part : Nat) : List (Nat × Nat × Bool) := { x with c3m := false }.subs part

/-- An operand of an exact mode as an integer with its exponent. -/
def State.exA (s : State) (t : TileId) (q : QMop) (part i kk : Nat) : Int × Int :=
  if part = 2 then exAdd (s.mA t q 0 i kk).val (s.mA t q 1 i kk).val else (s.mA t q part i kk).val

def State.exB (s : State) (t : TileId) (q : QMop) (part kk c : Nat) : Int × Int :=
  if part = 2 then exAdd (s.mB t q 0 kk c).val (s.mB t q 1 kk c).val else (s.mB t q part kk c).val

/-! ### Weight registers and partial sums (03 R58, R63, R73; 04 R86, R92) -/

/-- What a multiplier takes of a floating-point or integer weight: its signed significand; the class of an infinity or NaN travels
beside it (log 79). -/
def significand : Num → Int
  | .fin s n _ _ => if s then -(n : Int) else n
  | _ => 0

/-- The weight at row k and column n of B in a pass: 9 bits in a quad-lane mode, 18 bits in a single-lane mode, zero beyond the
extents (03 R58, R73). -/
def State.weight (s : State) (t : TileId) (q : QMop) (p : Pass) (k n : Nat) : Nat :=
  let x := q.mop
  if x.k ≤ k ∨ x.n ≤ n then 0
  else if isMMode x.amode then
    segmentOf x.amode (if x.dir then s.exB t q p.partB n k else s.exB t q p.partB k n).1.natAbs p.segB
  else
    let v (part : Nat) : Int := significand (if x.dir then s.numB t q part n k else s.numB t q part k n)
    codeOf (if lanes x.amode = 4 then 9 else 18) (if p.partB = 2 then v 0 + v 1 else v p.partB)

/-- The register of the PE at logical row r and column c: its four weights, lane 0 lowest, or its one weight (log 79). -/
def State.weightWord (s : State) (t : TileId) (q : QMop) (p : Pass) (r c : Nat) : BitVec 36 :=
  let l := lanes q.mop.amode
  BitVec.ofNat 36 ((List.range l).foldl (fun a i =>
    a + s.weight t q p (96 * l * p.kFold + l * r + i) (96 * p.nFold + c) * 2 ^ (9 * i)) 0)

/-- What a pass's block loads into the shadow register, one logical row after another (03 R77). -/
def State.weightBlock (s : State) (t : TileId) (q : QMop) (n : Nat) : WeightBlock :=
  let p := q.mop.pass n
  { key := { bAddr := q.bAddr, amode := q.mop.amode, fmtB := q.mop.fmtB, index := q.mop.blockIndex p }
    seg := p.segB
    words := (List.range 96).flatMap fun r => (List.range 96).map fun c => s.weightWord t q p r c }

/-- Contraction indices of fold f within the extents (03 R73: masked positions add nothing). -/
def Mop.foldRange (x : Mop) (f : Nat) : List Nat := natRange (f * x.foldSize) (min x.depth ((f + 1) * x.foldSize))

/-- F_f of an output element (R94 step 1). -/
def State.foldExact (s : State) (t : TileId) (q : QMop) (part i c f : Nat) : Int × Int :=
  (q.mop.foldRange f).foldl (fun a kk =>
    (q.mop.subs part).foldl (fun a (u : Nat × Nat × Bool) =>
      let v := keptSigned q.mop.amode (s.exA t q u.1 i kk) (s.exB t q u.2.1 kk c)
      exAdd a (if u.2.2 then exNeg v else v)) a) (0, 0)

/-- S_f (R94 step 2, R471). -/
def State.foldScale (s : State) (t : TileId) (q : QMop) (i c f : Nat) : Option Int :=
  match blockExp q.mop.amode q.mop.fmtA (s.expA t q 0 i (f * q.mop.foldSize)),
        blockExp q.mop.amode q.mop.fmtB (s.expB t q 0 (f * q.mop.foldSize) c) with
  | some a, some b => some (a + b)
  | _, _ => none

/-- The window's exponent: none when no fold qualifies. -/
def State.windowExp (s : State) (t : TileId) (q : QMop) (i c : Nat) : Option Int :=
  if !isMMode q.mop.amode then some 0 else
  match (List.range q.mop.folds).filterMap fun f => s.foldScale t q i c f with
  | [] => none
  | x :: xs => some (xs.foldl max x - 300)

/-- F in units of 2^l rounded down, and whether anything was dropped. -/
def floorAt (a : Int × Int) (l : Int) : Int × Bool :=
  if l ≤ a.2 then (a.1 * 2 ^ (a.2 - l).toNat, false)
  else (a.1 / 2 ^ (l - a.2).toNat, !decide (a.1 % 2 ^ (l - a.2).toNat = 0))

/-- acc of an output element, and whether some T_f differs from F_f (R94, R95, R471: kept modulo 2^320). -/
def State.recombine (s : State) (t : TileId) (q : QMop) (part i c : Nat) : Num × Bool :=
  match s.windowExp t q i c with
  | none => (Num.zero, false)
  | some l =>
    let ts := (List.range q.mop.folds).map fun f => floorAt (s.foldExact t q part i c f) l
    let v := ts.foldl (fun (a : Int) (u : Int × Bool) => a + u.1) 0
    (Num.ofInt (signedOf 320 (codeOf 320 v)) l, ts.any fun (u : Int × Bool) => u.2)

/-- The products of an output element that are not finite (R96): NaN, +infinity, -infinity. -/
def State.specials (s : State) (t : TileId) (q : QMop) (part i c : Nat) : Bool × Bool × Bool :=
  (List.range q.mop.depth).foldl (fun a kk =>
    (q.mop.subs4 part).foldl (fun (a : Bool × Bool × Bool) (u : Nat × Nat × Bool) =>
      let x := s.mA t q u.1 i kk
      let y := s.mB t q u.2.1 kk c
      let bad := x.nan || y.nan || (x.inf && y.zero) || (y.inf && x.zero)
      let isInf := (x.inf || y.inf) && !bad
      let sg := (x.neg != y.neg) != u.2.2
      (a.1 || bad, a.2.1 || (isInf && !sg), a.2.2 || (isInf && sg))) a) (false, false, false)

/-- The accumulated result of an exact-discipline element, and whether its fold sums lost bits. -/
def State.exactAcc (s : State) (t : TileId) (q : QMop) (part i c : Nat) : Num × Bool :=
  let r := s.recombine t q part i c
  if !isMMode q.mop.amode then r else
  let sp := s.specials t q part i c
  (if sp.1 || (sp.2.1 && sp.2.2) then .nan else if sp.2.1 then .inf false else if sp.2.2 then .inf true else r.1, r.2)

/-! ### Ordered discipline (03 R74, R75; 04 R102; 08 R195) -/

/-- The dither of an output element (08 R194). -/
def elemDither (k : Core) (x : Mop) (part i c pass : Nat) : Nat :=
  ditherOf k.seed k.step x.tensor pass (BitVec.ofNat 64 (i * x.cols + c + part * 2 ^ 63))

/-- The fold sum of one sub-product: products added one at a time in the extended format. -/
def State.foldOrdered (s : State) (t : TileId) (q : QMop) (u : Nat × Nat × Bool) (i c f : Nat) : Num :=
  (q.mop.foldRange f).foldl (fun a kk => a.accE ((s.numA t q u.1 i kk).mul (s.numB t q u.2.1 kk c))) Num.zero

/-- The folds of one sub-product combined, class P or class S. -/
def State.combine (s : State) (t : TileId) (q : QMop) (part : Nat) (u : Nat × Nat × Bool) (i c : Nat) : Num :=
  (natRange 1 q.mop.folds).foldl (fun a f =>
    let b := s.foldOrdered t q u i c f
    if q.mop.tcls then fp32.roundTo (.sr (elemDither (s.core t) q.mop part i c (0x100 + f))) (a.acc b) else a.accE b)
    (s.foldOrdered t q u i c 0)

/-- The accumulated result of an ordered element. -/
def State.orderedAcc (s : State) (t : TileId) (q : QMop) (part i c : Nat) : Num :=
  match (q.mop.subs part).map fun u => (u.2.2, s.combine t q part u i c) with
  | [(_, a)] => a
  | [(_, a), (neg, b)] => a.accE (if neg then b.neg else b)
  | _ => Num.zero

/-! ### The drain (02 R43 to R45, R55; 03 R69) -/

/-- s_A, s_B, s_C as the MOP uses them: 1.0 for a format without SCALE. -/
def State.mopScales (s : State) (t : TileId) (x : Mop) : Nat × Nat × Nat :=
  let sc (fmt i : Nat) : Nat := if hasScale fmt then s.storeLe t (x.scl + 4 * i) 4 else 0x3F800000
  (sc x.fmtA 0, sc x.fmtB 1, sc x.fmtC 2)

def scalesOk (z : Nat × Nat × Nat) : Bool := scaleOk z.1 && scaleOk z.2.1 && scaleOk z.2.2

/-- The stored element (part, i, c): its offset, code and count, and whether its fold sums lost bits. -/
def State.drain (s : State) (t : TileId) (q : QMop) (z : Nat × Nat × Nat) (part i c : Nat) : Nat × (Nat × Cnt) × Bool :=
  let x := q.mop
  let a := if x.exact then s.exactAcc t q part i c else (s.orderedAcc t q part i c, false)
  let v := if scalesOk z then ((a.1.mul (scaleNum z.1)).mul (scaleNum z.2.1)).div (scaleNum z.2.2) else .nan
  (q.cAddr + part * x.sizeC + (i * x.cols + c) * fmtBytes x.fmtC,
    convertFmt x.fmtC 0 (cvcOf x.cvc) (elemDither (s.core t) x part i c 0) (isIntFmt x.fmtA && isIntFmt x.fmtB) v, a.2)

/-- Every element of C. -/
def Mop.outputs (x : Mop) : List (Nat × Nat × Nat) :=
  (List.range x.parts).flatMap fun p => (List.range x.m).flatMap fun i => (List.range x.cols).map fun c => (p, i, c)

/-- Elements of A and B that shed bits or are overrange (04 R99). -/
def State.shedInputs (s : State) (t : TileId) (q : QMop) : Nat :=
  let x := q.mop
  if !isMMode x.amode then 0 else
  let as := (List.range x.parts).flatMap fun p => (List.range x.m).flatMap fun i => (List.range x.depth).map fun kk =>
    b2n (s.mA t q p i kk).shed
  let bs := (List.range x.parts).flatMap fun p => (List.range x.depth).flatMap fun kk => (List.range x.cols).map fun c =>
    b2n (s.mB t q p kk c).shed
  (as ++ bs).foldl (· + ·) 0

/-- Bytes stored at offsets of a tile store, in order. -/
def State.storeAll (s : State) (t : TileId) (w : Nat) (xs : List (Nat × Nat)) : State :=
  { s with mem := xs.foldl (fun m (x : Nat × Nat) => Memory.writeLe m (tileAddr t + x.1) w x.2) s.mem }

/-- A MOP's results are written and counted; an offload MOP counts nothing (05 R131). -/
def State.runMop (s : State) (t : TileId) (q : QMop) (counted : Bool) : State :=
  let x := q.mop
  let z := s.mopScales t x
  let rs := x.outputs.map fun (o : Nat × Nat × Nat) => s.drain t q z o.1 o.2.1 o.2.2
  let shed := s.shedInputs t q + (if isMMode x.amode then (rs.filter fun (r : Nat × (Nat × Cnt) × Bool) => r.2.2).length else 0)
  let s := s.storeAll t (fmtBytes x.fmtC) (rs.map fun (r : Nat × (Nat × Cnt) × Bool) => (r.1, r.2.1.1))
  if !counted then s else
  s.modTile t fun y =>
    let y := y.countAll x.fmtC (rs.map fun (r : Nat × (Nat × Cnt) × Bool) => r.2.1)
    let y := if scalesOk z then y else y.countScaleBad
    { y with cnt := { y.cnt with shed := satAdd y.cnt.shed shed } }

end Sys2Proof.Machine
end

