-- ==== Sys2Proof/Machine/TileDma.lean ====
section
/-!
DEFINITION. Sys2Proof/Machine/TileDma.lean: tile DMA descriptors: their fields and checks, the regions they touch, the layouts they write and
the elements they convert (07 R167 to R170; 03 R69; 04 R87, R88, R91, R101; 08 R194).
-/
namespace Sys2Proof.Machine

/-- Fields of a descriptor (07 R167). -/
structure Dma where
  opc     : Nat
  lay     : Nat
  seg     : Bool
  sw      : Bool
  ql      : Bool
  cplx    : Bool
  hint    : Nat
  fmtS    : Nat
  fmtD    : Nat
  cvc     : Nat
  resv    : Nat
  rows    : Nat
  cols    : Nat
  src     : Nat
  dst     : Nat
  sstride : Nat
  dstride : Nat
  scaleS  : Nat
  scaleD  : Nat
  fxpS    : Nat
  fxpD    : Nat
  deriving DecidableEq, Repr

def dmaOf (d : BitVec 512) : Dma :=
  let w := dw d 0
  { opc := bits w 63 60, lay := bits w 59 58, seg := bit w 57, sw := bit w 56, ql := bit w 55, cplx := bit w 54,
    hint := bits w 53 52, fmtS := bits w 51 48, fmtD := bits w 47 44, cvc := bits w 43 38,
    resv := bits w 37 0 + bits (dw d 1) 63 48 + bits (dw d 1) 31 20 + bits (dw d 6) 47 0 + (dw d 7).toNat,
    rows := bits (dw d 1) 47 32 + 1, cols := bits (dw d 1) 19 0, src := (dw d 2).toNat, dst := (dw d 3).toNat,
    sstride := bits (dw d 4) 63 32, dstride := bits (dw d 4) 31 0, scaleS := bits (dw d 5) 63 32,
    scaleD := bits (dw d 5) 31 0, fxpS := bits (dw d 6) 63 56, fxpD := bits (dw d 6) 55 48 }

/-- Bits are copied unchanged (07 R169). -/
def Dma.same (x : Dma) : Bool := decide (x.fmtS = x.fmtD) && decide (x.scaleS = x.scaleD) && decide (x.fxpS = x.fxpD)

def Dma.parts (x : Dma) : Nat := if x.cplx then 2 else 1
def Dma.esS (x : Dma) : Nat := fmtBytes x.fmtS
def Dma.esD (x : Dma) : Nat := fmtBytes x.fmtD

/-- Bytes of a slot of the destination layout. -/
def Dma.slot (x : Dma) : Nat := x.esD + (if x.seg then (if x.lay = 3 then 4 else 2) else 0)

/-- Lanes of the layout, folds of K and N. -/
def Dma.lanes (x : Dma) : Nat := if x.ql then 4 else 1

/-- Slots of one line of a skewed operand, and folds. -/
def Dma.lineSlots (x : Dma) : Nat := if x.lay = 2 then 96 else 96 * x.lanes
def Dma.folds (x : Dma) : Nat := ceilDiv x.cols x.lineSlots

/-- Bytes of one part of a LAY ≠ 0 destination. -/
def Dma.partSize (x : Dma) : Nat :=
  if x.lay = 3 then ceilDiv x.rows (96 * x.lanes) * ceilDiv x.cols 96 * (96 * 96 * x.lanes * x.slot)
  else x.folds * (x.rows + 95) * x.lineSlots * x.slot

/-- The ranges read, row by row. -/
def Dma.sources (x : Dma) : List (Nat × Nat) :=
  (List.range (x.parts * x.rows)).map fun r => (x.src + r * x.sstride, x.cols * x.esS)

/-- The ranges written. -/
def Dma.targets (x : Dma) : List (Nat × Nat) :=
  if x.lay = 0 then (List.range (x.parts * x.rows)).map fun r => (x.dst + r * x.dstride, x.cols * x.esD)
  else [(x.dst, x.parts * x.partSize)]

/-- Ranges of the tile store read, and written. -/
def Dma.storeReads (x : Dma) : List (Nat × Nat) := if x.opc = 1 then [] else x.sources
def Dma.storeWrites (x : Dma) : List (Nat × Nat) := if x.opc = 2 then [] else x.targets

/-- A field breaks its condition (Table Tile DMA descriptor, R169 for BF16S). -/
def Dma.fieldBad (x : Dma) : Bool :=
  (x.seg && decide (x.lay = 0)) || (x.sw && !x.seg) || (x.ql && x.seg) || (decide (x.hint ≠ 0) && decide (x.opc = 3)) ||
    (decide (x.dstride ≠ 0) && decide (x.lay ≠ 0)) || decide (x.cols = 0) ||
    ((decide (x.fmtS = 0xA) || decide (x.fmtD = 0xA)) && !(x.same && decide (x.lay = 0)))

/-- The cause of the first check that fails at issue (07 R170, 20 R449). -/
def State.dmaCheck (s : State) (p : Pid) (x : Dma) : Option Nat :=
  let outside (rs : List (Nat × Nat)) : Bool := rs.any fun r => decide (tileSize < r.1 + r.2)
  let checks : List (Bool × Nat) :=
    [ (decide (x.resv ≠ 0) || decide (x.opc = 0) || decide (3 < x.opc) || decide (0xA < x.fmtS) || decide (0xA < x.fmtD) || cvcBad x.cvc, 0x1),
      (x.fieldBad, 0x2),
      (decide (x.lay ≠ 0) && (decide (1024 < x.rows) || decide (1024 < x.cols)), 0x3),
      (x.seg && !(if x.sw then decide (x.fmtD = 0) || decide (x.fmtD = 9) else decide (x.fmtD = 1) || decide (x.fmtD = 8)), 0x4),
      (!(scaleOk x.scaleS && scaleOk x.scaleD), 0x5),
      (outside x.storeReads || outside x.storeWrites || (decide (x.lay ≠ 0) && decide (x.dst % 64 ≠ 0)), 0x6),
      ((decide (x.opc = 1) && x.sources.any fun r => !(s.part p).inSilo r.1 r.2) ||
        (decide (x.opc = 2) && x.targets.any fun r => !(s.part p).inSilo r.1 r.2), 0x7),
      (decide (x.src % x.esS ≠ 0) || decide (x.sstride % x.esS ≠ 0) || decide (x.dst % x.esD ≠ 0) || decide (x.dstride % x.esD ≠ 0), 0x8) ]
  (checks.find? (·.1)).map (·.2)

/-! ### Elements (07 R169) -/

/-- The stored code of source element (part, r, c). -/
def State.dmaSource (s : State) (t : TileId) (p : Pid) (x : Dma) (part r c : Nat) : Nat :=
  let a := x.src + (part * x.rows + r) * x.sstride + c * x.esS
  if x.opc = 1 then s.siloLe p a x.esS else s.storeLe t a x.esS

/-- The destination code of an element, and what its conversion counts. -/
def State.dmaElem (s : State) (t : TileId) (p : Pid) (q : QDma) (x : Dma) (part r c : Nat) : Nat × Cnt :=
  let b := s.dmaSource t p x part r c
  if x.same then (b, .none) else
  let v := ((decodeFmt x.fmtS (signedOf 8 x.fxpS) b).mul (scaleNum x.scaleS)).div (scaleNum x.scaleD)
  let k := s.core t
  convertFmt x.fmtD (signedOf 8 x.fxpD) (cvcOf x.cvc)
    (ditherOf k.seed k.step (q.vtid.toNat % 2 ^ 32) 0x4000 (q.veidx + BitVec.ofNat 64 (r * x.cols + c + part * 2 ^ 63)))
    (isIntFmt x.fmtS) v

/-- The value the destination element holds, for block exponents. -/
def Dma.destNum (x : Dma) (code : Nat) : Num := decodeFmt x.fmtD 0 code

/-- A block exponent: the largest exponent of the finite nonzero elements, 0x8000 when there is none; 0 for FX (04 R88, R90). -/
def Dma.blockExp (x : Dma) (codes : List Nat) : Nat :=
  if isIntFmt x.fmtD then 0 else
  match (codes.map x.destNum).filter fun v => v.isFin && !v.isZero with
  | [] => 0x8000
  | v :: vs => codeOf 16 (vs.foldl (fun (m : Int) w => max m w.log2) v.log2)

/-! ### Layouts (03 R69, 04 R91) -/

/-- A slot: element bytes, then exponents. -/
def Dma.slotBytes (x : Dma) (code : Nat) (exps : List Nat) : List Byte :=
  leBytes x.esD code ++ (if x.seg then exps.flatMap fun e => leBytes 2 e else [])

/-- A padding slot. -/
def Dma.padding (x : Dma) : List Byte :=
  let e := if isIntFmt x.fmtD then 0 else 0x8000
  x.slotBytes 0 (if x.lay = 3 then [e, e] else [e])

/-- One part of a skewed operand A (LAY 1 and 2). -/
def State.dmaSkewed (s : State) (t : TileId) (p : Pid) (q : QDma) (x : Dma) (part : Nat) : List Byte :=
  let l := if x.lay = 2 then 1 else x.lanes
  let expo (m f : Nat) : Nat :=
    x.blockExp ((List.range x.parts).flatMap fun u =>
      (natRange (f * x.lineSlots) (min x.cols ((f + 1) * x.lineSlots))).map fun k => (s.dmaElem t p q x u m k).1)
  (List.range x.folds).flatMap fun f => (List.range (x.rows + 95)).flatMap fun line => (List.range x.lineSlots).flatMap fun w =>
    let k := f * x.lineSlots + w
    if w / l ≤ line ∧ line - w / l < x.rows ∧ k < x.cols then
      x.slotBytes (s.dmaElem t p q x part (line - w / l) k).1 [if x.seg then expo (line - w / l) f else 0]
    else x.padding

/-- One part of weight blocks B (LAY 3): rows are K, columns N. -/
def State.dmaBlocks (s : State) (t : TileId) (p : Pid) (q : QDma) (x : Dma) (part : Nat) : List Byte :=
  let kf := 96 * x.lanes
  let codes (ks ns : List Nat) : List Nat :=
    (List.range x.parts).flatMap fun u => ks.flatMap fun k => ns.map fun n => (s.dmaElem t p q x u k n).1
  (List.range (ceilDiv x.cols 96)).flatMap fun j => (List.range (ceilDiv x.rows kf)).flatMap fun i =>
    (List.range 96).flatMap fun r => (List.range 96).flatMap fun c => (List.range x.lanes).flatMap fun l =>
      let k := i * kf + r * x.lanes + l
      let n := j * 96 + c
      if k < x.rows ∧ n < x.cols then
        x.slotBytes (s.dmaElem t p q x part k n).1
          (if x.seg then
            [x.blockExp (codes (natRange (i * kf) (min x.rows ((i + 1) * kf))) [n]),
              x.blockExp (codes [k] (natRange (j * 96) (min x.cols ((j + 1) * 96))))]
           else [])
      else x.padding

/-- What a transfer writes: ranges with their bytes. -/
def State.dmaWrites (s : State) (t : TileId) (p : Pid) (q : QDma) (x : Dma) : List (Nat × List Byte) :=
  if x.lay = 0 then
    (List.range x.parts).flatMap fun u => (List.range x.rows).map fun r =>
      (x.dst + (u * x.rows + r) * x.dstride, (List.range x.cols).flatMap fun c => leBytes x.esD (s.dmaElem t p q x u r c).1)
  else
    (List.range x.parts).map fun u =>
      (x.dst + u * x.partSize, if x.lay = 3 then s.dmaBlocks t p q x u else s.dmaSkewed t p q x u)

/-- The conversions of a transfer, each element once. -/
def State.dmaCounts (s : State) (t : TileId) (p : Pid) (q : QDma) (x : Dma) : List (Nat × Cnt) :=
  if x.same then [] else
  (List.range x.parts).flatMap fun u => (List.range x.rows).flatMap fun r => (List.range x.cols).map fun c => s.dmaElem t p q x u r c

/-- The transfer's bytes land, its conversions are counted, a LAST_USE read lets its lines go (09 R219). -/
def State.dmaMove (s : State) (t : TileId) (p : Pid) (q : QDma) (x : Dma) : State :=
  let ws := s.dmaWrites t p q x
  let cs := s.dmaCounts t p q x
  let s := if x.opc = 1 then x.sources.foldl (fun s (r : Nat × Nat) => s.hintRead p x.hint r.1 r.2) s else s
  let s := ws.foldl (fun s (w : Nat × List Byte) => if x.opc = 2 then s.siloWriteH p x.hint w.1 w.2 else s.storeWrite t w.1 w.2) s
  s.modTile t fun y => y.countAll x.fmtD cs

end Sys2Proof.Machine
end

