-- ==== Sys2Proof/Machine/Update.lean ====
section
/-!
DEFINITION. Sys2Proof/Machine/Update.lean: the update unit: update descriptors and their checks, optimizer arithmetic, gleaning, norm
accumulators, clip factors, the watch (08 R182 to R198).
-/
namespace Sys2Proof.Machine

/-! ### Descriptors (08 R184, R185) -/

structure Wupd where
  opt    : Nat
  wfmt   : Nat
  gfmt   : Nat
  tcls   : Bool
  clip   : Nat
  clipn  : Fin 4
  glean  : Bool
  watch  : Bool
  widx   : Nat
  n      : Nat
  tid    : Nat
  glx    : Nat
  resv   : Nat
  ebase  : Nat
  w      : Nat
  wlo    : Nat
  g      : Nat
  gl     : Nat
  m1     : Nat
  m2     : Nat
  lr     : Nat
  wd     : Nat
  beta1  : Nat
  beta2  : Nat
  eps    : Nat
  maxn   : Nat
  bc1    : Nat
  bc2    : Nat
  gscale : Nat
  deriving DecidableEq, Repr

def wupdOf (d : BitVec 1024) : Wupd :=
  let w (i : Nat) : Word := wordOf d i
  let hi (i : Nat) : Nat := bits (w i) 63 32
  let lo (i : Nat) : Nat := bits (w i) 31 0
  { opt := bits (w 0) 63 60, wfmt := bits (w 0) 59 56, gfmt := bits (w 0) 55 52, tcls := bit (w 0) 51, clip := bits (w 0) 50 49,
    clipn := Fin.ofNat 4 (bits (w 0) 48 47), glean := bit (w 0) 46, watch := bit (w 0) 45, widx := bits (w 0) 44 33,
    n := bits (w 0) 19 0 + 1, tid := hi 1, glx := bits (w 1) 31 24,
    resv := bits (w 0) 32 20 + bits (w 1) 23 0 + bits (w 2) 63 40 + lo 10 + (w 11).toNat + (w 12).toNat + (w 13).toNat +
      (w 14).toNat + (w 15).toNat,
    ebase := bits (w 2) 39 0, w := hi 3, wlo := lo 3, g := hi 4, gl := lo 4, m1 := hi 5, m2 := lo 5, lr := hi 6, wd := lo 6,
    beta1 := hi 7, beta2 := lo 7, eps := hi 8, maxn := lo 8, bc1 := hi 9, bc2 := lo 9, gscale := hi 10 }

/-- Bytes of a weight element in W_ADDR. -/
def Wupd.esW (x : Wupd) : Nat := fmtBytes x.wfmt
def Wupd.esG (x : Wupd) : Nat := fmtBytes x.gfmt
def Wupd.split (x : Wupd) : Bool := decide (x.wfmt = 0xA)
def Wupd.fp8 (x : Wupd) : Bool := x.gfmt = 4 || x.gfmt = 5

/-- Regions an operation writes, and the gradients it reads. -/
def Wupd.writes (x : Wupd) : List (Nat × Nat) :=
  [(x.w, x.n * x.esW), (x.m1, 4 * x.n)] ++ (if x.split then [(x.wlo, 2 * x.n)] else []) ++
    (if x.glean then [(x.gl, 2 * x.n)] else []) ++ (if x.opt = 1 then [(x.m2, 4 * x.n)] else [])

def Wupd.reads (x : Wupd) : List (Nat × Nat) := [(x.g, x.n * x.esG)]

/-- The code is NaN or infinite. -/
def badF32 (c : Nat) : Bool := !(fp32.decode c).isFin

/-- A finite FP32 code outside 0 to 1. -/
def outside01 (c : Nat) : Bool :=
  !badF32 c && ((fp32.decode c).lt Num.zero || Num.one.lt (fp32.decode c))

/-- A negative FP32 value. -/
def negF32 (c : Nat) : Bool := (fp32.decode c).lt Num.zero

/-- A field that must be 0 is not, an exception left to CAUSE 0x4 being NaN and infinity. -/
def nonzeroF32 (c : Nat) : Bool := decide (c ≠ 0) && !badF32 c

/-- A field breaks its condition in Table Update descriptor. -/
def Wupd.fieldBad (x : Wupd) : Bool :=
  !(x.wfmt = 1 || x.wfmt = 2 || x.wfmt = 3 || x.wfmt = 0xA) ||
    !(x.gfmt = 1 || x.gfmt = 2 || x.gfmt = 3 || x.gfmt = 4 || x.gfmt = 5) ||
    (decide (x.clipn ≠ 0) && decide (x.clip ≠ 1)) || (decide (x.widx ≠ 0) && !x.watch) ||
    (decide (x.wlo ≠ 0) && !x.split) || (decide (x.gl ≠ 0) && !x.glean) || (decide (x.m2 ≠ 0) && decide (x.opt ≠ 1)) ||
    ([x.w, x.wlo, x.g, x.gl, x.m1, x.m2].any fun a => decide (a % 64 ≠ 0)) || outside01 x.beta1 || outside01 x.beta2 ||
    (decide (x.opt = 0) && nonzeroF32 x.beta2) ||
    (decide (x.opt ≠ 1) && (nonzeroF32 x.eps || nonzeroF32 x.bc1 || nonzeroF32 x.bc2)) ||
    (if x.clip = 0 then nonzeroF32 x.maxn else !badF32 x.maxn && !scaleOk x.maxn) ||
    (!x.fp8 && decide (x.gscale ≠ 0x3F800000) && !badF32 x.gscale)

/-- Two of the regions overlap, or one leaves the store. -/
def regionsClash : List (Nat × Nat) → Bool
  | [] => false
  | r :: rs => decide (tileSize < r.1 + r.2) || (rs.any fun u => decide (r.1 < u.1 + u.2) && decide (u.1 < r.1 + r.2)) || regionsClash rs

/-- The cause recorded: 0x4 for an FP32 field that is NaN or infinite, whatever else fails; otherwise the first of the list
(08 R185, 20 R449). -/
def State.wupdCheck (s : State) (p : Pid) (img : List Byte) (x : Wupd) : Option Nat :=
  let checks : List (Bool × Nat) :=
    [ ([x.lr, x.wd, x.beta1, x.beta2, x.eps, x.maxn, x.bc1, x.bc2, x.gscale].any badF32, 0x4),
      (decide (x.resv ≠ 0) || decide (2 < x.opt) || decide (0xA < x.wfmt) || decide (0xA < x.gfmt) || decide (x.clip = 3), 0x1),
      (x.fieldBad, 0x2),
      (x.glean && decide (x.wfmt = 1), 0x3),
      ([x.lr, x.wd, x.eps, x.bc1, x.bc2].any negF32, 0x4),
      (!scaleOk x.gscale, 0x5),
      (regionsClash (x.writes ++ x.reads), 0x6),
      (x.watch && !((imgRecords img sWatch 8).any fun o => decide (nbits (imgLe img o 8) 63 52 = x.widx) &&
        (s.part p).watch.any fun e => decide (e.widx = x.widx)), 0x7) ]
  (checks.find? (·.1)).map (·.2)

/-! ### Norms and clipping (08 R190 to R192) -/

/-- A value's square in units of 2^-344. -/
def squareUnits (x : Num) : Nat :=
  match x with
  | .fin _ n _ e => n * n * 2 ^ (2 * e + 344).toNat
  | _ => 0

/-- One element's square joins an accumulator. -/
def Norm.addSquare (a : Norm) (x : Num) : Norm :=
  { value := a.value + BitVec.ofNat 704 (squareUnits x), inf := a.inf || x.isInf, nan := a.nan || x.isNan }

/-- The elements of a gradient, scaled when their format is an FP8 one. -/
def State.gradElem (s : State) (t : TileId) (addr gfmt : Nat) (scale : Num) (i : Nat) : Num :=
  let g := decodeFmt gfmt 0 (s.storeLe t (addr + i * fmtBytes gfmt) (fmtBytes gfmt))
  if gfmt = 4 ∨ gfmt = 5 then g.mul scale else g

/-- Squares of n elements added to an accumulator. -/
def State.addSquares (s : State) (t : TileId) (addr n gfmt : Nat) (scale : Num) (a : Norm) : Norm :=
  (List.range n).foldl (fun a i => a.addSquare (s.gradElem t addr gfmt scale i)) a

/-- √S rounded to FP32, and whether the rounded root of a finite S exceeded the range. -/
def Norm.root (a : Norm) : Num × Bool :=
  if a.nan then (.nan, false)
  else if a.inf then (.inf false, false)
  else
    let r := ((Num.fin false a.value.toNat 1 (-344)).sqrt).r32
    (r, r.isInf)

/-- The clip factor for a norm. -/
def clipFactor (n maxn : Num) : Num :=
  if n.isNan then .nan else if !(maxn.lt n) then Num.one else if n.isInf then Num.zero else (maxn.div n).r32

/-- The 128 bytes of a norm record (08 R191). -/
def Norm.bytes (a : Norm) : List Byte :=
  leBytes 88 a.value.toNat ++ leBytes 1 (b2n a.inf + 2 * b2n a.nan) ++ List.replicate 39 0

def normOf (bs : List Byte) : Norm :=
  let f := leNat ((bs.drop 88).take 1)
  { value := BitVec.ofNat 704 (leNat (bs.take 88)), inf := decide (f % 2 = 1), nan := decide (f / 2 % 2 = 1) }

def Norm.join (a b : Norm) : Norm := { value := a.value + b.value, inf := a.inf || b.inf, nan := a.nan || b.nan }

/-! ### Optimizer steps (08 R187 to R189) -/

/-- What the unit reads for one element. -/
structure Elem where
  g : Num
  w : Num
  c : Num
  m : Num
  v : Num
  deriving DecidableEq, Repr

/-- The sign of a value: 0 for zero, NaN for NaN. -/
def Num.signum (x : Num) : Num :=
  if x.isNan then .nan else if x.isZero then Num.zero else if x.sign then Num.one.neg else Num.one

/-- m', v' and Δ of one element. -/
def Wupd.optStep (x : Wupd) (e : Elem) : Num × Num × Num :=
  let f := fp32.decode
  let g := if e.c.isZero then Num.zero else e.c.mul e.g
  let one (b : Nat) : Num := Num.one.acc (f b).neg
  let mix (b : Nat) (m g : Num) : Num := (((f b).mul m).acc ((one b).mul g)).r32
  let down (u : Num) : Num := ((f x.lr).mul u).neg
  match x.opt with
  | 0 =>
    let m := ((((f x.beta1).mul e.m).acc g).acc ((f x.wd).mul e.w)).r32
    (m, e.v, down m)
  | 1 =>
    let m := mix x.beta1 e.m g
    let v := mix x.beta2 e.v (g.mul g)
    let q := (((f x.bc2).mul v).sqrt).r32
    let d := (q.acc (f x.eps)).r32
    let u := if d.isZero then Num.zero else (((f x.bc1).mul m).div d).r32
    (m, v, down (u.acc ((f x.wd).mul e.w)))
  | _ =>
    let u := (mix x.beta1 e.m g).signum
    (mix x.beta2 e.m g, e.v, down (u.acc ((f x.wd).mul e.w)))

/-- The format the weight is rounded to: FP32 for a split master. -/
def Wupd.target (x : Wupd) : FFmt := if x.split then fp32 else (floatFmt x.wfmt).getD fp32

/-- The weight code of element i as stored: both halves of a split master. -/
def State.weightCode (s : State) (t : TileId) (x : Wupd) (i : Nat) : Nat :=
  if x.split then s.storeLe t (x.w + 2 * i) 2 * 2 ^ 16 + s.storeLe t (x.wlo + 2 * i) 2 else s.storeLe t (x.w + i * x.esW) x.esW

/-- What an element's update writes. -/
structure ElemOut where
  w   : Nat × Cnt
  gl  : Nat × Cnt
  m   : Nat
  v   : Nat
  hit : Bool            -- gradient other than ±0 and changed weight bits (08 R197)
  deriving DecidableEq, Repr

/-- Element i of a WUPD with clip factor c. -/
def State.updElem (s : State) (t : TileId) (x : Wupd) (c : Num) (i : Nat) : ElemOut :=
  let g := s.gradElem t x.g x.gfmt (scaleNum x.gscale) i
  let wc := s.weightCode t x i
  let w := x.target.decode wc
  let ga := if x.glean then (fp16.decode (s.storeLe t (x.gl + 2 * i) 2)).scale2 (-(signedOf 8 x.glx)) else Num.zero
  let r := x.optStep { g := g, w := w, c := c, m := fp32.decode (s.storeLe t (x.m1 + 4 * i) 4),
                       v := if x.opt = 1 then fp32.decode (s.storeLe t (x.m2 + 4 * i) 4) else Num.zero }
  let y := (w.acc ga).acc r.2.2
  let k := s.core t
  let mode : RMode := if x.tcls then .rne else .sr (ditherOf k.seed k.step x.tid 0x8000 (BitVec.ofNat 64 (x.ebase + i)))
  let wo := x.target.convert mode false y
  let wn := x.target.decode wo.1
  { w := wo
    gl := if y.isFin && wn.isFin then fp16.convert .rne false ((y.acc wn.neg).scale2 (signedOf 8 x.glx)) else (0, .none)
    m := fp32.code r.1
    v := fp32.code r.2.1
    hit := !g.isZero && !decide (wo.1 = wc) }

/-- The writes of element i. -/
def Wupd.elemWrites (x : Wupd) (i : Nat) (o : ElemOut) : List (Nat × List Byte) :=
  (if x.split then [(x.w + 2 * i, leBytes 2 (o.w.1 / 2 ^ 16)), (x.wlo + 2 * i, leBytes 2 o.w.1)]
    else [(x.w + i * x.esW, leBytes x.esW o.w.1)]) ++
    (x.m1 + 4 * i, leBytes 4 o.m) :: (if x.opt = 1 then [(x.m2 + 4 * i, leBytes 4 o.v)] else []) ++
    (if x.glean then [(x.gl + 2 * i, leBytes 2 o.gl.1)] else [])

/-- The clip factor of an operation, and whether its norm overflowed. -/
def State.clipOf (s : State) (t : TileId) (x : Wupd) : Num × Bool :=
  if x.clip = 0 then (Num.one, false) else
  let a := if x.clip = 1 then (s.tile t).norms[x.clipn] else s.addSquares t x.g x.n x.gfmt (scaleNum x.gscale) Norm.reset
  let r := a.root
  (clipFactor r.1 (fp32.decode x.maxn), r.2)

/-- The watch entry of an operation (08 R197). -/
def State.touchWatch (s : State) (p : Pid) (x : Wupd) (hit : Bool) : State :=
  if !x.watch then s else
  s.modPart p fun y => { y with watch := y.watch.map fun e =>
    if e.widx = x.widx then { e with touched := true, nz := e.nz || hit } else e }

/-- A weight update runs: every element is written, RANGE counted. -/
def State.runWupd (s : State) (t : TileId) (p : Pid) (x : Wupd) : State :=
  let c := s.clipOf t x
  let os := (List.range x.n).map fun i => s.updElem t x c.1 i
  let ws := (os.zipIdx).flatMap fun (o : ElemOut × Nat) => x.elemWrites o.2 o.1
  let s := ws.foldl (fun s (w : Nat × List Byte) => s.storeWrite t w.1 w.2) s
  let s := s.modTile t fun y =>
    let k := if c.2 then y.cnt.count .range else y.cnt
    { y with cnt := os.foldl (fun k (o : ElemOut) => (k.count o.w.2).count (if x.glean then o.gl.2 else .none)) k }
  s.touchWatch p x (os.any fun o => o.hit)

/-- A norm accumulator changes; INF or NAN becoming set sets the flag of an open region (08 R201). -/
def Tile.setNorm (y : Tile) (a : Fin 4) (n : Norm) : Tile :=
  let old := y.norms[a]
  { y with norms := y.norms.set a n, core := y.core.flagIf ((n.inf && !old.inf) || (n.nan && !old.nan)) }

/-- An update-queue operation runs. -/
def State.runUpd (s : State) (t : TileId) (p : Pid) (op : UpdOp) : State :=
  match op with
  | .wupd d => s.runWupd t p (wupdOf d)
  | .nclr a => s.modTile t fun y => { y with norms := y.norms.set a Norm.reset }
  | .nsq addr count scale gfmt a =>
    let n := s.addSquares t addr count gfmt.toNat (fp32.decode (fp32.code (fp64.decode scale.toNat))) (s.tile t).norms[a]
    s.modTile t fun y => y.setNorm a n
  | .nst addr a => s.storeWrite t addr ((s.tile t).norms[a]).bytes
  | .nadd addr a =>
    let n := ((s.tile t).norms[a]).join (normOf (s.storeBytes t addr 128))
    s.modTile t fun y => y.setNorm a n

/-- Regions an operation writes and reads. -/
def UpdOp.writes : UpdOp → List (Nat × Nat)
  | .wupd d => (wupdOf d).writes
  | .nst addr _ => [(addr, 128)]
  | _ => []

def UpdOp.reads : UpdOp → List (Nat × Nat)
  | .wupd d => (wupdOf d).reads
  | .nsq addr count _ gfmt _ => [(addr, count * fmtBytes gfmt.toNat)]
  | .nadd addr _ => [(addr, 128)]
  | _ => []

end Sys2Proof.Machine
end

