-- ==== Sys2Proof/Machine/Holds.lean ====
section
/-!
DEFINITION. Sys2Proof/Machine/Holds.lean: which queued work of a tile waits for which (03 R63; 05 R131; 07 R161, R164; 08 R186). Overlap is
judged on 4 KiB pages of the tile store.
-/
namespace Sys2Proof.Machine

/-- Two ranges touch a common page. -/
def samePage (x y : Nat × Nat) : Bool :=
  decide (0 < x.2) && decide (0 < y.2) && decide (x.1 / 4096 ≤ (y.1 + y.2 - 1) / 4096) && decide (y.1 / 4096 ≤ (x.1 + x.2 - 1) / 4096)

def pagesMeet (xs ys : List (Nat × Nat)) : Bool := xs.any fun x => ys.any fun y => samePage x y

def QDma.dma (q : QDma) : Dma := dmaOf q.desc

/-- The offload region that the tile's solve engine holds (05 R131). -/
def State.heldRegion (s : State) (t : TileId) : Option (Nat × Nat) :=
  match (s.engine (sheafOf t)).held with
  | none => none
  | some h => if h.1.contains t.val then some (h.2.1, h.2.2) else none

def State.inHeld (s : State) (t : TileId) (rs : List (Nat × Nat)) : Bool :=
  match s.heldRegion t with
  | none => false
  | some h => rs.any fun r => decide (r.1 < h.1 + h.2) && decide (h.1 < r.1 + r.2)

/-- Update operations issued before a number whose regions meet pages. -/
def Tile.updMeets (y : Tile) (seq : Nat) (rs : List (Nat × Nat)) : Bool :=
  y.upds.any fun u => decide (u.seq < seq) && pagesMeet (u.op.writes ++ u.op.reads) rs

/-- A MOP waits for the transfers and update operations issued before it that touch its regions. -/
def Tile.mopHeld (y : Tile) (q : QMop) : Bool :=
  (y.dmas.any fun d => decide (d.seq < q.seq) &&
    (pagesMeet d.dma.storeWrites q.regions || pagesMeet d.dma.storeReads [q.regionC])) || y.updMeets q.seq q.regions

/-- A transfer waits for MOPs and update operations issued before it, and while its region is held. -/
def State.dmaHeld (s : State) (t : TileId) (d : QDma) : Bool :=
  let y := s.tile t
  (y.mops.any fun q => decide (q.seq < d.seq) &&
    (pagesMeet d.dma.storeWrites q.regions || pagesMeet d.dma.storeReads [q.regionC])) ||
    y.updMeets d.seq (d.dma.storeWrites ++ d.dma.storeReads) || s.inHeld t (d.dma.storeWrites ++ d.dma.storeReads)

/-- An update operation waits for earlier MOPs and transfers that write pages of its regions. -/
def Tile.updHeld (y : Tile) (u : QUpd) : Bool :=
  (y.mops.any fun q => decide (q.seq < u.seq) && pagesMeet [q.regionC] (u.op.writes ++ u.op.reads)) ||
    y.dmas.any fun d => decide (d.seq < u.seq) && pagesMeet d.dma.storeWrites (u.op.writes ++ u.op.reads)

/-- A load or store of the core waits (07 R164, 08 R186). -/
def State.accessHeld (s : State) (t : TileId) (store : Bool) (r : Nat × Nat) : Bool :=
  let y := s.tile t
  (y.dmas.any fun d => pagesMeet d.dma.storeWrites [r] || (store && pagesMeet d.dma.storeReads [r])) ||
    (y.mops.any fun q => if store then pagesMeet q.regions [r] else pagesMeet [q.regionC] [r]) ||
    y.updMeets y.core.seq [r] || s.inHeld t [r]

end Sys2Proof.Machine
end

