-- ==== Sys2Proof/Machine/ArrayCmds.lean ====
section
/-!
DEFINITION. Sys2Proof/Machine/ArrayCmds.lean: MOPADR, MOP, MWAIT; block loads, passes and completion of a MOP; offload MOPs; the load level
of an array (03 R61 to R84; 04 R92, R93; 05 R131; 07 R159, R160).
-/
namespace Sys2Proof.Machine

/-! ### Issue (07 R160) -/

/-- MOPADR: the address latch takes three offsets. -/
def execMopadr (t : TileId) (rd rs1 rs2 : RegId) (s : State) : Host.Outcome State Fault Refusal :=
  coreInstr "MOPADR" (.mopadr t rd rs1 rs2) t s fun s => s.retire t fun c =>
    { c with latch := some ((c.rg rd).setWidth 32, (c.rg rs1).setWidth 32, (c.rg rs2).setWidth 32) }

/-- The cause of the first check a MOP fails (03 R61, R62; 05 R131). -/
def State.mopCheck (s : State) (t : TileId) (q : QMop) : Option Nat :=
  let rs := [q.regionC, (q.aAddr, q.mop.parts * q.mop.sizeA), (q.bAddr, q.mop.parts * q.mop.sizeB)]
  let c := q.regionC
  let checks : List (Bool × Nat) :=
    [ (q.mop.bad, 0x5),
      (rs.any fun (r : Nat × Nat) => decide (r.1 % 64 ≠ 0), 0x1),
      (rs.any fun (r : Nat × Nat) => decide (tileSize < r.1 + r.2), 0x2),
      ((rs.drop 1).any fun (r : Nat × Nat) => decide (r.1 < c.1 + c.2) && decide (c.1 < r.1 + r.2), 0x3),
      (s.inHeld t q.regions, 0x4) ]
  (checks.find? (·.1)).map (·.2)

/-- The MOP an instruction issues: its record, the latched addresses in place of its own. -/
def State.newMop (s : State) (t : TileId) (off : Nat) : QMop :=
  let c := s.core t
  let r : BitVec 256 := BitVec.ofNat 256 (s.storeLe t off 32)
  let a := match c.latch with
    | none => recordAddrs r
    | some l => (l.1.toNat, l.2.1.toNat, l.2.2.toNat)
  { record := r, aAddr := a.1, bAddr := a.2.1, cAddr := a.2.2, offset := off, pc := c.pc, seq := c.seq, passes := 0, loads := 0,
    issued := (s.tile t).array.ac, lastAt := 0 }

/-- MOP: the offset, then the record and its regions are checked; the MOP joins the queue of 8. -/
def execMop (t : TileId) (rs1 : RegId) (s : State) : Host.Outcome State Fault Refusal :=
  coreWait "MOP" (.mop t rs1) t s (decide ((s.tile t).mops.length < 8)) fun s =>
    let off := ((s.core t).rg rs1).toNat
    if off % 32 ≠ 0 ∨ tileSize < off + 32 then s.coreFault t 0x4 off else
    let q := s.newMop t off
    let s := s.modCore t fun c => { c with latch := none }
    match s.mopCheck t q with
    | some cause => s.tileFault t .mop cause off q.pc false
    | none =>
      s.modTile t fun y =>
        { y with mops := y.mops ++ [q], core := { y.core.next with missued := y.core.missued + 1, seq := y.core.seq + 1 } }

/-- MWAIT: waits until at most n issued MOPs are incomplete. -/
def execMwait (t : TileId) (n : BitVec 6) (s : State) : Host.Outcome State Fault Refusal :=
  coreWait "MWAIT" (.mwait t n) t s (decide ((s.tile t).mops.length ≤ n.toNat)) fun s => s.retire t id

/-! ### Passes (03 R66, R68, R77 to R79). Every event of an array carries its count of the array clock, which never runs back -/

/-- The key by which R66 compares a MOP's first block with the block held. -/
def QMop.key (q : QMop) : BlockKey :=
  { bAddr := q.bAddr, amode := q.mop.amode, fmtB := q.mop.fmtB, index := q.mop.blockIndex (q.mop.pass 0) }

/-- Passes of a MOP. -/
def QMop.total (q : QMop) : Nat := q.mop.passes

/-- The MOP that loads next: the oldest with a block not yet loaded. -/
def Tile.loading (y : Tile) : Option QMop := y.mops.find? fun q => decide (q.loads < q.total)

/-- The MOP that streams next: the oldest with a pass not yet started. -/
def Tile.streaming (y : Tile) : Option QMop := y.mops.find? fun q => decide (q.passes < q.total)

/-- The first block of the MOP is resident from the MOP before it (R66). -/
def Tile.resident (y : Tile) (q : QMop) : Bool :=
  y.array.keep && decide (y.array.active.map (·.key) = some q.key) && decide (q.passes = 0) && decide (q.loads = 0)

def quadMode (q : QMop) : Bool := decide (lanes q.mop.amode = 4)

/-- The count at which the last pass started has streamed its last row, and at which its slot ends. -/
def ArrayState.streamEnd (a : ArrayState) : Nat := match a.slot with | none => 0 | some x => x.1 + x.2
def ArrayState.slotEnd (a : ArrayState) : Nat := match a.slot with | none => 0 | some x => x.1 + max x.2 96

/-- Every pass of the MOPs before this one has started. -/
def Tile.turnOf (y : Tile) (q : QMop) : Bool := y.mops.all fun x => decide (q.seq ≤ x.seq) || decide (x.passes = x.total)

/-- The lane count changes from the MOP before (R78). -/
def Tile.lanesChange (y : Tile) (q : QMop) : Bool :=
  match (y.mops.filter fun x => decide (x.seq < q.seq)).getLast? with
  | some x => quadMode x != quadMode q
  | none => match y.array.lastQuad with | none => false | some b => b != quadMode q

/-- A change of lane count holds a first block until the last pass before it has streamed. -/
def Tile.waitsLanes (y : Tile) (q : QMop) : Bool := decide (q.loads = 0) && y.lanesChange q

/-- The count from which a MOP's next block loads: its issue, the free shadow register, the end of R78's wait. -/
def Tile.loadFrom (y : Tile) (q : QMop) : Nat :=
  max (max y.array.freeAt q.issued) (if y.waitsLanes q then y.array.streamEnd else 0)

def Tile.updMop (y : Tile) (q : QMop) (f : QMop → QMop) : Tile :=
  { y with mops := y.mops.map fun x => if x.seq = q.seq then f x else x }

/-- BLOCK_LOAD: the last row of the next block enters the shadow register, 96 ac after the load began. -/
def execBlockLoad (x : ArrayAt) (s : State) : Host.Outcome State Fault Refusal :=
  let t := x.tile
  let ac := x.ac
  let y := s.tile t
  match y.loading with
  | none => notDue "BLOCK_LOAD"
  | some q =>
    whenDue (y.array.shadow.isNone && !y.resident q && !(decide (q.loads = 0) && y.mopHeld q) && !(y.waitsLanes q && !y.turnOf q) &&
        decide (y.loadFrom q + 96 ≤ ac) && decide (y.array.ac ≤ ac)) "BLOCK_LOAD"
      (s.modTile t fun y =>
        let y := y.updMop q fun x => { x with loads := x.loads + 1 }
        { y with array := { y.array with ac := ac, shadow := some (s.weightBlock t q q.loads) } })

/-- What a pass's first feed at a count leaves in the array; `kept` when its block was resident. -/
def ArrayState.feed (a : ArrayState) (q : QMop) (kept : Bool) (ac : Nat) : ArrayState :=
  { a with
    ac := ac
    shadow := if kept then a.shadow else none
    freeAt := if kept then a.freeAt else ac
    active := if kept then a.active else a.shadow
    slot := some (ac, q.mop.m)
    keep := q.mop.wkeep && decide (q.total = 1)
    lastQuad := some (quadMode q)
    hold := false, ramp := false, stagger := none }

/-- PASS_START: the next pass feeds once its block is loaded (or resident), the slot of the pass before it is over, the load level
is 8, the stagger of a release has passed and no hold is left. A pass that fails a check is re-run from the same inputs, which
only counts (18 R411). -/
def execPassStart (x : ArrayAt) (reruns : Fin 3) (s : State) : Host.Outcome State Fault Refusal :=
  let t := x.tile
  let ac := x.ac
  let y := s.tile t
  match y.streaming with
  | none => notDue "PASS_START"
  | some q =>
    let kept := y.resident q
    let wait := match y.array.stagger with | none => 0 | some n => y.array.relAt + n
    whenDue ((kept || (y.array.shadow.isSome && decide (q.loads = q.passes + 1))) && decide (y.array.level = 8) && !y.mopHeld q &&
        decide (y.array.slotEnd ≤ ac) && decide (wait ≤ ac) && decide (y.array.ac ≤ ac)) "PASS_START"
      ((s.countReruns t reruns.val).modTile t fun y =>
        let y := y.updMop q fun z => { z with passes := z.passes + 1, loads := max z.loads (z.passes + 1), lastAt := ac }
        { y with array := y.array.feed q kept ac })

/-- MOP_COMPLETE: the last result of the oldest MOP is written, M + 202 ac after the first feed of its last pass (R79). -/
def execMopComplete (x : ArrayAt) (s : State) : Host.Outcome State Fault Refusal :=
  let t := x.tile
  let ac := x.ac
  match (s.tile t).mops with
  | [] => notDue "MOP_COMPLETE"
  | q :: rest =>
    if q.passes < q.total ∨ ac < q.lastAt + q.mop.m + 202 ∨ ac < (s.tile t).array.ac then notDue "MOP_COMPLETE" else
    let s := (s.runMop t q true).modTile t fun y =>
      { y with mops := rest, core := { y.core with mdone := y.core.mdone + 1 }, array := { y.array with ac := ac } }
    .next (match s.partOfTile t with | none => s | some p => s.touchEnd p)

/-- A record the engine may present: an FX18 MOP of digits as FX32 with FX64 results, scales of 1.0 and no other option, whose regions
lie in the held region (05 R129, R131). -/
def State.offloadOk (s : State) (t : TileId) (q : QMop) : Bool :=
  match s.heldRegion t with
  | none => false
  | some h =>
    let x := q.mop
    decide (x.amode = 3) && decide (x.fmtA = 8) && decide (x.fmtB = 8) && decide (x.fmtC = 9) && !x.cplx && !x.bad &&
      decide (s.mopScales t x = (0x3F800000, 0x3F800000, 0x3F800000)) &&
      (q.regionC :: q.inputs.take 2).all fun r => decide (r.1 % 64 = 0) && decide (h.1 ≤ r.1) && decide (r.1 + r.2 ≤ h.1 + h.2)

/-- The count from which the engine's MOP may feed: after the slot of the last pass, its block loaded in 96 ac (03 R77, R78). -/
def ArrayState.offloadFrom (a : ArrayState) : Nat :=
  max a.slotEnd ((if a.lastQuad = some true then a.streamEnd else a.freeAt) + 96)

/-- What an offload MOP leaves in the array: no resident block, a free shadow register, its last pass as the last one started. -/
def ArrayState.offloaded (a : ArrayState) (x : Mop) (ac : Nat) : ArrayState :=
  let last := ac + (x.passes - 1) * max x.m 96
  { a with ac := ac, shadow := none, freeAt := last, active := none, slot := some (last, x.m), keep := false, lastQuad := some false }

/-- The MOP that an offload record stands for. -/
def offloadMop (record : BitVec 256) : QMop :=
  let a := recordAddrs record
  { record := record, aAddr := a.1, bAddr := a.2.1, cAddr := a.2.2, offset := 0, pc := 0, seq := 0, passes := 0, loads := 0,
    issued := 0, lastAt := 0 }

/-- OFFLOAD_MOP_START: at a boundary between MOPs the array takes the engine's MOP ahead of the queue; it changes no count and leaves
no block resident. A block that the next queued MOP had loaded is loaded again (log 79). -/
def execOffloadMopStart (x : ArrayAt) (record : BitVec 256) (s : State) : Host.Outcome State Fault Refusal :=
  let t := x.tile
  let ac := x.ac
  let q := offloadMop record
  let y := s.tile t
  let boundary := y.mops.all fun x => decide (x.passes = 0) || decide (x.passes = x.total)
  whenDue (boundary && s.offloadOk t q && decide (y.array.level = 8) && decide (y.array.offloadFrom ≤ ac) && decide (y.array.ac ≤ ac))
    "OFFLOAD_MOP_START"
    ((s.runMop t q false).modTile t fun y =>
      { y with mops := y.mops.map fun x => if x.passes = 0 then { x with loads := 0 } else x
               array := y.array.offloaded q.mop ac })

/-! ### Load level (03 R80 to R84) -/

/-- The array has work: its next MOP is not held (R63), or its engine holds an offload region here and may present one (log 45). -/
def State.arrayWork (s : State) (t : TileId) : Bool :=
  (match (s.tile t).streaming with | none => false | some q => !(s.tile t).mopHeld q) || (s.heldRegion t).isSome

def ArrayState.hinted (a : ArrayState) : Bool := a.hint.isSome && !a.hintOver

/-- The level rises: a MOP waits and no hint is active, or a release found the level below 8. -/
def ArrayState.rises (a : ArrayState) (work : Bool) : Bool := decide (a.level ≠ 8) && (a.ramp || (work && !a.hinted))

/-- The level falls: nothing streams or waits to, no hint is active, no release holds it. -/
def ArrayState.falls (a : ArrayState) (work : Bool) : Bool :=
  decide (a.level ≠ 0) && !work && !a.hinted && !a.hold && !a.ramp

/-- The count from which the next step is due: 16 ac after the last one, and after what began the change: a release, the issue of the
waiting MOP, or a gap of 64 ac. -/
def State.stepFrom (s : State) (t : TileId) : Nat :=
  let a := (s.tile t).array
  let work := s.arrayWork t
  16 + max a.stepAt (if a.rises work then
      (if a.ramp then a.relAt else match (s.tile t).streaming with | none => 0 | some q => q.issued)
    else a.streamEnd + 64)

/-- One step up; at level 8 a release's ramp becomes a hold, and the stagger counts from there. -/
def ArrayState.stepUp (a : ArrayState) (ac : Nat) : ArrayState :=
  let l : Fin 9 := a.level + 1
  let top := decide (l = 8)
  { a with ac := ac, level := l, stepAt := ac, ramp := a.ramp && !top, hold := a.hold || (a.ramp && top)
           relAt := if a.ramp && top then ac else a.relAt }

def ArrayState.stepDown (a : ArrayState) (ac : Nat) : ArrayState := { a with ac := ac, level := a.level - 1, stepAt := ac }

/-- LOAD_LEVEL_STEP: one step of 16 ac, up or down (Table Load-level control). -/
def execLoadLevelStep (x : ArrayAt) (s : State) : Host.Outcome State Fault Refusal :=
  let t := x.tile
  let ac := x.ac
  let a := (s.tile t).array
  let work := s.arrayWork t
  whenDue ((a.rises work || a.falls work) && decide (s.stepFrom t ≤ ac) && decide (a.ac ≤ ac)) "LOAD_LEVEL_STEP"
    (s.modTile t fun y => { y with array := if a.rises work then y.array.stepUp ac else y.array.stepDown ac })

/-- HINT_RAMP_STEP: one step of 256 gt after an imminent-release hint, up to level 8. -/
def execHintRampStep (x : TileAt) (s : State) : Host.Outcome State Fault Refusal :=
  let t := x.tile
  let s := s.at_ x.now
  let y := s.tile t
  whenDue (y.array.hinted && decide (y.array.level ≠ 8) && decide (y.array.hintNext ≤ s.now)) "HINT_RAMP_STEP"
    (s.modTile t fun y => { y with array := { y.array with level := y.array.level + 1, hintNext := s.now + 256 } })

/-- HINT_LAPSE: 4,096 gt after a hint without its release the gap rule resumes. -/
def execHintLapse (t : TileId) (now : Nat) (s : State) : Host.Outcome State Fault Refusal :=
  let s := s.at_ now
  match (s.tile t).array.hint with
  | none => notDue "HINT_LAPSE"
  | some h =>
    whenDue (!(s.tile t).array.hintOver && decide (h + 4096 ≤ s.now)) "HINT_LAPSE"
      (s.modTile t fun y => { y with array := { y.array with hintOver := true } })

end Sys2Proof.Machine
end

