-- ==== Sys2Proof/Machine/Sync.lean ====
section
/-!
DEFINITION. Sys2Proof/Machine/Sync.lean: sync objects and their operations, waiting and waking, barriers and their releases,
replay-region outcomes (10 R242 to R258; 08 R202, R203, R473; 17 R399).
-/
namespace Sys2Proof.Machine

/-! ### Object writes (10 R245) -/

/-- The partition that holds an object. -/
def State.partOfObj (s : State) (o : Nat) : Option Pid :=
  allParts.find? fun p => decide ((s.part p).entry.st ≠ .free) && (s.part p).hasObj o

def State.objBusy (s : State) (p : Pid) (o : Nat) : Bool :=
  (s.sync.waits.any fun w => decide (w.obj = o)) ||
    s.sync.sent.any fun x => decide (x.pid = p) && decide (x.remote = none) && decide ((s.part p).objOf x.index.toNat = some o) &&
      match x.op with
      | .arrive _ => true
      | _ => false

/-- The code of a write of an object (10 R245). -/
def State.objWriteCheck (s : State) (p : Pid) (o : Nat) (x : BitVec 128) : Check :=
  firstFail [(s.fenced .syncBlock (o / 1024), eRetired), (s.objBusy p o, eBusy), (!objFieldOk x, eField)]

/-! ### References (10 R243) -/

/-- Reserved bits and REM = 0 with a module ID. -/
def refBad (r : Word) : Bool :=
  decide (bits r 31 16 ≠ 0) || decide (bits r 62 48 ≠ 0) || (!bit r 63 && decide (bits r 47 32 ≠ 0))

def refIndex (r : Word) : BitVec 16 := BitVec.ofNat 16 (bits r 15 0)

/-- The module a reference names; none for the partition's own object, also through the module's own ID. -/
def State.refRemote (s : State) (r : Word) : Option ModId :=
  if bit r 63 && decide (bits r 47 32 ≠ s.links.modId.toNat) then some (BitVec.ofNat 16 (bits r 47 32)) else none

/-! ### Replay log (08 R203) -/

/-- A byte of the silo with the module's own held records over it. -/
def State.recByte (s : State) (p : Pid) (a : Nat) : Byte :=
  let d := (s.part p).devAddr a
  (s.bind.heldWr.foldl (fun r w => if w.1 ≤ d ∧ d < w.1 + w.2.length then w.2[d - w.1]?.getD r else r) (s.siloByte p a))

def State.recLe (s : State) (p : Pid) (a n : Nat) : Nat := leNat ((List.range n).map fun i => s.recByte p (a + i))

/-- A replay-log entry: word 0 of the rung entered or overflowed. -/
def rlogWord (r : RegionRec) (rung : Nat) (ovr rcp : Bool) : Nat :=
  r.rid * 2 ^ 48 + rung * 2 ^ 46 + b2n ovr * 2 ^ 45 + b2n rcp * 2 ^ 44 + (r.codes[rung]?.getD 0) * 2 ^ 36

/-- The LEAD tile writes an entry: the next slot, or LOST when the log is full; none when its header cannot be read. -/
def State.writeRlog (s : State) (p : Pid) (x : Program) (l : Launch) (w0 : Nat) : Option State :=
  match imgFind x.image sRlog with
  | none => some s
  | some sec =>
    if s.siloBad p sec.addr 64 then none else
    let n := s.recLe p sec.addr 8
    let lost := s.recLe p (sec.addr + 8) 8
    if n < sec.count then
      if s.partialBad p (sec.addr + 64 + 16 * n) 16 then none else
      some ((s.siloRecord p (sec.addr + 64 + 16 * n) (leBytes 8 w0 ++ leBytes 8 l.step.toNat)).siloRecord p sec.addr
        (leBytes 8 (n + 1)))
    else some (s.siloRecord p (sec.addr + 8) (leBytes 8 (lost + 1)))

/-- An uncorrectable access of an instruction (07 R155, 18 R415). -/
def State.coreUncorrectable (s : State) (t : TileId) (p : Pid) (a : Nat) : State :=
  (s.raiseUncorrectable (some p) ((s.part p).devAddr a)).coreFaultU t 0xA 0 true

/-! ### Region outcomes (08 R202) -/

/-- Every tile of the program stops issuing; work already issued, its sync operations among it, completes (OVA = 1). -/
def State.stopIssue (s : State) (p : Pid) : State :=
  let s := s.mapTiles (fun t => s.onPart p t && decide ((s.core t).status = .running ∨ (s.core t).status = .waiting)) fun y =>
    { y with core := { y.core with status := .halted, resume := none, region := none } }
  s.modPart p fun x => { x with launch := x.launch.map fun l => { l with ended := true } }

/-- A region overflowed at its top rung: the event and the launch's code. -/
def State.raiseOverflow (s : State) (p : Pid) (rid rung : Nat) : State :=
  let step := ((s.part p).launch.map (·.step.toNat)).getD 0
  (s.raiseFn 0x0112 p (rid + rung * 2 ^ 16) step).modPart p fun y =>
    { y with launch := y.launch.map fun l => { l with overflow := true } }

/-- LEAD's part of an outcome: the log entry, and at the top rung the event and the launch's code. -/
def State.leadOutcome (s : State) (t : TileId) (p : Pid) (x : Program) (l : Launch) (r : RegionRec) (rung : Nat) (ovr : Bool) :
    State :=
  match s.writeRlog p x l (rlogWord r rung ovr (s.core t).span) with
  | none => s.coreUncorrectable t p ((imgFind x.image sRlog).map (·.addr) |>.getD 0)
  | some s => if ovr then s.raiseOverflow p r.rid rung else s

/-- A participant acts on the ORed flag. -/
def State.regionOutcome (s : State) (t : TileId) (flag : Bool) : State :=
  match (s.core t).region, s.progOfTile t with
  | some g, some (p, x) =>
    match (imgRegions x.image).find? fun r => decide (r.rid = g.rid.toNat), (s.part p).launch with
    | some r, some l =>
      let lead := decide (x.logical t = some r.lead)
      if !flag then s.modCore t fun c => { c with status := .running, resume := none, region := none, pc := c.pc + 4 }
      else if g.rung < r.nrm1 then
        let target := (g.table[g.rung + 1]?.getD 0).toNat
        if target % 4 ≠ 0 ∨ s.codeSize t ≤ target then s.coreFault t 0x8 0 else
        let s := if lead then s.leadOutcome t p x l r (g.rung + 1) false else s
        if (s.core t).status ≠ .waiting then s else
        s.modCore t fun c =>
          { c with status := .running, resume := none, g := g.snapG, f := g.snapF, latch := none, pc := target,
                   region := some { g with rung := g.rung + 1, flag := false } }
      else
        let s := if lead then s.leadOutcome t p x l r g.rung true else s
        if (s.core t).status ≠ .waiting then s
        else if r.ova then s.stopIssue p
        else s.modCore t fun c => { c with status := .running, resume := none, region := none, pc := c.pc + 4 }
    | _, _ => s
  | _, _ => s

/-! ### Resuming a waiter (10 R247, R249) -/

/-- Status word of a sync instruction. -/
def syncStatus (code : BitVec 16) (flag : Bool) : Word := BitVec.ofNat 64 (code.toNat + b2n flag * 2 ^ 16)

/-- A waiter's operation ended with a code, or with a release and its FLAG. -/
def State.resume (s : State) (w : Waiter) (code : BitVec 16) (flag : Bool) : State :=
  match w with
  | .tile t =>
    match (s.core t).resume with
    | some (.status rd) =>
      s.modCore t fun c => { (c.wg rd (syncStatus code flag)) with status := .running, resume := none, pc := c.pc + 4 }
    | some .rcheck => if code = cOk then s.regionOutcome t flag else s.coreFault t 0xC 0
    | none => s
  | .host n cid =>
    match s.findCmd n cid with
    | none => s
    | some c => s.complete n c code 0 (b2n flag)
  | .link p _ => s.modPart p fun x =>
      { x with launch := x.launch.map fun l => { l with lwait := l.lwait.map fun v => (v.1, some code) } }

/-- Waiters of an object end with a code. -/
def State.failWaiters (s : State) (o : Nat) (code : BitVec 16) : State :=
  let ws := s.sync.waits.filter fun w => decide (w.obj = o)
  let s := { s with sync := { s.sync with waits := s.sync.waits.filter fun w => !decide (w.obj = o) } }
  ws.foldl (fun s w => s.resume w.who code false) s

/-! ### Waking (10 R246) -/

/-- Waiters whose condition holds after an operation are woken. -/
def State.wake (s : State) (o : Nat) : State :=
  let x := s.obj o
  if objKind x = 0 then
    let r := serveTakes s.sync.waits o (objCount x)
    let s := s.setObj o (objSet0 x (BitVec.ofNat 64 r.1))
    let s := { s with sync := { s.sync with waits := r.2.2 } }
    r.2.1.foldl (fun s w => s.resume w.who cOk false) s
  else
    let hit (w : SyncWait) : Bool := decide (w.obj = o) && condHolds w.op (objWord x)
    let ws := s.sync.waits.filter hit
    let s := { s with sync := { s.sync with waits := s.sync.waits.filter fun w => !hit w } }
    ws.foldl (fun s w => s.resume w.who cOk false) s

/-! ### The wait limit (10 R249, R258) -/

/-- The wait limit of a waiter's partition (10 R249). -/
def State.waitLimit (s : State) (w : Waiter) : Nat :=
  match w with
  | .tile t => match s.partOfTile t with | none => 0 | some p => (s.part p).waitLim.toNat
  | .host n _ => match s.partOfFn n with | none => 0 | some p => (s.part p).waitLim.toNat
  | .link p _ => (s.part p).waitLim.toNat

/-- Waits at an object that reached their limit before an event stamped t: what the event would satisfy comes too late for them. -/
def State.expireWaits (s : State) (o t : Nat) : State :=
  let gone (w : SyncWait) : Bool := decide (w.obj = o) && decide (w.issue + s.waitLimit w.who ≤ t)
  let ws := s.sync.waits.filter gone
  let s := { s with sync := { s.sync with waits := s.sync.waits.filter fun w => !gone w } }
  ws.foldl (fun s w => s.resume w.who eTimeout false) s

/-! ### Releases (10 R252 to R254) -/

/-- The release goes to the children recorded in this generation; entries of earlier generations are dropped. -/
def State.forwardRelease (s : State) (p : Pid) (o : Nat) (rel : Release) : State :=
  let kids := s.sync.children.filter fun c => decide (c.1 = o) && decide (c.2.2 = rel.gen)
  let s := kids.foldl (fun s c => s.send p c.2.1 (.release ((s.part p).indexOf o) rel)) s
  { s with sync := { s.sync with children := s.sync.children.filter fun c =>
      !(decide (c.1 = o) && !decide (c.2.2 = rel.gen)) } }

/-- The waiter is the LEAD tile of the region it checks (08 R199). -/
def State.isLead (s : State) : Waiter → Bool
  | .tile t =>
    match (s.core t).region, s.progOfTile t with
    | some g, some (_, x) =>
      (imgRegions x.image).any fun r => decide (r.rid = g.rid.toNat) && decide (x.logical t = some r.lead)
    | _, _ => false
  | _ => false

/-- The partition, region and rung of a tile that checks a region at its top rung. -/
def State.topCheck (s : State) (w : Waiter) : Option (Pid × Nat × Nat) :=
  match w with
  | .tile t =>
    match (s.core t).region, s.progOfTile t with
    | some g, some (p, x) =>
      if decide ((s.core t).resume = some .rcheck) &&
          (imgRegions x.image).any fun r => decide (r.rid = g.rid.toNat) && decide (r.nrm1 ≤ g.rung) then some (p, g.rid.toNat, g.rung)
      else none
    | _, _ => none
  | _ => none

/-- Regions that overflow at a release in which their LEAD tile takes no part: no log entry, but the event and the launch's code. -/
def State.overflowUnled (s : State) (ws : List Waiter) (flag : Bool) : State :=
  let led := (ws.filter s.isLead).filterMap s.topCheck
  let un := (ws.filterMap s.topCheck).eraseDups.filter fun x => !led.any fun y => decide (y.1 = x.1) && decide (y.2.1 = x.2.1)
  if flag then un.foldl (fun s x => s.raiseOverflow x.1 x.2.1 x.2.2) s else s

/-- The barrier starts its next generation at stamp t; the LEAD tile first, every local waiter resumes with FLAG as released. -/
def State.releaseNow (s : State) (o : Nat) (flag : Bool) (t : Nat) : State :=
  let s := s.expireWaits o t
  let s := s.setObj o (objRelease (s.obj o))
  let isArr (w : SyncWait) : Bool := decide (w.obj = o) && match w.op with | .arrive _ => true | _ => false
  let ws := s.sync.waits.filter isArr
  let s := { s with sync := { s.sync with waits := s.sync.waits.filter fun w => !isArr w } }
  let s := s.overflowUnled (ws.map (·.who)) flag
  (ws.filter (fun w => s.isLead w.who) ++ ws.filter fun w => !s.isLead w.who).foldl (fun s w => s.resume w.who cOk flag) s

/-- PWR_SLACKn at a launch-barrier release with release count r (17 R399). -/
def Part.addSlack (x : Part) (o r : Nat) : Part :=
  let t := (x.lastArr.find? fun a => decide (a.1 = o)).map (·.2) |>.getD r
  let n := x.slackN.toNat + 1
  let k := x.slack.toNat + (r - t)
  { x with slackN := if n < 2 ^ 24 then BitVec.ofNat 24 n else 0xFFFFFF
           slack := if k < 2 ^ 40 then BitVec.ofNat 40 k else 0xFFFFFFFFFF }

/-- The coordinated release of a launch barrier with release count r at stamp t: participating arrays get it, waiters resume. -/
def State.releaseLaunch (s : State) (p : Pid) (o : Nat) (r : Nat) (flag : Bool) (t : Nat) : State :=
  let tiles := s.mappedTiles p
  let part (t : TileId) : Option Nat :=
    if s.sync.waits.any fun w => decide (w.obj = o) && decide (w.who = .tile t) then
      (tiles.find? fun x => decide (x.1 = t)).map (·.2)
    else none
  let ts : Vector Tile 128 := Vector.ofFn fun t =>
    match part t with
    | none => s.tile t
    | some l => { s.tile t with array := (s.tile t).array.receiveRelease l }
  let s := { s with tiles := ts }
  let s := s.modPart p fun x => x.addSlack o r
  s.releaseNow o flag t

/-- Tiles that wait at a launch barrier get the imminent-release hint (10 R253). -/
def State.hintWaiters (s : State) (o : Nat) : State :=
  s.mapTiles (fun t => s.sync.waits.any fun w => decide (w.obj = o) && decide (w.who = .tile t)) fun y =>
    { y with array := y.array.receiveHint s.now }

/-- A barrier's release takes effect on this module: forwarded at once; a launch barrier's waits for R, with its hint at
R - 2,048; a release after R is late: at once, counted, a timing intervention (10 R253, R254). -/
def State.takeRelease (s : State) (p : Pid) (o : Nat) (rel : Release) : State :=
  let s := s.forwardRelease p o rel
  match rel.r with
  | none => s.releaseNow o rel.flag s.now
  | some r =>
    if r < s.now then
      let s := { s with time := { s.time with lateRel := satAdd s.time.lateRel 1 } }
      (s.markPart p .tmg).releaseLaunch p o r rel.flag s.now
    else
      let late := decide (r < s.now + 2048)
      let s := if late then s.hintWaiters o else s
      { s with sync := { s.sync with
          pends := s.sync.pends ++ [{ obj := o, pid := p, r := r, flag := rel.flag, hinted := late }] } }

/-- The code that ended a peer of the partition's job. -/
def State.peerLost (s : State) (p : Pid) (m : ModId) : Option (BitVec 16) :=
  ((s.part p).peers.find? fun q => decide (q.id = m)).bind (·.lost)

/-- A barrier reached EXPECT at stamp t: the root or a local barrier releases, a member sends its arrival to its parent. -/
def State.barrierFull (s : State) (p : Pid) (o : Nat) : State :=
  let x := s.obj o
  if objRoot x || decide (objUp x = 0xFFFF) then
    s.takeRelease p o { gen := objGen x, flag := objFlag x,
                        r := if objLnch x then some (s.now + s.time.lead.toNat) else none }
  else if let some code := s.peerLost p (objUp x) then s.failWaiters o code
  else
    let id := s.sync.nextId
    let s := s.send p (objUp x) (.arrive ((s.part p).indexOf o) (objFlag x) (objGen x))
    { s with sync := { s.sync with
        nextId := id + 1
        remotes := s.sync.remotes ++ [{ id := id, pid := p, peer := objUp x, who := none, bar := some o }] } }

/-- A local arrival's stamp at a launch barrier is kept for PWR_SLACK (17 R399). -/
def Part.noteArrival (x : Part) (o now : Nat) : Part :=
  { x with lastArr := (o, now) :: x.lastArr.filter fun a => !decide (a.1 = o) }

/-! ### Operations (10 R246) -/

/-- An operation takes effect at an object of a partition: the state, and its code, or none when the operation waits. `who` is
the local issuer that a wait belongs to. -/
def State.applyOp (s : State) (p : Pid) (o : Nat) (op : SyncOp) (who : Option Waiter) (issue : Nat) :
    State × Option (BitVec 16) :=
  let s := s.expireWaits o s.now
  let x := s.obj o
  let wait (s : State) : State :=
    match who with
    | none => s
    | some w => { s with sync := { s.sync with
        waits := s.sync.waits ++ [{ obj := o, who := w, op := op, stamp := s.now, issue := issue }] } }
  if s.fenced .syncBlock (o / 1024) then (s, some eRetired) else
  match op with
  | .signal n =>
    if objKind x ≠ 0 then (s, some eField)
    else if 0xFFFFFFFF < objCount x + n.toNat then (s, some eRange)
    else ((s.setObj o (objSet0 x (BitVec.ofNat 64 (objCount x + n.toNat)))).wake o, some cOk)
  | .take n =>
    if objKind x ≠ 0 then (s, some eField)
    else if n.toNat ≤ objCount x ∧
        !(s.sync.waits.any fun w => decide (w.obj = o) && match w.op with | .take _ => true | _ => false) then
      (s.setObj o (objSet0 x (BitVec.ofNat 64 (objCount x - n.toNat))), some cOk)
    else (wait s, none)
  | .arrive f =>
    if objKind x ≠ 1 then (s, some eField)
    else
      let s := (wait (s.setObj o (objArrive x f)))
      let s := if objLnch x then s.modPart p fun y => y.noteArrival o s.now else s
      if objArrived x + 1 = objExpect x then (s.barrierFull p o, none) else (s, none)
  | .setf m =>
    if objKind x ≠ 2 then (s, some eField) else ((s.setObj o (objSet0 x (objWord x ||| m))).wake o, some cOk)
  | .clrf m =>
    if objKind x ≠ 2 then (s, some eField) else ((s.setObj o (objSet0 x (objWord x &&& ~~~m))).wake o, some cOk)
  | .wany _ | .wall _ =>
    if objKind x ≠ 2 then (s, some eField)
    else if condHolds op (objWord x) then (s, some cOk) else (wait s, none)
  | .adv v =>
    if objKind x ≠ 3 then (s, some eField)
    else ((s.setObj o (objSet0 x (if (objWord x).toNat < v.toNat then v else objWord x))).wake o, some cOk)
  | .wge _ =>
    if objKind x ≠ 3 then (s, some eField)
    else if condHolds op (objWord x) then (s, some cOk) else (wait s, none)

/-- An aggregated arrival of a child module (10 R252): recorded, at most 64 children in a generation. -/
def State.childArrive (s : State) (p : Pid) (o : Nat) (child : ModId) (flag : Bool) : State × BitVec 16 :=
  let s := s.expireWaits o s.now
  let x := s.obj o
  let mine := s.sync.children.filter fun c => decide (c.1 = o) && decide (c.2.2 = objGen x)
  if objKind x ≠ 1 then (s, eField)
  else if s.fenced .syncBlock (o / 1024) then (s, eRetired)
  else if 64 ≤ (mine.filter fun (c : Nat × ModId × BitVec 16) => !decide (c.2.1 = child)).length then (s, eCapacity)
  else
    let s := { s with sync := { s.sync with
      children := (s.sync.children.filter fun (c : Nat × ModId × BitVec 16) => !(decide (c.1 = o) && decide (c.2.1 = child))) ++ [(o, child, objGen x)] } }
    let s := s.setObj o (objArrive x flag)
    (if objArrived x + 1 = objExpect x then s.barrierFull p o else s, cOk)

/-- The issuer of an operation gets its code. -/
def State.answer (s : State) (who : Option Waiter) (code : Option (BitVec 16)) : State :=
  match who, code with
  | some w, some c => s.resume w c false
  | _, _ => s

/-! ### Lost peers (10 R257) -/

/-- Remote operations to a lost peer and waiters that depend on it end with a code: those of a barrier whose parent it is, or that still
expects its arrival in this generation, a child being known by the arrivals recorded (R252). -/
def State.syncPeerEnd (s : State) (p : Pid) (m : ModId) (code : BitVec 16) : State :=
  let gone := s.sync.remotes.filter fun r => decide (r.pid = p) && decide (r.peer = m)
  let s := { s with sync := { s.sync with remotes := s.sync.remotes.filter fun r => !(decide (r.pid = p) && decide (r.peer = m)) } }
  let s := gone.foldl (fun s r => s.answer r.who (some code)) s
  let up := (s.sync.objs.filter fun x => (s.part p).hasObj x.1 && decide (objKind x.2 = 1) && !objRoot x.2 &&
    decide (objUp x.2 = m)).map (·.1)
  let kid := (s.sync.children.filter fun c =>
    (s.part p).hasObj c.1 && decide (c.2.1 = m) && !decide (c.2.2 = objGen (s.obj c.1))).map (·.1)
  (up ++ kid).eraseDups.foldl (fun s o => s.failWaiters o code) s

/-! ### Sync instructions (10 R247, R248) -/

/-- The operation waits for its effect: TAKE, ARRIVE and the conditions. -/
def opWaits : SyncOp → Bool
  | .take _ | .arrive _ | .wany _ | .wall _ | .wge _ => true
  | _ => false

/-- The operation is not sent before the tile's earlier work has completed (10 R248). -/
def opOrdered : SyncOp → Bool
  | .signal _ | .arrive _ | .setf _ | .clrf _ | .adv _ => true
  | _ => false

/-- The core hands an operation to the fabric; with a status to wait for, or a waiting operation, it waits. -/
def State.sendSync (s : State) (t : TileId) (p : Pid) (ref : Word) (op : SyncOp) (r : Option Resume) : State :=
  let c := s.core t
  let x : SyncSent :=
    { id := s.sync.nextId, src := t, pid := p, remote := s.refRemote ref, index := refIndex ref, op := op,
      needM := if opOrdered op then c.missued else 0, needD := if opOrdered op then c.dissued else 0,
      needU := if opOrdered op then c.uissued else 0, issue := s.now, reply := r.isSome
      needX := match s.refRemote ref with | none => 0 | some m => ((s.peer p m).map (·.xfers)).getD 0 }
  let s := { s with sync := { s.sync with sent := s.sync.sent ++ [x], nextId := s.sync.nextId + 1 } }
  match r with
  | none => s.modCore t Core.next
  | some k => s.modCore t fun c => { c with status := .waiting, resume := some k }

/-- A sync instruction (10 R247): the reference is checked, then the operation is sent. -/
def syncInstr (mnemonic : String) (i : Instr) (t : TileId) (rd rs1 : RegId) (op : Core → SyncOp) (s : State) :
    Host.Outcome State Fault Refusal :=
  coreInstr mnemonic i t s fun s =>
    let c := s.core t
    let ref := c.rg rs1
    let o := op c
    match s.partOfTile t with
    | none => s
    | some p =>
      if refBad ref || (opWaits o && bit ref 63) || ((s.part p).objOf (refIndex ref).toNat).isNone then s.coreFault t 0x7 0
      else s.sendSync t p ref o (if opWaits o || decide (rd ≠ 0) then some (.status rd) else none)

def execSsig (t : TileId) (rd rs1 rs2 : RegId) (s : State) : Host.Outcome State Fault Refusal :=
  syncInstr "SSIG" (.ssig t rd rs1 rs2) t rd rs1 (fun c => .signal (c.rg rs2)) s

def execStake (t : TileId) (rd rs1 rs2 : RegId) (s : State) : Host.Outcome State Fault Refusal :=
  syncInstr "STAKE" (.stake t rd rs1 rs2) t rd rs1 (fun c => .take (c.rg rs2)) s

def execSarr (t : TileId) (rd rs1 rs2 : RegId) (s : State) : Host.Outcome State Fault Refusal :=
  syncInstr "SARR" (.sarr t rd rs1 rs2) t rd rs1 (fun c => .arrive (bit (c.rg rs2) 0)) s

def execSsetf (t : TileId) (rd rs1 rs2 : RegId) (s : State) : Host.Outcome State Fault Refusal :=
  syncInstr "SSETF" (.ssetf t rd rs1 rs2) t rd rs1 (fun c => .setf (c.rg rs2)) s

def execSclrf (t : TileId) (rd rs1 rs2 : RegId) (s : State) : Host.Outcome State Fault Refusal :=
  syncInstr "SCLRF" (.sclrf t rd rs1 rs2) t rd rs1 (fun c => .clrf (c.rg rs2)) s

def execSwany (t : TileId) (rd rs1 rs2 : RegId) (s : State) : Host.Outcome State Fault Refusal :=
  syncInstr "SWANY" (.swany t rd rs1 rs2) t rd rs1 (fun c => .wany (c.rg rs2)) s

def execSwall (t : TileId) (rd rs1 rs2 : RegId) (s : State) : Host.Outcome State Fault Refusal :=
  syncInstr "SWALL" (.swall t rd rs1 rs2) t rd rs1 (fun c => .wall (c.rg rs2)) s

def execSadv (t : TileId) (rd rs1 rs2 : RegId) (s : State) : Host.Outcome State Fault Refusal :=
  syncInstr "SADV" (.sadv t rd rs1 rs2) t rd rs1 (fun c => .adv (c.rg rs2)) s

def execSwge (t : TileId) (rd rs1 rs2 : RegId) (s : State) : Host.Outcome State Fault Refusal :=
  syncInstr "SWGE" (.swge t rd rs1 rs2) t rd rs1 (fun c => .wge (c.rg rs2)) s

/-! ### Arrival at the fabric (10 R246, R248) -/

/-- Source rank of a tile's operation: host functions come first, then tiles by logical index, then remote modules. -/
def State.tileRank (s : State) (t : TileId) : Nat :=
  match s.progOfTile t with
  | none => 17 + t.val
  | some (_, x) => 17 + (x.logical t).getD t.val

/-- Source rank of a remote module's operation. -/
def moduleRank (m : ModId) : Nat := 17 + 128 + m.toNat

/-- Equal stamps at an object are ordered by source (10 R246). -/
def State.inOrder (s : State) (o rank : Nat) : Bool :=
  match s.sync.lastArr.find? fun a => decide (a.1 = o) with
  | none => true
  | some a => decide (a.2.1 < s.now) || decide (a.2.2 ≤ rank)

def State.noteOrder (s : State) (o rank : Nat) : State :=
  { s with sync := { s.sync with lastArr := (o, s.now, rank) :: s.sync.lastArr.filter fun a => !decide (a.1 = o) } }

/-- The first n link transfers of the partition to a module have been acknowledged, or their entries are over (10 R248). -/
def State.acked (s : State) (p : Pid) (m : ModId) (n : Nat) : Bool :=
  match (s.part p).launch with
  | none => true
  | some l => l.active.all fun e => e.unacked.all fun x => !(decide (x.1 = m) && decide (x.2 < n))

/-- The earlier work of the issuing tile has completed, and for a remote operation the transfers to that module. -/
def State.sendDue (s : State) (x : SyncSent) : Bool :=
  let c := s.core x.src
  decide (x.needM.toNat ≤ c.mdone.toNat) && decide (x.needD.toNat ≤ c.ddone.toNat) && decide (x.needU.toNat ≤ c.udone.toNat) &&
    match x.remote with
    | none => true
    | some m => s.acked x.pid m x.needX

/-- The operation with a number arrives: at the local object, or on its way to the remote module (10 R246, R250, R257). -/
def execSyncOperationArrival (id now : Nat) (s : State) : Host.Outcome State Fault Refusal :=
  match s.sync.sent.find? fun x => decide (x.id = id) with
  | none => notDue "SYNC_OPERATION_ARRIVAL"
  | some x =>
    let s := s.at_ now
    let who : Option Waiter := if x.reply then some (.tile x.src) else none
    let s' := { s with sync := { s.sync with sent := s.sync.sent.filter fun y => !decide (y.id = id) } }
    if !s.sendDue x || s.moults x.pid then notDue "SYNC_OPERATION_ARRIVAL" else
    match x.remote with
    | some m =>
      if let some code := s.peerLost x.pid m then .next (s'.answer who (some code))
      else
        .next { s'.send x.pid m (.sync x.index x.op id) with sync := { s'.sync with
          remotes := s'.sync.remotes ++ [{ id := id, pid := x.pid, peer := m, who := who, bar := none }] } }
    | none =>
      match (s.part x.pid).objOf x.index.toNat with
      | none => .next (s'.answer who (some eRange))
      | some o =>
        if !s.inOrder o (s.tileRank x.src) then notDue "SYNC_OPERATION_ARRIVAL" else
        let r := (s'.noteOrder o (s.tileRank x.src)).applyOp x.pid o x.op who x.issue
        .next (r.1.answer who r.2)

/-- A member receives a release of its barrier's generation; a release of another generation changes nothing (10 R253). -/
def execBarrierReleaseReceipt (p : Pid) (index : BitVec 16) (rel : Release) (now : Nat) (s : State) :
    Host.Outcome State Fault Refusal :=
  let s := s.at_ now
  match (s.part p).objOf index.toNat with
  | none => .next s
  | some o =>
    if (s.part p).entry.st ≠ .bound ∨ objKind (s.obj o) ≠ 1 ∨ objRoot (s.obj o) ∨ objUp (s.obj o) = 0xFFFF ∨
        objGen (s.obj o) ≠ rel.gen then .next s
    else
      let s := { s with sync := { s.sync with remotes := s.sync.remotes.filter fun r => !decide (r.bar = some o) } }
      .next (s.takeRelease p o { rel with r := if objLnch (s.obj o) then rel.r else none })

/-- At R - 2,048 gt the hint goes to the waiting tiles' arrays (10 R253). -/
def execLaunchBarrierHint (obj : Fin 65536) (now : Nat) (s : State) : Host.Outcome State Fault Refusal :=
  let s := s.at_ now
  match s.sync.pends.find? fun x => decide (x.obj = obj.val) with
  | none => notDue "LAUNCH_BARRIER_HINT"
  | some x =>
    whenDue (!x.hinted && decide (x.r ≤ s.now + 2048)) "LAUNCH_BARRIER_HINT"
      { s.hintWaiters obj.val with sync := { s.sync with
          pends := s.sync.pends.map fun y => if y.obj = obj.val then { y with hinted := true } else y } }

/-- At R the local waiters resume as the coordinated release (10 R253). -/
def execLaunchBarrierRelease (obj : Fin 65536) (now : Nat) (s : State) : Host.Outcome State Fault Refusal :=
  let s := s.at_ now
  match s.sync.pends.find? fun x => decide (x.obj = obj.val) with
  | none => notDue "LAUNCH_BARRIER_RELEASE"
  | some x =>
    whenDue (decide (x.r ≤ s.now)) "LAUNCH_BARRIER_RELEASE"
      ({ s with sync := { s.sync with pends := s.sync.pends.filter fun y => !decide (y.obj = obj.val) } }.releaseLaunch
        x.pid obj.val x.r x.flag x.r)

/-- The acknowledgement of a remote operation with its code: its issuer gets it; a refused aggregated arrival fails the local
waiters of the barrier (10 R250, R252). -/
def execRemoteAck (id : Nat) (code : BitVec 16) (s : State) : Host.Outcome State Fault Refusal :=
  match s.sync.remotes.find? fun r => decide (r.id = id) with
  | none => notDue "REMOTE_ACK"
  | some r =>
    let s := { s with sync := { s.sync with remotes := s.sync.remotes.filter fun x => !decide (x.id = id) } }
    if s.moults r.pid then notDue "REMOTE_ACK" else
    match r.bar with
    | none => .next (s.answer r.who (some code))
    | some o => .next (if code = cOk then s else s.failWaiters o code)

/-- A wait, at its object or not yet sent, that has not been satisfied within the limit ends with E_TIMEOUT; nothing in the
object changes, and a later TAKE may now be served (10 R249). -/
def execWaitTimeout (w : Waiter) (now : Nat) (s : State) : Host.Outcome State Fault Refusal :=
  let s := s.at_ now
  match s.sync.waits.find? fun x => decide (x.who = w) with
  | some x =>
    whenDue (decide (x.issue + s.waitLimit w ≤ s.now) && !allParts.any fun p => s.moults p && s.waiterOf p w) "WAIT_TIMEOUT"
      (let s := { s with sync := { s.sync with waits := s.sync.waits.filter fun y => !decide (y.who = w) } }
       let s := s.resume w eTimeout false
       if objKind (s.obj x.obj) = 0 then s.wake x.obj else s)
  | none =>
    match s.sync.sent.find? fun x => decide (w = .tile x.src) && opWaits x.op with
    | some x =>
      whenDue (decide (x.issue + s.waitLimit w ≤ s.now)) "WAIT_TIMEOUT"
        ({ s with sync := { s.sync with sent := s.sync.sent.filter fun y => !decide (y.id = x.id) } }.resume w eTimeout false)
    | none => notDue "WAIT_TIMEOUT"

/-! ### Host SIGNAL and WAIT (16 R367, R369, R375) -/

/-- Reserved bits of the header. -/
def headBad (d : BitVec 512) : Bool := decide (bits (dw d 0) 45 32 ≠ 0)

/-- Words of a descriptor from i to 7 are zero. -/
def zeroFrom (d : BitVec 512) (i : Nat) : Bool := (natRange i 8).all fun k => decide (dw d k = 0)

/-- Ports or half-ports of the partition that are UP. -/
def State.portUp (s : State) (p : Pid) : Bool :=
  (List.finRange 16).any fun h => bit (s.part p).entry.ports h.val && decide ((s.links.half[h]).state = .up)

/-- The operation of a SIGNAL descriptor. -/
def signalOp (d : BitVec 512) : SyncOp :=
  match bits (dw d 2) 3 0 with
  | 0 => .signal (dw d 3)
  | 1 => .setf (dw d 3)
  | 2 => .clrf (dw d 3)
  | _ => .adv (dw d 3)

def signalCheck (s : State) (p : Pid) (d : BitVec 512) : Check :=
  firstFail
    [ (headBad d || !zeroFrom d 4 || decide (3 < (dw d 2).toNat) || refBad (dw d 1) ||
        (decide ((dw d 2).toNat = 0) && decide (0xFFFFFFFF < (dw d 3).toNat)), eField),
      ((s.refRemote (dw d 1)).isNone && ((s.part p).objOf (refIndex (dw d 1)).toNat).isNone, eRange),
      ((s.refRemote (dw d 1)).isSome && !s.portUp p, eLinkLost) ]

/-- Every COPY and FILL fetched earlier from the ring has completed (16 R369). -/
def copiesDone (cmds : List Cmd) (c : Cmd) : Bool :=
  ((cmds.takeWhile fun x => !decide (x.cid = c.cid)).filter fun x => decide (x.ring = c.ring)).all fun x =>
    !(decide (bits (dw x.desc 0) 63 56 = 0x10) || decide (bits (dw x.desc 0) 63 56 = 0x11))

/-- SIGNAL from the host, local or remote (16 R375). -/
def execSignal (fn : Fn) (cid : Nat) (s : State) : Host.Outcome State Fault Refusal :=
  match s.dueCmd fn cid 0x30, s.partOfFn fn with
  | some c, some p =>
    if !copiesDone (s.func fn).cmds c then notDue "SIGNAL" else
    match signalCheck s p c.desc with
    | some code => .next (s.complete fn c code 0 0)
    | none =>
      match s.refRemote (dw c.desc 1) with
      | some m =>
        if let some code := s.peerLost p m then .next (s.complete fn c code 0 0) else
        let id := s.sync.nextId
        let s := (s.startCmd fn c).send p m (.sync (refIndex (dw c.desc 1)) (signalOp c.desc) id)
        .next { s with sync := { s.sync with
          nextId := id + 1
          remotes := s.sync.remotes ++ [{ id := id, pid := p, peer := m, who := some (.host fn cid), bar := none }] } }
      | none =>
        match (s.part p).objOf (refIndex (dw c.desc 1)).toNat with
        | none => .next (s.complete fn c eRange 0 0)
        | some o =>
          if !s.inOrder o fn.val then notDue "SIGNAL" else
          let r := ((s.startCmd fn c).noteOrder o fn.val).applyOp p o (signalOp c.desc) (some (.host fn cid)) s.now
          .next (r.1.answer (some (.host fn cid)) r.2)
  | _, _ => notDue "SIGNAL"

/-- The operation of a WAIT descriptor. -/
def waitOp (d : BitVec 512) : SyncOp :=
  match bits (dw d 2) 3 0 with
  | 0 => .take (dw d 3)
  | 1 => .wany (dw d 3)
  | 2 => .wall (dw d 3)
  | 3 => .wge (dw d 3)
  | _ => .arrive (bit (dw d 3) 0)

def waitCheck (s : State) (p : Pid) (d : BitVec 512) : Check :=
  firstFail
    [ (headBad d || !zeroFrom d 4 || decide (4 < (dw d 2).toNat) || refBad (dw d 1) || bit (dw d 1) 63 ||
        (decide ((dw d 2).toNat = 4) && decide (1 < (dw d 3).toNat)), eField),
      (((s.part p).objOf (refIndex (dw d 1)).toNat).isNone, eRange) ]

/-- WAIT from the host on a local object (16 R375). -/
def execWait (fn : Fn) (cid : Nat) (s : State) : Host.Outcome State Fault Refusal :=
  match s.dueCmd fn cid 0x31, s.partOfFn fn with
  | some c, some p =>
    match waitCheck s p c.desc with
    | some code => .next (s.complete fn c code 0 0)
    | none =>
      match (s.part p).objOf (refIndex (dw c.desc 1)).toNat with
      | none => .next (s.complete fn c eRange 0 0)
      | some o =>
        if !s.inOrder o fn.val then notDue "WAIT" else
        let r := ((s.startCmd fn c).noteOrder o fn.val).applyOp p o (waitOp c.desc) (some (.host fn cid)) s.now
        .next (r.1.answer (some (.host fn cid)) r.2)
  | _, _ => notDue "WAIT"

/-- FENCE: completes when every command fetched before it within its SCOPE has completed (16 R369); none completes while the function
moults (14 R334). -/
def execFence (fn : Fn) (cid : Nat) (s : State) : Host.Outcome State Fault Refusal :=
  match s.findCmd fn cid with
  | none => notDue "FENCE"
  | some c =>
    let before := (s.func fn).cmds.takeWhile fun x => !decide (x.cid = cid)
    let scope := if bit (dw c.desc 1) 0 then before else before.filter fun x => decide (x.ring = c.ring)
    if bits (dw c.desc 0) 63 56 ≠ 0x32 ∨ !s.up ∨ s.fnState fn = .moulting then notDue "FENCE"
    else if headBad c.desc || !zeroFrom c.desc 2 || decide (1 < (dw c.desc 1).toNat) then .next (s.complete fn c eField 0 0)
    else whenDue scope.isEmpty "FENCE" (s.complete fn c cOk 0 0)

end Sys2Proof.Machine
end

