-- ==== Sys2Proof/Machine/Bind.lean ====
section
/-!
DEFINITION. Sys2Proof/Machine/Bind.lean: the binding table, BIND, UNBIND, the moult and the key moult, the attestation log, ABORT,
partition reset and function-level reset (14 R322 to R336; 15 R345, R353, R355; 16 R376, R379; 17 R407, R408).
-/
namespace Sys2Proof.Machine

/-! ### Attestation log (15 R355) -/

/-- SRC of an entry. -/
def srcCode : Source → Nat
  | .pf0 => 0
  | .mctpI3c => 1
  | .mctpPcie => 2
  | .jtag => 3
  | .tdisp => 4

/-- An entry is appended: stored while fewer than 4,096 are, entering LCHAIN always. -/
def SecSt.append (x : SecSt) (e : List Byte) : SecSt :=
  let x := { x with lchain := sha384 (x.lchain ++ e) }
  if x.log.length < 4096 then { x with log := x.log ++ [e] } else { x with lost := satAdd x.lost 1 }

/-- An entry of a partition, stamped now. -/
def State.attest (s : State) (ty : Nat) (p : Option Pid) (level : Nat) (src : Source) (detail : List Byte) : State :=
  let pid := match p with | none => 0xFF | some p => p.val
  let ep := match p with | none => 0 | some p => (s.part p).entry.epoch.toNat
  { s with sec := s.sec.append (logEntry ty pid level (srcCode src) ep s.now detail) }

/-! ### Keys and epoch bits (15 R344 to R346) -/

/-- A new key: its name is the count of keys drawn (log 14). -/
def State.newKey (s : State) : State := { s with sec := { s.sec with keyGen := s.sec.keyGen + 1 } }

/-- The silo's keys, sent wrapped to the controllers of both dies: a new one in K0, K1 erased, CUR 0, every page's epoch bit 0. -/
def State.freshSiloKey (s : State) (p : Pid) : State :=
  let gs := (s.part p).entry.gran
  let s := if s.sec.drbgDown then s else s.newKey
  let k : Option Nat := if s.sec.drbgDown then none else s.sec.load s.sec.keyGen
  let rots := s.sec.rot.set p { s.sec.rot[p] with active := false, cur := false, next := 0, waiter := none }
  { s with sec := { s.sec with silo := s.sec.silo.set p (k, none), rot := rots }
           memctl := { s.memctl with epochOne := s.memctl.epochOne.filter fun pg => !gs.contains (pg / 2 ^ 18) } }

/-- Both key slots of a silo are erased, its sweep stops, its function's IDE stream keys are gone (14 R329 step 1). -/
def State.eraseSiloKeys (s : State) (p : Pid) : State :=
  let n := (s.part p).entry.hfn
  let rots := s.sec.rot.set p { s.sec.rot[p] with active := false, next := 0 }
  { s with sec := { s.sec with silo := s.sec.silo.set p (none, none), rot := rots,
                               ide := s.sec.ide.set (n.val + 1) Ide.reset (by omega) } }

/-! ### Units (14 R325) -/

/-- Units of an entry take a state. -/
def BindSt.setUnits (b : BindSt) (e : Entry) (u : UnitState) : BindSt :=
  { b with sheaves := Vector.ofFn fun i => if bit e.sheaves i.val then u else b.sheaves[i]
           grans := Vector.ofFn fun i => if e.gran.contains i.val then u else b.grans[i]
           blocks := Vector.ofFn fun i => if e.blk.contains i.val then u else b.blocks[i]
           ports := Vector.ofFn fun i => if bit e.ports i.val then u else b.ports[i]
           fns := b.fns.set e.hfn u }

/-- A state change of an entry: BEPOCH rises by 1, the entry and every unit of it take the new value (14 R325). -/
def State.changeEntry (s : State) (p : Pid) (st : PState) : State :=
  let ep := s.bind.bepoch + 1
  let s := s.modPart p fun x => { x with entry := { x.entry with st := st, epoch := ep } }
  let u : UnitState := { owner := if st = .free then none else some p, st := st, epoch := ep }
  { s with bind := { s.bind with bepoch := ep }.setUnits (s.part p).entry u }

/-! ### BIND (14 R326 to R328) -/

/-- Bytes hi:lo of a binding record as a number. -/
def brec (r : BitVec 8192) (lo n : Nat) : Nat := r.toNat / 256 ^ lo % 256 ^ n

/-- The entry a record asks for. -/
def entryOf (r : BitVec 8192) : Entry :=
  let w := brec r 0 8
  let v := brec r 8 8
  { st := .bound, epoch := 0, mstep := 0, hfn := Fin.ofNat 17 (nbits w 59 55), sheaves := BitVec.ofNat 16 (nbits w 47 32),
    gran := (List.range (nbits w 31 16)).map fun i => brec r (96 + 2 * i) 2,
    blk := (List.range (nbits w 15 8)).map fun i => brec r (32 + i) 1,
    weight := BitVec.ofNat 8 (nbits w 7 0), ports := BitVec.ofNat 16 (nbits v 63 48), pshare := BitVec.ofNat 8 (nbits v 47 40),
    jobTag := BitVec.ofNat 64 (brec r 16 8), record := r, unbindBy := none, keyMoult := false, moultSrc := .pf0,
    moultFull := false }

/-- A list holds no value twice. -/
def distinct (l : List Nat) : Bool := decide (l.eraseDups.length = l.length)

/-- Item 2 of 14 R327: fields of the record. -/
def recordFieldBad (s : State) (r : BitVec 8192) : Bool :=
  let w := brec r 0 8
  let v := brec r 8 8
  let ngran := nbits w 31 16
  let nblk := nbits w 15 8
  let e := entryOf r
  decide (nbits w 54 48 ≠ 0) || decide (nbits v 39 0 ≠ 0) || decide (brec r 24 8 ≠ 0) || decide (brec r 848 176 ≠ 0) ||
    decide (16 < nbits w 59 55) || decide (s.vfs < nbits w 59 55) || decide (nbits w 47 32 = 0) ||
    decide (ngran = 0) || decide (376 < ngran) || decide (nblk = 0) || decide (64 < nblk) ||
    decide (nbits w 7 0 = 0) || decide (64 < nbits w 7 0) || decide (nbits v 47 40 = 0) || decide (brec r 16 8 = 0) ||
    decide (brec r (32 + nblk) (64 - nblk) ≠ 0) || decide (brec r (96 + 2 * ngran) (752 - 2 * ngran) ≠ 0) ||
    (e.blk.any fun b => decide (63 < b)) || (e.gran.any fun g => decide (375 < g)) || !distinct e.blk || !distinct e.gran ||
    (List.finRange 8).any fun q => !(s.links.cfg[q]).split && (bit e.ports (2 * q.val) != bit e.ports (2 * q.val + 1))

/-- A resource or the job tag of a record belongs to a partition. -/
def shares (e f : Entry) : Bool :=
  decide (e.hfn = f.hfn) || decide (e.sheaves &&& f.sheaves ≠ 0) || decide (e.ports &&& f.ports ≠ 0) || (e.gran.any fun g => f.gran.contains g) ||
    (e.blk.any fun b => f.blk.contains b) || decide (e.jobTag = f.jobTag)

/-- The checks of 14 R327 after the record was read, in its order; service state and a stopped DRBG last (19 R428, 15 R344). -/
def State.bindCheck (s : State) (r : BitVec 8192) : Check :=
  let e := entryOf r
  let p : Pid := ⟨nbits (brec r 0 8) 63 60, by unfold nbits; exact Nat.mod_lt _ (by decide)⟩
  let of (st : PState) : List Entry := (allParts.map fun q => (s.part q).entry).filter fun f => decide (f.st = st)
  firstFail
    [ (recordFieldBad s r, eField),
      (decide (0xFFFFFFDF ≤ s.bind.bepoch.toNat), eCapacity),
      (decide ((s.part p).entry.st = .moulting) || ((of .moulting).any fun f => shares e f), eMoulting),
      (decide ((s.part p).entry.st = .bound) || (s.partOfFn e.hfn).isSome || ((of .bound).any fun f => shares e f), eBusy),
      (decide (s.power.deep ≠ .none), eBusy),
      (s.mgmt.halted, eBusy),
      (s.sec.drbgDown, eKey) ]

/-- The partition takes the record's fields, new keys and the state BOUND (14 R328). -/
def State.doBind (s : State) (r : BitVec 8192) : State :=
  let p : Pid := ⟨nbits (brec r 0 8) 63 60, by unfold nbits; exact Nat.mod_lt _ (by decide)⟩
  let s := s.modPart p fun x =>
    { x with entry := { entryOf r with epoch := x.entry.epoch }, slots := Vector.replicate 8 none,
             results := Vector.replicate 8 none, launch := none, peers := [], deferred := [] }
  (s.changeEntry p .bound).freshSiloKey p

/-- Two BINDs run in the order of their fetches, whatever their rings (14 R336). -/
def State.bindTurn (s : State) (n : Fn) (cid : Nat) : Bool :=
  !((s.func n).cmds.takeWhile fun x => !decide (x.cid = cid)).any fun x => decide (bits (dw x.desc 0) 63 56 = 0x40)

/-- BIND (14 R327, R328); `record`: what the host answered to the read of the record, none for an error completion. -/
def execBind (fn : Fn) (cid : Nat) (record : Option (BitVec 8192)) (s : State) : Host.Outcome State Fault Refusal :=
  match s.dueCmd fn cid 0x40 with
  | none => notDue "BIND"
  | some c =>
    if !s.bindTurn fn cid then notDue "BIND"
    else if fn.val ≠ 0 then .next (s.complete fn c eOpcode 0 0)
    else if headBad c.desc || !zeroFrom c.desc 2 then .next (s.complete fn c eField 0 0)
    else if bits (dw c.desc 1) 5 0 ≠ 0 then .next (s.complete fn c eAlign 0 0)
    else
      match record with
      | none => .next (s.complete fn c eHostDma 0 0)
      | some r =>
        match s.bindCheck r with
        | some code => .next (s.complete fn c code 0 0)
        | none => .next ((s.doBind r).complete fn c cOk 0 0)

/-! ### UNBIND and the moult (14 R329) -/

/-- PID of a command that names one in word 1. -/
def pidOf (d : BitVec 512) : Pid := ⟨bits (dw d 1) 3 0, by unfold bits; exact Nat.mod_lt _ (by decide)⟩

/-- The function's TDI leaves CONFIG_LOCKED or RUN for ERROR (15 R352). -/
def State.tdiError (s : State) (n : Fn) : State :=
  if s.sec.tdi[n] = .locked ∨ s.sec.tdi[n] = .run then
    { s with sec := { s.sec with tdi := s.sec.tdi.set n .error, tdiSess := s.sec.tdiSess.set n none } }
  else s

/-- The entry becomes MOULTING and the moult starts; no frame of the partition that waits leaves any more (14 R329, R334). -/
def State.startMoult (s : State) (p : Pid) (n : Fn) (cid : Nat) : State :=
  let s := (s.changeEntry p .moulting).dropTx fun q _ => decide (q = p)
  let s := s.tdiError (s.part p).entry.hfn
  s.modPart p fun x =>
    { x with entry := { x.entry with mstep := 1, unbindBy := some (n, cid), keyMoult := false, moultFull := false } }

/-- UNBIND (14 R329). -/
def execUnbind (fn : Fn) (cid : Nat) (s : State) : Host.Outcome State Fault Refusal :=
  match s.dueCmd fn cid 0x41 with
  | none => notDue "UNBIND"
  | some c =>
    let p := pidOf c.desc
    let check := firstFail
      [ (decide (fn.val ≠ 0), eOpcode),
        (headBad c.desc || !zeroFrom c.desc 2 || decide (15 < (dw c.desc 1).toNat), eField),
        (decide ((s.part p).entry.st = .free), eNotBound),
        (decide ((s.part p).entry.st = .moulting), eMoulting) ]
    match check with
    | some code => .next (s.complete fn c code 0 0)
    | none => .next ((s.startCmd fn c).startMoult p fn cid)

/-- Registers and stores of a tile after zeroing (14 R329 step 2, 17 R407): core, vector and engine registers, norm
accumulators. Counters, trims and retirement stay (14 R330). -/
def Tile.zeroed (x : Tile) : Tile :=
  { x with core := Core.reset, mops := [], dmas := [], upds := [], norms := Vector.replicate 4 Norm.reset,
           array := { x.array with shadow := none, active := none, keep := false, lastQuad := none, hold := false,
                                   stagger := none } }

/-- Programs of a partition are unloaded: channels released, warm records kept (01 R28; 05 R133; 06 R137). -/
def Channel.release (x : Channel) : Channel :=
  { x with alloc := none, queue := [], factor := Factor.reset, tStart := none, run := none }

/-- Channels that a test on their allocation admits are released. -/
def State.releaseChannels (s : State) (which : ChanAlloc → Bool) : State :=
  s.mapEngines (fun _ => true) fun x =>
    { x with chans := x.chans.map fun c => match c.alloc with | some a => if which a then c.release else c | none => c }

/-- The engine's registers and warm records are zeroed. -/
def Engine.zeroed (x : Engine) : Engine :=
  { x with chans := Vector.replicate 32 Channel.reset, panel := none, running := none, served := (0, 0), held := none }

/-- Tile stores, solve buffers, core, vector and engine registers, norm accumulators, watch table, warm records and programs of a
partition are gone. -/
def State.zeroUnits (s : State) (p : Pid) : State :=
  let e := (s.part p).entry
  let s := s.mapTiles (s.onPart p) Tile.zeroed
  let s := s.mapEngines (fun x => e.hasSheaf x) Engine.zeroed
  let mem := allEngines.foldl (fun m x =>
    if e.hasSheaf x then
      Memory.clear (Memory.clear m (engAddr x) (engAddr x + engSize)) (tileBase + x.val * 8 * tileSize)
        (tileBase + (x.val + 1) * 8 * tileSize)
    else m) s.mem
  { s with mem := mem }.modPart p fun x =>
    { x with watch := [], slots := Vector.replicate 8 none, results := Vector.replicate 8 none, stash := [] }

/-- Sync objects of a partition become all-zero objects. -/
def State.zeroObjects (s : State) (p : Pid) : State :=
  { s with sync := { s.sync with
      objs := s.sync.objs.filter fun o => !(s.part p).hasObj o.1
      children := s.sync.children.filter fun c => !(s.part p).hasObj c.1
      lastArr := s.sync.lastArr.filter fun a => !(s.part p).hasObj a.1 } }

/-- Link receive and replay buffers of the partition's ports are emptied. -/
def State.zeroLinkBuffers (s : State) (p : Pid) : State :=
  let e := (s.part p).entry
  { s with links := { s.links with
      half := Vector.ofFn fun h => if bit e.ports h.val then { s.links.half[h] with replay := [] } else s.links.half[h] } }

/-- Step 1: cores stop issuing, keys are erased, pending writes dropped (14 R329). -/
def State.moult1 (s : State) (p : Pid) : State :=
  let s := s.mapTiles (s.onPart p) fun x =>
    if x.core.status = .running ∨ x.core.status = .waiting then { x with core := { x.core with status := .stopped } } else x
  let gs := (s.part p).entry.gran
  let s := s.eraseSiloKeys p
  { s with bind := { s.bind with heldWr := s.bind.heldWr.filter fun w => !gs.contains (w.1 / granSize) } }

/-- Step 2: engines stop, outstanding commands end with E_ABORTED, on-die state is zeroed. -/
def State.moult2 (s : State) (p : Pid) : State :=
  let s := s.endWork p eAborted none false
  ((s.zeroUnits p).zeroObjects p).zeroLinkBuffers p

/-- Step 3: link keys are erased and an unbind frame goes to every module with which keys were held, on every UP port that reaches it. -/
def State.moult3 (s : State) (p : Pid) : State :=
  let ps := (s.part p).peers.filter (·.keyed)
  let ep := (s.part p).entry.epoch
  let s := ps.foldl (fun s q => (s.halvesTo p q.id).foldl (fun s h => s.portSend h (.unbind q.id ep)) s) s
  let s := (s.modPart p fun x => { x with peers := [] }).dropTx fun q _ => decide (q = p)
  { s with sec := { s.sec with rot := s.sec.rot.set p { s.sec.rot[p] with link := false, linkWaiter := none } } }

/-- The next granule to clear: moved ones first, then ascending (09 R234). -/
def BindSt.nextClear (b : BindSt) : BindSt :=
  match b.clearing with
  | some _ => b
  | none =>
    match b.moved.filter fun g => b.clrPend.getLsbD g with
    | g :: r => { b with clearing := some g, moved := r }
    | [] => { b with clearing := (List.range 376).find? fun g => b.clrPend.getLsbD g, moved := [] }

/-- Granules are queued for clear (14 R331). -/
def BindSt.queueClear (b : BindSt) (gs : List Nat) : BindSt :=
  { b with clrPend := gs.foldl (fun v g => setBit v g true) b.clrPend }.nextClear

/-- Granules are queued for clear; their cached lines are invalidated without write-back (09 R233). -/
def State.queueClears (s : State) (gs : List Nat) : State :=
  { s with bind := s.bind.queueClear gs
           memctl := { s.memctl with cache := s.memctl.cache.filter fun x => !gs.contains (x.line / 2 ^ 22) } }

/-- The four link counters of a partition are cleared (20 R453). -/
def Part.clearLinkCounters (x : Part) : Part := { x with shed := (0, 0), cvt := (0, 0), excl := (0, 0), waited := (0, 0) }

/-- Step 4: the granules are queued for clear, the entry becomes FREE, UNBIND completes, PART_MOULT_DONE is raised. -/
def State.moult4 (s : State) (p : Pid) : State :=
  let e := (s.part p).entry
  let s := (s.queueClears e.gran).markAll .cont
  let s := s.changeEntry p .free
  let ep := (s.part p).entry.epoch
  let s := s.modPart p fun x => { x with entry := { Entry.reset with epoch := ep } }.clearLinkCounters
  let s := match e.unbindBy with
    | none => s
    | some (n, cid) =>
      match s.findCmd n cid with
      | none => s
      | some c => s.complete n c cOk 0 0
  s.raisePf0 0x0501 (some p) p.val ep.toNat

/-- End of a key moult (15 R353): a new key, epoch bits 0, every granule queued, the KEY_MOULT entry, BOUND again; a forced FULL
is granted now (15 R354). -/
def State.keyMoultEnd (s : State) (p : Pid) : State :=
  let e := (s.part p).entry
  let s := s.freshSiloKey p
  let s := (s.queueClears e.gran).markAll .cont
  let s := s.attest 0x0005 (some p) (s.sec.dbg[p]).toNat e.moultSrc []
  let s := s.modPart p fun x => { x with entry := { x.entry with mstep := 0, keyMoult := false, moultFull := false } }
  if e.moultFull then
    { s with sec := { s.sec with dbg := s.sec.dbg.set p 3, attach := (s.sec.attach &&& 0xFFFFFFF3) ||| 0xC } }
  else s

/-- A key moult starts (15 R352, R353). -/
def State.startKeyMoult (s : State) (p : Pid) (src : Source) (full : Bool) : State :=
  if (s.part p).entry.st = .bound ∧ !(s.part p).entry.keyMoult then
    (s.modPart p fun x =>
      { x with entry := { x.entry with mstep := 1, keyMoult := true, moultSrc := src, moultFull := full } }).dropTx fun q _ => decide (q = p)
  else s

/-- A moult step ends and the next one starts (14 R329, 15 R353). -/
def execMoultStepEnd (p : Pid) (now : Nat) (s : State) : Host.Outcome State Fault Refusal :=
  let s := s.at_ now
  let e := (s.part p).entry
  let key := e.keyMoult && decide (e.st = .bound)
  let step (s : State) : State := s.modPart p fun x => { x with entry := { x.entry with mstep := e.mstep + 1 } }
  if !(key || decide (e.st = .moulting)) then notDue "MOULT_STEP_END"
  else
    match e.mstep with
    | 1 => .next (step (s.moult1 p))
    | 2 => .next (step (s.moult2 p))
    | 3 => .next (if key then (s.moult3 p).keyMoultEnd p else step (s.moult3 p))
    | 4 => .next (s.moult4 p)
    | _ => notDue "MOULT_STEP_END"

/-! ### ABORT (16 R379) -/

/-- Unfetched descriptors of a ring. -/
def Ring.unfetched (r : Ring) : Nat := if r.en then (r.sqTail + 2 ^ r.sqlog.toNat - r.sqHead) % 2 ^ r.sqlog.toNat else 0

/-- Unfetched descriptors of a function's rings are discarded; their count. -/
def State.discard (s : State) (n : Fn) : State × Nat :=
  let k := (s.func n).rings.toList.foldl (fun a r => a + r.unfetched) 0
  (s.modFunc n fun f => { f with rings := f.rings.map fun r => if r.en then { r with sqHead := r.sqTail } else r }, k)

/-- ABORT (16 R379): work of the target ends, its function's unfetched descriptors are discarded, the completion is OK. It is one
step here, so a second ABORT never meets one that runs (log 28). -/
def execAbort (fn : Fn) (cid : Nat) (s : State) : Host.Outcome State Fault Refusal :=
  match s.findCmd fn cid with
  | none => notDue "ABORT"
  | some c =>
    if bits (dw c.desc 0) 63 56 ≠ 0x60 ∨ !s.up then notDue "ABORT" else
    let p := pidOf c.desc
    let own := s.partOfFn fn
    let check := firstFail
      [ (headBad c.desc || !zeroFrom c.desc 2 || decide (15 < (dw c.desc 1).toNat) ||
          (decide (fn.val ≠ 0) && !decide (own = some p)), eField),
        (decide ((s.part p).entry.st = .free), eNotBound),
        (decide ((s.part p).entry.st = .moulting) || (s.part p).entry.keyMoult, eMoulting) ]
    match if s.fenced .function fn.val then none else check with
    | some code => .next (s.complete fn c code 0 0)
    | none =>
      if (s.part p).entry.st = .free then .next (s.complete fn c cOk 0 0) else
      let s := s.sendAbort p
      let s := s.endWork p eAborted (some (fn, cid)) true
      let target := (s.part p).entry.hfn
      let r := s.discard target
      let s := r.1
      if target = fn then .next (s.complete fn c cOk 0 r.2)
      else .next ((s.raise target (mkEvent s 0x0503 (some p) r.2 0)).complete fn c cOk 0 0)

/-! ### Partition reset (17 R407) and function-level reset (17 R408) -/

/-- The function's registers at their reset values, its rings disabled; MSI-X too with `msix`. Command numbers go on. -/
def Func.resetRegs (f : Func) (msix : Bool) : Func :=
  { Func.reset with nextCid := f.nextCid, atc := f.atc, cmds := f.cmds,
                    unmasked := if msix then [] else f.unmasked, msixPend := if msix then [] else f.msixPend }

/-- A write of PART_RST_CTL: PID is stored; GO = 1 starts a partition reset, and is ignored but for ERR while one runs (17 R407). -/
def State.writeRstCtl (s : State) (value : Half) : State :=
  if !s.up || s.mgmt.recov then s else
    let p : Pid := ⟨bits value 3 0, by unfold bits; exact Nat.mod_lt _ (by decide)⟩
    let b := { s.bind with rstPid := p, rstErr := if bit value 30 then false else s.bind.rstErr }
    let s := { s with bind := b }
    if !bit value 31 then s
    else if decide ((s.part p).entry.st ≠ .bound) || (s.part p).entry.keyMoult || b.rstBusy then
      { s with bind := { b with rstErr := true } }
    else
      let s := s.sendAbort p
      let s := s.endWork p eAborted none true
      { s with bind := { s.bind with rstBusy := true, rstOn := p } }

def execGo (value : Half) (s : State) : Host.Outcome State Fault Refusal := .next (s.writeRstCtl value)

/-- The partition reset finishes: programs unloaded, units zeroed, the function's rings and registers reset, PART_RESET_DONE
(17 R407). -/
def execPartitionResetEnd (now : Nat) (s : State) : Host.Outcome State Fault Refusal :=
  let s := s.at_ now
  if !s.bind.rstBusy then notDue "PARTITION_RESET_END" else
  let p := s.bind.rstOn
  let s := s.endWork p eAborted none true
  let s := s.zeroUnits p
  let n := (s.part p).entry.hfn
  let s := if (s.part p).entry.st = .free then s else s.modFunc n fun f => f.resetRegs false
  let s := { s with bind := { s.bind with rstBusy := false } }
  .next (s.raisePf0 0x0502 (some p) p.val 0)

/-- FLR of a function (17 R408): its commands end as ABORT ends them and nothing more is written to host memory; rings, registers
and MSI-X return to reset. Of PF0 these are its HIF_ registers and rings: the set-up registers of BAR0 are the module's (log 61). -/
def execFlr (fn : Fn) (s : State) : Host.Outcome State Fault Refusal :=
  .next (if !s.fnUp fn then s else
    let cmds := (s.func fn).cmds
    let keep := cmds.filter fun c => decide (bits (dw c.desc 0) 63 56 = 0x41) && decide (c.phase = .started)
    let s := s.modFunc fn fun f => { f.resetRegs true with cmds := keep, atc := [] }
    let s := { s with pins := { s.pins with heldCpl := s.pins.heldCpl.filter fun h => !decide (h.fn = fn) } }
    match s.partOfFn fn with
    | none => s
    | some p =>
      if (s.part p).entry.st = .moulting ∨ (s.part p).entry.keyMoult then s
      else (s.sendAbort p).endWork p eAborted none true)

end Sys2Proof.Machine
end

