-- ==== Sys2Proof/Machine/HostRing.lean ====
section
/-!
DEFINITION. Sys2Proof/Machine/HostRing.lean: version, ring and event-ring registers, doorbells, translations,
interrupts and SR-IOV (16 R357 to R361, R384, R385; 14 R327, R334).
-/
namespace Sys2Proof.Machine

/-- Vectors of a function's MSI-X table (16 R357). -/
def vectors (n : Fn) : Nat := if n.val = 0 then 128 else 120

/-- The function's registers store writes: it answers, and neither a moult nor a key moult runs (14 R334). -/
def State.regsOpen (s : State) (n : Fn) : Bool := s.fnUp n && decide (s.fnState n ≠ .moulting) && !s.mgmt.recov

/-! ### Registers of rings -/

/-- Highest version supported within [MINV, MAXV]: 0x10 or none (16 R359). -/
def versionAct (maxv minv : Byte) : Byte := if minv ≤ 0x10 ∧ 0x10 ≤ maxv then 0x10 else 0

/-- A write of HIF_VERSION_REQ (16 R359). -/
def State.writeVersion (s : State) (fn : Fn) (value : Half) : State :=
  if s.regsOpen fn && !(s.func fn).rings.any (·.en) then
    s.modFunc fn fun f =>
      { f with maxv := BitVec.ofNat 8 (bits value 15 8), minv := BitVec.ofNat 8 (bits value 7 0)
               act := versionAct (BitVec.ofNat 8 (bits value 15 8)) (BitVec.ofNat 8 (bits value 7 0)) }
  else s

def execHifVersionReq (fn : Fn) (value : Half) (s : State) : Host.Outcome State Fault Refusal := .next (s.writeVersion fn value)

/-- A command fetched from the pair has not posted its completion (16 R360). -/
def State.ringBusy (s : State) (n : Fn) (r : RingId) : Bool :=
  ((s.func n).cmds.any fun c => decide (c.ring = r)) || s.pins.heldCpl.any fun h => decide (h.fn = n) && decide (h.cmd.ring = r)

/-- Ring sizes lie in 6 to 16 and the vector in the function's table (16 R360). -/
def ringFieldsOk (n : Fn) (value : Half) : Bool :=
  decide (bits value 26 16 < vectors n) && decide (6 ≤ bits value 15 8) && decide (bits value 15 8 ≤ 16) &&
    decide (6 ≤ bits value 7 0) && decide (bits value 7 0 ≤ 16)

/-- The pair after a write of HIF_RING_CFGn (16 R360, R370): what an enabled pair takes, what a disabled one takes. -/
def Ring.configure (r : Ring) (n : Fn) (busy : Bool) (value : Half) : Ring :=
  if r.en then
    if !bit value 31 && !busy then { r with en := false } else r
  else if ringFieldsOk n value then
    let r := { r with prio := bit value 30, vec := BitVec.ofNat 11 (bits value 26 16)
                      cqlog := BitVec.ofNat 8 (bits value 15 8), sqlog := BitVec.ofNat 8 (bits value 7 0) }
    if bit value 31 then { r with en := true, sqHead := 0, sqTail := 0, cqTail := 0, cqHead := 0, phase := true, abort := none }
    else r
  else if bit value 31 then { r with cfgErr := true } else r

/-- A write of HIF_RING_CFGn (16 R360). -/
def State.writeRingCfg (s : State) (fn : Fn) (ring : RingId) (value : Half) : State :=
  if s.regsOpen fn then s.modRing fn ring fun r => r.configure fn (s.ringBusy fn ring) value else s

def execHifRingCfg (fn : Fn) (ring : RingId) (value : Half) (s : State) : Host.Outcome State Fault Refusal :=
  .next (s.writeRingCfg fn ring value)

/-- LOG lies in 6 to 16 and VEC in the table (16 R384). -/
def evqFieldsOk (n : Fn) (value : Half) : Bool :=
  decide (bits value 26 16 < vectors n) && decide (6 ≤ bits value 7 0) && decide (bits value 7 0 ≤ 16)

/-- A write of HIF_EVQ_CFG (16 R384, 20 R455): enabling starts an empty ring, into which held events are written (19 R430). -/
def State.writeEvqCfg (s : State) (fn : Fn) (value : Half) : State :=
  if !s.regsOpen fn then s
    else if (s.func fn).evq.en then
      if bit value 31 then s else s.modFunc fn fun f => { f with evq := { f.evq with en := false } }
    else if !evqFieldsOk fn value then s
    else
      let s := s.modFunc fn fun f => { f with evq := { f.evq with vec := BitVec.ofNat 11 (bits value 26 16)
                                                                  log := BitVec.ofNat 8 (bits value 7 0) } }
      if bit value 31 then
        let s := s.modFunc fn fun f =>
          { f with evq := { f.evq with en := true, tail := 0, head := 0, phase := true, unread := [] } }
        if s.pins.pcieUp then s.flushHeld fn else s
      else s

def execHifEvqCfg (fn : Fn) (value : Half) (s : State) : Host.Outcome State Fault Refusal := .next (s.writeEvqCfg fn value)

/-- HIF_SQ_BASEn, HIF_CQ_BASEn, HIF_EVQ_BASE: bits [63:12] are stored while the ring is disabled (20 R455 puts them under
R360; log 26). -/
def baseOf (value : Word) : Word := value &&& 0xFFFFFFFFFFFFF000

/-! ### Doorbells (16 R361) -/

/-- The host wrote SQ_TAIL of a page: ring pair n for n below 64, else ignored. -/
def execSqTail (fn : Fn) (page : Fin 128) (value : Half) (s : State) : Host.Outcome State Fault Refusal :=
  .next (if h : page.val < 64 then
    if !s.fnUp fn || s.mgmt.recov then s else
    s.modRing fn ⟨page.val, h⟩ fun r =>
      if !r.en then r
      else if bits value 15 0 < 2 ^ r.sqlog.toNat then { r with sqTail := bits value 15 0 } else { r with dbErr := true }
  else s)

/-- Entries that a CQ_HEAD write consumes: from the previous head up to the entry before the value (16 R361). -/
def consumed (log : Byte) (old new : Nat) : Nat := (new + 2 ^ log.toNat - old) % 2 ^ log.toNat

/-- ALERT_N of a divergence is released once its event has been read (18 R418). -/
def State.readEvents (s : State) (n : Fn) (k : Nat) : State :=
  let codes := (s.func n).evq.unread
  let s := s.modFunc n fun f => { f with evq := { f.evq with unread := f.evq.unread.drop k } }
  if n.val = 0 ∧ (codes.take k).contains 0x0F01 ∧ !((codes.drop k).contains 0x0F01) then
    { s with pins := { s.pins with alerts := s.pins.alerts.filter fun a => !decide (a = .diverged) } }
  else s

/-- The host wrote CQ_HEAD: of a completion ring, or on page 64 of the event ring, where space that returns lets the overflow
event be written (16 R361, R384). -/
def execCqHead (fn : Fn) (page : Fin 128) (value : Half) (s : State) : Host.Outcome State Fault Refusal :=
  .next (if !s.fnUp fn || s.mgmt.recov then s
    else if h : page.val < 64 then
      s.modRing fn ⟨page.val, h⟩ fun r =>
        if !r.en then r
        else if bits value 15 0 < 2 ^ r.cqlog.toNat then { r with cqHead := bits value 15 0 } else { r with dbErr := true }
    else if page.val = 64 then
      let r := (s.func fn).evq
      if !r.en || !decide (bits value 15 0 < 2 ^ r.log.toNat) then s else
      let s := s.readEvents fn (consumed r.log r.head (bits value 15 0))
      (s.modFunc fn fun f => { f with evq := { f.evq with head := bits value 15 0 } }).flushOverflow fn
    else s)

/-- The host wrote ABORT_DB: the descriptor at that index is the next one fetched (16 R379). -/
def execAbortDb (fn : Fn) (page : Fin 128) (value : Half) (s : State) : Host.Outcome State Fault Refusal :=
  .next (if h : page.val < 64 then
    if !s.fnUp fn || s.mgmt.recov then s else
    s.modRing fn ⟨page.val, h⟩ fun r =>
      if !r.en then r
      else if bits value 15 0 < 2 ^ r.sqlog.toNat then { r with abort := some (bits value 15 0) } else { r with dbErr := true }
  else s)

/-! ### Translations, interrupts, SR-IOV -/

/-- An ATS invalidation completes after every access that used the translation; accesses are whole commands here, so the
translation leaves the cache at once (16 R358). -/
def execAtsInvalidation (fn : Fn) (page : BitVec 52) (s : State) : Host.Outcome State Fault Refusal :=
  .next (if s.fnUp fn then s.modFunc fn fun f => { f with atc := f.atc.filter fun x => !decide (x = page) } else s)

/-- The host clears a vector's Mask bit: a message whose Pending Bit is set is sent (16 R385). -/
def execMsixVectorUnmask (fn : Fn) (vec : Nat) (s : State) : Host.Outcome State Fault Refusal :=
  .next (if s.fnUp fn && decide (vec < vectors fn) && !(s.func fn).unmasked.contains vec then
    let due := (s.func fn).msixPend.contains vec
    let s := s.modFunc fn fun f =>
      { f with unmasked := vec :: f.unmasked, msixPend := f.msixPend.filter fun v => !decide (v = vec) }
    if due then s.emit (.msix fn vec) else s
  else s)

/-- The host sets how many VFs SR-IOV enables (14 R327); above 16 the write has no effect. -/
def execSrIovEnable (vfs : Nat) (s : State) : Host.Outcome State Fault Refusal :=
  .next (if s.fnUp 0 && decide (vfs ≤ 16) then { s with vfs := vfs } else s)

end Sys2Proof.Machine
end

