-- ==== Sys2Proof/Machine/Load.lean ====
section
/-!
DEFINITION. Sys2Proof/Machine/Load.lean: LOAD_PROGRAM and PROGRAM_UNLOAD: the checks of a program image in the order of 16 R382,
those of the owning chapters in ascending STYPE (07 R154; 05 R113, R116; 10 R245; 08 R196, R199; 11 R278; 12 R293; 13 R313), the
logical map (01 R26, R27), the channels (05 R117), installing and unloading (16 R371).
-/
namespace Sys2Proof.Machine

/-- Two ranges (address, size) overlap. -/
def overlap (x y : Nat × Nat) : Bool :=
  decide (0 < x.2) && decide (0 < y.2) && decide (x.1 < y.1 + y.2) && decide (y.1 < x.1 + x.2)

/-- Some two ranges of a list overlap. -/
def anyOverlap : List (Nat × Nat) → Bool
  | [] => false
  | x :: xs => (xs.any fun y => overlap x y) || anyOverlap xs

/-! ### Instruction words (07 R153, R154) -/

/-- A word that LOAD_PROGRAM accepts: one that spells a command; which words of the classes whose functions the manual does not list are
instructions is opaque, beside RND of class FP and the S position of the vector classes (07 R157, R177, log 22). -/
def wordOk (w : Nat) : Bool :=
  let allowed := Config.classWordAllowed (BitVec.ofNat 32 w)
  match wMajor w with
  | 0x01 => allowed
  | 0x02 => allowed
  | 0x03 => allowed
  | 0x04 => allowed
  | 0x05 => allowed && decide (nbits w 1 0 < 2)
  | 0x11 => allowed && decide (nbits w 0 0 = 0)
  | 0x13 => allowed && decide (nbits w 0 0 = 0)
  | 0x14 => allowed && decide (nbits w 0 0 = 0)
  | 0x15 => allowed && decide (nbits w 0 0 = 0)
  | _ => (coreCommand 0 w).isSome

/-- Every word of every code section. -/
def codeCheck (img : List Byte) : Check :=
  firstFail [(!((imgSections img).filter fun x => decide (x.ty = sCode)).all fun x =>
    (List.range (x.size / 4)).all fun i => wordOk (imgLe img (x.off + 4 * i) 4), eField)]

/-! ### Container (16 R380 to R382) -/

/-- Record size of a section of fixed-size records, 0 for the others. -/
def recordSize (ty : Nat) : Nat :=
  match ty with
  | 0x02 => 16
  | 0x03 => 64
  | 0x05 => 32
  | 0x06 => 32
  | 0x07 => 8
  | 0x09 => 64
  | 0x0B => 16
  | 0x0D => 16
  | 0x0E => 32
  | _ => 0

/-- A silo region is declared and nothing is held in the image. -/
def declOnly (ty : Nat) : Bool := ty = sRlog || ty = sDlog

/-- Step 1: the header. -/
def headerBad (img : List Byte) (len : Nat) : Bool :=
  let s := imgLe img 16 1
  let t := imgLe img 17 1
  decide (imgLe img 0 4 ≠ 0x54504731) || decide (imgLe img 4 2 ≠ 0x0100) || decide (imgLe img 19 237 ≠ 0) ||
    decide (s < 1) || decide (16 < s) || decide (t < 1) || decide (8 < t) || decide (s < imgLe img 18 1) ||
    decide (imgLe img 8 8 ≠ len) || decide (imgNsec img < 1) || decide (64 < imgNsec img)

/-- A directory entry breaks its table (step 3). -/
def entryBad (img : List Byte) (x : Section) : Bool :=
  let s := imgLe img 16 1
  let t := imgLe img 17 1
  decide (x.resv ≠ 0) || decide (x.ty < 1) || decide (14 < x.ty) ||
    (if declOnly x.ty then decide (x.off ≠ 0) || decide (x.size ≠ 0)
     else
      (decide (x.ty ≠ sLinkw) && decide (x.addr ≠ 0)) || ((x.ty = sCode || x.ty = sPattern) && decide (x.count ≠ 0)) ||
        (decide (recordSize x.ty ≠ 0) && decide (x.size ≠ recordSize x.ty * x.count)) ||
        (decide (x.ty = sEntry) && decide (x.count ≠ s * t)) || (decide (x.ty = sStash) && decide (x.count ≠ s)))

/-- Step 3: the entries, how often a type appears, ENTRY and CODE present. -/
def directoryBad (img : List Byte) : Bool :=
  let xs := imgSections img
  let n (ty : Nat) : Nat := (xs.filter fun x => decide (x.ty = ty)).length
  (xs.any fun x => entryBad img x) || decide (n sCode < 1) || decide (32 < n sCode) || decide (n sEntry ≠ 1) ||
    decide (32 < n sPattern) || [3, 5, 6, 7, 8, 9, 10, 11, 12, 13, 14].any fun ty => decide (1 < n ty)

/-- Step 4. -/
def sectionMisaligned (x : Section) : Bool :=
  decide (x.off % 64 ≠ 0) || decide (x.addr % 64 ≠ 0) || (decide (x.ty = sCode) && decide (x.size % 4 ≠ 0))

/-- Step 5: held sections within LEN, clear of header, directory and one another. -/
def heldBad (img : List Byte) (len : Nat) : Bool :=
  let held := ((imgSections img).filter fun x => !declOnly x.ty && decide (x.size ≠ 0)).map fun x => (x.off, x.size)
  (held.any fun x => decide (len < x.1 + x.2)) || anyOverlap ((0, 256 + 32 * imgNsec img) :: held)

/-- Step 6: entries of ENTRY. -/
def entriesBad (img : List Byte) : Bool :=
  (imgRecords img sEntry 16).any fun o =>
    let k := imgLe img o 2
    let off := imgLe img (o + 8) 8
    decide (imgLe img (o + 2) 6 ≠ 0) || decide (imgNsec img ≤ k) || decide ((imgSection img k).ty ≠ sCode) ||
      decide (off % 4 ≠ 0) || decide ((imgSection img k).size ≤ off)

/-- Offsets of the PATTERN sections. -/
def imgPatterns (img : List Byte) : List Section := (imgSections img).filter fun x => decide (x.ty = sPattern)

/-- Value array, factor and last solution of the channels whose PATTERN is a section (05 R116). -/
def chanRegions (img : List Byte) : List (Nat × Nat) :=
  (imgChans img).flatMap fun c =>
    if (imgPatterns img).any fun x => decide (x.off = c.pattern) then
      [(c.val, 8 * imgLe img (c.pattern + 16) 8), (c.fac, 8 * imgLe img (c.pattern + 24) 8)] ++
        (if c.lch < 4 then [(c.last, 8 * imgLe img (c.pattern + 8) 4)] else [])
    else []

/-- Deferral buffers (12 R293): 64 B and the contribution of the record that names the entry. -/
def deferBuffers (img : List Byte) : List (Nat × Nat) :=
  ((imgDeadlines img).zipIdx.filter fun (d : Deadline × Nat) => decide (d.1.policy = 1)).map fun (d : Deadline × Nat) =>
    (d.1.dbuf, 64 + match (imgLinks img).find? fun r => decide (r.dln = d.2 + 1) with
      | none => 0
      | some r => contribution img r)

/-- The declared silo regions of a program (16 R382 step 7). -/
def declared (img : List Byte) : List (Nat × Nat) :=
  ((imgSections img).filterMap fun x =>
    if x.ty = sRlog ∨ x.ty = sDlog then some (x.addr, 64 + 16 * x.count)
    else if x.ty = sLinkw then some (x.addr, 8 * x.count) else none) ++ chanRegions img ++ deferBuffers img

/-- Step 7. -/
def regionsBad (x : Part) (img : List Byte) (dst len : Nat) : Bool :=
  let rs := declared img
  (rs.any fun r => !x.inSilo r.1 r.2 || overlap r (dst, len)) || anyOverlap rs

/-- Step 8: cross-references. -/
def crossBad (img : List Byte) : Bool :=
  let has (ty : Nat) : Bool := (imgFind img ty).isSome
  let ngroup := ((imgFind img sGroup).map (·.count)).getD 0
  (has sRegion && !has sRlog) ||
    ((imgLinks img).any fun r => decide (ngroup ≤ r.group) || (decide (r.dln ≠ 0) && !has sDlog)) ||
    (imgChans img).any fun c => !(imgPatterns img).any fun x => decide (x.off = c.pattern)

/-! ### Logical map (01 R26) -/

/-- Enabled tiles of a sheaf, ascending. -/
def State.sheafTiles (s : State) (x : EngId) : List TileId :=
  allTiles.filter fun t => decide (sheafOf t = x) && (s.tile t).enabled

/-- Logical sheaves k to S - 1 assigned from the free sheaves, those below E to sheaves with an enabled engine. -/
def assign (eng : EngId → Bool) (e : Nat) : Nat → Nat → List EngId → Option (List EngId)
  | _, 0, _ => some []
  | k, n + 1, free =>
    match free.find? fun x => decide (e ≤ k) || eng x with
    | none => none
    | some x => (assign eng e (k + 1) n (free.filter fun y => !decide (y = x))).map fun r => x :: r

/-- The logical map of a shape in a partition: physical sheaves and tiles. -/
def State.buildMap (s : State) (p : Pid) (sh t e : Nat) : Option (List EngId × List TileId) :=
  let free := allEngines.filter fun x => (s.part p).entry.hasSheaf x && decide (t ≤ (s.sheafTiles x).length)
  (assign (fun x => (s.engine x).enabled) e 0 sh free).map fun xs => (xs, xs.flatMap fun x => (s.sheafTiles x).take t)

/-! ### Owning chapters -/

/-- Channel records (05 R116). -/
def chanCheck (img : List Byte) : Check :=
  let cs := imgChans img
  let e := imgLe img 18 1
  firstFail
    [ ((cs.any fun c => decide (c.resv ≠ 0) || decide (e ≤ c.lse) || decide (c.tau < 8) || decide (56 < c.tau) ||
          decide (c.refresh = 0) || (decide (4 ≤ c.lch) && decide (c.last ≠ 0))) ||
        !distinct (cs.map fun c => 32 * c.lse + c.lch), eField),
      (cs.any fun c => decide (c.val % 64 ≠ 0) || decide (c.fac % 64 ≠ 0) || decide (c.last % 64 ≠ 0), eAlign) ]

/-- Fields of a pattern image header (05 R112). -/
structure PatHead where
  fact   : Nat
  offl   : Nat
  n      : Nat
  nnzA   : Nat
  nnzF   : Nat
  ex     : Int
  rowmax : Nat
  fprint : Nat
  offBase : Nat
  offSize : Nat
  rowptr : Nat
  colidx : Nat
  expr   : Nat
  expc   : Nat
  deriving DecidableEq, Repr

def patHead (b : List Byte) : PatHead :=
  { fact := imgLe b 6 1, offl := imgLe b 7 1, n := imgLe b 8 4, nnzA := imgLe b 16 8, nnzF := imgLe b 24 8,
    ex := signedOf 16 (imgLe b 40 2), rowmax := imgLe b 44 4, fprint := imgLe b 48 8, offBase := imgLe b 56 4,
    offSize := imgLe b 60 4, rowptr := imgLe b 64 8, colidx := imgLe b 72 8, expr := imgLe b 80 8, expc := imgLe b 88 8 }

/-- ROWPTR[i], COLIDX[k], row and column exponents of a pattern image. -/
def patRow (b : List Byte) (h : PatHead) (i : Nat) : Nat := imgLe b (h.rowptr + 8 * i) 8
def patCol (b : List Byte) (h : PatHead) (k : Nat) : Nat := imgLe b (h.colidx + 4 * k) 4
def patExpR (b : List Byte) (h : PatHead) (i : Nat) : Int := signedOf 16 (imgLe b (h.expr + 2 * i) 2)
def patExpC (b : List Byte) (h : PatHead) (j : Nat) : Int := signedOf 16 (imgLe b (h.expc + 2 * j) 2)

/-- Column indices of row i. -/
def patCols (b : List Byte) (h : PatHead) (i : Nat) : List Nat :=
  (natRange (patRow b h i) (patRow b h (i + 1))).map (patCol b h)

/-- A list rises strictly. -/
def rising : List Nat → Bool
  | [] => true
  | [_] => true
  | x :: y :: r => decide (x < y) && rising (y :: r)

/-- The structure fingerprint (05 R114). -/
def fingerprint (b : List Byte) (h : PatHead) : Nat :=
  leNat ((sha384 (((b.drop h.rowptr).take (8 * (h.n + 1))) ++ ((b.drop h.colidx).take (4 * h.nnzA)))).take 8).reverse

/-- Entries of a row as ROWMAX counts them (05 R112). -/
def rowLength (b : List Byte) (h : PatHead) (i : Nat) : Nat :=
  (patCols b h i).length +
    (if h.fact = 1 then ((List.range i).filter fun k => (patCols b h k).contains i).length else 0)

/-- Stage 3: the arrays. -/
def patArraysBad (b : List Byte) (h : PatHead) : Bool :=
  let rows := List.range h.n
  let expBad (e : Int) : Bool := decide (e < -1000) || decide (1000 < e)
  decide (patRow b h 0 ≠ 0) || decide (patRow b h h.n ≠ h.nnzA) ||
    (rows.any fun i => decide (patRow b h (i + 1) < patRow b h i)) ||
    (rows.any fun i => expBad (patExpR b h i) || expBad (patExpC b h i)) ||
    (decide (h.fact = 1) && rows.any fun i => decide (patExpR b h i ≠ patExpC b h i)) ||
    (rows.any fun i => !rising (patCols b h i) || (patCols b h i).any fun j => decide (h.n ≤ j)) ||
    (rows.any fun i => !(patCols b h i).contains i) ||
    (decide (h.fact = 1) && rows.any fun i => (patCols b h i).any fun j => decide (j < i)) ||
    decide (h.fprint ≠ fingerprint b h)

/-- The checks of a pattern image of `size` bytes (05 R113). -/
def patCheck (b : List Byte) (size t : Nat) : Check :=
  let h := patHead b
  let beyond (off n : Nat) : Bool := decide (size < off + n)
  firstFail
    [ (decide (imgLe b 0 4 ≠ 0x54504931) || decide (imgLe b 4 2 ≠ 0x0100) || decide (1 < h.fact) || decide (imgLe b 12 4 ≠ 0) ||
        decide (imgLe b 42 2 ≠ 0) || decide (imgLe b 128 128 ≠ 0) || decide (h.ex < -1000) || decide (1000 < h.ex) ||
        decide (h.n = 0) || decide (h.nnzA = 0) || decide (h.rowmax = 0) || decide (h.nnzF < h.n) ||
        (decide (h.offSize ≠ 0) && decide (h.offl = 0)), eField),
      (decide (h.rowptr % 64 ≠ 0) || decide (h.colidx % 64 ≠ 0) || decide (h.expr % 64 ≠ 0) || decide (h.expc % 64 ≠ 0) ||
        decide (imgLe b 96 8 % 64 ≠ 0) || decide (imgLe b 104 8 % 64 ≠ 0) || decide (imgLe b 112 8 % 64 ≠ 0) ||
        decide (h.offBase % 4096 ≠ 0) || decide (h.offSize % 4096 ≠ 0), eAlign),
      (decide (8388608 < h.n) || decide (4294967295 < h.nnzA) || decide (4294967296 < h.nnzF) || decide (32768 < h.rowmax) ||
        decide (t < h.offl) || decide (2 ^ 22 < h.offBase + h.offSize), eCapacity),
      (beyond 0 256 || beyond h.rowptr (8 * (h.n + 1)) || beyond h.colidx (4 * h.nnzA) || beyond h.expr (2 * h.n) ||
        beyond h.expc (2 * h.n) || beyond (imgLe b 96 8) 1 || beyond (imgLe b 104 8) 1 || beyond (imgLe b 112 8) 1, eRange),
      (patArraysBad b h, eField),
      ((List.range h.n).any fun i => decide (h.rowmax < rowLength b h i), eCapacity) ]

/-- The pattern image at an offset: from its header to the end of its section. -/
def patBytes (img : List Byte) (off : Nat) : List Byte :=
  match (imgPatterns img).find? fun x => decide (x.off = off) with
  | none => []
  | some x => imgBytes img x

/-- Every pattern image that a channel record names, in the order of the records. -/
def patternCheck (img : List Byte) : Check :=
  ((imgChans img).map (·.pattern)).eraseDups.findSome? fun off =>
    patCheck (patBytes img off) (patBytes img off).length (imgLe img 17 1)

/-- Entries of the sync table: index and initial state. -/
def imgSync (img : List Byte) : List (Nat × BitVec 128) :=
  (imgRecords img sSync 32).map fun o => (imgLe img o 2, BitVec.ofNat 128 (imgLe img (o + 16) 16))

def syncCheck (x : Part) (img : List Byte) : Check :=
  firstFail
    [ ((imgRecords img sSync 32).any fun o => decide (imgLe img (o + 2) 14 ≠ 0), eField),
      ((imgSync img).any fun (e : Nat × BitVec 128) => (x.objOf e.1).isNone, eRange) ]

/-- Region records (08 R199). -/
def regionCheck (x : Part) (img : List Byte) : Check :=
  let rs := imgRegions img
  firstFail
    [ (!distinct (rs.map (·.rid)) || rs.any fun r => decide (r.resv ≠ 0) ||
        ((r.codes.take (r.nrm1 + 1)).any fun c => decide (8 ≤ c)) || decide (imgLe img 16 1 * imgLe img 17 1 ≤ r.lead), eField),
      (rs.any fun r => (x.objOf r.bar).isNone, eRange),
      (decide (4096 < rs.length), eCapacity) ]

/-- A watch record (08 R196): WIDX, THRESH, reserved bits, TID. -/
def imgWatch (img : List Byte) : List (Nat × Nat × Nat × Nat) :=
  (imgRecords img sWatch 8).map fun o =>
    let w := imgLe img o 8
    (nbits w 63 52, nbits w 51 36, nbits w 35 32, nbits w 31 0)

def watchCheck (img : List Byte) : Check :=
  let ws := imgWatch img
  firstFail [((ws.any fun (w : Nat × Nat × Nat × Nat) => decide (w.2.1 = 0) || decide (w.2.2.1 ≠ 0)) || !distinct (ws.map (·.1)), eField)]

/-- Kind of the object an index names for a program: as its sync table writes it, else as it stands (11 R278, log 29). -/
def State.kindFor (s : State) (x : Part) (img : List Byte) (i : Nat) : Nat :=
  match (imgSync img).find? fun (e : Nat × BitVec 128) => decide (e.1 = i) with
  | some e => objKind e.2
  | none => match x.objOf i with | none => 0 | some o => objKind (s.obj o)

/-- A group table entry is broken: its size, reserved bytes, members (16 R381, 11 R278). -/
def groupBad (s : State) (img : List Byte) : Bool :=
  match imgFind img sGroup with
  | none => false
  | some x =>
    let gs := imgGroups img
    let last := match gs.getLast? with | none => x.off | some g => g.next
    decide (last ≠ x.off + x.size) || gs.any fun g => decide (g.n < 1) || decide (8192 < g.n) || decide (g.resv ≠ 0) ||
      !distinct g.ids || !g.ids.contains s.links.modId.toNat ||
      decide (imgLe img (g.next - (8 - 2 * g.n % 8) % 8) ((8 - 2 * g.n % 8) % 8) ≠ 0)

/-- Local regions of a record as it reads and writes the silo (11 R277, R279). -/
def linkRegions (img : List Byte) (r : LinkRec) : List (Nat × Nat) :=
  let n := groupRanks img r.group
  let b := linkElem r.etype * r.count
  match r.op with
  | 1 => [(r.src, r.count)]
  | 2 => [(r.src, b * n), (r.dst, b)]
  | 3 => [(r.src, b), (r.dst, b * n)]
  | 4 => [(r.src, b), (r.dst, b)]
  | _ => [(r.src, b), (r.dst, b)]

/-- Fields of a link record (11 R278). -/
def linkFieldBad (s : State) (x : Part) (img : List Byte) (r : LinkRec) : Bool :=
  let reds := [0, 1, 2, 3, 7, 8, 9, 0xC]
  let moves := [0, 1, 2, 3, 4, 5, 6, 7, 8, 9, 0xC]
  let wref := BitVec.ofNat 64 r.wref
  let dref := BitVec.ofNat 64 r.dref
  decide (r.resv ≠ 0) || decide (r.resv7 ≠ 0) || decide (r.op < 1) || decide (5 < r.op) || decide (r.wcond = 3) ||
    !(match r.op with
      | 2 => reds.contains r.etype
      | 4 => reds.contains r.etype
      | 3 => moves.contains r.etype
      | 5 => moves.contains r.etype
      | _ => r.etype = 0) ||
    decide (r.cvc / 16 ≠ 0) || decide (2 ≤ r.cvc % 4) ||
    (match r.op with
      | 5 => decide (groupRanks img r.group ≤ r.tgt)
      | 1 => decide (0x1FFF < r.tgt) || decide (r.tgt = s.links.modId.toNat)
      | _ => decide (r.tgt ≠ 0)) ||
    refBad wref || bit wref 63 || refBad dref || bit dref 63 ||
    (decide (r.wcond = 1) && decide (s.kindFor x img (refIndex wref).toNat ≠ 3)) ||
    (decide (r.wcond = 2) && decide (s.kindFor x img (refIndex wref).toNat ≠ 0)) ||
    (decide (s.kindFor x img (refIndex dref).toNat ≠ 0) && decide (s.kindFor x img (refIndex dref).toNat ≠ 3))

/-- The link work list and the group table (11 R278). -/
def linkCheck (s : State) (x : Part) (img : List Byte) : Check :=
  let rs := imgLinks img
  firstFail
    [ (groupBad s img || rs.any fun r => linkFieldBad s x img r, eField),
      (rs.any fun r => ((linkRegions img r).any fun a => !x.inSilo a.1 a.2) ||
        (decide (r.wcond ≠ 0) && (x.objOf (refIndex (BitVec.ofNat 64 r.wref)).toNat).isNone) ||
        (x.objOf (refIndex (BitVec.ofNat 64 r.dref)).toNat).isNone, eRange),
      (rs.any fun r =>
        if r.op = 1 then decide (r.src % 64 ≠ 0) || decide (r.dst % 64 ≠ 0) || decide (r.count % 64 ≠ 0)
        else decide (r.src % linkElem r.etype ≠ 0) || decide (r.dst % linkElem r.etype ≠ 0), eAlign) ]

/-- Records that the deferral log must hold (12 R299). -/
def deferralNeed (img : List Byte) : Nat :=
  (imgLinks img).foldl (fun k r =>
    if r.dln = 0 then k else
    match (imgDeadlines img)[r.dln - 1]? with
    | none => k
    | some d => k + (if d.policy = 1 then 2 * d.maxx else if d.policy = 2 then d.maxx else 0)) 0

/-- The deadline table (12 R293). -/
def deadlineCheck (img : List Byte) : Check :=
  let ds := imgDeadlines img
  let rs := imgLinks img
  firstFail
    [ ((rs.any fun r => decide (ds.length < r.dln) || (decide (r.dln ≠ 0) && decide (r.op ≠ 2) && decide (r.op ≠ 4)) ||
          (decide (r.dln ≠ 0) && decide (r.mode = 1) && decide ((ds[r.dln - 1]?.map (·.policy)).getD 0 = 1))) ||
        (ds.any fun d => decide (d.resv ≠ 0) || decide (d.policy = 3) || decide (d.maxx = 0) || decide (d.close = 0) ||
          (decide (d.policy ≠ 1) && decide (d.dbuf ≠ 0))) ||
        (ds.zipIdx.any fun (d : Deadline × Nat) => decide (d.1.policy = 1) &&
          decide (1 < (rs.filter fun r => decide (r.dln = d.2 + 1)).length)), eField),
      (ds.any fun d => decide (d.dbuf % 64 ≠ 0), eAlign),
      (decide (255 < ds.length) || decide (((imgFind img sDlog).map (·.count)).getD 0 < deferralNeed img), eCapacity) ]

/-- The digest list (13 R313). -/
def digestCheck (x : Part) (img : List Byte) : Check :=
  let es := imgDigests img
  match imgFind img sDigest with
  | none => none
  | some _ =>
    firstFail
      [ ((es.any fun e => decide (1 < e.kind) || decide (e.resv ≠ 0) || decide (e.len = 0)) ||
          anyOverlap (es.map fun e => (e.addr, e.len)) ||
          ((deferBuffers img).any fun d => !es.any fun e => decide (e.kind = 0) && decide (e.addr ≤ d.1) &&
            decide (d.1 + d.2 ≤ e.addr + e.len)), eField),
        (es.any fun e => decide (e.addr % 64 ≠ 0) || decide (e.len % 64 ≠ 0), eAlign),
        (es.any fun e => !x.inSilo e.addr e.len, eRange),
        (decide (1024 < es.length), eCapacity) ]

/-! ### Channels (05 R117) -/

/-- The channel is free for a program that goes into slot k. -/
def Channel.freeFor (c : Channel) (p : Pid) (k : SlotId) : Bool :=
  match c.alloc with
  | none => true
  | some a => decide (a.pid = p) && decide (a.slot = k)

/-- Free, non-retired physical channels of an engine within a range. -/
def State.freeChans (s : State) (e : EngId) (p : Pid) (k : SlotId) (lo hi : Nat) : List ChanId :=
  (List.finRange 32).filter fun c => decide (lo ≤ c.val) && decide (c.val < hi) && !bit (s.engine e).chanRet c.val &&
    (s.chan e c).freeFor p k

/-- The channels of one logical engine: warm ones to 0 to 3, the others to 4 to 31, in ascending order. -/
def State.allocEngine (s : State) (p : Pid) (k : SlotId) (lse : Nat) (e : EngId) (lchs : List Nat) : Option (List ChanMap) :=
  let warm := (List.range 4).filter fun l => lchs.contains l
  let rest := (natRange 4 32).filter fun l => lchs.contains l
  let fw := s.freeChans e p k 0 4
  let fr := s.freeChans e p k 4 32
  if fw.length < warm.length ∨ fr.length < rest.length then none
  else some (((warm.zip fw) ++ (rest.zip fr)).map fun (x : Nat × ChanId) => { lse := lse, lch := x.1, eng := e, ch := x.2 })

/-- The physical channels of a program's logical channels, or none when some cannot be had. -/
def State.allocate (s : State) (p : Pid) (k : SlotId) (img : List Byte) (xs : List EngId) : Option (List ChanMap) :=
  (List.range (imgLe img 18 1)).foldl (fun acc lse =>
    match acc, xs[lse]? with
    | some ms, some e =>
      (s.allocEngine p k lse e (((imgChans img).filter fun c => decide (c.lse = lse)).map (·.lch))).map fun m => ms ++ m
    | _, _ => none) (some [])

/-- A channel as allocated: values zero, factor invalid, queue, pivot record and mismatch count empty; the warm record stays
(05 R117, 06 R137). -/
def Channel.allocated (c : Channel) (a : ChanAlloc) : Channel :=
  { Channel.reset with alloc := some a, wvalid := c.wvalid, wprint := c.wprint, waddr := c.waddr }

/-- Value arrays that an allocation clears (05 R117). -/
def zeroTargets (img : List Byte) (ms : List ChanMap) : List (Nat × Nat) :=
  ms.filterMap fun m =>
    ((imgChans img).find? fun c => decide (c.lse = m.lse) && decide (c.lch = m.lch)).map fun r =>
      (r.val, 8 * (patHead (patBytes img r.pattern)).nnzA)

/-- The channel records take their physical channels. -/
def State.placeChannels (s : State) (p : Pid) (k : SlotId) (img : List Byte) (ms : List ChanMap) : State :=
  ms.foldl (fun s m =>
    match (imgChans img).find? fun c => decide (c.lse = m.lse) && decide (c.lch = m.lch) with
    | none => s
    | some r =>
      let b := patBytes img r.pattern
      let h := patHead b
      let a : ChanAlloc :=
        { pid := p, slot := k, lse := m.lse, lch := m.lch, hostOwn := r.host, tau := r.tau, refresh := r.refresh, pattern := b,
          valAddr := r.val, facAddr := r.fac, lastAdr := r.last, fprint := BitVec.ofNat 64 h.fprint }
      (s.siloZero p r.val (8 * h.nnzA)).modChan m.eng m.ch fun c => c.allocated a) s

/-! ### Loading and unloading (16 R371) -/

/-- Counters and fault registers of a tile cleared (02 R55, 04 R99, 20 R449). -/
def Tile.clearCounters (x : Tile) : Tile := { x with cnt := Counters.reset, faults := FaultRegs.reset }

/-- The slot's program is unloaded: its channels released with their commands, its map and its record copy gone (01 R28; 05 R133;
16 R371, R378). -/
def State.unloadSlot (s : State) (p : Pid) (k : SlotId) : State :=
  match s.prog p k with
  | none => s
  | some _ =>
    let mine (a : ChanAlloc) : Bool := decide (a.pid = p) && decide (a.slot = k)
    let s := s.endChannels mine eAborted true
    let s := s.releaseChannels mine
    s.modPart p fun x => { x with slots := x.slots.set k none, results := x.results.set k none }

/-- Streak 0 in each declared watch entry (08 R196). -/
def declareWatch (ws : List Watch) (img : List Byte) : List Watch :=
  let ds := imgWatch img
  let old (i : Nat) : Option Watch := ws.find? fun w => decide (w.widx = i)
  (ws.filter fun w => !ds.any fun (d : Nat × Nat × Nat × Nat) => decide (d.1 = w.widx)) ++
    ds.map fun (d : Nat × Nat × Nat × Nat) =>
      { widx := d.1, thresh := d.2.1, tid := BitVec.ofNat 32 d.2.2.2, streak := 0
        touched := ((old d.1).map (·.touched)).getD false, nz := ((old d.1).map (·.nz)).getD false }

/-- The checks of an image at its place, in the order of 16 R382. -/
def State.imageCheck (s : State) (p : Pid) (img : List Byte) (dst : Nat) : Check :=
  let x := s.part p
  let len := img.length
  (firstFail
    [ (headerBad img len, eField),
      (decide (len < 256 + 32 * imgNsec img), eRange),
      (directoryBad img, eField),
      ((imgSections img).any sectionMisaligned, eAlign),
      (heldBad img len, eRange),
      (entriesBad img, eField),
      (regionsBad x img dst len, eRange),
      (crossBad img, eField),
      ((s.buildMap p (imgLe img 16 1) (imgLe img 17 1) (imgLe img 18 1)).isNone, eCapacity) ]).or
  ((codeCheck img).or ((chanCheck img).or ((patternCheck img).or ((syncCheck x img).or ((regionCheck x img).or
  ((watchCheck img).or ((linkCheck s x img).or ((deadlineCheck img).or (digestCheck x img)))))))))

/-- The accepted program replaces the slot's (16 R371; 02 R55). -/
def State.install (s : State) (p : Pid) (k : SlotId) (img : List Byte) (dst : Nat) (m : List EngId × List TileId)
    (ms : List ChanMap) : State :=
  let s := s.unloadSlot p k
  let prog : Program :=
    { image := img, addr := dst, s := imgLe img 16 1, t := imgLe img 17 1, e := imgLe img 18 1, sheafs := m.1, tiles := m.2,
      chans := ms, chain := zeros48 }
  let s := s.modPart p fun x => { x with slots := x.slots.set k (some prog), watch := declareWatch x.watch img }
  let s := s.placeChannels p k img ms
  s.mapTiles (fun t => m.2.contains t) Tile.clearCounters

/-- A launch of the slot's program runs or was fetched before the command. -/
def State.slotBusy (s : State) (p : Pid) (k : SlotId) (n : Fn) (cid : Nat) : Bool :=
  (match (s.part p).launch with | none => false | some l => decide (l.slot = k)) ||
    (((s.func n).cmds.takeWhile fun x => !decide (x.cid = cid)).any fun x =>
      (decide (bits (dw x.desc 0) 63 56 = 0x02) || decide (bits (dw x.desc 0) 63 56 = 0x03)) &&
        decide (bits (dw x.desc 1) 2 0 = k.val))

/-- The image region and the declared regions of the other slots' programs. -/
def Part.otherRegions (x : Part) (k : SlotId) : List (Nat × Nat) :=
  ((List.finRange 8).filter fun j => !decide (j = k)).flatMap fun j =>
    match x.slots[j] with
    | none => []
    | some g => (g.addr, g.image.length) :: declared g.image

/-- Program slot in word 4 of LOAD_PROGRAM. -/
def loadSlot (d : BitVec 512) : SlotId := ⟨bits (dw d 4) 2 0, by unfold bits; exact Nat.mod_lt _ (by decide)⟩

/-- Reserved words of LOAD_PROGRAM, and LEN against UNLD. -/
def loadFieldBad (d : BitVec 512) (unld : Bool) : Bool :=
  headBad d || !zeroFrom d 5 || decide (bits (dw d 3) 63 40 ≠ 0) || decide (bits (dw d 4) 63 4 ≠ 0) ||
    (unld != decide (dw d 3 = 0))

/-- Exactly n bytes of what the host returned. -/
def hostData (data : List Byte) (n : Nat) : List Byte := (data ++ List.replicate (n - data.length) 0).take n

/-- LOAD_PROGRAM with UNLD = 0 (16 R371, R382); `image`: what the host answered to the reads of the image. A write of the image or of a
value array to a granule that waits for its clear is held with the command (09 R234). -/
def execLoadProgram (fn : Fn) (cid : Nat) (image : HostReply) (s : State) : Host.Outcome State Fault Refusal :=
  match s.dueCmd fn cid 0x01, s.partOfFn fn with
  | some c, some p =>
    let d := c.desc
    let dst := (dw d 2).toNat
    let len := bits (dw d 3) 39 0
    let k := loadSlot d
    if bit (dw d 4) 3 then notDue "LOAD_PROGRAM" else
    let check := firstFail
      [ (loadFieldBad d false, eField),
        (decide ((dw d 1).toNat % 64 ≠ 0) || decide (dst % 4096 ≠ 0) || decide (len % 64 ≠ 0), eAlign),
        (!(s.part p).inSilo dst len || ((s.part p).otherRegions k).any fun r => overlap r (dst, len), eRange),
        (s.siloFenced p dst len, eRetired),
        (s.slotBusy p k fn cid, eBusy) ]
    match check with
    | some code => .next (s.complete fn c code 0 0)
    | none =>
      match s.holdWrites p [(dst, len)] with
      | some t => .next t
      | none =>
        let s := s.markOthers p
        let spoil (s : State) : State := (s.siloWrite p dst (s.freeBytes len)).skipFree len
        match image with
        | .error => .next ((spoil s).complete fn c eHostDma 0 0)
        | .ok data =>
          let img := hostData data len
          let s := s.siloWrite p dst img
          match s.imageCheck p img dst, s.buildMap p (imgLe img 16 1) (imgLe img 17 1) (imgLe img 18 1) with
          | some code, _ => .next ((spoil s).complete fn c code 0 0)
          | none, none => .next ((spoil s).complete fn c eCapacity 0 0)
          | none, some m =>
            match s.allocate p k img m.1 with
            | none => .next ((spoil s).complete fn c eCapacity 0 0)
            | some ms =>
              match s.holdWrites p (zeroTargets img ms) with
              | some t => .next t
              | none => .next ((s.install p k img dst m ms).complete fn c cOk 0 0)
  | _, _ => notDue "LOAD_PROGRAM"

/-- LOAD_PROGRAM with UNLD = 1 (16 R371). -/
def execProgramUnload (fn : Fn) (cid : Nat) (s : State) : Host.Outcome State Fault Refusal :=
  match s.dueCmd fn cid 0x01, s.partOfFn fn with
  | some c, some p =>
    let k := loadSlot c.desc
    if !bit (dw c.desc 4) 3 then notDue "PROGRAM_UNLOAD" else
    let check := firstFail [(loadFieldBad c.desc true, eField), (s.slotBusy p k fn cid, eBusy)]
    match check with
    | some code => .next (s.complete fn c code 0 0)
    | none => .next ((s.unloadSlot p k).complete fn c cOk 0 0)
  | _, _ => notDue "PROGRAM_UNLOAD"

end Sys2Proof.Machine
end

