-- ==== Sys2Proof/Machine/Power.lean ====
section
/-!
DEFINITION. Sys2Proof/Machine/Power.lean: the power manager: cap and policy registers, regulator samples, the cap loop and the
safety loops, rails, die temperature, ageing, deep idle (17 R390 to R402, R409).
-/
namespace Sys2Proof.Machine

/-- PF0's set-up registers and those of management answer: the module is up and not in recovery (19 R434). -/
def State.setupOpen (s : State) : Bool := s.up && !s.mgmt.recov

/-! ### Interventions and floors (13 R312; 17 R396, R397) -/

/-- Memory bandwidth is held below nominal. -/
def State.memHeld (s : State) : Bool := decide (s.power.mlvl.toNat < 8) || s.memctl.stackSt.toList.any fun x => decide (x.level.toNat < 8)

/-- A compute clock at work is held below its ceiling. -/
def State.clockHeld (s : State) : Bool :=
  allEngines.any fun e => s.sheafRuns e && decide ((s.power.k[e]).toNat < s.power.kmax.toNat)

/-- The PWR flag while any compute clock or the memory is held below nominal. -/
def State.markPower (s : State) : State := s.markWhere .pwr fun _ => s.clockHeld || s.memHeld

/-- The highest safety loop at work, by its priority (17 R397). -/
def State.loopAtWork (s : State) : Nat :=
  if s.power.railWarn.any (·.isSome) then 2
  else if s.power.fast then 3
  else if s.power.dieThrot.any (fun b => b) then 4
  else 5

/-- Some value is held below its floor by a safety loop. -/
def State.belowFloor (s : State) : Bool :=
  (allEngines.any fun e => decide ((s.power.k[e]).toNat < s.power.kmin.toNat)) ||
    decide (s.power.mlvl.toNat < s.power.mmin.toNat) || s.memctl.stackSt.toList.any fun x => decide (x.level.toNat < s.power.mmin.toNat)

/-- The lowest k applied, or the lowest memory level where no k is below its floor. -/
def State.lowestApplied (s : State) : Nat :=
  let ks := (allEngines.map fun e => (s.power.k[e]).toNat).foldl min 20
  if ks < s.power.kmin.toNat then ks else (s.memctl.stackSt.toList.map fun x => x.level.toNat).foldl min s.power.mlvl.toNat

/-- Number of the 1 ms window of a stamp. -/
def windowOf (now : Nat) : Nat := now / 1000000

/-- POLICY_FLOOR_OVERRIDDEN once for each window, ALERT_N while a value is below its floor (17 R397). -/
def State.checkFloors (s : State) : State :=
  let others := s.pins.alerts.filter fun a => !decide (a = .floor)
  if s.belowFloor then
    let s := { s with pins := { s.pins with alerts := .floor :: others } }
    if s.power.ovrWin = some (windowOf s.now) then s
    else { s with power := { s.power with ovrWin := some (windowOf s.now) } }.raisePf0 0x0603 none s.loopAtWork s.lowestApplied
  else { s with pins := { s.pins with alerts := others } }

/-- What follows every change of a limit: clocks move, flags and floors are looked at. -/
def State.afterPower (s : State) : State := s.settleK.markPower.checkFloors

/-- LIMITER of PWR_STAT. -/
def State.limiter (s : State) : Nat :=
  let capped := (allParts.any fun p => s.partRuns p && decide ((s.power.pk[p]).toNat < s.power.kmax.toNat)) ||
    decide (s.power.mlvl.toNat < 8)
  b2n capped + 2 * b2n s.belowFloor + 4 * b2n (s.power.dieThrot.any fun b => b) +
    8 * b2n (s.memctl.stackSt.toList.any fun x => decide (x.level.toNat < 8)) + 16 * b2n s.power.fast +
    32 * b2n (s.power.railWarn.any (·.isSome)) + 64 * b2n s.power.unmet

/-! ### Registers (17) -/

/-- PWR_CAP_CFG: 600 to 1,500, else ignored with CFGERR. -/
def State.writeCap (s : State) (value : Half) : State :=
  if !s.setupOpen then s
    else if 600 ≤ bits value 15 0 ∧ bits value 15 0 ≤ 1500 then
      { s with power := { s.power with cap := BitVec.ofNat 16 (bits value 15 0) } }
    else { s with power := { s.power with cfgErr := true } }

def execPwrCapCfg (value : Half) (s : State) : Host.Outcome State Fault Refusal := .next (s.writeCap value)

/-- Every field of a PWR_POLICY value is in range, and KMIN is not above KMAX. -/
def policyOk (value : Half) : Bool :=
  decide (90 ≤ bits value 31 24) && decide (bits value 31 24 ≤ 105) && decide (1 ≤ bits value 19 16) &&
    decide (bits value 19 16 ≤ 8) && decide (8 ≤ bits value 12 8) && decide (bits value 12 8 ≤ 20) && decide (8 ≤ bits value 4 0) &&
    decide (bits value 4 0 ≤ bits value 12 8)

/-- PWR_POLICY. -/
def State.writePolicy (s : State) (value : Half) : State :=
  if !s.setupOpen then s
    else if policyOk value then
      { s with power := { s.power with dthr := BitVec.ofNat 8 (bits value 31 24), mmin := BitVec.ofNat 4 (bits value 19 16),
                                       kmax := BitVec.ofNat 5 (bits value 12 8), kmin := BitVec.ofNat 5 (bits value 4 0) } }
    else { s with power := { s.power with cfgErr := true } }

def execPwrPolicy (value : Half) (s : State) : Host.Outcome State Fault Refusal := .next (s.writePolicy value)

/-! ### Samples (17 R390, R395 to R397) -/

/-- A sample enters its window; the first of a later window publishes the average of the one before (R390; rounded down, log 33). -/
def PowerSt.count1 (x : PowerSt) (now p : Nat) : PowerSt :=
  let w := windowOf now
  let x := { x with plast := BitVec.ofNat 16 p }
  if x.count ≠ 0 ∧ x.window = w then { x with sum := x.sum + p, count := x.count + 1 }
  else { x with window := w, sum := p, count := 1, pavg := if x.count = 0 then x.pavg else BitVec.ofNat 16 (x.sum / x.count) }

/-- PSHARE of the running partitions, summed. -/
def State.shareSum (s : State) : Nat :=
  ((allParts.filter s.partRuns).map fun p => (s.part p).entry.pshare.toNat).foldl (· + ·) 0

/-- Attributed power of a partition less its share, times the sum of shares (R395). -/
def State.overShare (s : State) (x : Sample) (p : Pid) : Int :=
  ((x.compute[p.val]?.getD 0) * s.shareSum : Nat) - ((s.power.cap.toNat : Int) - x.nonCompute) * (s.part p).entry.pshare.toNat

/-- Sheaves of a running partition. -/
def State.sheavesOf (s : State) (p : Pid) : List EngId := allEngines.filter fun e => (s.part p).entry.hasSheaf e

/-- The highest point of the partition's sheaves. -/
def State.topK (s : State) (p : Pid) : Nat := ((s.sheavesOf p).map fun e => (s.power.k[e]).toNat).foldl max 8

def State.setPk (s : State) (p : Pid) (k : Nat) : State :=
  { s with power := { s.power with pk := s.power.pk.set p (BitVec.ofNat 5 k) } }

/-- The partition's sheaves fall by one, to no less than KMIN. -/
def State.lowerPart (s : State) (p : Pid) : State := s.setPk p (max s.power.kmin.toNat (min (s.power.pk[p]).toNat (s.topK p) - 1))

/-- A limit left by a loop that has released rises with the partition (R397: "then R395"). -/
def State.raiseLim (s : State) (p : Pid) : State :=
  let up (e : EngId) : Bool := (s.part p).entry.hasSheaf e && !s.power.dieThrot[dieOf e] && (s.power.railWarn[dieOf e]).isNone &&
    decide ((s.power.lim[e]).toNat < 20)
  { s with power := { s.power with
      lim := Vector.ofFn fun e => if up e then s.power.lim[e] + 1 else s.power.lim[e] } }

/-- The partition's sheaves rise by one, to no more than KMAX; a rise that waits for its rail is not doubled (R393). -/
def State.raisePart (s : State) (p : Pid) : State :=
  if (s.sheavesOf p).any (fun e => (s.power.target[e]).isSome) then s
  else (s.raiseLim p).setPk p (min s.power.kmax.toNat ((s.power.pk[p]).toNat + 1))

/-- Points of the running partitions within the ceiling that software set (R396, R400). Under a KMIN that was raised they rise by the
steps of R395 alone (log 99). -/
def State.clampPk (s : State) : State :=
  (allParts.filter s.partRuns).foldl (fun s p =>
    s.setPk p (min s.power.kmax.toNat (s.power.pk[p]).toNat)) s

/-- The cap loop (R395). -/
def State.capLoop (s : State) (x : Sample) : State :=
  let run := allParts.filter s.partRuns
  let above (p : Pid) : Bool := (s.sheavesOf p).any fun e => decide (s.power.kmin.toNat < (s.power.k[e]).toNat)
  let below (p : Pid) : Bool := decide ((s.power.pk[p]).toNat < s.power.kmax.toNat) ||
    (s.sheavesOf p).any fun e => decide ((s.power.lim[e]).toNat < s.power.kmax.toNat)
  if s.power.cap.toNat < x.p then
    if run.any above then
      let excess := run.filter fun p => above p && decide (0 < s.overShare x p)
      let ps := if excess.isEmpty then run.filter above else excess
      ps.foldl State.lowerPart s
    else if s.power.mmin.toNat < s.power.mlvl.toNat then { s with power := { s.power with mlvl := s.power.mlvl - 1 } }
    else { s with power := { s.power with unmet := true } }
  else if s.power.mlvl.toNat < 8 ∧ x.pUp ≤ s.power.cap.toNat then { s with power := { s.power with mlvl := s.power.mlvl + 1 } }
  else if x.pUp ≤ s.power.cap.toNat then
    let under := run.filter fun p => below p && decide (s.overShare x p < 0)
    let ps := if under.isEmpty then run.filter below else under
    ps.foldl State.raisePart s
  else s

/-- The input fast limit (R397 loop 3). -/
def State.fastLimit (s : State) : State :=
  let s := (allParts.filter s.partRuns).foldl (fun s p => s.setPk p (max 8 (min (s.power.pk[p]).toNat (s.topK p) - 4))) s
  { s with power := { s.power with
      lim := Vector.ofFn fun e =>
        if s.sheafRuns e && decide ((s.power.lim[e]).toNat < 20) then BitVec.ofNat 5 (max 8 ((s.power.k[e]).toNat - 4))
        else s.power.lim[e]
      mlvl := BitVec.ofNat 4 (max 1 (s.power.mlvl.toNat - 1)) } }

/-- PWR_CAP_UNMET in the first window in which the cap is not met, and again only after a window without it (R396). -/
def State.reportUnmet (s : State) : State :=
  if !s.power.unmet then s
  else
    let w := windowOf s.now
    let told := match s.power.unmetWin with | none => false | some v => decide (w ≤ v + 1)
    let s := { s with power := { s.power with unmetWin := some w } }
    if told then s else s.raisePf0 0x0602 none s.power.cap.toNat s.power.pavg.toNat

/-- REGULATOR_SAMPLE (17 R390, R395 to R397). -/
def execRegulatorSample (sample : Sample) (now : Nat) (s : State) : Host.Outcome State Fault Refusal :=
  .next (if !s.pins.on then s else
    let s := s.at_ now
    let fast := decide (1800 < sample.p)
    let s := { s with power := { s.power.count1 s.now sample.p with
                 fast := fast
                 unmet := false } }.clampPk
    ((if fast then s.fastLimit else s.capLoop sample).reportUnmet).afterPower)

/-- The rail of a sheaf's die has settled: the clock rises, or a withheld change is made (17 R393, R409). -/
def execRailSettled (sheaf : EngId) (s : State) : Host.Outcome State Fault Refusal :=
  match s.power.target[sheaf] with
  | none => notDue "RAIL_SETTLED"
  | some k =>
    whenDue (!s.kWithheld sheaf) "RAIL_SETTLED"
      ({ s with power := { s.power with k := s.power.k.set sheaf k, target := s.power.target.set sheaf none } }.afterPower)

/-! ### Safety loops (17 R397) -/

/-- The limits of the sheaves of a die change. -/
def State.limDie (s : State) (die : Fin 2) (f : EngId → BitVec 5) : State :=
  { s with power := { s.power with lim := Vector.ofFn fun e => if dieOf e = die then f e else s.power.lim[e] } }

/-- A reading at or above DTHR. -/
def State.dieHot (s : State) (die : Fin 2) (temp : Byte) : State :=
  let first := !s.power.dieThrot[die]
  let s := s.limDie die fun e => BitVec.ofNat 5 (max 8 ((s.power.k[e]).toNat - 1))
  let s := { s with power := { s.power with dieThrot := s.power.dieThrot.set die true } }
  let s := if first then s.raisePf0 0x0605 none die.val temp.toNat else s
  ((s.markAll .thm).markAll .pwr).afterPower

/-- Some sheaf of the die is still held. -/
def PowerSt.dieHeld (x : PowerSt) (die : Fin 2) : Bool :=
  allEngines.any fun e => decide (dieOf e = die) && decide ((x.lim[e]).toNat < 20)

/-- A reading below DTHR - 3 while the throttle is at work. -/
def State.dieCool (s : State) (die : Fin 2) : State :=
  let s := s.limDie die fun e => if (s.power.lim[e]).toNat + 1 < (s.capK e).toNat then s.power.lim[e] + 1 else 20
  { s with power := { s.power with dieThrot := s.power.dieThrot.set die (s.power.dieHeld die) } }.afterPower

/-- DIE_TEMP_READING (loop 4): at DTHR the die's sheaves fall by one, below DTHR - 3 they rise by one up to what R395 gives. -/
def execDieTempReading (die : Fin 2) (temp : Byte) (now : Nat) (s : State) : Host.Outcome State Fault Refusal :=
  .next (if !s.pins.on then s else
    let s := s.at_ now
    let s := { s with power := { s.power with dieTemp := s.power.dieTemp.set die temp } }
    if s.power.dthr.toNat ≤ temp.toNat then s.dieHot die temp
    else if decide (temp.toNat + 3 < s.power.dthr.toNat) && s.power.dieThrot[die] then s.dieCool die
    else s.afterPower)

/-- REGULATOR_WARNING (loop 2): the die's sheaves go to k = 8 at once, PWR_REG_FAULT is raised. -/
def execRegulatorWarning (die : Fin 2) (overCurrent : Bool) (status : BitVec 16) (now : Nat) (s : State) :
    Host.Outcome State Fault Refusal :=
  .next (if !s.pins.on then s else
    let s := s.at_ now
    let s := { s with power := { s.power with railWarn := s.power.railWarn.set die (some s.now) } }
    let s := s.limDie die fun _ => 8
    let s := s.raisePf0 0x0604 none (die.val + 256 * b2n overCurrent) status.toNat
    (s.markAll .pwr).afterPower)

/-- RAIL_WARNING_RELEASE: after 1 ms without a warning the sheaves rise through R395. -/
def execRailWarningRelease (die : Fin 2) (now : Nat) (s : State) : Host.Outcome State Fault Refusal :=
  let s := s.at_ now
  match s.power.railWarn[die] with
  | none => notDue "RAIL_WARNING_RELEASE"
  | some t =>
    whenDue (decide (t + 1000000 ≤ s.now)) "RAIL_WARNING_RELEASE"
      ({ s with power := { s.power with railWarn := s.power.railWarn.set die none } }.afterPower)

/-- AGEING_MONITOR_READ: the rail rises by 2.5 mV as the monitors show slower silicon, to +30 mV, reported once (17 R391). -/
def execAgeingMonitorRead (die : Fin 2) (slow : Bool) (now : Nat) (s : State) : Host.Outcome State Fault Refusal :=
  .next (if !s.pins.on then s else
    let s := s.at_ now
    let t := s.power.trim[die]
    if !slow ∨ 300 ≤ t then s
    else
      let s := { s with power := { s.power with trim := s.power.trim.set die (t + 25) } }
      if t + 25 < 300 then s else s.raisePf0 0x0601 none die.val 30)

/-! ### Deep idle (17 R402) -/

/-- Every partition FREE, no granule waits for its clear, no migration runs. -/
def State.deepOk (s : State) : Bool :=
  (allParts.all fun p => decide ((s.part p).entry.st = .free)) && decide (s.bind.clrPend = 0) && s.memctl.running.isNone &&
    s.memctl.queued.isEmpty

/-- DEEP = 1: accepted, or ignored with CFGERR. -/
def State.requestDeep (s : State) : State :=
  if !s.setupOpen then s
    else match s.power.deep with
      | .none =>
        if s.deepOk then { s with power := { s.power with deep := .entering, deepReq := true, deepest := true } }
        else { s with power := { s.power with cfgErr := true } }
      | .leaving => { s with power := { s.power with cfgErr := true } }
      | _ => s

def execDeepIdleRequest (s : State) : Host.Outcome State Fault Refusal := .next s.requestDeep

/-- Every port down. -/
def LinkSt.allDown (l : LinkSt) : LinkSt := { l with half := l.half.map fun h => h.stop .down }

/-- Deep idle is entered: ports DOWN, stacks in self-refresh. -/
def execDeepIdleEntered (now : Nat) (s : State) : Host.Outcome State Fault Refusal :=
  let s := s.at_ now
  whenDue (decide (s.power.deep = .entering)) "DEEP_IDLE_ENTERED"
    { s with power := { s.power with deep := .inside }, links := s.links.allDown }

/-- Every port that may train starts to. -/
def State.trainAll (s : State) : State :=
  { s with links := { s.links with half := Vector.ofFn fun h => (s.half h).stop (if s.mayTrain h then .training else .down) } }

/-- DEEP = 0: the exit starts. -/
def State.leaveDeep (s : State) : State :=
  if !s.setupOpen then s
    else
      let s := { s with power := { s.power with deepReq := false } }
      if s.power.deep = .entering ∨ s.power.deep = .inside then
        { s with power := { s.power with deep := .leaving } }.trainAll
      else s

def execDeepIdleLeave (s : State) : Host.Outcome State Fault Refusal := .next s.leaveDeep

/-- The exit ends: every enabled port has trained or FAILED (17 R402). -/
def execDeepIdleExitEnd (now : Nat) (s : State) : Host.Outcome State Fault Refusal :=
  let s := s.at_ now
  whenDue (decide (s.power.deep = .leaving) && !(s.links.half.toList.any fun h => decide (h.state = .training)))
    "DEEP_IDLE_EXIT_END" { s with power := { s.power with deep := .none, deepest := false } }

end Sys2Proof.Machine
end

