-- ==== Sys2Proof/Machine/Launch.lean ====
section
/-!
DEFINITION. Sys2Proof/Machine/Launch.lean: LAUNCH and LAUNCH_AT, the ready point, hint, release and completion of a launch, with the
hashes, the result record, the watch table and the deferral log (16 R372; 10 R255, R256; 07 R152; 13 R311 to R321; 08 R198; 12 R300).
-/
namespace Sys2Proof.Machine

/-! ### Starting (16 R367, R372; 18 R413, R418) -/

/-- Program slot in word 1. -/
def launchSlot (d : BitVec 512) : SlotId := ⟨bits (dw d 1) 2 0, by unfold bits; exact Nat.mod_lt _ (by decide)⟩

/-- Fields of a LAUNCH descriptor against each other and against the slot's program. -/
def launchFieldBad (x : Part) (d : BitVec 512) (timed : Bool) : Bool :=
  let w := dw d 1
  let rrec := bit w 7
  let dgst := bit w 6
  let sign := bit w 5
  headBad d || !zeroFrom d 6 || decide (bits w 31 8 ≠ 0) || bit w 3 || decide (bits w 63 32 < 1) || decide (8192 < bits w 63 32) ||
    (!timed && decide (dw d 4 ≠ 0)) || (!rrec && decide (dw d 5 ≠ 0)) || ((dgst || sign) && !rrec) || (sign && !dgst) ||
    match x.slots[launchSlot d] with
    | none => true
    | some g => dgst && (imgFind g.image sDigest).isNone

/-- A tile or sheaf that the program maps is pending or fenced. -/
def State.mapsLost (s : State) (g : Program) : Bool :=
  (g.tiles.any fun t => (s.tile t).pend) || g.sheafs.any fun e => s.fenced .sheaf e.val

/-- The checks of LAUNCH and LAUNCH_AT. -/
def State.launchCheck (s : State) (p : Pid) (d : BitVec 512) (timed : Bool) : Check :=
  let x := s.part p
  let raddr := (dw d 5).toNat
  let rrec := bit (dw d 1) 7
  let has (f : Program → Bool) : Bool := match x.slots[launchSlot d] with | none => false | some g => f g
  firstFail
    [ (launchFieldBad x d timed, eField),
      (decide (raddr % 64 ≠ 0), eAlign),
      (rrec && !x.inSilo raddr 512, eRange),
      (rrec && s.siloFenced p raddr 512, eRetired),
      (has (fun g => (imgFind g.image sLinkw).isSome) && !s.portUp p, eLinkLost),
      (has s.mapsLost, eRetired) ]

/-- The launch a descriptor asks for. -/
def launchOf (fn : Fn) (c : Cmd) (timed : Bool) : Launch :=
  let d := c.desc
  let w := dw d 1
  { slot := launchSlot d, fn := fn, cid := c.cid, at_ := timed, nmod := bits w 63 32, rrec := bit w 7, dgst := bit w 6,
    sign := bit w 5, rplay := bit w 4, seed := dw d 2, step := dw d 3, c := (dw d 4).toNat, raddr := (dw d 5).toNat,
    phase := .started, overflow := false, ended := false, whash := 0, ihash := 0,
    flags := { pwr := none, thm := none, tmg := none, mnt := none, cont := none }, tEnd := 0, nextEntry := 0, lwait := none,
    active := [], inbox := [], notices := [], closed := [], sentVerdicts := [], verdicts := [] }

/-- No launch of the partition runs, and none was fetched before this one (16 R369). -/
def State.launchTurn (s : State) (p : Pid) (n : Fn) (cid : Nat) : Bool :=
  (s.part p).launch.isNone && !((s.func n).cmds.takeWhile fun x => !decide (x.cid = cid)).any fun x =>
    decide (bits (dw x.desc 0) 63 56 = 0x02) || decide (bits (dw x.desc 0) 63 56 = 0x03)

/-- What LAUNCH and LAUNCH_AT share. -/
def startLaunch (mnemonic : String) (opc : Nat) (timed : Bool) (fn : Fn) (cid : Nat) (s : State) : Host.Outcome State Fault Refusal :=
  match s.dueCmd fn cid opc, s.partOfFn fn with
  | some c, some p =>
    if !s.launchTurn p fn cid then notDue mnemonic else
    match s.launchCheck p c.desc timed with
    | some code => .next (s.complete fn c code 0 0)
    | none => .next ((s.startCmd fn c).modPart p fun x => { x with launch := some (launchOf fn c timed) })
  | _, _ => notDue mnemonic

/-- LAUNCH (10 R256). -/
def execLaunch (fn : Fn) (cid : Nat) (s : State) : Host.Outcome State Fault Refusal := startLaunch "LAUNCH" 0x02 false fn cid s

/-- LAUNCH_AT (10 R255). -/
def execLaunchAt (fn : Fn) (cid : Nat) (s : State) : Host.Outcome State Fault Refusal := startLaunch "LAUNCH_AT" 0x03 true fn cid s

/-! ### Hashes (13 R314) -/

/-- The value of n chunks of at most 1 MiB from address a on, `len` bytes left. -/
def State.chunkHashes (s : State) (p : Pid) : Nat → Nat → Nat → List Byte
  | 0, _, _ => []
  | n + 1, a, len => sha384 (s.siloBytes p a (min len (2 ^ 20))) ++ s.chunkHashes p n (a + 2 ^ 20) (len - 2 ^ 20)

/-- The region value. -/
def State.regionValue (s : State) (p : Pid) (a len : Nat) : List Byte :=
  sha384 (s.chunkHashes p (ceilDiv len (2 ^ 20)) a len)

/-- WHASH or OHASH (KIND 0), IHASH (KIND 1). -/
def State.listHash (s : State) (p : Pid) (img : List Byte) (kind : Nat) : List Byte :=
  sha384 (((imgDigests img).filter fun e => decide (e.kind = kind)).flatMap fun e => leBytes 8 e.len ++ s.regionValue p e.addr e.len)

/-- A listed region holds a sector that cannot be corrected: its address. -/
def State.listBad (s : State) (p : Pid) (img : List Byte) (input : Bool) : Option Nat :=
  (imgDigests img).findSome? fun e => if input || decide (e.kind = 0) then s.siloBadAt p e.addr e.len else none

/-! ### Deferral log (12 R299, R300) -/

/-- The deferral log of a program: its address and capacity. -/
def imgDlog (img : List Byte) : Option (Nat × Nat) := (imgFind img sDlog).map fun x => (x.addr, x.count)

/-- The launch has live deadlines. -/
def liveDeadlines (l : Launch) (img : List Byte) : Bool := !l.rplay && (imgDlog img).isSome && (imgLinks img).any fun r => decide (r.dln ≠ 0)

/-- The header of the log: COUNT, STEP, SORTED. -/
def dlogHeader (count : Nat) (step : Word) (sorted : Bool) : List Byte :=
  leBytes 8 count ++ leBytes 8 step.toNat ++ leBytes 8 (b2n sorted) ++ List.replicate 40 0

/-- A deferral-log record: word 0 and STEP. -/
abbrev DlogRec := Nat × Nat

/-- The records of a log. -/
def State.dlogRecords (s : State) (p : Pid) (log : Nat × Nat) : List DlogRec :=
  (List.range (min (s.recLe p log.1 8) log.2)).map fun k => (s.recLe p (log.1 + 64 + 16 * k) 8, s.recLe p (log.1 + 72 + 16 * k) 8)

/-- LIDX, ACTION, RANK as one number: the order of R300 and R314. -/
def dlogKey (r : DlogRec) : Nat := nbits r.1 63 16

/-- A record into a sorted list. -/
def dlogInsert (x : DlogRec) : List DlogRec → List DlogRec
  | [] => [x]
  | y :: r => if dlogKey x ≤ dlogKey y then x :: y :: r else y :: dlogInsert x r

def dlogSort (l : List DlogRec) : List DlogRec := l.foldr dlogInsert []

def dlogBytes (l : List DlogRec) : List Byte := l.flatMap fun r => leBytes 8 r.1 ++ leBytes 8 r.2

/-- The log's records in order, SORTED = 1. -/
def State.sortDlog (s : State) (p : Pid) (l : Launch) (img : List Byte) : State :=
  match imgDlog img with
  | none => s
  | some log =>
    if !liveDeadlines l img then s else
    let rs := s.dlogRecords p log
    (s.siloRecord p (log.1 + 64) (dlogBytes (dlogSort rs))).siloRecord p log.1 (dlogHeader rs.length l.step true)

/-- Records of the launch's step in the order of LHASH. -/
def State.stepRecords (s : State) (p : Pid) (l : Launch) (img : List Byte) : List DlogRec :=
  match imgDlog img with
  | none => []
  | some log => dlogSort ((s.dlogRecords p log).filter fun r => decide (r.2 = l.step.toNat))

/-! ### Ready point (10 R255, R256; 10 R245; 13 R317) -/

/-- The first check that a sync-table entry fails. -/
def State.tableCheck (s : State) (p : Pid) (img : List Byte) : Check :=
  (imgSync img).findSome? fun (e : Nat × BitVec 128) =>
    match (s.part p).objOf e.1 with
    | none => some eRange
    | some o => s.objWriteCheck p o e.2

/-- Every entry of the sync table is written. -/
def State.writeTable (s : State) (p : Pid) (img : List Byte) : State :=
  (imgSync img).foldl (fun s (e : Nat × BitVec 128) =>
    match (s.part p).objOf e.1 with
    | none => s
    | some o => s.initObj o e.2) s

/-- The launch's fields change. -/
def State.modLaunch (s : State) (p : Pid) (f : Launch → Launch) : State :=
  s.modPart p fun x => { x with launch := x.launch.map f }

/-- LAUNCH_READY: the hashes are in, the table is written, the launch is accepted with its count C; or it fails. -/
def execLaunchReady (p : Pid) (now : Nat) (s : State) : Host.Outcome State Fault Refusal :=
  let s := s.at_ now
  match s.live p with
  | none => notDue "LAUNCH_READY"
  | some (l, x) =>
    if l.phase ≠ .started then notDue "LAUNCH_READY"
    else if l.at_ ∧ s.time.lock ≠ .locked then .next (s.refuseLaunch p eBusy)
    else if l.at_ ∧ l.c ≤ s.now + 2048 then .next (s.refuseLaunch p eTimeout)
    else
      match s.tableCheck p x.image, (if l.dgst then s.listBad p x.image true else none) with
      | some code, _ => .next (s.refuseLaunch p code)
      | none, some a => .next ((s.raiseUncorrectable (some p) ((s.part p).devAddr a)).failLaunch p eMemUncorrectable)
      | none, none =>
        let wh : BitVec 384 := if l.dgst then BitVec.ofNat 384 (leNat (s.listHash p x.image 0)) else 0
        let ih : BitVec 384 := if l.dgst then BitVec.ofNat 384 (leNat (s.listHash p x.image 1)) else 0
        let s := s.writeTable p x.image
        let s := match imgDlog x.image with
          | none => s
          | some log => if liveDeadlines l x.image then s.siloRecord p log.1 (dlogHeader 0 l.step false) else s
        .next (s.modLaunch p fun l =>
          { l with phase := .accepted, whash := wh, ihash := ih, c := if l.at_ then l.c else s.now + 2048 })

/-- LAUNCH_HINT: at C - 2,048 the arrays of the mapped and idle tiles get the hint (03 R82, R84). -/
def execLaunchHint (p : Pid) (now : Nat) (s : State) : Host.Outcome State Fault Refusal :=
  let s := s.at_ now
  match s.live p with
  | none => notDue "LAUNCH_HINT"
  | some (l, _) =>
    whenDue (decide (l.phase = .accepted) && decide (l.c ≤ s.now + 2048)) "LAUNCH_HINT"
      ((s.sendHint p true).modLaunch p fun l => { l with phase := .hinted })

/-! ### Release (07 R152; 03 R82 to R84; 17 R395) -/

/-- A mapped tile at the release: registers zero, counters and faults cleared, the core at its entry point (07 R152; 02 R55; 08
R190). -/
def Tile.begin (y : Tile) (slot : SlotId) (x : Program) (l : Nat) (seed step : Word) : Tile :=
  let e := imgEntry x.image l
  let core : Core := { Core.reset with status := .running, slot := slot, ltile := l, lsheaf := x.lsheafOf l, code := e.1, pc := e.2, seed := seed, step := step }
  { y.clearCounters with core := core, mops := [], dmas := [], upds := [], norms := Vector.replicate 4 Norm.reset,
                         array := y.array.receiveRelease l }

/-- An idle tile's array holds level 8 until the program completes (03 R84). -/
def Tile.beginIdle (y : Tile) : Tile :=
  { y with array := { y.array with hint := none, hintOver := false, hold := decide (y.array.level = 8),
                                   ramp := decide (y.array.level ≠ 8), stagger := none } }

/-- Every tile of the partition at the release. -/
def State.beginTiles (s : State) (p : Pid) (x : Program) (h : Launch) : State :=
  { s with tiles := Vector.ofFn fun t =>
      match x.logical t with
      | some l => (s.tile t).begin h.slot x l h.seed h.step
      | none => if s.idleFor p x t && !(s.tile t).pend then (s.tile t).beginIdle else s.tile t }

/-- The lowest point of the running sheaves, or KMAX when none runs (17 R395). -/
def State.startK (s : State) : BitVec 5 :=
  (allEngines.filter s.sheafRuns).foldl (fun m e => lowerK m s.power.k[e]) s.power.kmax

/-- Per-launch counters of the partition start at 0 (08 R206, 11 R282, 12 R302, 17 R399). -/
def Part.beginLaunch (x : Part) (g : Program) : Part :=
  { x.clearLinkCounters with stash := List.replicate (4 * g.s) 0, slackN := 0, slack := 0, lastArr := [] }

/-- A bulk clear or a sweep of another partition runs (13 R312, 15 R349). -/
def State.clearsOther (s : State) (p : Pid) : Bool :=
  (match s.bind.clearing with | none => false | some g => !(s.part p).entry.gran.contains g) ||
    allParts.any fun q => !decide (q = p) && (s.sec.rot[q]).active

/-- Flags whose cause holds at T_REL (13 R312): another partition runs or is cleared, the stacks are held, a die is throttled, a
migration or a sweep of its own runs, the counter is not LOCKED. -/
def State.startFlags (s : State) (p : Pid) : State :=
  let hot := s.memctl.stackSt.toList.any fun x => x.ref2 || decide (x.level.toNat < 8)
  let s := if (allParts.any fun q => !decide (q = p) && s.partRuns q) || s.clearsOther p then s.markPart p .cont else s
  let s := if hot || (s.power.dieThrot.any fun b => b) then s.markPart p .thm else s
  let s := if s.memctl.running.isSome || (s.sec.rot[p]).active then s.markPart p .mnt else s
  let s := if s.time.lock = .locked then s else s.markPart p .tmg
  s.markPower

/-- Nothing that a core issued before it faulted is left in the queues (07 R181). -/
def Tile.drained (y : Tile) : Bool := y.mops.isEmpty && y.dmas.isEmpty && y.upds.isEmpty

/-- LAUNCH_RELEASE: at C every mapped core starts. -/
def execLaunchRelease (p : Pid) (now : Nat) (s : State) : Host.Outcome State Fault Refusal :=
  let s := s.at_ now
  match s.live p with
  | none => notDue "LAUNCH_RELEASE"
  | some (l, x) =>
    if !(decide (l.phase = .hinted) && decide (l.c ≤ s.now) && x.tiles.all fun t => (s.tile t).drained) then notDue "LAUNCH_RELEASE" else
    let k := s.startK
    let s := s.beginTiles p x l
    let s := s.modPart p fun y => y.beginLaunch x
    let s := s.modLaunch p fun l => { l with phase := .released, nextEntry := 0, lwait := none, active := [], inbox := [] }
    let s := { s with power := { s.power with pk := s.power.pk.set p k } }.settleK
    .next ((s.markOthers p).startFlags p)

/-! ### Completion (16 R372; 08 R198; 13 R311 to R319) -/

/-- A tile's issued work is complete and its core has halted (07 R166). -/
def Tile.finished (y : Tile) : Bool := decide (y.core.status = .halted) && y.mops.isEmpty && y.dmas.isEmpty && y.upds.isEmpty

/-- Every mapped core has halted and every link entry has completed; after a stop at the top rung (08 R202, OVA = 1) no further
entry starts. -/
def State.launchOver (s : State) (l : Launch) (x : Program) : Bool :=
  (x.tiles.all fun t => (s.tile t).finished) && l.active.isEmpty && (l.ended || decide ((imgLinks x.image).length ≤ l.nextEntry))

/-- The watch table after a launch that completed: streaks, and an event for each multiple of THRESH (08 R198). -/
def State.evalWatch (s : State) (p : Pid) (step : Word) : State :=
  let ws := (s.part p).watch
  let next (w : Watch) : Watch :=
    if w.touched then { w.clear with streak := if w.nz then 0 else satAdd w.streak 1 } else w
  let s := ws.foldl (fun s w =>
    let w' := next w
    if w.touched && !w.nz && decide (0 < w.thresh) && decide (w'.streak.toNat % w.thresh = 0) then
      s.raiseFn 0x0111 p (w.widx + w.tid.toNat * 2 ^ 32) (w'.streak.toNat + step.toNat % 2 ^ 32 * 2 ^ 32)
    else s) s
  s.modPart p fun x => { x with watch := ws.map next }

/-- The hashes of a completed launch with DGST = 1 (13 R314, R315, R319). -/
def State.finalHashes (s : State) (p : Pid) (l : Launch) (x : Program) : Hashes :=
  let ph := sha384 x.image
  let wh := leBytes 48 l.whash.toNat
  let ih := leBytes 48 l.ihash.toNat
  let lh := sha384 (dlogBytes (s.stepRecords p l x.image))
  let dg := sha384 (ph ++ wh ++ ih ++ leBytes 8 l.seed.toNat ++ leBytes 8 l.step.toNat ++ leBytes 4 l.nmod ++ lh)
  let oh := s.listHash p x.image 0
  { phash := ph, whash := wh, ihash := ih, lhash := lh, digest := dg, ohash := oh, chain := sha384 (x.chain ++ dg ++ oh) }

/-- The record of a completed launch, with its signature (13 R316, R318). -/
def recordBytes (s : State) (l : Launch) (code : BitVec 16) (flags : Nat) (h : Hashes) : List Byte :=
  let head := recordHead s l code flags h
  let sg := ecdsaSign s.attestKey head
  if l.sign then head ++ beBytes 48 sg.1.toNat ++ beBytes 48 sg.2.toNat ++ List.replicate 16 0 else head ++ List.replicate 112 0

/-- The record and the completion of a launch that ended with OK or E_REGION_OVERFLOW. -/
def State.closeLaunch (s : State) (p : Pid) (l : Launch) (x : Program) : State :=
  let code := if l.overflow then eRegionOverflow else cOk
  let h := if l.dgst then s.finalHashes p l x else Hashes.zero
  let flags := b2n l.dgst + 2 * b2n l.sign + l.plainFlags + 256 * b2n (l.dgst && !(s.stepRecords p l x.image).isEmpty)
  let s := if l.rrec then s.putRecord p l (recordBytes s l code flags h) else s
  let s := (s.setChain p l.slot (if l.dgst then h.chain else gapChain)).clearLaunch p
  s.finishCmd l.fn l.cid p (if l.rrec then some (l.raddr, 512) else none) code 0 (flags % 256)

/-- An uncorrectable sector among what the end of the launch reads: the WEIGHT regions for OHASH, the deferral log for its order and for
LHASH (12 R300, 13 R321). -/
def State.endBad (s : State) (p : Pid) (l : Launch) (img : List Byte) : Option Nat :=
  let weights := if l.dgst then s.listBad p img false else none
  match weights, imgDlog img with
  | some a, _ => some a
  | none, some log =>
    if l.dgst || liveDeadlines l img then s.siloBadAt p log.1 (64 + 16 * min (s.recLe p log.1 8) log.2) else none
  | none, none => none

/-- LAUNCH_COMPLETE. Without identity a record cannot be signed (15 R339); what cannot be read for OHASH or LHASH ends the launch as a
failed one (13 R321). -/
def execLaunchComplete (p : Pid) (now : Nat) (s : State) : Host.Outcome State Fault Refusal :=
  let s := s.at_ now
  match s.live p with
  | none => notDue "LAUNCH_COMPLETE"
  | some (l0, x) =>
    if !(decide (l0.phase = .released) && s.launchOver l0 x) then notDue "LAUNCH_COMPLETE" else
    let sl := s.settleTimes l0
    let l := sl.2
    let s := sl.1.modLaunch p fun _ => l
    let s := if l.ended then s.forgetWaits p else s
    match s.endBad p l x.image with
    | some a => .next ((s.raiseUncorrectable (some p) ((s.part p).devAddr a)).failLaunch p eMemUncorrectable)
    | none =>
      if l.sign ∧ s.sec.idCause ≠ 0 then .next (s.failLaunch p eAuth)
      else .next (((s.evalWatch p l.step).sortDlog p l x.image).closeLaunch p l x)

end Sys2Proof.Machine
end

