-- ==== Sys2Proof/Machine/MemCmds.lean ====
section
/-!
DEFINITION. Sys2Proof/Machine/MemCmds.lean: memory errors as they are met, migrations, error windows, stack temperatures, bulk clears,
key rotations and their sweep (09 R223 to R235; 14 R331, R332; 15 R347 to R350; 18 R415).
-/
namespace Sys2Proof.Machine

/-! ### Errors (09 R226, R227; 18 R415) -/

/-- The partition that holds a device granule. -/
def State.partOfGran (s : State) (g : Nat) : Option Pid :=
  allParts.find? fun p => decide ((s.part p).entry.st ≠ .free) && (s.part p).entry.gran.contains g

/-- The launch of a partition ends because data it needed cannot be read (18 R414, R415). -/
def State.launchUnreadable (s : State) (p : Pid) : State := s.killLaunch p eMemUncorrectable

/-- The sector belongs to the last solution that the engine's command started from. -/
def State.lastRead (s : State) (a : ChanAlloc) (r : SolveRun) (dev : Nat) : Bool :=
  bit (wordOf r.record 0) 3 &&
    (List.range (8 * (patHead a.pattern).n)).any fun i => decide ((s.part a.pid).devAddr (a.lastAdr + i) / 64 = dev / 64)

/-- What needed the sector fails (18 R415 Table Withheld results; 06 R150). -/
def State.readerFails (s : State) (r : Reader) (dev : Nat) : State :=
  match r with
  | .block => s
  | .command fn cid | .partialWrite fn cid =>
    match s.findCmd fn cid with
    | none => s
    | some c => if c.phase = .fetched then s.complete fn c eMemUncorrectable 0 0 else s
  | .tileDma t =>
    match (s.tile t).dmas with
    | [] => s
    | q :: _ => s.tileFault t .dma 0x9 q.offset q.pc true
  | .coreFetch t => s.coreFaultU t 0xA 0 true
  | .engine e =>
    match (s.engine e).running with
    | none => s
    | some c =>
      match (s.chan e c).queue, (s.chan e c).alloc with
      | q :: rest, some a =>
        let t0 := (s.chan e c).tStart.getD s.now
        let run := (s.chan e c).run
        let s := s.undoSolve e c
        let s := match run with
          | none => s
          | some r => if s.lastRead a r dev then s.restoreFactor e c r.before else s
        let s := s.modEngine e fun x => { x with running := none, held := none }
        let s := s.modChan e c fun x => { x with queue := rest, tStart := if rest.isEmpty then none else some s.now }
        s.finishSolve a.pid q (failRecord eMemUncorrectable q.tag t0 s.now) eMemUncorrectable 0 0 true
      | _, _ => s
  | .linkEntry p _ | .launchHash p => s.launchUnreadable p

/-- The sector at a device address can no longer be read. -/
def MemSt.spoil (m : MemSt) (dev : Nat) : MemSt :=
  { m with bad := if m.bad.contains (dev / 64 * 64) then m.bad else (dev / 64 * 64) :: m.bad }

/-- MEMORY_READ_ERROR: a sector that needed correction or a retry, or that both reads failed. A granule that waits for its clear is
not read (14 R332), a read of a sector with a clear mark counts no error (09 R233), and reads dropped by a moult raise nothing (18
R424). -/
def execMemoryReadError (addr : Nat) (how : ReadError) (reader : Reader) (now : Nat) (s : State) : Host.Outcome State Fault Refusal :=
  let s := s.at_ now
  let g := addr / granSize
  if 384 ≤ g ∨ s.granPending g then notDue "MEMORY_READ_ERROR"
  else if s.memctl.marked addr then .next s
  else
    match how with
    | .corrected true => .next s.countCe
    | .corrected false => .next (s.countCe.countPersistent addr)
    | .retried true => .next s.countCe
    | .retried false =>
      match s.partOfGran g with
      | none => .next ({ s with memctl := s.memctl.spoil addr }.raiseUncorrectable none addr)
      | some p =>
        if (s.part p).entry.st = .moulting then .next s
        else .next (({ s with memctl := s.memctl.spoil addr }.raiseUncorrectable (some p) addr).readerFails reader addr)

/-! ### Migrations and error windows (09 R228, R231, R235) -/

/-- MIGRATION_COMPLETE: the next queued retirement starts, in ascending order. -/
def execMigrationComplete (now : Nat) (s : State) : Host.Outcome State Fault Refusal :=
  let s := s.at_ now
  match s.memctl.running with
  | none => notDue "MIGRATION_COMPLETE"
  | some _ =>
    let s := ({ s with memctl := { s.memctl with running := none } }).markAll .mnt
    match s.memctl.queued with
    | [] => .next s
    | p :: r => .next ({ s with memctl := { s.memctl with queued := r } }.retirePc p)

/-- ERROR_WINDOW_END: the counts of the window end. -/
def execErrorWindowEnd (now : Nat) (s : State) : Host.Outcome State Fault Refusal :=
  let s := s.at_ now
  whenDue (decide (s.memctl.window < s.now / errWindow)) "ERROR_WINDOW_END" { s with memctl := s.memctl.roll s.now }

/-! ### Stack temperatures (09 R223, R224) -/

/-- The stack after a reading. -/
def StackSt.read (x : StackSt) (tthr temp : Byte) : StackSt :=
  { temp := temp
    ref2 := if 85 ≤ temp.toNat then true else if temp.toNat < 83 then false else x.ref2
    level := if tthr.toNat ≤ temp.toNat then (if 1 < x.level.toNat then x.level - 1 else x.level)
      else if temp.toNat + 3 < tthr.toNat then (if x.level.toNat < 8 then x.level + 1 else x.level) else x.level }

/-- STACK_TEMP_READING. -/
def execStackTempReading (m : StackId) (temp : Byte) (now : Nat) (s : State) : Host.Outcome State Fault Refusal :=
  .next (if !s.pins.on then s else
    let s := s.at_ now
    let old := s.memctl.stackSt[m]
    let new := old.read s.memctl.tthr temp
    let s := { s with memctl := { s.memctl with stackSt := s.memctl.stackSt.set m new } }
    let s := if old.level = 8 ∧ new.level.toNat < 8 then s.raisePf0 0x0201 none (m.val + new.level.toNat * 2 ^ 8) temp.toNat else s
    let s := if new.ref2 || decide (new.level.toNat < 8) then s.markAll .thm else s
    s.afterPower)

/-! ### Bulk clear (09 R233, R234; 14 R331, R332) -/

/-- Held writes of a granule land in their order. -/
def landWrites (mem : List Host.Cell) (ws : List (Nat × List Byte)) : List Host.Cell :=
  ws.foldl (fun m (w : Nat × List Byte) => Memory.writeBytes m w.1 w.2) mem

/-- A write of a device range to the caches, sectors and clear marks. -/
def MemSt.writeRange (m : MemSt) (mem : List Host.Cell) (a n : Nat) : MemSt :=
  if n = 0 then m else
  (natRange (a / 256) ((a + n + 255) / 256)).foldl (fun m i => m.writeLine mem 0 i (a - 256 * i) (min 256 (a + n - 256 * i))) m

/-- What the clear of a granule leaves of it in the controllers: no cached line, no uncorrectable sector, a clear mark in every sector
(09 R233). -/
def MemSt.clearGranule (m : MemSt) (g : Nat) : MemSt :=
  { m with
    cache := m.cache.filter fun x => !decide (x.line / 2 ^ 22 = g)
    bad := m.bad.filter fun a => !decide (a / granSize = g)
    cleared := if m.cleared.contains g then m.cleared else g :: m.cleared
    wrote := m.wrote.filter fun z => !decide (z / 2 ^ 24 = g) }

/-- The granule is cleared: zeros, its bit, its uncorrectable sectors; then its held writes land. -/
def State.clearGranule (s : State) (g : Nat) : State :=
  let lo := g * granSize
  let mine (w : Nat × List Byte) : Bool := decide (w.1 / granSize = g)
  let ws := s.bind.heldWr.filter mine
  let mem := Memory.clear s.mem lo (lo + granSize)
  { s with
    mem := landWrites mem ws
    memctl := ws.foldl (fun m (w : Nat × List Byte) => m.writeRange mem w.1 w.2.length) (s.memctl.clearGranule g)
    bind := BindSt.nextClear { s.bind with
      clrPend := setBit s.bind.clrPend g false
      clearing := none
      heldWr := s.bind.heldWr.filter fun w => !mine w } }

/-! ### Key rotation (15 R347 to R350) -/

def State.modRot (s : State) (p : Pid) (f : Rotation → Rotation) : State :=
  { s with sec := { s.sec with rot := s.sec.rot.set p (f s.sec.rot[p]) } }

/-- LINK of KEY_ROTATE. -/
def rotLink (d : BitVec 512) : Bool := bit (dw d 1) 8

/-- Checks of KEY_ROTATE (16 R364, R376; 15 R344, R347). -/
def State.rotateCheck (s : State) (n : Fn) (d : BitVec 512) (active : Bool) : Check :=
  let p := pidOf d
  firstFail
    [ (headBad d || !zeroFrom d 2 || decide (bits (dw d 1) 63 9 ≠ 0) || decide (bits (dw d 1) 7 4 ≠ 0) ||
        (decide (n.val ≠ 0) && !decide (s.partOfFn n = some p)), eField),
      (decide ((s.part p).entry.st = .free), eNotBound),
      (decide ((s.part p).entry.st = .moulting) || (s.part p).entry.keyMoult, eMoulting),
      (active, eBusy),
      (s.sec.drbgDown, eKey) ]

/-- The memory rotation starts: a new key goes into the other slot. -/
def State.startRotation (s : State) (p : Pid) (n : Fn) (cid : Nat) : State :=
  let s := s.newKey
  let k := s.sec.load s.sec.keyGen
  let old := s.sec.silo[p]
  let silo := if (s.sec.rot[p]).cur then (k, old.2) else (old.1, k)
  ({ s with sec := { s.sec with silo := s.sec.silo.set p silo } }.modRot p fun r =>
    { r with active := true, next := 0, waiter := some (n, cid) })

/-- KEY_ROTATE of the memory keys (15 R347). -/
def execKeyRotate (fn : Fn) (cid : Nat) (s : State) : Host.Outcome State Fault Refusal :=
  match s.dueCmd fn cid 0x42 with
  | none => notDue "KEY_ROTATE"
  | some c =>
    let p := pidOf c.desc
    if rotLink c.desc then notDue "KEY_ROTATE" else
    match s.rotateCheck fn c.desc (s.sec.rot[p]).active with
    | some code => .next (s.complete fn c code 0 0)
    | none => .next ((s.startCmd fn c).startRotation p fn cid)

/-- The command that waits for a rotation completes. -/
def State.rotationDone (s : State) (w : Option (Fn × Nat)) : State :=
  match w with
  | none => s
  | some (n, cid) => match s.findCmd n cid with | none => s | some c => s.complete n c cOk 0 0

/-- KEY_ROTATED on the function's ring. -/
def State.raiseRotated (s : State) (p : Pid) (link : Bool) : State := s.raiseFn 0x0401 p (b2n link) (b2n (s.sec.rot[p]).cur)

/-- The last page has flipped: the old key is erased, CUR is the new slot. -/
def State.endRotation (s : State) (p : Pid) : State :=
  let r := s.sec.rot[p]
  let old := s.sec.silo[p]
  let silo := if r.cur then (old.1, none) else (none, old.2)
  let s := { s with sec := { s.sec with silo := s.sec.silo.set p silo } }
  let s := s.modRot p fun r => { r with active := false, cur := !r.cur, next := 0, waiter := none }
  (s.rotationDone r.waiter).raiseRotated p false

/-- SWEEP_PAGE: the next page of the silo flips its epoch bit (15 R347, R348); for the flags it is a migration in its own partition and
a bulk clear in every other (15 R349). -/
def execSweepPage (p : Pid) (now : Nat) (s : State) : Host.Outcome State Fault Refusal :=
  let s := s.at_ now
  let r := s.sec.rot[p]
  if !r.active || s.sec.drbgDown then notDue "SWEEP_PAGE" else
  let x := s.part p
  let page := (x.entry.gran[r.next.toNat / 2 ^ 18]?.getD 0) * 2 ^ 18 + r.next.toNat % 2 ^ 18
  let rest := s.memctl.epochOne.filter fun (q : Nat) => !decide (q = page)
  let s := { s with memctl := { s.memctl with epochOne := if r.cur then rest else page :: rest } }
  let s := (s.markPart p .mnt).markOthers p
  .next (if r.next.toNat + 1 = x.entry.gran.length * 2 ^ 18 then s.endRotation p
    else s.modRot p fun r => { r with next := r.next + 1 })

/-- Every pair has rekeyed: the completion of the link rotation (15 R350). -/
def State.linkRotated (s : State) (p : Pid) : State :=
  let r := s.sec.rot[p]
  if r.link && !((s.part p).peers.any fun q => q.rekey) then
    let s := s.modRot p fun r => { r with link := false, linkWaiter := none }
    (s.rotationDone r.linkWaiter).raiseRotated p true
  else s

/-- KEY_ROTATE of the link keys (15 R350): every peer pair of the job has a handshake before it. -/
def execKeyRotateLink (fn : Fn) (cid : Nat) (s : State) : Host.Outcome State Fault Refusal :=
  match s.dueCmd fn cid 0x42 with
  | none => notDue "KEY_ROTATE_LINK"
  | some c =>
    let p := pidOf c.desc
    if !rotLink c.desc then notDue "KEY_ROTATE_LINK" else
    match s.rotateCheck fn c.desc (s.sec.rot[p]).link with
    | some code => .next (s.complete fn c code 0 0)
    | none =>
      let s := (s.startCmd fn c).modPart p fun x => { x with peers := x.peers.map fun q => { q with rekey := q.rekey || (q.keyed && q.lost.isNone) } }
      let s := s.modRot p fun r => { r with link := true, linkWaiter := some (fn, cid) }
      .next (s.linkRotated p)

end Sys2Proof.Machine
end

