-- ==== Sys2Proof/Machine/Reduce.lean ====
section
/-!
DEFINITION. Sys2Proof/Machine/Reduce.lean: collective reductions of the link engines: exact and ordered, with their counts (11 R279 to
R282; 12 R296, R297).
-/
namespace Sys2Proof.Machine

/-- What one rank contributes: its rank, whether the data is its carry, the bytes. -/
structure Contribution where
  rank  : Nat
  carry : Bool
  data  : List Byte
  deriving DecidableEq, Repr

/-- Code of element j. -/
def elemCode (ety : Nat) (bs : List Byte) (j : Nat) : Nat := leNat ((bs.drop (linkElem ety * j)).take (linkElem ety))

/-- Value of element j; FX elements are raw integers (11 R279). -/
def redElem (ety : Nat) (bs : List Byte) (j : Nat) : Num := decodeFmt ety 0 (elemCode ety bs j)

/-! ### Exact mode (11 R280) -/

/-- ⌊x / 2^λ⌋ toward minus infinity, and whether bits were shed. -/
def floorUnits (x : Num) (lam : Int) : Int × Bool :=
  match x with
  | .fin s n d e =>
    let a := n * 2 ^ (e - lam).toNat
    let b := d * 2 ^ (lam - e).toNat
    let q : Int := ((a / b : Nat) : Int)
    let r := decide (a % b ≠ 0)
    (if s then (if r then -q - 1 else -q) else q, r)
  | _ => (0, false)

/-- Block exponent over the finite nonzero contributions to a block of 64 elements; none when there is none. -/
def redBlockExp (ety count : Nat) (cs : List Contribution) (blk : Nat) : Option Int :=
  (cs.flatMap fun c => (natRange (64 * blk) (min count (64 * blk + 64))).map fun j => redElem ety c.data j).foldl
    (fun (m : Option Int) x =>
      if !x.isFin || x.isZero then m else
      match m with
      | none => some x.log2
      | some e => some (max e x.log2)) none

/-- λ of a block: E_b + 15 - P for floating point, 0 for integer and FX types. -/
def lambdaOf (ety count : Nat) (cs : List Contribution) (blk : Nat) : Int :=
  if isIntFmt ety then 0 else
  match redBlockExp ety count cs blk with
  | none => 0
  | some e => e + 15 - 16 * (linkElem ety : Int)

/-- The exact sum of the contributions to element j, with the special values of 03 R96. -/
def exactSum (ety count : Nat) (cs : List Contribution) (j : Nat) : Num :=
  let xs := cs.map fun c => redElem ety c.data j
  let pos := xs.any fun x => decide (x = .inf false)
  let neg := xs.any fun x => decide (x = .inf true)
  if (xs.any Num.isNan) || (pos && neg) then .nan
  else if pos then .inf false
  else if neg then .inf true
  else
    let lam := lambdaOf ety count cs (j / 64)
    Num.ofInt (xs.foldl (fun (t : Int) x => t + (floorUnits x lam).1) 0) lam

/-- Contributions of one rank that the floor changes. -/
def shedCount (ety count : Nat) (cs : List Contribution) (own : Nat) : Nat :=
  if isIntFmt ety then 0 else
  ((List.range count).map fun j =>
    let lam := lambdaOf ety count cs (j / 64)
    (cs.filter fun c => decide (c.rank = own) && (floorUnits (redElem ety c.data j) lam).2).length).foldl (· + ·) 0

/-! ### Ordered mode (11 R281) -/

/-- The accumulation format. -/
def accFmt (ety : Nat) : FFmt := if ety = 0 then fp64 else fp32

/-- The largest power of two below n, for n of at least 2. -/
def halfTree (n : Nat) : Nat := 2 ^ Nat.log2 (n - 1)

/-- S(lo, hi) by the fixed tree, `fuel` levels deep at most. -/
def treeSum (f : FFmt) (c : Nat → Num) : Nat → Nat → Nat → Num
  | 0, lo, _ => c lo
  | fuel + 1, lo, hi =>
    if hi ≤ lo + 1 then c lo
    else
      let h := halfTree (hi - lo)
      f.roundTo .rne ((treeSum f c fuel lo (lo + h)).acc (treeSum f c fuel (lo + h) hi))

/-- The term of rank i; +0 for a rank that was dropped (12 R296). -/
def rankTerm (ety : Nat) (cs : List Contribution) (j i : Nat) : Num :=
  match cs.find? fun c => decide (c.rank = i) with
  | none => Num.zero
  | some c => redElem ety c.data j

/-- The ordered combination of element j over n ranks. -/
def orderedSum (ety n : Nat) (cs : List Contribution) (j : Nat) : Num := treeSum (accFmt ety) (rankTerm ety cs j) n 0 n

/-! ### Results -/

/-- Reduction of one element: its bytes and whether the final rounding counts (11 R282). -/
def reduceElem (r : LinkRec) (n count : Nat) (cs : List Contribution) (j : Nat) : List Byte × Bool :=
  if r.etype = 0xC then
    let a := (cs.map fun c => normOf ((c.data.drop (128 * j)).take 128)).foldl Norm.join Norm.reset
    (a.bytes, false)
  else
    let x := if r.mode = 1 ∧ !isIntFmt r.etype then orderedSum r.etype n cs j else exactSum r.etype count cs j
    let y := convertFmt r.etype 0 (cvcOf r.cvc) 0 true x
    (leBytes (linkElem r.etype) y.1, decide (y.2 ≠ .none))

/-- What a rank receives: bytes for DST, contributions shed, final roundings counted (11 R279). -/
def collective (r : LinkRec) (n rank : Nat) (cs : List Contribution) : List Byte × Nat × Nat :=
  let whole (i : Nat) : List Byte :=
    match cs.find? fun c => decide (c.rank = i) with
    | none => []
    | some c => c.data
  if r.op = 3 then ((List.range n).flatMap whole, 0, 0)
  else if r.op = 5 then (whole r.tgt, 0, 0)
  else
    let total := if r.op = 2 then r.count * n else r.count
    let js := if r.op = 2 then natRange (r.count * rank) (r.count * rank + r.count) else List.range r.count
    let es := js.map (reduceElem r n total cs)
    (es.flatMap fun (e : List Byte × Bool) => e.1,
     if r.etype = 0xC ∨ r.mode = 1 then 0 else shedCount r.etype total cs rank,
     (es.filter fun (e : List Byte × Bool) => e.2).length)

end Sys2Proof.Machine
end

