-- ==== Sys2Proof/Machine/LinkWork.lean ====
section
/-!
DEFINITION. Sys2Proof/Machine/LinkWork.lean: the link work list: start and end of entries, acknowledgements, ready notices, verdicts and
the deferral log; lost peers (11 R276 to R285; 12 R292 to R303; 10 R257).
-/
namespace Sys2Proof.Machine

/-! ### Entries -/

/-- Modules whose acknowledgement the entry needs (11 R283, R284). -/
def State.linkTargets (s : State) (g : Program) (r : LinkRec) : List ModId :=
  if r.op = 1 then [BitVec.ofNat 16 r.tgt]
  else ((Config.treeNeighbours s.links.modId.toNat (linkGroup g r)).filter fun m =>
    (linkGroup g r).contains m && !decide (m = s.links.modId.toNat)).eraseDups.map fun m => BitVec.ofNat 16 m

/-- A transfer to a module begins: its number among those to it (10 R248; 11 R283). -/
def State.addTransfer (s : State) (p : Pid) (idx : Nat) (m : ModId) : State :=
  let s := s.ensurePeer p m
  let n := ((s.peer p m).map (·.xfers)).getD 0
  (s.modPeer p m fun q => { q with xfers := n + 1 }).modLaunch p fun l =>
    { l with active := l.active.map fun e => if e.idx = idx then { e with unacked := e.unacked ++ [(m, n)] } else e }

/-- A contribution goes to every neighbour in the group's schedule but the one it came from (11 R279; log 83). -/
def State.passOn (s : State) (p : Pid) (g : Program) (idx : Nat) (r : LinkRec) (rank : Nat) (carry : Bool) (data : List Byte)
    (skip : Option ModId) : State :=
  ((s.linkTargets g r).filter fun m => !decide (skip = some m)).foldl (fun s m =>
    (s.addTransfer p idx m).send p m (.contribution idx rank carry data true)) s

/-- A free choice of the engine that counts (11 R282, log 2). -/
def bump (b : Bool) (c : Half × Half) (n : Nat) : Half × Half := if b then (c.1, satAdd c.2 n) else (satAdd c.1 n, c.2)

/-- The link engines that serve half-ports of a partition (01 R14, R17). -/
def State.linkEngines (s : State) (p : Pid) : List (Fin 2) :=
  (List.finRange 2).filter fun d => (List.finRange 16).any fun h => bit (s.part p).entry.ports h.val && decide (dieOfPort (portOf h) = d)

/-- Counts of one entry on the engine that serves the partition's ports; where its ports lie on both dies, or it has none, the manual
leaves the engine open: a free choice (log 65). -/
def State.countLink (s : State) (p : Pid) (shed cvt excl waited : Nat) : State :=
  if shed + cvt + excl + waited = 0 then s else
  let b := match s.linkEngines p with | [d] => decide (d = 1) | _ => Config.freeBool s.freeCtr
  (s.skipFree 1).modPart p fun x =>
    { x with shed := bump b x.shed shed, cvt := bump b x.cvt cvt, excl := bump b x.excl excl, waited := bump b x.waited waited }

/-- The DONE object is signalled (11 R277). -/
def State.signalDone (s : State) (p : Pid) (r : LinkRec) : State :=
  match (s.part p).objOf (r.dref % 2 ^ 16) with
  | none => s
  | some o => (s.applyOp p o (if objKind (s.obj o) = 3 then .adv (BitVec.ofNat 64 r.dval) else .signal 1) none s.now).1

/-- The entry is over: its status word, then DONE (11 R276). -/
def State.finishEntry (s : State) (p : Pid) (g : Program) (idx : Nat) (r : LinkRec) (code : BitVec 16) (flags : Nat) : State :=
  let s := s.modLaunch p fun l =>
    { l with active := l.active.filter fun e => !decide (e.idx = idx), inbox := l.inbox.filter fun a => !decide (a.entry = idx) }
  ((s.entryStatus p g.image idx code flags).touchEnd p).signalDone p r

/-- Active entries that a test admits fail with a code (11 R284, R285). -/
def State.failEntries (s : State) (p : Pid) (code : BitVec 16) (which : Program → LinkRec → Bool) : State :=
  match s.running p with
  | none => s
  | some (l, g) =>
    l.active.foldl (fun s e =>
      match linkRec g e.idx with
      | none => s
      | some r =>
        if which g r then
          (s.spoilEntry p l g e r).finishEntry p g e.idx r code
            (failFlags (s.ownRank g r) (if r.dln = 0 then none else l.verdictOf e.idx))
        else s) s

/-! ### Peers (11 R284, R285; 10 R257) -/

/-- What depends on a peer of the job ends with a code; frames to it go no more (11 R274, R284, R285). -/
def State.endPeer (s : State) (p : Pid) (m : ModId) (code : BitVec 16) : State :=
  ((s.dropTx fun a b => decide (a = p) && decide (b = m)).syncPeerEnd p m code).failEntries p code fun g r => involves g r m

/-- A peer is marked lost for a cause: 1 link, 2 keep-alive, 3 AUTH (11 R284, 18 R421). -/
def State.losePeer (s : State) (p : Pid) (m : ModId) (cause : Nat) : State :=
  if (s.peerLost p m).isSome then s else
  let s := (s.ensurePeer p m).modPeer p m fun q => { q with lost := some ePeerLost, suspended := none, rekey := false, early := [] }
  ((s.endPeer p m ePeerLost).raiseBoth 0x0305 (some p) (m.toNat + cause * 2 ^ 16) 0).linkRotated p

/-! ### Moving data (11 R279, R283) -/

/-- What this rank supplies to an entry: its data unless excluded, the root's alone for a broadcast, and its carry (11 R279; 12 R296,
R297). -/
def State.ownContributions (s : State) (p : Pid) (g : Program) (r : LinkRec) (e : LinkEntry) (v : Option Verdict) : List Contribution :=
  let own := s.ownRank g r
  let len := contribution g.image r
  let out (k : Nat) : Bool := match v with | none => false | some v => v.excluded.contains k
  let mine : List Contribution :=
    if out own || (decide (r.op = 5) && decide (own ≠ r.tgt)) then [] else [{ rank := own, carry := false, data := s.siloBytes p r.src len }]
  mine ++ match linkDeadline g r with
    | some d => if e.carry && !out own then [{ rank := own, carry := true, data := s.siloBytes p (d.dbuf + 64) len }] else []
    | none => []

/-- Contributions of a reduction on this rank: its own and what arrived from the ranks that are not excluded. -/
def State.contributions (s : State) (p : Pid) (g : Program) (r : LinkRec) (e : LinkEntry) (v : Option Verdict)
    (inputs : List (Nat × List Byte)) : List Contribution :=
  let out (k : Nat) : Bool := match v with | none => false | some v => v.excluded.contains k
  s.ownContributions p g r e v ++
    (inputs.filter fun (i : Nat × List Byte) => !out i.1 && !decide (i.1 = s.ownRank g r)).map fun (i : Nat × List Byte) =>
      { rank := i.1, carry := false, data := i.2 }

/-- A started entry moves its data: the bytes of a PUT, its own contributions and those of others that have arrived to its neighbours
(11 R279, R283). -/
def State.supply (s : State) (p : Pid) (l : Launch) (g : Program) (r : LinkRec) (e : LinkEntry) (v : Option Verdict) : State :=
  let reads := if r.op = 1 then [(r.src, r.count)] else [(r.src, contribution g.image r)]
  let s := s.readLines p reads
  if r.op = 1 then
    let m := BitVec.ofNat 16 r.tgt
    ((s.addTransfer p e.idx m).send p m (.put e.idx r.dst (s.siloBytes p r.src r.count) true)).modPeer p m fun q =>
      { q with lastPut := some s.now }
  else
    let s := (s.ownContributions p g r e v).foldl (fun s c => s.passOn p g e.idx r c.rank c.carry c.data none) s
    (l.inbox.filter fun a => decide (a.entry = e.idx) && a.whole).foldl (fun s a =>
      s.passOn p g e.idx r a.rank a.carry a.data (some a.src)) s

/-! ### Verdicts (12 R295, R296, R300 to R302) -/

/-- A deferral-log record (12 R299). -/
def dlogRec (idx action rank modid : Nat) (step : Word) : DlogRec :=
  (idx * 2 ^ 32 + action * 2 ^ 29 + rank * 2 ^ 16 + modid, step.toNat)

/-- ACTION codes (12 R299). -/
def policyAction (d : Deadline) : Nat := if d.policy = 1 then 1 else 2

/-- Records of this launch's step and an entry, by action and rank (12 R301). -/
def State.entryRecords (s : State) (p : Pid) (l : Launch) (g : Program) (idx : Nat) : List (Nat × Nat) :=
  ((s.stepRecords p l g.image).filter fun (r : DlogRec) => decide (nbits r.1 63 32 = idx)).map fun (r : DlogRec) =>
    (nbits r.1 31 29, nbits r.1 28 16)

/-- Ranks that the log excludes, and those that it records with a carry. -/
def recordedOut (rs : List (Nat × Nat)) : List Nat :=
  (rs.filter fun (r : Nat × Nat) => !decide (r.1 = 3)).map fun (r : Nat × Nat) => r.2

def recordedCarry (rs : List (Nat × Nat)) : List Nat :=
  (rs.filter fun (r : Nat × Nat) => decide (r.1 = 3)).map fun (r : Nat × Nat) => r.2

/-- Two lists hold the same ranks. -/
def sameRanks (a b : List Nat) : Bool := (a.all fun x => b.contains x) && b.all fun x => a.contains x

/-- The log and the carries do not agree in replay mode (12 R301). -/
def State.replayBad (s : State) (p : Pid) (l : Launch) (g : Program) (idx : Nat) (r : LinkRec) (d : Deadline) (carrying : List Nat) :
    Bool :=
  let rs := s.entryRecords p l g idx
  let out := recordedOut rs
  (rs.any fun (x : Nat × Nat) => !decide (x.1 = 3) && !(decide (d.policy ≠ 0) && decide (x.1 = policyAction d))) ||
    decide (d.maxx < out.length) || (out.any fun k => decide ((linkGroup g r).length ≤ k) || carrying.contains k) ||
    !sameRanks (recordedCarry rs) carrying

/-- Records appended to the log, as far as its capacity goes (12 R299, R300). -/
def State.appendDlog (s : State) (p : Pid) (img : List Byte) (rs : List DlogRec) : State :=
  match imgDlog img with
  | none => s
  | some log =>
    rs.foldl (fun s r =>
      let n := s.recLe p log.1 8
      if log.2 ≤ n then s
      else (s.siloRecord p (log.1 + 64 + 16 * n) (dlogBytes [r])).siloRecord p log.1 (leBytes 8 (n + 1))) s

/-- The deferral buffer takes the contribution at SRC and its header (12 R296). -/
def State.defer (s : State) (p : Pid) (img : List Byte) (r : LinkRec) (d : Deadline) (step : Word) : State :=
  let bs := s.siloBytes p r.src (contribution img r)
  (s.siloRecord p (d.dbuf + 64) bs).siloRecord p d.dbuf (leBytes 8 step.toNat ++ leBytes 8 1 ++ List.replicate 48 0)

/-- A started entry that has its verdict goes on: E_FIELD for a replay that does not agree, the deferral of an excluded
contribution (12 R296, R301). -/
def State.resumeEntry (s : State) (p : Pid) (l : Launch) (g : Program) (idx : Nat) (r : LinkRec) (d : Deadline) (v : Verdict) : State :=
  let own := s.ownRank g r
  if v.bad then s.finishEntry p g idx r eField (failFlags own (some v)) else
  let s := if v.excluded.contains own && decide (d.policy = 1) then s.defer p g.image r d l.step else s
  let s := s.modLaunch p fun l =>
    { l with active := l.active.map fun e => if e.idx = idx then { e with phase := .reducing } else e }
  match l.active.find? fun e => decide (e.idx = idx) with
  | none => s
  | some e => s.supply p l g r e (some v)

/-- A verdict reaches this rank: records, counters, and the entry goes on if it has started. -/
def State.takeVerdict (s : State) (p : Pid) (l : Launch) (g : Program) (idx : Nat) (r : LinkRec) (d : Deadline)
    (excluded carrying waited : List Nat) : State :=
  if (l.verdictOf idx).isSome then s else
  let bad := l.rplay && s.replayBad p l g idx r d carrying
  let v : Verdict := { entry := idx, excluded := excluded, carrying := carrying, waited := waited, bad := bad }
  let s := s.modLaunch p fun l => { l with verdicts := v :: l.verdicts }
  let idOf (k : Nat) : Nat := (linkGroup g r)[k]?.getD 0
  let recs := (excluded.map fun k => dlogRec idx (policyAction d) k (idOf k) l.step) ++
    carrying.map fun k => dlogRec idx 3 k (idOf k) l.step
  let s := if l.rplay then s else s.appendDlog p g.image recs
  let own := s.ownRank g r
  let s := if bad then s else s.countLink p 0 0 (b2n (excluded.contains own)) (b2n (waited.contains own))
  if l.active.any fun e => decide (e.idx = idx) then s.resumeEntry p l g idx r d v else s

/-- VERDICT: the arbiter's verdict arrives (12 R295). -/
def execVerdict (p : Pid) (entry : Nat) (excluded carrying waited : List Nat) (now : Nat) (s : State) :
    Host.Outcome State Fault Refusal :=
  let s := s.at_ now
  match s.live p with
  | none => notDue "VERDICT"
  | some (l, g) =>
    match linkRec g entry, (linkRec g entry).bind (linkDeadline g) with
    | some r, some d =>
      whenDue (decide (l.phase = .released)) "VERDICT" (s.takeVerdict p l g entry r d excluded carrying waited)
    | _, _ => notDue "VERDICT"

/-- The deferral buffer of a DEFER entry holds VALID = 1. -/
def State.hasCarry (s : State) (p : Pid) (d : Deadline) : Bool := decide (d.policy = 1) && decide (s.recLe p (d.dbuf + 8) 1 % 2 = 1)

/-- The first module the entry involves that is lost, with its code. -/
def State.lostFor (s : State) (p : Pid) (g : Program) (r : LinkRec) : Option (BitVec 16) :=
  (s.part p).peers.findSome? fun q => if involves g r q.id then q.lost else none

/-! ### Arbitration (12 R294, R295) -/

/-- Notices of an entry. -/
def Launch.noticesOf (l : Launch) (idx : Nat) : List Notice := l.notices.filter fun x => decide (x.entry = idx)

/-- What the arbiter knows of a rank's carry: its notice, its own buffer, or that it deferred the rank's contribution in an earlier launch
and has not seen it carried since (12 R295 to R297; log 84). -/
def State.mayCarry (s : State) (p : Pid) (l : Launch) (g : Program) (idx : Nat) (r : LinkRec) (d : Deadline) (k : Nat) : Bool :=
  match (l.noticesOf idx).find? fun x => decide (x.rank = k) with
  | some x => x.carry
  | none =>
    decide (d.policy = 1) && ((s.part p).deferred.contains (l.slot.val, idx, k) || (decide (k = s.ownRank g r) && s.hasCarry p d))

/-- Notices stamped before the close of the window. -/
def onTime (close : Nat) (ns : List Notice) (k : Nat) : Bool := ns.any fun x => decide (x.rank = k) && decide (x.stamp < close)

/-- The verdict at the close of the window over n ranks: those excluded by the policy, those carrying, those waited for. Without a notice
on time the first rank that gave one is included (12 R295). -/
def closeVerdict (d : Deadline) (n close : Nat) (ns : List Notice) (carry : Nat → Bool) : List Nat × List Nat × List Nat :=
  let first : Option Nat := if ns.any fun x => decide (x.stamp < close) then none else (ns.head?).map (·.rank)
  let late := (List.range n).filter fun k => !onTime close ns k && !decide (first = some k)
  let out := if d.policy = 0 then [] else (late.filter fun k => !carry k).take d.maxx
  (out, (List.range n).filter fun k => !out.contains k && carry k,
    (List.range n).filter fun k => !out.contains k && !onTime close ns k)

/-- The arbiter remembers whose contributions it deferred; a carry that a verdict includes is over with its entry. -/
def Part.noteDeferred (x : Part) (slot idx : Nat) (d : Deadline) (v : List Nat × List Nat × List Nat) : Part :=
  if d.policy ≠ 1 then x else
  { x with deferred := (x.deferred.filter fun (y : Nat × Nat × Nat) =>
      !(decide (y.1 = slot) && decide (y.2.1 = idx) && (v.2.1.contains y.2.2 || v.1.contains y.2.2))) ++ v.1.map fun k => (slot, idx, k) }

/-- The entry is over on this module: started and no longer active. -/
def Launch.over (l : Launch) (idx : Nat) : Bool := decide (idx < l.nextEntry) && !l.active.any fun e => decide (e.idx = idx)

/-- The arbiter sends a verdict to every other rank and takes it itself. -/
def State.sendVerdict (s : State) (p : Pid) (l : Launch) (g : Program) (idx : Nat) (r : LinkRec) (d : Deadline)
    (v : List Nat × List Nat × List Nat) : State :=
  let s := s.modPart p fun x => x.noteDeferred l.slot.val idx d v
  let s := s.modLaunch p fun l => { l with sentVerdicts := idx :: l.sentVerdicts }
  let s := ((linkGroup g r).filter fun m => !decide (m = s.links.modId.toNat)).foldl (fun s m =>
    s.send p (BitVec.ofNat 16 m) (.verdict idx v.1 v.2.1 v.2.2)) s
  s.takeVerdict p l g idx r d v.1 v.2.1 v.2.2

/-- No verdict is due any more: sent, or the entry is over here or involves a lost peer (12 R303). -/
def State.noVerdict (s : State) (p : Pid) (l : Launch) (g : Program) (idx : Nat) (r : LinkRec) : Bool :=
  l.sentVerdicts.contains idx || l.over idx || (s.lostFor p g r).isSome

/-- The arbiter judges an entry after a notice arrived. In replay mode it waits for every notice, since the carry of a recorded rank decides
too (12 R301; log 84). -/
def State.judge (s : State) (p : Pid) (l : Launch) (g : Program) (idx : Nat) (r : LinkRec) (d : Deadline) : State :=
  let n := (linkGroup g r).length
  let ns := l.noticesOf idx
  let carrying := (List.range n).filter fun k => ns.any fun x => decide (x.rank = k) && x.carry
  if s.noVerdict p l g idx r then s
  else if l.rplay then
    if (List.range n).all fun k => ns.any fun x => decide (x.rank = k) then
      s.sendVerdict p l g idx r d (recordedOut (s.entryRecords p l g idx), carrying, [])
    else s
  else if l.closed.contains idx then
    s.sendVerdict p l g idx r d (closeVerdict d n (l.c + d.close) ns (s.mayCarry p l g idx r d))
  else if (List.range n).all (onTime (l.c + d.close) ns) then s.sendVerdict p l g idx r d ([], carrying, [])
  else s

/-- A notice is stamped at the arbiter. -/
def State.takeNotice (s : State) (p : Pid) (g : Program) (idx : Nat) (r : LinkRec) (d : Deadline) (rank : Nat) (carry : Bool) : State :=
  let s := s.modLaunch p fun l =>
    if l.notices.any fun x => decide (x.entry = idx) && decide (x.rank = rank) then l
    else { l with notices := l.notices ++ [{ entry := idx, rank := rank, stamp := s.now, carry := carry }] }
  match (s.part p).launch with
  | none => s
  | some l => s.judge p l g idx r d

/-- READY_NOTICE: a rank's notice arrives at the arbiter (12 R294). -/
def execReadyNotice (p : Pid) (entry : Nat) (rank : Nat) (carry : Bool) (now : Nat) (s : State) : Host.Outcome State Fault Refusal :=
  let s := s.at_ now
  match s.live p with
  | none => notDue "READY_NOTICE"
  | some (l, g) =>
    match linkRec g entry, (linkRec g entry).bind (linkDeadline g) with
    | some r, some d =>
      whenDue (decide (l.phase = .released) && decide (s.ownRank g r = 0) && decide (0 < rank) &&
          decide (rank < (linkGroup g r).length)) "READY_NOTICE"
        (s.takeNotice p g entry r d rank carry)
    | _, _ => notDue "READY_NOTICE"

/-- DEADLINE_CLOSE: at C + CLOSE the arbiter sends its verdict, or holds it when no notice has arrived; the entry that is over, or that
involves a lost peer, gets none (12 R295, R303). -/
def execDeadlineClose (p : Pid) (entry : Nat) (now : Nat) (s : State) : Host.Outcome State Fault Refusal :=
  let s := s.at_ now
  match s.live p with
  | none => notDue "DEADLINE_CLOSE"
  | some (l, g) =>
    match linkRec g entry, (linkRec g entry).bind (linkDeadline g) with
    | some r, some d =>
      let n := (linkGroup g r).length
      if !(decide (l.phase = .released) && decide (s.ownRank g r = 0) && decide (l.c + d.close ≤ s.now) && !l.rplay &&
          !l.sentVerdicts.contains entry && !l.closed.contains entry) then notDue "DEADLINE_CLOSE"
      else if s.noVerdict p l g entry r || (l.noticesOf entry).isEmpty then
        .next (s.modLaunch p fun l => { l with closed := entry :: l.closed })
      else
        .next (s.sendVerdict p l g entry r d
          (closeVerdict d n (l.c + d.close) (l.noticesOf entry) (s.mayCarry p l g entry r d)))
    | _, _ => notDue "DEADLINE_CLOSE"

/-! ### Starting an entry (11 R276; 12 R294, R297) -/

/-- Regions that an entry reads. -/
def linkReads (img : List Byte) (r : LinkRec) : List (Nat × Nat) :=
  [(r.src, if r.op = 1 then r.count else contribution img r)]

/-- A started entry moves its data, or sends its ready notice first when it has a deadline (11 R276; 12 R294). -/
def State.sendEntry (s : State) (p : Pid) (l : Launch) (g : Program) (idx : Nat) (r : LinkRec) : State :=
  let carry := match linkDeadline g r with | none => false | some d => s.hasCarry p d
  let e : LinkEntry := { idx := idx, phase := if r.dln = 0 then .moving else .awaitVerdict, carry := carry, unacked := [] }
  let s := s.modLaunch p fun l => { l with active := l.active ++ [e] }
  match linkDeadline g r with
  | none => s.supply p l g r e none
  | some d =>
    let own := s.ownRank g r
    let s := if own = 0 then s.takeNotice p g idx r d 0 carry
      else s.send p (BitVec.ofNat 16 ((linkGroup g r)[0]?.getD 0)) (.ready idx carry)
    match l.verdictOf idx with
    | some v => s.resumeEntry p { l with active := l.active ++ [e] } g idx r d v
    | none => s

/-- The entry starts: it fails at once when it involves a lost peer or a fenced granule, and ends the launch when its data cannot be
read (18 R414, R415, R418). -/
def State.startEntry (s : State) (p : Pid) (l : Launch) (g : Program) (idx : Nat) (r : LinkRec) : State :=
  let s := s.modLaunch p fun l => { l with nextEntry := idx + 1, lwait := none }
  let regions := linkReads g.image r ++ match linkDst g.image r with | none => [] | some d => [d]
  match s.lostFor p g r with
  | some code =>
    let e : LinkEntry := { idx := idx, phase := if r.dln = 0 then .moving else .awaitVerdict, carry := false, unacked := [] }
    (s.spoilEntry p l g e r).finishEntry p g idx r code 0
  | none =>
    if regions.any fun (x : Nat × Nat) => s.siloFenced p x.1 x.2 then s.finishEntry p g idx r eRetired 0
    else
      match (linkReads g.image r).findSome? fun (x : Nat × Nat) => s.siloBadAt p x.1 x.2 with
      | some a => (s.raiseUncorrectable (some p) ((s.part p).devAddr a)).killLaunch p eMemUncorrectable
      | none => s.sendEntry p l g idx r

/-! ### Completing an entry -/

/-- The result goes to DST, the counters rise, a carry that was added is cleared, the entry ends with OK. -/
def State.landEntry (s : State) (p : Pid) (g : Program) (e : LinkEntry) (r : LinkRec) (v : Option Verdict)
    (inputs : List (Nat × List Byte)) : State :=
  let own := s.ownRank g r
  let n := (linkGroup g r).length
  let s := if r.op = 1 then s else
    let c := collective r n own (s.contributions p g r e v inputs)
    let s := (s.siloWrite p r.dst c.1).countLink p c.2.1 c.2.2 0 0
    match linkDeadline g r with
    | some d => if e.carry && !((v.map fun w => w.excluded.contains own).getD false) then s.siloRecord p (d.dbuf + 8) [0] else s
    | none => s
  s.finishEntry p g e.idx r cOk (statusFlags own e v)

end Sys2Proof.Machine
end

