-- ==== Sys2Proof/Machine/Frames.lean ====
section
/-!
DEFINITION. Sys2Proof/Machine/Frames.lean: frames received and replayed, ICMPv6 on Ethernet ports, handshakes and rekeying, keep-alives,
retrain notices, unbind and abort frames (11 R264 to R275, R284, R285; 10 R250, R252; 14 R334; 15 R343, R344, R350).
-/
namespace Sys2Proof.Machine

/-! ### Frames as they arrive (11 R264, R266, R271) -/

/-- The port carries traffic. -/
def State.halfUp (s : State) (h : HalfId) : Bool := s.up && decide ((s.half h).state = .up)

/-- A frame or datagram is discarded and counted (11 R266, R271). -/
def State.discardFrame (s : State) : State := { s with links := { s.links with discards := satAdd s.links.discards 1 } }

/-- The partition bound to a job; a moulting one counts as none (11 R266, 14 R334). -/
def State.partOfJob (s : State) (tag : Word) : Option Pid :=
  allParts.find? fun p => decide ((s.part p).entry.st = .bound) && !(s.part p).entry.keyMoult && decide ((s.part p).entry.jobTag = tag)

/-- The partition that holds a job tag while it moults. -/
def State.moultOfJob (s : State) (tag : Word) : Option Pid :=
  allParts.find? fun p => decide ((s.part p).entry.jobTag = tag) &&
    (decide ((s.part p).entry.st = .moulting) || (s.part p).entry.keyMoult)

/-- The carrier is none that the port receives (11 R271). -/
def badCarrier (eth : Bool) : Carrier → Bool
  | .native => eth
  | .datagram => !eth
  | .extensionHeader | .ipv4 | .badChecksum | .otherIcmp | .oversize => true

/-- The sender is asked to send a frame again (11 R268). -/
def State.askAgain (s : State) (port : HalfId) (f : Frame) : State := s.emit (.port port (.nak f.src f.vc f.seq))

/-! ### Puts and contributions (11 R266, R279, R283) -/

/-- Why a piece of a put cannot be written. -/
def State.putCheck (s : State) (p : Pid) (addr n : Nat) : Check :=
  firstFail [(!(s.part p).inSilo addr n, eRange), (s.siloFenced p addr n, eRetired), (s.partialBad p addr n, eMemUncorrectable)]

/-- A piece of a put is written; after the last one the transfer is acknowledged with its first failure, or OK. -/
def State.writePut (s : State) (p : Pid) (src : ModId) (xfer addr : Nat) (bs : List Byte) (last : Bool) : State :=
  let s := match s.putCheck p addr bs.length with
    | none => s.siloWrite p addr bs
    | some c =>
      (if c = eMemUncorrectable then s.raiseUncorrectable (some p) ((s.part p).devAddr addr) else s).modPeer p src fun q =>
        { q with torn := some (q.torn.getD c) }
  if last then
    (s.send p src (.landed xfer (((s.peer p src).bind (·.torn)).getD cOk))).modPeer p src fun q => { q with torn := none }
  else s

/-- A piece of a put in its turn: done, or held while a granule it writes waits for its clear (14 R332). -/
def State.takePut (s : State) (p : Pid) (src : ModId) (xfer addr : Nat) (bs : List Byte) (last : Bool) : State × Bool :=
  match (if (s.part p).inSilo addr bs.length then s.holdWrites p [(addr, bs.length)] else none) with
  | some t => (t, false)
  | none => (s.writePut p src xfer addr bs last, true)

/-- A piece of a contribution joins those that came before it. -/
def Launch.addPiece (l : Launch) (a : Arrival) : Launch :=
  let same (x : Arrival) : Bool :=
    decide (x.entry = a.entry) && decide (x.rank = a.rank) && x.carry == a.carry && decide (x.src = a.src) && !x.whole
  { l with inbox :=
      if l.inbox.any same then l.inbox.map fun x => if same x then { x with data := x.data ++ a.data, whole := a.whole } else x
      else l.inbox ++ [a] }

/-- A contribution that came whole is acknowledged, and goes on to the other neighbours once the entry moves its data. -/
def State.relay (s : State) (p : Pid) (l : Launch) (g : Program) (r : LinkRec) (src : ModId) (entry rank : Nat) (carry : Bool) : State :=
  let s := s.send p src (.landed entry cOk)
  match l.inbox.find? fun x => decide (x.entry = entry) && decide (x.rank = rank) && x.carry == carry && decide (x.src = src) && x.whole,
      l.active.any fun e => decide (e.idx = entry) && !decide (e.phase = .awaitVerdict) with
  | some x, true => s.passOn p g entry r rank carry x.data (some src)
  | _, _ => s

/-- A piece of a contribution in its turn: done, or held while the partition runs no launch (log 83). -/
def State.takeContribution (s : State) (p : Pid) (src : ModId) (entry rank : Nat) (carry : Bool) (bs : List Byte) (last : Bool) :
    State × Bool :=
  match s.running p with
  | none => (s, false)
  | some (l, g) =>
    if l.phase ≠ .released then (s, false) else
    match linkRec g entry with
    | none => (s.discardFrame, true)
    | some r =>
      let s := s.modLaunch p fun l => l.addPiece { entry := entry, rank := rank, carry := carry, src := src, data := bs, whole := last }
      (if last then s.relay p (l.addPiece { entry := entry, rank := rank, carry := carry, src := src, data := bs, whole := last }) g r src
          entry rank carry
        else s, true)

/-- A data frame in its turn. -/
def State.takeData (s : State) (p : Pid) (f : Frame) : State × Bool :=
  match f.body with
  | .put xfer addr bs last => s.takePut p f.src xfer addr bs last
  | .contribution entry rank carry bs last => s.takeContribution p f.src entry rank carry bs last
  | _ => (s, true)

/-! ### The receive buffers (11 R265, R266) -/

/-- Units that data frames hold in the receive buffer of a port. -/
def State.heldUnits (s : State) (port : PortId) : Nat :=
  allParts.foldl (fun n p => (s.part p).peers.foldl (fun n q => q.early.foldl (fun n x =>
    if portOf x.1 = port then n + unitsOf x.2.payload else n) n) n) 0

/-- An Ethernet port with PFC pauses its peer's data priority while its buffer is full beyond the mark, and lets it resume (11 R262). -/
def State.sendPfc (s : State) (h : HalfId) : State :=
  let port := portOf h
  let full := decide (Config.pfcUnits < s.heldUnits port)
  if !(s.cfgOf h).eth || !(s.cfgOf h).pfc || (s.links.pausing[port] == full) then s
  else { s with links := { s.links with pausing := s.links.pausing.set port full } }.emit (.port h (.pfc full))

/-- Data frames of a pair on a channel are taken in the order of their numbers, as far as they have come and none must wait (11 R266). -/
def State.drainChan (s : State) (p : Pid) (src : ModId) (c : Vc) : Nat → State
  | 0 => s
  | n + 1 =>
    match s.peer p src with
    | none => s
    | some q =>
      match q.early.find? fun x => decide (x.2.vc = c) && decide (x.2.seq = q.rx.get c) with
      | none => s
      | some x =>
        let r := s.takeData p x.2
        if !r.2 then r.1
        else
          let s := r.1.modPeer p src fun q =>
            { q with rx := q.rx.add c 1, early := q.early.filter fun y => !(decide (y.2.vc = c) && decide (y.2.seq = x.2.seq)) }
          ((s.freeUnits p src x.1 c (unitsOf x.2.payload)).sendPfc x.1).drainChan p src c n

/-- Both data channels of a pair. -/
def State.drainPeer (s : State) (p : Pid) (src : ModId) : State :=
  let n := ((s.peer p src).map (·.early.length)).getD 0
  (s.drainChan p src .vd0 n).drainChan p src .vd1 n

/-- Every frame of a partition that waits and can be taken. -/
def State.drainPart (s : State) (p : Pid) : State := (s.part p).peers.foldl (fun s q => s.drainPeer p q.id) s

/-! ### Sync frames (10 R250, R252) -/

/-- A remote operation takes effect and is acknowledged with its code; waiting operations are local only (10 R247). -/
def State.takeRemote (s : State) (p : Pid) (src : ModId) (seq : Nat) (index : BitVec 16) (op : SyncOp) : State :=
  match (s.part p).objOf index.toNat with
  | none => s.send p src (.ack seq eRange)
  | some o =>
    if opWaits op then s.send p src (.ack seq eField) else
    let r := (s.noteOrder o (moduleRank src)).applyOp p o op none s.now
    r.1.send p src (.ack seq (r.2.getD cOk))

/-- A child module's arrival; a refused one returns its code (10 R252). -/
def State.takeArrival (s : State) (p : Pid) (src : ModId) (seq : Nat) (index : BitVec 16) (flag : Bool) : State :=
  match (s.part p).objOf index.toNat with
  | none => s.send p src (.refuseArrive index eRange)
  | some o =>
    let r := (s.noteOrder o (moduleRank src)).childArrive p o src flag
    if r.2 = cOk then r.1.send p src (.ack seq cOk) else r.1.send p src (.refuseArrive index r.2)

/-- A keep-alive arrived: the test starts anew and a suspension is over (11 R284). -/
def State.takeAlive (s : State) (p : Pid) (src : ModId) : State :=
  s.modPeer p src fun q => { q with lastAlive := max q.lastAlive s.now, suspended := none }

/-- A sync frame. -/
def State.takeSync (s : State) (p : Pid) (f : Frame) : State :=
  match f.body with
  | .syncOp index op => s.takeRemote p f.src f.seq index op
  | .arrive index flag _ => s.takeArrival p f.src f.seq index flag
  | .keepAlive => s.takeAlive p f.src
  | .credit | .put _ _ _ _ | .contribution _ _ _ _ _ => s

/-! ### FRAME_RECEIPT -/

/-- The tag failed, or no key is held for the source: discarded, counted, asked for again; the sixteenth failure in a row loses the
peer (11 R275). -/
def State.tagFailure (s : State) (p : Pid) (port : HalfId) (f : Frame) : State :=
  let s := { s with links := { s.links with authFail := satAdd s.links.authFail 1 } }
  let s := ((s.ensurePeer p f.src).modPeer p f.src fun q => { q with fails := q.fails + 1 }).askAgain port f
  match s.peer p f.src with
  | none => s
  | some q => if 16 ≤ q.fails then s.losePeer p f.src 3 else s

/-- A frame for a moulting partition: discarded and counted; a remote operation in it fails (14 R334, 10 R258). -/
def State.moultFrame (s : State) (f : Frame) : State :=
  let s := s.discardFrame
  match s.moultOfJob f.jobTag, f.body with
  | some p, .syncOp _ _ => s.send p f.src (.ack f.seq eNotBound)
  | some p, .arrive index _ _ => s.send p f.src (.refuseArrive index eNotBound)
  | _, _ => s

/-- The number was used before: a second copy (11 R286). -/
def Peer.taken (q : Peer) (f : Frame) : Bool :=
  decide (f.seq < q.rx.get f.vc) || (decide (f.vc = .vs) && q.ahead.contains f.seq) ||
    q.early.any fun x => decide (x.2.vc = f.vc) && decide (x.2.seq = f.seq)

/-- A sync frame's number is used: the next number expected moves over those taken before their turn. -/
def Peer.noteSync (q : Peer) (n : Nat) : Peer :=
  let ahead := n :: q.ahead
  let next := ahead.foldl (fun k _ => if ahead.contains k then k + 1 else k) q.rx.vs
  { q with ahead := ahead.filter fun k => decide (next ≤ k), rx := q.rx.set .vs next }

/-- A frame that came intact from a peer of the job: credits and acknowledgements in its header, then its body, once (11 R265, R266,
R286). -/
def State.acceptFrame (s : State) (p : Pid) (port : HalfId) (q : Peer) (f : Frame) : State :=
  let s := (s.modPeer p f.src fun q => { q with fails := 0 }).takeCredits p f.src port f.credits
  let s := s.dropArrived p f.src f.arrived
  (if q.taken f then s
   else if f.vc = .vs then
    ((s.modPeer p f.src fun q => q.noteSync f.seq).takeSync p f).freeUnits p f.src port .vs (unitsOf f.payload)
   else ((s.modPeer p f.src fun q => { q with early := q.early ++ [(port, f)] }).drainPeer p f.src).sendPfc port).pump

/-- A frame that came through the link intact: its job, its tag (11 R266, R275; 14 R334). A discarded frame takes no room. -/
def State.deliver (s : State) (port : HalfId) (f : Frame) : State :=
  if f.dst ≠ s.links.modId then s.discardFrame.freeRoom port f else
  match s.partOfJob f.jobTag with
  | none => (s.moultFrame f).freeRoom port f
  | some p =>
    match s.peer p f.src with
    | none => s.tagFailure p port f
    | some q => if f.tagOk && q.keyed then s.acceptFrame p port q f else s.tagFailure p port f

/-- The frame's operation may take effect at its object now: equal stamps are ordered by source (10 R246). -/
def State.frameInOrder (s : State) (f : Frame) : Bool :=
  match s.partOfJob f.jobTag with
  | none => true
  | some p =>
    let at_ (index : BitVec 16) : Bool :=
      match (s.part p).objOf index.toNat with
      | none => true
      | some o => s.inOrder o (moduleRank f.src)
    match f.body with
    | .syncOp index _ => at_ index
    | .arrive index _ _ => at_ index
    | _ => true

/-- FRAME_RECEIPT: a frame is discarded, asked for again, or delivered: data in the order of the pair's numbers on its channel, whatever
port it took, sync frames at once (11 R264 to R268, R275, R286). A credit frame only returns credits. -/
def execFrameReceipt (port : HalfId) (frame : Frame) (now : Nat) (s : State) : Host.Outcome State Fault Refusal :=
  let s := s.at_ now
  if !s.halfUp port then notDue "FRAME_RECEIPT"
  else if badCarrier (s.cfgOf port).eth frame.carrier || decide (frameMax < frame.payload) then .next s.discardFrame
  else if !frame.crcOk then .next (s.askAgain port frame)
  else if frame.body = .credit then
    .next (match s.partOfJob frame.jobTag with
      | none => (s.setHalf port fun y => { y with out := y.out.minus frame.credits }).pump
      | some p => (s.takeCredits p frame.src port frame.credits).pump)
  else if !s.frameInOrder frame then notDue "FRAME_RECEIPT"
  else .next (s.deliver port frame)

/-! ### Replay (11 R268, R272) -/

/-- A frame in the replay buffer of a half-port. -/
def State.buffered (s : State) (port : HalfId) (f : FrameId) : Option SentFrame :=
  (s.half port).replay.find? fun x => decide (x.id = f)

/-- The frame's partition is bound and does not moult (14 R334). -/
def State.framesOpen (s : State) (p : Pid) : Bool := decide ((s.part p).entry.st = .bound) && !(s.part p).entry.keyMoult

/-- A frame in the replay buffer goes out once more. -/
def State.resend (s : State) (port : HalfId) (f : SentFrame) : State :=
  let s := { s with links := { s.links with replays := satAdd s.links.replays 1 } }
  (s.setHalf port fun h =>
    { h with replay := h.replay.map fun x => if x.id = f.id then { x with sends := x.sends + 1, at_ := s.now } else x }).emit
      (.frame f.hd f.msg)

/-- FRAME_NAK. -/
def execFrameNak (port : HalfId) (frame : FrameId) (s : State) : Host.Outcome State Fault Refusal :=
  match s.buffered port frame with
  | none => notDue "FRAME_NAK"
  | some f => whenDue (s.halfUp port && s.framesOpen frame.pid) "FRAME_NAK" (s.resend port f)

/-- DATAGRAM_RESEND: 20 µs without an acknowledgement. -/
def execDatagramResend (port : HalfId) (frame : FrameId) (s : State) : Host.Outcome State Fault Refusal :=
  match s.buffered port frame with
  | none => notDue "DATAGRAM_RESEND"
  | some f =>
    whenDue (s.halfUp port && s.framesOpen frame.pid && f.dgram && decide (f.at_ + 20000 ≤ s.now)) "DATAGRAM_RESEND" (s.resend port f)

/-! ### ICMPv6 (11 R271, R272) -/

/-- The port runs Ethernet and is UP on one of its halves. -/
def State.ethUp (s : State) (p : PortId) : Bool :=
  s.up && (s.links.cfg[p]).eth &&
    ((List.finRange 16).any fun h => decide (portOf h = p) && decide ((s.half h).state = .up))

/-- An ICMPv6 datagram at a port: answered when it is for the port's own address, else discarded and counted; a port that is not UP
receives nothing (11 R271; 20 R451). -/
def State.icmp (s : State) (port : PortId) (addr : BitVec 128) (answer : List Byte) : State :=
  if !s.ethUp port then s else if addr = s.ethAddress s.links.modId port then s.emit (.net port answer) else s.discardFrame

/-- NEIGHBOR_SOLICITATION: answered for the port's own address. -/
def execNeighborSolicitation (port : PortId) (target : BitVec 128) (s : State) : Host.Outcome State Fault Refusal :=
  .next (s.icmp port target (beBytes 16 target.toNat))

/-- ECHO_REQUEST: answered with its payload. -/
def execEchoRequest (port : PortId) (dst : BitVec 128) (payload : List Byte) (s : State) : Host.Outcome State Fault Refusal :=
  .next (s.icmp port dst payload)

/-- PRIORITY_FLOW_CONTROL: the data priority of an Ethernet port with PFC = 1 pauses or resumes (11 R262, R271). -/
def execPriorityFlowControl (port : PortId) (pause : Bool) (s : State) : Host.Outcome State Fault Refusal :=
  .next (if s.ethUp port && (s.links.cfg[port]).pfc then
    { s with links := { s.links with paused := s.links.paused.set port pause } }.pump else s)

/-! ### Handshakes (11 R267, R274; 15 R343, R344, R350) -/

/-- The partition may talk to its job: bound, no moult, a port UP. -/
def State.linkOpen (s : State) (p : Pid) : Bool := s.up && s.framesOpen p && s.portUp p

/-- Why a handshake fails: no new key, no identity of its own, a peer's certificate that does not verify or lies below PEERMIN. -/
def State.handshakeCheck (s : State) (cert : PeerCert) : Check :=
  firstFail
    [ (s.sec.drbgDown, eKey),
      (decide (s.sec.idCause ≠ 0) || !cert.chainOk || decide (cert.svn < s.sec.peerMin), eAuth) ]

/-- New directional keys with a peer, and the transport version of the pair: the highest that both ends know. -/
def State.keyPeer (s : State) (p : Pid) (m : ModId) (cert : PeerCert) : State :=
  let s := s.newKey
  (s.modPeer p m fun q =>
    { q with keyed := true, keyGen := s.sec.keyGen, rekey := false, frames := 0, fails := 0, lastAlive := max q.lastAlive s.now,
             ver := if cert.v11 then 2 else 1 }).linkRotated p

/-- A handshake ends: with keys, and the frames that waited for them go out; or the traffic that needed them fails. A pair that has keys
keeps them when no new key can be drawn. -/
def State.shake (s : State) (p : Pid) (m : ModId) (cert : PeerCert) : State :=
  let s := (s.ensurePeer p m).emit (.link p m .handshake)
  match s.handshakeCheck cert with
  | none => (s.keyPeer p m cert).pump
  | some code =>
    if code = eKey ∧ ((s.peer p m).map (·.keyed)).getD false then s
    else ((s.modPeer p m fun q => { q with keyed := false, rekey := false }).endPeer p m code).linkRotated p

/-- LINK_HANDSHAKE: keys with a peer; a failure fails the traffic that needed them. -/
def execLinkHandshake (p : Pid) (peer : ModId) (cert : PeerCert) (now : Nat) (s : State) : Host.Outcome State Fault Refusal :=
  let s := s.at_ now
  whenDue (s.linkOpen p && (s.peerLost p peer).isNone) "LINK_HANDSHAKE" (s.shake p peer cert)

/-- REKEY: a pair that holds keys runs a new exchange before its frame counter reaches 2^40; new keys take effect at a frame boundary. -/
def execRekey (p : Pid) (peer : PeerAt) (s : State) : Host.Outcome State Fault Refusal :=
  whenDue (s.linkOpen p && ((s.peer p peer.id).map fun q => q.keyed && q.lost.isNone).getD false) "REKEY" (s.shake p peer.id peer.cert)

/-! ### Keep-alives and notices (11 R269, R284) -/

/-- A keep-alive to a peer; one that still waits stands for it. -/
def State.sendAlive (s : State) (p : Pid) (m : ModId) : State :=
  if s.links.txq.any fun x => decide (x.pid = p) && decide (x.peer = m) && decide (x.msg = .keepAlive) then s else s.send p m .keepAlive

/-- KEEPALIVE_SEND: every 2 µs, to every peer of the peer sets. -/
def execKeepaliveSend (now : Nat) (s : State) : Host.Outcome State Fault Refusal :=
  let s := s.at_ now
  .next (if !s.up then s else
    allParts.foldl (fun s p => if s.linkOpen p then (s.peerSet p).foldl (fun s m => s.sendAlive p m) s else s) s)

/-- What is known of a peer; of one without an entry nothing was ever received. -/
def State.peerOr (s : State) (p : Pid) (m : ModId) : Peer := (s.peer p m).getD (Peer.fresh m 0)

/-- KEEPALIVE_TIMEOUT: 8 µs without a keep-alive from a peer whose test is not suspended. -/
def execKeepaliveTimeout (p : Pid) (peer : ModId) (now : Nat) (s : State) : Host.Outcome State Fault Refusal :=
  let s := s.at_ now
  let q := s.peerOr p peer
  whenDue (s.up && (s.peerSet p).contains peer && q.lost.isNone && q.suspended.isNone && decide (q.lastAlive + 8000 ≤ s.now))
    "KEEPALIVE_TIMEOUT" (s.losePeer p peer 2)

/-- RETRAIN_NOTICE: the peer's test is suspended for up to 1 ms. -/
def execRetrainNotice (p : Pid) (peer : ModId) (now : Nat) (s : State) : Host.Outcome State Fault Refusal :=
  let s := s.at_ now
  .next (if ((s.peer p peer).isSome || (s.peerSet p).contains peer) && (s.peerLost p peer).isNone then
    (s.ensurePeer p peer).modPeer p peer fun q => { q with suspended := some (s.now + 1000000) } else s)

/-- RETRAIN_SUSPENSION_EXPIRY: 1 ms without recovery. -/
def execRetrainSuspensionExpiry (p : Pid) (peer : ModId) (now : Nat) (s : State) : Host.Outcome State Fault Refusal :=
  let s := s.at_ now
  match (s.peer p peer).bind (·.suspended) with
  | none => notDue "RETRAIN_SUSPENSION_EXPIRY"
  | some t => whenDue (decide (t ≤ s.now)) "RETRAIN_SUSPENSION_EXPIRY" (s.losePeer p peer 2)

/-! ### Unbind and abort frames (11 R285) -/

/-- UNBIND_FRAME: the peer's keys are erased, and what depends on it ends with E_NOT_BOUND; of a peer that is lost already only the keys
are left. No event is raised. -/
def execUnbindFrame (src : ModId) (jobTag : Word) (_epoch : Half) (sigOk : Bool) (now : Nat) (s : State) :
    Host.Outcome State Fault Refusal :=
  let s := s.at_ now
  match s.partOfJob jobTag with
  | none => .next (if s.up then s.discardFrame else s)
  | some p =>
    if !s.up ∨ !sigOk then .next s
    else
      let lost := s.peerLost p src
      let s := (s.ensurePeer p src).modPeer p src fun q =>
        { q with keyed := false, lost := some (lost.getD eNotBound), suspended := none, rekey := false, early := [] }
      .next ((if lost.isSome then s else s.endPeer p src eNotBound).linkRotated p)

/-- ABORT_FRAME: entries that involve the aborting module end with E_ABORTED; its keys stay. -/
def execAbortFrame (src : ModId) (jobTag : Word) (now : Nat) (s : State) : Host.Outcome State Fault Refusal :=
  let s := s.at_ now
  .next (match s.partOfJob jobTag with
    | none => if s.up then s.discardFrame else s
    | some p => if s.up then s.failEntries p eAborted fun g r => involves g r src else s)

end Sys2Proof.Machine
end

