-- ==== Sys2Proof/Machine/Ports.lean ====
section
/-!
DEFINITION. Sys2Proof/Machine/Ports.lean: ports, half-ports and lanes: training, retraining, lane retirement, and the registers that retrain
ports (11 R260 to R263, R267, R269, R270, R284; 20 R453).
-/
namespace Sys2Proof.Machine

/-! ### Halves and lanes -/

def allHalves : List HalfId := List.finRange 16

/-- Lanes of its port that a half may use: first and number. -/
def State.span (s : State) (h : HalfId) : Nat × Nat := if (s.cfgOf h).split then (4 * (h.val % 2), 4) else (0, 8)

/-- Halves of a port. -/
def halvesOf (p : PortId) : List HalfId := [⟨2 * p.val, by omega⟩, ⟨2 * p.val + 1, by omega⟩]

/-- The half a lane belongs to, and its number in the port. -/
def State.halfOfLane (s : State) (lane : Fin 64) : HalfId :=
  let p : PortId := ⟨lane.val / 8, by omega⟩
  if (s.links.cfg[p]).split && decide (4 ≤ lane.val % 8) then ⟨2 * p.val + 1, by omega⟩ else ⟨2 * p.val, by omega⟩

def State.modLane (s : State) (lane : Fin 64) (f : Lane → Lane) : State :=
  { s with links := { s.links with lanes := s.links.lanes.set lane (f s.links.lanes[lane]) } }

/-- Lane l of a half's port. -/
def laneId (h : HalfId) (l : Nat) : Fin 64 := Fin.ofNat 64 (8 * (h.val / 2) + l)

/-- The lane is out of use: retired, retraining, or waiting to be tried again. -/
def State.laneOut (s : State) (h : HalfId) (l : Nat) : Bool :=
  bit s.links.laneRet (laneId h l).val || (s.links.lanes[laneId h l]).retrain || (s.links.lanes[laneId h l]).retryAt.isSome

/-- Largest width of MAXW (11 R262). -/
def maxWidth (c : PortCfg) : Nat :=
  match c.maxw.toNat with
  | 0 => if c.split then 4 else 8
  | 1 => 4
  | 2 => 2
  | _ => 1

/-- The widest aligned group within a span whose lanes all pass, the lowest of equal ones (11 R260): first lane and width. -/
def bestGroup (span : Nat × Nat) (limit : Nat) (ok : Nat → Bool) : Option (Nat × Nat) :=
  ([8, 4, 2, 1].filter fun w => decide (w ≤ limit) && decide (w ≤ span.2)).findSome? fun w =>
    ((List.range (span.2 / w)).find? fun k => (List.range w).all fun i => ok (span.1 + w * k + i)).map fun k => (span.1 + w * k, w)

/-- Lane map of a group. -/
def groupLanes (g : Nat × Nat) : Byte := BitVec.ofNat 8 ((2 ^ g.2 - 1) * 2 ^ g.1)

/-- The module ID is valid (11 R261). -/
def State.modIdOk (s : State) : Bool := decide (s.links.modId.toNat ≤ 0x1FFF)

/-! ### Loss of a direct link (11 R284) -/

/-- A half went DOWN or FAILED: peers whose only direct link it was are lost, unless a retrain notice suspends their test. -/
def State.halfLost (s : State) (h : HalfId) (peer : ModId) : State :=
  if (allHalves.any fun o => decide ((s.half o).state = .up) && decide ((s.half o).peer = peer)) then s else
  allParts.foldl (fun s p =>
    let q := s.peerOr p peer
    if decide ((s.part p).entry.st = .bound) && bit (s.part p).entry.ports h.val && q.lost.isNone && q.suspended.isNone &&
        ((s.peer p peer).isSome || (s.peerSet p).contains peer) then
      s.losePeer p peer 1
    else s) s

/-- A half stops in a state without traffic. -/
def State.dropHalf (s : State) (h : HalfId) (st : PortState) : State :=
  let old := s.half h
  let s := s.setHalf h fun x => x.stop st
  if old.state = .up ∨ old.state = .retrain then s.halfLost h old.peer else s

/-- No lane group is usable: FAILED, LNK_PORT_DOWN (11 R270). -/
def State.failHalf (s : State) (h : HalfId) : State :=
  (s.dropHalf h .failed).raisePf0 0x0304 none (h.val / 2 + (h.val % 2) * 8) 0

/-! ### Starting a training -/

/-- A retrain notice goes out on every other UP port to the module that the port reaches directly (11 R269). -/
def State.sendNotices (s : State) (h : HalfId) : State :=
  let m := (s.half h).peer
  if 0x1FFF < m.toNat then s else
  (allHalves.filter fun o => !decide (o = h) && decide ((s.half o).state = .up)).foldl (fun s o => s.portSend o (.retrainNotice m)) s

/-- One more retrain of a half; every running launch notes it (11 R269, 13 R312). -/
def State.noteRetrain (s : State) (h : HalfId) : State :=
  (s.setHalf h fun x => { x with rtcnt := min (x.rtcnt + 1) 0xFFFF }).markAll .tmg

/-- The whole half trains: from UP as a retrain with its notice, else anew; held DOWN when it may not. -/
def State.trainHalf (s : State) (h : HalfId) : State :=
  if !s.mayTrain h then (if (s.half h).state = .down then s else s.dropHalf h .down)
  else if (s.half h).state = .up then
    ((s.sendNotices h).setHalf h fun x => { x with state := .retrain }).noteRetrain h
  else s.setHalf h fun x => { x with state := if x.state = .retrain then .retrain else .training }

def State.trainPort (s : State) (p : PortId) : State := (halvesOf p).foldl State.trainHalf s

/-- Every port that a test admits trains. -/
def State.trainPorts (s : State) (which : PortCfg → Bool) : State :=
  (List.finRange 8).foldl (fun s p => if which (s.links.cfg[p]) then s.trainPort p else s) s

/-! ### PORT_TRAINING_COMPLETE (11 R260, R261, R267) -/

/-- The half goes UP on a group, and frames that wait go out. -/
def State.raiseHalf (s : State) (h : HalfId) (g : Nat × Nat) (found : Training) : State :=
  let s := s.setHalf h fun x =>
    { x with state := .up, peer := found.peer, lanes := groupLanes g, width := g.2,
             ver := if (s.cfgOf h).eth then 0 else if found.v11 then 2 else 1, skew := found.skew, trained := some s.now }
  { s with links := { s.links with
      paused := s.links.paused.set (portOf h) false, pausing := s.links.pausing.set (portOf h) false } }.pump

/-- Third failure less than 10^10 gt after the first. -/
def thirdFailure (fails : List Nat) : Bool :=
  match fails with
  | a :: _ :: c :: _ => decide (a < c + 10000000000)
  | _ => false

/-- A lane's training failed: it is tried again after 1 s, or, the third time, retired with its bit and the event (11 R269, R270). -/
def State.failLane (s : State) (lane : Fin 64) : State :=
  let fails := (s.now :: (s.links.lanes[lane]).fails).take 3
  let out := thirdFailure fails
  let s := s.modLane lane fun x =>
    { x with retrain := false, tries := x.tries + 1, fails := fails, retryAt := if out then none else some (s.now + 1000000000) }
  if out then
    { s with links := { s.links with laneRet := setBit s.links.laneRet lane.val true } }.raisePf0 0x0303 none lane.val 0
  else s

/-- What a whole-port training leaves of its lanes: those that failed count it, the others retrain no more. -/
def State.trainedLanes (s : State) (h : HalfId) (found : Training) : State :=
  (natRange (s.span h).1 ((s.span h).1 + (s.span h).2)).foldl (fun s l =>
    if bit s.links.laneRet (laneId h l).val then s
    else if bit found.failed l then s.failLane (laneId h l)
    else s.modLane (laneId h l) fun x => { x with retrain := false, retryAt := none, tries := 0 }) s

/-- A training ends: UP on the widest group without a retired or failed lane, FAILED without one, DOWN when the peer has the module's own
ID or no version is common. It does not end while the module ID is invalid. -/
def execPortTrainingComplete (port : HalfId) (found : Training) (now : Nat) (s : State) : Host.Outcome State Fault Refusal :=
  let s := s.at_ now
  if !(s.mayTrain port && s.modIdOk && decide (s.sec.idCause = 0) && decide ((s.half port).state = .training ∨ (s.half port).state = .retrain)) then
    notDue "PORT_TRAINING_COMPLETE"
  else if found.peer = s.links.modId then
    .next ((s.dropHalf port .down).raisePf0 0x0302 none (port.val / 2) s.links.modId.toNat)
  else if !(s.cfgOf port).eth && !found.v10 && !found.v11 then .next (s.dropHalf port .down)
  else
    let s := s.trainedLanes port found
    match bestGroup (s.span port) (maxWidth (s.cfgOf port)) fun l => bit found.usable l && !s.laneOut port l with
    | none => .next (s.failHalf port)
    | some g => .next (s.raiseHalf port g found)

/-! ### Lanes (11 R269, R270) -/

/-- The group a half trained on: the aligned group of its trained width that holds its active lanes. -/
def HalfPort.trainedGroup (x : HalfPort) : Nat × Nat :=
  match (List.range 8).find? fun l => bit x.lanes l with
  | none => (0, 0)
  | some l => (l / x.width * x.width, x.width)

/-- An UP half runs on the widest part of its trained group that no lane out of use is in; without one it fails. -/
def State.settleLanes (s : State) (h : HalfId) : State :=
  let g := (s.half h).trainedGroup
  match bestGroup g g.2 fun l => !s.laneOut h l with
  | none => s.failHalf h
  | some k => s.setHalf h fun x => { x with lanes := groupLanes k }

/-- The lane retrains: alone under version 1.1 while a lower width is left, else with its whole port. -/
def State.retrainLane (s : State) (lane : Fin 64) : State :=
  let h := s.halfOfLane lane
  let s := s.modLane lane fun x => { x with retrain := true, retryAt := none }
  let g := (s.half h).trainedGroup
  if (s.half h).ver = 2 ∧ (bestGroup g g.2 fun l => !s.laneOut h l).isSome then (s.settleLanes h).noteRetrain h
  else s.trainHalf h

/-- LANE_RETRAIN_START: an active lane lost its lock or shows too many errors. -/
def execLaneRetrainStart (lane : Fin 64) (now : Nat) (s : State) : Host.Outcome State Fault Refusal :=
  let s := s.at_ now
  let h := s.halfOfLane lane
  whenDue (s.halfUp h && bit (s.half h).lanes (lane.val % 8)) "LANE_RETRAIN_START" (s.retrainLane lane)

/-- LANE_RETRAIN_END: the lane is back, or it failed once more: the port runs without it, it is tried again after 1 s or retired. -/
def execLaneRetrainEnd (lane : Fin 64) (ok : Bool) (now : Nat) (s : State) : Host.Outcome State Fault Refusal :=
  let s := s.at_ now
  if !(s.links.lanes[lane]).retrain then notDue "LANE_RETRAIN_END" else
  let h := s.halfOfLane lane
  if ok then
    let s := s.modLane lane fun x => { x with retrain := false, tries := 0 }
    .next (if (s.half h).state = .up then (s.settleLanes h).markAll .tmg else s)
  else
    let s := s.failLane lane
    if bit s.links.laneRet lane.val then .next (s.trainHalf h)
    else .next (if (s.half h).state = .up then (s.settleLanes h).markAll .tmg else s)

/-- LANE_RETRY_TIMER: 1 s after a failed attempt. -/
def execLaneRetryTimer (lane : Fin 64) (now : Nat) (s : State) : Host.Outcome State Fault Refusal :=
  let s := s.at_ now
  let h := s.halfOfLane lane
  match (s.links.lanes[lane]).retryAt with
  | none => notDue "LANE_RETRY_TIMER"
  | some t =>
    if s.now < t then notDue "LANE_RETRY_TIMER"
    else if (s.half h).state = .up ∧ (s.half h).ver = 2 then
      .next ((s.modLane lane fun x => { x with retrain := true, retryAt := none }).noteRetrain h)
    else .next ((s.modLane lane fun x => { x with retrain := true, retryAt := none }).trainHalf h)

/-! ### Registers (11 R262; 20 R453) -/

/-- The configuration a word of LNK_PORT_CFGp asks for. -/
def portCfgOf (v : Half) : PortCfg :=
  { maxw := BitVec.ofNat 2 (bits v 9 8), split := bit v 7, eth := bit v 6, epmd := BitVec.ofNat 2 (bits v 5 4), an := bit v 3,
    pfc := bit v 2, en := bit v 1 }

/-- LNK_PORT_CFGp as it reads. -/
def PortCfg.word (c : PortCfg) : Nat :=
  c.maxw.toNat * 256 + 128 * b2n c.split + 64 * b2n c.eth + c.epmd.toNat * 16 + 8 * b2n c.an + 4 * b2n c.pfc + 2 * b2n c.en

/-- The ports of a split that ends lose their second half. -/
def State.joinHalves (s : State) (p : PortId) : State :=
  let h1 : HalfId := ⟨2 * p.val + 1, by omega⟩
  if (s.links.cfg[p]).split then s else s.dropHalf h1 .down

/-- A write of LNK_PORT_CFGp: EPMD 0b11 is outside its range and the write is ignored; RETRAIN, or a field that changes, retrains the
port (11 R262, 20 R442). -/
def State.writePortCfg (s : State) (p : PortId) (v : Half) : State :=
  let c := portCfgOf v
  if c.epmd = 3 then s else
  let old := s.links.cfg[p]
  let s := { s with links := { s.links with cfg := s.links.cfg.set p c } }
  if decide (old ≠ c) || bit v 0 then ((s.joinHalves p).trainPort p) else s

/-- PORT_RECONFIGURE. -/
def execPortReconfigure (port : PortId) (value : Half) (s : State) : Host.Outcome State Fault Refusal :=
  .next (if s.setupOpen then s.writePortCfg port value else s)

/-- RETRAIN = 1: the whole port retrains; its fields stay. -/
def execRetrain (port : PortId) (s : State) : Host.Outcome State Fault Refusal :=
  .next (if s.setupOpen then s.writePortCfg port (BitVec.ofNat 32 ((s.links.cfg[port]).word + 1)) else s)

/-- LNK_MOD_ID: ignored while a partition is BOUND or for a value that is not accepted; otherwise every enabled port retrains. -/
def State.writeModId (s : State) (v : Half) : State :=
  let m := bits v 15 0
  if (allParts.any fun p => decide ((s.part p).entry.st = .bound)) || !(decide (m ≤ 0x1FFF) || decide (m = 0xFFFF)) then s
  else { s with links := { s.links with modId := BitVec.ofNat 16 m } }.trainPorts (·.en)

def execLnkModId (value : Half) (s : State) : Host.Outcome State Fault Refusal := .next (if s.setupOpen then s.writeModId value else s)

/-- LNK_LANE_RET: a bit written as 1 is cleared, in flash too; the lane is tried at the next training of its port. -/
def State.writeLaneRet (s : State) (v : Word) : State :=
  let s := { s with links := { s.links with laneRet := s.links.laneRet &&& ~~~v } }
  (List.finRange 64).foldl (fun s l => if bit v l.val then s.modLane l fun x => { x with fails := [], tries := 0 } else s) s

def execLnkLaneRet (value : Word) (s : State) : Host.Outcome State Fault Refusal := .next (if s.setupOpen then s.writeLaneRet value else s)

/-- LNK_ETH_PREFIX: every Ethernet port retrains. -/
def State.writeEthPrefix (s : State) (v : Word) : State := { s with links := { s.links with pfx := v } }.trainPorts (·.eth)

def execLnkEthPrefix (value : Word) (s : State) : Host.Outcome State Fault Refusal :=
  .next (if s.setupOpen then s.writeEthPrefix value else s)

/-! ### The link reference clock (21 R470) -/

/-- LNK_REFCLK_LOSS: every port goes DOWN. -/
def execLnkRefclkLoss (now : Nat) (s : State) : Host.Outcome State Fault Refusal :=
  let s := s.at_ now
  .next (allHalves.foldl (fun s h => if (s.half h).state = .down then s else s.dropHalf h .down)
    { s with pins := { s.pins with lnkClk := false } })

/-- LNK_REFCLK_RETURN: the ports retrain. -/
def execLnkRefclkReturn (s : State) : Host.Outcome State Fault Refusal :=
  let s := { s with pins := { s.pins with lnkClk := true } }
  .next (if s.up then s.trainPorts (·.en) else s)

end Sys2Proof.Machine
end

