-- ==== Sys2Proof/Machine/TimeMsg.lean ====
section
/-!
DEFINITION. Sys2Proof/Machine/TimeMsg.lean: time messages, the lock state, slewing of the global counter, SYN_TIME_CFG (10 R236 to R239;
20 R454).
-/
namespace Sys2Proof.Machine

/-- OFFSET as a signed number. -/
def offsetOf (x : BitVec 16) : Int := signedOf 16 x.toNat

/-- The upstream half-port that SYN_TIME_CFG names. -/
def State.upstream (s : State) : HalfId :=
  let p : PortId := Fin.ofNat 8 s.time.upPort.toNat
  if (s.links.cfg[p]).split && s.time.upHalf then ⟨2 * p.val + 1, by omega⟩ else ⟨2 * p.val, by omega⟩

/-- The time root is LOCKED whenever it is running (10 R238). -/
def TimeSt.runRoot (t : TimeSt) : TimeSt :=
  if t.root then { t with lock := .locked, offset := 0, slew := 0, stepLeft := false } else t

/-- A launch is pending or runs in some partition. -/
def State.anyLaunch (s : State) : Bool := allParts.any fun p => (s.part p).launch.isSome

/-- A port's time message: IEEE 1588 on Ethernet, where the upstream port asks for the delay too (11 R273). -/
def State.sendTime (s : State) (h : HalfId) : State :=
  if (s.cfgOf h).eth then
    let s := s.emit (.port h (.ptpSync s.time.gt))
    if h = s.upstream ∧ !s.time.root then s.emit (.port h .ptpDelayReq) else s
  else s.portSend h (.time s.time.gt)

/-- TIME_MESSAGE_SEND: every 8 µs every trained port sends the counter (10 R237). -/
def execTimeMessageSend (now : Nat) (s : State) : Host.Outcome State Fault Refusal :=
  let s := s.at_ now
  whenDue (s.up && (match s.time.lastSend with | none => true | some t => decide (t + 8000 ≤ s.now))) "TIME_MESSAGE_SEND"
    ((allHalves.filter fun h => decide ((s.half h).state = .up)).foldl State.sendTime
      { s with time := { s.time with lastSend := some s.now } })

/-- Upstream's counter now, by the delay of the link: half the round trip, with half the recorded difference of the lane delays (10 R237;
log 85). -/
def upstreamNow (now : Nat) (upstream : Word) (echo : TimeEcho) (skew : Int) : Int :=
  let trip : Int := ((now : Int) - echo.sent) - ((upstream.toNat : Int) - echo.got)
  upstream.toNat + (trip + skew) / 2

/-- A measured offset as OFFSET holds it, at its bound beyond 16 bits. -/
def offsetField (d : Int) : BitVec 16 := BitVec.ofInt 16 (max (-32768) (min 32767 d))

/-- The counter moves forward in one step (10 R236: it never decreases). -/
def TimeSt.step (t : TimeSt) (v : Nat) : TimeSt := { t.advance v with stepLeft := false }

/-- The lock state after a message with an offset: 16 messages in a row within 1 gt give LOCKED (10 R238). -/
def TimeSt.judge (t : TimeSt) (d : Int) (stepped : Bool) : TimeSt :=
  let good := if d.natAbs ≤ 1 then min (t.good + 1) 16 else 0
  { t with good := good, lastMsg := t.gt.toNat, slew := if stepped then 0 else -d, offset := offsetField d,
           stepLeft := t.stepLeft && decide (good ≠ 16), lock := if good = 16 then .locked else if t.lock = .unlocked then .acquiring else t.lock }

/-- TIME_MESSAGE_RECEIPT: `upstream` is the counter the message carries, `echo` what it returns of this module's last message. Only the
upstream port counts, and the root takes no time. The one step before the first lock is made by the first message, while UNLOCKED or
ACQUIRING, that comes with no launch pending or running and does not lie below the counter; after the first lock there is none (log
69). -/
def execTimeMessageReceipt (port : HalfId) (upstream : Word) (echo : TimeEcho) (now : Nat) (s : State) :
    Host.Outcome State Fault Refusal :=
  let s := s.at_ now
  if !s.halfUp port then notDue "TIME_MESSAGE_RECEIPT"
  else if s.time.root ∨ port ≠ s.upstream then .next s
  else
    let v := upstreamNow s.now upstream echo (s.half port).skew
    let stepped := s.time.stepLeft && decide (s.time.lock = .unlocked ∨ s.time.lock = .acquiring) && !s.anyLaunch &&
      decide ((s.now : Int) ≤ v) && decide (v < 2 ^ 64)
    .next { s with time := (if stepped then s.time.step v.toNat else s.time).judge ((s.now : Int) - v) stepped }

/-- COUNTER_SLEW: at most one tick is added or withheld in 1,024 gt; in HOLDOVER the counter runs on its last correction (10 R237,
R238). A withheld tick leaves the counter where it is. -/
def execCounterSlew (s : State) : Host.Outcome State Fault Refusal :=
  let t := s.time
  let c : Int := if t.lock = .holdover then t.lastSlew else if t.slew < 0 then -1 else if 0 < t.slew then 1 else 0
  if t.root ∨ c = 0 ∨ t.gt.toNat < t.slewAt + 1024 then notDue "COUNTER_SLEW"
  else
    let add : Word := if 0 < c then 1 else 0
    let gt := t.gt + add
    .next { s with time := { t with gt := gt, cd0 := t.cd0 + add, cd1 := t.cd1 + add, lastSlew := c, slewAt := gt.toNat,
                                    slew := if t.lock = .holdover then t.slew else t.slew - c } }

/-- HOLDOVER_ENTRY: 32 µs without a time message while LOCKED; running launches note that the counter is not LOCKED (13 R312). -/
def execHoldoverEntry (now : Nat) (s : State) : Host.Outcome State Fault Refusal :=
  let s := s.at_ now
  whenDue (decide (s.time.lock = .locked) && !s.time.root && decide (s.time.lastMsg + 32000 ≤ s.now)) "HOLDOVER_ENTRY"
    ({ s with time := { s.time with lock := .holdover, holdAt := s.now, good := 0 } }.markAll .tmg)

/-- SYN_TIME_UNLOCK: 1 ms in HOLDOVER; the event holds the upstream port and the last offset. -/
def execSynTimeUnlock (now : Nat) (s : State) : Host.Outcome State Fault Refusal :=
  let s := s.at_ now
  whenDue (decide (s.time.lock = .holdover) && !s.time.root && decide (s.time.holdAt + 1000000 ≤ s.now)) "SYN_TIME_UNLOCK"
    ({ s with time := { s.time with lock := .unlocked, good := 0, slew := 0 } }.raisePf0 0x0301 none s.time.upPort.toNat
      (codeOf 64 (offsetOf s.time.offset)))

/-- SYN_TIME_CFG (20 R454). -/
def State.writeTimeCfg (s : State) (v : Half) : State :=
  let t := { s.time with root := bit v 4, upHalf := bit v 3, upPort := BitVec.ofNat 3 (bits v 2 0) }
  { s with time := if s.up then t.runRoot else t }

def execSynTimeCfg (value : Half) (s : State) : Host.Outcome State Fault Refusal :=
  .next (if s.setupOpen then s.writeTimeCfg value else s)

/-- MEM_BUDGET_CFG (20 R452): a field outside its range makes the write ignored. -/
def State.writeBudget (s : State) (v : Half) : State :=
  let ue := bits v 28 24
  let pc := bits v 23 8
  let row := bits v 7 0
  if 1 ≤ ue ∧ ue ≤ 16 ∧ 256 ≤ pc ∧ 2 ≤ row ∧ row ≤ 64 then
    { s with memctl := { s.memctl with pcue := BitVec.ofNat 5 ue, pcpce := BitVec.ofNat 16 pc, rowpce := BitVec.ofNat 8 row } }
  else s

def execMemBudgetCfg (value : Half) (s : State) : Host.Outcome State Fault Refusal :=
  .next (if s.setupOpen then s.writeBudget value else s)

end Sys2Proof.Machine
end

