-- ==== Sys2Proof/Machine/Transfer.lean ====
section
/-!
DEFINITION. Sys2Proof/Machine/Transfer.lean: COPY, FILL, QUERY and DIGEST_READ (16 R368, R373, R377, R378; 10 R245; 09 R227; 18 R415).
-/
namespace Sys2Proof.Machine

/-! ### Device addresses of a host command (16 R368, 00 R13) -/

/-- Where a range lies: host memory, the silo, an on-die window, whole sync objects from a partition index on. -/
inductive Place where
  | host (a : Nat)
  | silo (a : Nat)
  | die (a : Nat)
  | objects (i : Nat)
  deriving DecidableEq, Repr

/-- The sync region. -/
def inSync (a : Nat) : Bool := decide (syncBase ≤ a) && decide (a < syncBase + 2 ^ 20)

/-- A range in the sync region is not made of whole objects. -/
def syncMisaligned (dev : Bool) (a len : Nat) : Bool := dev && inSync a && (decide (a % 16 ≠ 0) || decide (len % 16 ≠ 0))

/-- A window of a sheaf: the partition's own, enabled and not fenced. -/
def State.windowCheck (s : State) (p : Pid) (e : EngId) (enabled inside : Bool) : Check :=
  firstFail [(!(s.part p).entry.hasSheaf e, eRange), (!enabled, eRetired), (s.fenced .sheaf e.val, eRetired), (!inside, eRange)]

/-- A tile-store window. -/
def State.placeTile (s : State) (p : Pid) (a len : Nat) : Except (BitVec 16) Place :=
  let k := (a - tileBase) / tileSize
  if h : k < 128 then
    match s.windowCheck p (sheafOf ⟨k, h⟩) (s.tile ⟨k, h⟩).enabled (decide ((a - tileBase) % tileSize + len ≤ tileSize)) with
    | some c => .error c
    | none => .ok (.die a)
  else .error eRange

/-- A solve-engine window. -/
def State.placeEngine (s : State) (p : Pid) (a len : Nat) : Except (BitVec 16) Place :=
  let k := (a - engBase) / engSize
  if h : k < 16 then
    match s.windowCheck p ⟨k, h⟩ (s.engine ⟨k, h⟩).enabled (decide ((a - engBase) % engSize + len ≤ engSize)) with
    | some c => .error c
    | none => .ok (.die a)
  else .error eRange

/-- Objects of a range of the sync region. -/
def Part.objsOf (x : Part) (i n : Nat) : List (Option Nat) := (natRange i (i + n)).map x.objOf

/-- The sync region. -/
def State.placeSync (s : State) (p : Pid) (a len : Nat) : Except (BitVec 16) Place :=
  let os := (s.part p).objsOf ((a - syncBase) / 16) (len / 16)
  if !inSync a || os.any (·.isNone) then .error eRange
  else if (os.filterMap id).any (fun o => s.fenced .syncBlock (o / 1024)) then .error eRetired
  else .ok (.objects ((a - syncBase) / 16))

/-- Where a range of a command lies, or the code it fails with. -/
def State.placeOf (s : State) (p : Pid) (dev : Bool) (a len : Nat) : Except (BitVec 16) Place :=
  if !dev then .ok (.host a)
  else if a < tileBase then
    if !(s.part p).inSilo a len then .error eRange
    else if s.siloFenced p a len then .error eRetired
    else .ok (.silo a)
  else if a < engBase then s.placeTile p a len
  else if a < syncBase then s.placeEngine p a len
  else s.placeSync p a len

/-- A solve command of the partition is queued. -/
def State.solveQueued (s : State) (p : Pid) : Bool :=
  allEngines.any fun e => (List.finRange 32).any fun c =>
    match (s.chan e c).alloc with
    | none => false
    | some a => decide (a.pid = p) && !(s.chan e c).queue.isEmpty

/-- A write of an on-die window or of sync objects meets a running launch or a queued solve command. -/
def State.dieBusy (s : State) (p : Pid) (x : Place) : Bool :=
  match x with
  | .die _ | .objects _ => (s.part p).launch.isSome || s.solveQueued p
  | _ => false

/-! ### Reading and writing places -/

/-- What a channel slice holds beside the queue: table entry and pivot record, as numbers (05 R106). -/
def Channel.entryNumbers (c : Channel) : List Nat :=
  (match c.alloc with
    | none => []
    | some a => [a.pid.val, a.slot.val, a.lse, a.lch, b2n a.hostOwn, a.tau, a.refresh, a.valAddr, a.facAddr, a.lastAdr, a.fprint.toNat]) ++
    [b2n (decide (c.factor.st = .valid)), c.age, c.nreg.toNat, c.wmcnt.toNat, b2n c.wvalid, c.wprint.toNat, c.waddr] ++ c.pivots

/-- Offset of the channel slices in an engine's window, and size of one (05 R106). -/
def sliceBase : Nat := 0x600000
def sliceSize : Nat := 0x10000

/-- A byte of an engine's window. -/
def State.engineByte (s : State) (e : EngId) (off : Nat) : Byte :=
  let here := Memory.read s.mem (engAddr e + off)
  if off < sliceBase then
    match (s.engine e).panel with
    | none => here
    | some x => if x.2.any fun (r : Nat × Nat) => decide (r.1 ≤ off) && decide (off < r.1 + r.2) then here else Config.freeByte (x.1 + off)
  else
    let c := s.chan e (Fin.ofNat 32 ((off - sliceBase) / sliceSize))
    Config.sliceByte (c.queue.map (·.record)) c.entryNumbers (off % sliceSize)

/-- n bytes of an on-die window. -/
def State.dieBytes (s : State) (a n : Nat) : List Byte :=
  if a < engBase then Memory.readBytes s.mem a n
  else (List.range n).map fun i => s.engineByte (Fin.ofNat 16 ((a - engBase) / engSize)) ((a - engBase) % engSize + i)

/-- A channel slice that software has written over, in a layout that the manual does not give: which factor, pivot record and warm record
the channel holds then is open; its allocation stays (05 R106, log 81). -/
def Channel.overwritten (c : Channel) (k : Nat) : Channel :=
  let w (i : Nat) : Word := Config.freeWord (k + i)
  { c with
    factor := { c.factor with st := if Config.freeBool k then .broken else c.factor.st }
    nreg := (w 1).setWidth 32, age := (w 2).toNat % 2 ^ 32, wmcnt := (w 3).setWidth 32, wvalid := Config.freeBool (k + 4)
    wprint := w 5, waddr := (w 6).toNat, pivots := ((List.range 16).map fun i => (w (7 + i)).toNat % 2 ^ 32).take ((w 23).toNat % 17) }

/-- Bytes written to an on-die window. -/
def State.dieWrite (s : State) (a : Nat) (bs : List Byte) : State :=
  let s := { s with mem := Memory.writeBytes s.mem a bs }
  if a < engBase then s else
  let off := (a - engBase) % engSize
  let hit (c : Nat) : Bool := overlap (off, bs.length) (sliceBase + c * sliceSize, sliceSize)
  (s.modEngine (Fin.ofNat 16 ((a - engBase) / engSize)) fun x =>
    { x with panel := x.panel.map fun y => (y.1, (off, bs.length) :: y.2)
             chans := Vector.ofFn fun c => if hit c.val then x.chans[c].overwritten (s.freeCtr + 24 * c.val) else x.chans[c] }).skipFree (24 * 32)

/-- The n bytes at a place; `host`: what the host returned. -/
def State.readPlace (s : State) (p : Pid) (x : Place) (n : Nat) (host : List Byte) : List Byte :=
  match x with
  | .host _ => hostData host n
  | .silo a => s.siloBytes p a n
  | .die a => s.dieBytes a n
  | .objects i => ((s.part p).objsOf i (n / 16)).flatMap fun o => leBytes 16 ((o.map fun k => (s.obj k).toNat).getD 0)

/-- The objects that bytes from index i on write, with their values. -/
def objsFrom (x : Part) (i : Nat) (bs : List Byte) : List (Nat × BitVec 128) :=
  (List.range (bs.length / 16)).filterMap fun k =>
    (x.objOf (i + k)).map fun o => (o, BitVec.ofNat 128 (leNat ((bs.drop (16 * k)).take 16)))

/-- Bytes stored at a place, in the silo under a cache hint. -/
def State.writePlace (s : State) (p : Pid) (hint : Nat) (x : Place) (bs : List Byte) : State :=
  match x with
  | .host a => { s with hostMem := Memory.writeBytes s.hostMem a bs }
  | .silo a => s.siloWriteH p hint a bs
  | .die a => s.dieWrite a bs
  | .objects i => (objsFrom (s.part p) i bs).foldl (fun s (o : Nat × BitVec 128) => s.initObj o.1 o.2) s

/-- The first object that may not be written (10 R245). -/
def State.objectsCheck (s : State) (p : Pid) (x : Place) (bs : List Byte) : Check :=
  match x with
  | .objects i => (objsFrom (s.part p) i bs).findSome? fun (o : Nat × BitVec 128) => s.objWriteCheck p o.1 o.2
  | _ => none

/-- The destination of a command that the host ended holds unspecified bytes (16 R365 E_HOST_DMA); sync objects take them as they take
any write, so that one with a waiter stays and none gets fields it cannot hold (10 R245). -/
def State.spoilPlace (s : State) (p : Pid) (hint : Nat) (x : Place) (n : Nat) : State :=
  (if (s.objectsCheck p x (s.freeBytes n)).isNone then s.writePlace p hint x (s.freeBytes n) else s).skipFree n

/-- Offset and device address of the first sector of a source that cannot be corrected. -/
def State.sourceBad (s : State) (p : Pid) (x : Place) (n : Nat) : Option (Nat × Nat) :=
  match x with
  | .silo a => (s.siloBadAt p a n).map fun b => (b / 64 * 64 - a, (s.part p).devAddr (b / 64 * 64))
  | _ => none

/-- Offset and device address of the first sector of a destination that a partial write would merge into and that cannot be
corrected (09 R227). -/
def State.targetBad (s : State) (p : Pid) (x : Place) (n : Nat) : Option (Nat × Nat) :=
  match x with
  | .silo a =>
    if s.memctl.bad.isEmpty then none else
    ((natRange (a / 64) ((a + n + 63) / 64)).find? fun i =>
      (decide (i * 64 < a) || decide (a + n < i * 64 + 64)) && s.siloBad p (i * 64) 64).map fun i =>
        (i * 64 - a, (s.part p).devAddr (i * 64))
  | _ => none

/-- The earlier of two failing sectors. -/
def firstBad (x y : Option (Nat × Nat)) : Option (Nat × Nat) :=
  match x, y with
  | some a, some b => if a.1 ≤ b.1 then x else y
  | none, y => y
  | x, none => x

/-- A COPY or FILL that met an uncorrectable sector at offset k: bytes before it may have been written, how many is left open
(18 R415); every later byte is withheld. -/
def State.cutShort (s : State) (p : Pid) (hint : Nat) (x : Place) (bs : List Byte) (bad : Nat × Nat) : State :=
  let n := s.freeWord.toNat % (bad.1 + 1)
  let s := s.skipFree 1
  let pre := bs.take (match x with | .objects _ => n / 16 * 16 | _ => n)
  let s := if (s.objectsCheck p x pre).isNone then s.writePlace p hint x pre else s
  s.raiseUncorrectable (some p) bad.2

/-- Device addresses wait for the clear of their granule: the write is held (14 R332). -/
def State.holdPlace (s : State) (p : Pid) (x : Place) (n : Nat) : Option State :=
  match x with
  | .silo a => s.holdWrites p [(a, n)]
  | _ => none

/-! ### COPY (16 R373) -/

/-- HINT of COPY and FILL. -/
def copyHint (d : BitVec 512) : Nat := bits (dw d 4) 3 2

def copyCheck (d : BitVec 512) : Check :=
  let len := bits (dw d 3) 39 0
  firstFail
    [ (headBad d || !zeroFrom d 5 || decide (bits (dw d 3) 63 40 ≠ 0) || decide (bits (dw d 4) 63 4 ≠ 0) || decide (len < 4) ||
        decide (bits (dw d 4) 1 0 = 0), eField),
      (decide (len % 4 ≠ 0) || syncMisaligned (bit (dw d 4) 0) (dw d 1).toNat len ||
        syncMisaligned (bit (dw d 4) 1) (dw d 2).toNat len, eAlign) ]

/-- A COPY that passed its checks. -/
def State.runCopy (s : State) (p : Pid) (src dst : Place) (len hint : Nat) (host : HostReply) : State × BitVec 16 :=
  let s := match src, dst with
    | .host _, _ => s.markOthers p
    | _, .host _ => s.markOthers p
    | _, _ => s
  match host, src, dst with
  | .error, .host _, _ => (s.spoilPlace p hint dst len, eHostDma)
  | .error, _, .host _ => (s.spoilPlace p hint dst len, eHostDma)
  | reply, _, _ =>
    let data := s.readPlace p src len (match reply with | .ok d => d | .error => [])
    match firstBad (s.sourceBad p src len) (s.targetBad p dst len) with
    | some bad => (s.cutShort p hint dst data bad, eMemUncorrectable)
    | none =>
      match s.objectsCheck p dst data with
      | some c => (s, c)
      | none =>
        let s := match src with | .silo a => s.hintRead p hint a len | _ => s
        (s.writePlace p hint dst data, cOk)

/-- COPY; `host`: what the host answered to the reads of its source or the writes of its destination. -/
def execCopy (fn : Fn) (cid : Nat) (host : HostReply) (s : State) : Host.Outcome State Fault Refusal :=
  match s.dueCmd fn cid 0x10, s.partOfFn fn with
  | some c, some p =>
    let d := c.desc
    let len := bits (dw d 3) 39 0
    match copyCheck d with
    | some code => .next (s.complete fn c code 0 0)
    | none =>
      match s.placeOf p (bit (dw d 4) 0) (dw d 1).toNat len, s.placeOf p (bit (dw d 4) 1) (dw d 2).toNat len with
      | .error code, _ => .next (s.complete fn c code 0 0)
      | .ok _, .error code => .next (s.complete fn c code 0 0)
      | .ok a, .ok b =>
        if s.dieBusy p b then .next (s.complete fn c eBusy 0 0)
        else
          match s.holdPlace p b len with
          | some t => .next t
          | none =>
            let r := s.runCopy p a b len (copyHint d) host
            .next (r.1.complete fn c r.2 0 0)
  | _, _ => notDue "COPY"

/-! ### FILL (16 R367) -/

def fillCheck (d : BitVec 512) : Check :=
  let len := bits (dw d 2) 39 0
  firstFail
    [ (headBad d || !zeroFrom d 5 || decide (bits (dw d 2) 63 40 ≠ 0) || decide (bits (dw d 4) 63 4 ≠ 0) ||
        decide (bits (dw d 4) 1 0 ≠ 0) || decide (len = 0), eField),
      (decide (len % 8 ≠ 0) || syncMisaligned true (dw d 1).toNat len, eAlign) ]

/-- The pattern repeated over n bytes. -/
def fillBytes (pat : Word) (n : Nat) : List Byte := (List.range (n / 8)).flatMap fun _ => leBytes 8 pat.toNat

/-- FILL. -/
def execFill (fn : Fn) (cid : Nat) (s : State) : Host.Outcome State Fault Refusal :=
  match s.dueCmd fn cid 0x11, s.partOfFn fn with
  | some c, some p =>
    let d := c.desc
    let len := bits (dw d 2) 39 0
    match fillCheck d with
    | some code => .next (s.complete fn c code 0 0)
    | none =>
      match s.placeOf p true (dw d 1).toNat len with
      | .error code => .next (s.complete fn c code 0 0)
      | .ok b =>
        if s.dieBusy p b then .next (s.complete fn c eBusy 0 0)
        else
          match s.holdPlace p b len with
          | some t => .next t
          | none =>
            let bs := fillBytes (dw d 3) len
            match s.targetBad p b len, s.objectsCheck p b bs with
            | some bad, _ => .next ((s.cutShort p (copyHint d) b bs bad).complete fn c eMemUncorrectable 0 0)
            | none, some code => .next (s.complete fn c code 0 0)
            | none, none => .next ((s.writePlace p (copyHint d) b bs).complete fn c cOk 0 0)
  | _, _ => notDue "FILL"

/-! ### QUERY (16 R377) -/

/-- A flag word of n tiles: bit b of word i is tile 32 i + b. -/
def State.tileWord (s : State) (i : Nat) (f : Tile → Bool) : Nat :=
  ((List.range 32).map fun b => if h : 32 * i + b < 128 then 2 ^ b * b2n (f (s.tile ⟨32 * i + b, h⟩)) else 0).foldl (· + ·) 0

/-- Enabled engines and retired engines, bit e for engine e. -/
def State.engWord (s : State) (f : Engine → Bool) : Nat := (allEngines.map fun e => 2 ^ e.val * b2n (f (s.engine e))).foldl (· + ·) 0

/-- The part was made with every tile and engine enabled: the A grade (01 R23). -/
def State.gradeA (s : State) : Bool := (s.tiles.all fun x => x.made) && s.engines.all fun x => x.made

/-- PART_ID, and STEPPING_ID (20 R446). -/
def State.partId (s : State) : Nat := if s.gradeA then 0x0D110180 else 0x0D120180
def steppingId : Nat := 0x0B00

/-- PART_TILE_EN and PART_TILE_RET words. -/
def State.tileEn (s : State) (i : Nat) : Nat := s.tileWord i Tile.enabled
def State.tileRet (s : State) (i : Nat) : Nat := s.tileWord i (·.retired)

/-- SVN of the image at work (15 R343). -/
def State.svn (s : State) : BitVec 16 := s.mgmt.image.svn

/-- Result of DEVICE. -/
def State.queryDevice (s : State) (n : Fn) : List Byte :=
  leBytes 4 s.partId ++ leBytes 4 steppingId ++ leBytes 8 s.numericsId.toNat ++
    ((List.range 4).flatMap fun i => leBytes 4 (s.tileEn i)) ++ ((List.range 4).flatMap fun i => leBytes 4 (s.tileRet i)) ++
    leBytes 2 (s.engWord Engine.enabled) ++ leBytes 2 s.svn.toNat ++ leBytes 2 s.links.modId.toNat ++ [(s.func n).act, 0] ++
    leBytes 2 (s.engWord (·.retired)) ++ List.replicate 6 0

/-- Result of MAP. -/
def queryMap (x : Program) : List Byte :=
  leBytes 1 x.s ++ leBytes 1 x.t ++ leBytes 1 x.e ++ [0] ++
    ((List.range 16).flatMap fun k => leBytes 1 ((x.sheafs[k]?.map (·.val)).getD 0xFF)) ++ List.replicate 44 0 ++
    (List.range 128).flatMap fun l => leBytes 2 ((x.tiles[l]?.map (·.val)).getD 0xFFFF)

/-- Result of CHANNEL. -/
def queryChannel (g : Engine) (m : ChanMap) : List Byte :=
  let c := g.chans[m.ch]
  let fp := match c.alloc with | none => 0 | some a => a.fprint.toNat
  let flags := b2n (decide (c.factor.st = .valid)) + 2 * b2n c.wvalid + 4 * b2n (bit g.chanRet m.ch.val)
  leBytes 1 m.eng.val ++ leBytes 1 m.ch.val ++ leBytes 1 flags ++ [0] ++ leBytes 4 c.age ++ leBytes 8 fp ++
    leBytes 4 c.nreg.toNat ++ leBytes 4 c.wmcnt.toNat ++ leBytes 1 c.pivots.length ++ List.replicate 39 0 ++
    (List.range 16).flatMap fun i => leBytes 4 (c.pivots[i]?.getD 0)

/-- Result of BINDING. -/
def State.queryBinding (s : State) (p : Pid) : List Byte :=
  let e := (s.part p).entry
  let r := if e.st = .free then List.replicate 1024 (0 : Byte) else leBytes 1024 e.record.toNat
  r.take 24 ++ leBytes 4 e.epoch.toNat ++ leBytes 1 (pstateCode e.st) ++ r.drop 29

/-- One entry of WATCH. -/
def watchBytes (ws : List Watch) (i : Nat) : List Byte :=
  match ws.find? fun w => decide (w.widx = i) with
  | none => leBytes 2 i ++ List.replicate 14 0
  | some w => leBytes 2 i ++ leBytes 2 w.thresh ++ leBytes 4 w.tid.toNat ++ leBytes 4 w.streak.toNat ++
      leBytes 1 (1 + 2 * b2n w.touched + 4 * b2n w.nz) ++ List.replicate 3 0

/-- Result of ATTLOG: the header, then entries that fit. -/
def State.queryAttlog (s : State) (first blen : Nat) : List Byte :=
  leBytes 4 s.sec.log.length ++ leBytes 4 s.sec.lost.toNat ++ s.sec.lchain ++ List.replicate 8 0 ++
    ((s.sec.log.drop first).take ((blen - 64) / 64)).flatten

/-- The result of a query, or the code it fails with. -/
def State.queryResult (s : State) (n : Fn) (d : BitVec 512) : Except (BitVec 16) (List Byte) :=
  let arg := (dw d 2).toNat
  let blen := (dw d 4).toNat
  let own := s.partOfFn n
  let slot (k : Nat) : Option Program := match own with | none => none | some p => ((s.part p).slots[k]?).join
  match bits (dw d 1) 7 0 with
  | 1 => if arg ≠ 0 then .error eField else .ok (s.queryDevice n)
  | 2 => if 8 ≤ arg then .error eField else match slot arg with
    | none => .error eField
    | some x => .ok (queryMap x)
  | 3 =>
    if 2 ^ 19 ≤ arg ∨ nbits arg 15 13 ≠ 0 ∨ nbits arg 7 5 ≠ 0 then .error eField else
    match slot (nbits arg 18 16) with
    | none => .error eField
    | some x =>
      match x.chans.find? fun m => decide (m.lse = nbits arg 12 8) && decide (m.lch = nbits arg 4 0) with
      | none => .error eField
      | some m => .ok (queryChannel (s.engine m.eng) m)
  | 4 =>
    if h : arg < 16 then
      if n.val = 0 ∨ own = some ⟨arg, h⟩ then .ok (s.queryBinding ⟨arg, h⟩) else .error eField
    else .error eField
  | 5 => if 4096 ≤ arg then .error eField else match own with
    | none => .error eNotBound
    | some p => .ok ((natRange arg (min 4096 (arg + blen / 16))).flatMap (watchBytes (s.part p).watch))
  | 6 => if n.val ≠ 0 then .error eField else .ok (s.queryAttlog arg blen)
  | _ => .error eField

/-- A result of n bytes is written to the host at BUF. -/
def State.answerHost (s : State) (n : Fn) (c : Cmd) (buf : Nat) (bs : List Byte) (info : Nat) (host : HostReply) : State :=
  match host with
  | .error =>
    let k := bs.length
    let s := { s with hostMem := Memory.writeBytes s.hostMem buf (s.freeBytes k) }.skipFree k
    s.complete n c eHostDma 0 0
  | .ok _ => { s with hostMem := Memory.writeBytes s.hostMem buf bs }.complete n c cOk 0 info

/-- QUERY. -/
def execQuery (fn : Fn) (cid : Nat) (host : HostReply) (s : State) : Host.Outcome State Fault Refusal :=
  match s.dueCmd fn cid 0x50 with
  | none => notDue "QUERY"
  | some c =>
    let d := c.desc
    if headBad d || !zeroFrom d 5 || decide (bits (dw d 1) 63 8 ≠ 0) || decide (bits (dw d 4) 63 32 ≠ 0) then
      .next (s.complete fn c eField 0 0)
    else
      match s.queryResult fn d with
      | .error code => .next (s.complete fn c code 0 0)
      | .ok bs =>
        if (dw d 3).toNat % 64 ≠ 0 then .next (s.complete fn c eAlign 0 0)
        else if (dw d 4).toNat < bs.length then .next (s.complete fn c eCapacity 0 0)
        else .next (s.answerHost fn c (dw d 3).toNat bs bs.length host)

/-! ### DIGEST_READ (16 R378) -/

/-- Program slot of DIGEST_READ. -/
def digestSlot (d : BitVec 512) : SlotId := ⟨bits (dw d 1) 2 0, by unfold bits; exact Nat.mod_lt _ (by decide)⟩

/-- DIGEST_READ: INFO is the low 40 bits of STEP, which stands in bytes [23:16] of the record (13 R316). -/
def execDigestRead (fn : Fn) (cid : Nat) (host : HostReply) (s : State) : Host.Outcome State Fault Refusal :=
  match s.dueCmd fn cid 0x51, s.partOfFn fn with
  | some c, some p =>
    let d := c.desc
    if headBad d || !zeroFrom d 3 || decide (7 < (dw d 1).toNat) then .next (s.complete fn c eField 0 0)
    else
      match (s.part p).results[digestSlot d] with
      | none => .next (s.complete fn c eField 0 0)
      | some r =>
        if (dw d 2).toNat % 64 ≠ 0 then .next (s.complete fn c eAlign 0 0)
        else .next (s.answerHost fn c (dw d 2).toNat (leBytes 512 r.toNat) (nbits r.toNat 167 128) host)
  | _, _ => notDue "DIGEST_READ"

end Sys2Proof.Machine
end

