-- ==== Sys2Proof/Machine/RegRead.lean ====
section
/-!
DEFINITION. Sys2Proof/Machine/RegRead.lean: what every register of BAR0 reads as (20 R441 to R456; 11 R263; 14 R333, R334; 15;
16 R358; 17; 19 R427, R434, R439).
-/
namespace Sys2Proof.Machine

/-- The register of an array of n with that base and stride that stands at an offset. -/
def slotAt (n base stride off : Nat) : Option (Fin n) :=
  if h : (off - base) / stride < n then
    if base ≤ off ∧ (off - base) % stride = 0 then some ⟨(off - base) / stride, h⟩ else none
  else none

/-- The register among several that answers; an offset that is not assigned reads 0 (20 R441). -/
def firstRead (l : List (Option Nat)) : Nat := (l.findSome? id).getD 0

/-- A single register at its offset. -/
def regAt (here off v : Nat) : Option Nat := if off = here then some v else none

/-! ### HIF_ (20 R455; 16 R359 to R361, R384) -/

/-- HIF_RING_CFGn. -/
def Ring.cfgWord (r : Ring) : Nat :=
  b2n r.en * 2 ^ 31 + b2n r.prio * 2 ^ 30 + r.vec.toNat * 2 ^ 16 + r.cqlog.toNat * 2 ^ 8 + r.sqlog.toNat

/-- HIF_RING_STATn. -/
def Ring.statWord (r : Ring) : Nat := b2n r.dbErr * 2 ^ 31 + b2n r.cfgErr * 2 ^ 30 + r.sqHead % 2 ^ 16

/-- HIF_EVQ_CFG. -/
def EvRing.cfgWord (r : EvRing) : Nat := b2n r.en * 2 ^ 31 + r.vec.toNat * 2 ^ 16 + r.log.toNat

/-- The HIF_ block of a function; while it moults every register but HIF_FN_STATE reads its reset value (14 R334). -/
def State.readHif (s : State) (n : Fn) (off : Nat) : Nat :=
  let f := if s.fnState n = .moulting then Func.reset else s.func n
  firstRead
    [ regAt 0x0 off (f.maxv.toNat * 256 + f.minv.toNat), regAt 0x8 off f.act.toNat, regAt 0x10 off (pstateCode (s.fnState n)),
      regAt 0x20 off f.evq.base.toNat, regAt 0x28 off f.evq.cfgWord, regAt 0x30 off f.evq.lost.toNat,
      (slotAt 64 0x1000 0x20 off).map fun r => (f.rings[r]).sqBase.toNat,
      (slotAt 64 0x1008 0x20 off).map fun r => (f.rings[r]).cqBase.toNat,
      (slotAt 64 0x1010 0x20 off).map fun r => (f.rings[r]).cfgWord,
      (slotAt 64 0x1018 0x20 off).map fun r => (f.rings[r]).statWord ]

/-! ### PART_ (20 R446, R447; 14 R333) -/

/-- PART_STATEn: a key moult shows in HIF_FN_STATE only, so MSTEP is 0 then (14 R333, 15 R353). -/
def Entry.stateWord (e : Entry) : Nat :=
  e.epoch.toNat * 2 ^ 32 + (if e.st = .free then 0 else e.hfn.val * 2 ^ 16) +
    (if e.st = .moulting then e.mstep % 16 * 2 ^ 4 else 0) + pstateCode e.st

/-- PART_RST_CTL. -/
def BindSt.rstWord (b : BindSt) : Nat := b2n b.rstErr * 2 ^ 30 + b2n b.rstBusy * 2 ^ 29 + b.rstPid.val

/-- The PART_ block. -/
def State.readPart (s : State) (off : Nat) : Nat :=
  firstRead
    [ regAt 0x0 off s.partId, regAt 0x8 off steppingId, regAt 0x10 off s.numericsId.toNat,
      (slotAt 4 0x20 8 off).map fun n => s.tileEn n.val, (slotAt 4 0x40 8 off).map fun n => s.tileRet n.val,
      (slotAt 4 0x60 8 off).map fun n => s.tileWord n.val (·.pend),
      regAt 0x80 off (s.engWord (·.retired) * 2 ^ 16 + s.engWord Engine.enabled), regAt 0x88 off s.bind.bepoch.toNat,
      regAt 0x90 off s.bind.rstWord, (slotAt 16 0x100 8 off).map fun p => (s.part p).entry.stateWord,
      (slotAt 12 0x180 8 off).map fun n => bits s.bind.clrPend (32 * n.val + 31) (32 * n.val) ]

/-! ### SEC_ and DBG_ (15; 20 R456) -/

/-- SEC_ROT_STATn. -/
def Rotation.word (r : Rotation) : Nat :=
  (if r.active then r.next.toNat * 2 ^ 32 else 0) + 4 * b2n r.link + 2 * b2n r.cur + b2n r.active

/-- SEC_DBG_STAT. -/
def SecSt.dbgWord (x : SecSt) : Nat := (allParts.map fun p => (x.dbg[p]).toNat * 4 ^ p.val).foldl (· + ·) 0

/-- The SEC_ and DBG_ block. -/
def State.readSec (s : State) (off : Nat) : Nat :=
  firstRead
    [ regAt 0x0 off s.sec.idCause.toNat, regAt 0x8 off (s.sec.peerMin.toNat * 2 ^ 16 + s.svn.toNat), regAt 0x10 off s.sec.dbgWord,
      regAt 0x18 off s.sec.attach.toNat, (slotAt 16 0x100 8 off).map fun p => (s.sec.rot[p]).word ]

/-! ### MEM_ (20 R452) -/

/-- MEM_STACK_STATm. -/
def StackSt.word (x : StackSt) : Nat := b2n x.ref2 * 2 ^ 12 + x.level.toNat * 2 ^ 8 + x.temp.toNat

/-- MEM_RET_SLOTk. -/
def slotWord : Option (Fin 512) → Nat
  | none => 0
  | some p => 2 ^ 31 + p.val

/-- The MEM_ block. -/
def State.readMem (s : State) (off : Nat) : Nat :=
  let m := s.memctl
  firstRead
    [ (slotAt 8 0x0 8 off).map fun k => (m.stackSt[k]).word, regAt 0x40 off m.tthr.toNat,
      regAt 0x48 off (m.pcue.toNat * 2 ^ 24 + m.pcpce.toNat * 2 ^ 8 + m.rowpce.toNat), regAt 0x50 off m.ce.toNat,
      regAt 0x58 off m.ue.toNat, regAt 0x60 off m.rowRep.toNat,
      (slotAt 16 0x100 8 off).map fun n => bits m.pcRet (32 * n.val + 31) (32 * n.val),
      (slotAt 8 0x180 8 off).map fun k => slotWord m.slots[k] ]

/-! ### LNK_ (11 R262, R263; 20 R453) -/

/-- Code of a port state. -/
def portStateCode : PortState → Nat
  | .down => 0
  | .training => 1
  | .up => 2
  | .retrain => 3
  | .failed => 4

/-- Number of lanes in a lane map. -/
def laneCount (x : Byte) : Nat := ((List.range 8).filter fun i => bit x i).length

/-- WIDTH, encoded as MAXW; 0b00 without a lane (11 R262, R263; log 35). -/
def widthCode (lanes : Nat) : Nat := if lanes = 4 then 1 else if lanes = 2 then 2 else if lanes = 1 then 3 else 0

/-- LNK_PORT_STATp and LNK_HALF_STATp. -/
def HalfPort.word (h : HalfPort) (c : PortCfg) : Nat :=
  h.peer.toNat * 2 ^ 48 + h.lanes.toNat * 2 ^ 40 + h.rtcnt % 2 ^ 16 * 2 ^ 16 + portStateCode h.state * 2 ^ 12 +
    h.ver.toNat * 2 ^ 8 + widthCode (laneCount h.lanes) * 2 ^ 6 + b2n c.eth * 2 ^ 5 + b2n c.split * 2 ^ 4

/-- A pair of counts of the two link engines. -/
def pairWord (c : Half × Half) : Nat := c.2.toNat * 2 ^ 32 + c.1.toNat

/-- The four link counters of a partition, in their order. -/
def Part.linkCounter (x : Part) (k : Nat) : Nat :=
  pairWord (match k with | 0 => x.shed | 1 => x.cvt | 2 => x.excl | _ => x.waited)

/-- The status word of one half of a port. -/
def State.portWord (s : State) (p : PortId) (h : Fin 2) : Nat :=
  (s.half ⟨2 * p.val + h.val, by omega⟩).word s.links.cfg[p]

/-- The LNK_ block. -/
def State.readLnk (s : State) (off : Nat) : Nat :=
  let l := s.links
  firstRead
    [ regAt 0x0 off l.modId.toNat, regAt 0x8 off l.laneRet.toNat, regAt 0x10 off l.replays.toNat, regAt 0x18 off l.discards.toNat,
      regAt 0x20 off l.authFail.toNat, (slotAt 8 0x100 8 off).map fun p => (l.cfg[p]).word,
      (slotAt 8 0x140 8 off).map fun p => s.portWord p 0, (slotAt 8 0x180 8 off).map fun p => s.portWord p 1,
      (slotAt 8 0x1C0 8 off).map fun p => (l.gwmac[p]).toNat, regAt 0x200 off l.pfx.toNat, regAt 0x208 off l.udp.toNat,
      regAt 0x210 off l.dscp.toNat, (slotAt 16 0x400 0x20 off).map fun p => (s.part p).linkCounter 0,
      (slotAt 16 0x408 0x20 off).map fun p => (s.part p).linkCounter 1,
      (slotAt 16 0x410 0x20 off).map fun p => (s.part p).linkCounter 2,
      (slotAt 16 0x418 0x20 off).map fun p => (s.part p).linkCounter 3 ]

/-! ### SYN_ (20 R454), PWR_ (17), MGMT_ (19) -/

/-- Code of a lock state. -/
def lockCode : Lock → Nat
  | .unlocked => 0
  | .acquiring => 1
  | .locked => 2
  | .holdover => 3

/-- The SYN_ block. -/
def State.readSyn (s : State) (off : Nat) : Nat :=
  let t := s.time
  firstRead
    [ regAt 0x0 off t.gt.toNat, regAt 0x8 off (b2n t.root * 16 + b2n t.upHalf * 8 + t.upPort.toNat),
      regAt 0x10 off (t.offset.toNat * 2 ^ 16 + lockCode t.lock), regAt 0x18 off t.lead.toNat, regAt 0x20 off t.lateRel.toNat,
      (slotAt 16 0x100 8 off).map fun p => (s.part p).waitLim.toNat ]

/-- PWR_STAT. -/
def State.powerWord (s : State) : Nat :=
  let x := s.power
  x.pavg.toNat * 2 ^ 48 + x.plast.toNat * 2 ^ 32 + x.mlvl.toNat * 2 ^ 24 + x.klow.toNat * 2 ^ 16 + s.limiter * 2 ^ 8 +
    4 * b2n x.deepest + 2 * b2n x.cfgErr

/-- The PWR_ block. -/
def State.readPwr (s : State) (off : Nat) : Nat :=
  let x := s.power
  firstRead
    [ regAt 0x0 off x.cap.toNat,
      regAt 0x8 off (x.dthr.toNat * 2 ^ 24 + x.mmin.toNat * 2 ^ 16 + x.kmax.toNat * 2 ^ 8 + x.kmin.toNat),
      regAt 0x10 off s.powerWord, regAt 0x18 off (b2n x.deepReq),
      (slotAt 16 0x100 8 off).map fun p => (s.part p).slackN.toNat * 2 ^ 40 + (s.part p).slack.toNat ]

/-- Code of a stage (19 R426). -/
def Stage.code : Stage → Nat
  | .none => 0
  | .root => 1
  | .verify => 2
  | .test => 3
  | .mem => 4
  | .link => 5
  | .ready => 6

/-- Code of an update state (19 R439). -/
def FwuState.code : FwuState → Nat
  | .idle => 0
  | .receiving => 1
  | .verifying => 2
  | .applying => 3
  | .pending => 4

/-- MGMT_BOOT_STAT. -/
def MgmtSt.bootWord (m : MgmtSt) : Nat :=
  m.lastFatal.toNat * 2 ^ 24 + m.cfgRej.toNat * 2 ^ 16 + b2n m.noId * 2 ^ 11 + b2n m.recov * 2 ^ 10 + b2n m.halted * 2 ^ 9 +
    b2n m.forced * 2 ^ 8 + m.stage.code

/-- MGMT_FWU_STAT. -/
def MgmtSt.fwuWord (m : MgmtSt) : Nat :=
  m.fwuCode.toNat * 2 ^ 48 + m.progress.toNat * 2 ^ 32 + b2n (decide (m.comp = .config)) * 2 ^ 4 + m.fwu.code

/-- The MGMT_ block. -/
def State.readMgmt (s : State) (off : Nat) : Nat :=
  firstRead [regAt 0x0 off s.mgmt.bootWord, regAt 0x8 off s.mgmt.fwuWord, regAt 0x10 off s.mgmt.i3cCfg.toNat]

/-! ### Engines, tiles, the profiling window (20 R445, R448 to R451) -/

/-- SE_CHAN_RETe and SE_RETRY_CNTe. -/
def Engine.readReg (x : Engine) (off : Nat) : Nat := firstRead [regAt 0x0 off x.chanRet.toNat, regAt 0x8 off x.retryCnt.toNat]

/-- The 256 B block of a tile. -/
def Tile.readReg (x : Tile) (off : Nat) : Nat :=
  firstRead
    [ regAt 0x00 off x.cnt.range.toNat, regAt 0x08 off x.cnt.infSat.toNat, regAt 0x10 off x.cnt.nanZero.toNat,
      regAt 0x18 off x.cnt.intSat.toNat, regAt 0x20 off x.cnt.intWrap.toNat, regAt 0x28 off x.cnt.scaleBad.toNat,
      regAt 0x30 off x.cnt.shed.toNat, regAt 0x38 off x.retryCnt.toNat, regAt 0x40 off x.sramCnt.toNat,
      regAt 0x50 off x.faults.mop.toNat, regAt 0x58 off x.faults.core.toNat, regAt 0x60 off x.faults.dma.toNat,
      regAt 0x68 off x.faults.upd.toNat, (slotAt 6 0x80 8 off).map fun n => (x.rowTrim[n]).toNat,
      (slotAt 6 0xC0 8 off).map fun n => (x.colTrim[n]).toNat ]

/-- The HIF_PROF window of a function: its own partition's counts while it is BOUND. -/
def State.readProf (s : State) (n : Fn) (off : Nat) : Nat :=
  match s.partOfFn n with
  | none => 0
  | some p =>
    if s.fnState n ≠ .bound then 0
    else if h : off < 0x8000 then
      let t : TileId := ⟨off / 0x100, by omega⟩
      if s.onPart p t then (s.tile t).readReg (off % 0x100) else 0
    else if h : off - 0x8000 < 0x100 then
      let e : EngId := ⟨(off - 0x8000) / 0x10, by omega⟩
      if (s.part p).entry.hasSheaf e then (s.engine e).readReg (off % 0x10) else 0
    else match slotAt 4 0x9000 8 off with
      | none => 0
      | some k => (s.part p).linkCounter k.val

/-- Engine and tile blocks of PF0's map. -/
def State.readUnits (s : State) (off : Nat) : Nat :=
  if h : 0x80000 ≤ off ∧ off < 0x80100 then (s.engine ⟨(off - 0x80000) / 0x10, by omega⟩).readReg (off % 0x10)
  else if h : 0x200000 ≤ off ∧ off < 0x208000 then (s.tile ⟨(off - 0x200000) / 0x100, by omega⟩).readReg (off % 0x100)
  else 0

/-- A register of the blocks that PF0 alone has (20 R444). -/
def State.readSetup (s : State) (off : Nat) : Nat :=
  match off / 0x10000 with
  | 1 => s.readPart (off % 0x10000)
  | 2 => s.readSec (off % 0x10000)
  | 3 => s.readMem (off % 0x10000)
  | 4 => s.readLnk (off % 0x10000)
  | 5 => s.readSyn (off % 0x10000)
  | 6 => s.readPwr (off % 0x10000)
  | 7 => s.readMgmt (off % 0x10000)
  | _ => s.readUnits off

/-- The registers that answer in recovery (19 R434). -/
def readsInRecovery (off : Nat) : Bool := off = 0x10000 || off = 0x10008 || off = 0x10010 || off = 0x70000

/-- One sample of the 8 B slot at an offset of a function's BAR0 (16 R358; 17 R406; 19 R434; 20 R441, R444, R445). -/
def State.readReg (s : State) (n : Fn) (off : Nat) : Word :=
  if s.mgmt.resetting then BitVec.allOnes 64
  else if s.mgmt.recov && !(readsInRecovery off && decide (n.val = 0)) then 0
  else BitVec.ofNat 64
    (if off < 0x10000 then s.readHif n off
     else if 0x100000 ≤ off ∧ off < 0x110000 then s.readProf n (off - 0x100000)
     else if n.val = 0 then s.readSetup off
     else 0)

/-- A 4 B read: the low or the high half of a new sample of the slot (20 R441). -/
def State.readReg4 (s : State) (n : Fn) (off : Nat) : Half :=
  BitVec.ofNat 32 ((s.readReg n (off / 8 * 8)).toNat >>> (8 * (off % 8)))

end Sys2Proof.Machine
end

