-- ==== Sys2Proof/Machine/Debug.lean ====
section
/-!
DEFINITION. Sys2Proof/Machine/Debug.lean: debug attach by register, MCTP and JTAG; halt and single step (15 R354, R355; 21 R462).
-/
namespace Sys2Proof.Machine

/-- The partition has a tenant session: its function's TDI is in CONFIG_LOCKED or RUN (15 R352). -/
def State.tenant (s : State) (p : Pid) : Bool :=
  decide ((s.part p).entry.st = .bound) && decide (s.sec.tdi[(s.part p).entry.hfn] = .locked ∨ s.sec.tdi[(s.part p).entry.hfn] = .run)

/-- The level granted at once for a request (15 R354, Table Debug views); FULL under a forced attach follows its key moult. -/
def grantNow (tenant : Bool) (level : Nat) : Nat := if tenant && decide (level = 3) then 2 else level

/-- Level n on a partition: SEC_DBG_STAT, who holds it, and below FULL no core stays halted. -/
def State.setLevel (s : State) (p : Pid) (level : Nat) (src : Option Source) : State :=
  let s := { s with sec := { s.sec with dbg := s.sec.dbg.set p (BitVec.ofNat 2 level), dbgSess := s.sec.dbgSess.set p src } }
  if level = 3 then s
  else s.mapTiles (s.onPart p) fun x => { x with core := { x.core with dbgHalt := false, dbgSteps := 0 } }

/-- DBG_ATTACH after a write: FORCE, PID, GRANTED, LEVEL. -/
def attachWord (value : Half) (granted : Nat) : Half := (value &&& 0x800F0003) ||| BitVec.ofNat 32 (granted * 4)

/-- A forced FULL on a tenant session: FORCED_FULL, the event, the TDI to ERROR, a key moult at whose end FULL is granted
(15 R352 to R355). -/
def State.forceFull (s : State) (p : Pid) (value : Half) (src : Source) : State :=
  let s := s.attest 0x0004 (some p) 3 src []
  let s := s.raiseBoth 0x0402 (some p) (p.val + srcCode src * 16) (s.part p).entry.epoch.toNat
  let s := (s.tdiError (s.part p).entry.hfn).startKeyMoult p src true
  { s with sec := { s.sec with attach := attachWord value (s.sec.dbg[p]).toNat, dbgSess := s.sec.dbgSess.set p (some src) } }

/-- A write of DBG_ATTACH, by whoever made it: attach, change of level, or detach (15 R354, R355). -/
def State.attachDebug (s : State) (value : Half) (src : Source) : State :=
  let p : Pid := ⟨bits value 19 16, by unfold bits; exact Nat.mod_lt _ (by decide)⟩
  let level := bits value 1 0
  if level = 0 then
    let was := decide (s.sec.dbg[p] ≠ 0) || (s.sec.dbgSess[p]).isSome
    let s := s.setLevel p 0 none
    let s := s.modPart p fun x => { x with entry := { x.entry with moultFull := false } }
    let s := { s with sec := { s.sec with attach := attachWord value 0 } }
    if was then s.attest 0x0003 (some p) 0 src [] else s
  else if s.tenant p && decide (level = 3) && bit value 31 then s.forceFull p value src
  else
    let g := grantNow (s.tenant p) level
    let s := (s.setLevel p g (some src)).attest 0x0002 (some p) g src []
    { s with sec := { s.sec with attach := attachWord value g } }

/-- DBG_ATTACH. -/
def execDbgAttach (value : Half) (src : Source) (s : State) : Host.Outcome State Fault Refusal :=
  .next (if s.setupOpen then s.attachDebug value src else s)

/-- JTAG_ATTACH: as a write of DBG_ATTACH, with source 3; the level granted is answered (21 R462). -/
def execJtagAttach (value : Half) (s : State) : Host.Outcome State Fault Refusal :=
  .next (if s.setupOpen then
    let s := s.attachDebug value .jtag
    s.emit (.jtag (BitVec.ofNat 2 (bits s.sec.attach 3 2)))
  else s)

/-- What a debug view shows of the silo sector at a device address, with its page's epoch bit: plaintext under FULL, the stored ciphertext
under CONTROL where a tenant session stands, else nothing (15 R354, R356). No command of the table reads through a view. -/
def State.siloView (s : State) (p : Pid) (d : Nat) : Option (List Byte × Bool) :=
  let epoch := s.memctl.epochOne.contains (d / 4096)
  if s.sec.dbg[p] = 3 then some ((List.range 64).map fun i => s.hbmByte (d / 64 * 64 + i), epoch)
  else if s.sec.dbg[p] = 2 ∧ s.tenant p then some (s.siloSector p d, epoch) else none

/-- DEBUG_HALT: under FULL the partition's cores stop issuing; the launch it interrupts is marked TMG (13 R312). -/
def execDebugHalt (p : Pid) (s : State) : Host.Outcome State Fault Refusal :=
  .next (if s.sec.dbg[p] = 3 then
    (s.mapTiles (s.onPart p) fun x => { x with core := { x.core with dbgHalt := true, dbgSteps := 0 } }).markPart p .tmg
  else s)

/-- DEBUG_SINGLE_STEP: under FULL a halted core may issue one more instruction. -/
def execDebugSingleStep (t : TileId) (s : State) : Host.Outcome State Fault Refusal :=
  .next (match s.partOfTile t with
    | none => s
    | some p =>
      if s.sec.dbg[p] = 3 ∧ (s.core t).dbgHalt then
        (s.modCore t fun c => { c with dbgSteps := c.dbgSteps + 1 }).markPart p .tmg
      else s)

end Sys2Proof.Machine
end

