-- ==== Sys2Proof/Machine/Reset.lean ====
section
/-!
DEFINITION. Sys2Proof/Machine/Reset.lean: what PERST# and a device reset leave, and the commands that start one: DEVRST, PERST_N, power,
thermal trip, device-fatal faults (17 R397, R405, R406; 18 R420; 19 R425, R426; 21 R460, R461, R470).
-/
namespace Sys2Proof.Machine

/-! ### What a reset keeps -/

/-- A tile after a reset: its manufacture, retirement and maps stand until self-test. -/
def Tile.afterReset (x : Tile) : Tile :=
  { Tile.reset with made := x.made, retired := x.retired, pend := x.pend, factory := x.factory, defects := x.defects, rowsOut := x.rowsOut,
                    colsOut := x.colsOut, rowTrim := x.rowTrim, colTrim := x.colTrim }

def Engine.afterReset (x : Engine) : Engine :=
  { Engine.reset with made := x.made, retired := x.retired, selfTest := x.selfTest, chanRet := x.chanRet }

/-- Repair and retirement records of the stacks are in flash (09 R229, R230). -/
def MemSt.afterReset (m : MemSt) : MemSt := { MemSt.reset with repaired := m.repaired, pcRet := m.pcRet, slots := m.slots }

/-- TYPE of the configuration record a CONFIG update carries: 1 OWNER, 2 PRESET (19 R431). -/
def configType (data : List Byte) : Nat := (data.getD 6 0).toNat

/-- Module flash after a reset that cut off a write: an image left partial, a configuration record that fails its checks
(19 R440). -/
def MgmtSt.cutWrite (m : MgmtSt) : MgmtSt :=
  if m.fwu = .applying ∧ m.progress ≠ 100 then
    match m.comp with
    | .firmware => { m with imgOk := false }
    | .config => if configType m.data = 1 then { m with ownerTorn := true } else { m with presetTorn := true }
  else m

/-- Management after a reset, at a stage: flash is kept, an applied image is at work from now on, MGMT_I3C_CFG as written takes
effect (20 R456). -/
def MgmtSt.afterReset (m0 : MgmtSt) (stage : Stage) : MgmtSt :=
  let m := m0.cutWrite
  { MgmtSt.reset with
      stage := stage, resetting := true, noId := m.noId, image := m.pendImg.getD m.image, imgOk := m.imgOk, owner := m.owner,
      preset := m.preset, ownerTorn := m.ownerTorn, presetTorn := m.presetTorn, force := m.force, fatalRec := m.fatalRec,
      lastFatal := m.fatalRec, boots := m.boots + 1, i3cAct := m.i3cCfg }

/-- Security after a reset: root secret and DIK stay until the ROOT stage runs again, the other keys are gone; the attestation log is
empty and LCHAIN 48 zero bytes; keys drawn later have new names (15 R337, R355). -/
def SecSt.afterReset (x : SecSt) : SecSt :=
  { SecSt.reset with root := x.root, dik := x.dik, ak := none, transport := none, device := none, keyGen := x.keyGen, idCause := x.idCause, log := [], lchain := List.replicate 48 0 }

/-- Every state at its reset value but for flash, the pins, host memory and the model's own fields (17 R405, R406). -/
def State.resetAll (s : State) (stage : Stage) (pins : PinSt) (vfs : Nat) : State :=
  { State.reset with
      pending := s.pending, freeCtr := s.freeCtr, outputs := s.outputs, vfs := vfs, hostMem := s.hostMem,
      funcs := s.funcs.map fun f => { Func.reset with nextCid := f.nextCid }, tiles := s.tiles.map Tile.afterReset,
      engines := s.engines.map Engine.afterReset, memctl := s.memctl.afterReset, pins := { pins with heldCpl := [], alerts := [] },
      links := { LinkSt.reset with laneRet := s.links.laneRet }, sec := s.sec.afterReset, mgmt := s.mgmt.afterReset stage }

/-- A device reset: the PCIe link and SR-IOV settings stay, the stages run from VERIFY (17 R405, R406). -/
def State.deviceReset (s : State) : State := s.resetAll .verify s.pins s.vfs

/-- PERST#: every island; the stages wait for the release of PERST_N. A FORCE_RECOVERY waits for a device reset, and is not in flash
(19 R434, R436; log 36). -/
def State.perstReset (s : State) (pins : PinSt) : State :=
  let s := s.resetAll .none { pins with pcieUp := false } 0
  { s with mgmt := { s.mgmt with force := false }, sec := { s.sec with root := false, dik := false } }

/-! ### DEVRST, FATAL_RESET_TIMER, device-fatal faults -/

/-- DEVRST by PF0's register, by management, or by a fatal fault (17 R405). A reset that runs goes on. -/
def execDevrst (by_ : ResetBy) (s : State) : Host.Outcome State Fault Refusal :=
  match by_ with
  | .register => .next (if s.setupOpen && s.pins.pcieUp then s.deviceReset else s)
  | .management => .next (if s.up then s.deviceReset else s)
  | .fatal => whenDue s.mgmt.fatalAt.isSome "DEVRST" s.deviceReset

/-- The module has power and is out of PERST#. -/
def State.alive (s : State) : Bool := s.pins.on && !s.pins.perst && !s.pins.alerts.contains .rom

/-- DEV_FATAL with its cause on PF0's ring; the cause goes to flash (18 R420). -/
def State.devFatal (s : State) (cause : Nat) : State :=
  { s.raisePf0 0x0F02 none cause 0 with mgmt := { s.mgmt with fatalRec := BitVec.ofNat 4 cause } }

/-- DEVICE_FATAL_FAULT: causes 1 to 5 of DEV_FATAL; the event, ALERT_N, a device reset 1 ms later. During a device reset the reset
restarts (18 R420, R424). -/
def execDeviceFatalFault (cause : Fin 5) (now : Nat) (s : State) : Host.Outcome State Fault Refusal :=
  let s := s.at_ now
  whenDue s.alive "DEVICE_FATAL_FAULT"
    (if s.mgmt.resetting then ({ s with mgmt := { s.mgmt with fatalRec := BitVec.ofNat 4 (cause.val + 1) } } : State).deviceReset
     else
      let s := s.devFatal (cause.val + 1)
      { s with pins := { s.pins with alerts := .fatal :: s.pins.alerts.filter fun a => !decide (a = .fatal) }
               mgmt := { s.mgmt with fatalAt := some (s.mgmt.fatalAt.getD s.now) } })

/-- FATAL_RESET_TIMER: 1 ms after DEV_FATAL. -/
def execFatalResetTimer (now : Nat) (s : State) : Host.Outcome State Fault Refusal :=
  let s := s.at_ now
  match s.mgmt.fatalAt with
  | none => notDue "FATAL_RESET_TIMER"
  | some t => whenDue (decide (t + 1000000 ≤ s.now)) "FATAL_RESET_TIMER" s.deviceReset

/-- THERMAL_TRIP: DEV_FATAL when it can be written, THERMTRIP_N latched, every rail but standby off (17 R397, 18 R420). -/
def execThermalTrip (_by : TripBy) (now : Nat) (s : State) : Host.Outcome State Fault Refusal :=
  let s := s.at_ now
  whenDue s.pins.on "THERMAL_TRIP"
    (let s := s.devFatal 6
     s.perstReset { s.pins with on := false, pwrgd := false, trip := true, hold := false })

/-! ### The 54 V input (19 R425; 21 R460, R461) -/

/-- INPUT_APPLIED: the rails start and PWRGD asserts. -/
def execInputApplied (s : State) : Host.Outcome State Fault Refusal :=
  whenDue (decide (s.pins.input = .none)) "INPUT_APPLIED"
    { s with pins := { s.pins with input := .applied, on := true, pwrgd := true, trip := false } }

/-- POWER_LOSS: every rail off, all state lost as at PERST#. -/
def execPowerLoss (s : State) : Host.Outcome State Fault Refusal :=
  whenDue (decide (s.pins.input ≠ .none)) "POWER_LOSS"
    (s.perstReset { s.pins with input := .none, on := false, pwrgd := false, trip := false, perst := true, hold := false })

/-- INPUT_SAG: between 40 V and 48 V; the module runs unchanged. -/
def execInputSag (s : State) : Host.Outcome State Fault Refusal :=
  whenDue (decide (s.pins.input = .applied)) "INPUT_SAG" { s with pins := { s.pins with input := .sag } }

/-- INPUT_SAG_END: 48 V or more again within ride-through. -/
def execInputSagEnd (s : State) : Host.Outcome State Fault Refusal :=
  whenDue (decide (s.pins.input = .sag)) "INPUT_SAG_END" { s with pins := { s.pins with input := .applied } }

/-! ### PERST_N (17 R405; 19 R425, R426; 21 R461, R470) -/

/-- PERST_N asserted: every island is reset; a module that tripped or has no power is not changed by it. -/
def execPerstAssert (s : State) : Host.Outcome State Fault Refusal :=
  .next (if !s.pins.on then { s with pins := { s.pins with perst := true, hold := false } }
    else s.perstReset { s.pins with perst := true, hold := false })

/-- The stages start. -/
def State.startBoot (s : State) : State :=
  { s with pins := { s.pins with perst := false, hold := false }, mgmt := { s.mgmt with stage := .root, resetting := true } }

/-- PERST_N released, so many ms after PWRGD: before 100 ms the release is held; without power it waits too. -/
def execPerstRelease (sincePwrgd : Nat) (s : State) : Host.Outcome State Fault Refusal :=
  .next (if !s.pins.perst || s.pins.trip then s
    else if !s.pins.on || decide (sincePwrgd < 100) then { s with pins := { s.pins with hold := true } }
    else s.startBoot)

/-- PERST_HOLD_EXPIRY: the held release takes effect. -/
def execPerstHoldExpiry (s : State) : Host.Outcome State Fault Refusal :=
  whenDue (s.pins.hold && s.pins.on && s.pins.perst) "PERST_HOLD_EXPIRY" s.startBoot

/-! ### The PCIe reference clock (21 R470) -/

/-- PE_REFCLK_LOSS: the PCIe link goes down; launches go on, completions and events are held. -/
def execPeRefclkLoss (s : State) : Host.Outcome State Fault Refusal :=
  .next { s with pins := { s.pins with peClk := false, pcieUp := false } }

/-- PE_REFCLK_RETURN: the link comes back, and what was held is written. -/
def execPeRefclkReturn (s : State) : Host.Outcome State Fault Refusal :=
  .next (if !s.alive then { s with pins := { s.pins with peClk := true } }
    else { s with pins := { s.pins with peClk := true, pcieUp := true } }.flushHost)

end Sys2Proof.Machine
end

