-- ==== Sys2Proof/Machine/RegWrite.lean ====
section
/-!
DEFINITION. Sys2Proof/Machine/RegWrite.lean: writes of set-up registers and what each accepts (20 R441 to R456; 16 R358, R360, R384;
17; 19 R432, R433).
-/
namespace Sys2Proof.Machine

/-- A write to an RW field stores; a value outside its range leaves the register as it is (20 R442). -/
def inRange (x lo hi : Nat) : Bool := decide (lo ≤ x) && decide (x ≤ hi)

/-! ### Registers that only store (20 R452 to R456), also those of a PRESET record (19 R433) -/

/-- A PF0 write of this value would be accepted (20 R442): registers of Table Preset registers, by offset. -/
def presetAccepts (off : Nat) (v : Word) : Bool :=
  match off with
  | 0x20008 | 0x40200 | 0x50008 => true
  | 0x30040 => inRange (bits v 7 0) 85 105
  | 0x30048 => inRange (bits v 28 24) 1 16 && decide (256 ≤ bits v 23 8) && inRange (bits v 7 0) 2 64
  | 0x40000 => decide (bits v 15 0 ≤ 0x1FFF) || decide (bits v 15 0 = 0xFFFF)
  | 0x40208 => inRange (bits v 15 0) 1024 65534
  | 0x40210 => !decide (bits v 5 0 = 46)
  | 0x50018 => decide (2048 ≤ bits v 15 0)
  | 0x60000 => inRange (bits v 15 0) 600 1500
  | 0x60008 => policyOk (BitVec.setWidth 32 v)
  | 0x70010 => inRange (bits v 6 0) 0x08 0x77
  | _ =>
    match slotAt 8 0x40100 8 off with
    | some _ => !decide (bits v 5 4 = 3)
    | none => (slotAt 8 0x401C0 8 off).isSome

/-- The value stored in a register that needs nothing else: MEM_THROT_CFG, SYN_LAUNCH_LEAD, LNK_ETH_UDP, LNK_ETH_DSCP,
LNK_ETH_GWMACp, SEC_SVN.PEERMIN, MGMT_I3C_CFG. -/
def State.storeReg (s : State) (off : Nat) (v : Word) : State :=
  match off with
  | 0x20008 => { s with sec := { s.sec with peerMin := BitVec.ofNat 16 (bits v 31 16) } }
  | 0x30040 => { s with memctl := { s.memctl with tthr := BitVec.ofNat 8 (bits v 7 0) } }
  | 0x40208 => { s with links := { s.links with udp := BitVec.ofNat 16 (bits v 15 0) } }
  | 0x40210 => { s with links := { s.links with dscp := BitVec.ofNat 6 (bits v 5 0) } }
  | 0x50018 => { s with time := { s.time with lead := BitVec.ofNat 16 (bits v 15 0) } }
  | 0x70010 => { s with mgmt := { s.mgmt with i3cCfg := v.setWidth 32 &&& 0x17F } }
  | _ =>
    match slotAt 8 0x401C0 8 off with
    | some p => { s with links := { s.links with gwmac := s.links.gwmac.set p (BitVec.ofNat 48 (bits v 47 0)) } }
    | none => s

/-- The value that a PRESET entry gives replaces the register's reset value; nothing retrains, since no port trains yet
(19 R433). MGMT_I3C_CFG is in effect at once, as reset values are. -/
def State.presetReg (s : State) (off : Nat) (v : Word) : State :=
  match off with
  | 0x30048 => s.writeBudget (v.setWidth 32)
  | 0x40000 => { s with links := { s.links with modId := BitVec.ofNat 16 (bits v 15 0) } }
  | 0x40200 => { s with links := { s.links with pfx := v } }
  | 0x50008 => s.writeTimeCfg (v.setWidth 32)
  | 0x60000 => { s with power := { s.power with cap := BitVec.ofNat 16 (bits v 15 0) } }
  | 0x60008 =>
    { s with power := { s.power with dthr := BitVec.ofNat 8 (bits v 31 24), mmin := BitVec.ofNat 4 (bits v 19 16),
                                     kmax := BitVec.ofNat 5 (bits v 12 8), kmin := BitVec.ofNat 5 (bits v 4 0) } }
  | 0x70010 =>
    let t := s.storeReg off v
    { t with mgmt := { t.mgmt with i3cAct := t.mgmt.i3cCfg } }
  | _ =>
    match slotAt 8 0x40100 8 off with
    | some p => { s with links := { s.links with cfg := s.links.cfg.set p (portCfgOf (v.setWidth 32)) } }
    | none => s.storeReg off v

/-! ### The function's own registers -/

/-- HIF_RING_STATn: DBERR and CFGERR are cleared by a 1. -/
def Ring.clearStat (r : Ring) (v : Word) : Ring :=
  { r with dbErr := r.dbErr && !bit v 31, cfgErr := r.cfgErr && !bit v 30 }

/-- A write in the HIF_ block of a function that may write (14 R334). Bases are stored while their ring is disabled (log 26). -/
def State.writeHif (s : State) (n : Fn) (off : Nat) (v : Word) : State :=
  let h : Half := v.setWidth 32
  if off = 0x0 then s.writeVersion n h
  else if off = 0x28 then s.writeEvqCfg n h
  else if !s.regsOpen n then s
  else if off = 0x20 then s.modFunc n fun f => if f.evq.en then f else { f with evq := { f.evq with base := baseOf v } }
  else match slotAt 64 0x1000 0x20 off, slotAt 64 0x1008 0x20 off, slotAt 64 0x1010 0x20 off, slotAt 64 0x1018 0x20 off with
    | some r, _, _, _ => s.modRing n r fun x => if x.en then x else { x with sqBase := baseOf v }
    | _, some r, _, _ => s.modRing n r fun x => if x.en then x else { x with cqBase := baseOf v }
    | _, _, some r, _ => s.writeRingCfg n r h
    | _, _, _, some r => s.modRing n r fun x => x.clearStat v
    | _, _, _, _ => s

/-! ### PF0's other registers -/

/-- PWR_CTL: DEVRST starts a device reset, else DEEP requests or leaves deep idle (17 R402, R406). -/
def State.writePwrCtl (s : State) (v : Word) : State :=
  if bit v 1 then s.deviceReset else if bit v 0 then s.requestDeep else s.leaveDeep

/-- A write of an array register: wait limit, port configuration, gateway address. -/
def State.writeIndexed (s : State) (off : Nat) (v : Word) : State :=
  match slotAt 16 0x50100 8 off with
  | some p =>
    if inRange (bits v 48 0) (2 ^ 20) (2 ^ 48) then s.modPart p fun x => { x with waitLim := BitVec.ofNat 49 (bits v 48 0) } else s
  | none =>
    match slotAt 8 0x40100 8 off with
    | some p => s.writePortCfg p (v.setWidth 32)
    | none => if presetAccepts off v then s.storeReg off v else s

/-- A write by PF0 or by management of a register outside the HIF_ block; src says who attaches debug. -/
def State.writeSetup (s : State) (src : Source) (off : Nat) (v : Word) : State :=
  let h : Half := v.setWidth 32
  match off with
  | 0x10090 => s.writeRstCtl h
  | 0x20018 => s.attachDebug h src
  | 0x30048 => s.writeBudget h
  | 0x40000 => s.writeModId h
  | 0x40008 => s.writeLaneRet v
  | 0x40200 => s.writeEthPrefix v
  | 0x50008 => s.writeTimeCfg h
  | 0x60000 => s.writeCap h
  | 0x60008 => s.writePolicy h
  | 0x60010 => { s with power := { s.power with cfgErr := s.power.cfgErr && !bit v 1 } }
  | 0x60018 => s.writePwrCtl v
  | _ => s.writeIndexed off v

/-- The slot holds a 64-bit register that can be written: a 4 B write to it is ignored (20 R441). -/
def wideReg (off : Nat) : Bool :=
  decide (off = 0x20) || decide (off = 0x40008) || decide (off = 0x40200) || decide (off = 0x60010) ||
    (slotAt 64 0x1000 0x20 off).isSome || (slotAt 64 0x1008 0x20 off).isSome || (slotAt 8 0x401C0 8 off).isSome ||
    (slotAt 16 0x50100 8 off).isSome

/-- An accepted write of a slot of a function's BAR0: PF0 reaches every block, a VF its HIF_ block; ignored in recovery and
during a reset (16 R358, 17 R406, 19 R434). -/
def State.writeReg (s : State) (n : Fn) (src : Source) (off : Nat) (v : Word) : State :=
  if !s.setupOpen then s
  else if off < 0x10000 then s.writeHif n off v
  else if n.val = 0 then s.writeSetup src off v
  else s

/-- REGISTER_WRITE: a 4 B or 8 B write of a function (20 R441, R442). -/
def execRegisterWrite (fn : Fn) (offset : BitVec 24) (eight : Bool) (value : Word) (s : State) : Host.Outcome State Fault Refusal :=
  .next (if !s.fnUp fn || decide (offset.toNat % 8 ≠ 0) || (!eight && wideReg offset.toNat) then s
    else s.writeReg fn .pf0 offset.toNat value)

end Sys2Proof.Machine
end

