-- ==== Sys2Proof/Machine/Boot.lean ====
section
/-!
DEFINITION. Sys2Proof/Machine/Boot.lean: the boot stages from ROOT to READY, self-repair, recovery and service state, and the faults that a
boot deals with: tile hard faults and diverged bindings (01 R20 to R25; 03 R71; 18 R413, R417, R418; 19 R426 to R434).
-/
namespace Sys2Proof.Machine

/-! ### Self-repair (01 R20, R21; 03 R71) -/

/-- The sets of at most two members of a list. -/
def smallSets (l : List Nat) : List (List Nat) :=
  [] :: (l.map fun x => [x]) ++ l.flatMap fun x => (l.filter fun y => decide (x < y)).map fun y => [x, y]

/-- A list of at most two indices below 98, in the order of its elements. -/
def setKey (l : List Nat) : Nat := l.getD 0 0 * 98 + l.getD 1 0

/-- Preferences 1 to 4, the first one weighing most. -/
def coverKey (c : List Nat × List Nat) : Nat :=
  (((c.1.length + c.2.length) * 3 + c.2.length) * 98 ^ 2 + setKey c.1) * 98 ^ 2 + setKey c.2

/-- Rows and columns of defects, in ascending order, without repeats. -/
def ascending (l : List Nat) : List Nat := l.foldr insertNat []

/-- Every set of at most two rows and two columns that covers the defects; a row or column without a defect never comes first. -/
def covers (defects : List (Nat × Nat)) : List (List Nat × List Nat) :=
  (smallSets (ascending (defects.map (·.1)))).flatMap fun rs =>
    let rest := defects.filter fun (d : Nat × Nat) => !rs.contains d.1
    ((smallSets (ascending (rest.map (·.2)))).filter fun cs => rest.all fun (d : Nat × Nat) => cs.contains d.2).map fun cs => (rs, cs)

/-- The repair of a tile: rows and columns to remove; none when it is not repairable. -/
def repairOf (defects : List (Nat × Nat)) : Option (List Nat × List Nat) :=
  (covers defects).foldl (fun (m : Option (List Nat × List Nat)) c =>
    match m with
    | none => some c
    | some b => if coverKey c < coverKey b then some c else some b) none

/-- Physical index of a logical one: ascending, skipping what was removed. -/
def physicalOf (out : List Nat) (r : Nat) : Nat := ((List.range 98).filter fun p => !out.contains p).getD r 0

/-- Word n of the skew trims: sixteen 2-bit shifts. -/
def trimWord (out : List Nat) (n : Nat) : Half :=
  BitVec.ofNat 32 (((List.range 16).map fun f => (physicalOf out (16 * n + f) - (16 * n + f)) % 4 * 4 ^ f).foldl (· + ·) 0)

/-- A tile after self-test, which starts from the factory repair record and adds what it finds (01 R21): a pending tile is retired untested, another is mapped by its repair, or retired (18 R413, 19 R429). -/
def Tile.selfTest (x : Tile) (found : List (Nat × Nat)) : Tile :=
  let x := { x with defects := (x.factory ++ found).eraseDups }
  if !x.enabled then x
  else if x.pend then { x with pend := false, retired := true }
  else match repairOf x.defects with
    | none => { x with retired := true }
    | some (rs, cs) =>
      { x with rowsOut := rs, colsOut := cs, rowTrim := Vector.ofFn fun n => trimWord rs n.val,
               colTrim := Vector.ofFn fun n => trimWord cs n.val }

/-- An engine after self-test: faulty channel slices retire their channels, another failure the engine (01 R24, 05 R119). -/
def Engine.testUnits (x : Engine) (e : Nat) (r : TestReport) : Engine :=
  if !x.enabled then x
  else { x with selfTest := false, retired := r.engines.contains e,
                chanRet := (r.channels.filter fun (c : Nat × Nat) => decide (c.1 = e)).foldl
                  (fun v (c : Nat × Nat) => if c.2 < 32 then setBit v c.2 true else v) x.chanRet }

/-- TEST: every enabled tile and engine. -/
def State.selfTest (s : State) (r : TestReport) : State :=
  { s with
      tiles := Vector.ofFn fun t => (s.tile t).selfTest
        ((r.defects.filter fun (d : Nat × Nat × Nat) => decide (d.1 = t.val)).map fun (d : Nat × Nat × Nat) => d.2)
      engines := Vector.ofFn fun e => (s.engine e).testUnits e.val r }

/-! ### READY, recovery, service state -/

/-- Enabled tiles, and enabled engines. -/
def State.tilesOn (s : State) : Nat := (allTiles.filter fun t => (s.tile t).enabled).length
def State.enginesOn (s : State) : Nat := (allEngines.filter fun e => (s.engine e).enabled).length

/-- Retirement has left fewer tiles or engines than the part was made with, which is what its grade states (01 R23, R25). -/
def State.belowGrade (s : State) : Bool := (allTiles.any fun t => (s.tile t).retired) || allEngines.any fun e => (s.engine e).retired

/-- READY: registers answer, the PCIe link is there when its clock is, the BOOT entry is written; PART_BELOW_GRADE follows
(15 R355, 19 R426, R429). -/
def State.ready (s : State) : State :=
  let s := { s with mgmt := { s.mgmt with resetting := false }, pins := { s.pins with pcieUp := s.pins.peClk }
                    time := s.time.runRoot }
  let s := { s with sec := s.sec.append (bootEntry s.mgmt.image s.mgmt.fatalRec.toNat s.now) }
  if s.belowGrade && !s.mgmt.recov then s.raisePf0 0x0701 none s.tilesOn s.enginesOn else s

/-- Service state: the stage that failed stays, PF0 alone answers, ports are DOWN (19 R428). -/
def State.service (s : State) : State := { s with mgmt := { s.mgmt with halted := true } }.ready

/-- Recovery: mask-ROM code in place of the image, the RECOVERY entry (19 R434). -/
def State.recovery (s : State) : State :=
  let s := { s with mgmt := { s.mgmt with recov := true, forced := s.mgmt.force, force := false, stage := .ready } }
  (s.attest 0x0006 none 0 .pf0 []).ready

/-! ### Configuration records (19 R431 to R433) -/

/-- Entries of a PRESET body: BAR0 offset, and value. -/
def presetEntries (rec : List Byte) : List (Nat × Word) :=
  (List.range (leNat ((rec.drop 16).take 2) / 16)).map fun i =>
    (leNat ((rec.drop (64 + 16 * i)).take 4), BitVec.ofNat 64 (leNat ((rec.drop (72 + 16 * i)).take 8)))

/-- The header of Table Configuration record, for a record of a type. -/
def recordHeadOk (rec : List Byte) (ty : Nat) : Bool :=
  let len := leNat ((rec.drop 16).take 2)
  decide (leNat (rec.take 4) = 0x4A434631) && decide (leNat ((rec.drop 4).take 2) = 0x0100) && decide (configType rec = ty) &&
    decide (rec.getD 7 0 = 0) && ((rec.drop 18).take 46).all (fun b => decide (b = 0)) &&
    (if ty = 1 then decide (len = 97) else decide (len % 16 = 0) && decide (len ≤ 3968)) && decide (rec.length = 64 + len + 96)

/-- Every entry names a register of Table Preset registers and a value that a PF0 write would accept; bytes [7:4] are 0. -/
def presetOkBody (rec : List Byte) : Bool :=
  (presetEntries rec).all (fun (x : Nat × Word) => presetAccepts x.1 x.2) &&
    (List.range (leNat ((rec.drop 16).take 2) / 16)).all fun i => decide (leNat ((rec.drop (68 + 16 * i)).take 4) = 0)

/-- One configuration record more is rejected. -/
def MgmtSt.reject (m : MgmtSt) : MgmtSt := { m with cfgRej := if m.cfgRej = 0xFF then 0xFF else m.cfgRej + 1 }

/-- The records are checked: signer and sequence as the boot finds them, header and entries here; a rejected one is counted; the
PRESET record is applied when a valid OWNER record stands beside it. -/
def State.applyRecords (s : State) (ownerOk presetOk : Bool) : State :=
  let m := s.mgmt
  let owner := ownerOk && recordHeadOk m.owner 1 && !m.ownerTorn
  let preset := presetOk && recordHeadOk m.preset 2 && presetOkBody m.preset && !m.presetTorn
  let m1 := if m.owner.isEmpty || owner then m else m.reject
  let m2 := if m.preset.isEmpty || preset then m1 else m1.reject
  let s := { s with mgmt := { m2 with effOwner := if owner then m.owner else [], effPreset := if owner && preset then m.preset else [] } }
  if owner && preset then (presetEntries m.preset).foldl (fun s (x : Nat × Word) => s.presetReg x.1 x.2) s else s

/-! ### BOOT_STAGE_END (19 R426, R428) -/

/-- A pseudo-channel that fails training takes the lowest free slot; nothing migrates, the stacks hold no data yet. -/
def State.retireAtBoot (s : State) (pc : Nat) : State :=
  if s.memctl.retired pc || decide (512 ≤ pc) then s
  else match s.memctl.freeSlot with
    | none => s
    | some k =>
      { s with memctl := { s.memctl with pcRet := setBit s.memctl.pcRet pc true
                                         slots := s.memctl.slots.set k (some (Fin.ofNat 512 pc)) } }.raisePf0 0x0203 none
        (pc + k.val * 2 ^ 16) 0

/-- Slots left for retirements. -/
def MemSt.slotsLeft (m : MemSt) : Nat := (m.slots.toList.filter (·.isNone)).length

/-- A stage begins. -/
def State.enter (s : State) (st : Stage) : State := { s with mgmt := { s.mgmt with stage := st } }

/-- The ports of a list that have not trained are FAILED (11 R270). -/
def State.failPorts (s : State) (ports : List Nat) : State :=
  (allHalves.filter fun h => ports.contains (h.val / 2) && decide ((s.half h).state = .training)).foldl State.failHalf s

/-- A stage ends; the next one starts, or the boot ends in recovery or service state. -/
def State.endStage (s : State) (how : StageEnd) : Option State :=
  match s.mgmt.stage, how with
  | .root, .root romOk cause =>
    if !romOk then some { s with pins := { s.pins with alerts := .rom :: s.pins.alerts } }
    else some ({ s with sec := { s.sec with idCause := BitVec.ofNat 4 cause.val, root := decide (cause.val ≠ 1), dik := decide (cause.val ≠ 1) }
                        mgmt := { s.mgmt with noId := decide (cause.val ≠ 0) } }.enter .verify)
  | .verify, .verify imageOk ownerOk presetOk =>
    let s := { s with sec := s.sec.bootKeys }
    if !imageOk || !s.mgmt.imgOk || s.mgmt.force then some s.recovery
    else some (({ s with sec := { s.sec with ak := if s.sec.root then some s.mgmt.image else none } }.applyRecords ownerOk presetOk).enter
      .test)
  | .test, .test r => if !r.repairRecordOk then some s.service else some ((s.selfTest r).enter .mem)
  | .mem, .mem failed stack =>
    let fresh := (failed.eraseDups).filter fun p => !s.memctl.retired p
    if stack || decide (s.memctl.slotsLeft < fresh.length) then some s.service
    else some (((ascending fresh).foldl State.retireAtBoot s).trainPorts (·.en) |>.enter .link)
  | .link, .link failed => some ((s.failPorts failed).enter .ready).ready
  | _, _ => none

/-- BOOT_STAGE_END. -/
def execBootStageEnd (how : StageEnd) (s : State) : Host.Outcome State Fault Refusal :=
  if !(s.mgmt.resetting && s.alive) then notDue "BOOT_STAGE_END" else
  match s.endStage how with
  | none => notDue "BOOT_STAGE_END"
  | some t => .next t

/-! ### TILE_HARD_FAULT (18 R411 to R413) -/

/-- Failures that make a fault of the unit permanent: 3 of one pass or element, 8 of one word or register. -/
def hardLimit (unit : Fin 3) : Nat := if unit.val = 0 then 3 else 8

/-- A permanent fault: the tile is pending, the launch that maps it ends with E_RETIRED, the event is raised. -/
def State.hardFault (s : State) (t : TileId) (unit : Fin 3) (retries : Nat) : State :=
  let s := s.modTile t fun x => { x with pend := true }
  let p := s.partOfTile t
  let s := match p with
    | none => s
    | some p =>
      match (s.part p).launch with
      | none => s
      | some l =>
        match s.prog p l.slot with
        | none => s
        | some g => if g.tiles.contains t then s.killLaunch p eRetired else s
  s.raiseBoth 0x0102 p (t.val + (unit.val + 1) * 2 ^ 16) retries

/-- TILE_HARD_FAULT: failures of a unit of a tile are counted; the one that reaches the limit is permanent (18 R410). -/
def execTileHardFault (t : TileId) (unit : Fin 3) (retries : Nat) (now : Nat) (s : State) : Host.Outcome State Fault Refusal :=
  let s := s.at_ now
  whenDue ((s.tile t).enabled && s.up) "TILE_HARD_FAULT"
    (let s := if unit.val = 0 then s.countReruns t retries else s.countCorrected t retries
     if hardLimit unit ≤ retries then s.hardFault t unit retries else s)

/-! ### BINDING_AUDIT (18 R417, R418) -/

/-- Number of a kind of unit in STATE_DIVERGED (18 R421). -/
def unitKindCode : UnitKind → Nat
  | .sheaf => 1
  | .granule => 2
  | .syncBlock => 3
  | .port => 4
  | .function => 5

/-- The unit's state as the table has it. -/
def BindSt.unitState (b : BindSt) (u : UnitId) : Option UnitState :=
  match u.kind with
  | .sheaf => b.sheaves[u.index]?
  | .granule => b.grans[u.index]?
  | .syncBlock => b.blocks[u.index]?
  | .port => b.ports[u.index]?
  | .function => b.fns[u.index]?

/-- The table takes a unit's state. -/
def BindSt.takeUnit (b : BindSt) (u : UnitId) (x : UnitState) : BindSt :=
  match u.kind with
  | .sheaf => { b with sheaves := b.sheaves.setIfInBounds u.index x }
  | .granule => { b with grans := b.grans.setIfInBounds u.index x }
  | .syncBlock => { b with blocks := b.blocks.setIfInBounds u.index x }
  | .port => { b with ports := b.ports.setIfInBounds u.index x }
  | .function => { b with fns := b.fns.setIfInBounds u.index x }

/-- What a fence does at once to a sheaf: its cores stop, its arrays go to load level 0, its partition's launch ends. -/
def State.fenceSheaf (s : State) (e : Nat) : State :=
  let s := s.mapTiles (fun t => decide ((sheafOf t).val = e)) fun x =>
    let x := x.stop
    { x with array := { x.array with level := 0, hint := none, hintOver := false, hold := false, ramp := false, stagger := none } }
  match s.partOfSheaf (Fin.ofNat 16 e) with
  | none => s
  | some p => s.killLaunch p eRetired

/-- A unit is fenced: STATE_DIVERGED, ALERT_N, its effects on the unit (18 R418). The layout of the two states in the event is the
manual's to give, and it gives none: a free word (log 2). -/
def State.fence (s : State) (u : UnitId) : State :=
  let owner := match s.bind.unitState u with | none => none | some x => x.owner
  let s := { s with bind := { s.bind with fenced := u :: s.bind.fenced }
                    pins := { s.pins with alerts := Alert.diverged :: s.pins.alerts.filter fun (a : Alert) => !decide (a = Alert.diverged) } }
  let s := (s.raisePf0 0x0F01 owner (unitKindCode u.kind + u.index * 2 ^ 16) s.freeWord.toNat).skipFree 1
  match u.kind with
  | .sheaf => s.fenceSheaf u.index
  | .port => s.dropHalf (Fin.ofNat 16 u.index) .down
  | _ => s

/-- Two copies of a unit's state are compared (18 R417, Table Epoch rule). -/
def State.compareUnit (s : State) (u : UnitId) (seen : UnitState) : State :=
  match s.bind.unitState u with
  | none => s
  | some x =>
    if s.bind.fenced.contains u then s
    else if s.bind.bepoch.toNat < seen.epoch.toNat then s.fence u
    else if seen.epoch.toNat < x.epoch.toNat then s
    else if x.epoch.toNat < seen.epoch.toNat then { s with bind := s.bind.takeUnit u seen }
    else if seen = x then s else s.fence u

/-- BINDING_AUDIT: `seen` holds the copies that do not read as the table has them; every other unit agrees. -/
def execBindingAudit (seen : List (UnitId × UnitState)) (now : Nat) (s : State) : Host.Outcome State Fault Refusal :=
  let s := s.at_ now
  whenDue s.up "BINDING_AUDIT" (seen.foldl (fun s (x : UnitId × UnitState) => s.compareUnit x.1 x.2) s)

end Sys2Proof.Machine
end

