-- ==== Sys2Proof/Machine/CoreSys.lean ====
section
/-!
DEFINITION. Sys2Proof/Machine/CoreSys.lean: core status registers, HALT, replay regions, recomputation spans, stash quotas, SOLVE and SWAIT
(07 R162, R163, R165, R166; 08 R200 to R208).
-/
namespace Sys2Proof.Machine

/-! ### Core status registers (07 R165) -/

/-- VCFG. -/
def Core.vcfg (c : Core) : Word := BitVec.ofNat 64 (c.vl.toNat * 2 ^ 16 + c.vew.toNat * 2 ^ 4 + c.vgrp.toNat)

/-- What a core status register reads; GTIME is the tile's copy of the counter. -/
def State.readCsr (s : State) (t : TileId) (r : Csr) : Word :=
  let c := s.core t
  match r with
  | .ltile => BitVec.ofNat 64 c.ltile
  | .lsheaf => BitVec.ofNat 64 c.lsheaf
  | .gtime => if (dieOf (sheafOf t)).val = 0 then s.time.cd0 else s.time.cd1
  | .missued => c.missued
  | .mdone => c.mdone
  | .dissued => c.dissued
  | .ddone => c.ddone
  | .vcfg => c.vcfg
  | .vstat => if c.vsat then 1 else 0
  | .vidle => c.vidle.setWidth 64
  | .vtid => c.vtid
  | .veidx => c.veidx

/-- CSRR. -/
def execCsrr (t : TileId) (rd : RegId) (csr : Csr) (s : State) : Host.Outcome State Fault Refusal :=
  coreInstr "CSRR" (.csrr t rd csr) t s fun s => s.retire t fun c => c.wg rd (s.readCsr t csr)

/-- VSTAT is W1C; VIDLE takes 0 and 64 to 65,535. -/
def Core.writeCsr (c : Core) (r : Csr) (x : Word) : Core :=
  match r with
  | .vstat => if bit x 0 then { c with vsat := false } else c
  | .vidle => if x = 0 ∨ (64 ≤ x.toNat ∧ x.toNat ≤ 65535) then { c with vidle := x.setWidth 16 } else c
  | .vtid => { c with vtid := x }
  | .veidx => { c with veidx := x }
  | _ => c

/-- CSRW; a CSRW of a read-only register is never loaded (07 R165). -/
def execCsrw (t : TileId) (csr : Csr) (rs1 : RegId) (s : State) : Host.Outcome State Fault Refusal :=
  coreInstr "CSRW" (.csrw t csr rs1) t s fun s => s.retire t fun c => c.writeCsr csr (c.rg rs1)

/-! ### HALT (07 R166, 08 R204) -/

/-- Everything the core issued has completed. -/
def State.issuedDone (s : State) (t : TileId) : Bool :=
  (s.tile t).mops.isEmpty && (s.tile t).dmas.isEmpty && (s.tile t).upds.isEmpty

/-- Sync operations of a halted core wait for nothing more of it: the counts they wait for are reached. -/
def State.freeSent (s : State) (t : TileId) : State :=
  { s with sync := { s.sync with sent := s.sync.sent.map fun x => if x.src = t then { x with needM := 0, needD := 0, needU := 0 } else x } }

/-- HALT. -/
def execHalt (t : TileId) (s : State) : Host.Outcome State Fault Refusal :=
  coreWait "HALT" (.halt t) t s ((s.core t).region.isSome || s.issuedDone t) fun s =>
    if (s.core t).region.isSome then s.coreFault t 0x8 0
    else (s.freeSent t).modCore t fun c => { c with status := .halted }

/-! ### Replay regions (08 R200 to R204) -/

/-- The four 32-bit code offsets of a rung table. -/
def State.rungTable (s : State) (t : TileId) (a : Nat) : List (BitVec 32) :=
  (List.range 4).map fun i => BitVec.ofNat 32 (s.storeLe t (a + 4 * i) 4)

/-- The program's region record of an RID. -/
def State.regionRec (s : State) (t : TileId) (rid : Nat) : Option RegionRec :=
  match s.progOfTile t with
  | none => none
  | some (_, x) => (imgRegions x.image).find? fun r => decide (r.rid = rid)

/-- RBEGIN: the rung table is read as a load of 16 bytes is. -/
def execRbegin (t : TileId) (rs1 rs2 : RegId) (s : State) : Host.Outcome State Fault Refusal :=
  let c := s.core t
  let rid := (c.rg rs1).toNat
  let a := (c.rg rs2).toNat
  let bad := c.region.isSome || (s.regionRec t rid).isNone
  coreWait "RBEGIN" (.rbegin t rs1 rs2) t s (bad || decide (tileSize < a + 16) || decide (a % 16 ≠ 0) || !s.accessHeld t false (a, 16)) fun s =>
    if bad then s.coreFault t 0x8 0
    else if tileSize < a + 16 then s.coreFault t 0x2 a
    else if a % 16 ≠ 0 then s.coreFault t 0x3 a
    else
      let tb := s.rungTable t a
      s.retire t fun c =>
        { c with region := some { rid := BitVec.ofNat 16 rid, rung := 0, table := tb, snapG := c.g, snapF := c.f, flag := false } }

/-- RCHECK: once the tile's issued work is complete, the core arrives at the region's barrier with its flag and waits. -/
def execRcheck (t : TileId) (s : State) : Host.Outcome State Fault Refusal :=
  coreWait "RCHECK" (.rcheck t) t s ((s.core t).region.isNone || s.issuedDone t) fun s =>
    match (s.core t).region, s.partOfTile t with
    | some g, some p =>
      match s.regionRec t g.rid.toNat with
      | none => s.coreFault t 0x8 0
      | some r => s.sendSync t p (BitVec.ofNat 64 r.bar) (.arrive g.flag) (some .rcheck)
    | _, _ => s.coreFault t 0x8 0

/-- RCMPB. -/
def execRcmpb (t : TileId) (s : State) : Host.Outcome State Fault Refusal :=
  coreInstr "RCMPB" (.rcmpb t) t s fun s =>
    if (s.core t).span then s.coreFault t 0x8 0 else s.retire t fun c => { c with span := true }

/-- RCMPE. -/
def execRcmpe (t : TileId) (s : State) : Host.Outcome State Fault Refusal :=
  coreInstr "RCMPE" (.rcmpe t) t s fun s =>
    if (s.core t).span then s.retire t fun c => { c with span := false } else s.coreFault t 0x8 0

/-! ### Stash quotas (08 R206) -/

/-- Place of quota q in the partition's counters; a quota other than 0 to 3 has neither counter nor limit (log 34). -/
def stashIndex (c : Core) (q : Nat) : Option Nat := if q < 4 then some (4 * c.lsheaf + q) else none

def State.stashCount (s : State) (t : TileId) (q : Nat) : Nat :=
  match s.partOfTile t, stashIndex (s.core t) q with
  | some p, some i => (s.part p).stash[i]?.getD 0
  | _, _ => 0

def State.stashLimit (s : State) (t : TileId) (q : Nat) : Nat :=
  match s.progOfTile t with
  | none => 0
  | some (_, x) => if q < 4 then imgStash x.image (s.core t).lsheaf q else 0

def State.setStash (s : State) (t : TileId) (q n : Nat) : State :=
  match s.partOfTile t, stashIndex (s.core t) q with
  | some p, some i => s.modPart p fun x => { x with stash := x.stash.set i n }
  | _, _ => s

/-- STASHA. -/
def execStasha (t : TileId) (rd rs1 rs2 : RegId) (s : State) : Host.Outcome State Fault Refusal :=
  coreInstr "STASHA" (.stasha t rd rs1 rs2) t s fun s =>
    let q := ((s.core t).rg rs1).toNat
    let n := ((s.core t).rg rs2).toNat
    if n = 0 ∨ s.stashCount t q + n ≤ s.stashLimit t q then
      (s.setStash t q (s.stashCount t q + n)).retire t fun c => c.wg rd 1
    else s.retire t fun c => c.wg rd 0

/-- STASHR. -/
def execStashr (t : TileId) (rs1 rs2 : RegId) (s : State) : Host.Outcome State Fault Refusal :=
  coreInstr "STASHR" (.stashr t rs1 rs2) t s fun s =>
    let q := ((s.core t).rg rs1).toNat
    let n := ((s.core t).rg rs2).toNat
    if s.stashCount t q < n then s.coreFault t 0x9 0
    else (s.setStash t q (s.stashCount t q - n)).retire t id

/-! ### SOLVE and SWAIT (07 R162, R163) -/

/-- The channel a record names on the engine of the tile's own sheaf. -/
def State.solveChan (s : State) (t : TileId) (r : BitVec 512) : Option ChanMap :=
  match s.progOfTile t with
  | none => none
  | some (_, x) =>
    let lse := bits (wordOf r 0) 59 56
    if lse ≠ (s.core t).lsheaf ∨ x.e ≤ lse then none
    else x.chans.find? fun m => decide (m.lse = lse) && decide (m.lch = bits (wordOf r 0) 55 51)

def State.solveRecord (s : State) (t : TileId) (off : Nat) : BitVec 512 := BitVec.ofNat 512 (s.storeLe t off 64)

/-- The record names nothing the tile may not use: its channel, or none when the check fails. -/
def State.solveTarget (s : State) (t : TileId) (off : Nat) : Option ChanMap :=
  let r := s.solveRecord t off
  match s.partOfTile t, s.solveChan t r with
  | some p, some m => if (s.part p).statOk (wordOf r 6).toNat then some m else none
  | _, _ => none

/-- SOLVE stalls until the tile's transfers have completed and while its channel's queue of 16 is full. -/
def State.solveReady (s : State) (t : TileId) (off : Nat) : Bool :=
  (s.core t).region.isSome || decide (off % 64 ≠ 0) || decide (tileSize < off + 64) ||
    ((s.tile t).dmas.isEmpty && match s.solveTarget t off with
      | none => true
      | some m => decide ((s.chan m.eng m.ch).queue.length < 16))

/-- SOLVE. -/
def execSolve (t : TileId) (rs1 : RegId) (s : State) : Host.Outcome State Fault Refusal :=
  let off := ((s.core t).rg rs1).toNat
  coreWait "SOLVE" (.solve t rs1) t s (s.solveReady t off) fun s =>
    if (s.core t).region.isSome then s.coreFault t 0x8 0
    else if off % 64 ≠ 0 ∨ tileSize < off + 64 then s.coreFault t 0x4 off
    else
      match s.solveTarget t off with
      | none => s.coreFault t 0xB off
      | some m => (s.modChan m.eng m.ch fun c => c.enqueue { record := s.solveRecord t off, issuer := .tile t } s.now).retire t id

/-- An operand of SWAIT is not allowed. -/
def State.swaitBad (s : State) (t : TileId) (a d : Nat) : Bool :=
  decide (a % 64 ≠ 0) || decide (d % 64 ≠ 0) || decide (tileSize < d + 64) ||
    match s.partOfTile t with
    | none => true
    | some p => !(s.part p).inSilo a 64

/-- The record can be looked at and copied now: it cannot be read, is fenced, or holds DONE = 1 and the store is not held. -/
def State.swaitReady (s : State) (t : TileId) (a d : Nat) : Bool :=
  match s.partOfTile t with
  | none => true
  | some p =>
    s.siloFenced p a 64 || s.siloBad p a 64 || (decide (s.siloLe p a 8 % 2 = 1) && !s.accessHeld t true (d, 64))

/-- SWAIT. -/
def execSwait (t : TileId) (rs1 rs2 : RegId) (s : State) : Host.Outcome State Fault Refusal :=
  let a := ((s.core t).rg rs1).toNat
  let d := ((s.core t).rg rs2).toNat
  coreWait "SWAIT" (.swait t rs1 rs2) t s (s.swaitBad t a d || s.swaitReady t a d) fun s =>
    if s.swaitBad t a d then s.coreFault t 0x5 d
    else
      match s.partOfTile t with
      | none => s
      | some p =>
        if s.siloFenced p a 64 then s.killLaunch p eRetired
        else if s.siloBad p a 64 then s.coreUncorrectable t p a
        else (s.storeWrite t d (s.siloBytes p a 64)).retire t id

/-! ### Long-vector unit asleep (07 R176) -/

/-- VECTOR_SLEEP: the idle count reached VIDLE; the registers keep their contents. -/
def execVectorSleep (t : TileId) (s : State) : Host.Outcome State Fault Refusal :=
  let c := s.core t
  whenDue (c.awake && decide (c.vidle ≠ 0)) "VECTOR_SLEEP" (s.modCore t fun c => { c with awake := false })

end Sys2Proof.Machine
end

