-- ==== Sys2Proof/Machine/DmaCmds.lean ====
section
/-!
DEFINITION. Sys2Proof/Machine/DmaCmds.lean: DMA, DWAIT and the running of transfers; the update-queue instructions and the running of update
operations (07 R159, R161, R170; 08 R182 to R190, R204, R472; 18 R415, R418).
-/
namespace Sys2Proof.Machine

/-! ### Tile DMA -/

/-- DMA: the descriptor's offset, then the descriptor is checked; the transfer joins the queue of 16. -/
def execDma (t : TileId) (rs1 : RegId) (s : State) : Host.Outcome State Fault Refusal :=
  coreWait "DMA" (.dma t rs1) t s (decide ((s.tile t).dmas.length < 16)) fun s =>
    let c := s.core t
    let off := (c.rg rs1).toNat
    if off % 64 ≠ 0 ∨ tileSize < off + 64 then s.coreFault t 0x4 off else
    let d : BitVec 512 := BitVec.ofNat 512 (s.storeLe t off 64)
    match (s.partOfTile t).bind fun p => s.dmaCheck p (dmaOf d) with
    | some cause => s.tileFault t .dma cause off c.pc false
    | none =>
      s.modTile t fun y =>
        { y with
          dmas := y.dmas ++ [({ desc := d, vtid := c.vtid, veidx := c.veidx, offset := off, pc := c.pc, seq := c.seq, ran := false } : QDma)]
          core := { y.core.next with dissued := y.core.dissued + 1, seq := y.core.seq + 1 } }

/-- DWAIT: waits until at most n issued transfers are incomplete. -/
def execDwait (t : TileId) (n : BitVec 6) (s : State) : Host.Outcome State Fault Refusal :=
  coreWait "DWAIT" (.dwait t n) t s (decide ((s.tile t).dmas.length ≤ n.toNat)) fun s => s.retire t id

/-- A silo address that a transfer cannot read: in its source, or in a sector it writes in part (09 R227). -/
def State.dmaBadAt (s : State) (p : Pid) (x : Dma) : Option Nat :=
  if x.opc = 1 then x.sources.findSome? fun r => s.siloBadAt p r.1 r.2
  else if x.opc = 2 then (x.targets.find? fun r => s.partialBad p r.1 r.2).map (·.1)
  else none

/-- Silo ranges of a transfer. -/
def Dma.siloRanges (x : Dma) : List (Nat × Nat) := if x.opc = 1 then x.sources else if x.opc = 2 then x.targets else []

/-- DMA_TRANSFER_RUN: the oldest transfer moves its data once its holds are released. A fenced granule ends the launch with E_RETIRED
(18 R418); a read that cannot be corrected stops the program (07 R170). -/
def execDmaTransferRun (t : TileId) (s : State) : Host.Outcome State Fault Refusal :=
  match (s.tile t).dmas, s.partOfTile t with
  | q :: rest, some p =>
    let x := q.dma
    if q.ran || s.dmaHeld t q then notDue "DMA_TRANSFER_RUN"
    else if x.siloRanges.any fun r => s.siloFenced p r.1 r.2 then .next (s.killLaunch p eRetired)
    else
      match (if x.opc = 2 then s.holdWrites p x.targets else none), s.dmaBadAt p x with
      | some held, _ => .next held
      | none, some a => .next ((s.raiseUncorrectable (some p) ((s.part p).devAddr a)).tileFault t .dma 0x9 q.offset q.pc true)
      | none, none =>
        .next ((s.dmaMove t p q x).modTile t fun y => { y with dmas := { q with ran := true } :: rest })
  | _, _ => notDue "DMA_TRANSFER_RUN"

/-- DMA_TRANSFER_COMPLETE: the oldest transfer leaves the queue. -/
def execDmaTransferComplete (t : TileId) (s : State) : Host.Outcome State Fault Refusal :=
  match (s.tile t).dmas with
  | [] => notDue "DMA_TRANSFER_COMPLETE"
  | q :: rest =>
    if !q.ran then notDue "DMA_TRANSFER_COMPLETE" else
    let s := s.modTile t fun y => { y with dmas := rest, core := { y.core with ddone := y.core.ddone + 1 } }
    .next (match s.partOfTile t with | none => s | some p => s.touchEnd p)

/-! ### Update queue -/

/-- An operation joins the update queue of 4. -/
def State.pushUpd (s : State) (t : TileId) (op : UpdOp) (off : Nat) : State :=
  s.modTile t fun y =>
    { y with
      upds := y.upds ++ [({ op := op, offset := off, pc := y.core.pc, seq := y.core.seq, ran := false } : QUpd)]
      core := { y.core.next with uissued := y.core.uissued + 1, seq := y.core.seq + 1 } }

/-- An update-queue instruction stalls while the queue is full. -/
def updInstr (mnemonic : String) (i : Instr) (t : TileId) (s : State) (effect : State → State) : Host.Outcome State Fault Refusal :=
  coreWait mnemonic i t s (decide ((s.tile t).upds.length < 4)) effect

/-- The program of a tile's core. -/
def State.imageOf (s : State) (t : TileId) : List Byte := match s.progOfTile t with | none => [] | some (_, x) => x.image

/-- WUPD: refused in an open region (08 R204); offset, then descriptor checked. -/
def execWupd (t : TileId) (rs1 : RegId) (s : State) : Host.Outcome State Fault Refusal :=
  updInstr "WUPD" (.wupd t rs1) t s fun s =>
    let c := s.core t
    let off := (c.rg rs1).toNat
    if c.region.isSome then s.coreFault t 0x8 0
    else if off % 128 ≠ 0 ∨ tileSize < off + 128 then s.coreFault t 0x4 off
    else
      let d : BitVec 1024 := BitVec.ofNat 1024 (s.storeLe t off 128)
      match (s.partOfTile t).bind fun p => s.wupdCheck p (s.imageOf t) (wupdOf d) with
      | some cause => s.tileFault t .upd cause off c.pc false
      | none => s.pushUpd t (.wupd d) off

/-- UWAIT: waits until at most n issued operations are incomplete. -/
def execUwait (t : TileId) (n : BitVec 6) (s : State) : Host.Outcome State Fault Refusal :=
  coreWait "UWAIT" (.uwait t n) t s (decide ((s.tile t).upds.length ≤ n.toNat)) fun s => s.retire t id

/-- NCLR. -/
def execNclr (t : TileId) (a : Fin 4) (s : State) : Host.Outcome State Fault Refusal :=
  updInstr "NCLR" (.nclr t a) t s fun s => s.pushUpd t (.nclr a) 0

/-- fRD holds an FP32-exact value that is a valid scale (08 R190). -/
def fp64Scale (w : Word) : Bool :=
  let x := fp64.decode w.toNat
  let c := fp32.code x
  x.isFin && scaleOk c && (fp32.decode c).eq x

/-- NSQ: gradient elements within the store and aligned, a valid scale for the FP8 formats. -/
def execNsq (t : TileId) (rd rs1 rs2 : RegId) (gfmt : BitVec 4) (a : Fin 4) (s : State) : Host.Outcome State Fault Refusal :=
  updInstr "NSQ" (.nsq t rd rs1 rs2 gfmt a) t s fun s =>
    let c := s.core t
    let off := (c.rg rs1).toNat
    let n := (c.rg rs2).toNat
    let w := fmtBytes gfmt.toNat
    if off % w ≠ 0 ∨ tileSize < off + n * w then s.tileFault t .upd 0x6 off c.pc false
    else if (gfmt = 4 ∨ gfmt = 5) ∧ !fp64Scale (c.rf rd) then s.tileFault t .upd 0x9 off c.pc false
    else s.pushUpd t (.nsq off n (c.rf rd) gfmt a) off

/-- NST: the accumulator is stored as a norm record. -/
def execNst (t : TileId) (rs1 : RegId) (a : Fin 4) (s : State) : Host.Outcome State Fault Refusal :=
  updInstr "NST" (.nst t rs1 a) t s fun s =>
    let off := ((s.core t).rg rs1).toNat
    if off % 64 ≠ 0 ∨ tileSize < off + 128 then s.coreFault t 0x4 off else s.pushUpd t (.nst off a) off

/-- NADD: a norm record is added to the accumulator. -/
def execNadd (t : TileId) (rs1 : RegId) (a : Fin 4) (s : State) : Host.Outcome State Fault Refusal :=
  updInstr "NADD" (.nadd t rs1 a) t s fun s =>
    let off := ((s.core t).rg rs1).toNat
    if off % 64 ≠ 0 ∨ tileSize < off + 128 then s.coreFault t 0x4 off else s.pushUpd t (.nadd off a) off

/-- UPDATE_OPERATION_RUN: the oldest operation runs once its holds are released; elements recomputed are
counted (18 R411). -/
def execUpdateOperationRun (t : TileId) (reruns : Fin 3) (s : State) : Host.Outcome State Fault Refusal :=
  match (s.tile t).upds, s.partOfTile t with
  | u :: rest, some p =>
    whenDue (!u.ran && !(s.tile t).updHeld u) "UPDATE_OPERATION_RUN"
      (((s.countReruns t reruns.val).runUpd t p u.op).modTile t fun y => { y with upds := { u with ran := true } :: rest })
  | _, _ => notDue "UPDATE_OPERATION_RUN"

/-- UPDATE_OPERATION_COMPLETE: its last element is written. -/
def execUpdateOperationComplete (t : TileId) (s : State) : Host.Outcome State Fault Refusal :=
  match (s.tile t).upds with
  | [] => notDue "UPDATE_OPERATION_COMPLETE"
  | u :: rest =>
    if !u.ran then notDue "UPDATE_OPERATION_COMPLETE" else
    let s := s.modTile t fun y => { y with upds := rest, core := { y.core with udone := y.core.udone + 1 } }
    .next (match s.partOfTile t with | none => s | some p => s.touchEnd p)

end Sys2Proof.Machine
end

