-- ==== Sys2Proof/Machine/Fetch.lean ====
section
/-!
DEFINITION. Sys2Proof/Machine/Fetch.lean: fetching of descriptors with the checks made there, and the entry of host solve commands
into their channel queues (16 R362 to R366, R374, R379; 05 R122, R124).
-/
namespace Sys2Proof.Machine

/-! ### Fetching (16 R362 to R366) -/

/-- Fetched commands of a ring that hold an entry of its completion ring. -/
def State.reserved (s : State) (n : Fn) (r : RingId) : Nat :=
  ((s.func n).cmds.filter fun c => decide (c.ring = r)).length +
    (s.pins.heldCpl.filter fun h => decide (h.fn = n) && decide (h.cmd.ring = r)).length

/-- Free entries of a completion ring, among its 2^CQLOG - 1 (16 R361, R362). -/
def State.cqFree (s : State) (n : Fn) (r : RingId) : Nat :=
  2 ^ (s.ring n r).cqlog.toNat - 1 - ringFill (s.ring n r).cqlog (s.ring n r).cqHead (s.ring n r).cqTail - s.reserved n r

/-- The pair has a descriptor that may be fetched. -/
def State.ringReady (s : State) (n : Fn) (r : RingId) : Bool :=
  (s.ring n r).en && decide ((s.ring n r).sqHead ≠ (s.ring n r).sqTail) && decide (2 ≤ s.cqFree n r)

/-- The function's partition does not moult, and no ABORT of it runs (14 R334, 16 R379). -/
def State.fetchOpen (s : State) (n : Fn) : Bool :=
  s.fnUp n && !s.mgmt.recov && decide (s.fnState n ≠ .moulting) &&
    match s.partOfFn n with
    | none => true
    | some p => !(s.part p).aborting

/-- The next ready pair after position `last` among pairs of one priority, in turn (16 R362). -/
def State.nextRing (s : State) (n : Fn) (prio : Bool) (last : Nat) : Option RingId :=
  let order := (List.range 64).map fun i => (last + 1 + i) % 64
  (order.filterMap fun i => if h : i < 64 then some (⟨i, h⟩ : RingId) else none).find? fun r =>
    decide ((s.ring n r).prio = prio) && s.ringReady n r

/-- The pair a function is served from: high priority first (16 R362). -/
def State.pickRing (s : State) (n : Fn) : Option RingId :=
  if !s.fetchOpen n || decide (1024 ≤ (s.func n).cmds.length) then none
  else (s.nextRing n true (s.func n).lastHi).orElse fun _ => s.nextRing n false (s.func n).lastLo

/-- The function and pair served next: functions in turn (16 R362). -/
def State.pick (s : State) : Option (Fn × RingId) :=
  let order := (List.range 17).map fun i => (s.lastFn.val + 1 + i) % 17
  (order.filterMap fun i => if h : i < 17 then some (⟨i, h⟩ : Fn) else none).findSome? fun n => (s.pickRing n).map fun r => (n, r)

/-- A pair whose ABORT_DB waits: fetched at once, regardless of pauses and held rings (16 R379). -/
def State.pickAbort (s : State) : Option (Fn × RingId × Nat) :=
  allFns.findSome? fun n =>
    if s.fnUp n && !s.mgmt.recov && decide (s.fnState n ≠ .moulting) then
      (List.finRange 64).findSome? fun r =>
        if (s.ring n r).en then (s.ring n r).abort.map fun i => (n, r, i) else none
    else none

/-- Opcodes of Table Commands (16 R366). -/
def opcodes : List Nat :=
  [0x01, 0x02, 0x03, 0x10, 0x11, 0x20, 0x21, 0x30, 0x31, 0x32, 0x40, 0x41, 0x42, 0x50, 0x51, 0x60]

/-- The command needs a partition (16 R366, R377). -/
def needsPart (n : Fn) (d : BitVec 512) : Bool :=
  let opc := bits (dw d 0) 63 56
  let q := bits (dw d 1) 7 0
  if [0x01, 0x02, 0x03, 0x10, 0x11, 0x20, 0x21, 0x30, 0x31, 0x51].contains opc then true
  else if opc = 0x42 ∨ opc = 0x60 then decide (n.val ≠ 0)
  else if opc = 0x50 then q = 2 || q = 3 || q = 5 || (q = 4 && decide (n.val ≠ 0))
  else false

/-- Checks 1 to 3 of 16 R364, and the fence of 18 R418 before them. -/
def State.fetchCheck (s : State) (n : Fn) (d : BitVec 512) : Check :=
  let opc := bits (dw d 0) 63 56
  firstFail
    [ (s.fenced .function n.val && decide (opc ≠ 0x60), eRetired),
      (!opcodes.contains opc || ((opc = 0x40 || opc = 0x41) && decide (n.val ≠ 0)), eOpcode),
      (decide (bits (dw d 0) 55 48 ≠ (s.func n).act.toNat) || decide ((s.func n).act = 0), eVersion),
      (needsPart n d && decide (s.fnState n = .free), eNotBound) ]

/-! ### Solve descriptors (05 R122, R124; 16 R374) -/

/-- The solve command record of a descriptor: words 1 to 7, with TAG as word 7 (16 R367). -/
def hostSolveRecord (d : BitVec 512) : BitVec 512 := (d >>> 64) ||| BitVec.ofNat 512 (descTag d * 2 ^ 480)

/-- OPC of SOLVE_DELTA or SOLVE_ADJOINT. -/
def isSolve (d : BitVec 512) : Bool := bits (dw d 0) 63 56 = 0x20 || bits (dw d 0) 63 56 = 0x21

/-- The physical channel of a logical channel that a host command names: of the lowest program slot that holds it (log 30). -/
def Part.hostChan (x : Part) (lse lch : Nat) : Option (EngId × ChanId) :=
  (List.finRange 8).findSome? fun k =>
    match x.slots[k] with
    | none => none
    | some g => (g.chans.find? fun m => decide (m.lse = lse) && decide (m.lch = lch)).map fun m => (m.eng, m.ch)

/-- The channel of a solve descriptor. -/
def Part.descChan (x : Part) (d : BitVec 512) : Option (EngId × ChanId) := x.hostChan (bits (dw d 1) 59 56) (bits (dw d 1) 55 51)

/-- Fetched solve commands of a channel that have not entered its queue. -/
def State.solvesWaiting (s : State) (n : Fn) (x : Part) (ch : EngId × ChanId) : Nat :=
  ((s.func n).cmds.filter fun c => isSolve c.desc && decide (c.phase = .fetched) && decide (x.descChan c.desc = some ch)).length

/-- The descriptor's channel queue has no room: it is not fetched (05 R124, 16 R362). -/
def State.heldBack (s : State) (n : Fn) (d : BitVec 512) : Bool :=
  match s.partOfFn n with
  | none => false
  | some p =>
    match (s.part p).descChan d with
    | none => false
    | some ch => isSolve d && decide (16 ≤ (s.chan ch.1 ch.2).queue.length + s.solvesWaiting n (s.part p) ch)

/-- A solve command whose channel no program holds fails at its fetch with its record and its completion (05 R122). -/
def State.failAtFetch (s : State) (n : Fn) (c : Cmd) : State :=
  match s.partOfFn n with
  | none => s.complete n c eField 0 0
  | some p =>
    let r := hostSolveRecord c.desc
    let stat := (wordOf r 6).toNat
    let s := if (s.part p).statOk stat then s.siloRecord p stat (failRecord eField (descTag c.desc) s.now s.now) else s
    s.complete n c eField 0 0

/-- The solve command names a channel that no loaded program holds. -/
def State.chanAbsent (s : State) (n : Fn) (d : BitVec 512) : Bool :=
  isSolve d && match s.partOfFn n with
    | none => true
    | some p => ((s.part p).descChan d).isNone

/-- A descriptor was read from a ring: it fails a check and completes, or it joins the fetched commands. `viaAbort`: it was read
through ABORT_DB, where only ABORT may stand (log 31). -/
def State.accept (s : State) (n : Fn) (r : RingId) (data : Option (BitVec 512)) (viaAbort : Bool) : State :=
  let cid := (s.func n).nextCid
  let s := s.modFunc n fun f => { f with nextCid := f.nextCid + 1 }
  match data with
  | none => s.complete n { cid := cid, ring := r, desc := 0, phase := .fetched } eHostDma 0 0
  | some d =>
    let c : Cmd := { cid := cid, ring := r, desc := d, phase := .fetched }
    match s.fetchCheck n d with
    | some code => s.complete n c code 0 0
    | none =>
      if viaAbort && decide (bits (dw d 0) 63 56 ≠ 0x60) then s.complete n c eField 0 0
      else if s.chanAbsent n d then s.failAtFetch n c
      else s.modFunc n fun f => { f with cmds := f.cmds ++ [c] }

/-- DESCRIPTOR_FETCH: the next descriptor by the rules of 16 R362 and R379; `data` is what the host answered, none for an
error completion (16 R364). A descriptor that a full solve queue holds back stays in its ring; the turn passes on. -/
def execDescriptorFetch (data : Option (BitVec 512)) (s : State) : Host.Outcome State Fault Refusal :=
  match s.pickAbort with
  | some (n, r, _) => .next ((s.modRing n r fun x => { x with abort := none }).accept n r data true)
  | none =>
    match s.pick with
    | none => notDue "DESCRIPTOR_FETCH"
    | some (n, r) =>
      let s := { s with lastFn := n }
      let s := s.modFunc n fun f => if (f.rings[r]).prio then { f with lastHi := r.val } else { f with lastLo := r.val }
      if (match data with | none => false | some d => (s.fetchCheck n d).isNone && s.heldBack n d) then .next s
      else .next ((s.modRing n r fun x => { x with sqHead := (x.sqHead + 1) % 2 ^ x.sqlog.toNat }).accept n r data false)

/-- A host solve command enters its channel's queue (05 R124). -/
def hostSolve (mnemonic : String) (opc : Nat) (fn : Fn) (cid : Nat) (s : State) : Host.Outcome State Fault Refusal :=
  match s.dueCmd fn cid opc, s.partOfFn fn with
  | some c, some p =>
    match (s.part p).descChan c.desc with
    | none => .next (s.failAtFetch fn c)
    | some ch =>
      whenDue (decide ((s.chan ch.1 ch.2).queue.length < 16)) mnemonic
        ((s.startCmd fn c).modChan ch.1 ch.2 fun x =>
          x.enqueue { record := hostSolveRecord c.desc, issuer := .host fn cid } s.now)
  | _, _ => notDue mnemonic

/-- SOLVE_DELTA (16 R374). -/
def execSolveDelta (fn : Fn) (cid : Nat) (s : State) : Host.Outcome State Fault Refusal := hostSolve "SOLVE_DELTA" 0x20 fn cid s

/-- SOLVE_ADJOINT (16 R374). -/
def execSolveAdjoint (fn : Fn) (cid : Nat) (s : State) : Host.Outcome State Fault Refusal :=
  hostSolve "SOLVE_ADJOINT" 0x21 fn cid s

end Sys2Proof.Machine
end

