-- ==== Sys2Proof/Machine/LinkCmds.lean ====
section
/-!
DEFINITION. Sys2Proof/Machine/LinkCmds.lean: the commands of the link work list: an entry starts, is acknowledged, completes; the end of a
granule's clear, which lets received data land (11 R276, R283, R286; 14 R332).
-/
namespace Sys2Proof.Machine

/-- The wait operation of a record. -/
def linkWait (r : LinkRec) : SyncOp := if r.wcond = 1 then .wge (BitVec.ofNat 64 r.wval) else .take (BitVec.ofNat 64 r.wval)

/-- The next entry of the list may be looked at. -/
def linkTurn (l : Launch) (g : Program) : Bool :=
  decide (l.phase = .released) && !l.ended && decide (l.nextEntry < (imgLinks g.image).length) && decide (l.active.length < 16)

/-- LINK_ENTRY_START: the next entry starts when its wait condition holds; else its wait begins (11 R276, R286). -/
def execLinkEntryStart (p : Pid) (now : Nat) (s : State) : Host.Outcome State Fault Refusal :=
  let s := (s.at_ now).drainPart p
  match s.live p with
  | none => notDue "LINK_ENTRY_START"
  | some (l, g) =>
    match linkRec g l.nextEntry with
    | none => notDue "LINK_ENTRY_START"
    | some r =>
      let idx := l.nextEntry
      if !linkTurn l g then notDue "LINK_ENTRY_START" else
      match l.lwait, r.wcond, (s.part p).objOf (r.wref % 2 ^ 16) with
      | some (_, none), _, _ => notDue "LINK_ENTRY_START"
      | some (_, some code), _, _ =>
        .next (if code = cOk then s.startEntry p l g idx r
          else (s.modLaunch p fun l => { l with nextEntry := idx + 1, lwait := none }).finishEntry p g idx r code 0)
      | none, 0, _ => .next (s.startEntry p l g idx r)
      | none, _, none => .next ((s.modLaunch p fun l => { l with nextEntry := idx + 1 }).finishEntry p g idx r eRange 0)
      | none, _, some o =>
        let w := s.applyOp p o (linkWait r) (some (.link p idx)) s.now
        .next (match w.2 with
          | none => w.1.modLaunch p fun l => { l with lwait := some (s.now, none) }
          | some code =>
            if code = cOk then w.1.startEntry p l g idx r
            else (w.1.modLaunch p fun l => { l with nextEntry := idx + 1 }).finishEntry p g idx r code 0)

/-- TRANSFER_ACK: a module acknowledges that all bytes of a transfer have landed, the oldest of the entry to it (11 R283). -/
def execTransferAck (p : Pid) (entry : Nat) (peer : ModId) (s : State) : Host.Outcome State Fault Refusal :=
  match (s.part p).launch with
  | none => notDue "TRANSFER_ACK"
  | some l =>
    whenDue (l.active.any fun e => decide (e.idx = entry) && e.unacked.any fun x => decide (x.1 = peer)) "TRANSFER_ACK"
      (s.modLaunch p fun l =>
        { l with active := l.active.map fun e =>
            if e.idx = entry then { e with unacked := e.unacked.eraseP fun x => decide (x.1 = peer) } else e })

/-- Contributions that came with the command are acknowledged to the entry's neighbours. -/
def State.ackInputs (s : State) (p : Pid) (g : Program) (r : LinkRec) (entry : Nat) (inputs : List (Nat × List Byte)) : State :=
  if inputs.isEmpty then s else (s.linkTargets g r).foldl (fun s m => s.send p m (.landed entry cOk)) s

/-- LINK_ENTRY_COMPLETE: every transfer the entry sends is acknowledged and every transfer it expects has landed: what came in frames and,
in `inputs`, what came otherwise from the other ranks, by rank, a carry after the rank's own data (11 R276, R279, R283). -/
def execLinkEntryComplete (p : Pid) (entry : Nat) (inputs : List (Nat × List Byte)) (now : Nat) (s : State) :
    Host.Outcome State Fault Refusal :=
  let s := (s.at_ now).drainPart p
  match s.live p with
  | none => notDue "LINK_ENTRY_COMPLETE"
  | some (l, g) =>
    match l.active.find? fun e => decide (e.idx = entry), linkRec g entry with
    | some e, some r =>
      let v := if r.dln = 0 then none else l.verdictOf entry
      let given := inputs
      let inputs := l.arrived entry ++ inputs
      if !(e.unacked.isEmpty && !decide (e.phase = .awaitVerdict) && (decide (r.op = 1) || s.landed g r v inputs)) then
        notDue "LINK_ENTRY_COMPLETE"
      else
        let reads := if r.op = 1 then [] else linkReads g.image r
        match reads.findSome? fun (x : Nat × Nat) => s.siloBadAt p x.1 x.2 with
        | some a => .next ((s.raiseUncorrectable (some p) ((s.part p).devAddr a)).killLaunch p eMemUncorrectable)
        | none =>
          match s.holdWrites p (match linkDst g.image r with | none => [] | some d => [d]) with
          | some t => .next t
          | none =>
            match (linkDst g.image r).bind fun d => if r.op = 1 then none else s.partialBadAt p d.1 d.2 with
            | some a => .next ((s.raiseUncorrectable (some p) ((s.part p).devAddr a)).killLaunch p eMemUncorrectable)
            | none => .next ((s.ackInputs p g r entry given).landEntry p g e r v inputs)
    | _, _ => notDue "LINK_ENTRY_COMPLETE"

/-- GRANULE_CLEAR_COMPLETE: frames whose data waited for the clear are taken (09 R233, R234; 14 R332). -/
def execGranuleClearComplete (now : Nat) (s : State) : Host.Outcome State Fault Refusal :=
  let s := s.at_ now
  match s.bind.clearing with
  | none => notDue "GRANULE_CLEAR_COMPLETE"
  | some g =>
    .next (((allParts.foldl State.drainPart (s.clearGranule g).postWritten)).markWhere .cont fun p => !(s.part p).entry.gran.contains g)

end Sys2Proof.Machine
end

