-- ==== Sys2Proof/Machine/Spdm.lean ====
section
/-!
DEFINITION. Sys2Proof/Machine/Spdm.lean: the SPDM responder: requests, sessions, measurements (15 R339 to R341, R344, R352; 19 R434).
Codes of requests and of their responses are those of the DMTF standards that the manual names (PRESUMED, log 37); what a response
carries is the manual's.
-/
namespace Sys2Proof.Machine

/-! ### Responses -/

/-- A response leaves by the way its request came. -/
def State.say (s : State) (via : Source) (body : List Byte) : State := s.emit (.spdm via body)

/-- ERROR responses: InvalidRequest, UnexpectedRequest, UnsupportedRequest, SessionLimitExceeded, DecryptError; and, with the
manual's code, the failures E_AUTH and E_KEY. -/
def errInvalid : List Byte := [0x7F, 0x01]
def errUnexpected : List Byte := [0x7F, 0x04]
def errDecrypt : List Byte := [0x7F, 0x06]
def errUnsupported : List Byte := [0x7F, 0x07]
def errSessions : List Byte := [0x7F, 0x0A]
def errCode (c : BitVec 16) : List Byte := [0x7F, 0x05] ++ leBytes 2 c.toNat

/-- The way a message comes is there: MCTP over I3C, or PF0's mailbox and MCTP over PCIe while the link is up. -/
def State.reachable (s : State) (via : Source) : Bool :=
  s.up && match via with
    | .pf0 => s.pins.pcieUp
    | .mctpPcie => s.pins.pcieUp
    | .mctpI3c => true
    | _ => false

/-- A request of the responder: in recovery it is unsupported, without identity it fails with E_AUTH (15 R339, 19 R434). -/
def State.answerSpdm (s : State) (via : Source) (f : State → State) : State :=
  if !s.reachable via then s
  else if s.mgmt.recov then s.say via errUnsupported
  else if s.sec.idCause ≠ 0 then s.say via (errCode eAuth)
  else f s

/-- A request that follows the negotiation of algorithms. -/
def State.answerAfter (s : State) (via : Source) (f : State → State) : State :=
  s.answerSpdm via fun s => if s.sec.algs then f s else s.say via errUnexpected

/-- The signature by the attestation key over what a response says; the manual gives no nonce: a free one, the deterministic one where it
will not do (log 27). -/
def State.attested (s : State) (msg : List Byte) : Signature :=
  (signWith s.attestKey (sha384 msg) (Config.signNonce s.freeCtr % curveN)).getD (ecdsaSign s.attestKey msg)

/-- A response and its signature. -/
def State.sayAttested (s : State) (via : Source) (body nonce : List Byte) : State :=
  let sig := s.attested (body ++ nonce)
  ((s.say via body).emit (.signed via sig.1 sig.2)).skipFree 1

/-- The certificate of the attestation key in place, and the chain of slot 0 (15 R338). -/
def State.attestCert (s : State) : AttestCert :=
  certOf (s.sec.ak.getD s.mgmt.image) s.partId steppingId s.numericsId
def State.chain (s : State) : List Byte := certChain s.attestCert

/-! ### Measurements (15 R341) -/

/-- Content of measurement i. -/
def State.measurement (s : State) (i : Nat) : List Byte :=
  match i with
  | 1 => s.mgmt.image.digest
  | 2 => s.mgmt.image.version ++ leBytes 2 s.svn.toNat
  | 3 => sha384 (s.mgmt.effOwner ++ s.mgmt.effPreset)
  | 4 => leBytes 4 s.partId ++ leBytes 4 steppingId ++ leBytes 8 s.numericsId.toNat
  | 5 => leBytes 4 s.sec.dbgWord
  | 6 => s.sec.lchain
  | 7 => beBytesN 48 Config.romDigest.toNat
  | _ => []

/-- DMTF type of measurement i: bit 7 marks a raw value. -/
def measureType (i : Nat) : Byte :=
  match i with
  | 1 => 0x01
  | 2 => 0x86
  | 3 => 0x03
  | 4 => 0x82
  | 5 => 0x85
  | 6 => 0x04
  | _ => 0x00

/-- A block in the DMTF measurement format. -/
def State.measureBlock (s : State) (i : Nat) : List Byte :=
  let v := s.measurement i
  [BitVec.ofNat 8 i, 0x01] ++ leBytes 2 (v.length + 3) ++ [measureType i] ++ leBytes 2 v.length ++ v

/-- Blocks that a request for an index returns: 0 the count, 1 to 7 one block, 0xFF all. -/
def State.measureBlocks (s : State) (index : Byte) : Option (List Byte) :=
  if index = 0 then some [7]
  else if index = 0xFF then some ([7] ++ (natRange 1 8).flatMap s.measureBlock)
  else if index.toNat ≤ 7 then some ([1] ++ s.measureBlock index.toNat)
  else none

/-! ### Requests (15 R340) -/

/-- The versions that the responder speaks: 1.0 to 1.3. -/
def spdmVersions : List Byte := [0x10, 0x11, 0x12, 0x13]

/-- GET_VERSION: the versions; the negotiation starts anew. -/
def execGetVersion (via : Source) (s : State) : Host.Outcome State Fault Refusal :=
  .next (s.answerSpdm via fun s =>
    { s with sec := { s.sec with ver := true, spdm := 0, caps := false, algs := false } }.say via (0x04 :: spdmVersions))

/-- VersionMismatch. -/
def errVersion : List Byte := [0x7F, 0x41]

/-- The highest version that both speak. -/
def commonVersion (theirs : List Byte) : Option Byte := spdmVersions.reverse.find? fun v => theirs.contains v

/-- GET_CAPABILITIES: the highest common version is in use from now on; without one the request is refused. -/
def execGetCapabilities (hello : SpdmHello) (s : State) : Host.Outcome State Fault Refusal :=
  .next (s.answerSpdm hello.via fun s =>
    if !s.sec.ver then s.say hello.via errUnexpected
    else match commonVersion hello.versions with
      | none => s.say hello.via errVersion
      | some v => { s with sec := { s.sec with caps := true, spdm := v } }.say hello.via [0x61])

/-- What is chosen from an offer: one algorithm of each kind, or none. -/
def algsReply (asym : SpdmAsym) (secp384 aesGcm : Bool) : List Byte :=
  [0x63, BitVec.ofNat 8 (b2n asym.brainpool), BitVec.ofNat 8 (b2n asym.sha), BitVec.ofNat 8 (b2n asym.measSha),
    BitVec.ofNat 8 (b2n secp384), BitVec.ofNat 8 (b2n aesGcm)]

/-- NEGOTIATE_ALGORITHMS: the one signature, hash, measurement hash, key exchange group and AEAD of Table SPDM support, each where it is
offered. -/
def execNegotiateAlgorithms (via : Source) (asym : SpdmAsym) (offersSecp384 offersAesGcm : Bool) (s : State) :
    Host.Outcome State Fault Refusal :=
  .next (s.answerSpdm via fun s =>
    if s.sec.caps then
      { s with sec := { s.sec with algs := asym.brainpool && asym.sha && asym.measSha && offersSecp384 && offersAesGcm } }.say via
        (algsReply asym offersSecp384 offersAesGcm)
    else s.say via errUnexpected)

/-- GET_DIGESTS: the digest of slot 0's chain. -/
def execGetDigests (via : Source) (s : State) : Host.Outcome State Fault Refusal :=
  .next (s.answerAfter via fun s => s.say via ([0x01] ++ sha384 s.chain))

/-- Largest transfer: 64 KiB (15 R340). -/
def maxTransfer : Nat := 2 ^ 16

/-- GET_CERTIFICATE: a part of slot 0's chain, of at most 64 KiB; no other slot is there. -/
def execGetCertificate (via : Source) (slot : Nat) (offset length : Nat) (s : State) : Host.Outcome State Fault Refusal :=
  .next (s.answerAfter via fun s =>
    if maxTransfer < length then s.say via errUnsupported else
    if slot = 0 then s.say via ([0x02] ++ (s.chain.drop offset).take length) else s.say via errInvalid)

/-- CHALLENGE: slot 0's chain digest, signed. -/
def execChallenge (via : Source) (slot : Nat) (nonce : BitVec 256) (s : State) : Host.Outcome State Fault Refusal :=
  .next (s.answerAfter via fun s =>
    if slot = 0 then s.sayAttested via ([0x03] ++ sha384 s.chain) (leBytes 32 nonce.toNat)
    else s.say via errInvalid)

/-- GET_MEASUREMENTS; `signed`: the slot under which a signature is asked for. -/
def execGetMeasurements (via : Source) (index : Byte) (nonce : BitVec 256) (signed : Option Nat) (s : State) :
    Host.Outcome State Fault Refusal :=
  .next (s.answerAfter via fun s =>
    match s.measureBlocks index, signed with
    | none, _ => s.say via errInvalid
    | some b, none => s.say via ([0x60] ++ b)
    | some b, some slot =>
      if slot = 0 then s.sayAttested via ([0x60] ++ b) (leBytes 32 nonce.toNat) else s.say via errInvalid)

/-- UNSUPPORTED_REQUEST: whatever Table SPDM support does not list. -/
def execUnsupportedRequest (via : Source) (_code : Byte) (s : State) : Host.Outcome State Fault Refusal :=
  .next (s.answerSpdm via fun s => s.say via errUnsupported)

/-! ### Sessions -/

/-- Up to 17 sessions (15 R340). -/
def maxSessions : Nat := 17

def State.session (s : State) (id : BitVec 32) : Option Session := s.sec.sessions.find? fun x => decide (x.id = id)

def State.modSession (s : State) (id : BitVec 32) (f : Session → Session) : State :=
  { s with sec := { s.sec with sessions := s.sec.sessions.map fun x => if x.id = id then f x else x } }

/-- A session number not in use with the requester's half. -/
def State.freshSession (s : State) (req : BitVec 16) : BitVec 32 :=
  BitVec.ofNat 32 (req.toNat + 2 ^ 16 *
    (((List.range 18).find? fun n => (s.session (BitVec.ofNat 32 (req.toNat + 2 ^ 16 * n))).isNone).getD 0))

/-- KEY_EXCHANGE under slot 0: a session key is drawn, the response signed; E_KEY without a DRBG (15 R344). -/
def execKeyExchange (via : Source) (req : SpdmKeyReq) (now : Nat) (s : State) : Host.Outcome State Fault Refusal :=
  let s := s.at_ now
  .next (s.answerAfter via fun s =>
    if req.slot ≠ 0 then s.say via errInvalid
    else if s.sec.drbgDown then s.say via (errCode eKey)
    else if maxSessions ≤ s.sec.sessions.length then s.say via errSessions
    else
      let id := s.freshSession req.session
      let s := s.newKey
      let x : Session := { id := id, via := via, up := false, period := s.sec.period, last := s.now, keyGen := s.sec.keyGen }
      let s := { s with sec := { s.sec with sessions := s.sec.sessions ++ [x] } }
      s.sayAttested via ([0x64] ++ leBytes 4 id.toNat) [])

/-- The partition of a function undergoes a key moult as its TDI leaves CONFIG_LOCKED or RUN for another state (15 R352). -/
def State.leaveTenant (s : State) (n : Fn) (next : Tdi) : State :=
  let was := decide (s.sec.tdi[n] = .locked ∨ s.sec.tdi[n] = .run)
  let s := { s with sec := { s.sec with tdi := s.sec.tdi.set n next, tdiSess := s.sec.tdiSess.set n none } }
  if !was then s
  else match s.partOfFn n with
    | none => s
    | some p => s.startKeyMoult p .tdisp false

/-- A session is gone; TDIs that it locked go to ERROR (15 R352). -/
def State.loseSession (s : State) (id : BitVec 32) : State :=
  let s := { s with sec := { s.sec with sessions := s.sec.sessions.filter fun x => !decide (x.id = id) } }
  allFns.foldl (fun s n =>
    if s.sec.tdiSess[n] = some id ∧ (s.sec.tdi[n] = .locked ∨ s.sec.tdi[n] = .run) then s.leaveTenant n .error else s) s

/-- A request within a session that exists. -/
def State.inSession (s : State) (id : BitVec 32) (f : State → Session → State) : State :=
  match s.session id with
  | none => s
  | some x => s.answerSpdm x.via fun s => f s x

/-- FINISH: the session is up with its heartbeat period, 60 s where 0 is given; a wrong MAC ends it. -/
def execFinish (session : BitVec 32) (macOk : Bool) (period : Byte) (now : Nat) (s : State) : Host.Outcome State Fault Refusal :=
  .next ((s.at_ now).inSession session fun s x =>
    if x.up then s.say x.via errUnexpected
    else if !macOk then (s.loseSession session).say x.via errDecrypt
    else
      (s.modSession session fun x =>
        { x with up := true, period := if period = 0 then s.sec.period else period.toNat, last := s.now }).say x.via [0x65])

/-- A request within a session that is up. -/
def State.inUp (s : State) (id : BitVec 32) (f : State → Session → State) : State :=
  s.inSession id fun s x => if x.up then f s x else s.say x.via errUnexpected

/-- END_SESSION. -/
def execEndSession (session : BitVec 32) (s : State) : Host.Outcome State Fault Refusal :=
  .next (s.inUp session fun s x => (s.say x.via [0x6C]).loseSession session)

/-- KEY_UPDATE: new session keys. -/
def execKeyUpdate (session : BitVec 32) (s : State) : Host.Outcome State Fault Refusal :=
  .next (s.inUp session fun s x =>
    if s.sec.drbgDown then s.say x.via (errCode eKey)
    else
      let s := s.newKey
      (s.modSession session fun x => { x with keyGen := s.sec.keyGen }).say x.via [0x69])

/-- HEARTBEAT: the session's time starts again. -/
def execHeartbeat (session : BitVec 32) (now : Nat) (s : State) : Host.Outcome State Fault Refusal :=
  .next ((s.at_ now).inUp session fun s x => (s.modSession session fun x => { x with last := s.now }).say x.via [0x68])

/-- HEARTBEAT_TIMEOUT: no heartbeat within the period (15 R340, R352; log 37). -/
def execHeartbeatTimeout (session : BitVec 32) (now : Nat) (s : State) : Host.Outcome State Fault Refusal :=
  let s := s.at_ now
  match s.session session with
  | none => notDue "HEARTBEAT_TIMEOUT"
  | some x => whenDue (x.up && decide (x.last + x.period * 1000000000 ≤ s.now)) "HEARTBEAT_TIMEOUT" (s.loseSession session)

/-- SPDM_SESSION_LOSS: the session is lost otherwise. -/
def execSpdmSessionLoss (session : BitVec 32) (now : Nat) (s : State) : Host.Outcome State Fault Refusal :=
  .next ((s.at_ now).loseSession session)

/-! ### DRBG (15 R344, R356) -/

/-- The rotations of a partition end with E_KEY: the sweep stops, ACTIVE stays; a link rotation ends. -/
def State.stopRotation (s : State) (p : Pid) : State :=
  let r := s.sec.rot[p]
  let fail (s : State) (w : Option (Fn × Nat)) : State :=
    match w with
    | none => s
    | some (n, cid) =>
      match s.findCmd n cid with
      | none => s
      | some c => s.complete n c eKey 0 0
  let s := fail (fail s r.waiter) r.linkWaiter
  let rots := s.sec.rot.set p { r with waiter := none, linkWaiter := none, link := false }
  { s with sec := { s.sec with rot := rots } }.modPart p fun (x : Part) => { x with peers := x.peers.map fun (q : Peer) => { q with rekey := false } }

/-- DRBG_HEALTH_FAILURE: no new key until the next device reset. -/
def execDrbgHealthFailure (s : State) : Host.Outcome State Fault Refusal :=
  .next (if !s.up || s.sec.drbgDown then s
    else (allParts.filter fun p => (s.sec.rot[p]).active || (s.sec.rot[p]).link).foldl State.stopRotation
      { s with sec := { s.sec with drbgDown := true } })

end Sys2Proof.Machine
end

