-- ==== Sys2Proof/Machine/Mgmt.lean ====
section
/-!
DEFINITION. Sys2Proof/Machine/Mgmt.lean: out-of-band management: MCTP and I3C, vendor messages, PLDM sensors and events, firmware update
(19 R426, R434 to R440). Message codes are those of the DMTF standards that the manual names (PRESUMED, log 37).
-/
namespace Sys2Proof.Machine

/-! ### MCTP (19 R426, R435) -/

/-- VERIFY has ended: the I3C target acknowledges its address. -/
def State.verified (s : State) : Bool :=
  s.alive && (!s.mgmt.resetting || decide (s.mgmt.stage = .test ∨ s.mgmt.stage = .mem ∨ s.mgmt.stage = .link))

/-- Messages of a binding are taken. -/
def State.mctpUp (s : State) (b : Binding) : Bool :=
  match b with
  | .i3c => s.verified
  | .pcie => s.up && s.pins.pcieUp

/-- A message of a binding that is taken has its effect. -/
def State.mctp (s : State) (b : Binding) (f : State → State) : State := if s.mctpUp b then f s else s

/-- A message of a binding that recovery does not offer (19 R434). -/
def State.mctpFull (s : State) (b : Binding) (f : State → State) : State :=
  s.mctp b fun s => if s.mgmt.recov then s else f s

/-- A response leaves on a binding. -/
def State.reply (s : State) (b : Binding) (body : List Byte) : State := s.emit (.mctp b body)

def MgmtSt.eid (m : MgmtSt) : Binding → Byte
  | .i3c => m.eidI3c
  | .pcie => m.eidPcie

def MgmtSt.setEid (m : MgmtSt) (b : Binding) (x : Byte) : MgmtSt :=
  match b with
  | .i3c => { m with eidI3c := x }
  | .pcie => { m with eidPcie := x }

/-- Set Endpoint ID: one for each binding; the codes 0x00 and 0xFF are no endpoint. -/
def execSetEndpointId (b : Binding) (eid : Byte) (s : State) : Host.Outcome State Fault Refusal :=
  .next (s.mctp b fun s =>
    if eid = 0 ∨ eid = 0xFF then s.reply b [0x01, 0x02]
    else { s with mgmt := s.mgmt.setEid b eid }.reply b [0x01, 0x00, eid])

/-- Get Endpoint ID. -/
def execGetEndpointId (b : Binding) (s : State) : Host.Outcome State Fault Refusal :=
  .next (s.mctp b fun s => s.reply b [0x02, 0x00, s.mgmt.eid b])

/-- Message types of Table Management support. -/
def messageTypes : List Byte := [0x00, 0x01, 0x05, 0x06, 0x7E]

/-- Get MCTP Version Support: 1.3 for the base and control messages. -/
def execGetMctpVersionSupport (b : Binding) (msgType : Byte) (s : State) : Host.Outcome State Fault Refusal :=
  .next (s.mctp b fun s =>
    if msgType = 0xFF ∨ messageTypes.contains msgType then s.reply b [0x04, 0x00, 0x01, 0xF1, 0xF3, 0xFF, 0x00]
    else s.reply b [0x04, 0x80])

/-- Get Message Type Support. -/
def execGetMessageTypeSupport (b : Binding) (s : State) : Host.Outcome State Fault Refusal :=
  .next (s.mctp b fun s => s.reply b ([0x05, 0x00, 0x05] ++ messageTypes))

/-- Get Vendor Defined Message Support: one set, with the vendor ID of PF0. -/
def execGetVendorDefinedMessageSupport (b : Binding) (selector : Byte) (s : State) : Host.Outcome State Fault Refusal :=
  .next (s.mctp b fun s =>
    if selector = 0 then s.reply b ([0x06, 0x00, 0xFF, 0x00] ++ leBytes 2 Config.vendorId.toNat) else s.reply b [0x06, 0x02])

/-! ### I3C addresses -/

/-- The module takes a dynamic address. -/
def State.takeAddress (s : State) (a : BitVec 7) : State := { s with mgmt := { s.mgmt with i3cAddr := some a } }.emit (.i3cAddr a)

/-- ENTDAA: a target without a dynamic address takes the one it is given. -/
def execEntdaa (address : BitVec 7) (s : State) : Host.Outcome State Fault Refusal :=
  .next (if s.verified && s.mgmt.i3cAddr.isNone then s.takeAddress address else s)

/-- SETDASA: the target with that static address, MGMT_I3C_CFG.SADDR in effect. -/
def execSetdasa (static dynamic : BitVec 7) (s : State) : Host.Outcome State Fault Refusal :=
  .next (if s.verified && s.mgmt.i3cAddr.isNone && decide (bits s.mgmt.i3cAct 6 0 = static.toNat) then s.takeAddress dynamic else s)

/-! ### PLDM sensors and events (19 R437) -/

/-- SetEventReceiver. -/
def execSeteventreceiver (b : Binding) (eid : Byte) (enable : Bool) (s : State) : Host.Outcome State Fault Refusal :=
  .next (s.mctpFull b fun s =>
    { s with mgmt := { s.mgmt with receiver := if enable then some (b, eid) else none } }.reply b [0x02, 0x04, 0x00])

/-- Sum over the tiles. -/
def State.sumTiles (s : State) (f : Tile → Nat) : Nat := (allTiles.map fun t => f (s.tile t)).foldl (· + ·) 0

/-- Bits set in a number of n bits. -/
def countBits (n v : Nat) : Nat := ((List.range n).filter fun i => v.testBit i).length

/-- Counts of sensors 0x0050 to 0x0057, in the order in which Table Telemetry sensors names them (log 38). -/
def State.countSensor (s : State) (k : Nat) : Option Int :=
  match k with
  | 0 => some s.memctl.ce.toNat
  | 1 => some s.memctl.ue.toNat
  | 2 => some s.links.replays.toNat
  | 3 => some (s.sumTiles fun x => x.retryCnt.toNat)
  | 4 => some (countBits 64 s.links.laneRet.toNat)
  | 5 => some (countBits 512 s.memctl.pcRet.toNat)
  | 6 => some ((allEngines.map fun e => countBits 32 (s.engine e).chanRet.toNat).foldl (· + ·) 0 : Nat)
  | 7 => some (s.sumTiles fun x => b2n x.retired)
  | _ => none

/-- What a sensor reports where the state holds it; none for what a physical sensor reads. -/
def State.sensorOf (s : State) (id : Nat) : Option Int :=
  if id = 0x0003 then some s.power.pavg.toNat
  else if id = 0x0040 then some s.power.cap.toNat
  else if id = 0x0041 then some s.power.klow.toNat
  else if id = 0x0042 then some s.power.mlvl.toNat
  else if id = 0x0043 then some s.limiter
  else if 0x0050 ≤ id ∧ id ≤ 0x0057 then s.countSensor (id - 0x0050)
  else if h : 0x0060 ≤ id ∧ id ≤ 0x006F then some (pstateCode (s.part ⟨id - 0x0060, by omega⟩).entry.st)
  else none

/-- The sensor IDs of Table Telemetry sensors. -/
def sensorThere (id : Nat) : Bool :=
  (inRange id 0x0001 0x0003) || (inRange id 0x0010 0x001F) || (inRange id 0x0020 0x0022) || (inRange id 0x0030 0x0037) ||
    (inRange id 0x0040 0x0043) || (inRange id 0x0050 0x006F)

/-- SENSOR_REFRESH: the sensor holds its value of now. -/
def execSensorRefresh (id : BitVec 16) (reading : Int) (s : State) : Host.Outcome State Fault Refusal :=
  .next (if s.setupOpen && sensorThere id.toNat then
    { s with mgmt := { s.mgmt with
        sensors := (id, (s.sensorOf id.toNat).getD reading) :: s.mgmt.sensors.filter fun (x : BitVec 16 × Int) => !decide (x.1 = id) } }
  else s)

/-! ### Vendor messages (19 R436) -/

/-- The source of a request that came by a binding. -/
def sourceOf : Binding → Source
  | .i3c => .mctpI3c
  | .pcie => .mctpPcie

/-- What management reads at an offset of BAR0: as PF0; from the end of VERIFY on MGMT_BOOT_STAT answers during a boot too
(19 R427). -/
def State.mgmtRead (s : State) (off : Nat) : Word :=
  if s.mgmt.resetting ∧ off = 0x70000 then BitVec.ofNat 64 s.mgmt.bootWord else s.readReg 0 off

/-- REG_READ. -/
def execRegRead (b : Binding) (offset : BitVec 24) (s : State) : Host.Outcome State Fault Refusal :=
  .next (s.mctp b fun s => s.emit (.read b (s.mgmtRead offset.toNat)))

/-- REG_WRITE: 8 B, as PF0 writes; a debug attach is logged with source 1 or 2. -/
def execRegWrite (b : Binding) (offset : BitVec 24) (value : Word) (s : State) : Host.Outcome State Fault Refusal :=
  .next (s.mctpFull b fun s => s.writeReg 0 (sourceOf b) offset.toNat value)

/-- DEV_RESET. -/
def execDevReset (b : Binding) (s : State) : Host.Outcome State Fault Refusal :=
  .next (s.mctp b fun s => if s.mgmt.resetting then s else s.deviceReset)

/-- ATTLOG_READ: as QUERY ATTLOG, every stored entry from the first one named on. -/
def execAttlogRead (b : Binding) (first : Nat) (s : State) : Host.Outcome State Fault Refusal :=
  .next (s.mctpFull b fun s => s.reply b (s.queryAttlog first (64 + 64 * 4096)))

/-- FORCE_RECOVERY: recovery at the next device reset. -/
def execForceRecovery (b : Binding) (s : State) : Host.Outcome State Fault Refusal :=
  .next (s.mctpFull b fun s => { s with mgmt := { s.mgmt with force := true } })

/-! ### Firmware update (19 R438 to R440) -/

/-- Largest size of a component: an image of 64 MiB, a record of 64 + 3,968 + 96 B. -/
def componentMax : Component → Nat
  | .firmware => 2 ^ 26
  | .config => 4128

/-- An update runs: between RequestUpdate and its end. -/
def FwuState.busy (x : FwuState) : Bool := decide (x ≠ .idle) && decide (x ≠ .pending)

/-- The update is in a state, none of its work done. -/
def MgmtSt.enterFwu (m : MgmtSt) (x : FwuState) : MgmtSt := { m with fwu := x, progress := 0 }

/-- The update ends with a code; staged data is dropped. -/
def MgmtSt.endFwu (m : MgmtSt) (code : BitVec 16) : MgmtSt :=
  { m with fwu := .idle, progress := 0, fwuCode := code, data := [], dataNeed := 0 }

/-- RequestUpdate: refused while an update runs; recovery takes FIRMWARE only. -/
def execRequestupdate (b : Binding) (c : Component) (size : Nat) (s : State) : Host.Outcome State Fault Refusal :=
  .next (s.mctp b fun s =>
    if s.mgmt.resetting || (s.mgmt.recov && decide (c = .config)) then s
    else if s.mgmt.fwu.busy then s.reply b [0x05, 0x10, 0x81]
    else if size = 0 ∨ componentMax c < size then s.reply b [0x05, 0x10, 0x02]
    else
      { s with mgmt := { s.mgmt.enterFwu .receiving with fwuVia := b, comp := c, data := [], dataNeed := size } }.reply b
        [0x05, 0x10, 0x00])

/-- Data of one request of at most 4,096 B arrives. -/
def execFirmwareDataReceipt (data : List Byte) (s : State) : Host.Outcome State Fault Refusal :=
  let m := s.mgmt
  whenDue (decide (m.fwu = .receiving) && decide (data.length ≤ 4096) && decide (m.data.length + data.length ≤ m.dataNeed))
    "FIRMWARE_DATA_RECEIPT"
    { s with mgmt := { m with data := m.data ++ data,
                              progress := BitVec.ofNat 8 (100 * (m.data.length + data.length) / m.dataNeed) } }

/-- TransferComplete: every byte is there; verification starts. -/
def execTransfercomplete (s : State) : Host.Outcome State Fault Refusal :=
  whenDue (decide (s.mgmt.fwu = .receiving) && decide (s.mgmt.data.length = s.mgmt.dataNeed)) "TRANSFERCOMPLETE"
    ({ s with mgmt := s.mgmt.enterFwu .verifying }.reply s.mgmt.fwuVia [0x05, 0x16, 0x00])

/-- SEQ of a record. -/
def recordSeq (rec : List Byte) : Nat := leNat ((rec.drop 8).take 8)

/-- The record of the same TYPE in flash, when it is valid. -/
def MgmtSt.replaced (m : MgmtSt) : List Byte :=
  if configType m.data = 1 then (if m.ownerTorn then [] else m.owner) else if m.presetTorn then [] else m.preset

/-- Header, entries and sequence of a staged record (19 R432). -/
def MgmtSt.configOk (m : MgmtSt) : Bool :=
  (recordHeadOk m.data 1 || (recordHeadOk m.data 2 && presetOkBody m.data)) &&
    (m.replaced.isEmpty || decide (recordSeq m.replaced < recordSeq m.data))

/-- The code that a verification ends the update with; none when the component is accepted. -/
def MgmtSt.verifyCode (m : MgmtSt) (how : VerifyEnd) : Check :=
  match how with
  | .unreadable => some eMemUncorrectable
  | .badSignature => some eSignature
  | .badField => some eField
  | .ok => if m.comp = .config ∧ !m.configOk then some eField else none

/-- UPDATE_VERIFY_END: the write to flash starts, or the update ends with the component unchanged. -/
def execUpdateVerifyEnd (how : VerifyEnd) (s : State) : Host.Outcome State Fault Refusal :=
  whenDue (decide (s.mgmt.fwu = .verifying)) "UPDATE_VERIFY_END"
    (match s.mgmt.verifyCode how with
     | some code => { s with mgmt := s.mgmt.endFwu code }.reply s.mgmt.fwuVia [0x05, 0x17, 0x01]
     | none => { s with mgmt := s.mgmt.enterFwu .applying }.reply s.mgmt.fwuVia [0x05, 0x17, 0x00])

/-- Flash holds the component. -/
def MgmtSt.writeFlash (m : MgmtSt) : MgmtSt :=
  match m.comp with
  | .firmware => { m with pendImg := some (.written m.data), imgOk := true }
  | .config =>
    if configType m.data = 1 then { m with owner := m.data, ownerTorn := false } else { m with preset := m.data, presetTorn := false }

/-- ApplyComplete: the component is in flash, a FW_UPDATE entry is in the log; in recovery a device reset follows (19 R434). -/
def execApplycomplete (s : State) : Host.Outcome State Fault Refusal :=
  whenDue (decide (s.mgmt.fwu = .applying) && decide (s.mgmt.progress ≠ 100)) "APPLYCOMPLETE"
    (let m := { s.mgmt.writeFlash with progress := 100, fwuCode := cOk, data := [], dataNeed := 0 }
     let s := ({ s with mgmt := m }.attest 0x0007 none 0 (sourceOf m.fwuVia)
       ((m.pendImg.getD m.image).digest.take 44)).reply m.fwuVia [0x05, 0x18, 0x00]
     if m.recov then s.deviceReset else s)

/-- ActivateFirmware: the component takes effect at the next reset. -/
def execActivatefirmware (s : State) : Host.Outcome State Fault Refusal :=
  whenDue (decide (s.mgmt.fwu = .applying) && decide (s.mgmt.progress = 100)) "ACTIVATEFIRMWARE"
    ({ s with mgmt := s.mgmt.enterFwu .pending }.reply s.mgmt.fwuVia [0x05, 0x1A, 0x00])

/-- CancelUpdate: before ApplyComplete staged data is discarded and flash unchanged; the code of an update that ended so is not
stated: a free value (log 2). -/
def execCancelupdate (s : State) : Host.Outcome State Fault Refusal :=
  .next (if s.mgmt.fwu.busy && !(decide (s.mgmt.fwu = .applying) && decide (s.mgmt.progress = 100)) then
    ({ s with mgmt := s.mgmt.endFwu (s.freeWord.setWidth 16) }.skipFree 1).reply s.mgmt.fwuVia [0x05, 0x1D, 0x00]
  else s)

end Sys2Proof.Machine
end

