-- ==== Sys2Proof/Machine/Scalar.lean ====
section
/-!
DEFINITION. Sys2Proof/Machine/Scalar.lean: scalar instructions of the control core: integer, branches, loads and stores, FP64, conversions
(07 R155 to R158, R164). Where the manual names a class and not its functions, the functions are the model's (log 22).
-/
namespace Sys2Proof.Machine

/-! ### Integer (07 R156) -/

/-- The result of an integer operation. -/
def intEval (op : IntOp) (a b : Word) : Word :=
  match op with
  | .add => a + b
  | .sub => a - b
  | .and => a &&& b
  | .or => a ||| b
  | .xor => a ^^^ b
  | .sll => a <<< (b.toNat % 64)
  | .srl => a >>> (b.toNat % 64)
  | .sra => a.sshiftRight (b.toNat % 64)
  | .slt => if a.toInt < b.toInt then 1 else 0
  | .sltu => if a.toNat < b.toNat then 1 else 0
  | .mul => a * b
  | .div => if b = 0 then 0 else a.sdiv b
  | .divu => if b = 0 then 0 else a / b
  | .rem => if b = 0 then a else a.srem b
  | .remu => if b = 0 then a else a % b

/-- INT. -/
def execInt (t : TileId) (op : IntOp) (rd rs1 rs2 : RegId) (s : State) : Host.Outcome State Fault Refusal :=
  coreInstr "INT" (.int t op rd rs1 rs2) t s fun s => s.retire t fun c => c.wg rd (intEval op (c.rg rs1) (c.rg rs2))

/-- INTI. -/
def execInti (t : TileId) (op : IntOp) (rd rs1 : RegId) (imm : Word) (s : State) : Host.Outcome State Fault Refusal :=
  coreInstr "INTI" (.inti t op rd rs1 imm) t s fun s => s.retire t fun c => c.wg rd (intEval op (c.rg rs1) imm)

/-! ### Branches (07 R153, R155) -/

/-- The branch is taken. -/
def brTaken (op : BrOp) (a b : Word) : Bool :=
  match op with
  | .eq => decide (a = b)
  | .ne => decide (a ≠ b)
  | .lt => decide (a.toInt < b.toInt)
  | .ge => decide (b.toInt ≤ a.toInt)
  | .ltu => decide (a.toNat < b.toNat)
  | .geu => decide (b.toNat ≤ a.toNat)
  | .jump => true
  | .jumpReg => true

/-- Where it goes. -/
def brTarget (op : BrOp) (c : Core) (rs1 : RegId) (offset : Word) : Nat :=
  match op with
  | .jumpReg => (c.rg rs1 + offset).toNat
  | _ => (BitVec.ofNat 64 c.pc + offset).toNat

def brLinks (op : BrOp) : Bool := op = .jump || op = .jumpReg

/-- BR: a taken branch to a target outside the code section, or to no instruction, is a core fault; a jump leaves the address after
it in gRD. -/
def execBr (t : TileId) (op : BrOp) (rd rs1 rs2 : RegId) (offset : Word) (s : State) : Host.Outcome State Fault Refusal :=
  coreInstr "BR" (.br t op rd rs1 rs2 offset) t s fun s =>
    let c := s.core t
    let target := brTarget op c rs1 offset
    if !brTaken op (c.rg rs1) (c.rg rs2) then s.retire t id
    else if s.codeSize t ≤ target ∨ target % 4 ≠ 0 then s.coreFault t 0x1 0
    else s.modCore t fun c =>
      { (if brLinks op then c.wg rd (BitVec.ofNat 64 (c.pc + 4)) else c) with pc := target }

/-! ### Loads and stores (07 R155, R164) -/

/-- The cause of an access of n bytes that is not performed. -/
def accessCause (a n : Nat) : Option Nat := if tileSize < a + n then some 0x2 else if a % n ≠ 0 then some 0x3 else none

/-- A value of n bytes extended to 64 bits. -/
def extendTo (signed : Bool) (n v : Nat) : Word := if signed then BitVec.ofInt 64 (signedOf (8 * n) v) else BitVec.ofNat 64 v

/-- LS: a load or store of 1, 2, 4 or 8 bytes, held behind work on its page. Words that the store's code corrected are counted
(18 R411). -/
def execLs (t : TileId) (op : LsOp) (corrected : Nat) (s : State) : Host.Outcome State Fault Refusal :=
  let n := 2 ^ op.size.val
  let a := ((s.core t).rg op.base + op.offset).toNat
  coreWait "LS" (.ls t op corrected) t s ((accessCause a n).isSome || !s.accessHeld t op.store (a, n)) fun s =>
    let s := s.countCorrected t corrected
    match accessCause a n with
    | some cause => s.coreFault t cause a
    | none =>
      if op.store then
        let v := match op.file with | .g => (s.core t).rg op.reg | .f => (s.core t).rf op.reg
        (s.storeWrite t a (leBytes n v.toNat)).retire t id
      else
        let v := s.storeLe t a n
        s.retire t fun c =>
          match op.file with
          | .g => c.wg op.reg (extendTo op.signed n v)
          | .f => c.wf op.reg (BitVec.ofNat 64 v)

/-! ### Scalar FP64 (07 R157) -/

def rndMode : Rnd → RMode
  | .rne => .rne
  | .rtz => .rtz

/-- A result rounded to a format as IEEE 754 gives it. -/
def FFmt.ieee (f : FFmt) (r : Rnd) (x : Num) : Nat := (f.convert (rndMode r) true x).1

/-- The exact result of an operation that is rounded or passed through. -/
def fpValue (op : FpOp) (a b c : Num) : Num :=
  match op with
  | .add => a.add b
  | .sub => a.add b.neg
  | .mul => a.mul b
  | .fma => (a.mul b).add c
  | .div => a.div b
  | .sqrt => a.sqrt
  | .min => a.minimum b
  | .max => a.maximum b
  | .cmpEq => if a.eq b then Num.one else Num.zero
  | .cmpLt => if a.lt b then Num.one else Num.zero
  | .cmpLe => if a.lt b || a.eq b then Num.one else Num.zero

def fpCompares : FpOp → Bool
  | .cmpEq | .cmpLt | .cmpLe => true
  | _ => false

/-- FP: a compare writes 0 or 1 to gRD, every other operation fRD. -/
def execFp (t : TileId) (op : FpOp) (rnd : Rnd) (rd rs1 rs2 rs3 : RegId) (s : State) : Host.Outcome State Fault Refusal :=
  coreInstr "FP" (.fp t op rnd rd rs1 rs2 rs3) t s fun s => s.retire t fun c =>
    let v := fpValue op (fp64.decode (c.rf rs1).toNat) (fp64.decode (c.rf rs2).toNat) (fp64.decode (c.rf rs3).toNat)
    if fpCompares op then c.wg rd (if v.isZero then 0 else 1) else c.wf rd (BitVec.ofNat 64 (fp64.ieee rnd v))

/-! ### Scalar conversions (07 R158) -/

/-- The source of a conversion. -/
def Core.cvtSource (c : Core) (fmt : Nat) (r : RegId) : Num :=
  decodeFmt fmt 0 ((if isIntFmt fmt then c.rg r else c.rf r).toNat % 2 ^ (8 * fmtBytes fmt))

/-- The destination register after a conversion. -/
def Core.cvtDest (c : Core) (fmt : Nat) (r : RegId) (code : Nat) : Core :=
  if isIntFmt fmt then c.wg r (extendTo true (fmtBytes fmt) code) else c.wf r (BitVec.ofNat 64 code)

/-- CVT: SCALE 1.0 and FXP 0 on both sides; LOAD_PROGRAM admits no reserved RND or format (07 R154, R158). -/
def execCvt (t : TileId) (cvc : BitVec 4) (fmtD fmtS : BitVec 4) (rd rs1 : RegId) (s : State) : Host.Outcome State Fault Refusal :=
  coreInstr "CVT" (.cvt t cvc fmtD fmtS rd rs1) t s fun s =>
    let c := s.core t
    let r := convertFmt fmtD.toNat 0 (cvcOf cvc.toNat) 0 (isIntFmt fmtS.toNat) (c.cvtSource fmtS.toNat rs1)
    (s.modTile t fun y => y.countAll fmtD.toNat [r]).retire t fun c => c.cvtDest fmtD.toNat rd r.1

end Sys2Proof.Machine
end

