-- ==== Sys2Proof/Machine/SolveArith.lean ====
section
/-!
DEFINITION. Sys2Proof/Machine/SolveArith.lean: arithmetic of the solve engine: solver fixed point, factorisation, triangular solves,
residuals and the refinement loop (05 R107 to R111, R125 to R127; 06 R138 to R140, R146, R147).
-/
namespace Sys2Proof.Machine

/-! ### Solver fixed point (05 R107 to R110): an integer n stands for n * 2^-56 -/

/-- a / 2^k rounded to nearest even. -/
def roundShift (a : Int) (k : Nat) : Int :=
  let q : Int := roundQuot .rne a.natAbs (2 ^ k)
  if a < 0 then -q else q

/-- The quotient of two fixed-point numbers, rounded to nearest even. -/
def fxQuot (a b : Int) : Int :=
  let q : Int := roundQuot .rne (a.natAbs * 2 ^ 56) b.natAbs
  if decide (a < 0) = decide (b < 0) then q else -q

/-- The magnitude is below 128 (05 R127, 06 R140). -/
def fxOk (a : Int) : Bool := decide (a.natAbs < 2 ^ 63)

/-- A finite value that enters the engine: x * 2^-shift rounded to a multiple of 2^-56 (05 R109). -/
def toFx (x : Num) (shift : Int) : Int :=
  match x with
  | .fin s n d e =>
    let q : Int := roundUnits .rne n d (e - shift + 56)
    if s then -q else q
  | _ => 0

/-- A value that leaves the engine: n * 2^shift as FP64, and whether it saturated (05 R109). -/
def fromFx (n : Int) (shift : Int) : Nat × Bool :=
  let r := fp64.convert .rne false (Num.ofInt n (shift - 56))
  (r.1, decide (r.2 = .range))

/-- A value is finite with magnitude at most 2^e (05 R108). -/
def inDeclared (x : Num) (e : Int) : Bool := x.isFin && !(Num.fin false 1 1 e).lt x.abs

/-- A value is finite with magnitude below 2^e (05 R122 item 9). -/
def belowDeclared (x : Num) (e : Int) : Bool := x.isFin && x.abs.lt (Num.fin false 1 1 e)

/-! ### Sparse matrices -/

/-- Entries of a matrix by (row, column); an entry that is not listed is zero. -/
abbrev Entries := List ((Nat × Nat) × Int)

def entGet (m : Entries) (i j : Nat) : Int :=
  ((m.find? fun (x : (Nat × Nat) × Int) => decide (x.1 = (i, j))).map (·.2)).getD 0

def entPut (m : Entries) (i j : Nat) (v : Int) : Entries :=
  ((i, j), v) :: m.filter fun (x : (Nat × Nat) × Int) => !decide (x.1 = (i, j))

def sumInt (l : List Int) : Int := l.foldl (· + ·) 0

/-- Row and column of each stored entry, in entry order (05 R112). -/
def patEntries (b : List Byte) (h : PatHead) : List (Nat × Nat) :=
  (List.range h.n).flatMap fun i => (patCols b h i).map fun j => (i, j)

/-- The scaled matrix as stored, from the value array. -/
def stored (b : List Byte) (h : PatHead) (vals : List Int) : Entries := (patEntries b h).zip vals

/-- The matrix whose system is solved: for FACT = 1 with the entries that the stored triangle stands for, for an adjoint
transposed (05 R112; 06 R139, R146). -/
def fullEntries (sym transposed : Bool) (m : Entries) : Entries :=
  m.flatMap fun (x : (Nat × Nat) × Int) =>
    if sym then (if x.1.1 = x.1.2 then [x] else [x, ((x.1.2, x.1.1), x.2)])
    else if transposed then [((x.1.2, x.1.1), x.2)] else [x]

/-! ### Factorisation (05 R110, R125 to R127) -/

/-- A factorisation at work: entries after the updates of earlier supernodes, L, U with its pivots (D for FACT = 1), for FACT = 1
the columns before their division, replacement count, replaced columns, and whether a range was exceeded. -/
structure Elim where
  w    : Entries
  l    : Entries
  u    : Entries
  c    : Entries
  nreg : Half
  piv  : List Nat
  stop : Bool
  deriving DecidableEq, Repr

/-- The second operand of the update that pivot k makes to column j (05 R110). -/
def Elim.opnd (e : Elim) (sym : Bool) (k j : Nat) : Int := if sym then entGet e.c j k else entGet e.u k j

/-- The four signed digits of an operand of an offloaded update, lowest first (05 R129). -/
def fxDigits (n : Int) : List Int :=
  let low (m : Int) : Int := signedOf 18 (codeOf 18 m)
  let up (m : Int) : Int := (m - low m) / 2 ^ 18
  [low n, low (up n), low (up (up n)), up (up (up n))]

/-- What the FX18 MOPs of a digit pair give for one entry (05 R129). -/
def digitPair (xs : List (Int × Int)) (a b : Nat) : Int :=
  sumInt (xs.map fun (x : Int × Int) => (fxDigits x.1).getD a 0 * (fxDigits x.2).getD b 0)

/-- The engine's recombination of the sixteen digit pairs (05 R129). -/
def offloadSum (xs : List (Int × Int)) : Int :=
  sumInt ((List.range 16).map fun i => digitPair xs (i / 4) (i % 4) * 2 ^ (18 * (i / 4 + i % 4)))

/-- An entry after the updates of some pivots, summed exactly, in the engine or by way of the arrays, and rounded once. -/
def Elim.updated (e : Elim) (sym off : Bool) (ks : List Nat) (i j : Nat) : Int :=
  let xs := ks.map fun k => (entGet e.l i k, e.opnd sym k j)
  let sum := if off then offloadSum xs else sumInt (xs.map fun (x : Int × Int) => x.1 * x.2)
  roundShift (entGet e.w i j * 2 ^ 56 - sum) 56

/-- A step that exceeds the range stores nothing and stops the factorisation. -/
def Elim.store (e : Elim) (v : Int) (f : Elim → Elim) : Elim := if e.stop then e else if fxOk v then f e else { e with stop := true }

/-- The updates that one earlier supernode makes to entries of a supernode. -/
def Elim.applyNode (e : Elim) (sym off : Bool) (ks : List Nat) (at_ : List (Nat × Nat)) : Elim :=
  at_.foldl (fun e x =>
    let v := e.updated sym off ks x.1 x.2
    e.store v fun e => { e with w := entPut e.w x.1 x.2 v }) e

/-- The regularisation threshold of column j, in quanta (05 R126). -/
def threshold (cj tau : Nat) : Nat := if cj = 0 then 2 ^ (56 - tau) else ceilDiv cj (2 ^ tau)

/-- A pivot after regularisation, and whether it was replaced. -/
def regularise (p : Int) (t : Nat) : Int × Bool :=
  if t ≤ p.natAbs ∧ p ≠ 0 then (p, false) else (if p < 0 then -(t : Int) else t, true)

/-- The largest magnitude in column j, for FACT = 1 in row and column j. -/
def colMax (sym : Bool) (m : Entries) (j : Nat) : Nat :=
  m.foldl (fun a (x : (Nat × Nat) × Int) => if x.1.2 = j ∨ (sym = true ∧ x.1.1 = j) then max a x.2.natAbs else a) 0

/-- The pivot of column j, after the pivots `ks` of its own supernode. -/
def Elim.pivot (e : Elim) (sym : Bool) (a : Entries) (tau : Nat) (ks : List Nat) (j : Nat) : Elim :=
  let v := e.updated sym false ks j j
  e.store v fun e =>
    let r := regularise v (threshold (colMax sym a j) tau)
    let e := if r.2 then { e with nreg := satAdd e.nreg 1, piv := if e.piv.length < 16 then e.piv ++ [j] else e.piv } else e
    e.store r.1 fun e => { e with u := entPut e.u j j r.1 }

/-- Column j of L, and for FACT = 0 row j of U, at the columns `is` that are eliminated later. -/
def Elim.column (e : Elim) (sym : Bool) (ks : List Nat) (j : Nat) (is : List Nat) : Elim :=
  is.foldl (fun e i =>
    let c := e.updated sym false ks i j
    let e := e.store c fun e => if sym then { e with c := entPut e.c i j c } else e
    let l := fxQuot c (entGet e.u j j)
    let e := e.store l fun e => { e with l := entPut e.l i j l }
    if sym then e else
    let u := e.updated sym false ks j i
    e.store u fun e => { e with u := entPut e.u j i u }) e

/-- The members of a list with those before and those after each. -/
def around : List Nat → List Nat → List (List Nat × Nat × List Nat)
  | _, [] => []
  | before, x :: r => (before, x, r) :: around (before ++ [x]) r

/-- Entries that a supernode holds: in its columns (FACT = 1: on or below the diagonal), and for FACT = 0 in its rows. -/
def nodeEntries (sym : Bool) (node rest : List Nat) : List (Nat × Nat) :=
  (around [] node).flatMap fun (x : List Nat × Nat × List Nat) =>
    (x.2.1, x.2.1) :: (x.2.2 ++ rest).flatMap fun i => if sym then [(i, x.2.1)] else [(i, x.2.1), (x.2.1, i)]

/-- Entries of L and of U (FACT = 1: of L) that a factorisation stores, by row and column (05 R125, log 21). -/
abbrev FactorPlaces := List (Nat × Nat × Bool)

/-- Rows and columns of the block of supernode `node` that the columns `ks` update: those with a factor entry in `ks` (05 R128, log 80). -/
def updateSize (sym : Bool) (fs : FactorPlaces) (ks node rest : List Nat) : Nat × Nat :=
  let inL (i : Nat) : Bool := fs.any fun (x : Nat × Nat × Bool) => x.2.2 && decide (x.1 = i) && ks.contains x.2.1
  let inU (j : Nat) : Bool := fs.any fun (x : Nat × Nat × Bool) => !x.2.2 && decide (x.2.1 = j) && ks.contains x.1
  (((node ++ rest).filter inL).length, (node.filter fun j => if sym then inL j else inU j).length)

/-- The engine hands an update to the arrays (05 R128). -/
def offloads (offl : Nat) (size : Nat × Nat) : Bool := decide (0 < offl) && decide (256 < size.1) && decide (256 < size.2)

/-- One supernode: the updates due to it from each earlier one in schedule order, its diagonal block, its off-diagonal columns. -/
def Elim.node (e : Elim) (sym : Bool) (offl : Nat) (fs : FactorPlaces) (a : Entries) (tau : Nat) (earlier : List (List Nat))
    (node rest : List Nat) : Elim :=
  let e := earlier.foldl (fun e ks =>
    e.applyNode sym (offloads offl (updateSize sym fs ks node rest)) ks (nodeEntries sym node rest)) e
  let e := (around [] node).foldl (fun e (x : List Nat × Nat × List Nat) =>
    (e.pivot sym a tau x.1 x.2.1).column sym x.1 x.2.1 x.2.2) e
  (around [] node).foldl (fun e (x : List Nat × Nat × List Nat) => e.column sym x.1 x.2.1 rest) e

/-- The supernodes in forward-schedule order. -/
def Elim.nodes (sym : Bool) (offl : Nat) (fs : FactorPlaces) (a : Entries) (tau : Nat) : List (List Nat) → List (List Nat) → Elim → Elim
  | _, [], e => e
  | earlier, x :: r, e => Elim.nodes sym offl fs a tau (earlier ++ [x]) r (e.node sym offl fs a tau earlier x r.flatten)

/-- Sizes of the updates of a factorisation, in its order. -/
def updateSizes (sym : Bool) (fs : FactorPlaces) : List (List Nat) → List (List Nat) → List (Nat × Nat)
  | _, [] => []
  | earlier, x :: r => (earlier.map fun ks => updateSize sym fs ks x r.flatten) ++ updateSizes sym fs (earlier ++ [x]) r

/-- Offload tiles that a factorisation uses: its 96-column blocks go to the tiles in turn, from position 0 on (05 R128). -/
def tilesUsed (offl : Nat) (sizes : List (Nat × Nat)) : Nat :=
  ((sizes.filter (offloads offl)).map fun (x : Nat × Nat) => min (ceilDiv x.2 96) offl).foldl max 0

/-- A factorisation from the value array. -/
def factorise (sym : Bool) (offl : Nat) (fs : FactorPlaces) (nodes : List (List Nat)) (tau : Nat) (a : Entries) : Elim :=
  Elim.nodes sym offl fs a tau [] nodes
    { w := fullEntries sym false a, l := [], u := [], c := [], nreg := 0, piv := [], stop := false }

/-- The factor that a factorisation leaves. -/
def Elim.factor (e : Elim) (nodes : List (List Nat)) : Factor :=
  { st := if e.stop then .range else .valid, order := nodes.flatten, l := e.l, u := e.u }

/-! ### Triangular solves (05 R110; 06 R138, R146) -/

/-- One element after another: the right-hand side less the products with the elements solved so far, rounded once, then divided
by the pivot where there is one. None when a range is exceeded (06 R140). -/
def sweep (coef : Nat → Nat → Int) (diag : Option (Nat → Int)) : List Nat → List Nat → List Int → Option (List Int)
  | _, [], x => some x
  | done, i :: r, x =>
    let v := roundShift ((x[i]?.getD 0) * 2 ^ 56 - sumInt (done.map fun k => coef i k * (x[k]?.getD 0))) 56
    if !fxOk v then none else
    let q := match diag with
      | none => v
      | some d => fxQuot v (d i)
    if !fxOk q then none else sweep coef diag (done ++ [i]) r (x.set i q)

/-- Division of every element by its pivot. -/
def divide (d : Nat → Int) (order : List Nat) (x : List Int) : Option (List Int) := sweep (fun _ _ => 0) (some d) [] order x

/-- F d = r, or its transpose. -/
def Factor.solve (f : Factor) (sym transposed : Bool) (r : List Int) : Option (List Int) :=
  let d (i : Nat) : Int := entGet f.u i i
  if sym then
    ((sweep (fun i k => entGet f.l i k) none [] f.order r).bind (divide d f.order)).bind
      (sweep (fun i k => entGet f.l k i) none [] f.order.reverse)
  else if transposed then
    (sweep (fun i k => entGet f.u k i) (some d) [] f.order r).bind (sweep (fun i k => entGet f.l k i) none [] f.order.reverse)
  else
    (sweep (fun i k => entGet f.l i k) none [] f.order r).bind
      (sweep (fun i k => entGet f.u i k) (some d) [] f.order.reverse)

/-! ### Residuals and norms (05 R111; 06 R139) -/

/-- The largest magnitude of a vector. -/
def normInf (v : List Int) : Nat := v.foldl (fun a x => max a x.natAbs) 0

/-- The largest sum of magnitudes in a row. -/
def normRows (n : Nat) (m : Entries) : Nat :=
  (List.range n).foldl (fun a i => max a ((m.filter fun (x : (Nat × Nat) × Int) => decide (x.1.1 = i)).foldl
    (fun t (x : (Nat × Nat) × Int) => t + x.2.natAbs) 0)) 0

/-- b - A x in units of 2^-104, each product rounded to that unit. -/
def residual (m : Entries) (b x : List Int) : List Int :=
  b.zipIdx.map fun (y : Int × Nat) =>
    y.1 * 2 ^ 48 - sumInt ((m.filter fun (z : (Nat × Nat) × Int) => decide (z.1.1 = y.2)).map fun (z : (Nat × Nat) × Int) =>
      roundShift (z.2 * (x[z.1.2]?.getD 0)) 8)

/-! ### The refinement loop (06 R138, R140) -/

/-- How a loop ended. -/
inductive LoopStatus where
  | converged | cap | diverging | range
  deriving DecidableEq, Repr

/-- Result of a loop: status, corrections made, the iterate returned and the norm of its residual. -/
structure LoopEnd where
  st : LoopStatus
  k  : Nat
  x  : List Int
  r  : Nat
  deriving DecidableEq, Repr

/-- The system a loop works on. -/
structure System where
  m    : Entries
  norm : Nat
  b    : List Int
  tole : Nat
  sym  : Bool
  tr   : Bool
  f    : Factor
  deriving DecidableEq, Repr

/-- Right side of the stopping test in units of 2^-(112 + TOLE). -/
def System.bound (y : System) (x : List Int) : Nat := y.norm * normInf x + normInf y.b * 2 ^ 56

/-- The largest exponent in -18 to 48 that brings a norm below 64. -/
def sigmaOf (r : Nat) : Int :=
  match (List.range 67).find? fun (i : Nat) => decide (r * 2 ^ (48 - i) < 2 ^ 110 * 2 ^ (i - 48)) with
  | some i => 48 - (i : Int)
  | none => -18

/-- r * 2^σ rounded to a multiple of 2^-56, from units of 2^-104. -/
def scaleResidual (r : List Int) (σ : Int) : List Int := r.map fun v => roundShift (v * 2 ^ σ.toNat) (48 + (-σ).toNat)

/-- x + d * 2^-σ, rounded; none when a range is exceeded. -/
def correct (x d : List Int) (σ : Int) : Option (List Int) :=
  let y := (x.zip d).map fun (p : Int × Int) => roundShift (p.1 * 2 ^ σ.toNat + p.2 * 2 ^ (-σ).toNat) σ.toNat
  if y.all fxOk then some y else none

/-- The earlier of two iterates with the smaller residual. -/
def better (best : Option (Nat × List Int)) (r : Nat) (x : List Int) : Nat × List Int :=
  match best with
  | none => (r, x)
  | some b => if r < b.1 then (r, x) else b

/-- The loop: corrections still allowed, corrections made, iterate, norms of the last two residuals, best iterate. -/
def System.refine (y : System) : Nat → Nat → List Int → Option Nat → Option Nat → Option (Nat × List Int) → LoopEnd
  | fuel, k, x, r1, r2, best =>
    let r := residual y.m y.b x
    let n := normInf r
    let best := better best n x
    if n * 2 ^ 8 * 2 ^ y.tole ≤ y.bound x then { st := .converged, k := k, x := x, r := n }
    else if (match r1, r2 with | some a, some b => decide (a < n) && decide (b < a) | _, _ => false) then
      { st := .diverging, k := k, x := best.2, r := best.1 }
    else
      match fuel with
      | 0 => { st := .cap, k := k, x := best.2, r := best.1 }
      | fuel + 1 =>
        let σ := sigmaOf n
        match (y.f.solve y.sym y.tr (scaleResidual r σ)).bind fun d => correct x d σ with
        | none => { st := .range, k := k, x := x, r := n }
        | some x' => y.refine fuel (k + 1) x' (some n) r1 (some best)

/-! ### Entry gradient (06 R147) -/

/-- The gradient of one entry and whether it saturated: from λ as written and x as read. An exactly zero sum of two
terms is +0, as R35 has it for an accumulation; a zero product keeps its sign (log 46). -/
def gradEntry (sym : Bool) (lam x : Nat → Num) (i j : Nat) : Nat × Bool :=
  let t := ((lam i).mul (x j)).neg
  let t := if sym && !decide (i = j) then t.acc ((lam j).mul (x i)).neg else t
  let r := fp64.convert .rne false t
  (r.1, decide (r.2 = .range))

end Sys2Proof.Machine
end

