-- ==== Sys2Proof/Machine/SolveCmds.lean ====
section
/-!
DEFINITION. Sys2Proof/Machine/SolveCmds.lean: solve commands at the head of their queues: checks, deltas, the factor decision, the
refinement loop, outputs, warm records and completion records (05 R120 to R131; 06 R134 to R150).
-/
namespace Sys2Proof.Machine

/-! ### The record (05 R120) -/

def rOp (r : BitVec 512) : Nat := bits (wordOf r 0) 63 60
def rFrc (r : BitVec 512) : Bool := bit (wordOf r 0) 50
def rX0 (r : BitVec 512) : Bool := bit (wordOf r 0) 49
def rCap (r : BitVec 512) : Nat := bits (wordOf r 0) 47 40
def rTole (r : BitVec 512) : Nat := bits (wordOf r 0) 39 32
def rNdelta (r : BitVec 512) : Nat := bits (wordOf r 0) 31 0
def rDelta (r : BitVec 512) : Nat := (wordOf r 1).toNat
def rRhs (r : BitVec 512) : Nat := (wordOf r 2).toNat
def rSol (r : BitVec 512) : Nat := (wordOf r 3).toNat
def rX0Addr (r : BitVec 512) : Nat := (wordOf r 4).toNat
def rGrad (r : BitVec 512) : Nat := (wordOf r 5).toNat
def rStat (r : BitVec 512) : Nat := (wordOf r 6).toNat

/-- The operation is an adjoint solve. -/
def rAdj (r : BitVec 512) : Bool := decide (rOp r = 2)

/-- The adjoint writes an entry gradient. -/
def rGradOn (r : BitVec 512) : Bool := rAdj r && decide (rGrad r ≠ 0)

/-- The operation reads a vector at X0_ADDR (05 R120, 06 R145). -/
def rUsesX0 (r : BitVec 512) : Bool := if rAdj r then rGradOn r else rX0 r

/-- A field is not allowed (05 R122 item 1). -/
def solveFieldBad (r : BitVec 512) (nnz : Nat) : Bool :=
  bit (wordOf r 0) 48 || decide (bits (wordOf r 7) 31 0 ≠ 0) || !decide (rOp r = 1 ∨ rOp r = 2) || decide (rCap r = 0) ||
    decide (rTole r = 0) || decide (104 < rTole r) || decide (nnz < rNdelta r) ||
    (rAdj r && (decide (rNdelta r ≠ 0) || rFrc r || rX0 r)) ||
    (decide (rNdelta r = 0) && decide (rDelta r ≠ 0)) || (!rUsesX0 r && decide (rX0Addr r ≠ 0)) ||
    (!rAdj r && decide (rGrad r ≠ 0))

/-- The host descriptor of the command is not allowed: a reserved header bit, or an OP that differs from OPC (16 R363, R367). -/
def State.solveHeadBad (s : State) (q : QSolve) : Bool :=
  match q.issuer with
  | .tile _ => false
  | .host n cid =>
    match s.findCmd n cid with
    | none => false
    | some c => headBad c.desc || decide (bits (dw c.desc 0) 63 56 ≠ 0x1F + rOp q.record)

/-- Regions of a command: address, length, alignment, whether the command writes it. -/
def solveRegions (r : BitVec 512) (h : PatHead) : List (Nat × Nat × Nat × Bool) :=
  [(rDelta r, 16 * rNdelta r, 16, false), (rRhs r, 8 * h.n, 8, false), (rSol r, 8 * h.n, 8, true),
   (rX0Addr r, if rUsesX0 r then 8 * h.n else 0, 8, false), (rGrad r, if rGradOn r then 16 * h.nnzA else 0, 16, true),
   (rStat r, 64, 64, true)].filter fun (x : Nat × Nat × Nat × Bool) => decide (x.2.1 ≠ 0)

/-- An output region overlaps another region of the command. -/
def outputOverlap : List (Nat × Nat × Nat × Bool) → Bool
  | [] => false
  | x :: r => (r.any fun (y : Nat × Nat × Nat × Bool) =>
      (x.2.2.2 || y.2.2.2) && decide (x.1 < y.1 + y.2.1) && decide (y.1 < x.1 + x.2.1)) || outputOverlap r

/-- Items 1 to 6 of 05 R122, then the fence of 18 R418. -/
def State.solveCheck (s : State) (e : EngId) (c : ChanId) (a : ChanAlloc) (q : QSolve) : Check :=
  let h := patHead a.pattern
  let rs := solveRegions q.record h
  firstFail
    [ (solveFieldBad q.record h.nnzA || s.solveHeadBad q, eField),
      (bit (s.engine e).chanRet c.val, eRetired),
      (a.hostOwn != (match q.issuer with | .tile _ => false | .host _ _ => true), eBusy),
      (rs.any fun (x : Nat × Nat × Nat × Bool) => decide (x.1 % x.2.2.1 ≠ 0), eAlign),
      ((rs.any fun (x : Nat × Nat × Nat × Bool) => !(s.part a.pid).inSilo x.1 x.2.1) || outputOverlap rs, eRange),
      (rs.any fun (x : Nat × Nat × Nat × Bool) => s.siloFenced a.pid x.1 x.2.1, eRetired) ]

/-! ### Inputs (05 R121, R122 items 7 to 9; 06 R145) -/

/-- FP64 values in the silo, by code and by value. -/
def State.siloCodes (s : State) (p : Pid) (a n : Nat) : List Nat := (List.range n).map fun i => s.siloLe p (a + 8 * i) 8

def State.siloNums (s : State) (p : Pid) (a n : Nat) : List Num := (s.siloCodes p a n).map fp64.decode

/-- A delta: entry index, reserved bytes, value. -/
def State.deltas (s : State) (p : Pid) (r : BitVec 512) : List (Nat × Nat × Num) :=
  (List.range (rNdelta r)).map fun i =>
    let o := rDelta r + 16 * i
    (s.siloLe p o 4, s.siloLe p (o + 4) 4, fp64.decode (s.siloLe p (o + 8) 8))

/-- Exponent of entry k's declared range. -/
def entryExp (b : List Byte) (h : PatHead) (k : Nat) : Int :=
  match (patEntries b h)[k]? with
  | none => 0
  | some x => patExpR b h x.1 + patExpC b h x.2

/-- Row exponents, exchanged with the column exponents for an adjoint. -/
def rhsExp (b : List Byte) (h : PatHead) (adj : Bool) (i : Nat) : Int := (if adj then patExpC b h i else patExpR b h i) + h.ex

/-- Exponent that takes a scaled solution element back (05 R109, 06 R146). -/
def solExp (b : List Byte) (h : PatHead) (adj : Bool) (j : Nat) : Int := h.ex - (if adj then patExpR b h j else patExpC b h j)

/-- Why the inputs do not pass: a code, or the silo address of a sector that cannot be read. -/
inductive InputFault where
  | code (c : BitVec 16)
  | unreadable (addr : Nat)
  deriving DecidableEq, Repr

/-- The first of several tests that fails. -/
def firstFault (l : List (Option InputFault)) : Option InputFault := l.findSome? id

def faultIf (b : Bool) (c : BitVec 16) : Option InputFault := if b then some (.code c) else none

/-- A value of a vector fails a test that depends on its place. -/
def anyBad (l : List Num) (f : Num → Nat → Bool) : Bool := l.zipIdx.any fun (x : Num × Nat) => !f x.1 x.2

/-- Items 7 to 9 of 05 R122 and the further checks of 06 R145, each after its input was read. -/
def State.inputFault (s : State) (a : ChanAlloc) (st : FactorState) (r : BitVec 512) : Option InputFault :=
  let p := a.pid
  let b := a.pattern
  let h := patHead b
  let ds := s.deltas p r
  let adj := rAdj r
  let unread (x n : Nat) : Option InputFault := (s.siloBadAt p x n).map .unreadable
  firstFault
    [ unread (rDelta r) (16 * rNdelta r),
      faultIf ((ds.any fun (d : Nat × Nat × Num) => decide (d.2.1 ≠ 0) || decide (h.nnzA ≤ d.1)) ||
        !rising (ds.map fun (d : Nat × Nat × Num) => d.1)) eField,
      faultIf (ds.any fun (d : Nat × Nat × Num) => !inDeclared d.2.2 (entryExp b h d.1)) eRange,
      unread (rRhs r) (8 * h.n),
      faultIf (anyBad (s.siloNums p (rRhs r) h.n) fun x i => inDeclared x (rhsExp b h adj i)) eRange,
      if rUsesX0 r then unread (rX0Addr r) (8 * h.n) else none,
      faultIf (!adj && rX0 r &&
        anyBad (s.siloNums p (rX0Addr r) h.n) fun x j => belowDeclared x (solExp b h false j + 7)) eRange,
      faultIf (adj && decide (st = .none ∨ st = .broken)) eBusy,
      faultIf (adj && rUsesX0 r && anyBad (s.siloNums p (rX0Addr r) h.n) fun x _ => x.isFin) eRange ]

/-! ### The end of a command -/

/-- The command leaves its queue and the next one comes to the head (05 R124). -/
def State.popSolve (s : State) (e : EngId) (c : ChanId) (now : Nat) : State :=
  let s := s.modChan e c fun x =>
    { x with queue := x.queue.tail, run := none, tStart := if x.queue.tail.isEmpty then none else some now }
  s.modEngine e fun x => { x with running := none, held := none }

/-- The command fails with a code: its record, its completion, nothing else (05 R122, 06 R141). -/
def State.failSolve (s : State) (e : EngId) (c : ChanId) (a : ChanAlloc) (q : QSolve) (code : BitVec 16) : State :=
  let t0 := (s.chan e c).tStart.getD s.now
  let stat := rStat q.record
  let s := s.finishSolve a.pid q (failRecord code q.tag t0 s.now) code 0 0 (!s.siloFenced a.pid stat 64)
  s.popSolve e c s.now

def State.failUnread (s : State) (e : EngId) (c : ChanId) (a : ChanAlloc) (q : QSolve) (addr : Nat) : State :=
  (s.raiseUncorrectable (some a.pid) ((s.part a.pid).devAddr addr)).failSolve e c a q eMemUncorrectable

/-! ### Values, factor and start (05 R123; 06 R135 to R137) -/

/-- One value of the value array is replaced; a sector that cannot be read takes no partial write (09 R227). -/
def State.applyDelta (s : State) (a : ChanAlloc) (d : Nat × Nat × Num) : State :=
  let at_ := a.valAddr + 8 * d.1
  if s.partialBad a.pid at_ 8 then s
  else s.siloWrite a.pid at_ (leBytes 8 (codeOf 64 (toFx d.2.2 (entryExp a.pattern (patHead a.pattern) d.1))))

/-- The value array. -/
def State.chanValues (s : State) (a : ChanAlloc) : List Int :=
  (List.range (patHead a.pattern).nnzA).map fun k => signedOf 64 (s.siloLe a.pid (a.valAddr + 8 * k) 8)

/-- A factorisation is due at stage 2 of a forward command (06 R135). -/
def Channel.factorDue (c : Channel) (a : ChanAlloc) (r : BitVec 512) : Bool :=
  decide (c.factor.st = .none) || rFrc r || decide (c.factor.st = .broken) || decide (a.refresh ≤ c.age)

/-- Device numbers of the offload tiles (05 R128). -/
def State.offloadTiles (s : State) (a : ChanAlloc) : List Nat :=
  match s.prog a.pid a.slot with
  | none => []
  | some x => ((x.tiles.drop (a.lse * x.t)).take (patHead a.pattern).offl).map fun t => t.val

/-- The factor's entries in the order of the factor region (05 R125, log 21). -/
def factorPlaces (b : List Byte) : FactorPlaces := (Config.factorOrder b).take (patHead b).nnzF

/-- Tiles that the offloaded updates of a factorisation use (05 R128). -/
def State.offloadUsed (s : State) (a : ChanAlloc) : List Nat :=
  let h := patHead a.pattern
  (s.offloadTiles a).take (tilesUsed h.offl
    (updateSizes (decide (h.fact = 1)) (factorPlaces a.pattern) [] (Config.schedule a.pattern)))

/-- What offloaded updates leave in the offload regions of the tiles they use, digits and products in an arrangement that the manual
does not give: free bytes (05 R129, log 2). -/
def State.spoilOffload (s : State) (a : ChanAlloc) : State :=
  let h := patHead a.pattern
  (allTiles.filter fun t => (s.offloadUsed a).contains t.val).foldl (fun s t =>
    (s.storeWrite t (4096 * (h.offBase / 4096)) (s.freeBytes h.offSize)).skipFree h.offSize) s

/-- Entries of a factor in the order in which they are written to the factor region (05 R125, log 21). -/
def factorBytes (b : List Byte) (f : Factor) : List Byte :=
  (factorPlaces b).flatMap fun (x : Nat × Nat × Bool) =>
    leBytes 8 (codeOf 64 (if x.2.2 then entGet f.l x.1 x.2.1 else entGet f.u x.1 x.2.1))

/-- Everything that a factorisation depends on (05 R118): pattern image, TAU, values. -/
def State.factorInputs (s : State) (a : ChanAlloc) : List Byte :=
  a.pattern ++ leBytes 1 a.tau ++ s.siloBytes a.pid a.valAddr (8 * (patHead a.pattern).nnzA)

/-- Stage 2 when a factorisation is due: the factor with its pivot record, AGE 1, the factor region; a factorisation that stops
leaves the region's contents open (05 R125 to R127, log 2). -/
def State.factorChan (s : State) (e : EngId) (c : ChanId) (a : ChanAlloc) : State :=
  let h := patHead a.pattern
  let nodes := Config.schedule a.pattern
  let r := factorise (decide (h.fact = 1)) h.offl (factorPlaces a.pattern) nodes a.tau (stored a.pattern h (s.chanValues a))
  let s := if h.offl = 0 then s else s.spoilOffload a
  let s := if r.stop then s.siloWrite a.pid a.facAddr
      ((List.range (8 * h.nnzF)).map (Config.stoppedFactor (s.factorInputs a)))
    else s.siloWrite a.pid a.facAddr (factorBytes a.pattern (r.factor nodes))
  s.modChan e c fun x => { x with factor := r.factor nodes, nreg := r.nreg, pivots := r.piv, age := 1 }

/-- A factorisation whose values cannot be read leaves the factor invalid (06 R135). -/
def State.breakFactor (s : State) (e : EngId) (c : ChanId) : State :=
  s.modChan e c fun x => { x with factor := { x.factor with st := .broken }, nreg := 0, pivots := [], age := 1 }

/-- How a warm channel starts (06 R136, R137). -/
inductive Start where
  | given | cold | warm | mismatch
  deriving DecidableEq, Repr

def Channel.start (c : Channel) (ch : ChanId) (a : ChanAlloc) (r : BitVec 512) : Start :=
  if rAdj r then .cold
  else if rX0 r then .given
  else if 4 ≤ ch.val ∨ !c.wvalid then .cold
  else if c.wprint = a.fprint ∧ c.waddr = a.lastAdr then .warm
  else .mismatch

/-- The starting vector. -/
def State.startVector (s : State) (a : ChanAlloc) (r : BitVec 512) (st : Start) : List Int :=
  let h := patHead a.pattern
  match st with
  | .given => ((s.siloNums a.pid (rX0Addr r) h.n).zipIdx).map fun (x : Num × Nat) => toFx x.1 (solExp a.pattern h false x.2)
  | .warm => (s.siloCodes a.pid a.lastAdr h.n).map fun n => signedOf 64 n
  | _ => List.replicate h.n 0

/-- A mismatch is counted and raised as WARM_MISMATCH (06 R137, 18 R421). -/
def State.warmMismatch (s : State) (e : EngId) (c : ChanId) (a : ChanAlloc) : State :=
  let s := s.modChan e c fun x => { x with wmcnt := satAdd x.wmcnt 1 }
  s.raiseFn 0x0110 a.pid (a.lch + a.lse * 2 ^ 8) (s.chan e c).wmcnt.toNat

/-! ### The loop and its outputs (06 R138, R142 to R147) -/

/-- The system of a command, from the values and the factor in effect. -/
def State.solveSystem (s : State) (e : EngId) (c : ChanId) (a : ChanAlloc) (r : BitVec 512) : System :=
  let h := patHead a.pattern
  let sym := decide (h.fact = 1)
  let m := fullEntries sym (rAdj r) (stored a.pattern h (s.chanValues a))
  { m := m, norm := normRows h.n m
    b := ((s.siloNums a.pid (rRhs r) h.n).zipIdx).map fun (x : Num × Nat) => toFx x.1 (rhsExp a.pattern h (rAdj r) x.2)
    tole := rTole r, sym := sym, tr := rAdj r, f := (s.chan e c).factor }

/-- STATUS of a completion record (06 R141). -/
def LoopStatus.code : LoopStatus → Nat
  | .converged => 1
  | .cap => 2
  | .diverging => 3
  | .range => 4

/-- Bytes that a command writes, by silo address, with the flags that go with them. -/
structure SolveOut where
  writes : List (Nat × List Byte)
  xsat   : Bool
  gsat   : Bool
  deriving DecidableEq, Repr

/-- Codes of the solution or λ as it leaves the engine. -/
def solutionCodes (b : List Byte) (h : PatHead) (adj : Bool) (x : List Int) : List (Nat × Bool) :=
  x.zipIdx.map fun (y : Int × Nat) => fromFx y.1 (solExp b h adj y.2)

/-- The entry gradient as a delta list. -/
def gradient (b : List Byte) (h : PatHead) (lam x : List Num) : List (Nat × Bool) :=
  (patEntries b h).map fun (ij : Nat × Nat) =>
    gradEntry (decide (h.fact = 1)) (fun i => lam[i]?.getD Num.zero) (fun i => x[i]?.getD Num.zero) ij.1 ij.2

/-- Outputs of a loop that returned an iterate. -/
def State.solveOut (s : State) (a : ChanAlloc) (c : ChanId) (r : BitVec 512) (x : List Int) : SolveOut :=
  let b := a.pattern
  let h := patHead b
  let xs := solutionCodes b h (rAdj r) x
  let sol := (rSol r, xs.flatMap fun (y : Nat × Bool) => leBytes 8 y.1)
  let last := (a.lastAdr, x.flatMap fun n => leBytes 8 (codeOf 64 n))
  let gs := if rGradOn r then
      gradient b h (xs.map fun (y : Nat × Bool) => fp64.decode y.1) (s.siloNums a.pid (rX0Addr r) h.n)
    else []
  let grad := (rGrad r, (gs.zipIdx).flatMap fun (g : (Nat × Bool) × Nat) => leBytes 8 g.2 ++ leBytes 8 g.1.1)
  { writes := [sol] ++ (if rAdj r then (if rGradOn r then [grad] else []) else if c.val < 4 then [last] else [])
    xsat := xs.any fun (y : Nat × Bool) => y.2
    gsat := gs.any fun (y : Nat × Bool) => y.2 }

/-- Device addresses and the bytes that a write replaces. -/
def State.oldBytes (s : State) (p : Pid) (w : Nat × List Byte) : List (Nat × Byte) :=
  (List.range w.2.length).map fun i => ((s.part p).devAddr (w.1 + i), Memory.read s.mem ((s.part p).devAddr (w.1 + i)))

/-- Fields of a record that a status goes with. -/
structure Marks where
  solv  : Bool
  factd : Bool
  warm  : Bool
  wmis  : Bool
  res   : Nat
  thr   : Nat
  xsat  : Bool
  gsat  : Bool
  deriving DecidableEq, Repr

/-- The completion record without T_END (06 R142). -/
def okRecord (c : Channel) (r : BitVec 512) (tag t0 st iter : Nat) (m : Marks) : BitVec 512 :=
  let w0 := st * 2 ^ 44 + iter % 256 * 2 ^ 32 + 256 * b2n m.xsat + 128 * b2n m.gsat + 64 * b2n (m.solv && rGradOn r) +
    32 * b2n m.solv + 16 * b2n m.factd + 8 * b2n m.warm + 4 * b2n m.wmis + 2 * b2n (decide (c.nreg ≠ 0)) + 1
  BitVec.ofNat 512 (leNat (leBytes 8 w0 ++ leBytes 4 c.nreg.toNat ++ leBytes 4 tag ++ leBytes 8 m.res ++ leBytes 8 m.thr ++
    leBytes 4 c.wmcnt.toNat ++ leBytes 4 (if rAdj r then 0 else c.age) ++ leBytes 8 t0))

/-- What the channel's factor was in a state, with the region bytes that the command replaces when it factors. -/
def State.factorBefore (s : State) (e : EngId) (c : ChanId) (a : ChanAlloc) (factd : Bool) : FactorBefore :=
  let x := s.chan e c
  { factor := x.factor, nreg := x.nreg, pivots := x.pivots, age := x.age
    region := if factd then s.oldBytes a.pid (a.facAddr, List.replicate (8 * (patHead a.pattern).nnzF) 0) else [] }

/-- The command waits for its end with this record. -/
def State.holdRun (s : State) (e : EngId) (c : ChanId) (q : QSolve) (rec512 : BitVec 512) (undo : List (Nat × Byte))
    (warm : Option (Bool × Word × Nat)) (before : FactorBefore) : State :=
  (s.modChan e c fun x =>
    { x with run := some { cmd := q, record := rec512, undo := undo, warm := warm, before := before } }).modEngine e fun x =>
      { x with running := some c }

/-- Everything that a command's results depend on (05 R118): factorisation inputs, factor, operation, right-hand side, start. -/
def State.solveInputs (s : State) (e : EngId) (c : ChanId) (a : ChanAlloc) (r : BitVec 512) : List Byte :=
  let n := 8 * (patHead a.pattern).n
  s.factorInputs a ++ factorBytes a.pattern (s.chan e c).factor ++ leBytes 8 (wordOf r 0).toNat ++ s.siloBytes a.pid (rRhs r) n ++
    (if rUsesX0 r then s.siloBytes a.pid (rX0Addr r) n else if (s.chan e c).wvalid then s.siloBytes a.pid a.lastAdr n else [])

/-- The command ends in RANGE_EXCEEDED: nothing is written. RES and THR have no iterate to describe: free values of the command's inputs
(13 R306, log 2). -/
def State.rangeRun (s : State) (e : EngId) (c : ChanId) (a : ChanAlloc) (q : QSolve) (iter : Nat) (factd warm wmis : Bool)
    (before : FactorBefore) : State :=
  let x := s.chan e c
  let k := s.solveInputs e c a q.record
  let m : Marks := { solv := false, factd := factd, warm := warm, wmis := wmis, res := (Config.rangeNorm 0 k).toNat,
                     thr := (Config.rangeNorm 1 k).toNat, xsat := false, gsat := false }
  s.holdRun e c q (okRecord x q.record q.tag (x.tStart.getD s.now) 4 iter m) [] none before

/-- A write of a command that a tile issued is a result write of the launch (13 R311). -/
def State.launchWrite (s : State) (p : Pid) (q : QSolve) : State :=
  match q.issuer with
  | .tile _ => s.touchEnd p
  | .host _ _ => s

/-- FP64 code of a norm n * 2^k. -/
def normCode (n : Nat) (k : Int) : Nat := (fp64.convert .rne false (.fin false n 1 k)).1

/-- The loop ends with an iterate: outputs written, warm record set, record held until the end (06 R134, R137). -/
def State.writeRun (s : State) (e : EngId) (c : ChanId) (a : ChanAlloc) (q : QSolve) (y : System) (l : LoopEnd)
    (factd warm wmis : Bool) (before : FactorBefore) : State :=
  let o := s.solveOut a c q.record l.x
  let x := s.chan e c
  let bad := o.writes.findSome? fun (w : Nat × List Byte) => s.partialBadAt a.pid w.1 w.2.length
  match bad with
  | some addr => s.failUnread e c a q addr
  | none =>
    let undo := o.writes.flatMap (s.oldBytes a.pid)
    let s := o.writes.foldl (fun s (w : Nat × List Byte) => s.siloWrite a.pid w.1 w.2) s
    let keep := !rAdj q.record && decide (c.val < 4)
    let s := if keep then s.modChan e c fun z => { z with wvalid := true, wprint := a.fprint, waddr := a.lastAdr } else s
    let m : Marks := { solv := true, factd := factd, warm := warm, wmis := wmis, res := normCode l.r (-104),
                       thr := normCode (y.bound l.x) (-(112 + (y.tole : Int))), xsat := o.xsat, gsat := o.gsat }
    (s.launchWrite a.pid q).holdRun e c q (okRecord x q.record q.tag (x.tStart.getD s.now) l.st.code l.k m) undo
      (if keep then some (x.wvalid, x.wprint, x.waddr) else none) before

/-- Stages 3 to 5. A last solution that cannot be read leaves the channel as the command found it, its deltas aside (06 R150); a
factor that was not computed just now is read from its region. -/
def State.runLoop (s : State) (e : EngId) (c : ChanId) (a : ChanAlloc) (q : QSolve) (factd : Bool) (before : State) : State :=
  let h := patHead a.pattern
  let st := (s.chan e c).start c a q.record
  let wm := decide (st = .warm)
  let mis := decide (st = .mismatch)
  let old := before.factorBefore e c a factd
  match if wm then s.siloBadAt a.pid a.lastAdr (8 * h.n) else none with
  | some addr => before.failUnread e c a q addr
  | none =>
    let s := if mis then s.warmMismatch e c a else s
    match (s.siloBadAt a.pid a.valAddr (8 * h.nnzA)).or (if factd then none else s.siloBadAt a.pid a.facAddr (8 * h.nnzF)) with
    | some addr => s.failUnread e c a q addr
    | none =>
      let y := s.solveSystem e c a q.record
      let l := y.refine (rCap q.record) 0 (s.startVector a q.record st) none none none
      if l.st = .range then s.rangeRun e c a q l.k factd wm mis old
      else s.writeRun e c a q y l factd wm mis old

/-- Stage 2 and what follows (06 R134, R135). A factor region whose last sector can be written only in part and cannot be read ends
the factorisation (09 R227). -/
def State.runForward (s : State) (e : EngId) (c : ChanId) (a : ChanAlloc) (q : QSolve) : State :=
  let h := patHead a.pattern
  let ds := s.deltas a.pid q.record
  let torn := ds.findSome? fun (d : Nat × Nat × Num) => s.partialBadAt a.pid (a.valAddr + 8 * d.1) 8
  let s := ds.foldl (fun s d => s.applyDelta a d) s
  match torn with
  | some addr => s.failUnread e c a q addr
  | none =>
    let before := s
    if (s.chan e c).factorDue a q.record then
      match (s.siloBadAt a.pid a.valAddr (8 * h.nnzA)).or (s.partialBadAt a.pid a.facAddr (8 * h.nnzF)) with
      | some addr => (s.breakFactor e c).failUnread e c a q addr
      | none =>
        let s := s.factorChan e c a
        let s := s.modEngine e fun x =>
          { x with held := if h.offl = 0 then none else some (s.offloadTiles a, 4096 * (h.offBase / 4096), h.offSize) }
        if (s.chan e c).factor.st = .range then s.rangeRun e c a q 0 true false false (before.factorBefore e c a true)
        else s.runLoop e c a q true before
    else
      let s := s.modChan e c fun x => { x with age := x.age + 1 }
      if (s.chan e c).factor.st = .range then s.rangeRun e c a q 0 false false false (before.factorBefore e c a false)
      else s.runLoop e c a q false before

/-- Ranges that a command reads under NORMAL (09 R219). -/
def solveReads (x : Channel) (a : ChanAlloc) (r : BitVec 512) : List (Nat × Nat) :=
  let h := patHead a.pattern
  [(a.valAddr, 8 * h.nnzA), (rRhs r, 8 * h.n)] ++ (if rUsesX0 r then [(rX0Addr r, 8 * h.n)] else []) ++
    (if x.wvalid then [(a.lastAdr, 8 * h.n)] else [])

/-- A checked command runs. -/
def State.runSolve (s : State) (e : EngId) (c : ChanId) (a : ChanAlloc) (q : QSolve) : State :=
  let s := s.readLines a.pid (solveReads (s.chan e c) a q.record)
  if rAdj q.record then
    if (s.chan e c).factor.st = .range then s.rangeRun e c a q 0 false false false (s.factorBefore e c a false)
    else s.runLoop e c a q false s
  else s.runForward e c a q

/-- Silo ranges that a command writes beside its record. -/
def solveTargets (a : ChanAlloc) (c : ChanId) (r : BitVec 512) : List (Nat × Nat) :=
  let h := patHead a.pattern
  let outs := ((solveRegions r h).filter fun (x : Nat × Nat × Nat × Bool) => x.2.2.2).map fun (x : Nat × Nat × Nat × Bool) =>
    (x.1, x.2.1)
  if rAdj r then outs
  else outs ++ [(a.valAddr, 8 * h.nnzA), (a.facAddr, 8 * h.nnzF)] ++ (if c.val < 4 then [(a.lastAdr, 8 * h.n)] else [])

/-! ### The commands -/

/-- The channel whose queue is served next: ascending logical channel, then program slot, after the one just served (05 R124). -/
def Engine.nextChan (x : Engine) : Option (ChanId × ChanAlloc × QSolve) :=
  let from_ := 8 * x.served.1 + x.served.2 + 1
  let waiting := (List.finRange 32).filterMap fun c =>
    match (x.chans[c]).alloc, (x.chans[c]).queue with
    | some a, q :: _ => some ((8 * a.lch + a.slot.val + 256 - from_) % 256, (c, a, q))
    | _, _ => none
  (waiting.foldl (fun (m : Option (Nat × ChanId × ChanAlloc × QSolve)) y =>
    match m with
    | none => some y
    | some z => if y.1 < z.1 then some y else some z) none).map (·.2)

/-- A physical channel is retired: its bit, the full self-test that a lane fault asks for, SE_CHAN_RETIRED, a maintenance intervention
(01 R24, 05 R119, 13 R312, 18 R411, R421). -/
def State.retireChan (s : State) (e : EngId) (c : ChanId) (lane : Bool) : State :=
  let p := (s.chan e c).alloc.map (·.pid)
  let s := s.modEngine e fun x => { x with chanRet := setBit x.chanRet c.val true, selfTest := x.selfTest || lane }
  (s.markAll .mnt).raiseBoth 0x0103 p (e.val + c.val * 16 + b2n lane * 2 ^ 9) 0

/-- A permanent fault of a channel: a command that runs on it ends with E_RETIRED, its outputs withheld, and the channel retires
(05 R119, 18 R411). -/
def State.chanFault (s : State) (e : EngId) (c : ChanId) (lane : Bool) : State :=
  let s := match (s.chan e c).alloc, (s.chan e c).queue with
    | some a, q :: _ => if (s.engine e).running = some c then (s.undoSolve e c).failSolve e c a q eRetired else s
    | _, _ => s
  if bit (s.engine e).chanRet c.val then s else s.retireChan e c lane

/-- What the engine's checks found, with the command at work on channel c. -/
def State.foundFault (s : State) (e : EngId) (c : ChanId) (fault : SolveFault) : State :=
  match fault with
  | .none => s
  | .slice d => s.chanFault e d false
  | .lane => s.chanFault e c true

/-- A command's work uses the panel area, whose contents afterwards the manual does not give (05 R106). -/
def State.usePanel (s : State) (e : EngId) : State :=
  (s.modEngine e fun x => { x with panel := some (s.freeCtr, []) }).skipFree (6 * 2 ^ 20)

/-- The engine takes a command: it fails it, holds it back for a granule that waits for its clear, or does its work. -/
def State.takeSolve (s : State) (e : EngId) (c : ChanId) (a : ChanAlloc) (q : QSolve) (before : Nat × Nat) : State :=
  match s.solveCheck e c a q with
  | some code => s.failSolve e c a q code
  | none =>
    match s.inputFault a (s.chan e c).factor.st q.record with
    | some (.code code) => s.failSolve e c a q code
    | some (.unreadable addr) => s.failUnread e c a q addr
    | none =>
      match s.holdWrites a.pid (solveTargets a c q.record) with
      | some t => t.modEngine e fun x => { x with served := before }
      | none => (s.usePanel e).runSolve e c a q

/-- The partition that holds the engine moults: its engine takes no command and no result leaves it (14 R329, R334). -/
def State.engineMoults (s : State) (e : EngId) : Bool := (s.partOfSheaf e).any s.moults

/-- SOLVE_COMMAND_HEAD: the engine takes the next command, checks it, and either fails it or does its work; the completion record
follows at SOLVE_COMMAND_END (05 R122 to R127; 06 R134). A command whose outputs lie in a granule that waits for its clear stays
at the head (14 R332). A faulty slice shows whether or not a command of its channel runs (18 R411). -/
def execSolveCommandHead (e : EngId) (now : Nat) (retries : Nat) (fault : SolveFault) (s : State) : Host.Outcome State Fault Refusal :=
  match (s.engine e).running, if s.engineMoults e then none else (s.engine e).nextChan with
  | none, some (c, a, q) =>
    let before := (s.engine e).served
    let s := (s.at_ now).modEngine e fun x =>
      { x with served := (a.lch, a.slot.val), retryCnt := satAdd x.retryCnt retries }
    .next ((s.takeSolve e c a q before).foundFault e c fault)
  | _, _ =>
    match fault with
    | .slice d => whenDue (s.engine e).enabled "SOLVE_COMMAND_HEAD" ((s.at_ now).chanFault e d false)
    | _ => notDue "SOLVE_COMMAND_HEAD"

/-- SOLVE_COMMAND_END: the completion record is written, a host command completes, the engine is free (05 R124; 06 R142, R143). -/
def execSolveCommandEnd (e : EngId) (now : Nat) (s : State) : Host.Outcome State Fault Refusal :=
  match (s.engine e).running with
  | none => notDue "SOLVE_COMMAND_END"
  | some c =>
    match (s.chan e c).alloc, (s.chan e c).run with
    | some a, some r =>
      if s.engineMoults e then notDue "SOLVE_COMMAND_END" else
      let s := s.at_ now
      let w := wordOf r.record 0
      let bytes := leBytes 48 r.record.toNat ++ leBytes 8 s.now ++ leBytes 8 0
      let s := s.finishSolve a.pid r.cmd bytes cOk (bits w 47 44) (bits w 39 32) true
      .next ((s.launchWrite a.pid r.cmd).popSolve e c s.now)
    | _, _ => notDue "SOLVE_COMMAND_END"

end Sys2Proof.Machine
end

