-- ==== Sys2Proof/Machine/Tdisp.lean ====
section
/-!
DEFINITION. Sys2Proof/Machine/Tdisp.lean: TDISP and IDE key management over SPDM sessions (15 R351, R352). Message codes are those of the
PCIe standards that the manual names (PRESUMED, log 37).
-/
namespace Sys2Proof.Machine

/-! ### TDISP -/

/-- A TDISP response, as a vendor-defined response. -/
def tdispSay (code : Byte) (body : List Byte) : List Byte := [0x7E, code] ++ body

/-- TDISP_ERROR. -/
def tdispError : List Byte := tdispSay 0x7F []

/-- A TDISP message on PF0's mailbox, in a session that is up. -/
def State.tdisp (s : State) (id : BitVec 32) (f : State → State) : State :=
  s.inUp id fun s x => if x.via = .pf0 then f s else s.say x.via errUnsupported

/-- TDISP messages are answered on PF0's mailbox. -/
def State.sayTdisp (s : State) (body : List Byte) : State := s.say .pf0 body

/-- Code of a TDI state. -/
def tdiCode : Tdi → Byte
  | .unlocked => 0
  | .locked => 1
  | .run => 2
  | .error => 3

/-- GET_TDISP_VERSION: 1.0. -/
def execGetTdispVersion (session : BitVec 32) (s : State) : Host.Outcome State Fault Refusal :=
  .next (s.tdisp session fun s => s.sayTdisp (tdispSay 0x01 [0x10]))

/-- GET_TDISP_CAPABILITIES. -/
def execGetTdispCapabilities (session : BitVec 32) (s : State) : Host.Outcome State Fault Refusal :=
  .next (s.tdisp session fun s => s.sayTdisp (tdispSay 0x02 []))

/-- The TDI of a function in a state, bound to a session or to none. -/
def State.setTdi (s : State) (vf : Fn) (x : Tdi) (id : Option (BitVec 32)) : State :=
  { s with sec := { s.sec with tdi := s.sec.tdi.set vf x, tdiSess := s.sec.tdiSess.set vf id } }

/-- The function is a TDI: VF1 to VF16. -/
def isTdi (vf : Fn) : Bool := decide (vf.val ≠ 0)

/-- LOCK_INTERFACE_REQUEST: CONFIG_UNLOCKED to CONFIG_LOCKED, for a function that holds a BOUND partition. -/
def execLockInterfaceRequest (session : BitVec 32) (vf : Fn) (s : State) : Host.Outcome State Fault Refusal :=
  .next (s.tdisp session fun s =>
    if isTdi vf && decide (s.fnState vf = .bound) && decide (s.sec.tdi[vf] = .unlocked) then
      (s.setTdi vf .locked (some session)).sayTdisp (tdispSay 0x03 [])
    else s.sayTdisp tdispError)

/-- The TDI is locked by this session: in CONFIG_LOCKED or RUN. -/
def State.lockedBy (s : State) (id : BitVec 32) (vf : Fn) : Bool :=
  decide (s.sec.tdiSess[vf] = some id) && decide (s.sec.tdi[vf] = .locked ∨ s.sec.tdi[vf] = .run)

/-- The report: the ranges of BAR0 and BAR2, then the Jagus block. -/
def State.tdiReport (s : State) (vf : Fn) (p : Pid) : List Byte :=
  let e := (s.part p).entry
  leBytes 8 (Config.barAddress vf 0).toNat ++ leBytes 8 (2 ^ 24) ++ leBytes 8 (Config.barAddress vf 2).toNat ++ leBytes 8 (2 ^ 19) ++
    leBytes 1 p.val ++ leBytes 4 e.epoch.toNat ++ leBytes 2 e.sheaves.toNat ++ leBytes 2 e.gran.length ++ leBytes 2 e.ports.toNat ++
    leBytes 8 e.jobTag.toNat ++ leBytes 8 s.numericsId.toNat ++ leBytes 2 s.svn.toNat

/-- GET_DEVICE_INTERFACE_REPORT. -/
def execGetDeviceInterfaceReport (session : BitVec 32) (vf : Fn) (s : State) : Host.Outcome State Fault Refusal :=
  .next (s.tdisp session fun s =>
    match s.partOfFn vf with
    | none => s.sayTdisp tdispError
    | some p => if s.lockedBy session vf then s.sayTdisp (tdispSay 0x04 (s.tdiReport vf p)) else s.sayTdisp tdispError)

/-- GET_DEVICE_INTERFACE_STATE. -/
def execGetDeviceInterfaceState (session : BitVec 32) (vf : Fn) (s : State) : Host.Outcome State Fault Refusal :=
  .next (s.tdisp session fun s =>
    if isTdi vf then s.sayTdisp (tdispSay 0x05 [tdiCode s.sec.tdi[vf]]) else s.sayTdisp tdispError)

/-- START_INTERFACE_REQUEST: CONFIG_LOCKED to RUN. -/
def execStartInterfaceRequest (session : BitVec 32) (vf : Fn) (s : State) : Host.Outcome State Fault Refusal :=
  .next (s.tdisp session fun s =>
    if decide (s.sec.tdiSess[vf] = some session) && decide (s.sec.tdi[vf] = .locked) then
      (s.setTdi vf .run (some session)).sayTdisp (tdispSay 0x06 [])
    else s.sayTdisp tdispError)

/-- STOP_INTERFACE_REQUEST: to CONFIG_UNLOCKED; a tenant session that ends so has a key moult (15 R352). -/
def execStopInterfaceRequest (session : BitVec 32) (vf : Fn) (now : Nat) (s : State) : Host.Outcome State Fault Refusal :=
  .next ((s.at_ now).tdisp session fun s =>
    if s.lockedBy session vf || (isTdi vf && decide (s.sec.tdi[vf] = .error)) then
      (s.leaveTenant vf .unlocked).sayTdisp (tdispSay 0x07 [])
    else s.sayTdisp tdispError)

/-- LOCKED_CONFIG_WRITE: the host writes the locked configuration of a function; its TDI goes to ERROR (15 R352). -/
def execLockedConfigWrite (vf : Fn) (now : Nat) (s : State) : Host.Outcome State Fault Refusal :=
  let s := s.at_ now
  .next (if s.fnUp vf && decide (s.sec.tdi[vf] = .locked ∨ s.sec.tdi[vf] = .run) then s.leaveTenant vf .error else s)

/-! ### IDE key management: stream 0 is the link stream, streams 1 to 17 are selective -/

/-- An IDE_KM response. -/
def ideSay (code : Byte) (body : List Byte) : List Byte := [0x7E, code] ++ body

/-- IDE_KM_QUERY. -/
def execIdeKmQuery (session : BitVec 32) (s : State) : Host.Outcome State Fault Refusal :=
  .next (s.tdisp session fun s => s.sayTdisp (ideSay 0x01 []))

def State.modIde (s : State) (k : Fin 18) (f : Ide → Ide) : State :=
  { s with sec := { s.sec with ide := s.sec.ide.set k (f s.sec.ide[k]) } }

/-- Key set b of a stream holds a key. -/
def Ide.has (x : Ide) (b : Bool) : Bool := if b then x.prog.2 else x.prog.1

/-- IDE_KM_KEY_PROGRAM: the key of a key set; one that is at work is not replaced. -/
def execIdeKmKeyProgram (session : BitVec 32) (stream : Fin 18) (keySet : Bool) (s : State) : Host.Outcome State Fault Refusal :=
  .next (s.tdisp session fun s =>
    if (s.sec.ide[stream]).active = some keySet then s.sayTdisp errInvalid
    else (s.modIde stream fun x => { x with prog := if keySet then (x.prog.1, true) else (true, x.prog.2) }).sayTdisp (ideSay 0x03 []))

/-- IDE_KM_KEY_SET_GO: the stream uses the key set from now on; a refresh goes over to the other one. -/
def execIdeKmKeySetGo (session : BitVec 32) (stream : Fin 18) (keySet : Bool) (s : State) : Host.Outcome State Fault Refusal :=
  .next (s.tdisp session fun s =>
    if (s.sec.ide[stream]).has keySet then
      (s.modIde stream fun x => { x with active := some keySet }).sayTdisp (ideSay 0x05 [])
    else s.sayTdisp errInvalid)

/-- IDE_KM_KEY_SET_STOP: the key set is at work no more and its key is gone. -/
def execIdeKmKeySetStop (session : BitVec 32) (stream : Fin 18) (keySet : Bool) (s : State) : Host.Outcome State Fault Refusal :=
  .next (s.tdisp session fun s =>
    (s.modIde stream fun x =>
      { prog := if keySet then (x.prog.1, false) else (false, x.prog.2), active := if x.active = some keySet then none else x.active }).sayTdisp
      (ideSay 0x05 []))

end Sys2Proof.Machine
end

