-- ==== Sys2Proof/Machine/Vector.lean ====
section
/-!
DEFINITION. Sys2Proof/Machine/Vector.lean: the long-vector unit and the overlay: VCLAIM, vector loads and stores, fixed-point and
floating-point element operations, conversions, reductions (07 R172 to R180; 08 R194).
-/
namespace Sys2Proof.Machine

/-! ### Configuration (07 R172) -/

def ewCode : Ew → BitVec 2
  | .e8 => 0
  | .e16 => 1
  | .e32 => 2
  | .e64 => 3

/-- Element width in bits. -/
def ewBits : Ew → Nat
  | .e8 => 8
  | .e16 => 16
  | .e32 => 32
  | .e64 => 64

def grpCode : Grp → BitVec 2
  | .g1 => 0
  | .g2 => 1
  | .g4 => 2
  | .g8 => 3

/-- The granted length. -/
def grantVl (req : Nat) (ew : Ew) (grp : Grp) : Nat := min req (2048 * 2 ^ (grpCode grp).toNat / ewBits ew)

/-- VCLAIM never wakes the unit. -/
def execVclaim (t : TileId) (rd rs1 : RegId) (ew : Ew) (grp : Grp) (s : State) : Host.Outcome State Fault Refusal :=
  coreInstr "VCLAIM" (.vclaim t rd rs1 ew grp) t s fun s => s.retire t fun c =>
    let n := grantVl (c.rg rs1).toNat ew grp
    { c.wg rd (BitVec.ofNat 64 n) with vl := BitVec.ofNat 12 n, vew := ewCode ew, vgrp := grpCode grp }

/-! ### Elements of register groups (07 R173, R174) -/

/-- Registers of a group. -/
def Core.grpSize (c : Core) : Nat := 2 ^ c.vgrp.toNat

/-- Register n of the file. -/
def vreg (n : Nat) : Fin 32 := Fin.ofNat 32 n

/-- Element i of width w of the group that starts at register r. -/
def Core.elem (c : Core) (r : RegId) (w i : Nat) : Nat :=
  (c.v[vreg (r.val + w * i / 2048)]).toNat / 2 ^ (w * i % 2048) % 2 ^ w

/-- The register group with element i replaced. -/
def Core.setElem (c : Core) (r : RegId) (w i x : Nat) : Core :=
  let k := vreg (r.val + w * i / 2048)
  let o := w * i % 2048
  let old := (c.v[k]).toNat
  { c with v := c.v.set k (BitVec.ofNat 2048 (old - old / 2 ^ o % 2 ^ w * 2 ^ o + x % 2 ^ w * 2 ^ o)) }

/-- Element i is acted on. -/
def Core.active (c : Core) (mask : Bool) (i : Nat) : Bool := !mask || (c.v[(0 : Fin 32)]).getLsbD i

/-- The elements a non-short instruction acts on. -/
def Core.actives (c : Core) (mask : Bool) : List Nat := (List.range c.vl.toNat).filter (c.active mask)

/-- Every result written; sources were read before. -/
def Core.setElems (c : Core) (r : RegId) (w : Nat) (xs : List (Nat × Nat)) : Core :=
  xs.foldl (fun c (x : Nat × Nat) => c.setElem r w x.1 x.2) c

/-- The instruction's EW is VCFG.EW (half of it when it narrows), and its registers start groups. -/
def Core.shapeOk (c : Core) (ew : Ew) (narrow : Bool) (rs : List RegId) : Bool :=
  decide (c.vew.toNat = (ewCode ew).toNat + b2n narrow) && rs.all fun r => decide (r.val % c.grpSize = 0)

/-- A non-short vector instruction: it wakes the unit, and a shape that does not fit is a core fault (07 R173, R176). -/
def vecInstr (mnemonic : String) (i : Instr) (t : TileId) (s : State) (ready : Bool) (ok : Bool) (effect : State → State) :
    Host.Outcome State Fault Refusal :=
  coreWait mnemonic i t s (!ok || ready) fun s =>
    if !ok then s.coreFault t 0x6 0 else effect (s.modCore t fun c => { c with awake := true })

/-! ### Loads and stores (07 R155, R164, R175) -/

/-- VLS: consecutive elements at the byte offset in gRS1; a part of the range that is outside the store or not aligned to the
element is a core fault. -/
def execVls (t : TileId) (op : VLsOp) (s : State) : Host.Outcome State Fault Refusal :=
  let c := s.core t
  let a := (c.rg op.base).toNat
  let w := ewBits op.ew / 8
  let len := c.vl.toNat * w
  let cause := if len = 0 then none else if tileSize < a + len then some 0x2 else if a % w ≠ 0 then some 0x3 else none
  vecInstr "VLS" (.vls t op) t s (cause.isSome || !s.accessHeld t op.store (a, len)) (c.shapeOk op.ew false [op.vreg]) fun s =>
    match cause with
    | some k => s.coreFault t k a
    | none =>
      let c := s.core t
      if op.store then
        ((c.actives op.mask).foldl (fun s i => s.storeWrite t (a + i * w) (leBytes w (c.elem op.vreg (8 * w) i))) s).retire t id
      else
        let xs := (c.actives op.mask).map fun i => (i, s.storeLe t (a + i * w) w)
        s.retire t fun c => c.setElems op.vreg (8 * w) xs

/-! ### Fixed point (07 R177 to R180) -/

/-- ⌊q + 1/2⌋ and the others of Table Fixed-point rounding, for q = a / 2^s. -/
def frmRound (f : Frm) (a : Int) (s : Nat) : Int :=
  let d : Int := 2 ^ s
  let q := a / d
  let r := a % d
  match f with
  | .rnu => if d ≤ 2 * r then q + 1 else q
  | .rne => if d < 2 * r ∨ (d = 2 * r ∧ q % 2 = 1) then q + 1 else q
  | .rdn => q
  | .rod => if r = 0 ∨ q % 2 = 1 then q else q + 1

/-- Clamped to a range, and whether that changed it. -/
def clamp (lo hi x : Int) : Int × Bool := if x < lo then (lo, true) else if hi < x then (hi, true) else (x, false)

def satS (w : Nat) (x : Int) : Int × Bool := clamp (-(2 ^ (w - 1))) (2 ^ (w - 1) - 1) x
def satU (w : Nat) (x : Int) : Int × Bool := clamp 0 (2 ^ w - 1) x

/-- The result of one element, and whether it saturated; a narrowing function takes a and b of width 2w. -/
def vintElem (f : VIntFn) (frm : Frm) (w a b : Nat) : Nat × Bool :=
  let sa := signedOf w a
  let sb := signedOf w b
  let out (r : Int × Bool) : Nat × Bool := (codeOf w r.1, r.2)
  match f with
  | .vadd => (codeOf w (sa + sb), false)
  | .vsub => (codeOf w (sa - sb), false)
  | .vsadd => out (satS w (sa + sb))
  | .vsaddu => out (satU w ((a : Int) + b))
  | .vssub => out (satS w (sa - sb))
  | .vssubu => out (satU w ((a : Int) - b))
  | .vrshr => (codeOf w (frmRound frm sa (b % w)), false)
  | .vrshru => (codeOf w (frmRound frm a (b % w)), false)
  | .vfmulh => out (satS w (frmRound frm (sa * sb) (w - 1)))
  | .vnsat => out (satS w (frmRound frm (signedOf (2 * w) a) (b % (2 * w))))
  | .vnsatu => out (satU w (frmRound frm a (b % (2 * w))))
  | .vavg => (codeOf w (frmRound frm (sa + sb) 1), false)

/-- Register pair n of the overlay: f(2n) below f(2n + 1). -/
def Core.pair (c : Core) (r : RegId) : Nat :=
  (c.f[vreg (2 * r.val)]).toNat + (c.f[vreg (2 * r.val + 1)]).toNat * 2 ^ 64

/-- Elements of a pair put together again. -/
def packElems (w : Nat) (xs : List Nat) : Nat := (xs.zipIdx).foldl (fun a (x : Nat × Nat) => a + x.1 % 2 ^ w * 2 ^ (w * x.2)) 0

/-- A short instruction: the overlay alone. -/
def Core.shortInt (c : Core) (op : VIntOp) : Core :=
  let w := ewBits op.ew
  let n := vintNarrows op.fn
  let ws := if n then 2 * w else w
  let rs := (List.range (128 / ws)).map fun i =>
    vintElem op.fn op.frm w (c.pair op.vs1 / 2 ^ (ws * i) % 2 ^ ws) (c.pair op.vs2 / 2 ^ (ws * i) % 2 ^ ws)
  let x := packElems w (rs.map (·.1))
  let c := { c with vsat := c.vsat || rs.any fun (r : Nat × Bool) => r.2 }
  let c := c.wf (vreg (2 * op.vd.val)) (BitVec.ofNat 64 x)
  if n then c else c.wf (vreg (2 * op.vd.val + 1)) (BitVec.ofNat 64 (x / 2 ^ 64))

/-- A non-short instruction: elements 0 to VL - 1 under the mask. -/
def Core.longInt (c : Core) (op : VIntOp) : Core :=
  let w := ewBits op.ew
  let ws := if vintNarrows op.fn then 2 * w else w
  let rs := (c.actives op.mask).map fun i => (i, vintElem op.fn op.frm w (c.elem op.vs1 ws i) (c.elem op.vs2 ws i))
  { (c.setElems op.vd w (rs.map fun (r : Nat × Nat × Bool) => (r.1, r.2.1))) with
      vsat := c.vsat || rs.any fun (r : Nat × Nat × Bool) => r.2.2 }

/-- VINT. -/
def execVint (t : TileId) (op : VIntOp) (s : State) : Host.Outcome State Fault Refusal :=
  if op.short then coreInstr "VINT" (.vint t op) t s fun s => s.retire t fun c => c.shortInt op
  else
    vecInstr "VINT" (.vint t op) t s true ((s.core t).shapeOk op.ew (vintNarrows op.fn) [op.vd, op.vs1, op.vs2]) fun s =>
      s.retire t fun c => c.longInt op

/-! ### Floating point (07 R174, R157) -/

def vfpValue (f : VFpFn) (a b d : Num) : Num :=
  match f with
  | .add => a.add b
  | .sub => a.add b.neg
  | .mul => a.mul b
  | .fma => (a.mul b).add d
  | .div => a.div b
  | .sqrt => a.sqrt
  | .min => a.minimum b
  | .max => a.maximum b

/-- A floating-point format whose elements have the instruction's width. -/
def vfpFormat (fmt : BitVec 4) (ew : Ew) : Option FFmt :=
  if fmt.toNat < 6 ∧ 8 * fmtBytes fmt.toNat = ewBits ew then floatFmt fmt.toNat else none

/-- VFP: fma adds the product to the destination. -/
def execVfp (t : TileId) (op : VFpOp) (s : State) : Host.Outcome State Fault Refusal :=
  match vfpFormat op.fmt op.ew with
  | none => notDue "VFP"
  | some f =>
    vecInstr "VFP" (.vfp t op) t s true ((s.core t).shapeOk op.ew false [op.vd, op.vs1, op.vs2]) fun s => s.retire t fun c =>
      let w := ewBits op.ew
      let rs := (c.actives op.mask).map fun i =>
        (i, f.ieee op.rnd (vfpValue op.fn (f.decode (c.elem op.vs1 w i)) (f.decode (c.elem op.vs2 w i)) (f.decode (c.elem op.vd w i))))
      c.setElems op.vd w rs

/-! ### Conversions (07 R175, 08 R194) -/

/-- The conversion narrows: the source element is wider. -/
def vcvtNarrows (op : VCvtOp) : Bool := decide (ewBits op.ew < 8 * fmtBytes op.fmtS.toNat)

/-- The formats are one: the bits are copied unchanged and nothing is counted (07 R169, R175). -/
def vcvtCopies (op : VCvtOp) : Bool := decide (op.fmtS = op.fmtD)

/-- A conversion LOAD_PROGRAM admits: formats other than the reserved codes, BF16S only in a plain copy, CVC as R46 demands, EW the
destination's width. -/
def vcvtLoads (op : VCvtOp) : Bool :=
  ((decide (op.fmtD.toNat < 10) && decide (op.fmtS.toNat < 10)) || (vcvtCopies op && decide (op.fmtD = 0xA))) &&
    !cvcBad op.cvc.toNat && decide (8 * fmtBytes op.fmtD.toNat = ewBits op.ew)

/-- Source element i of a conversion; one that lies outside its register group is a free value (log 86). -/
def Core.vcvtSource (c : Core) (op : VCvtOp) (i : Nat) : Nat :=
  let w := 8 * fmtBytes op.fmtS.toNat
  if 2048 * c.grpSize < w * (i + 1) then Config.vcvtOutside op.fmtS op.vs1.val i % 2 ^ w else c.elem op.vs1 w i

/-- The conversions of the active elements. -/
def Core.convertElems (c : Core) (op : VCvtOp) : List (Nat × Nat × Cnt) :=
  (c.actives op.mask).map fun i =>
    (i, if vcvtCopies op then (c.vcvtSource op i, .none) else
      convertFmt op.fmtD.toNat 0 (cvcOf op.cvc.toNat)
        (ditherOf c.seed c.step (c.vtid.toNat % 2 ^ 32) 0x2000 (c.veidx + BitVec.ofNat 64 i)) (isIntFmt op.fmtS.toNat)
        (decodeFmt op.fmtS.toNat 0 (c.vcvtSource op i)))

/-- VCVT; a copy is no conversion, so it sets no region flag (08 R201). -/
def execVcvt (t : TileId) (op : VCvtOp) (s : State) : Host.Outcome State Fault Refusal :=
  if !vcvtLoads op then notDue "VCVT" else
  vecInstr "VCVT" (.vcvt t op) t s true ((s.core t).shapeOk op.ew (vcvtNarrows op) [op.vd, op.vs1]) fun s =>
    let rs := (s.core t).convertElems op
    (s.modTile t fun y => if vcvtCopies op then y else y.countAll op.fmtD.toNat (rs.map (·.2))).retire t fun c =>
      c.setElems op.vd (ewBits op.ew) (rs.map fun (r : Nat × Nat × Cnt) => (r.1, r.2.1))

/-! ### Reductions and permutations (07 R175) -/

/-- The result elements of a reduction or permutation. -/
def Core.reduce (c : Core) (op : VRedOp) (f : FFmt) : List (Nat × Nat) :=
  let w := ewBits op.ew
  let is := c.actives op.mask
  match op.fn with
  | .fsum =>
    if is.isEmpty then [] else
    [(0, is.foldl (fun a i => f.ieee .rne ((f.decode a).acc (f.decode (c.elem op.vs1 w i)))) 0)]
  | .isum => if is.isEmpty then [] else [(0, is.foldl (fun a i => (a + c.elem op.vs1 w i) % 2 ^ w) 0)]
  | .gather => is.map fun i => (i, let k := c.elem op.vs2 w i; if k < c.vl.toNat then c.elem op.vs1 w k else 0)

/-- VRED: a sum in ascending element order into element 0, each addition rounded to nearest even; or a gather. -/
def execVred (t : TileId) (op : VRedOp) (s : State) : Host.Outcome State Fault Refusal :=
  match (if op.fn = .fsum then vfpFormat op.fmt op.ew else some fp64) with
  | none => notDue "VRED"
  | some f =>
    vecInstr "VRED" (.vred t op) t s true ((s.core t).shapeOk op.ew false [op.vd, op.vs1, op.vs2]) fun s => s.retire t fun c =>
      c.setElems op.vd (ewBits op.ew) (c.reduce op f)

end Sys2Proof.Machine
end

