-- ==== Sys2Proof/Machine/Dispatch.lean ====
section
/-! DEFINITION. Sys2Proof/Machine/Dispatch.lean: the effect of each command on everything but the queue, one arm per constructor. -/
namespace Sys2Proof.Machine

def exec (i : Instr) (s : State) : Host.Outcome State Fault Refusal :=
  match i with
  | .loadProgram fn cid image => Sys2Proof.Machine.execLoadProgram fn cid image s
  | .programUnload fn cid => Sys2Proof.Machine.execProgramUnload fn cid s
  | .launch fn cid => Sys2Proof.Machine.execLaunch fn cid s
  | .launchAt fn cid => Sys2Proof.Machine.execLaunchAt fn cid s
  | .launchReady p now => Sys2Proof.Machine.execLaunchReady p now s
  | .launchHint p now => Sys2Proof.Machine.execLaunchHint p now s
  | .launchRelease p now => Sys2Proof.Machine.execLaunchRelease p now s
  | .launchComplete p now => Sys2Proof.Machine.execLaunchComplete p now s
  | .copy fn cid host => Sys2Proof.Machine.execCopy fn cid host s
  | .fill fn cid => Sys2Proof.Machine.execFill fn cid s
  | .solveDelta fn cid => Sys2Proof.Machine.execSolveDelta fn cid s
  | .solveAdjoint fn cid => Sys2Proof.Machine.execSolveAdjoint fn cid s
  | .signal fn cid => Sys2Proof.Machine.execSignal fn cid s
  | .wait fn cid => Sys2Proof.Machine.execWait fn cid s
  | .fence fn cid => Sys2Proof.Machine.execFence fn cid s
  | .bind fn cid record => Sys2Proof.Machine.execBind fn cid record s
  | .unbind fn cid => Sys2Proof.Machine.execUnbind fn cid s
  | .moultStepEnd p now => Sys2Proof.Machine.execMoultStepEnd p now s
  | .keyRotate fn cid => Sys2Proof.Machine.execKeyRotate fn cid s
  | .keyRotateLink fn cid => Sys2Proof.Machine.execKeyRotateLink fn cid s
  | .query fn cid host => Sys2Proof.Machine.execQuery fn cid host s
  | .digestRead fn cid host => Sys2Proof.Machine.execDigestRead fn cid host s
  | .abort fn cid => Sys2Proof.Machine.execAbort fn cid s
  | .sqTail fn page value => Sys2Proof.Machine.execSqTail fn page value s
  | .cqHead fn page value => Sys2Proof.Machine.execCqHead fn page value s
  | .abortDb fn page value => Sys2Proof.Machine.execAbortDb fn page value s
  | .descriptorFetch data => Sys2Proof.Machine.execDescriptorFetch data s
  | .atsInvalidation fn page => Sys2Proof.Machine.execAtsInvalidation fn page s
  | .hifVersionReq fn value => Sys2Proof.Machine.execHifVersionReq fn value s
  | .hifRingCfg fn ring value => Sys2Proof.Machine.execHifRingCfg fn ring value s
  | .hifEvqCfg fn value => Sys2Proof.Machine.execHifEvqCfg fn value s
  | .registerWrite fn offset eight value => Sys2Proof.Machine.execRegisterWrite fn offset eight value s
  | .pwrCapCfg value => Sys2Proof.Machine.execPwrCapCfg value s
  | .pwrPolicy value => Sys2Proof.Machine.execPwrPolicy value s
  | .deepIdleRequest => Sys2Proof.Machine.execDeepIdleRequest s
  | .deepIdleEntered now => Sys2Proof.Machine.execDeepIdleEntered now s
  | .deepIdleLeave => Sys2Proof.Machine.execDeepIdleLeave s
  | .deepIdleExitEnd now => Sys2Proof.Machine.execDeepIdleExitEnd now s
  | .devrst by_ => Sys2Proof.Machine.execDevrst by_ s
  | .go value => Sys2Proof.Machine.execGo value s
  | .partitionResetEnd now => Sys2Proof.Machine.execPartitionResetEnd now s
  | .dbgAttach value src => Sys2Proof.Machine.execDbgAttach value src s
  | .portReconfigure port value => Sys2Proof.Machine.execPortReconfigure port value s
  | .retrain port => Sys2Proof.Machine.execRetrain port s
  | .lnkModId value => Sys2Proof.Machine.execLnkModId value s
  | .lnkLaneRet value => Sys2Proof.Machine.execLnkLaneRet value s
  | .lnkEthPrefix value => Sys2Proof.Machine.execLnkEthPrefix value s
  | .synTimeCfg value => Sys2Proof.Machine.execSynTimeCfg value s
  | .memBudgetCfg value => Sys2Proof.Machine.execMemBudgetCfg value s
  | .int t op rd rs1 rs2 => Sys2Proof.Machine.execInt t op rd rs1 rs2 s
  | .inti t op rd rs1 imm => Sys2Proof.Machine.execInti t op rd rs1 imm s
  | .ls t op corrected => Sys2Proof.Machine.execLs t op corrected s
  | .br t op rd rs1 rs2 offset => Sys2Proof.Machine.execBr t op rd rs1 rs2 offset s
  | .fp t op rnd rd rs1 rs2 rs3 => Sys2Proof.Machine.execFp t op rnd rd rs1 rs2 rs3 s
  | .cvt t cvc fmtD fmtS rd rs1 => Sys2Proof.Machine.execCvt t cvc fmtD fmtS rd rs1 s
  | .mopadr t rd rs1 rs2 => Sys2Proof.Machine.execMopadr t rd rs1 rs2 s
  | .mop t rs1 => Sys2Proof.Machine.execMop t rs1 s
  | .mwait t n => Sys2Proof.Machine.execMwait t n s
  | .dma t rs1 => Sys2Proof.Machine.execDma t rs1 s
  | .dwait t n => Sys2Proof.Machine.execDwait t n s
  | .solve t rs1 => Sys2Proof.Machine.execSolve t rs1 s
  | .swait t rs1 rs2 => Sys2Proof.Machine.execSwait t rs1 rs2 s
  | .ssig t rd rs1 rs2 => Sys2Proof.Machine.execSsig t rd rs1 rs2 s
  | .stake t rd rs1 rs2 => Sys2Proof.Machine.execStake t rd rs1 rs2 s
  | .sarr t rd rs1 rs2 => Sys2Proof.Machine.execSarr t rd rs1 rs2 s
  | .ssetf t rd rs1 rs2 => Sys2Proof.Machine.execSsetf t rd rs1 rs2 s
  | .sclrf t rd rs1 rs2 => Sys2Proof.Machine.execSclrf t rd rs1 rs2 s
  | .swany t rd rs1 rs2 => Sys2Proof.Machine.execSwany t rd rs1 rs2 s
  | .swall t rd rs1 rs2 => Sys2Proof.Machine.execSwall t rd rs1 rs2 s
  | .sadv t rd rs1 rs2 => Sys2Proof.Machine.execSadv t rd rs1 rs2 s
  | .swge t rd rs1 rs2 => Sys2Proof.Machine.execSwge t rd rs1 rs2 s
  | .wupd t rs1 => Sys2Proof.Machine.execWupd t rs1 s
  | .uwait t n => Sys2Proof.Machine.execUwait t n s
  | .nclr t a => Sys2Proof.Machine.execNclr t a s
  | .nsq t rd rs1 rs2 gfmt a => Sys2Proof.Machine.execNsq t rd rs1 rs2 gfmt a s
  | .nst t rs1 a => Sys2Proof.Machine.execNst t rs1 a s
  | .nadd t rs1 a => Sys2Proof.Machine.execNadd t rs1 a s
  | .csrr t rd csr => Sys2Proof.Machine.execCsrr t rd csr s
  | .csrw t csr rs1 => Sys2Proof.Machine.execCsrw t csr rs1 s
  | .halt t => Sys2Proof.Machine.execHalt t s
  | .rbegin t rs1 rs2 => Sys2Proof.Machine.execRbegin t rs1 rs2 s
  | .rcheck t => Sys2Proof.Machine.execRcheck t s
  | .rcmpb t => Sys2Proof.Machine.execRcmpb t s
  | .rcmpe t => Sys2Proof.Machine.execRcmpe t s
  | .stasha t rd rs1 rs2 => Sys2Proof.Machine.execStasha t rd rs1 rs2 s
  | .stashr t rs1 rs2 => Sys2Proof.Machine.execStashr t rs1 rs2 s
  | .vclaim t rd rs1 ew grp => Sys2Proof.Machine.execVclaim t rd rs1 ew grp s
  | .vls t op => Sys2Proof.Machine.execVls t op s
  | .vint t op => Sys2Proof.Machine.execVint t op s
  | .vfp t op => Sys2Proof.Machine.execVfp t op s
  | .vcvt t op => Sys2Proof.Machine.execVcvt t op s
  | .vred t op => Sys2Proof.Machine.execVred t op s
  | .vectorSleep t => Sys2Proof.Machine.execVectorSleep t s
  | .blockLoad x => Sys2Proof.Machine.execBlockLoad x s
  | .passStart x reruns => Sys2Proof.Machine.execPassStart x reruns s
  | .mopComplete x => Sys2Proof.Machine.execMopComplete x s
  | .offloadMopStart x record => Sys2Proof.Machine.execOffloadMopStart x record s
  | .loadLevelStep x => Sys2Proof.Machine.execLoadLevelStep x s
  | .hintRampStep x => Sys2Proof.Machine.execHintRampStep x s
  | .hintLapse t now => Sys2Proof.Machine.execHintLapse t now s
  | .dmaTransferRun t => Sys2Proof.Machine.execDmaTransferRun t s
  | .dmaTransferComplete t => Sys2Proof.Machine.execDmaTransferComplete t s
  | .updateOperationRun t reruns => Sys2Proof.Machine.execUpdateOperationRun t reruns s
  | .updateOperationComplete t => Sys2Proof.Machine.execUpdateOperationComplete t s
  | .solveCommandHead e now retries fault => Sys2Proof.Machine.execSolveCommandHead e now retries fault s
  | .syncOperationArrival id now => Sys2Proof.Machine.execSyncOperationArrival id now s
  | .barrierReleaseReceipt p index rel now => Sys2Proof.Machine.execBarrierReleaseReceipt p index rel now s
  | .launchBarrierHint obj now => Sys2Proof.Machine.execLaunchBarrierHint obj now s
  | .launchBarrierRelease obj now => Sys2Proof.Machine.execLaunchBarrierRelease obj now s
  | .remoteAck id code => Sys2Proof.Machine.execRemoteAck id code s
  | .waitTimeout w now => Sys2Proof.Machine.execWaitTimeout w now s
  | .timeMessageSend now => Sys2Proof.Machine.execTimeMessageSend now s
  | .timeMessageReceipt port upstream echo now => Sys2Proof.Machine.execTimeMessageReceipt port upstream echo now s
  | .counterSlew => Sys2Proof.Machine.execCounterSlew s
  | .holdoverEntry now => Sys2Proof.Machine.execHoldoverEntry now s
  | .synTimeUnlock now => Sys2Proof.Machine.execSynTimeUnlock now s
  | .portTrainingComplete port found now => Sys2Proof.Machine.execPortTrainingComplete port found now s
  | .laneRetrainStart lane now => Sys2Proof.Machine.execLaneRetrainStart lane now s
  | .laneRetrainEnd lane ok now => Sys2Proof.Machine.execLaneRetrainEnd lane ok now s
  | .laneRetryTimer lane now => Sys2Proof.Machine.execLaneRetryTimer lane now s
  | .frameReceipt port frame now => Sys2Proof.Machine.execFrameReceipt port frame now s
  | .frameNak port frame => Sys2Proof.Machine.execFrameNak port frame s
  | .datagramResend port frame => Sys2Proof.Machine.execDatagramResend port frame s
  | .neighborSolicitation port target => Sys2Proof.Machine.execNeighborSolicitation port target s
  | .echoRequest port dst payload => Sys2Proof.Machine.execEchoRequest port dst payload s
  | .linkHandshake p peer cert now => Sys2Proof.Machine.execLinkHandshake p peer cert now s
  | .rekey p peer => Sys2Proof.Machine.execRekey p peer s
  | .keepaliveSend now => Sys2Proof.Machine.execKeepaliveSend now s
  | .keepaliveTimeout p peer now => Sys2Proof.Machine.execKeepaliveTimeout p peer now s
  | .retrainNotice p peer now => Sys2Proof.Machine.execRetrainNotice p peer now s
  | .retrainSuspensionExpiry p peer now => Sys2Proof.Machine.execRetrainSuspensionExpiry p peer now s
  | .unbindFrame src jobTag epoch sigOk now => Sys2Proof.Machine.execUnbindFrame src jobTag epoch sigOk now s
  | .abortFrame src jobTag now => Sys2Proof.Machine.execAbortFrame src jobTag now s
  | .linkEntryStart p now => Sys2Proof.Machine.execLinkEntryStart p now s
  | .transferAck p entry peer => Sys2Proof.Machine.execTransferAck p entry peer s
  | .linkEntryComplete p entry inputs now => Sys2Proof.Machine.execLinkEntryComplete p entry inputs now s
  | .readyNotice p entry rank carry now => Sys2Proof.Machine.execReadyNotice p entry rank carry now s
  | .deadlineClose p entry now => Sys2Proof.Machine.execDeadlineClose p entry now s
  | .verdict p entry excluded carrying waited now => Sys2Proof.Machine.execVerdict p entry excluded carrying waited now s
  | .memoryReadError addr how reader now => Sys2Proof.Machine.execMemoryReadError addr how reader now s
  | .migrationComplete now => Sys2Proof.Machine.execMigrationComplete now s
  | .errorWindowEnd now => Sys2Proof.Machine.execErrorWindowEnd now s
  | .stackTempReading m temp now => Sys2Proof.Machine.execStackTempReading m temp now s
  | .granuleClearComplete now => Sys2Proof.Machine.execGranuleClearComplete now s
  | .sweepPage p now => Sys2Proof.Machine.execSweepPage p now s
  | .regulatorSample sample now => Sys2Proof.Machine.execRegulatorSample sample now s
  | .railSettled sheaf => Sys2Proof.Machine.execRailSettled sheaf s
  | .dieTempReading die temp now => Sys2Proof.Machine.execDieTempReading die temp now s
  | .regulatorWarning die overCurrent status now => Sys2Proof.Machine.execRegulatorWarning die overCurrent status now s
  | .railWarningRelease die now => Sys2Proof.Machine.execRailWarningRelease die now s
  | .thermalTrip by_ now => Sys2Proof.Machine.execThermalTrip by_ now s
  | .ageingMonitorRead die slow now => Sys2Proof.Machine.execAgeingMonitorRead die slow now s
  | .inputApplied => Sys2Proof.Machine.execInputApplied s
  | .powerLoss => Sys2Proof.Machine.execPowerLoss s
  | .perstAssert => Sys2Proof.Machine.execPerstAssert s
  | .perstRelease sincePwrgd => Sys2Proof.Machine.execPerstRelease sincePwrgd s
  | .bootStageEnd how => Sys2Proof.Machine.execBootStageEnd how s
  | .flr fn => Sys2Proof.Machine.execFlr fn s
  | .peRefclkLoss => Sys2Proof.Machine.execPeRefclkLoss s
  | .lnkRefclkLoss now => Sys2Proof.Machine.execLnkRefclkLoss now s
  | .tileHardFault t unit retries now => Sys2Proof.Machine.execTileHardFault t unit retries now s
  | .bindingAudit seen now => Sys2Proof.Machine.execBindingAudit seen now s
  | .fatalResetTimer now => Sys2Proof.Machine.execFatalResetTimer now s
  | .getVersion via => Sys2Proof.Machine.execGetVersion via s
  | .getCapabilities hello => Sys2Proof.Machine.execGetCapabilities hello s
  | .negotiateAlgorithms via asym offersSecp384 offersAesGcm => Sys2Proof.Machine.execNegotiateAlgorithms via asym offersSecp384 offersAesGcm s
  | .getDigests via => Sys2Proof.Machine.execGetDigests via s
  | .getCertificate via slot offset length => Sys2Proof.Machine.execGetCertificate via slot offset length s
  | .challenge via slot nonce => Sys2Proof.Machine.execChallenge via slot nonce s
  | .getMeasurements via index nonce signed => Sys2Proof.Machine.execGetMeasurements via index nonce signed s
  | .keyExchange via req now => Sys2Proof.Machine.execKeyExchange via req now s
  | .finish session macOk period now => Sys2Proof.Machine.execFinish session macOk period now s
  | .endSession session => Sys2Proof.Machine.execEndSession session s
  | .keyUpdate session => Sys2Proof.Machine.execKeyUpdate session s
  | .heartbeat session now => Sys2Proof.Machine.execHeartbeat session now s
  | .heartbeatTimeout session now => Sys2Proof.Machine.execHeartbeatTimeout session now s
  | .unsupportedRequest via code => Sys2Proof.Machine.execUnsupportedRequest via code s
  | .getTdispVersion session => Sys2Proof.Machine.execGetTdispVersion session s
  | .getTdispCapabilities session => Sys2Proof.Machine.execGetTdispCapabilities session s
  | .lockInterfaceRequest session vf => Sys2Proof.Machine.execLockInterfaceRequest session vf s
  | .getDeviceInterfaceReport session vf => Sys2Proof.Machine.execGetDeviceInterfaceReport session vf s
  | .getDeviceInterfaceState session vf => Sys2Proof.Machine.execGetDeviceInterfaceState session vf s
  | .startInterfaceRequest session vf => Sys2Proof.Machine.execStartInterfaceRequest session vf s
  | .stopInterfaceRequest session vf now => Sys2Proof.Machine.execStopInterfaceRequest session vf now s
  | .lockedConfigWrite vf now => Sys2Proof.Machine.execLockedConfigWrite vf now s
  | .spdmSessionLoss session now => Sys2Proof.Machine.execSpdmSessionLoss session now s
  | .ideKmQuery session => Sys2Proof.Machine.execIdeKmQuery session s
  | .ideKmKeyProgram session stream keySet => Sys2Proof.Machine.execIdeKmKeyProgram session stream keySet s
  | .ideKmKeySetGo session stream keySet => Sys2Proof.Machine.execIdeKmKeySetGo session stream keySet s
  | .ideKmKeySetStop session stream keySet => Sys2Proof.Machine.execIdeKmKeySetStop session stream keySet s
  | .drbgHealthFailure => Sys2Proof.Machine.execDrbgHealthFailure s
  | .debugHalt p => Sys2Proof.Machine.execDebugHalt p s
  | .debugSingleStep t => Sys2Proof.Machine.execDebugSingleStep t s
  | .setEndpointId b eid => Sys2Proof.Machine.execSetEndpointId b eid s
  | .getEndpointId b => Sys2Proof.Machine.execGetEndpointId b s
  | .getMctpVersionSupport b msgType => Sys2Proof.Machine.execGetMctpVersionSupport b msgType s
  | .getMessageTypeSupport b => Sys2Proof.Machine.execGetMessageTypeSupport b s
  | .getVendorDefinedMessageSupport b selector => Sys2Proof.Machine.execGetVendorDefinedMessageSupport b selector s
  | .entdaa address => Sys2Proof.Machine.execEntdaa address s
  | .setdasa static dynamic => Sys2Proof.Machine.execSetdasa static dynamic s
  | .seteventreceiver b eid enable => Sys2Proof.Machine.execSeteventreceiver b eid enable s
  | .sensorRefresh id reading => Sys2Proof.Machine.execSensorRefresh id reading s
  | .regRead b offset => Sys2Proof.Machine.execRegRead b offset s
  | .regWrite b offset value => Sys2Proof.Machine.execRegWrite b offset value s
  | .devReset b => Sys2Proof.Machine.execDevReset b s
  | .attlogRead b first => Sys2Proof.Machine.execAttlogRead b first s
  | .forceRecovery b => Sys2Proof.Machine.execForceRecovery b s
  | .requestupdate b c size => Sys2Proof.Machine.execRequestupdate b c size s
  | .firmwareDataReceipt data => Sys2Proof.Machine.execFirmwareDataReceipt data s
  | .transfercomplete => Sys2Proof.Machine.execTransfercomplete s
  | .updateVerifyEnd how => Sys2Proof.Machine.execUpdateVerifyEnd how s
  | .applycomplete => Sys2Proof.Machine.execApplycomplete s
  | .activatefirmware => Sys2Proof.Machine.execActivatefirmware s
  | .cancelupdate => Sys2Proof.Machine.execCancelupdate s
  | .solveCommandEnd e now => Sys2Proof.Machine.execSolveCommandEnd e now s
  | .peRefclkReturn => Sys2Proof.Machine.execPeRefclkReturn s
  | .lnkRefclkReturn => Sys2Proof.Machine.execLnkRefclkReturn s
  | .perstHoldExpiry => Sys2Proof.Machine.execPerstHoldExpiry s
  | .inputSag => Sys2Proof.Machine.execInputSag s
  | .inputSagEnd => Sys2Proof.Machine.execInputSagEnd s
  | .deviceFatalFault cause now => Sys2Proof.Machine.execDeviceFatalFault cause now s
  | .priorityFlowControl port pause => Sys2Proof.Machine.execPriorityFlowControl port pause s
  | .msixVectorUnmask fn vec => Sys2Proof.Machine.execMsixVectorUnmask fn vec s
  | .srIovEnable vfs => Sys2Proof.Machine.execSrIovEnable vfs s
  | .jtagAttach value => Sys2Proof.Machine.execJtagAttach value s

end Sys2Proof.Machine
end

