-- ==== Sys2Proof/Safety.lean ====
section
/-! DEFINITION. Sys2Proof/Safety.lean: what a safe state and a safe step are, in the terms the claims use. -/
namespace Sys2Proof.Machine

/-- Memory, host memory and the table of sync objects are in canonical form. -/
def State.canonical (s : State) : Bool :=
  Memory.wf s.mem && Memory.wf s.hostMem && Tab.wf (0 : BitVec 128) s.sync.objs

/-- The command answers a next state. -/
def Completes (i : Instr) (s : State) : Prop := ∃ t, exec i s = .next t

end Sys2Proof.Machine
end

