-- ==== Sys2Proof/WellFormed.lean ====
section
/-!
DEFINITION. Sys2Proof/WellFormed.lean: what the operands of a command must satisfy to stand for something the manual describes: a stamp is a
value of the 64-bit counter (10 R236), register accesses are aligned (20 R440, R441), table indices and sizes lie in range.
-/
namespace Sys2Proof

/-- The stamp in gt at which a command happens, where it carries one (log 5). -/
def Instr.stamp : Instr → Option Nat
  | .launchReady _ now | .launchHint _ now | .launchRelease _ now | .launchComplete _ now | .moultStepEnd _ now
  | .deepIdleEntered now | .deepIdleExitEnd now | .partitionResetEnd now | .hintLapse _ now | .solveCommandHead _ now _ _
  | .syncOperationArrival _ now | .barrierReleaseReceipt _ _ _ now | .launchBarrierHint _ now | .launchBarrierRelease _ now
  | .waitTimeout _ now | .timeMessageSend now | .timeMessageReceipt _ _ _ now | .holdoverEntry now | .synTimeUnlock now
  | .portTrainingComplete _ _ now | .laneRetrainStart _ now | .laneRetrainEnd _ _ now | .laneRetryTimer _ now
  | .frameReceipt _ _ now | .linkHandshake _ _ _ now | .keepaliveSend now | .keepaliveTimeout _ _ now | .retrainNotice _ _ now
  | .retrainSuspensionExpiry _ _ now | .unbindFrame _ _ _ _ now | .abortFrame _ _ now | .linkEntryStart _ now
  | .linkEntryComplete _ _ _ now | .readyNotice _ _ _ _ now | .deadlineClose _ _ now | .verdict _ _ _ _ _ now
  | .memoryReadError _ _ _ now | .migrationComplete now | .errorWindowEnd now | .stackTempReading _ _ now
  | .granuleClearComplete now | .sweepPage _ now | .regulatorSample _ now | .dieTempReading _ _ now
  | .regulatorWarning _ _ _ now | .railWarningRelease _ now | .thermalTrip _ now | .ageingMonitorRead _ _ now
  | .lnkRefclkLoss now | .tileHardFault _ _ _ now | .bindingAudit _ now | .fatalResetTimer now | .keyExchange _ _ now
  | .finish _ _ _ now | .heartbeat _ now | .heartbeatTimeout _ now | .stopInterfaceRequest _ _ now | .lockedConfigWrite _ now
  | .spdmSessionLoss _ now | .solveCommandEnd _ now | .deviceFatalFault _ now => some now
  | .hintRampStep x => some x.now
  | .loadProgram _ _ _ | .programUnload _ _ | .launch _ _ | .launchAt _ _ | .copy _ _ _ | .fill _ _ | .solveDelta _ _
  | .solveAdjoint _ _ | .signal _ _ | .wait _ _ | .fence _ _ | .bind _ _ _ | .unbind _ _ | .keyRotate _ _ | .keyRotateLink _ _
  | .query _ _ _ | .digestRead _ _ _ | .abort _ _ | .sqTail _ _ _ | .cqHead _ _ _ | .abortDb _ _ _ | .descriptorFetch _
  | .atsInvalidation _ _ | .hifVersionReq _ _ | .hifRingCfg _ _ _ | .hifEvqCfg _ _ | .registerWrite _ _ _ _ | .pwrCapCfg _
  | .pwrPolicy _ | .deepIdleRequest | .deepIdleLeave | .devrst _ | .go _ | .dbgAttach _ _ | .portReconfigure _ _ | .retrain _
  | .lnkModId _ | .lnkLaneRet _ | .lnkEthPrefix _ | .synTimeCfg _ | .memBudgetCfg _ | .int _ _ _ _ _ | .inti _ _ _ _ _
  | .ls _ _ _ | .br _ _ _ _ _ _ | .fp _ _ _ _ _ _ _ | .cvt _ _ _ _ _ _ | .mopadr _ _ _ _ | .mop _ _ | .mwait _ _ | .dma _ _
  | .dwait _ _ | .solve _ _ | .swait _ _ _ | .ssig _ _ _ _ | .stake _ _ _ _ | .sarr _ _ _ _ | .ssetf _ _ _ _ | .sclrf _ _ _ _
  | .swany _ _ _ _ | .swall _ _ _ _ | .sadv _ _ _ _ | .swge _ _ _ _ | .wupd _ _ | .uwait _ _ | .nclr _ _ | .nsq _ _ _ _ _ _
  | .nst _ _ _ | .nadd _ _ _ | .csrr _ _ _ | .csrw _ _ _ | .halt _ | .rbegin _ _ _ | .rcheck _ | .rcmpb _ | .rcmpe _
  | .stasha _ _ _ _ | .stashr _ _ _ | .vclaim _ _ _ _ _ | .vls _ _ | .vint _ _ | .vfp _ _ | .vcvt _ _ | .vred _ _
  | .vectorSleep _ | .blockLoad _ | .passStart _ _ | .mopComplete _ | .offloadMopStart _ _ | .loadLevelStep _
  | .dmaTransferRun _ | .dmaTransferComplete _ | .updateOperationRun _ _ | .updateOperationComplete _ | .remoteAck _ _
  | .counterSlew | .frameNak _ _ | .datagramResend _ _ | .neighborSolicitation _ _ | .echoRequest _ _ _ | .rekey _ _
  | .transferAck _ _ _ | .railSettled _ | .inputApplied | .powerLoss | .perstAssert | .perstRelease _ | .bootStageEnd _ | .flr _
  | .peRefclkLoss | .getVersion _ | .getCapabilities _ | .negotiateAlgorithms _ _ _ _ | .getDigests _ | .getCertificate _ _ _ _
  | .challenge _ _ _ | .getMeasurements _ _ _ _ | .endSession _ | .keyUpdate _ | .unsupportedRequest _ _ | .getTdispVersion _
  | .getTdispCapabilities _ | .lockInterfaceRequest _ _ | .getDeviceInterfaceReport _ _ | .getDeviceInterfaceState _ _
  | .startInterfaceRequest _ _ | .ideKmQuery _ | .ideKmKeyProgram _ _ _ | .ideKmKeySetGo _ _ _ | .ideKmKeySetStop _ _ _
  | .drbgHealthFailure | .debugHalt _ | .debugSingleStep _ | .setEndpointId _ _ | .getEndpointId _ | .getMctpVersionSupport _ _
  | .getMessageTypeSupport _ | .getVendorDefinedMessageSupport _ _ | .entdaa _ | .setdasa _ _ | .seteventreceiver _ _ _
  | .sensorRefresh _ _ | .regRead _ _ | .regWrite _ _ _ | .devReset _ | .attlogRead _ _ | .forceRecovery _
  | .requestupdate _ _ _ | .firmwareDataReceipt _ | .transfercomplete | .updateVerifyEnd _ | .applycomplete | .activatefirmware
  | .cancelupdate | .peRefclkReturn | .lnkRefclkReturn | .perstHoldExpiry | .inputSag | .inputSagEnd | .priorityFlowControl _ _
  | .msixVectorUnmask _ _ | .srIovEnable _ | .jtagAttach _ => none

/-- The other operands name something that exists: an aligned register, a vector of the function's table (16 R385), at most 16 VFs
(16 R358), pieces of an update of at most 4,096 B (19 R438). -/
def Instr.operandsOk : Instr → Bool
  | .registerWrite _ off eight _ => decide (off.toNat % (if eight then 8 else 4) = 0)
  | .regRead _ off => decide (off.toNat % 8 = 0)
  | .regWrite _ off _ => decide (off.toNat % 8 = 0)
  | .srIovEnable n => decide (n ≤ 16)
  | .msixVectorUnmask fn v => decide (v < if fn = 0 then 128 else 120)
  | .firmwareDataReceipt d => decide (d.length ≤ 4096)
  | _ => true

/-- A well-formed command. -/
def Instr.wellFormed (i : Instr) : Bool :=
  i.operandsOk && match i.stamp with
    | none => true
    | some n => decide (n < 2 ^ 64)

end Sys2Proof
end

