-- ==== Sys2Proof/Certificates/Slice0/Obligations.lean ====
section
/-!
DEFINITION. Sys2Proof/Certificates/Slice0/Obligations.lean: the statements about the model, in the order of
OBLIGATIONS.json, and the vocabulary they share (namespace Claims).
-/
open Sys2Proof Sys2Proof.Machine

/-! ### Vocabulary -/

namespace Sys2Proof.Claims

/-- A core after its instruction: the program counter stands at the next 4-byte instruction, and a single step that debug granted
is used up (07 R153, 15 R354). -/
def stepped (c : Core) : Core :=
  { c with pc := c.pc + 4, dbgSteps := if c.dbgHalt then c.dbgSteps - 1 else c.dbgSteps }

/-- The core of tile t issues the instruction at its program counter, which lies inside the code section (07 R151, R155). -/
def Issues (s : State) (t : TileId) : Prop := s.issuing t = true ∧ (s.core t).pc < s.codeSize t

/-- The instruction word at tile t's program counter spells the command i (07 R153). -/
def Fetches (s : State) (t : TileId) (i : Instr) : Prop := spells t (s.codeWord t) i = true

/-- Where it does, i completes with the state u. -/
def Runs (s : State) (t : TileId) (i : Instr) (u : State) : Prop := Fetches s t i → exec i s = .next u

/-- s after an instruction of tile t whose effect on the core's registers is f and which changes nothing else of the module. -/
def retired (s : State) (t : TileId) (f : Core → Core) : State :=
  s.modTile t fun y => { y with core := stepped (f y.core) }

/-- s after an instruction of tile t that also changes the tile's queues or registers as f says. -/
def issued (s : State) (t : TileId) (f : Tile → Tile) : State :=
  s.modTile t fun y => let z := f y; { z with core := stepped z.core }

/-- Bytes of memory from a on are those of the list; every other byte is as in m. -/
def Stored (m m' : List Host.Cell) (a : Nat) (bs : List Byte) : Prop :=
  (∀ i, i < bs.length → Memory.read m' (a + i) = bs[i]?.getD 0) ∧
    ∀ x, x < a ∨ a + bs.length ≤ x → Memory.read m' x = Memory.read m x

end Sys2Proof.Claims

open Sys2Proof.Claims

/-! ### Control core: scalar instructions (07) -/

namespace Sys2Proof.Claims

/-- The arithmetic of R156 on two's complement values, wrapped modulo 2^64. -/
def arith (op : IntOp) (a b : Word) : Option Word :=
  match op with
  | .add => some (BitVec.ofInt 64 (a.toInt + b.toInt))
  | .sub => some (BitVec.ofInt 64 (a.toInt - b.toInt))
  | .mul => some (BitVec.ofInt 64 (a.toInt * b.toInt))
  | .div => some (if b = 0 then 0 else BitVec.ofInt 64 (a.toInt.tdiv b.toInt))
  | .rem => some (if b = 0 then a else BitVec.ofInt 64 (a.toInt.tmod b.toInt))
  | .divu => some (if b = 0 then 0 else BitVec.ofNat 64 (a.toNat / b.toNat))
  | .remu => some (if b = 0 then a else BitVec.ofNat 64 (a.toNat % b.toNat))
  | _ => none

/-- The other integer functions (log 22): logic, shifts by b mod 64, comparisons. -/
def logic (op : IntOp) (a b : Word) : Option Word :=
  match op with
  | .and => some (a &&& b)
  | .or => some (a ||| b)
  | .xor => some (a ^^^ b)
  | .sll => some (BitVec.ofNat 64 (a.toNat * 2 ^ (b.toNat % 64)))
  | .srl => some (BitVec.ofNat 64 (a.toNat / 2 ^ (b.toNat % 64)))
  | .sra => some (BitVec.ofInt 64 (a.toInt / 2 ^ (b.toNat % 64)))
  | .slt => some (BitVec.ofNat 64 (b2n (decide (a.toInt < b.toInt))))
  | .sltu => some (BitVec.ofNat 64 (b2n (decide (a.toNat < b.toNat))))
  | _ => none

/-- A branch is taken; a jump always is. -/
def taken (op : BrOp) (a b : Word) : Prop :=
  match op with
  | .eq => a = b
  | .ne => a ≠ b
  | .lt => a.toInt < b.toInt
  | .ge => b.toInt ≤ a.toInt
  | .ltu => a.toNat < b.toNat
  | .geu => b.toNat ≤ a.toNat
  | .jump | .jumpReg => True

/-- The state in which a core fault is recorded: a single step of debug is used up first. -/
def faultBase (s : State) (t : TileId) : State :=
  s.modCore t fun c => { c with dbgSteps := if c.dbgHalt then c.dbgSteps - 1 else c.dbgSteps }

end Sys2Proof.Claims

/-- R156: integer operations work on 64-bit two's complement values and wrap modulo 2^64; division by zero gives a quotient of 0 and
a remainder equal to the dividend. INT and INTI complete on every operand, write gRD (g0 stays 0), set no flag, change no
counter and nothing else of the module. -/
def Obligations.IntegerArithmetic : Prop :=
  (arith .div 0x8000000000000000 0xFFFFFFFFFFFFFFFF = some 0x8000000000000000 ∧
    arith .rem 0x8000000000000000 0xFFFFFFFFFFFFFFFF = some 0) ∧
  ∀ (s : State) (t : TileId) (op : IntOp) (rd rs1 rs2 : RegId) (imm x : Word), Issues s t →
    (arith op ((s.core t).rg rs1) ((s.core t).rg rs2) = some x →
      Runs s t (.int t op rd rs1 rs2) (retired s t fun c => if rd = 0 then c else { c with g := c.g.set rd x })) ∧
    (arith op ((s.core t).rg rs1) imm = some x →
      Runs s t (.inti t op rd rs1 imm) (retired s t fun c => if rd = 0 then c else { c with g := c.g.set rd x }))

/-- Logic, shifts and comparisons of INT and INTI (log 22, the model's list of functions), and BR: a branch not taken goes on, a taken
one with a target inside its code section goes there and a jump leaves its return address in gRD, a taken one with another target
is a core fault with CAUSE 0x1 (R155). -/
def Obligations.LogicAndBranches : Prop :=
  ∀ (s : State) (t : TileId), Issues s t →
    (∀ (op : IntOp) (rd rs1 rs2 : RegId) (imm x : Word),
      (logic op ((s.core t).rg rs1) ((s.core t).rg rs2) = some x →
        Runs s t (.int t op rd rs1 rs2) (retired s t fun c => if rd = 0 then c else { c with g := c.g.set rd x })) ∧
      (logic op ((s.core t).rg rs1) imm = some x →
        Runs s t (.inti t op rd rs1 imm) (retired s t fun c => if rd = 0 then c else { c with g := c.g.set rd x }))) ∧
    ∀ (op : BrOp) (rd rs1 rs2 : RegId) (offset : Word),
      let c := s.core t
      let target := ((if op = .jumpReg then c.rg rs1 else BitVec.ofNat 64 c.pc) + offset).toNat
      (¬ taken op (c.rg rs1) (c.rg rs2) → Runs s t (.br t op rd rs1 rs2 offset) (retired s t id)) ∧
      (taken op (c.rg rs1) (c.rg rs2) → target < s.codeSize t → target % 4 = 0 →
        Runs s t (.br t op rd rs1 rs2 offset) ((faultBase s t).modCore t fun c =>
          { c with pc := target
                   g := if (op = .jump ∨ op = .jumpReg) ∧ rd ≠ 0 then c.g.set rd (BitVec.ofNat 64 (c.pc + 4)) else c.g })) ∧
      (taken op (c.rg rs1) (c.rg rs2) → s.codeSize t ≤ target ∨ target % 4 ≠ 0 →
        Runs s t (.br t op rd rs1 rs2 offset) ((faultBase s t).coreFault t 0x1 0))

/-- R155, R164 and the little-endian order: LS with an aligned address inside the tile store and nothing that holds it moves 2^size bytes
between the register and the store; a load changes no byte of memory, a store exactly those bytes. While it is held, nothing
changes; outside the store or misaligned it is a core fault with CAUSE 0x2 or 0x3. Words whose code was corrected are
counted. -/
def Obligations.LoadAndStore : Prop :=
  ∀ (s : State) (t : TileId) (op : LsOp) (k : Nat), Issues s t →
    let n := 2 ^ op.size.val
    let a := ((s.core t).rg op.base + op.offset).toNat
    let held := s.accessHeld t op.store (a, n)
    let v := leNat ((List.range n).map fun i => s.storeByte t (a + i))
    let count (y : Tile) : Tile := { y with sramCnt := satAdd y.sramCnt k }
    (a + n ≤ 2 ^ 22 → a % n = 0 → held = true → Runs s t (.ls t op k) s) ∧
    (a + n ≤ 2 ^ 22 → a % n = 0 → held = false → op.store = false →
      Runs s t (.ls t op k) (issued s t fun y => count { y with core :=
        match op.file with
        | .g => if op.reg = 0 then y.core else { y.core with g := y.core.g.set op.reg <|
            (if op.signed = true ∧ 2 ^ (8 * n - 1) ≤ v then BitVec.ofInt 64 ((v : Int) - 2 ^ (8 * n)) else BitVec.ofNat 64 v) }
        | .f => { y.core with f := y.core.f.set op.reg (BitVec.ofNat 64 v) } })) ∧
    (a + n ≤ 2 ^ 22 → a % n = 0 → held = false → op.store = true → Memory.wf s.mem = true →
      Fetches s t (.ls t op k) → ∃ m, exec (.ls t op k) s = .next { issued s t count with mem := m } ∧
        Stored s.mem m (tileAddr t + a) ((List.range n).map fun i =>
          BitVec.ofNat 8 ((match op.file with | .g => (s.core t).rg op.reg | .f => (s.core t).f[op.reg]).toNat / 256 ^ i))) ∧
    (2 ^ 22 < a + n → Runs s t (.ls t op k) (((faultBase s t).countCorrected t k).coreFault t 0x2 a)) ∧
    (a + n ≤ 2 ^ 22 → a % n ≠ 0 → Runs s t (.ls t op k) (((faultBase s t).countCorrected t k).coreFault t 0x3 a))

/-- R157, R158: FP writes the IEEE result to fRD (a compare 0 or 1 to gRD), CVT writes the converted value; a NaN operand of an arithmetic
operation gives the canonical NaN, minimum and maximum take −0 below +0, a finite nonzero value divided by zero is an
infinity of the operands' sign. Nothing else changes but the counters of a conversion. -/
def Obligations.ScalarFloat : Prop :=
  (∀ (s : State) (t : TileId) (op : FpOp) (rnd : Rnd) (rd rs1 rs2 rs3 : RegId), Issues s t →
    let c := s.core t
    let v := fpValue op (fp64.decode (c.f[rs1]).toNat) (fp64.decode (c.f[rs2]).toNat) (fp64.decode (c.f[rs3]).toNat)
    Runs s t (.fp t op rnd rd rs1 rs2 rs3) (retired s t fun c =>
      if fpCompares op then (if rd = 0 then c else { c with g := c.g.set rd (if v.isZero then 0 else 1) })
      else { c with f := c.f.set rd (BitVec.ofNat 64 (fp64.ieee rnd v)) })) ∧
  (∀ (s : State) (t : TileId) (cvc fmtD fmtS : BitVec 4) (rd rs1 : RegId), Issues s t →
    cvc.toNat % 4 < 2 → fmtD.toNat < 10 → fmtS.toNat < 10 →
    let r := convertFmt fmtD.toNat 0 (cvcOf cvc.toNat) 0 (isIntFmt fmtS.toNat) ((s.core t).cvtSource fmtS.toNat rs1)
    Runs s t (.cvt t cvc fmtD fmtS rd rs1) (issued s t fun y =>
      let z := y.countAll fmtD.toNat [r]
      { z with core := z.core.cvtDest fmtD.toNat rd r.1 })) ∧
  (∀ (rnd : Rnd) (x y : Machine.Num) (op : FpOp), op = .add ∨ op = .sub ∨ op = .mul ∨ op = .div ∨ op = .min ∨ op = .max →
    fp64.ieee rnd (fpValue op .nan x y) = 0x7FF8000000000000 ∧ fp64.ieee rnd (fpValue op x .nan y) = 0x7FF8000000000000) ∧
  (∀ rnd : Rnd, fp64.ieee rnd (fpValue .min (fp64.decode 0) (fp64.decode (2 ^ 63)) .nan) = 2 ^ 63 ∧
    fp64.ieee rnd (fpValue .max (fp64.decode (2 ^ 63)) (fp64.decode 0) .nan) = 0)

/-! ### Control core: queues, sync operations, status registers, regions, vectors (07, 08, 10) -/

namespace Sys2Proof.Claims

/-- The addresses a MOP works at: the latch of MOPADR when it holds values, else those of the record (R160). -/
def mopAddrs (c : Core) (r : BitVec 256) : Nat × Nat × Nat :=
  match c.latch with
  | some l => (l.1.toNat, l.2.1.toNat, l.2.2.toNat)
  | none => recordAddrs r

/-- n bytes of the tile store at a as one number. -/
def storeNum (s : State) (t : TileId) (a n : Nat) : Nat := leNat ((List.range n).map fun i => s.storeByte t (a + i))

/-- The sync operation that a core of partition p hands to the fabric. -/
def sentOp (s : State) (t : TileId) (p : Pid) (ref : Word) (op : SyncOp) (ordered reply : Bool) : SyncSent :=
  let c := s.core t
  { id := s.sync.nextId, src := t, pid := p
    remote := if bit ref 63 && decide (bits ref 47 32 ≠ s.links.modId.toNat) then some (BitVec.ofNat 16 (bits ref 47 32)) else none
    index := BitVec.ofNat 16 (bits ref 15 0), op := op
    needM := if ordered then c.missued else 0, needD := if ordered then c.dissued else 0
    needU := if ordered then c.uissued else 0, issue := s.now, reply := reply
    needX := if bit ref 63 && decide (bits ref 47 32 ≠ s.links.modId.toNat) then
      ((s.peer p (BitVec.ofNat 16 (bits ref 47 32))).map (·.xfers)).getD 0 else 0 }

/-- s after the operation left: a core that needs an answer waits at the instruction, the others go on. -/
def sent (s : State) (t : TileId) (x : SyncSent) (answer : Option Resume) : State :=
  let u := match answer with
    | some r => (faultBase s t).modCore t fun c => { c with status := .waiting, resume := some r }
    | none => retired s t id
  { u with sync := { s.sync with sent := s.sync.sent ++ [x], nextId := s.sync.nextId + 1 } }

end Sys2Proof.Claims

/-- R159 to R161, R182: MOPADR latches three offsets. MOP, DMA, WUPD, NCLR, NSQ, NST and NADD with room in their queue, an aligned
offset inside the tile store and a descriptor that passes its checks put one operation at the end of the queue, count it as
issued and go on; with a full queue nothing changes. A failed offset check is a core fault with CAUSE 0x4, a descriptor that fails a
check a fault of its engine with the cause of that check, a WUPD inside a replay region a core fault with CAUSE 0x8. -/
def Obligations.EngineIssue : Prop :=
  ∀ (s : State) (t : TileId) (rs1 : RegId), Issues s t →
    let y := s.tile t
    let c := s.core t
    let off := (c.rg rs1).toNat
    let q : QMop := let r := BitVec.ofNat 256 (storeNum s t off 32)
      { record := r, aAddr := (mopAddrs c r).1, bAddr := (mopAddrs c r).2.1, cAddr := (mopAddrs c r).2.2, offset := off, pc := c.pc,
        seq := c.seq, passes := 0, loads := 0, issued := (s.tile t).array.ac, lastAt := 0 }
    let d : QDma := { desc := BitVec.ofNat 512 (storeNum s t off 64), vtid := c.vtid, veidx := c.veidx, offset := off, pc := c.pc,
                      seq := c.seq, ran := false }
    let upd (op : UpdOp) (o : Nat) : State := issued s t fun y =>
      { y with upds := y.upds ++ [{ op := op, offset := o, pc := c.pc, seq := c.seq, ran := false }]
               core := { y.core with uissued := y.core.uissued + 1, seq := y.core.seq + 1 } }
    (∀ rd rs2 : RegId, Runs s t (.mopadr t rd rs1 rs2) (retired s t fun c =>
      { c with latch := some ((c.rg rd).setWidth 32, (c.rg rs1).setWidth 32, (c.rg rs2).setWidth 32) })) ∧
    (8 ≤ y.mops.length → Runs s t (.mop t rs1) s) ∧
    (∀ k, y.mops.length < 8 → off % 32 = 0 → off + 32 ≤ 2 ^ 22 → s.mopCheck t q = some k → Runs s t (.mop t rs1)
      (((faultBase s t).modCore t fun c => { c with latch := none }).tileFault t .mop k off c.pc false)) ∧
    (∀ k p, y.dmas.length < 16 → off % 64 = 0 → off + 64 ≤ 2 ^ 22 → s.partOfTile t = some p → s.dmaCheck p (dmaOf d.desc) = some k →
      Runs s t (.dma t rs1) ((faultBase s t).tileFault t .dma k off c.pc false)) ∧
    (y.upds.length < 4 → c.region ≠ none → Runs s t (.wupd t rs1) ((faultBase s t).coreFault t 0x8 0)) ∧
    (y.upds.length < 4 → c.region = none → off % 128 ≠ 0 ∨ 2 ^ 22 < off + 128 →
      Runs s t (.wupd t rs1) ((faultBase s t).coreFault t 0x4 off)) ∧
    (∀ k p, y.upds.length < 4 → c.region = none → off % 128 = 0 → off + 128 ≤ 2 ^ 22 → s.partOfTile t = some p →
      s.wupdCheck p (s.imageOf t) (wupdOf (BitVec.ofNat 1024 (storeNum s t off 128))) = some k →
      Runs s t (.wupd t rs1) ((faultBase s t).tileFault t .upd k off c.pc false)) ∧
    (∀ a : Fin 4, y.upds.length < 4 → off % 64 ≠ 0 ∨ 2 ^ 22 < off + 128 →
      Runs s t (.nst t rs1 a) ((faultBase s t).coreFault t 0x4 off) ∧ Runs s t (.nadd t rs1 a) ((faultBase s t).coreFault t 0x4 off)) ∧
    (∀ (a : Fin 4) (rd rs2 : RegId) (fmt : BitVec 4), y.upds.length < 4 → let w := fmtBytes fmt.toNat
      (off % w ≠ 0 ∨ 2 ^ 22 < off + (c.rg rs2).toNat * w → Runs s t (.nsq t rd rs1 rs2 fmt a) ((faultBase s t).tileFault t .upd 0x6 off c.pc false)) ∧
      (off % w = 0 → off + (c.rg rs2).toNat * w ≤ 2 ^ 22 → fmt = 4 ∨ fmt = 5 → fp64Scale (c.rf rd) = false →
        Runs s t (.nsq t rd rs1 rs2 fmt a) ((faultBase s t).tileFault t .upd 0x9 off c.pc false))) ∧
    (y.mops.length < 8 → off % 32 ≠ 0 ∨ 2 ^ 22 < off + 32 → Runs s t (.mop t rs1) ((faultBase s t).coreFault t 0x4 off)) ∧
    (y.mops.length < 8 → off % 32 = 0 → off + 32 ≤ 2 ^ 22 → s.mopCheck t q = none →
      Runs s t (.mop t rs1) (issued s t fun y =>
        { y with mops := y.mops ++ [q]
                 core := { y.core with latch := none, missued := y.core.missued + 1, seq := y.core.seq + 1 } })) ∧
    (16 ≤ y.dmas.length → Runs s t (.dma t rs1) s) ∧
    (y.dmas.length < 16 → off % 64 ≠ 0 ∨ 2 ^ 22 < off + 64 → Runs s t (.dma t rs1) ((faultBase s t).coreFault t 0x4 off)) ∧
    (y.dmas.length < 16 → off % 64 = 0 → off + 64 ≤ 2 ^ 22 → (∀ p, s.partOfTile t = some p → s.dmaCheck p (dmaOf d.desc) = none) →
      Runs s t (.dma t rs1) (issued s t fun y =>
        { y with dmas := y.dmas ++ [d], core := { y.core with dissued := y.core.dissued + 1, seq := y.core.seq + 1 } })) ∧
    (y.upds.length < 4 → c.region = none → off % 128 = 0 → off + 128 ≤ 2 ^ 22 →
      (∀ p, s.partOfTile t = some p →
        s.wupdCheck p (s.imageOf t) (wupdOf (BitVec.ofNat 1024 (storeNum s t off 128))) = none) →
      Runs s t (.wupd t rs1) (upd (.wupd (BitVec.ofNat 1024 (storeNum s t off 128))) off)) ∧
    (∀ a : Fin 4, y.upds.length < 4 →
      Runs s t (.nclr t a) (upd (.nclr a) 0) ∧
      (off % 64 = 0 → off + 128 ≤ 2 ^ 22 →
        Runs s t (.nst t rs1 a) (upd (.nst off a) off) ∧ Runs s t (.nadd t rs1 a) (upd (.nadd off a) off)) ∧
      ∀ (rd rs2 : RegId) (fmt : BitVec 4), off % fmtBytes fmt.toNat = 0 → off + (c.rg rs2).toNat * fmtBytes fmt.toNat ≤ 2 ^ 22 →
        ((fmt = 4 ∨ fmt = 5) → fp64Scale (c.rf rd) = true) →
        Runs s t (.nsq t rd rs1 rs2 fmt a) (upd (.nsq off (c.rg rs2).toNat (c.rf rd) fmt a) off)) ∧
    (∀ (a : Fin 4) (rd rs2 : RegId) (fmt : BitVec 4), 4 ≤ y.upds.length →
      Runs s t (.wupd t rs1) s ∧ Runs s t (.nclr t a) s ∧ Runs s t (.nst t rs1 a) s ∧
      Runs s t (.nadd t rs1 a) s ∧ Runs s t (.nsq t rd rs1 rs2 fmt a) s)

/-- R159, R182: MWAIT n, DWAIT n and UWAIT n go on exactly when at most n of the tile's MOPs, transfers or update operations are
incomplete, and change nothing while more are. -/
def Obligations.CountWaits : Prop :=
  ∀ (s : State) (t : TileId) (n : BitVec 6), Issues s t →
    Runs s t (.mwait t n) (if (s.tile t).mops.length ≤ n.toNat then retired s t id else s) ∧
    Runs s t (.dwait t n) (if (s.tile t).dmas.length ≤ n.toNat then retired s t id else s) ∧
    Runs s t (.uwait t n) (if (s.tile t).upds.length ≤ n.toNat then retired s t id else s)

/-- R162, R163: SOLVE with an aligned record of a channel of its own program, no transfer incomplete and room in the channel's queue of
16 puts a copy of the record there; with transfers incomplete or the queue full nothing changes. SWAIT on a record with DONE =
1 copies its 64 bytes to the tile store and leaves DONE; with DONE = 0 nothing changes. Operands that are not allowed are core faults. -/
def Obligations.SolveIssue : Prop :=
  (∀ (s : State) (t : TileId) (rs1 : RegId) (m : ChanMap), Issues s t →
    let off := ((s.core t).rg rs1).toNat
    let r : BitVec 512 := BitVec.ofNat 512 (storeNum s t off 64)
    let full := 16 ≤ (s.chan m.eng m.ch).queue.length
    ((s.core t).region ≠ none → Runs s t (.solve t rs1) ((faultBase s t).coreFault t 0x8 0)) ∧
    ((s.core t).region = none → off % 64 ≠ 0 ∨ 2 ^ 22 < off + 64 → Runs s t (.solve t rs1) ((faultBase s t).coreFault t 0x4 off)) ∧
    ((s.core t).region = none → off % 64 = 0 → off + 64 ≤ 2 ^ 22 → s.solveTarget t off = none → (s.tile t).dmas = [] →
      Runs s t (.solve t rs1) ((faultBase s t).coreFault t 0xB off)) ∧
    ((s.core t).region = none → off % 64 = 0 → off + 64 ≤ 2 ^ 22 → s.solveTarget t off = some m →
    ((s.tile t).dmas ≠ [] ∨ full → Runs s t (.solve t rs1) s) ∧
    ((s.tile t).dmas = [] → ¬ full →
      Runs s t (.solve t rs1) ((retired s t id).modChan m.eng m.ch fun c =>
        { c with queue := c.queue ++ [{ record := r, issuer := .tile t }]
                 tStart := if c.queue = [] then some s.now else c.tStart })))) ∧
  ∀ (s : State) (t : TileId) (rs1 rs2 : RegId) (p : Pid), Issues s t → s.partOfTile t = some p → Memory.wf s.mem = true →
    let a := ((s.core t).rg rs1).toNat
    let d := ((s.core t).rg rs2).toNat
    (a % 64 ≠ 0 ∨ d % 64 ≠ 0 ∨ 2 ^ 22 < d + 64 ∨ (s.part p).siloSize < a + 64 →
      Runs s t (.swait t rs1 rs2) ((faultBase s t).coreFault t 0x5 d)) ∧
    (a % 64 = 0 → d % 64 = 0 → d + 64 ≤ 2 ^ 22 → a + 64 ≤ (s.part p).siloSize →
    (s.siloFenced p a 64 = true → Runs s t (.swait t rs1 rs2) ((faultBase s t).killLaunch p eRetired)) ∧
    (s.siloFenced p a 64 = false → s.siloBad p a 64 = true → Runs s t (.swait t rs1 rs2) ((faultBase s t).coreUncorrectable t p a)) ∧
    (s.siloFenced p a 64 = false → s.siloBad p a 64 = false →
    (leNat (s.siloBytes p a 8) % 2 = 0 ∨ s.accessHeld t true (d, 64) = true → Runs s t (.swait t rs1 rs2) s) ∧
    (leNat (s.siloBytes p a 8) % 2 = 1 → s.accessHeld t true (d, 64) = false →
      Fetches s t (.swait t rs1 rs2) → ∃ m, exec (.swait t rs1 rs2) s = .next { retired s t id with mem := m } ∧
        Stored s.mem m (tileAddr t + d) (s.siloBytes p a 64))))

/-- R247, R248: a sync instruction whose reference is well formed and names an object of its partition hands one operation to the fabric,
with the counts of the work it must follow where it publishes results. STAKE, SARR, SWANY, SWALL and SWGE, and the others when
they ask for a status, leave the core waiting; otherwise the core goes on. A malformed reference is a core fault with CAUSE
0x7. -/
def Obligations.SyncIssue : Prop :=
  ∀ (s : State) (t : TileId) (rd rs1 rs2 : RegId) (p : Pid), Issues s t → s.partOfTile t = some p →
    let ref := (s.core t).rg rs1
    let x := (s.core t).rg rs2
    let bad := bits ref 31 16 ≠ 0 ∨ bits ref 62 48 ≠ 0 ∨ (bit ref 63 = false ∧ bits ref 47 32 ≠ 0) ∨
      (s.part p).entry.blk.length ≤ (bits ref 15 0) / 1024
    let posts : List (Instr × SyncOp × Bool) :=
      [(.ssig t rd rs1 rs2, .signal x, true), (.ssetf t rd rs1 rs2, .setf x, true), (.sclrf t rd rs1 rs2, .clrf x, true),
       (.sadv t rd rs1 rs2, .adv x, true)]
    let waits : List (Instr × SyncOp × Bool) :=
      [(.stake t rd rs1 rs2, .take x, false), (.sarr t rd rs1 rs2, .arrive (bit x 0), true),
       (.swany t rd rs1 rs2, .wany x, false), (.swall t rd rs1 rs2, .wall x, false), (.swge t rd rs1 rs2, .wge x, false)]
    (¬ bad → ∀ i ∈ posts,
      Runs s t i.1 (sent s t (sentOp s t p ref i.2.1 i.2.2 (decide (rd ≠ 0))) (if rd = 0 then none else some (.status rd)))) ∧
    (¬ bad → bit ref 63 = false → ∀ i ∈ waits,
      Runs s t i.1 (sent s t (sentOp s t p ref i.2.1 i.2.2 true) (some (.status rd)))) ∧
    (bad → ∀ i ∈ posts ++ waits, Runs s t i.1 ((faultBase s t).coreFault t 0x7 0)) ∧
    (bit ref 63 = true → ∀ i ∈ waits, Runs s t i.1 ((faultBase s t).coreFault t 0x7 0))

/-- R165, R172, R176: CSRR copies a core status register to gRD; CSRW changes only VSTAT (write 1 to clear), VIDLE (0 or 64 to 65,535,
else unchanged), VTID and VEIDX; VCLAIM grants min(request, 2,048 × GRP / EW) and sets VCFG without waking the unit; the unit falls
asleep with its registers kept. -/
def Obligations.StatusRegisters : Prop :=
  ∀ (s : State) (t : TileId), 
    let c := s.core t
    (Issues s t → ∀ (rd rs1 : RegId) (csr : Csr) (ew : Ew) (grp : Grp),
      let v : Word := match csr with
        | .ltile => BitVec.ofNat 64 c.ltile
        | .lsheaf => BitVec.ofNat 64 c.lsheaf
        | .gtime => if t.val < 64 then s.time.cd0 else s.time.cd1
        | .missued => c.missued
        | .mdone => c.mdone
        | .dissued => c.dissued
        | .ddone => c.ddone
        | .vcfg => BitVec.ofNat 64 (c.vl.toNat * 2 ^ 16 + c.vew.toNat * 2 ^ 4 + c.vgrp.toNat)
        | .vstat => BitVec.ofNat 64 (b2n c.vsat)
        | .vidle => BitVec.ofNat 64 c.vidle.toNat
        | .vtid => c.vtid
        | .veidx => c.veidx
      let x := c.rg rs1
      let n := min (c.rg rs1).toNat (2048 * (match grp with | .g1 => 1 | .g2 => 2 | .g4 => 4 | .g8 => 8) / ewBits ew)
      Runs s t (.csrr t rd csr) (retired s t fun c => if rd = 0 then c else { c with g := c.g.set rd v }) ∧
      Runs s t (.csrw t .vstat rs1) (retired s t fun c => { c with vsat := c.vsat && !bit x 0 }) ∧
      Runs s t (.csrw t .vidle rs1) (retired s t fun c =>
        { c with vidle := if x = 0 ∨ (64 ≤ x.toNat ∧ x.toNat ≤ 65535) then x.setWidth 16 else c.vidle }) ∧
      Runs s t (.csrw t .vtid rs1) (retired s t fun c => { c with vtid := x }) ∧
      Runs s t (.csrw t .veidx rs1) (retired s t fun c => { c with veidx := x }) ∧
      Runs s t (.vclaim t rd rs1 ew grp) (retired s t fun c =>
        { c with g := if rd = 0 then c.g else c.g.set rd (BitVec.ofNat 64 n)
                 vl := BitVec.ofNat 12 n
                 vew := (match ew with | .e8 => 0 | .e16 => 1 | .e32 => 2 | .e64 => 3)
                 vgrp := (match grp with | .g1 => 0 | .g2 => 1 | .g4 => 2 | .g8 => 3) })) ∧
    (c.awake = true → c.vidle ≠ 0 → exec (.vectorSleep t) s = .next (s.modCore t fun c => { c with awake := false })) ∧
    (c.awake = false ∨ c.vidle = 0 → exec (.vectorSleep t) s = .fault (.notDue "VECTOR_SLEEP"))

/-- R166, R200 to R205: HALT stops the core once all it issued has completed and waits until then; inside a replay region it is a core
fault with CAUSE 0x8. RBEGIN outside a region with a known RID and an aligned rung table opens the region with a snapshot of the
registers; RCHECK with nothing in flight sends the arrival at the region's barrier and waits; RCMPB and RCMPE open and close a
span, and out of turn are core faults with CAUSE 0x8. -/
def Obligations.HaltAndRegions : Prop :=
  ∀ (s : State) (t : TileId), Issues s t →
    let c := s.core t
    let y := s.tile t
    let idle := y.mops = [] ∧ y.dmas = [] ∧ y.upds = []
    let fault := (faultBase s t).coreFault t 0x8 0
    (c.region = none → idle → Runs s t (.halt t) { ((faultBase s t).modCore t fun c => { c with status := .halted }) with
      sync := { s.sync with sent := s.sync.sent.map fun x => if x.src = t then { x with needM := 0, needD := 0, needU := 0 } else x } }) ∧
    (c.region = none → ¬ idle → Runs s t (.halt t) s) ∧
    (c.region ≠ none → Runs s t (.halt t) fault) ∧
    (∀ (rs1 rs2 : RegId) (r : RegionRec),
      let rid := (c.rg rs1).toNat
      let a := (c.rg rs2).toNat
      (c.region = none → s.regionRec t rid = some r → a + 16 ≤ 2 ^ 22 → a % 16 = 0 → s.accessHeld t false (a, 16) = false →
        Runs s t (.rbegin t rs1 rs2) (retired s t fun c =>
          { c with region := some { rid := BitVec.ofNat 16 rid, rung := 0
                                    table := (List.range 4).map fun i => BitVec.ofNat 32 (storeNum s t (a + 4 * i) 4)
                                    snapG := c.g, snapF := c.f, flag := false } })) ∧
      (c.region ≠ none ∨ s.regionRec t rid = none → Runs s t (.rbegin t rs1 rs2) fault) ∧
      (c.region = none → s.regionRec t rid = some r →
        (2 ^ 22 < a + 16 → Runs s t (.rbegin t rs1 rs2) ((faultBase s t).coreFault t 0x2 a)) ∧
        (a + 16 ≤ 2 ^ 22 → a % 16 ≠ 0 → Runs s t (.rbegin t rs1 rs2) ((faultBase s t).coreFault t 0x3 a)) ∧
        (a + 16 ≤ 2 ^ 22 → a % 16 = 0 → s.accessHeld t false (a, 16) = true → Runs s t (.rbegin t rs1 rs2) s))) ∧
    (∀ g : Region, c.region = some g → s.regionRec t g.rid.toNat = none → idle → Runs s t (.rcheck t) fault) ∧
    (∀ (g : Region) (r : RegionRec) (p : Pid), c.region = some g → s.partOfTile t = some p → s.regionRec t g.rid.toNat = some r →
      (idle → Runs s t (.rcheck t) (sent s t (sentOp s t p (BitVec.ofNat 64 r.bar) (.arrive g.flag) true true) (some .rcheck))) ∧
      (¬ idle → Runs s t (.rcheck t) s)) ∧
    (c.region = none → Runs s t (.rcheck t) fault) ∧
    Runs s t (.rcmpb t) (if c.span then fault else retired s t fun c => { c with span := true }) ∧
    Runs s t (.rcmpe t) (if c.span then retired s t fun c => { c with span := false } else fault)

/-- R206: STASHA takes n from a quota when the count stays within the program's limit (gRD = 1) and else changes nothing (gRD = 0);
STASHR gives n back, and giving back more than is taken is a core fault with CAUSE 0x9. Quotas 0 to 3 of the tile's logical sheaf
are the ones that exist; of another one nothing can be taken (log 34, the model's choice). -/
def Obligations.StashQuotas : Prop :=
  ∀ (s : State) (t : TileId) (rd rs1 rs2 : RegId) (p : Pid), Issues s t → s.partOfTile t = some p →
    let c := s.core t
    let q := (c.rg rs1).toNat
    let n := (c.rg rs2).toNat
    let i := 4 * c.lsheaf + q
    let have_ := (s.part p).stash[i]?.getD 0
    let put (k : Nat) (u : State) : State := u.modPart p fun x => { x with stash := x.stash.set i k }
    (4 ≤ q → Runs s t (.stasha t rd rs1 rs2) (retired s t fun c => if rd = 0 then c else { c with g := c.g.set rd (if n = 0 then 1 else 0) }) ∧
      Runs s t (.stashr t rs1 rs2) (if n = 0 then retired s t id else (faultBase s t).coreFault t 0x9 0)) ∧
    (q < 4 → (n = 0 ∨ have_ + n ≤ s.stashLimit t q → Runs s t (.stasha t rd rs1 rs2) (put (have_ + n)
      (retired s t fun c => if rd = 0 then c else { c with g := c.g.set rd 1 }))) ∧
    (¬ (n = 0 ∨ have_ + n ≤ s.stashLimit t q) → Runs s t (.stasha t rd rs1 rs2)
      (retired s t fun c => if rd = 0 then c else { c with g := c.g.set rd 0 })) ∧
    (n ≤ have_ → Runs s t (.stashr t rs1 rs2) (put (have_ - n) (retired s t id))) ∧
    (have_ < n → Runs s t (.stashr t rs1 rs2) ((faultBase s t).coreFault t 0x9 0)))

/-- R173 to R178: a vector instruction whose registers and width fit VCFG wakes the unit and writes exactly the active elements of its
destination, each from the elements its sources held before; a short VINT works on the overlay and leaves the unit and VCFG
alone. A shape that does not fit is a core fault with CAUSE 0x6. Which floating-point, reduction and load functions there are is
the model's list (log 22). -/
def Obligations.VectorInstructions : Prop :=
  ∀ (s : State) (t : TileId), Issues s t →
    let c := s.core t
    let fault := (faultBase s t).coreFault t 0x6 0
    let vec (f : Core → Core) : State := retired s t fun c => { f c with awake := true }
    (∀ op : VIntOp, vintLoads op = true →
      (op.short = true → Runs s t (.vint t op) (retired s t fun c => c.shortInt op)) ∧
      (op.short = false → c.shapeOk op.ew (vintNarrows op.fn) [op.vd, op.vs1, op.vs2] = false → Runs s t (.vint t op) fault) ∧
      (op.short = false → c.shapeOk op.ew (vintNarrows op.fn) [op.vd, op.vs1, op.vs2] = true →
        Runs s t (.vint t op) (vec fun c => c.longInt op))) ∧
    (∀ (op : VFpOp) (f : FFmt), vfpFormat op.fmt op.ew = some f →
      Runs s t (.vfp t op) (if c.shapeOk op.ew false [op.vd, op.vs1, op.vs2] then
        vec fun c => c.setElems op.vd (ewBits op.ew) ((c.actives op.mask).map fun i => (i, f.ieee op.rnd (vfpValue op.fn
          (f.decode (c.elem op.vs1 (ewBits op.ew) i)) (f.decode (c.elem op.vs2 (ewBits op.ew) i))
          (f.decode (c.elem op.vd (ewBits op.ew) i))))) else fault)) ∧
    (∀ op : VCvtOp, vcvtLoads op = true →
      Runs s t (.vcvt t op) (if c.shapeOk op.ew (vcvtNarrows op) [op.vd, op.vs1] then
        issued s t fun y =>
          let z := if vcvtCopies op then y else y.countAll op.fmtD.toNat ((c.convertElems op).map (·.2))
          { z with core := { (z.core.setElems op.vd (ewBits op.ew)
              ((c.convertElems op).map fun r => (r.1, r.2.1))) with awake := true } } else fault)) ∧
    (∀ (op : VRedOp) (f : FFmt), (op.fn = .fsum → vfpFormat op.fmt op.ew = some f) → (op.fn ≠ .fsum → f = fp64) →
      Runs s t (.vred t op) (if c.shapeOk op.ew false [op.vd, op.vs1, op.vs2] then
        vec fun c => c.setElems op.vd (ewBits op.ew) (c.reduce op f) else fault)) ∧
    (∀ op : VLsOp,
      let a := (c.rg op.base).toNat
      let w := ewBits op.ew / 8
      let len := c.vl.toNat * w
      let woken := (faultBase s t).modCore t fun c => { c with awake := true }
      (c.shapeOk op.ew false [op.vreg] = false → Runs s t (.vls t op) fault) ∧
      (c.shapeOk op.ew false [op.vreg] = true → len ≠ 0 →
        (2 ^ 22 < a + len → Runs s t (.vls t op) (woken.coreFault t 0x2 a)) ∧
        (a + len ≤ 2 ^ 22 → a % w ≠ 0 → Runs s t (.vls t op) (woken.coreFault t 0x3 a)) ∧
        (a + len ≤ 2 ^ 22 → a % w = 0 → s.accessHeld t op.store (a, len) = true → Runs s t (.vls t op) s)) ∧
      (c.shapeOk op.ew false [op.vreg] = true → a + c.vl.toNat * w ≤ 2 ^ 22 → a % w = 0 →
      s.accessHeld t op.store (a, c.vl.toNat * w) = false →
      (op.store = false → Runs s t (.vls t op) (vec fun c =>
        c.setElems op.vreg (8 * w) ((c.actives op.mask).map fun i => (i, storeNum s t (a + i * w) w)))) ∧
      (op.store = true → Memory.wf s.mem = true → Fetches s t (.vls t op) → ∃ m, exec (.vls t op) s = .next { vec id with mem := m } ∧
        (∀ i k, i < c.vl.toNat → c.active op.mask i = true → k < w →
          Memory.read m (tileAddr t + a + i * w + k) = BitVec.ofNat 8 (c.elem op.vreg (8 * w) i / 256 ^ k)) ∧
        ∀ x, (∀ i, i < c.vl.toNat → c.active op.mask i = true → x < tileAddr t + a + i * w ∨ tileAddr t + a + i * w + w ≤ x) →
          Memory.read m x = Memory.read s.mem x)))

/-- R173, R174: writing a list of results to the elements of a register group whose VL elements fit in the group leaves each element of
the list with its result and every other element of every register as it was. -/
def Obligations.ElementWrites : Prop :=
  ∀ (c : Core) (r : RegId) (ew : Ew) (xs : List (Nat × Nat)) (k : Nat),
    r.val + k ≤ 32 → (xs.map (·.1)).Nodup → (∀ x ∈ xs, ewBits ew * (x.1 + 1) ≤ 2048 * k) →
    let d := c.setElems r (ewBits ew) xs
    (∀ x ∈ xs, d.elem r (ewBits ew) x.1 = x.2 % 2 ^ ewBits ew) ∧
    (∀ i, ewBits ew * (i + 1) ≤ 2048 * k → i ∉ xs.map (·.1) → d.elem r (ewBits ew) i = c.elem r (ewBits ew) i) ∧
    (∀ v : RegId, v.val < r.val ∨ r.val + k ≤ v.val → d.v[v] = c.v[v]) ∧
    { d with v := c.v } = c

/-- R178: the fixed-point functions on elements of w bits, as integers: sums and differences wrap, saturating ones clamp and say so, shifts
and averages round as their FRM says. -/
def Obligations.FixedPointElements : Prop :=
  ∀ (ew : Ew) (frm : Sys2Proof.Frm) (a b : Nat), let w := ewBits ew
    a < 2 ^ w → b < 2 ^ w →
    let sa := signedOf w a
    let sb := signedOf w b
    signedOf w (vintElem .vadd frm w a b).1 = (sa + sb).bmod (2 ^ w) ∧
    signedOf w (vintElem .vsub frm w a b).1 = (sa - sb).bmod (2 ^ w) ∧
    signedOf w (vintElem .vsadd frm w a b).1 = max (-(2 ^ (w - 1))) (min (2 ^ (w - 1) - 1) (sa + sb)) ∧
    ((vintElem .vsadd frm w a b).2 = true ↔ sa + sb < -(2 ^ (w - 1)) ∨ 2 ^ (w - 1) - 1 < sa + sb) ∧
    signedOf w (vintElem .vssub frm w a b).1 = max (-(2 ^ (w - 1))) (min (2 ^ (w - 1) - 1) (sa - sb)) ∧
    (vintElem .vsaddu frm w a b).1 = min (2 ^ w - 1) (a + b) ∧
    (vintElem .vssubu frm w a b).1 = a - b ∧
    ((vintElem .vssubu frm w a b).2 = true ↔ a < b) ∧
    signedOf w (vintElem .vrshr .rdn w a b).1 = sa / 2 ^ (b % w) ∧
    signedOf w (vintElem .vavg .rdn w a b).1 = (sa + sb) / 2

/-- R179: rounding takes the exact quotient x / 2^k and gives the integer of Table Fixed-point rounding: RNU the floor of the quotient plus
a half, RNE the nearest integer and of two the even one, RDN the floor, ROD the floor with bit 0 set when the quotient is no
integer. -/
def Obligations.FixedPointRounding : Prop :=
  ∀ (x : Int) (k : Nat), let f := x / 2 ^ k
    frmRound .rnu x k = (2 * x + 2 ^ k) / 2 ^ (k + 1) ∧ frmRound .rdn x k = f ∧
    (|2 * (x - frmRound .rne x k * 2 ^ k)| ≤ 2 ^ k ∧ (|2 * (x - frmRound .rne x k * 2 ^ k)| = 2 ^ k → frmRound .rne x k % 2 = 0)) ∧
    frmRound .rod x k = if x % 2 ^ k ≠ 0 ∧ f % 2 = 0 then f + 1 else f

namespace Sys2Proof.Claims

/-- An instruction word of Table Instruction layout (R153). -/
def wordAt (major : Nat) (rd rs1 rs2 : RegId) (func : Nat) : Nat :=
  major * 2 ^ 26 + rd.val * 2 ^ 21 + rs1.val * 2 ^ 16 + rs2.val * 2 ^ 11 + func

/-- MAJOR codes of Table Instruction classes that are reserved (R153). -/
def majorReserved (m : Nat) : Prop := m = 0 ∨ m = 0x07 ∨ m = 0x0E ∨ m = 0x0F ∨ (0x16 ≤ m ∧ m ≤ 0x3F)

end Sys2Proof.Claims

/-- R153, R158, R159, R165, R172, R178, R183, R208, R247: the words of the tables stand for their commands, with every register and every
immediate; a reserved MAJOR is no instruction. A command that the word at the program counter does not stand for is not the
core's next, and a word of a class whose functions are listed stands for one command. R155: when the program counter has passed
the end of the code section, the next instruction of any kind is a core fault with CAUSE 0x1, and nothing else of it happens. -/
def Obligations.CodeSectionEnd : Prop :=
  (∀ (t : TileId) (rd rs1 rs2 : RegId) (n : BitVec 6) (a : Fin 4),
    (∀ x ∈ ([(wordAt 0x08 rd rs1 rs2 0x000, .mopadr t rd rs1 rs2), (wordAt 0x08 0 rs1 0 0x040, .mop t rs1),
        (wordAt 0x08 0 0 0 (0x080 + n.toNat), .mwait t n), (wordAt 0x09 0 rs1 0 0x000, .dma t rs1),
        (wordAt 0x09 0 0 0 (0x040 + n.toNat), .dwait t n), (wordAt 0x0A 0 rs1 0 0x000, .solve t rs1),
        (wordAt 0x0A 0 rs1 rs2 0x040, .swait t rs1 rs2)] : List (Nat × Instr)), coreCommand t x.1 = some x.2) ∧
    (∀ x ∈ ([(0x00, .ssig t rd rs1 rs2), (0x01, .stake t rd rs1 rs2), (0x02, .sarr t rd rs1 rs2), (0x03, .ssetf t rd rs1 rs2),
        (0x04, .sclrf t rd rs1 rs2), (0x05, .swany t rd rs1 rs2), (0x06, .swall t rd rs1 rs2), (0x07, .sadv t rd rs1 rs2),
        (0x08, .swge t rd rs1 rs2)] : List (Nat × Instr)), coreCommand t (wordAt 0x0B rd rs1 rs2 (x.1 * 64)) = some x.2) ∧
    (∀ x ∈ ([(wordAt 0x0C 0 rs1 0 0x000, .wupd t rs1), (wordAt 0x0C 0 0 0 (0x040 + n.toNat), .uwait t n),
        (wordAt 0x0C 0 0 0 (0x080 + a.val), .nclr t a), (wordAt 0x0C 0 rs1 0 (0x100 + a.val), .nst t rs1 a),
        (wordAt 0x0C 0 rs1 0 (0x140 + a.val), .nadd t rs1 a)] : List (Nat × Instr)), coreCommand t x.1 = some x.2) ∧
    (∀ f : Nat, 1 ≤ f → f ≤ 5 →
      coreCommand t (wordAt 0x0C rd rs1 rs2 (0x0C0 + f * 4 + a.val)) = some (.nsq t rd rs1 rs2 (BitVec.ofNat 4 f) a)) ∧
    (∀ x ∈ ([(0x000, .ltile), (0x001, .lsheaf), (0x002, .gtime), (0x010, .missued), (0x011, .mdone), (0x012, .dissued), (0x013, .ddone),
        (0x020, .vcfg), (0x021, .vstat), (0x022, .vidle), (0x023, .vtid), (0x024, .veidx)] : List (Nat × Csr)),
      coreCommand t (wordAt 0x0D rd 0 0 x.1) = some (.csrr t rd x.2) ∧
      coreCommand t (wordAt 0x0D 0 rs1 0 (0x200 + x.1)) = if x.1 < 0x021 then none else some (.csrw t x.2 rs1)) ∧
    (∀ x ∈ ([(wordAt 0x0D 0 0 0 0x7FF, .halt t), (wordAt 0x0D 0 rs1 rs2 0x780, .rbegin t rs1 rs2), (wordAt 0x0D 0 0 0 0x781, .rcheck t),
        (wordAt 0x0D 0 0 0 0x782, .rcmpb t), (wordAt 0x0D 0 0 0 0x783, .rcmpe t), (wordAt 0x0D rd rs1 rs2 0x784, .stasha t rd rs1 rs2),
        (wordAt 0x0D 0 rs1 rs2 0x785, .stashr t rs1 rs2)] : List (Nat × Instr)), coreCommand t x.1 = some x.2) ∧
    (∀ (e g : Fin 4), coreCommand t (wordAt 0x10 rd rs1 0 (g.val * 64 + e.val * 4)) = some (.vclaim t rd rs1
      (match e with | 0 => .e8 | 1 => .e16 | 2 => .e32 | 3 => .e64) (match g with | 0 => .g1 | 1 => .g2 | 2 => .g4 | 3 => .g8))) ∧
    ∀ (c : Fin 16) (fd fs : Fin 10), c.val % 4 < 2 →
      coreCommand t (wordAt 0x06 rd rs1 0 (0 : Nat) + c.val * 2 ^ 12 + fd.val * 2 ^ 7 + fs.val * 2 ^ 3) =
        some (.cvt t (BitVec.ofNat 4 c.val) (BitVec.ofNat 4 fd.val) (BitVec.ofNat 4 fs.val) rd rs1)) ∧
  (∀ (t : TileId) (w : Nat), majorReserved (wMajor w) → wordOk w = false ∧ coreCommand t w = none) ∧
  (∀ (t : TileId) (w : Nat) (i j : Instr), (coreCommand t w).isSome = true → spells t w i = true → spells t w j = true → i = j) ∧
  ∀ (s : State) (t : TileId) (op : IntOp) (br : BrOp) (fp : FpOp) (ls : LsOp) (rnd : Rnd) (k : Nat) (n : BitVec 6) (a : Fin 4) (ew : Ew)
      (grp : Grp) (x : Word) (csr : Csr) (fmt cvc : BitVec 4) (vi : VIntOp) (rd rs1 rs2 rs3 : RegId),
    ∀ i ∈ ([(.int t op rd rs1 rs2, "INT"), (.inti t op rd rs1 x, "INTI"), (.ls t ls k, "LS"), (.br t br rd rs1 rs2 x, "BR"),
        (.fp t fp rnd rd rs1 rs2 rs3, "FP"), (.cvt t cvc fmt fmt rd rs1, "CVT"), (.mopadr t rd rs1 rs2, "MOPADR"), (.mop t rs1, "MOP"),
        (.mwait t n, "MWAIT"), (.dma t rs1, "DMA"), (.dwait t n, "DWAIT"), (.solve t rs1, "SOLVE"), (.swait t rs1 rs2, "SWAIT"),
        (.ssig t rd rs1 rs2, "SSIG"), (.stake t rd rs1 rs2, "STAKE"), (.sarr t rd rs1 rs2, "SARR"), (.ssetf t rd rs1 rs2, "SSETF"),
        (.sclrf t rd rs1 rs2, "SCLRF"), (.swany t rd rs1 rs2, "SWANY"), (.swall t rd rs1 rs2, "SWALL"), (.sadv t rd rs1 rs2, "SADV"),
        (.swge t rd rs1 rs2, "SWGE"), (.wupd t rs1, "WUPD"), (.uwait t n, "UWAIT"), (.nclr t a, "NCLR"), (.nsq t rd rs1 rs2 fmt a, "NSQ"),
        (.nst t rs1 a, "NST"), (.nadd t rs1 a, "NADD"), (.csrr t rd csr, "CSRR"), (.csrw t csr rs1, "CSRW"), (.halt t, "HALT"),
        (.rbegin t rs1 rs2, "RBEGIN"), (.rcheck t, "RCHECK"), (.rcmpb t, "RCMPB"), (.rcmpe t, "RCMPE"),
        (.stasha t rd rs1 rs2, "STASHA"), (.stashr t rs1 rs2, "STASHR"), (.vclaim t rd rs1 ew grp, "VCLAIM"),
        (.vint t vi, "VINT")] : List (Instr × String)),
      (s.issuing t = true → s.codeSize t ≤ (s.core t).pc → exec i.1 s = .next ((faultBase s t).coreFault t 0x1 0)) ∧
      ((s.core t).pc < s.codeSize t → ¬ Fetches s t i.1 → exec i.1 s = .fault (.notDue i.2))

/-! ### Arrays, tile DMA, update unit, solve engine (03 to 08) -/

namespace Sys2Proof.Claims

/-- The tile's array changed by f, nothing else. -/
def arrayed (s : State) (t : TileId) (f : ArrayState → ArrayState) : State := s.modTile t fun y => { y with array := f y.array }

/-- d is c but for the flag of its open region, which may have been set (R201). -/
def FlagOnly (c d : Core) : Prop :=
  d = { c with region := d.region } ∧ (d.region = c.region ∨ d.region = c.region.map fun g => { g with flag := true })

/-- s with the tile's queues, counts and array as in u, the memory, the launch's T_END as in u, everything else as before. -/
def TileWork (s u : State) (t : TileId) : Prop :=
  u = { s with tiles := u.tiles, mem := u.mem, parts := u.parts } ∧ (∀ v, v ≠ t → u.tile v = s.tile v) ∧
    ∀ p, (u.part p) = { s.part p with launch := (u.part p).launch } ∧
      (u.part p).launch = (s.part p).launch.map fun l =>
        if s.partOfTile t = some p then { l with tEnd := max l.tEnd s.time.gt.toNat } else l

end Sys2Proof.Claims

/-- R80, R81, R84: the load level of an array moves by one step at a time. It rises by one, 16 ac after the step before, while a MOP that
nothing holds waits without an active hint, or a release found it below 8, and is held when a release's ramp reaches 8; 64 ac after
the last row streamed it falls by one every 16 ac when no MOP can start, no hint is active and no release holds it; with neither it
does not move. A hint raises it to 8 in steps of 256 gt, and 4,096 gt after a hint without its release the hint no longer counts.
Nothing but the array of that tile changes. -/
def Obligations.LoadLevel : Prop :=
  ∀ (s : State) (t : TileId) (ac now : Nat),
    let y := s.tile t
    let a := y.array
    let hinted := a.hint ≠ none ∧ a.hintOver = false
    let step : Instr := .loadLevelStep { tile := t, ac := ac }
    let next := y.mops.find? fun q => decide (q.passes < q.mop.fK * q.mop.fN * q.mop.perBlock)
    let idle := (∀ q, next = some q → y.mopHeld q = true) ∧ s.heldRegion t = none
    (∀ q, next = some q → y.mopHeld q = false → ¬ hinted → a.ramp = false → a.level ≠ 8 →
      a.stepAt + 16 ≤ ac → q.issued + 16 ≤ ac → a.ac ≤ ac →
      exec step s = .next (arrayed s t fun a => { a with ac := ac, level := a.level + 1, stepAt := ac })) ∧
    (a.ramp = true → a.level ≠ 8 → a.stepAt + 16 ≤ ac → a.relAt + 16 ≤ ac → a.ac ≤ ac →
      exec step s = .next (arrayed s t fun a =>
        { a with ac := ac, level := a.level + 1, stepAt := ac
                 ramp := decide (a.level ≠ 7), hold := a.hold || decide (a.level = 7)
                 relAt := if a.level = 7 then ac else a.relAt })) ∧
    (a.level ≠ 0 → idle → ¬ hinted → a.hold = false → a.ramp = false →
      (∀ f m, a.slot = some (f, m) → f + m + 64 + 16 ≤ ac) → 80 ≤ ac → a.stepAt + 16 ≤ ac → a.ac ≤ ac →
      exec step s = .next (arrayed s t fun a => { a with ac := ac, level := a.level - 1, stepAt := ac })) ∧
    (∀ f m, a.slot = some (f, m) → a.ramp = false → idle → ac < f + m + 80 → exec step s = .fault (.notDue "LOAD_LEVEL_STEP")) ∧
    (ac < a.stepAt + 16 → exec step s = .fault (.notDue "LOAD_LEVEL_STEP")) ∧
    (a.level = 0 → a.ramp = false → idle → exec step s = .fault (.notDue "LOAD_LEVEL_STEP")) ∧
    (hinted → a.ramp = false → exec step s = .fault (.notDue "LOAD_LEVEL_STEP")) ∧
    (hinted → a.level ≠ 8 → a.hintNext ≤ (s.at_ now).now →
      exec (.hintRampStep { tile := t, now := now }) s =
        .next (arrayed (s.at_ now) t fun a => { a with level := a.level + 1, hintNext := (s.at_ now).now + 256 })) ∧
    (¬ hinted ∨ a.level = 8 ∨ (s.at_ now).now < a.hintNext →
      exec (.hintRampStep { tile := t, now := now }) s = .fault (.notDue "HINT_RAMP_STEP")) ∧
    (∀ h, a.hint = some h → a.hintOver = false → h + 4096 ≤ (s.at_ now).now →
      exec (.hintLapse t now) s = .next (arrayed (s.at_ now) t fun a => { a with hintOver := true })) ∧
    (∀ h, a.hint = some h → (s.at_ now).now < h + 4096 → exec (.hintLapse t now) s = .fault (.notDue "HINT_LAPSE"))

/-- R66, R68, R77, R78, R83: a block loads in 96 ac into the free shadow register for the oldest MOP with a block to load, unless the block
is resident or the MOP is held, after a change of lane count from the end of the last pass's stream; a pass of the oldest MOP with
passes left starts once its block is there, the slot of the pass before it is over, the level is 8, the stagger of a release has
passed and nothing holds the MOP; re-runs of a pass only count. The block of pass n is the one that R68 names. Nothing else of the
module changes. -/
def Obligations.PassesStart : Prop :=
  ∀ (s : State) (t : TileId) (q : QMop) (pre post : List QMop) (ac : Nat) (k : Fin 3),
    let y := s.tile t
    let a := y.array
    y.mops = pre ++ q :: post → (∀ x ∈ pre ++ post, x.seq ≠ q.seq) →
    let x : ArrayAt := { tile := t, ac := ac }
    let key (i : Nat) : BlockKey := { bAddr := q.bAddr, amode := q.mop.amode, fmtB := q.mop.fmtB, index := i }
    let n := q.loads / q.mop.perBlock
    let block := if q.mop.dir then n % q.mop.fN * q.mop.fK + n / q.mop.fN else n
    let resident := a.keep = true ∧ a.active.map (·.key) = some (key 0) ∧ q.passes = 0 ∧ q.loads = 0
    let streamed := match a.slot with | none => 0 | some f => f.1 + f.2
    let slotOver := match a.slot with | none => 0 | some f => f.1 + max f.2 96
    let fed (keep : Option WeightBlock) (act : Option WeightBlock) (free : Nat) (q' : QMop) : State :=
      s.modTile t fun y =>
        { y with mops := pre ++ { q' with lastAt := ac } :: post
                 retryCnt := satAdd y.retryCnt k.val
                 array := { y.array with ac := ac, shadow := keep, active := act, freeAt := free, slot := some (ac, q.mop.m)
                                         keep := q.mop.wkeep && decide (q.total = 1)
                                         lastQuad := some (decide (lanes q.mop.amode = 4))
                                         hold := false, ramp := false, stagger := none } }
    ((∀ x ∈ pre, x.total ≤ x.loads) → q.loads < q.total → a.shadow = none →
      a.freeAt + 96 ≤ ac → q.issued + 96 ≤ ac → a.ac ≤ ac →
      (q.loads = 0 → ¬ resident ∧ y.mopHeld q = false ∧
        (y.lanesChange q = false ∨ (streamed + 96 ≤ ac ∧ ∀ x ∈ y.mops, q.seq ≤ x.seq ∨ x.passes = x.total))) →
      ∃ b : WeightBlock, b.key = key block ∧ b.words.length = 9216 ∧
        exec (.blockLoad x) s = .next (s.modTile t fun y =>
          { y with mops := pre ++ { q with loads := q.loads + 1 } :: post
                   array := { y.array with ac := ac, shadow := some b } })) ∧
    ((∀ x ∈ pre, x.total ≤ x.loads) → q.loads < q.total → a.shadow ≠ none ∨ resident ∨ ac < a.freeAt + 96 ∨ ac < q.issued + 96 →
      exec (.blockLoad x) s = .fault (.notDue "BLOCK_LOAD")) ∧
    ((∀ x ∈ pre, x.total ≤ x.passes) → q.passes < q.total → a.level = 8 → y.mopHeld q = false → slotOver ≤ ac → a.ac ≤ ac →
      (∀ n, a.stagger = some n → a.relAt + n ≤ ac) → a.shadow ≠ none → q.loads = q.passes + 1 → ¬ resident →
      exec (.passStart x k) s = .next (fed none a.shadow ac { q with passes := q.passes + 1 })) ∧
    ((∀ x ∈ pre, x.total ≤ x.passes) → q.passes < q.total → a.level = 8 → y.mopHeld q = false → slotOver ≤ ac → a.ac ≤ ac →
      (∀ n, a.stagger = some n → a.relAt + n ≤ ac) → resident →
      exec (.passStart x k) s = .next (fed a.shadow a.active a.freeAt { q with passes := 1, loads := 1 })) ∧
    ((∀ x ∈ pre, x.total ≤ x.passes) → q.passes < q.total →
      a.level ≠ 8 ∨ y.mopHeld q = true ∨ ac < slotOver ∨ (∃ n, a.stagger = some n ∧ ac < a.relAt + n) →
      exec (.passStart x k) s = .fault (.notDue "PASS_START"))

/-- R69, R160: MOP_COMPLETE writes every element of C, converted by the drain, at its row-major place, counts one MOP as done and takes
it off the queue; it changes no byte outside C and nothing else of the module but the tile's numeric counters, the flag of its open replay
region and the launch's T_END. An offload MOP of the held region does the same ahead of the queue and changes no count (R131). -/
def Obligations.MopResults : Prop :=
  ∀ (s : State) (t : TileId) (q : QMop) (rest : List QMop) (ac : Nat), Memory.wf s.mem = true →
    let x := q.mop
    let w := fmtBytes x.fmtC
    let place (p i c : Nat) : Nat := tileAddr t + q.cAddr + (p * (x.m * x.cols) + i * x.cols + c) * w
    let Results (u : State) : Prop :=
      (∀ p i c, p < x.parts → i < x.m → c < x.cols →
        leNat (Memory.readBytes u.mem (place p i c) w) = (s.drain t q (s.mopScales t x) p i c).2.1.1 % 2 ^ (8 * w)) ∧
      ∀ b, b < tileAddr t + q.cAddr ∨ tileAddr t + q.cAddr + x.parts * (x.m * x.cols * w) ≤ b → Memory.read u.mem b = Memory.read s.mem b
    let due := q.lastAt + x.m + 202 ≤ ac ∧ (s.tile t).array.ac ≤ ac
    let e : ArrayAt := { tile := t, ac := ac }
    (q.passes = q.total → (s.tile t).mops = q :: rest → due →
      ∃ u, exec (.mopComplete e) s = .next u ∧ TileWork s u t ∧ Results u ∧
        FlagOnly { s.core t with mdone := (s.core t).mdone + 1 } (u.core t) ∧
        u.tile t = { s.tile t with mops := rest, core := u.core t, cnt := (u.tile t).cnt, array := { (s.tile t).array with ac := ac } }) ∧
    (q.passes < q.total ∨ ¬ due → (s.tile t).mops = q :: rest → exec (.mopComplete e) s = .fault (.notDue "MOP_COMPLETE")) ∧
    ((s.tile t).mops = [] → exec (.mopComplete e) s = .fault (.notDue "MOP_COMPLETE")) ∧
    (∀ r : BitVec 256,
      let a := (s.tile t).array
      let streamed := match a.slot with | none => 0 | some f => f.1 + f.2
      let slotOver := match a.slot with | none => 0 | some f => f.1 + max f.2 96
      let last := ac + (x.passes - 1) * max x.m 96
      q = offloadMop r → s.offloadOk t q = true → a.level = 8 → (∀ z ∈ (s.tile t).mops, z.passes = 0 ∨ z.passes = z.total) →
      slotOver ≤ ac → (if a.lastQuad = some true then streamed else a.freeAt) + 96 ≤ ac → a.ac ≤ ac →
      ∃ u, exec (.offloadMopStart e r) s = .next u ∧ Results u ∧ u = { s with tiles := u.tiles, mem := u.mem } ∧
        (∀ v, v ≠ t → u.tile v = s.tile v) ∧
        u.tile t = { s.tile t with mops := (s.tile t).mops.map fun z => if z.passes = 0 then { z with loads := 0 } else z
                                   array := { a with ac := ac, shadow := none, freeAt := last, active := none, slot := some (last, x.m)
                                                     keep := false, lastQuad := some false } })

/-- R161, R164, R170, R182, R190: the oldest transfer moves its bytes once nothing holds it and changes no byte outside its destination;
its completion counts it as done. The oldest update operation runs likewise: NCLR clears an accumulator, NST stores its 128-byte
record, NSQ and NADD change only the accumulator, none of them touches memory elsewhere; re-runs only count. -/
def Obligations.TransfersAndUpdates : Prop :=
  (∀ (s : State) (t : TileId) (p : Pid) (q : QDma) (rest : List QDma), (s.tile t).dmas = q :: rest → s.partOfTile t = some p →
    let x := q.dma
    (q.ran = false → s.dmaHeld t q = false → (∀ r ∈ x.siloRanges, s.siloFenced p r.1 r.2 = false) → s.dmaBadAt p x = none →
      (x.opc = 2 → s.holdWrites p x.targets = none) → Memory.wf s.mem = true →
      ∃ u, exec (.dmaTransferRun t) s = .next u ∧
        (u.tile t) = { s.tile t with dmas := { q with ran := true } :: rest, core := u.core t, cnt := (u.tile t).cnt } ∧
        FlagOnly (s.core t) (u.core t) ∧
        (∀ v, v ≠ t → u.tile v = s.tile v) ∧
        u = { s with tiles := u.tiles, mem := u.mem, freeCtr := u.freeCtr
                     memctl := { s.memctl with cache := u.memctl.cache, bad := u.memctl.bad, wrote := u.memctl.wrote } } ∧
        (¬ (x.opc = 1 ∧ x.hint = 3) → u.freeCtr = s.freeCtr) ∧
        (∀ b, (x.opc = 1 → x.hint = 3 → ∀ l ∈ s.memctl.cache, l.dirty = false) → (∀ z ∈ s.dmaWrites t p q x, ∀ i, i < z.2.length →
            b ≠ if x.opc = 2 then (s.part p).devAddr (z.1 + i) else tileAddr t + z.1 + i) → Memory.read u.mem b = Memory.read s.mem b) ∧
        (∀ z, x.opc ≠ 2 → s.dmaWrites t p q x = [z] → ∀ i, i < z.2.length →
          Memory.read u.mem (tileAddr t + z.1 + i) = z.2[i]?.getD 0)) ∧
    (q.ran = true ∨ s.dmaHeld t q = true → exec (.dmaTransferRun t) s = .fault (.notDue "DMA_TRANSFER_RUN")) ∧
    (q.ran = true → ∃ u, exec (.dmaTransferComplete t) s = .next u ∧ TileWork s u t ∧ u.mem = s.mem ∧
      u.tile t = { s.tile t with dmas := rest, core := { (s.tile t).core with ddone := (s.tile t).core.ddone + 1 } }) ∧
    (q.ran = false → exec (.dmaTransferComplete t) s = .fault (.notDue "DMA_TRANSFER_COMPLETE"))) ∧
  (∀ (s : State) (t : TileId) (p : Pid) (z : QUpd) (rest : List QUpd) (k : Fin 3),
    (s.tile t).upds = z :: rest → s.partOfTile t = some p →
    let after (f : Tile → Tile) : State := s.modTile t fun y =>
      { f { y with retryCnt := satAdd y.retryCnt k.val } with upds := { z with ran := true } :: rest }
    (z.ran = false → (s.tile t).updHeld z = false →
      (∀ a, z.op = .nclr a → exec (.updateOperationRun t k) s = .next (after fun y =>
        { y with norms := y.norms.set a { value := 0, inf := false, nan := false } })) ∧
      (∀ addr a, z.op = .nst addr a → Memory.wf s.mem = true → ∃ m, exec (.updateOperationRun t k) s = .next { after id with mem := m } ∧
        Stored s.mem m (tileAddr t + addr) ((s.tile t).norms[a]).bytes) ∧
      (∀ addr a, z.op = .nadd addr a → ∃ n, exec (.updateOperationRun t k) s = .next (after fun y => y.setNorm a n) ∧
        n = ((s.tile t).norms[a]).join (normOf (s.storeBytes t addr 128))) ∧
      (∀ addr c sc f a, z.op = .nsq addr c sc f a → ∃ n, exec (.updateOperationRun t k) s = .next (after fun y => y.setNorm a n) ∧
        n = s.addSquares t addr c f.toNat (fp32.decode (fp32.code (fp64.decode sc.toNat))) (s.tile t).norms[a]) ∧
      (∀ d, z.op = .wupd d → ∃ u, exec (.updateOperationRun t k) s = .next u ∧ (u.tile t).upds = { z with ran := true } :: rest ∧
        (u.tile t).core = (s.tile t).core ∧ ∀ v, v ≠ t → u.tile v = s.tile v)) ∧
    (z.ran = true ∨ (s.tile t).updHeld z = true → exec (.updateOperationRun t k) s = .fault (.notDue "UPDATE_OPERATION_RUN")) ∧
    (z.ran = true → ∃ u, exec (.updateOperationComplete t) s = .next u ∧ TileWork s u t ∧ u.mem = s.mem ∧
      u.tile t = { s.tile t with upds := rest, core := { (s.tile t).core with udone := (s.tile t).core.udone + 1 } }) ∧
    (z.ran = false → exec (.updateOperationComplete t) s = .fault (.notDue "UPDATE_OPERATION_COMPLETE")))

/-- R122 to R127, R142, R143: an idle engine takes the next command in its turn: one that fails a check gets a completion record with the
code of the first check, in order, and leaves its queue; one that passes stays at the head, running, until its end. The end
writes its record with the time, completes a host command, frees the engine and the channel's next command comes to the head. -/
def Obligations.SolveCommands : Prop :=
  ∀ (s : State) (e : EngId) (now retries : Nat),
    (∀ (c : ChanId) (a : ChanAlloc) (q : QSolve) (code : BitVec 16) (f : SolveFault),
      let v := (s.at_ now).modEngine e fun x => { x with served := (a.lch, a.slot.val), retryCnt := satAdd x.retryCnt retries }
      (s.engine e).running = none → (s.engine e).nextChan = some (c, a, q) → s.engineMoults e = false →
      (v.solveCheck e c a q = some code → ∃ u, exec (.solveCommandHead e now retries f) s = .next u ∧
        (u.chan e c).queue = (s.chan e c).queue.tail ∧ (u.engine e).running = none ∧ u.tiles = s.tiles ∧
        (∀ d, d ≠ e → u.engine d = s.engine d) ∧ (u.engine e).retryCnt = satAdd (s.engine e).retryCnt retries) ∧
      (v.solveCheck e c a q = none → v.inputFault a (v.chan e c).factor.st q.record = none →
        v.holdWrites a.pid (solveTargets a c q.record) = none →
        let u := (v.usePanel e).runSolve e c a q
        exec (.solveCommandHead e now retries .none) s = .next u ∧ u.tiles = s.tiles ∧ (∀ d, d ≠ e → u.engine d = s.engine d) ∧
          (((u.engine e).running = some c ∧ (u.chan e c).queue = (s.chan e c).queue ∧ (u.chan e c).run ≠ none) ∨
            ((u.engine e).running = none ∧ (u.chan e c).queue = (s.chan e c).queue.tail)))) ∧
    ((s.engine e).running ≠ none ∨ (s.engine e).nextChan = none ∨ s.engineMoults e = true →
      exec (.solveCommandHead e now retries .none) s = .fault (.notDue "SOLVE_COMMAND_HEAD")) ∧
    (∀ (c : ChanId) (a : ChanAlloc) (r : SolveRun), (s.engine e).running = some c → (s.chan e c).alloc = some a →
      (s.chan e c).run = some r → s.engineMoults e = false →
      ∃ u, exec (.solveCommandEnd e now) s = .next u ∧
        u.engine e = { s.engine e with running := none, held := none, chans := (s.engine e).chans.set c <|
          { s.chan e c with queue := (s.chan e c).queue.tail, run := none
                            tStart := if (s.chan e c).queue.tail = [] then none else some (s.at_ now).now } } ∧
        (∀ d, d ≠ e → u.engine d = s.engine d) ∧ u.tiles = s.tiles ∧
        (∀ t, r.cmd.issuer = .tile t → u.funcs = s.funcs ∧
          ((s.part a.pid).statOk (rStat r.cmd.record) = true → s.siloWaiting a.pid (rStat r.cmd.record) 64 = [] →
            u.mem = (s.siloWrite a.pid (rStat r.cmd.record)
              (leBytes 48 r.record.toNat ++ leBytes 8 (s.at_ now).now ++ leBytes 8 0)).mem)))

/-! ### Sync objects, barriers, global time (10) -/

namespace Sys2Proof.Claims

/-- Table Sync operations without ARRIVE: the code and the object afterwards, or none when the operation waits. -/
def syncOutcome (op : SyncOp) (b : BitVec 128) : Option (BitVec 16 × BitVec 128) :=
  let kind := bits b 127 126
  let count := bits b 31 0
  let word := BitVec.setWidth 64 b
  let put (w : Word) : BitVec 128 := (b >>> 64 <<< 64) ||| BitVec.setWidth 128 w
  match op with
  | .signal n => some (if kind ≠ 0 then (0x0102, b) else if 2 ^ 32 ≤ count + n.toNat then (0x0105, b)
      else (0, put (BitVec.ofNat 64 (count + n.toNat))))
  | .take n => if kind ≠ 0 then some (0x0102, b) else if n.toNat ≤ count then some (0, put (BitVec.ofNat 64 (count - n.toNat))) else none
  | .setf m => some (if kind ≠ 2 then (0x0102, b) else (0, put (word ||| m)))
  | .clrf m => some (if kind ≠ 2 then (0x0102, b) else (0, put (word &&& ~~~m)))
  | .wany m => if kind ≠ 2 then some (0x0102, b) else if word &&& m ≠ 0 then some (0, b) else none
  | .wall m => if kind ≠ 2 then some (0x0102, b) else if word &&& m = m then some (0, b) else none
  | .adv v => some (if kind ≠ 3 then (0x0102, b) else (0, put (if word.toNat < v.toNat then v else word)))
  | .wge v => if kind ≠ 3 then some (0x0102, b) else if v.toNat ≤ word.toNat then some (0, b) else none
  | .arrive _ => none

/-- The operation is one of Table Sync operations other than ARRIVE. -/
def notArrive : SyncOp → Prop
  | .arrive _ => False
  | _ => True

/-- A waiting tile after its operation ended: the status word in gRD, running at the next instruction (R247). -/
def answered (c : Core) (rd : RegId) (code : BitVec 16) (flag : Bool) : Core :=
  { c with g := if rd = 0 then c.g else c.g.set rd (BitVec.ofNat 64 (code.toNat + (if flag then 65536 else 0)))
           status := .running, resume := none, pc := c.pc + 4 }

/-- A frame of n units to peer m on channel c goes out at once: the partition does not moult, none waits before it, the pair holds keys, a half-port has credit. -/
def Ready (s : State) (p : Pid) (m : ModId) (c : Vc) (n : Nat) (q : Peer) : Prop :=
  s.moults p = false ∧ s.links.txq = [] ∧ s.peer p m = some q ∧ q.keyed = true ∧ q.frames < 2 ^ 40 ∧ q.lost = none ∧ (s.txHalf p q c n).isSome = true

/-- A frame's header: both modules, the job tag, the channel, the payload's length, the pair's number on the channel. -/
def Heads (s : State) (hd : TxHeader) (p : Pid) (m : ModId) (c : Vc) (len : Nat) (q : Peer) : Prop :=
  hd.src = s.links.modId ∧ hd.dst = m ∧ hd.job = (s.part p).entry.jobTag ∧ hd.vc = c ∧ hd.len = len ∧ hd.seq = q.tx.get c

/-- Every waiter at the object is a tile that waits for a status. -/
def tilesWait (s : State) (o : Nat) : Prop :=
  ∀ w ∈ s.sync.waits, w.obj = o → ∃ t rd, w.who = .tile t ∧ (s.core t).resume = some (.status rd)

end Sys2Proof.Claims

/-- R246: an operation of a tile that arrives at a local object without waiters, or a host SIGNAL or WAIT on one, has the effect of Table
Sync operations: the object holds the table's value, a failing operation leaves it unchanged and reports E_FIELD or E_RANGE, a
condition that does not hold leaves the issuer waiting. No other object changes. An ARRIVE that is not the last one counts and waits;
the last one of a local barrier starts its next generation and gives its issuer the flags of all. A host SIGNAL for another module
leaves for it, and one that fails a check completes with its code. -/
def Obligations.SyncEffects : Prop :=
  ∀ (s : State) (o : Nat), Tab.wf 0 s.sync.objs = true → (∀ w ∈ s.sync.waits, w.obj ≠ o) → s.fenced .syncBlock (o / 1024) = false →
    (∀ (x : SyncSent) (now : Nat) (rd : RegId) (v : State), v = s.at_ now →
      s.sync.sent.find? (fun y => decide (y.id = x.id)) = some x → s.moults x.pid = false → x.remote = none → notArrive x.op → x.reply = true →
      (s.core x.src).resume = some (.status rd) → (s.part x.pid).objOf x.index.toNat = some o →
      v.sendDue x = true → v.inOrder o (s.tileRank x.src) = true →
      ∃ u, exec (.syncOperationArrival x.id now) s = .next u ∧
        u = { s with time := v.time, tiles := u.tiles, sync := u.sync } ∧
        u.sync.sent = s.sync.sent.filter (fun y => !decide (y.id = x.id)) ∧
        (∀ o', o' ≠ o → u.obj o' = s.obj o') ∧ (∀ t, t ≠ x.src → u.tile t = s.tile t) ∧
        match syncOutcome x.op (s.obj o) with
        | some r => u.obj o = r.2 ∧ u.core x.src = answered (s.core x.src) rd r.1 false ∧ u.sync.waits = s.sync.waits
        | none => u.obj o = s.obj o ∧ u.core x.src = s.core x.src ∧
            u.sync.waits = s.sync.waits ++ [{ obj := o, who := .tile x.src, op := x.op, stamp := v.now, issue := x.issue }]) ∧
    (∀ (fn : Fn) (cid : Nat) (c : Cmd) (p : Pid), s.partOfFn fn = some p →
      (s.dueCmd fn cid 0x30 = some c → copiesDone (s.func fn).cmds c = true → signalCheck s p c.desc = none →
        s.refRemote (dw c.desc 1) = none → (s.part p).objOf (refIndex (dw c.desc 1)).toNat = some o → s.inOrder o fn.val = true →
        ∀ r, syncOutcome (signalOp c.desc) (s.obj o) = some r →
        ∃ u, exec (.signal fn cid) s = .next u ∧ u.obj o = r.2 ∧ (∀ o', o' ≠ o → u.obj o' = s.obj o') ∧ u.tiles = s.tiles ∧
          u.mem = s.mem ∧ (u.func fn).cmds.all (fun y => decide (y.cid ≠ c.cid)) = true) ∧
      (s.dueCmd fn cid 0x30 = some c → copiesDone (s.func fn).cmds c = true →
        (∀ code, signalCheck s p c.desc = some code → exec (.signal fn cid) s = .next (s.complete fn c code 0 0)) ∧
        ∀ m, signalCheck s p c.desc = none → s.refRemote (dw c.desc 1) = some m →
          (∀ code, s.peerLost p m = some code → exec (.signal fn cid) s = .next (s.complete fn c code 0 0)) ∧
          (s.peerLost p m = none → ∃ u, exec (.signal fn cid) s = .next u ∧ u.tiles = s.tiles ∧ u.mem = s.mem ∧
            u.sync = { s.sync with nextId := s.sync.nextId + 1, remotes := s.sync.remotes ++
              [{ id := s.sync.nextId, pid := p, peer := m, who := some (.host fn cid), bar := none }] })) ∧
      (s.dueCmd fn cid 0x30 = some c → copiesDone (s.func fn).cmds c = false → exec (.signal fn cid) s = .fault (.notDue "SIGNAL")) ∧
      (∀ code, s.dueCmd fn cid 0x31 = some c → waitCheck s p c.desc = some code →
        exec (.wait fn cid) s = .next (s.complete fn c code 0 0)) ∧
      (s.dueCmd fn cid 0x31 = some c → waitCheck s p c.desc = none → notArrive (waitOp c.desc) →
        (s.part p).objOf (refIndex (dw c.desc 1)).toNat = some o → s.inOrder o fn.val = true →
        ∃ u, exec (.wait fn cid) s = .next u ∧ (∀ o', o' ≠ o → u.obj o' = s.obj o') ∧ u.tiles = s.tiles ∧ u.mem = s.mem ∧
          match syncOutcome (waitOp c.desc) (s.obj o) with
          | some r => u.obj o = r.2 ∧ (u.func fn).cmds.all (fun y => decide (y.cid ≠ c.cid)) = true
          | none => u.obj o = s.obj o ∧ u.hostMem = s.hostMem ∧
              u.sync.waits = s.sync.waits ++ [{ obj := o, who := .host fn cid, op := waitOp c.desc, stamp := s.now, issue := s.now }])) ∧
    (∀ (x : SyncSent) (f : Bool) (now : Nat) (rd : RegId) (v : State), v = s.at_ now → let b := s.obj o
      s.sync.sent.find? (fun y => decide (y.id = x.id)) = some x → s.moults x.pid = false → x.remote = none → x.op = .arrive f → x.reply = true →
      (s.core x.src).resume = some (.status rd) → (s.part x.pid).objOf x.index.toNat = some o →
      v.sendDue x = true → v.inOrder o (s.tileRank x.src) = true →
      (objKind b ≠ 1 → ∃ u, exec (.syncOperationArrival x.id now) s = .next u ∧ u.obj o = b ∧
        u.core x.src = answered (s.core x.src) rd 0x0102 false) ∧
      (objKind b = 1 → objArrived b + 1 ≠ objExpect b → ∃ u, exec (.syncOperationArrival x.id now) s = .next u ∧
        u = { s with time := v.time, sync := u.sync, parts := u.parts } ∧ u.obj o = objArrive b f ∧ (∀ o', o' ≠ o → u.obj o' = s.obj o') ∧
        u.sync.waits = s.sync.waits ++ [{ obj := o, who := .tile x.src, op := x.op, stamp := v.now, issue := x.issue }]) ∧
      (objKind b = 1 → objArrived b + 1 = objExpect b → objUp b = 0xFFFF → objLnch b = false →
        v.now < x.issue + s.waitLimit (.tile x.src) → ∃ u, exec (.syncOperationArrival x.id now) s = .next u ∧
          objGen (u.obj o) = objGen b + 1 ∧ objArrived (u.obj o) = 0 ∧ objFlag (u.obj o) = false ∧ u.sync.waits = s.sync.waits ∧
          u.core x.src = answered (s.core x.src) rd 0 (f || objFlag b)))

/-- R252 to R254, R82, R83: a member's release of the barrier's generation raises GEN by one, returns ARRIVED and FLAG to 0 and resumes
every waiting tile with FLAG as released; one of another generation changes nothing. A launch barrier's release before R waits for
R, its hint for R − 2,048 or at once when that has passed; after R it takes effect at once and is counted in SYN_LATE_REL. The hint
and the coordinated release reach the arrays of the waiting tiles, the release with the stagger of their logical index. -/
def Obligations.BarrierReleases : Prop :=
  ∀ (s : State) (p : Pid) (index : BitVec 16) (o : Nat) (rel : Release) (now : Nat),
    let v := s.at_ now
    let b := s.obj o
    let member := (s.part p).objOf index.toNat = some o ∧ (s.part p).entry.st = .bound ∧ objKind b = 1 ∧ objRoot b = false ∧
      objUp b ≠ 0xFFFF
    let Released (u : State) (flag : Bool) : Prop :=
      objGen (u.obj o) = objGen b + 1 ∧ objArrived (u.obj o) = 0 ∧ objFlag (u.obj o) = false ∧
      objExpect (u.obj o) = objExpect b ∧ objUp (u.obj o) = objUp b ∧ (∀ o', o' ≠ o → u.obj o' = s.obj o') ∧
      u.sync.waits = s.sync.waits.filter (fun w => !(decide (w.obj = o) && (match w.op with | .arrive _ => true | _ => false))) ∧
      (∀ w ∈ s.sync.waits, w.obj = o → (∃ f, w.op = .arrive f) → ∀ t rd, w.who = .tile t → (s.core t).resume = some (.status rd) →
        u.core t = answered (s.core t) rd 0 flag) ∧
      ∀ t, (∀ w ∈ s.sync.waits, w.obj = o → w.who ≠ .tile t) → u.tile t = s.tile t
    let inTime := ∀ w ∈ s.sync.waits, w.obj = o → v.now < w.issue + s.waitLimit w.who
    Tab.wf 0 s.sync.objs = true → tilesWait s o →
    ((¬ member ∨ objGen b ≠ rel.gen) → (s.part p).objOf index.toNat = some o → exec (.barrierReleaseReceipt p index rel now) s = .next v) ∧
    (member → objGen b = rel.gen → (objLnch b = false ∨ rel.r = none) →
      (inTime → ∃ u, exec (.barrierReleaseReceipt p index rel now) s = .next u ∧ Released u rel.flag) ∧
      ∀ w ∈ s.sync.waits, w.obj = o → w.issue + s.waitLimit w.who ≤ v.now → ∀ t rd, w.who = .tile t → (s.core t).resume = some (.status rd) →
        ∃ u, exec (.barrierReleaseReceipt p index rel now) s = .next u ∧ u.core t = answered (s.core t) rd 0x0303 false) ∧
    (∀ r, member → objGen b = rel.gen → objLnch b = true → rel.r = some r → v.now ≤ r →
      ∃ u, exec (.barrierReleaseReceipt p index rel now) s = .next u ∧ u.obj o = b ∧ u.sync.waits = s.sync.waits ∧
        u.sync.pends = s.sync.pends ++ [{ obj := o, pid := p, r := r, flag := rel.flag, hinted := decide (r < v.now + 2048) }] ∧
        ∀ t, u.tile t = if r < v.now + 2048 ∧ (∃ w ∈ s.sync.waits, w.obj = o ∧ w.who = .tile t) then
          { s.tile t with array := { (s.tile t).array with hint := some v.now, hintOver := false, hintNext := v.now + 256 } } else s.tile t) ∧
    (∀ r, member → objGen b = rel.gen → objLnch b = true → rel.r = some r → r < v.now → inTime →
      ∃ u, exec (.barrierReleaseReceipt p index rel now) s = .next u ∧ Released u rel.flag ∧ u.time.lateRel = satAdd s.time.lateRel 1) ∧
    (∀ (k : Fin 65536) (x : PendRelease), k.val = o → s.sync.pends.find? (fun y => decide (y.obj = o)) = some x →
      (x.hinted = false → x.r ≤ v.now + 2048 →
        ∃ u, exec (.launchBarrierHint k now) s = .next u ∧ u = { v with tiles := u.tiles, sync := u.sync } ∧
          u.sync = { s.sync with pends := s.sync.pends.map fun y => if y.obj = o then { y with hinted := true } else y } ∧
          ∀ t, u.tile t = if ∃ w ∈ s.sync.waits, w.obj = o ∧ w.who = .tile t then
            { s.tile t with array := { (s.tile t).array with hint := some v.now, hintOver := false, hintNext := v.now + 256 } } else s.tile t) ∧
      (v.now + 2048 < x.r → exec (.launchBarrierHint k now) s = .fault (.notDue "LAUNCH_BARRIER_HINT")) ∧
      (x.r ≤ v.now → inTime →
        ∃ u, exec (.launchBarrierRelease k now) s = .next u ∧ Released u x.flag ∧
          u.sync.pends = s.sync.pends.filter (fun y => !decide (y.obj = o)) ∧
          ∀ t l, (∃ w ∈ s.sync.waits, w.obj = o ∧ w.who = .tile t) → (s.mappedTiles x.pid).find? (fun z => decide (z.1 = t)) = some (t, l) →
            (u.tile t).array.stagger = some (l % 16 * 8) ∧ (u.tile t).array.level = (s.tile t).array.level) ∧
      (v.now < x.r → exec (.launchBarrierRelease k now) s = .fault (.notDue "LAUNCH_BARRIER_RELEASE")))

/-- R248 to R250, R257: an operation for another module leaves for it once the tile's earlier work is complete, unless that peer is lost; its
acknowledgement gives the issuer its code, and a refused aggregated arrival fails the barrier's local waiters. A wait that reaches
SYN_WAIT_LIMIT ends with E_TIMEOUT and changes no object. -/
def Obligations.RemoteAndTimeouts : Prop :=
  ∀ (s : State),
    (∀ (x : SyncSent) (m : ModId) (now : Nat), s.sync.sent.find? (fun y => decide (y.id = x.id)) = some x → x.remote = some m → s.moults x.pid = false →
      ((s.at_ now).sendDue x = false → exec (.syncOperationArrival x.id now) s = .fault (.notDue "SYNC_OPERATION_ARRIVAL")) ∧
      ((s.at_ now).sendDue x = true → s.peerLost x.pid m = none →
        ∃ u, exec (.syncOperationArrival x.id now) s = .next u ∧ u.tiles = s.tiles ∧ u.mem = s.mem ∧
          u.sync = { s.sync with
            sent := s.sync.sent.filter fun y => !decide (y.id = x.id)
            remotes := s.sync.remotes ++
              [{ id := x.id, pid := x.pid, peer := m, bar := none, who := if x.reply then some (.tile x.src) else none }] } ∧
          (∀ q, Ready s x.pid m .vs 1 q → ∃ hd, u.outputs = .frame hd (.sync x.index x.op x.id) :: s.outputs ∧ Heads s hd x.pid m .vs 32 q) ∧
          (∀ q, s.links.txq = [] → s.peer x.pid m = some q → q.keyed = false → u.outputs = s.outputs ∧
            u.links.txq = [{ pid := x.pid, peer := m, msg := .sync x.index x.op x.id }])) ∧
      (∀ (code : BitVec 16) (rd : RegId), (s.at_ now).sendDue x = true → s.peerLost x.pid m = some code → x.reply = true →
        (s.core x.src).resume = some (.status rd) →
        exec (.syncOperationArrival x.id now) s = .next
          { (s.at_ now).modCore x.src (fun c => answered c rd code false) with
            sync := { s.sync with sent := s.sync.sent.filter fun y => !decide (y.id = x.id) } })) ∧
    (∀ (r : RemoteOp) (code : BitVec 16), s.sync.remotes.find? (fun y => decide (y.id = r.id)) = some r → s.moults r.pid = false →
      let v : State := { s with sync := { s.sync with remotes := s.sync.remotes.filter fun y => !decide (y.id = r.id) } }
      (∀ t rd, r.bar = none → r.who = some (.tile t) → (s.core t).resume = some (.status rd) →
        exec (.remoteAck r.id code) s = .next (v.modCore t fun c => answered c rd code false)) ∧
      (∀ o, r.bar = some o → code = 0 → exec (.remoteAck r.id code) s = .next v) ∧
      (∀ o, r.bar = some o → code ≠ 0 → tilesWait s o →
        ∃ u, exec (.remoteAck r.id code) s = .next u ∧ u.sync.objs = s.sync.objs ∧
          u.sync.waits = s.sync.waits.filter (fun w => !decide (w.obj = o)) ∧
          ∀ w ∈ s.sync.waits, w.obj = o → ∀ t rd, w.who = .tile t → (s.core t).resume = some (.status rd) →
            u.core t = answered (s.core t) rd code false)) ∧
    (∀ (w : SyncWait) (t : TileId) (rd : RegId) (now : Nat), s.sync.waits.find? (fun y => decide (y.who = .tile t)) = some w →
      (s.core t).resume = some (.status rd) → objKind (s.obj w.obj) ≠ 0 → (∀ p, s.moults p = true → s.waiterOf p (.tile t) = false) →
      (w.issue + s.waitLimit (.tile t) ≤ (s.at_ now).now →
        exec (.waitTimeout (.tile t) now) s = .next { (s.at_ now).modCore t (fun c => answered c rd 0x0303 false) with
          sync := { s.sync with waits := s.sync.waits.filter fun y => !decide (y.who = .tile t) } }) ∧
      ((s.at_ now).now < w.issue + s.waitLimit (.tile t) → exec (.waitTimeout (.tile t) now) s = .fault (.notDue "WAIT_TIMEOUT"))) ∧
    (∀ (w : SyncWait) (now : Nat), s.sync.waits.find? (fun y => decide (y.who = w.who)) = some w →
      (∀ p, s.moults p = true → s.waiterOf p w.who = false) → w.issue + s.waitLimit w.who ≤ (s.at_ now).now →
      ∃ u, exec (.waitTimeout w.who now) s = .next u) ∧
    (∀ (x : SyncSent) (rd : RegId) (now : Nat), s.sync.waits.find? (fun y => decide (y.who = .tile x.src)) = none →
      s.sync.sent.find? (fun y => decide ((.tile x.src : Waiter) = .tile y.src) && opWaits y.op) = some x →
      (s.core x.src).resume = some (.status rd) → x.issue + s.waitLimit (.tile x.src) ≤ (s.at_ now).now →
      exec (.waitTimeout (.tile x.src) now) s = .next { (s.at_ now).modCore x.src (fun c => answered c rd 0x0303 false) with
        sync := { s.sync with sent := s.sync.sent.filter fun y => !decide (y.id = x.id) } })

/-- R236 to R238, R273: the time messages go out every 8 µs, on Ethernet ports as IEEE 1588; upstream's counter is what the message holds
and half the round trip, with the lane delays (log 85). The counter never moves backward; the one step to upstream's value is made by a
module that never locked, while no launch is pending or running; a message within 1 gt for the sixteenth time in a row gives LOCKED, the first while UNLOCKED at
least ACQUIRING; a slew adds one tick or withholds one, at most one in 1,024 gt; 32 µs without a message takes LOCKED to HOLDOVER, 1 ms there to UNLOCKED with
SYN_TIME_UNLOCK on PF0's ring. Each changes the time block alone, but for messages, flags of running launches and that event. -/
def Obligations.GlobalTime : Prop :=
  ∀ (s : State) (now : Nat), now < 2 ^ 64 →
    let v := s.at_ now
    let t := v.time
    (s.time.gt.toNat ≤ t.gt.toNat ∧ now ≤ t.gt.toNat) ∧
    let due := ∀ x, s.time.lastSend = some x → x + 8000 ≤ v.now
    (s.up = true → due → ∃ u, exec (.timeMessageSend now) s = .next u ∧
      u = { v with outputs := u.outputs, links := u.links, time := { t with lastSend := some v.now } } ∧
      ∀ h : HalfId, (s.links.half[h]).state = .up →
        ((s.cfgOf h).eth = false → linkRoom (s.cfgOf h).split (s.links.half[h]).out .vs 1 = true → .port h (.time t.gt) ∈ u.outputs) ∧
        ((s.cfgOf h).eth = true → .port h (.ptpSync t.gt) ∈ u.outputs ∧
          (h = s.upstream → s.time.root = false → .port h .ptpDelayReq ∈ u.outputs))) ∧
    (s.up = false ∨ ¬ due → exec (.timeMessageSend now) s = .fault (.notDue "TIME_MESSAGE_SEND")) ∧
    (∀ (h : HalfId) (up : Word) (echo : TimeEcho), (s.links.half[h]).state = .up → s.up = true →
      let trip : Int := ((v.now : Int) - echo.sent) - ((up.toNat : Int) - echo.got)
      let target : Int := up.toNat + (trip + (s.links.half[h]).skew) / 2
      let d : Int := v.now - target
      let good := if d.natAbs ≤ 1 then min (t.good + 1) 16 else 0
      let steps := t.stepLeft = true ∧ (t.lock = .unlocked ∨ t.lock = .acquiring) ∧ s.anyLaunch = false ∧ d ≤ 0 ∧ target < 2 ^ 64
      (s.time.root = true ∨ h ≠ s.upstream → exec (.timeMessageReceipt h up echo now) s = .next v) ∧
      (s.time.root = false → h = s.upstream → ∃ u, exec (.timeMessageReceipt h up echo now) s = .next u ∧
        u = { v with time := u.time } ∧ (u.time.gt.toNat : Int) = (if steps then target else v.now) ∧ u.time.good = good ∧
        u.time.offset.toInt = max (-32768) (min 32767 d) ∧
        u.time.lock = (if good = 16 then .locked else if t.lock = .unlocked then .acquiring else t.lock) ∧
        (u.time.stepLeft = true ↔ t.stepLeft = true ∧ ¬ steps ∧ good ≠ 16) ∧ u.time.slew = (if steps then 0 else -d))) ∧
    (s.time.root = false → s.time.lock ≠ .holdover → s.time.slewAt + 1024 ≤ s.time.gt.toNat →
      (0 < s.time.slew → exec .counterSlew s = .next { s with time := { s.time with
        gt := s.time.gt + 1, cd0 := s.time.cd0 + 1, cd1 := s.time.cd1 + 1, lastSlew := 1, slewAt := (s.time.gt + 1).toNat, slew := s.time.slew - 1 } }) ∧
      (s.time.slew < 0 → exec .counterSlew s = .next { s with time := { s.time with
        lastSlew := -1, slewAt := s.time.gt.toNat, slew := s.time.slew + 1 } }) ∧
      (s.time.slew = 0 → exec .counterSlew s = .fault (.notDue "COUNTER_SLEW"))) ∧
    (s.time.gt.toNat < s.time.slewAt + 1024 → exec .counterSlew s = .fault (.notDue "COUNTER_SLEW")) ∧
    (s.time.lock = .locked → s.time.root = false → s.time.lastMsg + 32000 ≤ v.now → ∃ u, exec (.holdoverEntry now) s = .next u ∧
      u = { v with time := u.time, parts := u.parts } ∧ u.time = { t with lock := .holdover, holdAt := v.now, good := 0 } ∧
      ∀ p, (u.part p).launch = (s.part p).launch.map fun l =>
        if l.phase = .released then { l with flags := { l.flags with tmg := some (match l.flags.tmg with
          | none => v.now
          | some a => min a v.now) } } else l) ∧
    (s.time.lock ≠ .locked ∨ v.now < s.time.lastMsg + 32000 → exec (.holdoverEntry now) s = .fault (.notDue "HOLDOVER_ENTRY")) ∧
    (s.time.lock = .holdover → s.time.root = false → s.time.holdAt + 1000000 ≤ v.now → ∃ u, exec (.synTimeUnlock now) s = .next u ∧
      u.time = { t with lock := .unlocked, good := 0, slew := 0 } ∧ u.tiles = s.tiles ∧ u.parts = s.parts ∧ u.mem = s.mem ∧
      u = { v with time := u.time, funcs := u.funcs, hostMem := u.hostMem, outputs := u.outputs }) ∧
    (s.time.lock ≠ .holdover ∨ s.time.root = true ∨ v.now < s.time.holdAt + 1000000 → exec (.synTimeUnlock now) s = .fault (.notDue "SYN_TIME_UNLOCK")) ∧
    (∀ value : Half,
      let x := { s.time with root := bit value 4, upHalf := bit value 3, upPort := BitVec.ofNat 3 (value.toNat % 8) }
      let y := if bit value 4 then { x with lock := .locked, offset := 0, slew := 0, stepLeft := false } else x
      exec (.synTimeCfg value) s = .next (if s.setupOpen then { s with time := y } else s))

/-! ### Host interface: rings, commands, launches, binding (14, 16) -/

namespace Sys2Proof.Claims

/-- Only what the host sees changed: function registers and rings, host memory, messages, completions held for the link. -/
def HostOnly (s u : State) : Prop := u = { s with funcs := u.funcs, hostMem := u.hostMem, outputs := u.outputs, pins := u.pins }

/-- The function answers and its registers take writes: nothing of it moults and the module is not in recovery. -/
def Open (s : State) (n : Fn) : Prop := s.fnUp n = true ∧ s.fnState n ≠ .moulting ∧ s.mgmt.recov = false

/-- The memory of silo range [a, a + n) of partition p holds the bytes, every other byte is as before. -/
def SiloStored (s u : State) (p : Pid) (a : Nat) (bs : List Byte) : Prop :=
  (∀ i, i < bs.length → Memory.read u.mem ((s.part p).devAddr (a + i)) = bs[i]?.getD 0) ∧
    ∀ x, (∀ i, i < bs.length → x ≠ (s.part p).devAddr (a + i)) → Memory.read u.mem x = Memory.read s.mem x

/-- The partition's granules are distinct and the range lies in its silo. -/
def InSilo (s : State) (p : Pid) (a n : Nat) : Prop :=
  (s.part p).entry.gran.Nodup ∧ a + n ≤ (s.part p).siloSize ∧ ∀ i, i < n → (s.sectorKey p ((s.part p).devAddr (a + i))).isSome = true

end Sys2Proof.Claims

/-- R370: a command that ends leaves the fetched commands and, on an enabled ring, gets one 16-byte entry at the tail of its completion
ring: code, status, ring and TAG in word 0, phase, SQHD and INFO in word 1. The tail moves on modulo the ring's size, the phase
turns as it wraps, and the vector's message is sent unless NIRQ is 1 or the vector is masked. A disabled ring gets no entry;
while PCIe is down the entry is held. Nothing else changes. -/
def Obligations.CompletionEntry : Prop :=
  ∀ (s : State) (n : Fn) (c : Cmd) (code : BitVec 16) (status info : Nat), status < 16 → info < 2 ^ 40 →
    let u := s.complete n c code status info
    let r := s.ring n c.ring
    let tag := bits (wordOf c.desc 0) 31 0
    let left := (s.func n).cmds.filter fun x => decide (x.cid ≠ c.cid)
    HostOnly s u ∧ (u.func n).cmds = left ∧ (∀ m, m ≠ n → u.func m = s.func m) ∧
    (s.pins.pcieUp = true → r.en = true → Memory.wf s.hostMem = true →
      Stored s.hostMem u.hostMem (r.cqBase.toNat + 16 * r.cqTail)
        (leBytes 8 (code.toNat * 2 ^ 48 + status * 2 ^ 44 + c.ring.val * 2 ^ 38 + tag) ++
          leBytes 8 ((if r.phase then 2 ^ 63 else 0) + (r.sqHead % 65536) * 2 ^ 40 + info)) ∧
      u.ring n c.ring = { r with cqTail := (r.cqTail + 1) % 2 ^ r.cqlog.toNat,
                                 phase := if r.cqTail + 1 = 2 ^ r.cqlog.toNat then !r.phase else r.phase } ∧
      (bit c.desc 46 = true ∨ (s.func n).unmasked.contains r.vec.toNat = false → u.outputs = s.outputs) ∧
      (bit c.desc 46 = false → (s.func n).unmasked.contains r.vec.toNat = true → u.outputs = .msix n r.vec.toNat :: s.outputs)) ∧
    (s.pins.pcieUp = true → r.en = false → u.hostMem = s.hostMem ∧ u.outputs = s.outputs ∧ u.ring n c.ring = r) ∧
    (s.pins.pcieUp = false → u.hostMem = s.hostMem ∧
      u.pins.heldCpl = s.pins.heldCpl ++ [{ fn := n, cmd := c, code := code, status := status, info := info }])

/-- R359 to R361, R384, R20 group HIF: HIF_VERSION_REQ takes effect while every ring pair of the function is disabled and activates 1.0
when the interval holds it; HIF_RING_CFG and HIF_EVQ_CFG configure a disabled ring whose fields lie in range, and a disabled pair
starts empty when it is enabled; SQ_TAIL, CQ_HEAD and ABORT_DB of an enabled pair take an index below the ring's size and else set
DB_ERR; pages without a ring are ignored. Nothing else changes. -/
def Obligations.RingRegisters : Prop :=
  ∀ (s : State) (fn : Fn) (page : Fin 128) (ring : RingId) (value : Half),
    let f := s.func fn
    let r := s.ring fn ring
    let idx := value.toNat % 65536
    let hi := value.toNat / 256 % 256
    let lo := value.toNat % 256
    let fits := value.toNat / 65536 % 2048 < (if fn = 0 then 128 else 120) ∧ 6 ≤ hi ∧ hi ≤ 16 ∧ 6 ≤ lo ∧ lo ≤ 16
    (Open s fn → (∀ k : RingId, (s.ring fn k).en = false) → exec (.hifVersionReq fn value) s = .next (s.modFunc fn fun f =>
      { f with maxv := BitVec.ofNat 8 hi, minv := BitVec.ofNat 8 lo, act := if lo ≤ 0x10 ∧ 0x10 ≤ hi then 0x10 else 0 })) ∧
    ((∃ k : RingId, (s.ring fn k).en = true) → exec (.hifVersionReq fn value) s = .next s) ∧
    (Open s fn → r.en = false → fits → bit value 31 = true → exec (.hifRingCfg fn ring value) s = .next (s.modRing fn ring fun r =>
      { r with
               prio := bit value 30, vec := BitVec.ofNat 11 (value.toNat / 65536 % 2048), cqlog := BitVec.ofNat 8 hi,
               sqlog := BitVec.ofNat 8 lo, en := true, sqHead := 0, sqTail := 0, cqTail := 0, cqHead := 0, phase := true,
               abort := none })) ∧
    (Open s fn → r.en = false → ¬ fits → bit value 31 = true →
      exec (.hifRingCfg fn ring value) s = .next (s.modRing fn ring fun r => { r with cfgErr := true })) ∧
    (Open s fn → r.en = true → bit value 31 = false → s.ringBusy fn ring = false →
      exec (.hifRingCfg fn ring value) s = .next (s.modRing fn ring fun r => { r with en := false })) ∧
    (Open s fn → r.en = true → bit value 31 = true ∨ s.ringBusy fn ring = true →
      exec (.hifRingCfg fn ring value) s = .next (s.modRing fn ring fun r => r)) ∧
    (Open s fn → f.evq.en = true → exec (.hifEvqCfg fn value) s = .next (if bit value 31 then s else
      s.modFunc fn fun f => { f with evq := { f.evq with en := false } })) ∧
    (Open s fn → f.evq.en = false → f.evq.held = [] → f.evq.drops = 0 → bit value 31 = true →
      value.toNat / 65536 % 2048 < (if fn = 0 then 128 else 120) → 6 ≤ lo → lo ≤ 16 →
      ∃ u : State, exec (.hifEvqCfg fn value) s = .next u ∧ u = { s with funcs := u.funcs } ∧
        u.func fn = { f with evq := { f.evq with
          vec := BitVec.ofNat 11 (value.toNat / 65536 % 2048), log := BitVec.ofNat 8 lo, en := true, tail := 0, head := 0, phase := true, unread := [] } } ∧ ∀ m, m ≠ fn → u.func m = s.func m) ∧
    (s.fnUp fn = true → s.mgmt.recov = false → page.val = ring.val → r.en = true →
      exec (.sqTail fn page value) s = .next (s.modRing fn ring fun r =>
        if idx < 2 ^ r.sqlog.toNat then { r with sqTail := idx } else { r with dbErr := true }) ∧
      exec (.cqHead fn page value) s = .next (s.modRing fn ring fun r =>
        if idx < 2 ^ r.cqlog.toNat then { r with cqHead := idx } else { r with dbErr := true }) ∧
      exec (.abortDb fn page value) s = .next (s.modRing fn ring fun r =>
        if idx < 2 ^ r.sqlog.toNat then { r with abort := some idx } else { r with dbErr := true })) ∧
    (64 ≤ page.val → exec (.sqTail fn page value) s = .next s ∧ exec (.abortDb fn page value) s = .next s ∧
      (page.val ≠ 64 → exec (.cqHead fn page value) s = .next s))

/-- R358, R385, R327: an ATS invalidation takes the translation out of the function's cache; clearing a vector's mask sends the message
whose Pending Bit stands; SR-IOV enables at most 16 VFs. FENCE (R369) completes once every command fetched before it in its scope has
completed; none does while its function moults (R334). -/
def Obligations.HostControls : Prop :=
  ∀ (s : State) (fn : Fn),
    (∀ page : BitVec 52, exec (.atsInvalidation fn page) s = .next (if s.fnUp fn then
      s.modFunc fn fun f => { f with atc := f.atc.filter fun x => decide (x ≠ page) } else s)) ∧
    (∀ v : Nat, s.fnUp fn = true → v < (if fn = 0 then 128 else 120) → (s.func fn).unmasked.contains v = false →
      ∃ u : State, exec (.msixVectorUnmask fn v) s = .next u ∧ u = { s with funcs := u.funcs, outputs := u.outputs } ∧
        u.func fn = { s.func fn with unmasked := v :: (s.func fn).unmasked, msixPend := (s.func fn).msixPend.filter fun x => decide (x ≠ v) } ∧
        (∀ m, m ≠ fn → u.func m = s.func m) ∧
        u.outputs = if (s.func fn).msixPend.contains v then .msix fn v :: s.outputs else s.outputs) ∧
    (∀ k : Nat, exec (.srIovEnable k) s = .next (if s.fnUp 0 ∧ k ≤ 16 then { s with vfs := k } else s)) ∧
    (∀ (cid : Nat) (c : Cmd), s.findCmd fn cid = some c → bits (dw c.desc 0) 63 56 = 0x32 → s.up = true → s.fnState fn ≠ .moulting →
      headBad c.desc = false → zeroFrom c.desc 2 = true → (dw c.desc 1).toNat ≤ 1 →
      let before := ((s.func fn).cmds.takeWhile fun x => decide (x.cid ≠ cid)).filter fun x =>
        bit (dw c.desc 1) 0 || decide (x.ring = c.ring)
      (before = [] → exec (.fence fn cid) s = .next (s.complete fn c 0 0 0)) ∧
      (before ≠ [] → exec (.fence fn cid) s = .fault (.notDue "FENCE"))) ∧
    (∀ cid : Nat, s.fnState fn = .moulting → exec (.fence fn cid) s = .fault (.notDue "FENCE")) ∧
    ∀ (cid : Nat) (c : Cmd), s.findCmd fn cid = some c → bits (dw c.desc 0) 63 56 = 0x32 → s.up = true → s.fnState fn ≠ .moulting →
      headBad c.desc = true ∨ zeroFrom c.desc 2 = false ∨ 1 < (dw c.desc 1).toNat →
      exec (.fence fn cid) s = .next (s.complete fn c 0x0102 0 0)

/-- R362, R364, R366: the next descriptor of the pair whose turn it is, is read and either completes with the code of the first check it
fails (an error completion of the host is E_HOST_DMA) or joins the fetched commands; its ring's head moves by one. With no pair
ready nothing is fetched. A solve command whose channel's queue is full stays in its ring; one whose channel no program holds ends at
once. ABORT_DB has its descriptor read before every other and moves no head; only an ABORT may stand there. -/
def Obligations.DescriptorFetches : Prop :=
  ∀ (s : State) (data : Option (BitVec 512)),
    (∀ n r i, s.pickAbort = some (n, r, i) → ∃ u : State, exec (.descriptorFetch data) s = .next u ∧ (u.ring n r).abort = none ∧
      (u.ring n r).sqHead = (s.ring n r).sqHead ∧ u.tiles = s.tiles ∧ u.parts = s.parts ∧ u.mem = s.mem ∧ (∀ m, m ≠ n → u.func m = s.func m) ∧
      ((∀ d, data = some d → s.fetchCheck n d = none → bits (dw d 0) 63 56 ≠ 0x60) →
        (u.func n).cmds = (s.func n).cmds.filter fun x => decide (x.cid ≠ (s.func n).nextCid)) ∧
      ∀ d, data = some d → s.fetchCheck n d = none → bits (dw d 0) 63 56 = 0x60 →
        (u.func n).cmds = (s.func n).cmds ++ [{ cid := (s.func n).nextCid, ring := r, desc := d, phase := .fetched }]) ∧
    (s.pickAbort = none → (s.pick = none → exec (.descriptorFetch data) s = .fault (.notDue "DESCRIPTOR_FETCH")) ∧
    ∀ (n : Fn) (r : RingId), s.pick = some (n, r) →
      let head (u : State) : Prop := (u.ring n r).sqHead = ((s.ring n r).sqHead + 1) % 2 ^ (s.ring n r).sqlog.toNat ∧ u.lastFn = n ∧
        (u.func n).nextCid = (s.func n).nextCid + 1 ∧ u.tiles = s.tiles ∧ u.parts = s.parts ∧ u.mem = s.mem ∧
        (∀ m, m ≠ n → u.func m = s.func m)
      (data = none → ∃ u : State, exec (.descriptorFetch data) s = .next u ∧ head u ∧ (u.func n).cmds = (s.func n).cmds.filter fun x =>
        decide (x.cid ≠ (s.func n).nextCid)) ∧
      (∀ d code, data = some d → s.fetchCheck n d = some code → ∃ u : State, exec (.descriptorFetch data) s = .next u ∧ head u ∧
        (u.func n).cmds = (s.func n).cmds.filter fun x => decide (x.cid ≠ (s.func n).nextCid)) ∧
      (∀ d, data = some d → s.fetchCheck n d = none →
        (s.heldBack n d = false → s.chanAbsent n d = false → ∃ u : State, exec (.descriptorFetch data) s = .next u ∧ head u ∧
          (u.func n).cmds = (s.func n).cmds ++ [{ cid := (s.func n).nextCid, ring := r, desc := d, phase := .fetched }] ∧
          u.hostMem = s.hostMem ∧ u.outputs = s.outputs) ∧
        (s.heldBack n d = true → ∃ u : State, exec (.descriptorFetch data) s = .next u ∧ u.lastFn = n ∧ u.ring n r = s.ring n r ∧
          (u.func n).cmds = (s.func n).cmds ∧ u.tiles = s.tiles ∧ u.mem = s.mem ∧ u.hostMem = s.hostMem) ∧
        (s.heldBack n d = false → s.chanAbsent n d = true → ∃ u : State, exec (.descriptorFetch data) s = .next u ∧ u.lastFn = n ∧
          u.tiles = s.tiles ∧ (u.func n).cmds = (s.func n).cmds.filter fun x => decide (x.cid ≠ (s.func n).nextCid))))

namespace Sys2Proof.Claims

/-- v is s with the bytes stored at a place of the partition, n of them, and nothing else in any memory. -/
def Placed (s v : State) (p : Pid) (y : Place) (n : Nat) (bs : List Byte) : Prop :=
  v.tiles = s.tiles ∧ v.funcs = s.funcs ∧
    match y with
    | .host b => v.mem = s.mem ∧ v.sync = s.sync ∧ v.hostMem = Memory.writeBytes s.hostMem b bs
    | .silo b => v.hostMem = s.hostMem ∧ v.sync = s.sync ∧ (InSilo s p b n → SiloStored s v p b bs)
    | .die b => v.hostMem = s.hostMem ∧ v.sync = s.sync ∧ Stored s.mem v.mem b bs
    | .objects i => v.hostMem = s.hostMem ∧ v.mem = s.mem ∧
        (∀ o, (∀ z ∈ objsFrom (s.part p) i bs, z.1 ≠ o) → v.obj o = s.obj o) ∧
        (Tab.wf 0 s.sync.objs = true → (s.part p).entry.blk.Nodup → ∀ z ∈ objsFrom (s.part p) i bs, v.obj z.1 = z.2)

end Sys2Proof.Claims

/-- R373, R367, R377, R378: a COPY that meets no error moves LEN bytes from its source to its destination, whichever of host memory, silo,
tile store, solve-engine window and sync objects they are, and no others; FILL repeats the 64-bit pattern over its range; QUERY
and DIGEST_READ write their result at BUF; each completes with OK. One that fails a check completes with its code and changes
nothing else; a host error ends COPY, QUERY and DIGEST_READ with E_HOST_DMA. -/
def Obligations.HostMoves : Prop :=
  ∀ (s : State) (fn : Fn) (cid : Nat) (c : Cmd) (p : Pid), s.partOfFn fn = some p → Memory.wf s.mem = true →
    let d := c.desc
    (∀ (x y : Place) (h : HostReply) (bs : List Byte), let len := bits (dw d 3) 39 0
      s.dueCmd fn cid 0x10 = some c → copyCheck d = none →
      s.placeOf p (bit (dw d 4) 0) (dw d 1).toNat len = .ok x → s.placeOf p (bit (dw d 4) 1) (dw d 2).toNat len = .ok y →
      let data := s.readPlace p x len bs
      let ofHost := (∃ a, x = .host a) ∨ (∃ a, y = .host a)
      (s.dieBusy p y = true → exec (.copy fn cid h) s = .next (s.complete fn c 0x0501 0 0)) ∧
      (s.dieBusy p y = false → s.holdPlace p y len = none →
        (h = .error → ofHost → ∃ v : State, exec (.copy fn cid h) s = .next (v.complete fn c 0x0203 0 0) ∧ v.tiles = s.tiles ∧
          v.funcs = s.funcs ∧ ((∃ b, y = .host b) → v.mem = s.mem) ∧ ((∀ b, y ≠ .host b) → v.hostMem = s.hostMem)) ∧
        (h = .ok bs ∨ (h = .error ∧ ¬ ofHost ∧ bs = []) → s.sourceBad p x len = none → s.targetBad p y len = none →
          (∀ code, s.objectsCheck p y data = some code →
            ∃ v : State, exec (.copy fn cid h) s = .next (v.complete fn c code 0 0) ∧ v.mem = s.mem ∧ v.sync = s.sync ∧ v.tiles = s.tiles) ∧
          (s.objectsCheck p y data = none → (copyHint d = 3 → ∀ a, x ≠ .silo a) →
            ∃ v : State, exec (.copy fn cid h) s = .next (v.complete fn c 0 0 0) ∧ Placed s v p y len data)))) ∧
    (∀ code, s.dueCmd fn cid 0x10 = some c → copyCheck d = some code → ∀ h, exec (.copy fn cid h) s = .next (s.complete fn c code 0 0)) ∧
    (∀ y : Place, let len := bits (dw d 2) 39 0
      let data := (List.range len).map fun i => BitVec.ofNat 8 ((dw d 3).toNat / 256 ^ (i % 8))
      s.dueCmd fn cid 0x11 = some c → fillCheck d = none → s.placeOf p true (dw d 1).toNat len = .ok y →
      (s.dieBusy p y = true → exec (.fill fn cid) s = .next (s.complete fn c 0x0501 0 0)) ∧
      (s.dieBusy p y = false → s.holdPlace p y len = none → s.targetBad p y len = none →
        (∀ code, s.objectsCheck p y data = some code → exec (.fill fn cid) s = .next (s.complete fn c code 0 0)) ∧
        (s.objectsCheck p y data = none →
          ∃ v : State, exec (.fill fn cid) s = .next (v.complete fn c 0 0 0) ∧ Placed s v p y len data))) ∧
    (∀ code, s.dueCmd fn cid 0x11 = some c → fillCheck d = some code → exec (.fill fn cid) s = .next (s.complete fn c code 0 0)) ∧
    (∀ h : HostReply, s.dueCmd fn cid 0x50 = some c → headBad d = false → zeroFrom d 5 = true →
      bits (dw d 1) 63 8 = 0 → bits (dw d 4) 63 32 = 0 →
      (∀ code, s.queryResult fn d = .error code → exec (.query fn cid h) s = .next (s.complete fn c code 0 0)) ∧
      ∀ bs : List Byte, s.queryResult fn d = .ok bs →
        ((dw d 3).toNat % 64 ≠ 0 → exec (.query fn cid h) s = .next (s.complete fn c 0x0106 0 0)) ∧
        ((dw d 3).toNat % 64 = 0 → (dw d 4).toNat < bs.length → exec (.query fn cid h) s = .next (s.complete fn c 0x0107 0 0)) ∧
        ((dw d 3).toNat % 64 = 0 → bs.length ≤ (dw d 4).toNat →
          (h ≠ .error → exec (.query fn cid h) s = .next
            ({ s with hostMem := Memory.writeBytes s.hostMem (dw d 3).toNat bs }.complete fn c 0 0 bs.length)) ∧
          (h = .error → ∃ v : State, exec (.query fn cid h) s = .next (v.complete fn c 0x0203 0 0) ∧
            v = { s with hostMem := v.hostMem, freeCtr := v.freeCtr }))) ∧
    (∀ (h : HostReply) (r : BitVec 4096), s.dueCmd fn cid 0x51 = some c → headBad d = false → zeroFrom d 3 = true →
      (dw d 1).toNat ≤ 7 → (s.part p).results[digestSlot d] = some r → (dw d 2).toNat % 64 = 0 →
      (h ≠ .error → exec (.digestRead fn cid h) s = .next
        ({ s with hostMem := Memory.writeBytes s.hostMem (dw d 2).toNat (leBytes 512 r.toNat) }.complete fn c 0 0
          (r.toNat / 2 ^ 128 % 2 ^ 40))) ∧
      (h = .error → ∃ v : State, exec (.digestRead fn cid h) s = .next (v.complete fn c 0x0203 0 0) ∧
        v = { s with hostMem := v.hostMem, freeCtr := v.freeCtr })) ∧
    (s.dueCmd fn cid 0x51 = some c → headBad d = false → zeroFrom d 3 = true → (dw d 1).toNat ≤ 7 →
      (s.part p).results[digestSlot d] = none → ∀ h, exec (.digestRead fn cid h) s = .next (s.complete fn c 0x0102 0 0))

/-- R371, R374: LOAD_PROGRAM with an image that passes its checks, a map and channels to be had puts the image into the silo and the program
into its slot; one whose descriptor fails a check ends with the code of the first that fails and changes nothing else; UNLD = 1 takes
the program out and leaves memory; a host error is E_HOST_DMA and leaves the programs held before.
SOLVE_DELTA and SOLVE_ADJOINT join the queue of their channel while it has room. -/
def Obligations.ProgramCommands : Prop :=
  ∀ (s : State) (fn : Fn) (cid : Nat) (c : Cmd) (p : Pid), s.partOfFn fn = some p → Memory.wf s.mem = true →
    let d := c.desc
    let k := loadSlot d
    let dst := (dw d 2).toNat
    let len := bits (dw d 3) 39 0
    (s.dueCmd fn cid 0x01 = some c → bit (dw d 4) 3 = false → loadFieldBad d false = false → (dw d 1).toNat % 64 = 0 → dst % 4096 = 0 →
      len % 64 = 0 → InSilo s p dst len → (∀ r ∈ (s.part p).otherRegions k, overlap r (dst, len) = false) → s.siloFenced p dst len = false →
      s.slotBusy p k fn cid = false → s.holdWrites p [(dst, len)] = none →
      (∃ v : State, exec (.loadProgram fn cid .error) s = .next (v.complete fn c 0x0203 0 0) ∧ (v.part p).slots = (s.part p).slots ∧
        v.tiles = s.tiles ∧ ∀ x, (∀ i, i < len → x ≠ (s.part p).devAddr (dst + i)) → Memory.read v.mem x = Memory.read s.mem x) ∧
      ∀ (img : List Byte) (m : List EngId × List TileId) (ms : List ChanMap), img.length = len →
        let w := (s.markOthers p).siloWrite p dst img
        w.imageCheck p img dst = none → w.buildMap p (imgLe img 16 1) (imgLe img 17 1) (imgLe img 18 1) = some m →
        w.allocate p k img m.1 = some ms → w.holdWrites p (zeroTargets img ms) = none →
        ∃ v : State, exec (.loadProgram fn cid (.ok img)) s = .next (v.complete fn c 0 0 0) ∧ v = w.install p k img dst m ms ∧
          SiloStored s w p dst img ∧
          ∃ g, (v.part p).slots[k] = some g ∧ g.image = img ∧ g.addr = dst ∧ g.sheafs = m.1 ∧ g.tiles = m.2 ∧ g.chans = ms) ∧
    (s.dueCmd fn cid 0x01 = some c → bit (dw d 4) 3 = false → ∀ h,
      let ends (code : BitVec 16) : Prop := exec (.loadProgram fn cid h) s = .next (s.complete fn c code 0 0)
      let aligned := (dw d 1).toNat % 64 = 0 ∧ dst % 4096 = 0 ∧ len % 64 = 0
      let inside := (s.part p).inSilo dst len = true ∧ ∀ r ∈ (s.part p).otherRegions k, overlap r (dst, len) = false
      exec (.programUnload fn cid) s = .fault (.notDue "PROGRAM_UNLOAD") ∧ (loadFieldBad d false = true → ends 0x0102) ∧
      (loadFieldBad d false = false → ¬ aligned → ends 0x0106) ∧
      (loadFieldBad d false = false → aligned → ¬ inside → ends 0x0105) ∧
      (loadFieldBad d false = false → aligned → inside → s.siloFenced p dst len = true → ends 0x0503) ∧
      (loadFieldBad d false = false → aligned → inside → s.siloFenced p dst len = false → s.slotBusy p k fn cid = true → ends 0x0501)) ∧
    (s.dueCmd fn cid 0x01 = some c → bit (dw d 4) 3 = true →
      (∀ h, exec (.loadProgram fn cid h) s = .fault (.notDue "LOAD_PROGRAM")) ∧
      (loadFieldBad d true = true → exec (.programUnload fn cid) s = .next (s.complete fn c 0x0102 0 0)) ∧
      (loadFieldBad d true = false → s.slotBusy p k fn cid = true →
        exec (.programUnload fn cid) s = .next (s.complete fn c 0x0501 0 0))) ∧
    (s.dueCmd fn cid 0x01 = some c → bit (dw d 4) 3 = true → loadFieldBad d true = false → s.slotBusy p k fn cid = false →
      ∃ v : State, exec (.programUnload fn cid) s = .next (v.complete fn c 0 0 0) ∧ (v.part p).slots[k] = none ∧
        ((∀ e ch a, (s.chan e ch).alloc = some a → a.pid = p → a.slot = k → (s.chan e ch).queue = [] ∧ (s.chan e ch).run = none) →
          v.mem = s.mem) ∧ (∀ j : SlotId, j ≠ k → (v.part p).slots[j] = (s.part p).slots[j])) ∧
    (∀ (adj : Bool) (e : EngId) (ch : ChanId), s.dueCmd fn cid (if adj then 0x21 else 0x20) = some c → (s.part p).descChan d = some (e, ch) →
      let cmd : Instr := if adj then .solveAdjoint fn cid else .solveDelta fn cid
      ((s.chan e ch).queue.length < 16 → exec cmd s = .next ((s.modFunc fn fun f =>
        { f with cmds := f.cmds.map fun x => if x.cid = c.cid then { x with phase := .started } else x }).modChan e ch fun x =>
          { x with queue := x.queue ++ [{ record := (d >>> 64) ||| BitVec.ofNat 512 (bits (wordOf d 0) 31 0 * 2 ^ 480), issuer := .host fn cid }],
                   tStart := if x.queue = [] then some s.now else x.tStart })) ∧
      (16 ≤ (s.chan e ch).queue.length → exec cmd s = .fault (.notDue (if adj then "SOLVE_ADJOINT" else "SOLVE_DELTA"))))

/-- R372, R255, R256, R152, R26: LAUNCH and LAUNCH_AT that pass their checks start; at the ready point LAUNCH_AT needs LOCKED (E_BUSY) and
a count more than 2,048 gt ahead (E_TIMEOUT), and an accepted launch has its count C, for LAUNCH the ready point plus 2,048. The hint
comes at C − 2,048, the release at C: every mapped core starts at its entry point with its registers zero and its counters
clear. When every core has halted and every link entry is done, the launch ends and its command completes. -/
def Obligations.LaunchLife : Prop :=
  (∀ (s : State) (fn : Fn) (cid : Nat) (c : Cmd) (p : Pid) (timed : Bool), s.partOfFn fn = some p →
    s.dueCmd fn cid (if timed then 0x03 else 0x02) = some c → s.launchTurn p fn cid = true →
    let cmd : Instr := if timed then .launchAt fn cid else .launch fn cid
    (∀ code, s.launchCheck p c.desc timed = some code → exec cmd s = .next (s.complete fn c code 0 0)) ∧
    (s.launchCheck p c.desc timed = none → ∃ l, exec cmd s = .next ((s.modFunc fn fun f =>
        { f with cmds := f.cmds.map fun x => if x.cid = c.cid then { x with phase := .started } else x }).modPart p fun x =>
          { x with launch := some l }) ∧
      l.phase = .started ∧ l.at_ = timed ∧ l.fn = fn ∧ l.cid = c.cid ∧ l.slot.val = bits (dw c.desc 1) 2 0 ∧ l.seed = dw c.desc 2 ∧
      l.step = dw c.desc 3 ∧ l.c = (dw c.desc 4).toNat ∧ l.raddr = (dw c.desc 5).toNat ∧ l.nmod = bits (dw c.desc 1) 63 32)) ∧
  ∀ (s : State) (p : Pid) (now : Nat) (l : Launch) (x : Program), s.live p = some (l, x) →
    let v := s.at_ now
    (l.phase = .started → l.at_ = true → s.time.lock ≠ .locked → ∃ u : State, exec (.launchReady p now) s = .next u ∧
      u = (match s.findCmd l.fn l.cid with
        | none => v.clearLaunch p
        | some c => (v.clearLaunch p).complete l.fn c 0x0501 0 0) ∧ (u.part p).launch = none) ∧
    (l.phase = .started → l.at_ = true → s.time.lock = .locked → l.c ≤ v.now + 2048 → ∃ u : State, exec (.launchReady p now) s = .next u ∧
      u = (match s.findCmd l.fn l.cid with
        | none => v.clearLaunch p
        | some c => (v.clearLaunch p).complete l.fn c 0x0303 0 0) ∧ (u.part p).launch = none) ∧
    (l.phase = .started → l.dgst = false → (l.at_ = true → s.time.lock = .locked ∧ v.now + 2048 < l.c) → v.tableCheck p x.image = none →
      ∃ u : State, exec (.launchReady p now) s = .next u ∧ u.tiles = s.tiles ∧ u.engines = s.engines ∧ u.funcs = s.funcs ∧
        (u.part p).launch = some { l with phase := .accepted, whash := 0, ihash := 0, c := if l.at_ then l.c else v.now + 2048 }) ∧
    (l.phase = .accepted → l.c ≤ v.now + 2048 → ∃ u : State, exec (.launchHint p now) s = .next u ∧
      u = { v with tiles := u.tiles, parts := u.parts } ∧ (u.part p).launch = some { l with phase := .hinted } ∧
      ∀ t, t ∈ x.tiles → u.tile t = { s.tile t with array := { (s.tile t).array with hint := some v.now, hintOver := false, hintNext := v.now + 256 } }) ∧
    (l.phase ≠ .accepted ∨ v.now + 2048 < l.c → exec (.launchHint p now) s = .fault (.notDue "LAUNCH_HINT")) ∧
    (l.phase = .hinted → l.c ≤ v.now → (∀ t ∈ x.tiles, (s.tile t).mops = [] ∧ (s.tile t).dmas = [] ∧ (s.tile t).upds = []) →
      ∃ u : State, exec (.launchRelease p now) s = .next u ∧ u.mem = s.mem ∧ u.funcs = s.funcs ∧
        (∃ l', (u.part p).launch = some l' ∧ l'.phase = .released ∧ l'.c = l.c ∧ l'.seed = l.seed ∧ l'.step = l.step) ∧
        ∀ t n, x.logical t = some n →
          let y := u.tile t
          y.core.status = .running ∧ y.core.g = Vector.replicate 32 0 ∧ y.core.f = Vector.replicate 32 0 ∧
          y.core.v = Vector.replicate 32 0 ∧ y.core.slot = l.slot ∧ y.core.ltile = n ∧ (y.core.code, y.core.pc) = imgEntry x.image n ∧
          y.core.missued = 0 ∧ y.core.mdone = 0 ∧ y.core.dissued = 0 ∧ y.core.ddone = 0 ∧ y.cnt = Counters.reset ∧
          y.faults = FaultRegs.reset ∧ y.norms = Vector.replicate 4 Norm.reset ∧ y.array.stagger = some (n % 16 * 8)) ∧
    (l.phase ≠ .hinted ∨ v.now < l.c → exec (.launchRelease p now) s = .fault (.notDue "LAUNCH_RELEASE")) ∧
    (l.phase = .released → s.launchOver l x = true → l.dgst = false → l.sign = false →
      ∃ u : State, exec (.launchComplete p now) s = .next u ∧ (u.part p).launch = none ∧
        ∀ c, s.findCmd l.fn l.cid = some c → l.ended = false →
          (l.rrec = false ∨ s.siloWaiting p l.raddr 512 = [] →
            (u.func l.fn).cmds = (s.func l.fn).cmds.filter fun y => decide (y.cid ≠ c.cid)) ∧
          (l.rrec = true → s.siloWaiting p l.raddr 512 ≠ [] → ∃ e, e.pid = p ∧ e.addr = l.raddr ∧ e.len = 512 ∧
            (u.func l.fn).cmds = (s.func l.fn).cmds.map fun y => if y.cid = c.cid then { y with done := some e } else y)) ∧
    (l.phase ≠ .released ∨ s.launchOver l x = false → exec (.launchComplete p now) s = .fault (.notDue "LAUNCH_COMPLETE"))

/-- R325, R327 to R331, R353: BIND of PF0 that passes its checks makes the partition BOUND to the record's function and resources, one BEPOCH
later, and every one of them shows the new owner and epoch; one that fails a check changes nothing but its completion. UNBIND
starts the moult; its four steps run in order, the last leaves the partition FREE, its granules queued for clear, and completes
UNBIND. A key moult takes the first three steps and ends BOUND, under a new key, its granules queued for clear. -/
def Obligations.BindingLife : Prop :=
  (∀ (s : State) (fn : Fn) (cid : Nat) (c : Cmd) (rec : Option (BitVec 8192)), s.dueCmd fn cid 0x40 = some c →
    (s.bindTurn fn cid = false → exec (.bind fn cid rec) s = .fault (.notDue "BIND")) ∧
    (s.bindTurn fn cid = true →
    let bad := headBad c.desc = true ∨ zeroFrom c.desc 2 = false
    (fn ≠ 0 → exec (.bind fn cid rec) s = .next (s.complete fn c 0x0101 0 0)) ∧
    (fn = 0 → bad → exec (.bind fn cid rec) s = .next (s.complete 0 c 0x0102 0 0)) ∧
    (fn = 0 → ¬ bad → bits (dw c.desc 1) 5 0 ≠ 0 → exec (.bind fn cid rec) s = .next (s.complete 0 c 0x0106 0 0)) ∧
    (fn = 0 → ¬ bad → bits (dw c.desc 1) 5 0 = 0 →
      (rec = none → exec (.bind fn cid rec) s = .next (s.complete 0 c 0x0203 0 0)) ∧
      (∀ r code, rec = some r → s.bindCheck r = some code → exec (.bind fn cid rec) s = .next (s.complete 0 c code 0 0)) ∧
      (∀ (r : BitVec 8192) (p : Pid), rec = some r → s.bindCheck r = none → p.val = r.toNat / 2 ^ 60 % 16 →
        ∃ v : State, exec (.bind fn cid rec) s = .next (v.complete 0 c 0 0 0) ∧ v.bind.bepoch = s.bind.bepoch + 1 ∧
          (let e := (v.part p).entry
           e.st = .bound ∧ e.epoch = s.bind.bepoch + 1 ∧ e.hfn = (entryOf r).hfn ∧ e.sheaves = (entryOf r).sheaves ∧
           e.gran = (entryOf r).gran ∧ e.blk = (entryOf r).blk ∧ e.ports = (entryOf r).ports ∧ e.jobTag = (entryOf r).jobTag ∧
           ∀ i : EngId, v.bind.sheaves[i] = if bit e.sheaves i.val then { owner := some p, st := .bound, epoch := e.epoch }
             else s.bind.sheaves[i]) ∧
          (∀ q, q ≠ p → v.part q = s.part q) ∧ v.tiles = s.tiles ∧ v.funcs = s.funcs ∧ v.mem = s.mem)))) ∧
  (∀ (s : State) (fn : Fn) (cid : Nat) (c : Cmd) (p : Pid), s.dueCmd fn cid 0x41 = some c →
    let bad := headBad c.desc = true ∨ zeroFrom c.desc 2 = false
    (fn ≠ 0 → exec (.unbind fn cid) s = .next (s.complete fn c 0x0101 0 0)) ∧
    (fn = 0 → bad ∨ 15 < (dw c.desc 1).toNat → exec (.unbind fn cid) s = .next (s.complete fn c 0x0102 0 0)) ∧
    (fn = 0 → ¬ bad → (dw c.desc 1).toNat = p.val →
      ((s.part p).entry.st = .free → exec (.unbind fn cid) s = .next (s.complete fn c 0x0104 0 0)) ∧
      ((s.part p).entry.st = .moulting → exec (.unbind fn cid) s = .next (s.complete fn c 0x0504 0 0)) ∧
      ((s.part p).entry.st = .bound →
        ∃ u : State, exec (.unbind fn cid) s = .next u ∧ (u.part p).entry.st = .moulting ∧ (u.part p).entry.mstep = 1 ∧
          u.bind.bepoch = s.bind.bepoch + 1 ∧ (u.part p).entry.epoch = s.bind.bepoch + 1 ∧ (u.part p).entry.unbindBy = some (fn, cid) ∧
          (∀ q, q ≠ p → u.part q = s.part q) ∧ u.hostMem = s.hostMem ∧ u.mem = s.mem))) ∧
  ∀ (s : State) (p : Pid) (now : Nat),
    let e := (s.part p).entry
    let key := e.st = .bound ∧ e.keyMoult = true
    (e.st = .moulting ∨ key →
      (e.mstep = 1 → ∃ u : State, exec (.moultStepEnd p now) s = .next u ∧ (u.part p).entry = { e with mstep := 2 } ∧
        u.sec.silo[p] = (none, none) ∧ u.mem = s.mem ∧ ∀ t, s.onPart p t = true → (u.core t).status ≠ .running) ∧
      (e.mstep = 2 → ∃ u : State, exec (.moultStepEnd p now) s = .next u ∧ (u.part p).entry = { e with mstep := 3 } ∧
        (u.part p).slots = Vector.replicate 8 none ∧ (u.part p).launch = none ∧
        (∀ t, s.onPart p t = true → u.core t = Core.reset ∧ (u.tile t).norms = Vector.replicate 4 Norm.reset) ∧
        ∀ o, (s.part p).hasObj o = true → u.sync.objs.all (fun z => decide (z.1 ≠ o)) = true) ∧
      (e.mstep = 3 → ∃ u : State, exec (.moultStepEnd p now) s = .next u ∧ (u.part p).peers = [] ∧ u.mem = s.mem ∧
        (e.st = .moulting → (u.part p).entry = { e with mstep := 4 }) ∧
        (e.st = .bound → (u.part p).entry = { e with mstep := 0, keyMoult := false, moultFull := false } ∧
          (∀ g ∈ e.gran, g < 376 → u.bind.clrPend.getLsbD g = true) ∧
          (s.sec.drbgDown = false → s.sec.transport ≠ none → u.sec.silo[p] = (some (s.sec.keyGen + 1), none))) ∧
        ∀ q ∈ (s.part p).peers, q.keyed = true → ∀ h ∈ s.halvesTo p q.id,
          ((s.cfgOf h).eth = true ∨ linkRoom (s.cfgOf h).split (s.links.half[h]).out .vs (s.part p).peers.length = true) →
          .port h (.unbind q.id e.epoch) ∈ u.outputs)) ∧
    (e.st = .moulting → e.mstep = 4 → ∃ u : State, exec (.moultStepEnd p now) s = .next u ∧
      (u.part p).entry = { Entry.reset with epoch := s.bind.bepoch + 1 } ∧ u.bind.bepoch = s.bind.bepoch + 1 ∧
      (∀ g ∈ e.gran, g < 376 → u.bind.clrPend.getLsbD g = true) ∧
      ∀ n k c, e.unbindBy = some (n, k) → s.findCmd n k = some c →
        (u.func n).cmds = (s.func n).cmds.filter fun y => decide (y.cid ≠ c.cid)) ∧
    (e.mstep = 0 ∨ (e.st ≠ .moulting ∧ ¬ key) → exec (.moultStepEnd p now) s = .fault (.notDue "MOULT_STEP_END"))

/-- R376, R379, R407, R408: ABORT ends the work of its partition, discards the unfetched descriptors of its function and completes with
OK; a write of GO = 1 for a BOUND partition starts its reset and any other sets ERR, and the reset leaves no program and the rings
disabled; FLR returns the function's rings, registers and MSI-X to reset and ends the work of its partition. The other partitions'
programs and bindings stay. -/
def Obligations.AbortAndReset : Prop :=
  (∀ (s : State) (fn : Fn) (cid : Nat) (c : Cmd) (p : Pid), s.findCmd fn cid = some c → bits (dw c.desc 0) 63 56 = 0x60 → s.up = true →
    (dw c.desc 1).toNat = p.val → s.fenced .function fn.val = false →
    ((s.part p).entry.st = .free → headBad c.desc = false → zeroFrom c.desc 2 = true → fn = 0 →
      exec (.abort fn cid) s = .next (s.complete fn c 0x0104 0 0)) ∧
    (headBad c.desc = true ∨ zeroFrom c.desc 2 = false ∨ (fn ≠ 0 ∧ s.partOfFn fn ≠ some p) →
      exec (.abort fn cid) s = .next (s.complete fn c 0x0102 0 0)) ∧
    ((s.part p).entry.st = .moulting ∨ ((s.part p).entry.st = .bound ∧ (s.part p).entry.keyMoult = true) → headBad c.desc = false →
      zeroFrom c.desc 2 = true → fn = 0 ∨ s.partOfFn fn = some p → exec (.abort fn cid) s = .next (s.complete fn c 0x0504 0 0)) ∧
    ((s.part p).entry.st = .bound → (s.part p).entry.keyMoult = false → headBad c.desc = false → zeroFrom c.desc 2 = true →
      fn = 0 ∨ s.partOfFn fn = some p →
      let n := (s.part p).entry.hfn
      ∃ u : State, exec (.abort fn cid) s = .next u ∧ (u.part p).launch = none ∧ (u.part p).entry = (s.part p).entry ∧
        (∀ t, s.onPart p t = true → (u.core t).status = .stopped ∧ (u.tile t).mops = [] ∧ (u.tile t).dmas = [] ∧ (u.tile t).upds = []) ∧
        (∀ r : RingId, (u.ring n r).en = true → (u.ring n r).sqHead = (s.ring n r).sqTail) ∧
        (∀ q, q ≠ p → (u.part q).slots = (s.part q).slots ∧ (u.part q).entry = (s.part q).entry))) ∧
  (∀ (s : State) (value : Half) (p : Pid), s.up = true → s.mgmt.recov = false → value.toNat % 16 = p.val →
    (bit value 31 = false → exec (.go value) s = .next { s with bind := { s.bind with
      rstPid := p, rstErr := s.bind.rstErr && !bit value 30 } }) ∧
    (bit value 31 = true → (s.part p).entry.st ≠ .bound ∨ (s.part p).entry.keyMoult = true ∨ s.bind.rstBusy = true → exec (.go value) s = .next { s with bind := { s.bind with
      rstPid := p, rstErr := true } }) ∧
    (bit value 31 = true → (s.part p).entry.st = .bound → (s.part p).entry.keyMoult = false → s.bind.rstBusy = false →
      ∃ u : State, exec (.go value) s = .next u ∧ u.bind.rstBusy = true ∧ u.bind.rstPid = p ∧ u.bind.rstOn = p ∧ (u.part p).launch = none ∧
        (u.part p).entry = (s.part p).entry ∧ ∀ t, s.onPart p t = true → (u.core t).status = .stopped)) ∧
  (∀ (s : State) (now : Nat), let p := s.bind.rstOn
    (s.bind.rstBusy = false → exec (.partitionResetEnd now) s = .fault (.notDue "PARTITION_RESET_END")) ∧
    (s.bind.rstBusy = true → (s.part p).entry.st = .bound → ∃ u : State, exec (.partitionResetEnd now) s = .next u ∧ u.bind.rstBusy = false ∧
      (u.part p).entry = (s.part p).entry ∧ (u.part p).slots = Vector.replicate 8 none ∧ (u.part p).launch = none ∧
      (∀ t, s.onPart p t = true → u.core t = Core.reset) ∧
      ∀ r : RingId, (u.ring (s.part p).entry.hfn r).en = false)) ∧
  ∀ (s : State) (fn : Fn),
    (s.fnUp fn = false → exec (.flr fn) s = .next s) ∧
    (s.fnUp fn = true → s.partOfFn fn = none → ∃ u : State, exec (.flr fn) s = .next u ∧ u = { s with funcs := u.funcs, pins := u.pins } ∧
      (∀ m, m ≠ fn → u.func m = s.func m) ∧ (u.func fn).unmasked = [] ∧ (u.func fn).evq.en = false ∧
      (∀ r : RingId, u.ring fn r = Ring.reset) ∧ (u.func fn).act = 0x10) ∧
    (∀ p, s.fnUp fn = true → s.partOfFn fn = some p → (s.part p).entry.st = .bound → (s.part p).entry.keyMoult = false →
      ∃ u : State, exec (.flr fn) s = .next u ∧ (u.part p).launch = none ∧ (u.part p).entry = (s.part p).entry ∧
        (∀ t, s.onPart p t = true → (u.core t).status = .stopped ∧ (u.tile t).mops = [] ∧ (u.tile t).dmas = [] ∧ (u.tile t).upds = []) ∧
        (u.func fn).unmasked = [] ∧ (u.func fn).evq.en = false ∧ (∀ r : RingId, u.ring fn r = Ring.reset) ∧ (u.func fn).act = 0x10)

/-! ### Memory, keys, power and thermal control (09, 15, 17) -/

namespace Sys2Proof.Claims

/-- Only events and their messages beside what is named: function rings, host memory and messages out. -/
def EventOnly (s u : State) : Prop := u = { s with funcs := u.funcs, hostMem := u.hostMem, outputs := u.outputs }

end Sys2Proof.Claims

/-- R223, R224, R226 to R231, R235: a corrected or retried read is counted and changes no byte; a read that both attempts failed makes its
sector unreadable, counts it and raises MEM_UNCORRECTABLE, unless the sector carries a clear mark. The end of a migration starts
the next queued retirement; a window ends at its boundary. A stack reading at TTHR lowers its bandwidth level by one, one below
TTHR − 3 raises it, and the refresh rate doubles at 85 °C until 83 °C is passed below. -/
def Obligations.MemoryErrors : Prop :=
  ∀ (s : State) (now : Nat), let v := s.at_ now
    (∀ (addr : Nat) (r : Reader) (clean : Bool), addr < 384 * 2 ^ 30 → s.granPending (addr / 2 ^ 30) = false →
      (s.memctl.cleared.contains (addr / 2 ^ 30) = false ∨ s.memctl.wrote.contains (addr / 64) = true) →
      (∃ u : State, exec (.memoryReadError addr (.corrected true) r now) s = .next u ∧
        u = { v with memctl := u.memctl } ∧ u.memctl = { s.memctl with ce := satAdd s.memctl.ce 1 }) ∧
      (∃ u : State, exec (.memoryReadError addr (.corrected clean) r now) s = .next u ∧ u.mem = s.mem ∧ u.tiles = s.tiles ∧
        u.memctl.ce = satAdd s.memctl.ce 1) ∧
      (exec (.memoryReadError addr (.retried true) r now) s = exec (.memoryReadError addr (.corrected true) r now) s) ∧
      (s.partOfGran (addr / 2 ^ 30) = none → ∃ u : State, exec (.memoryReadError addr (.retried false) r now) s = .next u ∧
        u.memctl.bad.contains (addr / 64 * 64) = true ∧ u.mem = s.mem ∧ u.tiles = s.tiles ∧
        (∀ p, (u.part p).entry = (s.part p).entry) ∧ u.memctl.ue = satAdd s.memctl.ue 1) ∧
      (∀ p, s.partOfGran (addr / 2 ^ 30) = some p →
        ((s.part p).entry.st = .moulting → exec (.memoryReadError addr (.retried false) r now) s = .next v) ∧
        ((s.part p).entry.st = .bound → ∃ u : State, exec (.memoryReadError addr (.retried false) r now) s = .next u ∧
          (r = .block → u.memctl.bad.contains (addr / 64 * 64) = true ∧ u.mem = s.mem ∧ u.tiles = s.tiles ∧
            u.memctl.ue = satAdd s.memctl.ue 1)))) ∧
    (∀ (addr : Nat) (how : ReadError) (r : Reader), s.granPending (addr / 2 ^ 30) = true →
      exec (.memoryReadError addr how r now) s = .fault (.notDue "MEMORY_READ_ERROR")) ∧
    (∀ (addr : Nat) (how : ReadError) (r : Reader), addr < 384 * 2 ^ 30 → s.granPending (addr / 2 ^ 30) = false →
      s.memctl.cleared.contains (addr / 2 ^ 30) = true → s.memctl.wrote.contains (addr / 64) = false →
      exec (.memoryReadError addr how r now) s = .next v) ∧
    (∀ k, s.memctl.running = some k → s.memctl.queued = [] → ∃ u : State, exec (.migrationComplete now) s = .next u ∧
      u = { v with memctl := u.memctl, parts := u.parts } ∧ u.memctl = { s.memctl with running := none }) ∧
    (∀ k j pc rest, s.memctl.running = some k → s.memctl.queued = pc :: rest → s.memctl.freeSlot = some j →
      ∃ u : State, exec (.migrationComplete now) s = .next u ∧ u.mem = s.mem ∧ u.tiles = s.tiles ∧
        u.memctl = { s.memctl with running := some { pc := pc, slot := j }, queued := rest, pcRet := u.memctl.pcRet
                                   slots := s.memctl.slots.set j (some (Fin.ofNat 512 pc)) } ∧
        ∀ i, i < 512 → u.memctl.pcRet.getLsbD i = (s.memctl.pcRet.getLsbD i || decide (i = pc))) ∧
    (s.memctl.running = none → exec (.migrationComplete now) s = .fault (.notDue "MIGRATION_COMPLETE")) ∧
    (s.memctl.window < v.now / errWindow → ∃ u : State, exec (.errorWindowEnd now) s = .next u ∧ u = { v with memctl := u.memctl } ∧
      u.memctl.window = v.now / errWindow ∧ u.memctl.rowCnt = [] ∧ u.memctl.pcCnt = [] ∧ u.memctl.pcUeCnt = []) ∧
    (v.now / errWindow ≤ s.memctl.window → exec (.errorWindowEnd now) s = .fault (.notDue "ERROR_WINDOW_END")) ∧
    (∀ (m : StackId) (temp : Byte), s.pins.on = true → ∃ u : State, exec (.stackTempReading m temp now) s = .next u ∧ u.mem = s.mem ∧
      u.engines = s.engines ∧ (∀ j : StackId, j ≠ m → u.memctl.stackSt[j] = s.memctl.stackSt[j]) ∧
      let old := s.memctl.stackSt[m]
      let new := u.memctl.stackSt[m]
      new.temp = temp ∧ (85 ≤ temp.toNat → new.ref2 = true) ∧ (temp.toNat < 83 → new.ref2 = false) ∧
      (83 ≤ temp.toNat → temp.toNat < 85 → new.ref2 = old.ref2) ∧
      (s.memctl.tthr.toNat ≤ temp.toNat → 1 < old.level.toNat → new.level = old.level - 1) ∧
      (temp.toNat + 3 < s.memctl.tthr.toNat → old.level.toNat < 8 → new.level = old.level + 1) ∧
      (temp.toNat < s.memctl.tthr.toNat → s.memctl.tthr.toNat ≤ temp.toNat + 3 → new.level = old.level))

/-- R331, R332, R234, R347 to R350: the clear of a granule writes zeros over it, drops its bit and its unreadable sectors, lets the writes
held for it land and goes on to the next; a rotation puts a new key into the other slot, its sweep flips one page after another,
and the last page erases the old key and makes the new slot current. A link rotation marks every keyed peer for a handshake and
completes at once where there is none; a rotation that fails a check completes with its code. -/
def Obligations.ClearsAndRotations : Prop :=
  ∀ (s : State) (now : Nat), let v := s.at_ now
    (∀ g, s.bind.clearing = some g → g < 376 → Memory.wf s.mem = true → ∃ u : State, exec (.granuleClearComplete now) s = .next u ∧
      u.bind.clrPend.getLsbD g = false ∧ (∀ h, h ≠ g → u.bind.clrPend.getLsbD h = s.bind.clrPend.getLsbD h) ∧
      (∀ a ∈ u.memctl.bad, a / 2 ^ 30 ≠ g) ∧
      ((∀ p, ∀ q ∈ (s.part p).peers, q.early = []) →
        u.mem = landWrites (Memory.clear s.mem (g * 2 ^ 30) (g * 2 ^ 30 + 2 ^ 30)) (s.bind.heldWr.filter fun w => decide (w.1 / 2 ^ 30 = g)) ∧
        u.bind.heldWr = s.bind.heldWr.filter (fun w => !decide (w.1 / 2 ^ 30 = g)) ∧
        (∀ h, u.bind.clearing = some h → h ≠ g ∧ s.bind.clrPend.getLsbD h = true) ∧
        ((∃ h, h < 376 ∧ h ≠ g ∧ s.bind.clrPend.getLsbD h = true) → u.bind.clearing ≠ none) ∧
        (∀ a, a / 2 ^ 30 ≠ g → (∀ w ∈ s.bind.heldWr, w.1 / 2 ^ 30 ≠ g) → Memory.read u.mem a = Memory.read s.mem a) ∧
        ((∀ w ∈ s.bind.heldWr, w.1 / 2 ^ 30 ≠ g) → ∀ a, a / 2 ^ 30 = g → Memory.read u.mem a = 0) ∧ u.tiles = s.tiles ∧
        ((∀ n, ∀ c ∈ (s.func n).cmds, c.done = none) → u.funcs = s.funcs))) ∧
    (s.bind.clearing = none → exec (.granuleClearComplete now) s = .fault (.notDue "GRANULE_CLEAR_COMPLETE")) ∧
    (∀ (p : Pid), (s.sec.rot[p]).active = true → s.sec.drbgDown = false →
      let r := s.sec.rot[p]
      let n := (s.part p).entry.gran.length * 2 ^ 18
      (r.next.toNat + 1 ≠ n → ∃ u : State, exec (.sweepPage p now) s = .next u ∧ u.sec.rot[p] = { r with next := r.next + 1 } ∧
        u.sec.silo = s.sec.silo ∧ u.mem = s.mem ∧ u.tiles = s.tiles ∧ u.funcs = s.funcs ∧
        ∀ d, u.sectorKey p d = if d / 4096 = ((s.part p).entry.gran[r.next.toNat / 2 ^ 18]?.getD 0) * 2 ^ 18 + r.next.toNat % 2 ^ 18 then
          (if r.cur then (s.sec.silo[p]).1 else (s.sec.silo[p]).2) else s.sectorKey p d) ∧
      (r.next.toNat + 1 = n → ∃ u : State, exec (.sweepPage p now) s = .next u ∧
        u.sec.rot[p] = { r with active := false, cur := !r.cur, next := 0, waiter := none } ∧
        u.sec.silo[p] = (if r.cur then ((s.sec.silo[p]).1, none) else (none, (s.sec.silo[p]).2)) ∧ u.mem = s.mem ∧
        ∀ w k c, r.waiter = some (w, k) → s.findCmd w k = some c →
          (u.func w).cmds = (s.func w).cmds.filter fun y => decide (y.cid ≠ c.cid))) ∧
    (∀ (p : Pid), (s.sec.rot[p]).active = false → exec (.sweepPage p now) s = .fault (.notDue "SWEEP_PAGE")) ∧
    (∀ (fn : Fn) (cid : Nat) (c : Cmd) (p : Pid), s.dueCmd fn cid 0x42 = some c → bits (dw c.desc 1) 3 0 = p.val →
      (∀ code, rotLink c.desc = false → s.rotateCheck fn c.desc (s.sec.rot[p]).active = some code →
        exec (.keyRotate fn cid) s = .next (s.complete fn c code 0 0)) ∧
      (rotLink c.desc = false → s.rotateCheck fn c.desc (s.sec.rot[p]).active = none →
        ∃ u : State, exec (.keyRotate fn cid) s = .next u ∧ u.mem = s.mem ∧ u.hostMem = s.hostMem ∧
          u.sec.rot[p] = { s.sec.rot[p] with active := true, next := 0, waiter := some (fn, cid) } ∧
          u.sec.keyGen = s.sec.keyGen + 1 ∧
          (s.sec.transport ≠ none → u.sec.silo[p] = if (s.sec.rot[p]).cur then (some u.sec.keyGen, (s.sec.silo[p]).2) else ((s.sec.silo[p]).1, some u.sec.keyGen))) ∧
      (∀ code, rotLink c.desc = true → s.rotateCheck fn c.desc (s.sec.rot[p]).link = some code →
        exec (.keyRotateLink fn cid) s = .next (s.complete fn c code 0 0)) ∧
      (rotLink c.desc = true → s.rotateCheck fn c.desc (s.sec.rot[p]).link = none →
        (∀ q ∈ (s.part p).peers, q.rekey = false ∧ (q.keyed = false ∨ q.lost ≠ none)) →
        ∃ u : State, exec (.keyRotateLink fn cid) s = .next u ∧ u.mem = s.mem ∧
          u.sec.rot[p] = { s.sec.rot[p] with link := false, linkWaiter := none } ∧
          (u.func fn).cmds = (s.func fn).cmds.filter fun y => decide (y.cid ≠ c.cid)) ∧
      (rotLink c.desc = true → s.rotateCheck fn c.desc (s.sec.rot[p]).link = none → (∃ q ∈ (s.part p).peers, q.keyed = true ∧ q.lost = none) →
        ∃ u : State, exec (.keyRotateLink fn cid) s = .next u ∧ u.mem = s.mem ∧ u.hostMem = s.hostMem ∧
          u.sec.rot[p] = { s.sec.rot[p] with link := true, linkWaiter := some (fn, cid) } ∧
          (u.part p).peers = (s.part p).peers.map fun q => { q with rekey := q.rekey || (q.keyed && q.lost.isNone) }))

/-- R396, R400, R402 and the ranges of Power, thermal control, clocks and reset: PWR_CAP_CFG takes 600 to 1,500 W, PWR_POLICY and
MEM_BUDGET_CFG only values whose every field is in range; other values change nothing but CFGERR. Deep idle is entered only with
every partition FREE, no clear and no migration, and left by way of training. -/
def Obligations.PowerRegisters : Prop :=
  ∀ (s : State) (value : Half) (now : Nat),
    let lo16 := value.toNat % 65536
    let dthr := value.toNat / 2 ^ 24
    let mmin := value.toNat / 65536 % 16
    let kmax := value.toNat / 256 % 32
    let kmin := value.toNat % 32
    let pol := 90 ≤ dthr ∧ dthr ≤ 105 ∧ 1 ≤ mmin ∧ mmin ≤ 8 ∧ 8 ≤ kmax ∧ kmax ≤ 20 ∧ 8 ≤ kmin ∧ kmin ≤ kmax
    let ue := value.toNat / 2 ^ 24 % 32
    let pc := value.toNat / 256 % 65536
    let row := value.toNat % 256
    let idle := (∀ p : Pid, (s.part p).entry.st = .free) ∧ s.bind.clrPend = 0 ∧ s.memctl.running = none ∧ s.memctl.queued = []
    (s.setupOpen = false → exec (.pwrCapCfg value) s = .next s ∧ exec (.pwrPolicy value) s = .next s ∧
      exec (.memBudgetCfg value) s = .next s ∧ exec .deepIdleRequest s = .next s ∧ exec .deepIdleLeave s = .next s) ∧
    (s.setupOpen = true →
      exec (.pwrCapCfg value) s = .next (if 600 ≤ lo16 ∧ lo16 ≤ 1500 then
        { s with power := { s.power with cap := BitVec.ofNat 16 lo16 } } else { s with power := { s.power with cfgErr := true } }) ∧
      (pol → exec (.pwrPolicy value) s = .next { s with power := { s.power with
        dthr := BitVec.ofNat 8 dthr, mmin := BitVec.ofNat 4 mmin, kmax := BitVec.ofNat 5 kmax, kmin := BitVec.ofNat 5 kmin } }) ∧
      (¬ pol → exec (.pwrPolicy value) s = .next { s with power := { s.power with cfgErr := true } }) ∧
      exec (.memBudgetCfg value) s = .next (if 1 ≤ ue ∧ ue ≤ 16 ∧ 256 ≤ pc ∧ 2 ≤ row ∧ row ≤ 64 then
        { s with memctl := { s.memctl with pcue := BitVec.ofNat 5 ue, pcpce := BitVec.ofNat 16 pc, rowpce := BitVec.ofNat 8 row } }
        else s) ∧
      (s.power.deep = .none → idle → exec .deepIdleRequest s = .next { s with power := { s.power with
        deep := .entering, deepReq := true, deepest := true } }) ∧
      (s.power.deep = .none → ¬ idle → exec .deepIdleRequest s = .next { s with power := { s.power with cfgErr := true } }) ∧
      (s.power.deep = .leaving → exec .deepIdleRequest s = .next { s with power := { s.power with cfgErr := true } }) ∧
      (s.power.deep = .entering ∨ s.power.deep = .inside → exec .deepIdleRequest s = .next s) ∧
      (s.power.deep = .none ∨ s.power.deep = .leaving → exec .deepIdleLeave s = .next { s with power := { s.power with deepReq := false } }) ∧
      (s.power.deep = .entering ∨ s.power.deep = .inside → ∃ u : State, exec .deepIdleLeave s = .next u ∧
        u = { s with power := { s.power with deepReq := false, deep := .leaving }, links := u.links } ∧
        ∀ h : HalfId, (u.links.half[h]).state = if s.mayTrain h = true then .training else .down)) ∧
    (s.power.deep = .entering → ∃ u : State, exec (.deepIdleEntered now) s = .next u ∧
      u = { s.at_ now with power := { s.power with deep := .inside }, links := u.links } ∧
      ∀ h : HalfId, (u.links.half[h]).state = .down) ∧
    (s.power.deep ≠ .entering → exec (.deepIdleEntered now) s = .fault (.notDue "DEEP_IDLE_ENTERED")) ∧
    (s.power.deep = .leaving → (∀ h : HalfId, (s.links.half[h]).state ≠ .training) →
      exec (.deepIdleExitEnd now) s = .next { s.at_ now with power := { s.power with deep := .none, deepest := false } }) ∧
    (s.power.deep ≠ .leaving ∨ (∃ h : HalfId, (s.links.half[h]).state = .training) →
      exec (.deepIdleExitEnd now) s = .fault (.notDue "DEEP_IDLE_EXIT_END"))

/-- R391, R393, R395 to R397: a sample above 1,800 W brings the memory level down by one and every running partition's points down by
four; one above the cap lowers a partition that runs alone above KMIN by one, or else the memory level, or else reports that the
cap is not met; one that leaves room raises the memory level first. A die at DTHR loses a step on each of its sheaves, an
over-current warning takes them to 8, a rail that has settled lets its sheaf rise, ageing raises the rail by 2.5 mV to 30 mV. -/
def Obligations.PowerLoops : Prop :=
  ∀ (s : State) (now : Nat), s.pins.on = true → let v := s.at_ now
    (∀ x : Sample, ∃ u : State, exec (.regulatorSample x now) s = .next u ∧ u.mem = s.mem ∧ u.tiles = s.tiles ∧ u.engines = s.engines ∧
      u.power.plast = BitVec.ofNat 16 x.p ∧ u.power.cap = s.power.cap ∧ (u.power.fast = true ↔ 1800 < x.p) ∧
      (1800 < x.p → u.power.mlvl.toNat = max 1 (s.power.mlvl.toNat - 1) ∧ ∀ p, s.partRuns p = true →
        (u.power.pk[p]).toNat = max 8 (min (min s.power.kmax.toNat (s.power.pk[p]).toNat) (s.topK p) - 4)) ∧
      (x.p ≤ 1800 → s.power.cap.toNat < x.p → ∀ p, (∀ q, s.partRuns q = true ↔ q = p) →
        (∃ e ∈ s.sheavesOf p, s.power.kmin.toNat < (s.power.k[e]).toNat) →
        (u.power.pk[p]).toNat = max s.power.kmin.toNat (min (min s.power.kmax.toNat (s.power.pk[p]).toNat) (s.topK p) - 1) ∧
        u.power.mlvl = s.power.mlvl) ∧
      (x.p ≤ 1800 → s.power.cap.toNat < x.p → (∀ p, s.partRuns p = false) →
        if s.power.mmin.toNat < s.power.mlvl.toNat then u.power.mlvl = s.power.mlvl - 1 ∧ u.power.unmet = false
        else u.power.mlvl = s.power.mlvl ∧ u.power.unmet = true) ∧
      (x.p ≤ 1800 → x.p ≤ s.power.cap.toNat → x.pUp ≤ s.power.cap.toNat → s.power.mlvl.toNat < 8 →
        u.power.mlvl = s.power.mlvl + 1)) ∧
    (∀ (e : EngId) (k : BitVec 5), s.power.target[e] = some k → s.kWithheld e = false → s.wantK e = k →
      ∃ u : State, exec (.railSettled e) s = .next u ∧ u.power.k[e] = k ∧ u.mem = s.mem ∧ u.tiles = s.tiles) ∧
    (∀ e : EngId, s.power.target[e] = none → exec (.railSettled e) s = .fault (.notDue "RAIL_SETTLED")) ∧
    (∀ (die : Fin 2) (temp : Byte), ∃ u : State, exec (.dieTempReading die temp now) s = .next u ∧ u.power.dieTemp[die] = temp ∧
      u.mem = s.mem ∧ u.tiles = s.tiles ∧
      (s.power.dthr.toNat ≤ temp.toNat → u.power.dieThrot[die] = true ∧ ∀ e : EngId, dieOf e = die →
        (u.power.lim[e]).toNat = max 8 ((s.power.k[e]).toNat - 1)) ∧
      (temp.toNat < s.power.dthr.toNat → s.power.dieThrot[die] = false → u.power.lim = s.power.lim)) ∧
    (∀ (die : Fin 2) (oc : Bool) (st : BitVec 16), ∃ u : State, exec (.regulatorWarning die oc st now) s = .next u ∧
      u.power.railWarn[die] = some v.now ∧ (∀ e : EngId, dieOf e = die → u.power.lim[e] = 8) ∧ u.mem = s.mem ∧ u.tiles = s.tiles) ∧
    (∀ (die : Fin 2) (t : Nat), s.power.railWarn[die] = some t →
      (t + 1000000 ≤ v.now → ∃ u : State, exec (.railWarningRelease die now) s = .next u ∧ u.power.railWarn[die] = none ∧
        u.power.lim = s.power.lim ∧ u.mem = s.mem ∧ u.tiles = s.tiles) ∧
      (v.now < t + 1000000 → exec (.railWarningRelease die now) s = .fault (.notDue "RAIL_WARNING_RELEASE"))) ∧
    (∀ die : Fin 2, exec (.ageingMonitorRead die false now) s = .next v ∧
      ∃ u : State, exec (.ageingMonitorRead die true now) s = .next u ∧
        u.power = { s.power with trim := s.power.trim.set die (if s.power.trim[die] < 300 then s.power.trim[die] + 25 else s.power.trim[die]) } ∧
        EventOnly { v with power := u.power } u)

/-! ### Links (11, 12, 21) -/

namespace Sys2Proof.Claims

/-- Half-port h takes part in a training: there, enabled, its clock present, not fenced; the module has identity and a valid ID. -/
def Trains (s : State) (h : HalfId) : Prop :=
  s.mayTrain h = true ∧ s.modIdOk = true ∧ s.sec.idCause = 0 ∧ ((s.half h).state = .training ∨ (s.half h).state = .retrain)

/-- State of a half after its whole port starts to train. -/
def trained (x : PortState) : PortState := if x = .up ∨ x = .retrain then .retrain else .training

end Sys2Proof.Claims

/-- R260: the group that training chooses is aligned, no wider than the limit and the span, every lane of it passes, no wider aligned group
passes, and of equal ones it is the lowest; where no group is chosen no lane of the span passes. -/
def Obligations.LaneGroups : Prop :=
  ∀ (first size limit : Nat) (ok : Nat → Bool), (size = 4 ∨ size = 8) → 1 ≤ limit →
    let passes (w k : Nat) : Prop := ∀ i, i < w → ok (first + w * k + i) = true
    let width (w : Nat) : Prop := (w = 1 ∨ w = 2 ∨ w = 4 ∨ w = 8) ∧ w ≤ limit ∧ w ≤ size
    (∀ g, bestGroup (first, size) limit ok = some g → width g.2 ∧ ∃ k, g.1 = first + g.2 * k ∧ g.2 * k + g.2 ≤ size ∧ passes g.2 k ∧
      (∀ j, j < k → ¬ passes g.2 j) ∧ ∀ w j, width w → g.2 < w → w * j + w ≤ size → ¬ passes w j) ∧
    (bestGroup (first, size) limit ok = none → ∀ l, l < size → ok (first + l) = false)

/-- R260, R261, R267, R270: a training ends with the half UP on the widest usable group that its lanes in use and the peer's allow,
with the peer's ID and the version both have; FAILED without a group; DOWN for the module's own ID or no common version; and it
does not end where none runs. R269, R270, R284: a lane that fails while a narrower group is left retrains alone under version 1.1, else
its port does; its return clears its tries; a failure, alone or in its port's training, is tried again after 1 s, and the third within 10 s retires the lane. -/
def Obligations.PortsAndLanes : Prop :=
  (∀ (s : State) (h : HalfId) (found : Training) (now : Nat),
    let v := s.at_ now
    let group := bestGroup (s.span h) (maxWidth (s.cfgOf h)) fun l =>
      bit found.usable l && !bit found.failed l && !bit s.links.laneRet (laneId h l).val
    let Lanes (u : State) : Prop := ∀ l, (s.span h).1 ≤ l → l < (s.span h).1 + (s.span h).2 → bit s.links.laneRet (laneId h l).val = false →
      let old := s.links.lanes[laneId h l]
      let new := u.links.lanes[laneId h l]
      if bit found.failed l then new.fails = (v.now :: old.fails).take 3 ∧ new.retrain = false ∧
          bit u.links.laneRet (laneId h l).val = thirdFailure new.fails ∧
          new.retryAt = if thirdFailure new.fails then none else some (v.now + 1000000000)
        else new.retrain = false ∧ new.retryAt = none ∧ bit u.links.laneRet (laneId h l).val = false
    let eth := (s.cfgOf h).eth
    (¬ Trains s h → exec (.portTrainingComplete h found now) s = .fault (.notDue "PORT_TRAINING_COMPLETE")) ∧
    (Trains s h → found.peer ≠ s.links.modId → eth = true ∨ found.v10 = true ∨ found.v11 = true →
      (∀ g, group = some g → ∃ u : State, exec (.portTrainingComplete h found now) s = .next u ∧ u.mem = s.mem ∧ u.tiles = s.tiles ∧
        u.engines = s.engines ∧ Lanes u ∧
        u.half h = { s.half h with
          state := .up, peer := found.peer, lanes := groupLanes g, width := g.2,
          ver := if eth then 0 else if found.v11 then 2 else 1, skew := found.skew, trained := some v.now,
          out := (u.half h).out, owed := (u.half h).owed, replay := (u.half h).replay } ∧
        (s.links.txq = [] → u.parts = s.parts ∧ (u.half h).out = (s.half h).out ∧ ∀ k, k ≠ h → u.half k = s.half k)) ∧
      (group = none → ∃ u : State, exec (.portTrainingComplete h found now) s = .next u ∧ (u.half h).state = .failed ∧
        (u.half h).lanes = 0 ∧ Lanes u ∧ ((s.half h).state = .training → u.mem = s.mem ∧ u.tiles = s.tiles ∧ u.parts = s.parts ∧
          ∀ k, k ≠ h → u.half k = s.half k))) ∧
    (Trains s h → found.peer = s.links.modId ∨ (eth = false ∧ found.v10 = false ∧ found.v11 = false) →
      ∃ u : State, exec (.portTrainingComplete h found now) s = .next u ∧ (u.half h).state = .down ∧
        ((s.half h).state = .training → u.mem = s.mem ∧ u.tiles = s.tiles ∧ u.parts = s.parts))) ∧
  ∀ (s : State) (lane : Fin 64) (now : Nat),
    let v := s.at_ now
    let h := s.halfOfLane lane
    let x := s.links.lanes[lane]
    let live := s.halfUp h = true ∧ bit (s.half h).lanes (lane.val % 8) = true
    (¬ live → exec (.laneRetrainStart lane now) s = .fault (.notDue "LANE_RETRAIN_START")) ∧
    (live → s.mayTrain h = true → ∃ u : State, exec (.laneRetrainStart lane now) s = .next u ∧ u.mem = s.mem ∧ u.tiles = s.tiles ∧
      u.engines = s.engines ∧ u.links.lanes = s.links.lanes.set lane { x with retrain := true, retryAt := none } ∧
      (u.half h).rtcnt = min ((s.half h).rtcnt + 1) 0xFFFF ∧ ((s.half h).ver ≠ 2 → (u.half h).state = .retrain) ∧
      ((u.half h).state = .up ∨ (u.half h).state = .retrain) ∧
      ∀ k, k ≠ h → u.half k = { s.half k with out := (u.half k).out }) ∧
    (x.retrain = false → ∀ ok, exec (.laneRetrainEnd lane ok now) s = .fault (.notDue "LANE_RETRAIN_END")) ∧
    (x.retrain = true →
      (∃ u : State, exec (.laneRetrainEnd lane true now) s = .next u ∧
        u.links.lanes = s.links.lanes.set lane { x with retrain := false, tries := 0 } ∧ u.links.laneRet = s.links.laneRet ∧
        ((s.half h).state ≠ .up → u.mem = s.mem ∧ u.tiles = s.tiles ∧ u.links.half = s.links.half)) ∧
      ∃ u : State, exec (.laneRetrainEnd lane false now) s = .next u ∧
        let fails := (v.now :: x.fails).take 3
        ((∀ a b c, fails = [a, b, c] → c + 10000000000 ≤ a) → u.links.laneRet = s.links.laneRet ∧ u.links.lanes = s.links.lanes.set lane
          { x with retrain := false, tries := x.tries + 1, fails := fails, retryAt := some (v.now + 1000000000) }) ∧
        (∀ a b c, fails = [a, b, c] → a < c + 10000000000 → u.links.laneRet = s.links.laneRet ||| 1#64 <<< lane.val ∧
          u.links.lanes = s.links.lanes.set lane { x with retrain := false, tries := x.tries + 1, fails := fails, retryAt := none })) ∧
    (x.retryAt = none → exec (.laneRetryTimer lane now) s = .fault (.notDue "LANE_RETRY_TIMER")) ∧
    (∀ t, x.retryAt = some t → (v.now < t → exec (.laneRetryTimer lane now) s = .fault (.notDue "LANE_RETRY_TIMER")) ∧
      (t ≤ v.now → ∃ u : State, exec (.laneRetryTimer lane now) s = .next u ∧
        u.links.lanes = s.links.lanes.set lane { x with retrain := true, retryAt := none } ∧ u.links.laneRet = s.links.laneRet ∧
        ((s.half h).state = .up → (s.half h).ver = 2 → u.half h = { s.half h with rtcnt := min ((s.half h).rtcnt + 1) 0xFFFF } ∧
          u.mem = s.mem ∧ u.tiles = s.tiles)))

/-- R261, R262, R270, R453, R470: port configuration, module ID and Ethernet prefix take their value and retrain the ports that the rules
name; EPMD 0b11 and an ID that is not accepted change nothing; a disabled port goes DOWN; a lane retirement written as 1 is cleared;
without LNK_REFCLK every port is DOWN, and its return trains them. -/
def Obligations.LinkRegisters : Prop :=
  (∀ (s : State) (p : PortId) (value : Half) (word : Word), s.setupOpen = false →
    exec (.portReconfigure p value) s = .next s ∧ exec (.retrain p) s = .next s ∧ exec (.lnkModId value) s = .next s ∧
    exec (.lnkLaneRet word) s = .next s ∧ exec (.lnkEthPrefix word) s = .next s) ∧
  (∀ (s : State) (p : PortId) (value : Half) (word : Word), s.setupOpen = true →
    let n := value.toNat
    let c : PortCfg := { maxw := BitVec.ofNat 2 (n / 256), split := bit value 7, eth := bit value 6, epmd := BitVec.ofNat 2 (n / 16),
                         an := bit value 3, pfc := bit value 2, en := bit value 1 }
    let quiet := s.pins.lnkClk = true ∧ (∀ i : Fin 16, s.fenced .port i.val = false)
    let h0 : HalfId := ⟨2 * p.val, by omega⟩
    let h1 : HalfId := ⟨2 * p.val + 1, by omega⟩
    (c.epmd = 3 → exec (.portReconfigure p value) s = .next s) ∧
    (c.epmd ≠ 3 → s.links.cfg[p] = c → bit value 0 = false → exec (.portReconfigure p value) s = .next s) ∧
    (c.epmd ≠ 3 → s.links.cfg[p] ≠ c ∨ bit value 0 = true → ∃ u : State, exec (.portReconfigure p value) s = .next u ∧
      u.links.cfg = s.links.cfg.set p c ∧ u.links.modId = s.links.modId ∧
      (c.en = false → (u.half h0).state = .down ∧ (u.half h1).state = .down) ∧
      (c.en = true → quiet → (u.half h0).state = trained (s.half h0).state ∧
        (c.split = true → (u.half h1).state = trained (s.half h1).state) ∧ (c.split = false → (u.half h1).state = .down) ∧
        (c.split = true ∨ (s.half h1).state = .down → u.mem = s.mem ∧ u.tiles = s.tiles))) ∧
    ((s.links.cfg[p]).epmd ≠ 3 → (s.links.cfg[p]).en = true → quiet → ∃ u : State, exec (.retrain p) s = .next u ∧
      u.links.cfg = s.links.cfg ∧ (u.half h0).state = trained (s.half h0).state ∧
      ((s.links.cfg[p]).split = true ∨ (s.half h1).state = .down → u.mem = s.mem ∧ u.tiles = s.tiles)) ∧
    ((∃ q, (s.part q).entry.st = .bound) ∨ (0x1FFF < n % 65536 ∧ n % 65536 ≠ 65535) → exec (.lnkModId value) s = .next s) ∧
    ((∀ q, (s.part q).entry.st ≠ .bound) → n % 65536 ≤ 0x1FFF ∨ n % 65536 = 65535 →
      ∃ u : State, exec (.lnkModId value) s = .next u ∧ u.links.modId = BitVec.ofNat 16 n ∧ u.links.cfg = s.links.cfg ∧ u.mem = s.mem ∧
        (∀ q, (u.part q).entry = (s.part q).entry) ∧ ∀ h, s.mayTrain h = true → (u.half h).state = trained (s.half h).state) ∧
    (∃ u : State, exec (.lnkLaneRet word) s = .next u ∧ u = { s with links := { s.links with
        laneRet := s.links.laneRet &&& ~~~word, lanes := u.links.lanes } } ∧
      ∀ l : Fin 64, u.links.lanes[l] = if bit word l.val then { s.links.lanes[l] with fails := [], tries := 0 } else s.links.lanes[l]) ∧
    (∃ u : State, exec (.lnkEthPrefix word) s = .next u ∧ u.links.pfx = word ∧ u.links.cfg = s.links.cfg ∧
      (∀ h, s.mayTrain h = true → (s.cfgOf h).eth = true → (u.half h).state = trained (s.half h).state) ∧
      ((∀ h, (s.cfgOf h).eth = true → s.mayTrain h = true ∨ (s.half h).state = .down) → u.mem = s.mem ∧ u.tiles = s.tiles))) ∧
  ∀ (s : State) (now : Nat),
    (∃ u : State, exec (.lnkRefclkLoss now) s = .next u ∧ u.pins.lnkClk = false ∧ (∀ h, (u.half h).state = .down) ∧
      ((∀ h, (s.half h).state ≠ .up ∧ (s.half h).state ≠ .retrain) → u.mem = s.mem ∧ u.tiles = s.tiles ∧ u.parts = s.parts)) ∧
    (s.up = false → exec .lnkRefclkReturn s = .next { s with pins := { s.pins with lnkClk := true } }) ∧
    (s.up = true → ∃ u : State, exec .lnkRefclkReturn s = .next u ∧ u.pins.lnkClk = true ∧
      ∀ h, s.halfThere h = true → (s.cfgOf h).en = true → s.fenced .port h.val = false → (u.half h).state = trained (s.half h).state)

/-- R264 to R266, R268, R271, R272, R274, R275, R286: a message that can go at once leaves as one frame by the lowest half-port that reaches
the peer and has credit: its header, its number, the credit it takes; without keys or credit it waits, and nothing goes to a lost
peer. A received frame is taken once, when its CRC, carrier, length, module ID, job and tag agree, and
discarded and counted otherwise; a second copy changes nothing by whatever port it came; a CRC error or a failed tag asks for it again.
Data is taken in the order of the pair's numbers on its channel: a put that comes early waits, one in its turn lands where it says and
is acknowledged after its last piece, one whose granule waits for its clear is held. A NAK, or 20 µs without an acknowledgement on
Ethernet, sends a buffered frame again and counts it. Neighbour solicitations and echo requests for the port's own address are
answered, others discarded and counted; PFC pauses the data priority of a port that has it. -/
def Obligations.FramesReceived : Prop :=
  (∀ (s : State) (p : Pid) (m : ModId) (x : Message) (q : Peer), x.frames = [x] → s.moults p = false → s.links.txq = [] → s.peer p m = some q →
    let c := x.vc
    let n := unitsOf x.payload
    (q.lost ≠ none → s.send p m x = s) ∧
    (q.lost = none → q.keyed = false ∨ 2 ^ 40 ≤ q.frames ∨ s.txHalf p q c n = none →
      s.send p m x = { s with links := { s.links with txq := [{ pid := p, peer := m, msg := x }] } }) ∧
    (∀ h, q.lost = none → q.keyed = true → q.frames < 2 ^ 40 → s.txHalf p q c n = some h →
      let u := s.send p m x
      let eth := (s.cfgOf h).eth
      u.links.txq = [] ∧ (∃ hd, u.outputs = .frame hd x :: s.outputs ∧ hd.half = h ∧ Heads s hd p m c x.payload q ∧ (hd.net = none ↔ eth = false)) ∧
      (u.peer p m).map (fun y => (y.frames, y.tx)) = some (q.frames + 1, q.tx.add c 1) ∧
      (u.half h).out = (if eth then (s.half h).out else (s.half h).out.add c n) ∧
      (u.peer p m).map (·.out) = some (if eth then q.out.add c n else q.out) ∧ (∀ k, k ≠ h → u.half k = s.half k) ∧
      u.mem = s.mem ∧ u.tiles = s.tiles ∧ u.sync = s.sync) ∧
    ∀ h, s.txHalf p q c n = some h → bit (s.part p).entry.ports h.val = true ∧ (s.half h).state = .up ∧ s.reaches h m = true ∧
      ((s.cfgOf h).eth = false → (c = .vs → ((s.half h).out.vs + n) * 64 ≤ (if (s.cfgOf h).split then 2 ^ 13 else 2 ^ 14)) ∧
        (c ≠ .vs → ((s.half h).out.vd0 + (s.half h).out.vd1 + n) * 64 ≤ (if (s.cfgOf h).split then 516096 else 1032192)))) ∧
  (∀ (s : State) (h : HalfId) (f : Frame) (now : Nat),
    let v := s.at_ now
    let eth := (s.cfgOf h).eth
    let fits := ((f.carrier = .native ∧ eth = false) ∨ (f.carrier = .datagram ∧ eth = true)) ∧ f.payload ≤ 512
    let dropped := { s.links with discards := satAdd s.links.discards 1 }
    let ran (u : State) : Prop := exec (.frameReceipt h f now) s = .next u
    (s.halfUp h = false → exec (.frameReceipt h f now) s = .fault (.notDue "FRAME_RECEIPT")) ∧
    (s.halfUp h = true → ¬ fits → ran { v with links := dropped }) ∧
    (s.halfUp h = true → fits → f.crcOk = false → ran { v with outputs := .port h (.nak f.src f.vc f.seq) :: s.outputs }) ∧
    (s.halfUp h = true → fits → f.crcOk = true → f.body = .credit →
      ∃ u, ran u ∧ u.mem = s.mem ∧ u.tiles = s.tiles ∧ (s.links.txq = [] →
        (eth = false → (u.half h).out = (s.half h).out.minus f.credits ∧ u.parts = s.parts) ∧
        (∀ p q, eth = true → s.partOfJob f.jobTag = some p → s.peer p f.src = some q →
          (u.peer p f.src).map (·.out) = some (q.out.minus f.credits) ∧ u.links = s.links))) ∧
    (s.halfUp h = true → fits → f.crcOk = true → f.body ≠ .credit →
      (v.frameInOrder f = false → exec (.frameReceipt h f now) s = .fault (.notDue "FRAME_RECEIPT")) ∧
      (v.frameInOrder f = true → f.dst ≠ s.links.modId ∨ (s.partOfJob f.jobTag = none ∧ s.moultOfJob f.jobTag = none) →
        ∃ u, ran u ∧ u.links.discards = satAdd s.links.discards 1 ∧ u = { v with links := u.links, outputs := u.outputs }) ∧
      (∀ p, v.frameInOrder f = true → f.dst = s.links.modId → s.partOfJob f.jobTag = none → s.moultOfJob f.jobTag = some p →
        ∃ u, ran u ∧ u.links.discards = satAdd s.links.discards 1 ∧ u.mem = s.mem ∧ u.sync = s.sync ∧ u.tiles = s.tiles) ∧
      ∀ p, v.frameInOrder f = true → f.dst = s.links.modId → s.partOfJob f.jobTag = some p →
        let asked : Output := .port h (.nak f.src f.vc f.seq)
        (s.peer p f.src = none → ∃ u, ran u ∧ u.links = { s.links with authFail := satAdd s.links.authFail 1 } ∧
          u.outputs = asked :: s.outputs ∧ u.peer p f.src = some { Peer.fresh f.src v.now with fails := 1 } ∧ u.mem = s.mem) ∧
        (∀ q, s.peer p f.src = some q → f.tagOk = false ∨ q.keyed = false →
          (q.fails < 15 ∨ q.lost ≠ none → ∃ u, ran u ∧
            u = { v with links := { s.links with authFail := satAdd s.links.authFail 1 }, parts := u.parts, outputs := asked :: s.outputs } ∧
            u.peer p f.src = some { q with fails := q.fails + 1 }) ∧
          (15 ≤ q.fails → q.lost = none → ∃ u, ran u ∧ u.peerLost p f.src = some 0x0302)) ∧
        (∀ q, s.peer p f.src = some q → f.tagOk = true → q.keyed = true →
          (q.taken f = true → s.links.txq = [] → ∃ u, ran u ∧ u.mem = s.mem ∧ u.tiles = s.tiles ∧ u.sync = s.sync ∧
            (u.peer p f.src).map (fun x => (x.rx, x.early)) = some (q.rx, q.early)) ∧
          (q.taken f = false → f.vc = .vs → f.body = .keepAlive → ∃ u, ran u ∧ u.mem = s.mem ∧ u.tiles = s.tiles ∧ u.sync = s.sync ∧
            (u.peer p f.src).map (fun x => (x.fails, x.lastAlive, x.suspended)) = some (0, max q.lastAlive v.now, none)) ∧
          (∀ index op o r, q.taken f = false → f.vc = .vs → f.body = .syncOp index op → notArrive op → opWaits op = false →
            (s.part p).objOf index.toNat = some o → s.fenced .syncBlock (o / 1024) = false → Tab.wf 0 s.sync.objs = true →
            (∀ w ∈ s.sync.waits, w.obj ≠ o) → syncOutcome op (s.obj o) = some r →
            ∃ u, ran u ∧ u.mem = s.mem ∧ u.tiles = s.tiles ∧ u.obj o = r.2 ∧ (∀ k, k ≠ o → u.obj k = s.obj k) ∧
              (Ready s p f.src .vs 1 q → ∃ hd, .frame hd (.ack f.seq r.1) ∈ u.outputs ∧ Heads s hd p f.src .vs 32 q)) ∧
          (q.taken f = false → f.vc = .vs → ∃ u, ran u ∧ (u.peer p f.src).map (·.keyed) = some true) ∧
          ∀ xfer addr bs last, f.body = .put xfer addr bs last → f.vc = .vd1 → q.early = [] → InSilo s p addr bs.length →
            (q.rx.vd1 < f.seq → ∃ u, ran u ∧ u.mem = s.mem ∧ u.tiles = s.tiles ∧
              (u.peer p f.src).map (fun x => (x.rx, x.early)) = some (q.rx, [(h, f)])) ∧
            (f.seq = q.rx.vd1 → s.siloWaiting p addr bs.length ≠ [] → ∃ u, ran u ∧ u.mem = s.mem ∧ u.tiles = s.tiles ∧
              (u.peer p f.src).map (fun x => (x.rx, x.early)) = some (q.rx, [(h, f)])) ∧
            (f.seq = q.rx.vd1 → s.siloWaiting p addr bs.length = [] → s.siloFenced p addr bs.length = false →
              s.partialBad p addr bs.length = false → Memory.wf s.mem = true →
              ∃ u, ran u ∧ SiloStored s u p addr bs ∧ u.tiles = s.tiles ∧ u.engines = s.engines ∧
                (u.peer p f.src).map (fun x => (x.rx.vd1, x.early)) = some (q.rx.vd1 + 1, []) ∧
                (last = true → q.torn = none → Ready s p f.src .vs 1 q →
                  ∃ hd, .frame hd (.landed xfer 0) ∈ u.outputs ∧ Heads s hd p f.src .vs 32 q))))) ∧
  (∀ (s : State) (h : HalfId) (id : FrameId),
    let again (f : SentFrame) : State := { s with
      links := { s.links with replays := satAdd s.links.replays 1, half := s.links.half.set h { s.half h with
        replay := (s.half h).replay.map fun x => if x.id = f.id then { x with sends := x.sends + 1, at_ := s.now } else x } },
      outputs := .frame f.hd f.msg :: s.outputs }
    let opens := s.halfUp h = true ∧ (s.part id.pid).entry.st = .bound ∧ (s.part id.pid).entry.keyMoult = false
    ((s.half h).replay.find? (fun x => decide (x.id = id)) = none → exec (.frameNak h id) s = .fault (.notDue "FRAME_NAK") ∧
      exec (.datagramResend h id) s = .fault (.notDue "DATAGRAM_RESEND")) ∧
    ∀ f, (s.half h).replay.find? (fun x => decide (x.id = id)) = some f →
      (opens → exec (.frameNak h id) s = .next (again f)) ∧ (¬ opens → exec (.frameNak h id) s = .fault (.notDue "FRAME_NAK")) ∧
      (opens → f.dgram = true → f.at_ + 20000 ≤ s.now → exec (.datagramResend h id) s = .next (again f)) ∧
      (¬ opens ∨ f.dgram = false ∨ s.now < f.at_ + 20000 → exec (.datagramResend h id) s = .fault (.notDue "DATAGRAM_RESEND"))) ∧
  ∀ (s : State) (p : PortId) (addr : BitVec 128) (payload : List Byte) (pause : Bool),
    let own := addr.toNat = (s.links.pfx.toNat * 2 ^ 64 + s.links.modId.toNat * 256 + p.val) % 2 ^ 128
    let counted : State := { s with links := { s.links with discards := satAdd s.links.discards 1 } }
    (s.ethUp p = true → own → exec (.neighborSolicitation p addr) s = .next { s with outputs := .net p (beBytes 16 addr.toNat) :: s.outputs } ∧
      exec (.echoRequest p addr payload) s = .next { s with outputs := .net p payload :: s.outputs }) ∧
    (s.ethUp p = true → ¬ own → exec (.neighborSolicitation p addr) s = .next counted ∧
      exec (.echoRequest p addr payload) s = .next counted) ∧
    (s.ethUp p = false → exec (.neighborSolicitation p addr) s = .next s ∧ exec (.echoRequest p addr payload) s = .next s) ∧
    (s.ethUp p = false ∨ (s.links.cfg[p]).pfc = false → exec (.priorityFlowControl p pause) s = .next s) ∧
    (s.ethUp p = true → (s.links.cfg[p]).pfc = true → ∃ u : State, exec (.priorityFlowControl p pause) s = .next u ∧
      u.links.paused = s.links.paused.set p pause ∧ u.mem = s.mem ∧ u.tiles = s.tiles ∧
      (s.links.txq = [] → u = { s with links := { s.links with paused := s.links.paused.set p pause } }))

/-- R267, R274, R284, R285, R343, R344: a handshake gives the pair new keys with their counters at zero, or none when no key can be drawn
or a certificate does not do, in a rekey too; keep-alives go to every peer of a bound partition; a peer silent for 8 µs, or suspended
for 1 ms, is lost with E_PEER_LOST; a retrain notice suspends the test; a signed unbind frame erases the peer's keys and ends it with
E_NOT_BOUND; an abort frame ends the entries that involve its sender and leaves its keys. -/
def Obligations.PeersAndKeys : Prop :=
  ∀ (s : State) (p : Pid) (m : ModId) (now : Nat),
    let v := s.at_ now
    let lost := (s.peer p m).bind (·.lost)
    let good (cert : PeerCert) := s.sec.idCause = 0 ∧ cert.chainOk = true ∧ s.sec.peerMin ≤ cert.svn
    let rekeyed (q : Peer) (last : Nat) (cert : PeerCert) : Peer :=
      { q with keyed := true, keyGen := s.sec.keyGen + 1, rekey := false, frames := 0, fails := 0, lastAlive := last,
               ver := if cert.v11 then 2 else 1 }
    (∀ cert : PeerCert, s.linkOpen p = false ∨ lost.isSome = true →
      exec (.linkHandshake p m cert now) s = .fault (.notDue "LINK_HANDSHAKE")) ∧
    (∀ cert : PeerCert, s.linkOpen p = true → lost = none →
      (s.sec.drbgDown = false → good cert →
        ∃ u : State, exec (.linkHandshake p m cert now) s = .next u ∧ u.mem = s.mem ∧ u.tiles = s.tiles ∧ u.sec.keyGen = s.sec.keyGen + 1 ∧
          (u.peer p m).map (fun q => (q.keyed, q.keyGen)) = some (true, s.sec.keyGen + 1) ∧
          (s.links.txq = [] → u.peer p m = some (match s.peer p m with
            | none => rekeyed (Peer.fresh m v.now) v.now cert
            | some q => rekeyed q (max q.lastAlive v.now) cert))) ∧
      (s.sec.drbgDown = false → ¬ good cert →
        ∃ u : State, exec (.linkHandshake p m cert now) s = .next u ∧ u.sec.keyGen = s.sec.keyGen ∧
          (u.peer p m).map (·.keyed) = some false) ∧
      (s.sec.drbgDown = true → ∃ u : State, exec (.linkHandshake p m cert now) s = .next u ∧ u.sec.keyGen = s.sec.keyGen ∧
        (u.peer p m).map (·.keyed) = some (((s.peer p m).map (·.keyed)).getD false))) ∧
    (∀ cert : PeerCert, s.linkOpen p = true → ∀ q, s.peer p m = some q → q.keyed = true → q.lost = none →
      (s.sec.drbgDown = false → good cert → ∃ u : State, exec (.rekey p { id := m, cert := cert }) s = .next u ∧ u.mem = s.mem ∧
        u.tiles = s.tiles ∧ u.sec.keyGen = s.sec.keyGen + 1 ∧
        (s.links.txq = [] → u.peer p m = some (rekeyed q (max q.lastAlive s.now) cert))) ∧
      (s.sec.drbgDown = false → ¬ good cert → ∃ u : State, exec (.rekey p { id := m, cert := cert }) s = .next u ∧
        u.sec.keyGen = s.sec.keyGen ∧ (u.peer p m).map (·.keyed) = some false) ∧
      (s.sec.drbgDown = true → exec (.rekey p { id := m, cert := cert }) s = .next { s with outputs := .link p m .handshake :: s.outputs })) ∧
    (∀ cert : PeerCert, s.linkOpen p = false ∨ s.peer p m = none → exec (.rekey p { id := m, cert := cert }) s = .fault (.notDue "REKEY")) ∧
    (s.up = false → exec (.keepaliveSend now) s = .next v) ∧
    (s.up = true → ∃ u : State, exec (.keepaliveSend now) s = .next u ∧
      u = { v with outputs := u.outputs, parts := u.parts, links := u.links } ∧
      ∀ a b, s.linkOpen a = true → b ∈ v.peerSet a → s.peerLost a b = none →
        (∃ hd, .frame hd .keepAlive ∈ u.outputs ∧ hd.dst = b) ∨ { pid := a, peer := b, msg := .keepAlive } ∈ u.links.txq) ∧
    (let q := s.peerOr p m
     s.up = true → (v.peerSet p).contains m = true → q.lost = none → q.suspended = none →
      (q.lastAlive + 8000 ≤ v.now → ∃ u : State, exec (.keepaliveTimeout p m now) s = .next u ∧ u.peerLost p m = some 0x0302 ∧
        u.sec.keyGen = s.sec.keyGen) ∧
      (v.now < q.lastAlive + 8000 → exec (.keepaliveTimeout p m now) s = .fault (.notDue "KEEPALIVE_TIMEOUT"))) ∧
    ((s.peer p m).isSome = true ∨ (v.peerSet p).contains m = true → lost = none → ∃ u : State, exec (.retrainNotice p m now) s = .next u ∧
      u = { v with parts := u.parts } ∧
      u.peer p m = some { (s.peer p m).getD (Peer.fresh m v.now) with suspended := some (v.now + 1000000) }) ∧
    ((s.peer p m = none ∧ (v.peerSet p).contains m = false) ∨ lost.isSome = true → exec (.retrainNotice p m now) s = .next v) ∧
    ((s.peer p m).bind (·.suspended) = none →
      exec (.retrainSuspensionExpiry p m now) s = .fault (.notDue "RETRAIN_SUSPENSION_EXPIRY")) ∧
    (∀ t, (s.peer p m).bind (·.suspended) = some t → (v.now < t →
        exec (.retrainSuspensionExpiry p m now) s = .fault (.notDue "RETRAIN_SUSPENSION_EXPIRY")) ∧
      (t ≤ v.now → lost = none → ∃ u : State, exec (.retrainSuspensionExpiry p m now) s = .next u ∧ u.peerLost p m = some 0x0302 ∧
        u.sec.keyGen = s.sec.keyGen)) ∧
    (∀ tag epoch sigOk, s.partOfJob tag = none → s.up = true →
      let gone : State := { v with links := { s.links with discards := satAdd s.links.discards 1 } }
      exec (.unbindFrame m tag epoch sigOk now) s = .next gone ∧ exec (.abortFrame m tag now) s = .next gone) ∧
    (∀ tag epoch, s.partOfJob tag = some p → s.up = true → exec (.unbindFrame m tag epoch false now) s = .next v ∧
      ∃ u : State, exec (.unbindFrame m tag epoch true now) s = .next u ∧ u.peerLost p m = some (lost.getD 0x0104) ∧
        (u.peer p m).map (·.keyed) = some false ∧ u.sec.keyGen = s.sec.keyGen) ∧
    (∀ tag l g, s.partOfJob tag = some p → s.up = true → s.running p = some (l, g) →
      ∃ u : State, exec (.abortFrame m tag now) s = .next u ∧ (u.part p).entry = (s.part p).entry ∧
        (u.part p).launch.map (·.active) = some (l.active.filter fun e => match (imgLinks g.image)[e.idx]? with
          | none => true
          | some r => !involves g r m) ∧ (u.part p).peers.map (·.keyed) = (s.part p).peers.map (·.keyed))

/-- R276, R277, R283, R286, R292 to R295, R303: the next entry of the list starts at once, when its wait is over, or not; a PUT sends the
bytes of its source to its target in frames of at most 512 B; an acknowledgement takes one transfer off the entry; an entry whose
transfers are acknowledged and landed is over with OK. The arbiter stamps a ready notice once, closes an unheard window without a
verdict, and a verdict is taken once. A verdict excludes at most MAXX ranks, none that came in time, none that carries, and with
nobody in time not the first to come. A collective's entry sends its contribution to its neighbours in the group, one with a
deadline a ready notice first, and its result goes to DST. -/
def Obligations.LinkWorkList : Prop :=
  (∀ (d : Deadline) (n close : Nat) (ns : List Notice) (carry : Nat → Bool),
    let x := closeVerdict d n close ns carry
    x.1.length ≤ d.maxx ∧ (d.policy = 0 → x.1 = []) ∧
    (∀ k ∈ x.1, k < n ∧ carry k = false ∧ ∀ y ∈ ns, y.rank = k → close ≤ y.stamp) ∧
    (∀ y, ns.head? = some y → (∀ z ∈ ns, close ≤ z.stamp) → y.rank ∉ x.1) ∧
    (∀ k, k ∈ x.2.1 ↔ k < n ∧ k ∉ x.1 ∧ carry k = true) ∧
    (∀ k, k ∈ x.2.2 ↔ k < n ∧ k ∉ x.1 ∧ ∀ y ∈ ns, y.rank = k → close ≤ y.stamp)) ∧
  ∀ (s : State) (p : Pid) (now : Nat) (l : Launch) (g : Program), s.live p = some (l, g) →
    let v := s.at_ now
    ((∀ q ∈ (s.part p).peers, q.early = []) →
      (∀ r, (imgLinks g.image)[l.nextEntry]? = some r → linkTurn l g = true → l.lwait = none → (∀ e ∈ l.active, e.idx ≠ l.nextEntry) →
        (r.wcond = 0 → r.op = 1 → r.dln = 0 → s.lostFor p g r = none → s.siloFenced p r.src r.count = false → s.siloBadAt p r.src r.count = none →
          let m := BitVec.ofNat 16 r.tgt
          ∃ u : State, exec (.linkEntryStart p now) s = .next u ∧ u.mem = s.mem ∧ u.tiles = s.tiles ∧ u.engines = s.engines ∧
            (∀ x ∈ (Message.put l.nextEntry r.dst (s.siloBytes p r.src r.count) true).frames, x.payload ≤ 512 ∧
              (s.peerLost p m = none → (∃ hd, .frame hd x ∈ u.outputs ∧ hd.dst = m) ∨ { pid := p, peer := m, msg := x } ∈ u.links.txq)) ∧
            (u.part p).launch = some { l with nextEntry := l.nextEntry + 1, lwait := none, active := l.active ++
              [{ idx := l.nextEntry, phase := .moving, carry := false, unacked := [(m, ((s.peer p m).map (·.xfers)).getD 0)] }] }) ∧
        (r.wcond ≠ 0 → (s.part p).objOf (r.wref % 65536) = none → ∃ u : State, exec (.linkEntryStart p now) s = .next u ∧
          (u.part p).launch.map (·.nextEntry) = some (l.nextEntry + 1)) ∧
        (∀ o, r.wcond ≠ 0 → (s.part p).objOf (r.wref % 65536) = some o → s.fenced .syncBlock (o / 1024) = false →
          Tab.wf 0 s.sync.objs = true → (∀ w ∈ s.sync.waits, w.obj ≠ o) → syncOutcome (linkWait r) (s.obj o) = none →
          ∃ u : State, exec (.linkEntryStart p now) s = .next u ∧ u.tiles = s.tiles ∧ u.mem = s.mem ∧ u.sync.objs = s.sync.objs ∧
            (u.part p).launch = some { l with lwait := some (v.now, none) }) ∧
        let readable := (∀ x ∈ linkReads g.image r, s.siloBadAt p x.1 x.2 = none) ∧
          ∀ x ∈ linkReads g.image r ++ (linkDst g.image r).toList, s.siloFenced p x.1 x.2 = false
        (r.wcond = 0 → r.op ≠ 1 → r.op ≠ 5 → r.dln = 0 → s.lostFor p g r = none → readable →
          ∃ u : State, exec (.linkEntryStart p now) s = .next u ∧ u.mem = s.mem ∧ u.tiles = s.tiles ∧
            ∃ a e, (u.part p).launch = some a ∧ a.nextEntry = l.nextEntry + 1 ∧ a.active = l.active ++ [e] ∧ e.idx = l.nextEntry ∧
              e.phase = .moving ∧ ∀ m ∈ s.linkTargets g r, ∃ x ∈ e.unacked, x.1 = m) ∧
        (∀ d, r.wcond = 0 → r.op ≠ 1 → linkDeadline g r = some d → s.ownRank g r ≠ 0 → l.verdictOf l.nextEntry = none →
          s.lostFor p g r = none → readable →
          let m := BitVec.ofNat 16 ((linkGroup g r)[0]?.getD 0)
          ∃ u : State, exec (.linkEntryStart p now) s = .next u ∧ u.mem = s.mem ∧ u.tiles = s.tiles ∧
            (u.part p).launch = some { l with nextEntry := l.nextEntry + 1, lwait := none, active := l.active ++
              [{ idx := l.nextEntry, phase := .awaitVerdict, carry := s.hasCarry p d, unacked := [] }] } ∧
            (s.peerLost p m = none → (∃ hd, .frame hd (.ready l.nextEntry (s.hasCarry p d)) ∈ u.outputs ∧ hd.dst = m) ∨
              { pid := p, peer := m, msg := .ready l.nextEntry (s.hasCarry p d) } ∈ u.links.txq))) ∧
      (∀ r t code, (imgLinks g.image)[l.nextEntry]? = some r → linkTurn l g = true → l.lwait = some (t, some code) → code ≠ 0 →
        ∃ u : State, exec (.linkEntryStart p now) s = .next u ∧ (u.part p).launch.map (·.nextEntry) = some (l.nextEntry + 1)) ∧
      (∀ t, l.lwait = some (t, none) → exec (.linkEntryStart p now) s = .fault (.notDue "LINK_ENTRY_START")) ∧
      (linkTurn l g = false → exec (.linkEntryStart p now) s = .fault (.notDue "LINK_ENTRY_START")) ∧
      (∀ (entry : Nat) (r : LinkRec) (e : LinkEntry) (inputs : List (Nat × List Byte)), (imgLinks g.image)[entry]? = some r →
        (l.active.find? fun e => decide (e.idx = entry)) = some e →
        (e.unacked ≠ [] → exec (.linkEntryComplete p entry inputs now) s = .fault (.notDue "LINK_ENTRY_COMPLETE")) ∧
        (r.op = 1 → r.dln = 0 → e.phase = .moving → e.unacked = [] → ∃ u : State, exec (.linkEntryComplete p entry inputs now) s = .next u ∧
          (u.part p).launch.map (·.active) = some (l.active.filter fun y => decide (y.idx ≠ entry)) ∧
          (u.part p).entry = (s.part p).entry) ∧
        (r.op ≠ 1 → r.dln = 0 → e.phase = .moving → e.unacked = [] → s.landed g r none (l.arrived entry ++ inputs) = true →
          Memory.wf s.mem = true → (∀ x ∈ linkReads g.image r, s.siloBadAt p x.1 x.2 = none) →
          (∀ x ∈ (linkDst g.image r).toList, s.holdWrites p [x] = none ∧ s.partialBadAt p x.1 x.2 = none) →
          let result := (collective r (linkGroup g r).length (s.ownRank g r) (s.contributions p g r e none (l.arrived entry ++ inputs))).1
          ∃ u : State, exec (.linkEntryComplete p entry inputs now) s = .next u ∧
            (u.part p).launch.map (·.active) = some (l.active.filter fun y => decide (y.idx ≠ entry)) ∧
            (imgFind g.image sLinkw = none → InSilo s p r.dst result.length → SiloStored s u p r.dst result)))) ∧
    (∀ (entry : Nat) (m : ModId), (∃ e ∈ l.active, e.idx = entry ∧ ∃ x ∈ e.unacked, x.1 = m) → exec (.transferAck p entry m) s =
      .next (s.modPart p fun x => { x with launch := some { l with active := l.active.map fun e =>
        if e.idx = entry then { e with unacked := e.unacked.eraseP fun k => decide (k.1 = m) } else e } })) ∧
    (∀ (entry : Nat) (m : ModId), (∀ e ∈ l.active, e.idx = entry → ∀ x ∈ e.unacked, x.1 ≠ m) →
      exec (.transferAck p entry m) s = .fault (.notDue "TRANSFER_ACK")) ∧
    (∀ (entry rank : Nat) (carry : Bool) (r : LinkRec) (d : Deadline), (imgLinks g.image)[entry]? = some r → linkDeadline g r = some d →
      let notices := if l.notices.any fun x => decide (x.entry = entry ∧ x.rank = rank) then l.notices
        else l.notices ++ [{ entry := entry, rank := rank, stamp := v.now, carry := carry }]
      let mine := l.phase = .released ∧ s.ownRank g r = 0 ∧ 0 < rank ∧ rank < (linkGroup g r).length
      (mine → ∃ u : State, exec (.readyNotice p entry rank carry now) s = .next u ∧ (u.part p).launch.map (·.notices) = some notices ∧
        (s.noVerdict p l g entry r = true → u = { v with parts := u.parts } ∧ (u.part p).launch = some { l with notices := notices })) ∧
      (¬ mine → exec (.readyNotice p entry rank carry now) s = .fault (.notDue "READY_NOTICE"))) ∧
    (∀ (entry : Nat) (r : LinkRec) (d : Deadline), (imgLinks g.image)[entry]? = some r → linkDeadline g r = some d →
      l.phase = .released → s.ownRank g r = 0 → l.rplay = false → l.sentVerdicts.contains entry = false → l.closed.contains entry = false →
      (v.now < l.c + d.close → exec (.deadlineClose p entry now) s = .fault (.notDue "DEADLINE_CLOSE")) ∧
      (l.c + d.close ≤ v.now → (∀ x ∈ l.notices, x.entry ≠ entry) ∨ s.noVerdict p l g entry r = true →
        ∃ u : State, exec (.deadlineClose p entry now) s = .next u ∧
        u = { v with parts := u.parts } ∧ (u.part p).launch = some { l with closed := entry :: l.closed }) ∧
      (l.c + d.close ≤ v.now → (∃ x ∈ l.notices, x.entry = entry) → s.noVerdict p l g entry r = false → l.verdictOf entry = none →
        let x := closeVerdict d (linkGroup g r).length (l.c + d.close) (l.noticesOf entry) (s.mayCarry p l g entry r d)
        ∃ u : State, exec (.deadlineClose p entry now) s = .next u ∧ ∃ a, (u.part p).launch = some a ∧
          a.sentVerdicts = entry :: l.sentVerdicts ∧
          a.verdicts = { entry := entry, excluded := x.1, carrying := x.2.1, waited := x.2.2, bad := false } :: l.verdicts)) ∧
    (∀ (entry : Nat) (r : LinkRec) (d : Deadline) (x : Verdict) (out carrying waited : List Nat), (imgLinks g.image)[entry]? = some r →
      linkDeadline g r = some d → l.phase = .released → l.verdictOf entry = some x →
      exec (.verdict p entry out carrying waited now) s = .next v) ∧
    (∀ (entry : Nat) (r : LinkRec) (d : Deadline) (out carrying waited : List Nat), (imgLinks g.image)[entry]? = some r →
      linkDeadline g r = some d → l.phase = .released → l.verdictOf entry = none → l.rplay = false → imgDlog g.image = none →
      (l.active.all fun e => decide (e.idx ≠ entry)) = true →
      ∃ u : State, exec (.verdict p entry out carrying waited now) s = .next u ∧ u.mem = s.mem ∧ u.tiles = s.tiles ∧
        (u.part p).launch.map (·.verdicts) = some ({ entry := entry, excluded := out, carrying := carrying, waited := waited, bad := false } ::
          l.verdicts)) ∧
    (∀ (entry : Nat) (r : LinkRec) (d : Deadline) (out carrying waited : List Nat), (imgLinks g.image)[entry]? = some r →
      linkDeadline g r = some d → l.phase = .released → l.verdictOf entry = none → l.rplay = false →
      ∃ u : State, exec (.verdict p entry out carrying waited now) s = .next u ∧ ∃ a, (u.part p).launch = some a ∧
        a.verdicts = { entry := entry, excluded := out, carrying := carrying, waited := waited, bad := false } :: l.verdicts ∧
        ∀ e ∈ a.active, e.idx = entry → e.phase = .reducing)

/-! ### Registers, resets, start-up, errors, debug (15, 17 to 21) -/

namespace Sys2Proof.Claims

/-- u is s after a reset of every island whose stages run from `stage`: everything at its reset value but what flash keeps. -/
def WasReset (s u : State) (stage : Stage) : Prop :=
  u.mem = [] ∧ u.hostMem = s.hostMem ∧ u.pending = s.pending ∧ u.time = TimeSt.reset ∧ u.sync = SyncSt.reset ∧ u.bind = BindSt.reset ∧
  u.parts = Vector.replicate 16 Part.reset ∧ u.power = PowerSt.reset ∧
  (∀ n, u.func n = { Func.reset with nextCid := (s.func n).nextCid }) ∧
  (∀ t, u.tile t = { Tile.reset with
    made := (s.tile t).made, retired := (s.tile t).retired, pend := (s.tile t).pend, factory := (s.tile t).factory, defects := (s.tile t).defects,
    rowsOut := (s.tile t).rowsOut, colsOut := (s.tile t).colsOut, rowTrim := (s.tile t).rowTrim, colTrim := (s.tile t).colTrim }) ∧
  u.memctl = { MemSt.reset with repaired := s.memctl.repaired, pcRet := s.memctl.pcRet, slots := s.memctl.slots } ∧
  u.links = { LinkSt.reset with laneRet := s.links.laneRet } ∧
  u.sec.log = [] ∧ u.sec.lchain = List.replicate 48 0 ∧ u.sec.sessions = [] ∧ u.sec.silo = Vector.replicate 16 (none, none) ∧
  u.sec.ak = none ∧ u.sec.transport = none ∧ u.sec.device = none ∧ u.mgmt.stage = stage ∧ u.mgmt.resetting = true ∧ u.mgmt.boots = s.mgmt.boots + 1 ∧ u.mgmt.owner = s.mgmt.owner ∧
  u.mgmt.preset = s.mgmt.preset ∧ u.mgmt.image = s.mgmt.pendImg.getD s.mgmt.image ∧ u.mgmt.fwu = .idle

end Sys2Proof.Claims

/-- R441, R442, R223, R243, R256, R262, R271: a write of a function that is not up, off its alignment, or of 4 B to a 64-bit register changes
nothing; nor does a VF's beyond its HIF_ block, nor a value outside the field's range. Each accepted write stores its fields and
changes nothing else; a register that has a command of its own is written as that command writes it. -/
def Obligations.RegisterWrites : Prop :=
  ∀ (s : State) (fn : Fn) (off : BitVec 24) (eight : Bool) (v : Word),
    let w (k : Nat) : Host.Outcome State Fault Refusal := exec (.registerWrite 0 (BitVec.ofNat 24 k) true v) s
    let n := v.toNat
    (s.fnUp fn = false ∨ off.toNat % 8 ≠ 0 → exec (.registerWrite fn off eight v) s = .next s) ∧
    (s.mgmt.recov = true → exec (.registerWrite fn off eight v) s = .next s) ∧
    (fn ≠ 0 → 0x10000 ≤ off.toNat → exec (.registerWrite fn off eight v) s = .next s) ∧
    (∀ p : Pid, exec (.registerWrite 0 (BitVec.ofNat 24 (0x50100 + 8 * p.val)) false v) s = .next s) ∧
    (s.fnUp 0 = true → s.mgmt.recov = false →
      w 0x30040 = .next (if 85 ≤ n % 256 ∧ n % 256 ≤ 105 then { s with memctl := { s.memctl with tthr := BitVec.ofNat 8 n } } else s) ∧
      w 0x40208 = .next (if 1024 ≤ n % 65536 ∧ n % 65536 ≤ 65534 then { s with links := { s.links with udp := BitVec.ofNat 16 n } } else s) ∧
      w 0x40210 = .next (if n % 64 = 46 then s else { s with links := { s.links with dscp := BitVec.ofNat 6 n } }) ∧
      w 0x50018 = .next (if 2048 ≤ n % 65536 then { s with time := { s.time with lead := BitVec.ofNat 16 n } } else s) ∧
      w 0x20008 = .next { s with sec := { s.sec with peerMin := BitVec.ofNat 16 (n / 65536) } } ∧
      w 0x60010 = .next { s with power := { s.power with cfgErr := s.power.cfgErr && !bit v 1 } } ∧
      (∀ p : PortId, w (0x401C0 + 8 * p.val) = .next { s with links := { s.links with gwmac := s.links.gwmac.set p (BitVec.ofNat 48 n) } }) ∧
      (∀ p : Pid, w (0x50100 + 8 * p.val) = .next (if 2 ^ 20 ≤ n % 2 ^ 49 ∧ n % 2 ^ 49 ≤ 2 ^ 48 then
        s.modPart p fun x => { x with waitLim := BitVec.ofNat 49 n } else s)) ∧
      (∀ p : PortId, w (0x40100 + 8 * p.val) = exec (.portReconfigure p (v.setWidth 32)) s) ∧
      w 0x10090 = exec (.go (v.setWidth 32)) s ∧ w 0x20018 = exec (.dbgAttach (v.setWidth 32) .pf0) s ∧
      w 0x30048 = exec (.memBudgetCfg (v.setWidth 32)) s ∧ w 0x40000 = exec (.lnkModId (v.setWidth 32)) s ∧ w 0x40008 = exec (.lnkLaneRet v) s ∧
      w 0x40200 = exec (.lnkEthPrefix v) s ∧ w 0x50008 = exec (.synTimeCfg (v.setWidth 32)) s ∧ w 0x60000 = exec (.pwrCapCfg (v.setWidth 32)) s ∧
      w 0x60008 = exec (.pwrPolicy (v.setWidth 32)) s ∧
      (bit v 1 = true → w 0x60018 = exec (.devrst .register) s) ∧
      (bit v 1 = false → bit v 0 = true → w 0x60018 = exec .deepIdleRequest s) ∧
      (bit v 1 = false → bit v 0 = false → w 0x60018 = exec .deepIdleLeave s)) ∧
    (Open s fn → ∀ r : RingId, (s.ring fn r).en = false →
      exec (.registerWrite fn (BitVec.ofNat 24 (0x1000 + 32 * r.val)) true v) s =
        .next (s.modRing fn r fun x => { x with sqBase := v &&& 0xFFFFFFFFFFFFF000 }) ∧
      exec (.registerWrite fn (BitVec.ofNat 24 (0x1008 + 32 * r.val)) true v) s =
        .next (s.modRing fn r fun x => { x with cqBase := v &&& 0xFFFFFFFFFFFFF000 }) ∧
      exec (.registerWrite fn (BitVec.ofNat 24 (0x1010 + 32 * r.val)) eight v) s = exec (.hifRingCfg fn r (v.setWidth 32)) s)

/-- R405, R406, R420, R397, R425, R461: DEVRST, a fatal fault 1 ms after its report, a power loss, PERST_N and a thermal trip reset every
island: all state but flash is at its reset value, the PCIe link stays up through a device reset only, host memory stays. A fatal
fault is reported and recorded first, and one during a reset restarts it. PERST_N released early is held until 100 ms after PWRGD;
then the stages start. -/
def Obligations.Resets : Prop :=
  ∀ (s : State) (now : Nat), let v := s.at_ now
    (s.setupOpen = true → s.pins.pcieUp = true → ∃ u : State, exec (.devrst .register) s = .next u ∧ WasReset s u .verify ∧
      u.pins = { s.pins with heldCpl := [], alerts := [] } ∧ u.vfs = s.vfs) ∧
    (s.setupOpen = false ∨ s.pins.pcieUp = false → exec (.devrst .register) s = .next s) ∧
    (exec (.devrst .management) s = .next (if s.up then s.deviceReset else s)) ∧ WasReset s s.deviceReset .verify ∧
    (∀ t, s.mgmt.fatalAt = some t → exec (.devrst .fatal) s = .next s.deviceReset ∧
      exec (.fatalResetTimer now) s = (if t + 1000000 ≤ v.now then .next v.deviceReset else .fault (.notDue "FATAL_RESET_TIMER"))) ∧
    (s.mgmt.fatalAt = none → exec (.fatalResetTimer now) s = .fault (.notDue "FATAL_RESET_TIMER")) ∧
    (∀ cause : Fin 5, (s.alive = false → exec (.deviceFatalFault cause now) s = .fault (.notDue "DEVICE_FATAL_FAULT")) ∧
      (s.alive = true → s.mgmt.resetting = false → ∃ u : State, exec (.deviceFatalFault cause now) s = .next u ∧
        u = { v with funcs := u.funcs, hostMem := u.hostMem, outputs := u.outputs, pins := u.pins, mgmt := u.mgmt } ∧
        u.mgmt = { s.mgmt with fatalRec := BitVec.ofNat 4 (cause.val + 1), fatalAt := some (s.mgmt.fatalAt.getD v.now) } ∧
        Alert.fatal ∈ u.pins.alerts) ∧
      (s.alive = true → s.mgmt.resetting = true → ∃ u : State, exec (.deviceFatalFault cause now) s = .next u ∧ WasReset s u .verify ∧
        u.mgmt.lastFatal = BitVec.ofNat 4 (cause.val + 1))) ∧
    (s.pins.input ≠ .none → ∃ u : State, exec .powerLoss s = .next u ∧ WasReset s u .none ∧ u.pins.input = .none ∧ u.pins.on = false ∧
      u.pins.pwrgd = false ∧ u.pins.pcieUp = false ∧ u.vfs = 0) ∧
    (s.pins.input = .none → exec .powerLoss s = .fault (.notDue "POWER_LOSS")) ∧
    (s.pins.on = true → (∃ u : State, exec .perstAssert s = .next u ∧ WasReset s u .none ∧ u.vfs = 0 ∧
        u.pins = { s.pins with perst := true, hold := false, pcieUp := false, heldCpl := [], alerts := [] }) ∧
      ∀ b, ∃ u : State, exec (.thermalTrip b now) s = .next u ∧ u.mem = [] ∧ u.time = TimeSt.reset ∧ u.mgmt.lastFatal = 6 ∧
        u.pins.trip = true ∧ u.pins.on = false ∧ u.pins.pwrgd = false ∧ u.pins.input = s.pins.input) ∧
    (s.pins.on = false → exec .perstAssert s = .next { s with pins := { s.pins with perst := true, hold := false } } ∧
      ∀ b, exec (.thermalTrip b now) s = .fault (.notDue "THERMAL_TRIP")) ∧
    (∀ ms, exec (.perstRelease ms) s = .next (if s.pins.perst = false ∨ s.pins.trip = true then s
      else if s.pins.on = false ∨ ms < 100 then { s with pins := { s.pins with hold := true } }
      else { s with pins := { s.pins with perst := false, hold := false }, mgmt := { s.mgmt with stage := .root, resetting := true } })) ∧
    (exec .perstHoldExpiry s = if s.pins.hold = true ∧ s.pins.on = true ∧ s.pins.perst = true then
        .next { s with pins := { s.pins with perst := false, hold := false }, mgmt := { s.mgmt with stage := .root, resetting := true } }
      else .fault (.notDue "PERST_HOLD_EXPIRY")) ∧
    (exec .inputApplied s = if s.pins.input = .none then
        .next { s with pins := { s.pins with input := .applied, on := true, pwrgd := true, trip := false } }
      else .fault (.notDue "INPUT_APPLIED")) ∧
    (exec .inputSag s = if s.pins.input = .applied then .next { s with pins := { s.pins with input := .sag } }
      else .fault (.notDue "INPUT_SAG")) ∧
    (exec .inputSagEnd s = if s.pins.input = .sag then .next { s with pins := { s.pins with input := .applied } }
      else .fault (.notDue "INPUT_SAG_END")) ∧
    (exec .peRefclkLoss s = .next { s with pins := { s.pins with peClk := false, pcieUp := false } }) ∧
    (s.alive = false → exec .peRefclkReturn s = .next { s with pins := { s.pins with peClk := true } }) ∧
    (s.alive = true → ∃ u : State, exec .peRefclkReturn s = .next u ∧
      u = { s with pins := { s.pins with peClk := true, pcieUp := true, heldCpl := [] }, funcs := u.funcs, hostMem := u.hostMem,
                   outputs := u.outputs })

/-- R426, R428, R429, R434: the stages follow each other, each with its result: a ROM that fails leaves the module where it is, an image
that fails starts recovery, a repair record or a stack that fails ends in service state with its stage; defects of a tile that a
repair of at most two rows and two columns covers are mapped around, others retire the tile. R410 to R413: the failures of a tile
are counted and the one that reaches its unit's limit marks the tile pending. R417, R418: a copy with a later epoch is taken, one
with an earlier epoch ignored, and a copy from the future or of the same epoch that differs fences the unit. -/
def Obligations.StagesAndFaults : Prop :=
  (∀ (s : State), s.mgmt.resetting = true → s.alive = true →
    (s.mgmt.stage = .root → (∀ k, exec (.bootStageEnd (.root false k)) s = .next { s with pins := { s.pins with alerts := .rom :: s.pins.alerts } }) ∧
      ∀ k : Fin 4, exec (.bootStageEnd (.root true k)) s = .next { s with
        sec := { s.sec with idCause := BitVec.ofNat 4 k.val, root := decide (k ≠ 1), dik := decide (k ≠ 1) }
        mgmt := { s.mgmt with noId := decide (k ≠ 0), stage := .verify } }) ∧
    (s.mgmt.stage = .verify → ∀ o q, (∀ ok, ok = false ∨ s.mgmt.imgOk = false ∨ s.mgmt.force = true →
        ∃ u : State, exec (.bootStageEnd (.verify ok o q)) s = .next u ∧ u.mgmt.recov = true ∧
        u.mgmt.resetting = false ∧ u.mgmt.stage = .ready ∧ u.mgmt.forced = s.mgmt.force ∧ u.tiles = s.tiles) ∧
      (s.mgmt.imgOk = true → s.mgmt.force = false →
        ∃ u : State, exec (.bootStageEnd (.verify true o q)) s = .next u ∧ u.mgmt.stage = .test ∧ u.tiles = s.tiles) ∧
      (s.mgmt.imgOk = true → s.mgmt.force = false → s.mgmt.owner = [] → s.mgmt.preset = [] →
        exec (.bootStageEnd (.verify true o q)) s = .next { s with
          sec := { s.sec with transport := some (s.sec.keyGen + 1), device := some (s.sec.keyGen + 2), keyGen := s.sec.keyGen + 2,
                              ak := if s.sec.root then some s.mgmt.image else none }
          mgmt := { s.mgmt with effOwner := [], effPreset := [], stage := .test } })) ∧
    (s.mgmt.stage = .test → ∀ r : TestReport,
      (r.repairRecordOk = false → ∃ u : State, exec (.bootStageEnd (.test r)) s = .next u ∧ u.mgmt.halted = true ∧ u.mgmt.stage = .test ∧
        u.mgmt.resetting = false ∧ u.tiles = s.tiles) ∧
      (r.repairRecordOk = true → ∃ u : State, exec (.bootStageEnd (.test r)) s = .next u ∧ u.mgmt.stage = .mem ∧ u.mem = s.mem ∧
        ∀ t, ((s.tile t).enabled = false → (u.tile t).retired = (s.tile t).retired) ∧
          ((s.tile t).enabled = true → (s.tile t).pend = true → (u.tile t).retired = true ∧ (u.tile t).pend = false) ∧
          ((s.tile t).enabled = true → (s.tile t).pend = false →
            let out (d : Nat × Nat) : Prop := d.1 ∈ (u.tile t).rowsOut ∨ d.2 ∈ (u.tile t).colsOut
            (u.tile t).retired = false → (∀ d ∈ (u.tile t).defects, out d) ∧ (u.tile t).rowsOut.length ≤ 2 ∧ (u.tile t).colsOut.length ≤ 2))) ∧
    (s.mgmt.stage = .mem → (∀ f, ∃ u : State, exec (.bootStageEnd (.mem f true)) s = .next u ∧ u.mgmt.halted = true ∧ u.mgmt.stage = .mem) ∧
      (∀ f, (f.eraseDups.filter fun pc => !s.memctl.retired pc).length ≤ s.memctl.slotsLeft →
        ∃ u : State, exec (.bootStageEnd (.mem f false)) s = .next u ∧ u.mgmt.stage = .link) ∧
      (∀ f, s.memctl.slotsLeft < (f.eraseDups.filter fun pc => !s.memctl.retired pc).length →
        ∃ u : State, exec (.bootStageEnd (.mem f false)) s = .next u ∧ u.mgmt.halted = true ∧ u.mgmt.stage = .mem) ∧
      ∃ u : State, exec (.bootStageEnd (.mem [] false)) s = .next u ∧ u.mgmt.stage = .link ∧
        ((∀ h, (s.half h).state = .down) → u.memctl = s.memctl ∧ u.tiles = s.tiles ∧
          ∀ h, s.mayTrain h = true → (u.half h).state = .training)) ∧
    (s.mgmt.stage = .link → (∀ f, ∃ u : State, exec (.bootStageEnd (.link f)) s = .next u ∧ u.mgmt.stage = .ready ∧ u.mgmt.resetting = false) ∧
      ∃ u : State, exec (.bootStageEnd (.link [])) s = .next u ∧ u.mgmt.stage = .ready ∧ u.mgmt.resetting = false ∧
      u.links = s.links ∧ u.tiles = s.tiles ∧ u.pins.pcieUp = s.pins.peClk ∧
      u.sec.log.length = (if s.sec.log.length < 4096 then s.sec.log.length + 1 else s.sec.log.length))) ∧
  (∀ (s : State) (how : StageEnd), s.mgmt.resetting = false ∨ s.alive = false →
    exec (.bootStageEnd how) s = .fault (.notDue "BOOT_STAGE_END")) ∧
  (∀ (s : State) (t : TileId) (unit : Fin 3) (n now : Nat),
    let limit := if unit = 0 then 3 else 8
    ((s.tile t).enabled = false ∨ s.up = false → exec (.tileHardFault t unit n now) s = .fault (.notDue "TILE_HARD_FAULT")) ∧
    ((s.tile t).enabled = true → s.up = true →
      (n < limit → exec (.tileHardFault t unit n now) s = .next ((s.at_ now).modTile t fun x =>
        if unit = 0 then { x with retryCnt := satAdd x.retryCnt n } else { x with sramCnt := satAdd x.sramCnt n })) ∧
      (limit ≤ n → ∃ u : State, exec (.tileHardFault t unit n now) s = .next u ∧ (u.tile t).pend = true ∧ (u.tile t).retired = false ∧
        ((∀ p, s.partOfTile t = some p → (s.part p).launch = none) → u.mem = s.mem ∧ u.parts = s.parts ∧ ∀ k, k ≠ t → u.tile k = s.tile k)))) ∧
  (∀ (s : State) (l : List (UnitId × UnitState)) (now : Nat),
    (s.up = true → ∃ z : State, exec (.bindingAudit l now) s = .next z) ∧
    (s.up = false → exec (.bindingAudit l now) s = .fault (.notDue "BINDING_AUDIT")) ∧
    (s.up = true → (∀ e ∈ l, e.1 ∈ s.bind.fenced ∨ s.bind.unitState e.1 = none ∨ s.bind.unitState e.1 = some e.2 ∧
      e.2.epoch.toNat ≤ s.bind.bepoch.toNat) → exec (.bindingAudit l now) s = .next (s.at_ now))) ∧
  ∀ (s : State) (u : UnitId) (x y : UnitState) (now : Nat), s.up = true → s.bind.unitState u = some x → u ∉ s.bind.fenced →
    let seen (z : State) : Prop := exec (.bindingAudit [(u, y)] now) s = .next z
    (exec (.bindingAudit [] now) s = .next (s.at_ now)) ∧
    (y.epoch.toNat < x.epoch.toNat → y.epoch.toNat ≤ s.bind.bepoch.toNat → seen (s.at_ now)) ∧
    (x.epoch.toNat < y.epoch.toNat → y.epoch.toNat ≤ s.bind.bepoch.toNat →
      ∃ z : State, seen z ∧ z = { s.at_ now with bind := z.bind } ∧ z.bind.unitState u = some y ∧ z.bind.fenced = s.bind.fenced) ∧
    (s.bind.bepoch.toNat < y.epoch.toNat ∨ (y.epoch = x.epoch ∧ y ≠ x) →
      ∃ z : State, seen z ∧ z.bind.fenced = u :: s.bind.fenced ∧ Alert.diverged ∈ z.pins.alerts)

/-- R354, R355, R462: an attach is granted its level, FULL on a tenant session only as HALT without FORCE, and is entered in the
attestation log with who made it; a detach takes every level away; a forced FULL is logged, reported and waits for a key moult. Under
FULL a halt stops the partition's cores and a step lets one of them issue once more; below FULL both do nothing. -/
def Obligations.DebugViews : Prop :=
  ∀ (s : State) (value : Half) (p : Pid), value.toNat / 65536 % 16 = p.val →
    let level := value.toNat % 4
    let tenant := (s.part p).entry.st = .bound ∧ (s.sec.tdi[(s.part p).entry.hfn] = .locked ∨ s.sec.tdi[(s.part p).entry.hfn] = .run)
    let granted := if tenant ∧ level = 3 then 2 else level
    (s.setupOpen = false → (∀ src, exec (.dbgAttach value src) s = .next s) ∧ exec (.jtagAttach value) s = .next s) ∧
    (∀ src, s.setupOpen = true → level ≠ 0 → ¬ (tenant ∧ level = 3 ∧ bit value 31 = true) →
      ∃ u : State, exec (.dbgAttach value src) s = .next u ∧ u = { s with tiles := u.tiles, sec := u.sec } ∧
        u.sec.dbg = s.sec.dbg.set p (BitVec.ofNat 2 granted) ∧ u.sec.dbgSess = s.sec.dbgSess.set p (some src) ∧
        u.sec.log = (if s.sec.log.length < 4096 then s.sec.log ++
          [logEntry 0x0002 p.val granted (srcCode src) (s.part p).entry.epoch.toNat s.now []] else s.sec.log) ∧
        (∀ t, granted = 3 → u.tile t = s.tile t) ∧ ∀ t, (u.core t).g = (s.core t).g ∧ (u.core t).pc = (s.core t).pc) ∧
    (∀ src, s.setupOpen = true → level = 0 → ∃ u : State, exec (.dbgAttach value src) s = .next u ∧ u.sec.dbg = s.sec.dbg.set p 0 ∧
      u.sec.dbgSess = s.sec.dbgSess.set p none ∧ u.mem = s.mem ∧ ∀ t, s.onPart p t = true → (u.core t).dbgHalt = false) ∧
    (∀ src, s.setupOpen = true → tenant → (s.part p).entry.keyMoult = false → level = 3 → bit value 31 = true →
      ∃ u : State, exec (.dbgAttach value src) s = .next u ∧ u.sec.dbg = s.sec.dbg ∧ u.sec.tdi[(s.part p).entry.hfn] = .error ∧
        (u.part p).entry = { (s.part p).entry with mstep := 1, keyMoult := true, moultSrc := src, moultFull := true } ∧
        u.sec.log = (if s.sec.log.length < 4096 then s.sec.log ++
          [logEntry 0x0004 p.val 3 (srcCode src) (s.part p).entry.epoch.toNat s.now []] else s.sec.log)) ∧
    (s.setupOpen = true → ∃ u w : State, exec (.dbgAttach value .jtag) s = .next u ∧ exec (.jtagAttach value) s = .next w ∧
      w = { u with outputs := .jtag (BitVec.ofNat 2 (u.sec.attach.toNat / 4)) :: u.outputs }) ∧
    (s.sec.dbg[p] ≠ 3 → exec (.debugHalt p) s = .next s ∧ ∀ t, s.partOfTile t = some p → exec (.debugSingleStep t) s = .next s) ∧
    (s.sec.dbg[p] = 3 →
      (∃ u : State, exec (.debugHalt p) s = .next u ∧ u = { s with tiles := u.tiles, parts := u.parts } ∧
        (∀ q, q ≠ p → u.part q = s.part q) ∧ ∀ t, u.tile t = if s.onPart p t then { s.tile t with
          core := { (s.tile t).core with dbgHalt := true, dbgSteps := 0 } } else s.tile t) ∧
      ∀ t, s.partOfTile t = some p → (s.core t).dbgHalt = true → ∃ u : State, exec (.debugSingleStep t) s = .next u ∧
        u = { s with tiles := u.tiles, parts := u.parts } ∧ (∀ q, q ≠ p → u.part q = s.part q) ∧
        u.tiles = s.tiles.set t { s.tile t with core := { (s.tile t).core with dbgSteps := (s.tile t).core.dbgSteps + 1 } })

/-! ### SPDM, TDISP, IDE (15) -/

namespace Sys2Proof.Claims

/-- The responder takes requests of this way: it is there, the module is out of recovery and holds an identity. -/
def Hears (s : State) (via : Source) : Prop := s.reachable via = true ∧ s.mgmt.recov = false ∧ s.sec.idCause = 0

/-- The responder answers with a response and nothing else changes. -/
def said (s : State) (via : Source) (body : List Byte) : Host.Outcome State Fault Refusal :=
  .next { s with outputs := .spdm via body :: s.outputs }

/-- The response to body, signed over body and nonce by the attestation key; the signature's own nonce is a free value. -/
def saidSigned (s : State) (via : Source) (body nonce : List Byte) : Host.Outcome State Fault Refusal :=
  let sig := s.attested (body ++ nonce)
  .next { s with outputs := .signed via sig.1 sig.2 :: .spdm via body :: s.outputs, freeCtr := s.freeCtr + 1 }

/-- A session that is up, on the way it came. -/
def UpSession (s : State) (id : BitVec 32) (x : Session) : Prop :=
  s.session id = some x ∧ x.up = true ∧ Hears s x.via

end Sys2Proof.Claims

/-- R339 to R341, R344, R434: requests come in their order, each answered by its response and changing what it negotiates: GET_VERSION
starts anew, the highest common version and the one set of algorithms follow, the others only after them. Only slot 0 holds a chain: its level 3 certificate carries the image's digest and security version and the serial from the key's hash. Signed responses carry the
attestation key's signature. A way that is not there gets no answer, recovery answers that nothing is supported, and without an
identity every request fails with E_AUTH. Measurement 6 is the hash chain of the attestation log, 3 the hash of the configuration
records in effect; each block carries its index and its length. -/
def Obligations.SpdmRequests : Prop :=
  (∀ (s : State) (k : Nat), 1 ≤ k → k ≤ 7 →
    s.attestCert.digest = (s.sec.ak.getD s.mgmt.image).digest ∧ s.attestCert.svn = (s.sec.ak.getD s.mgmt.image).svn ∧
    s.attestCert.partId = s.partId ∧ s.attestCert.numerics = s.numericsId ∧ s.attestCert.serial = (sha384 s.attestCert.key).take 16 ∧
    s.measurement 1 = s.mgmt.image.digest ∧ s.measurement 6 = s.sec.lchain ∧ s.measurement 3 = sha384 (s.mgmt.effOwner ++ s.mgmt.effPreset) ∧ (s.measurement 1).length = 48 ∧
    (s.measurement 7).length = 48 ∧ (s.measurement 3).length = 48 ∧
    let block := s.measureBlock k
    let n := (s.measurement k).length
    block.length = n + 7 ∧ block.take 2 = [BitVec.ofNat 8 k, 1] ∧ block.drop 7 = s.measurement k ∧
    (n + 3 < 2 ^ 16 → leNat ((block.drop 2).take 2) = n + 3 ∧ leNat ((block.drop 5).take 2) = n)) ∧
  ∀ (s : State) (via : Source) (slot offset length : Nat) (nonce : BitVec 256) (index code : Byte) (theirs : List Byte) (asym : SpdmAsym)
    (b2 b3 : Bool) (signed : Option Nat),
    let chain := s.chain
    let hello : Instr := .getCapabilities { via := via, versions := theirs }
    let requests : List Instr := [.getVersion via, hello, .negotiateAlgorithms via asym b2 b3, .getDigests via,
      .getCertificate via slot offset length, .challenge via slot nonce, .getMeasurements via index nonce signed, .unsupportedRequest via code]
    let later : List Instr := [.getDigests via, .getCertificate via slot offset length, .challenge via slot nonce,
      .getMeasurements via index nonce signed]
    (∀ r ∈ requests, (s.reachable via = false → exec r s = .next s) ∧
      (s.reachable via = true → s.mgmt.recov = true → exec r s = said s via [0x7F, 0x07]) ∧
      (s.reachable via = true → s.mgmt.recov = false → s.sec.idCause ≠ 0 → exec r s = said s via [0x7F, 0x05, 0x01, 0x04])) ∧
    (Hears s via →
      exec (.getVersion via) s = .next { s with
        sec := { s.sec with ver := true, spdm := 0, caps := false, algs := false }, outputs := .spdm via [0x04, 0x10, 0x11, 0x12, 0x13] :: s.outputs } ∧
      (∀ best : Byte, s.sec.ver = true → best ∈ theirs → 0x10 ≤ best.toNat → best.toNat ≤ 0x13 →
        (∀ x ∈ theirs, x.toNat ≤ best.toNat ∨ 0x13 < x.toNat) → exec hello s = .next { s with
          sec := { s.sec with caps := true, spdm := best }, outputs := .spdm via [0x61] :: s.outputs }) ∧
      (s.sec.ver = true → (∀ x ∈ theirs, x.toNat < 0x10 ∨ 0x13 < x.toNat) → exec hello s = said s via [0x7F, 0x41]) ∧
      (s.sec.ver = false → exec hello s = said s via [0x7F, 0x04]) ∧
      (s.sec.caps = true → exec (.negotiateAlgorithms via { brainpool := true, sha := true, measSha := true } true true) s = .next { s with
        sec := { s.sec with algs := true }, outputs := .spdm via [0x63, 1, 1, 1, 1, 1] :: s.outputs }) ∧
      (s.sec.caps = true → asym.brainpool = false ∨ asym.sha = false ∨ asym.measSha = false ∨ b2 = false ∨ b3 = false →
        ∃ u : State, exec (.negotiateAlgorithms via asym b2 b3) s = .next u ∧ u.sec = { s.sec with algs := false }) ∧
      (s.sec.caps = false → exec (.negotiateAlgorithms via asym b2 b3) s = said s via [0x7F, 0x04]) ∧
      exec (.unsupportedRequest via code) s = said s via [0x7F, 0x07] ∧
      (s.sec.algs = false → ∀ r ∈ later, exec r s = said s via [0x7F, 0x04]) ∧
      (s.sec.algs = true →
        exec (.getDigests via) s = said s via ([0x01] ++ sha384 chain) ∧
        (length ≤ 65536 → exec (.getCertificate via 0 offset length) s = said s via ([0x02] ++ (chain.drop offset).take length)) ∧
        (65536 < length → exec (.getCertificate via slot offset length) s = said s via [0x7F, 0x07]) ∧
        exec (.challenge via 0 nonce) s = saidSigned s via ([0x03] ++ sha384 chain) (leBytes 32 nonce.toNat) ∧
        (slot ≠ 0 → (length ≤ 65536 → exec (.getCertificate via slot offset length) s = said s via [0x7F, 0x01]) ∧
          exec (.challenge via slot nonce) s = said s via [0x7F, 0x01]) ∧
        (8 ≤ index.toNat → index ≠ 0xFF → exec (.getMeasurements via index nonce signed) s = said s via [0x7F, 0x01]) ∧
        let measures (i : Byte) (blocks : List Byte) : Prop :=
          exec (.getMeasurements via i nonce none) s = said s via (0x60 :: blocks) ∧
          (slot ≠ 0 → exec (.getMeasurements via i nonce (some slot)) s = said s via [0x7F, 0x01]) ∧
          exec (.getMeasurements via i nonce (some 0)) s = saidSigned s via (0x60 :: blocks) (leBytes 32 nonce.toNat)
        measures 0 [7] ∧ measures 0xFF (7 :: [1, 2, 3, 4, 5, 6, 7].flatMap s.measureBlock) ∧
        ∀ k, 1 ≤ k → k ≤ 7 → measures (BitVec.ofNat 8 k) (1 :: s.measureBlock k)))

/-- R340, R344, R352: a key exchange draws a key and opens a session of a number not in use, up to 17 of them and while keys can be
drawn; FINISH with its MAC brings it up with its heartbeat period, and without it ends it; a heartbeat starts its time again, a key
update draws its next key, and its end, loss or silence for a period takes it away, and the interfaces it locked go to ERROR.
R344, R356: after the failure of the random bit generator no rotation goes on, and the commands that wait for one complete. -/
def Obligations.SpdmSessions : Prop :=
  (∀ s : State,
    (s.up = false ∨ s.sec.drbgDown = true → exec .drbgHealthFailure s = .next s) ∧
    (s.up = true → s.sec.drbgDown = false → ∃ u : State, exec .drbgHealthFailure s = .next u ∧ u.sec.drbgDown = true ∧ u.mem = s.mem ∧
      u.tiles = s.tiles ∧ u.sec.silo = s.sec.silo ∧ u.sec.keyGen = s.sec.keyGen ∧
      (∀ p : Pid, (u.sec.rot[p]).active = (s.sec.rot[p]).active ∧ ((s.sec.rot[p]).active = true ∨ (s.sec.rot[p]).link = true →
        (u.sec.rot[p]).waiter = none ∧ (u.sec.rot[p]).linkWaiter = none ∧ (u.sec.rot[p]).link = false)) ∧
      ∀ (p : Pid) (now : Nat), exec (.sweepPage p now) u = .fault (.notDue "SWEEP_PAGE"))) ∧
  ∀ (s : State) (via : Source) (req : SpdmKeyReq) (id : BitVec 32) (x : Session) (period : Byte) (now : Nat),
    let v := s.at_ now
    let others := s.sec.sessions.filter fun y => decide (y.id ≠ id)
    let gone (u : State) : Prop := u.sec.sessions = others ∧ ∀ n : Fn, s.sec.tdiSess[n] = some id →
      s.sec.tdi[n] = .locked ∨ s.sec.tdi[n] = .run → u.sec.tdi[n] = .error ∧ u.sec.tdiSess[n] = none ∧
        ∀ p, s.partOfFn n = some p → (s.part p).entry.st = .bound → (u.part p).entry.keyMoult = true
    (Hears s via → s.sec.algs = true →
      (req.slot ≠ 0 → exec (.keyExchange via req now) s = said v via [0x7F, 0x01]) ∧
      (req.slot = 0 → s.sec.drbgDown = true → exec (.keyExchange via req now) s = said v via [0x7F, 0x05, 0x03, 0x04]) ∧
      (req.slot = 0 → s.sec.drbgDown = false → 17 ≤ s.sec.sessions.length → exec (.keyExchange via req now) s = said v via [0x7F, 0x0A]) ∧
      (req.slot = 0 → s.sec.drbgDown = false → s.sec.sessions.length < 17 → ∃ (u : State) (k : BitVec 32), exec (.keyExchange via req now) s = .next u ∧
        u = { v with sec := u.sec, outputs := u.outputs, freeCtr := u.freeCtr } ∧ s.session k = none ∧ k.toNat % 65536 = req.session.toNat ∧
        u.sec = { s.sec with keyGen := s.sec.keyGen + 1, sessions := s.sec.sessions ++
          [{ id := k, via := via, up := false, period := s.sec.period, last := v.now, keyGen := s.sec.keyGen + 1 }] })) ∧
    (s.session id = none → exec (.finish id true period now) s = .next v ∧ exec (.endSession id) s = .next s ∧ exec (.keyUpdate id) s = .next s ∧
      exec (.finish id false period now) s = .next v ∧
      exec (.heartbeat id now) s = .next v ∧ exec (.heartbeatTimeout id now) s = .fault (.notDue "HEARTBEAT_TIMEOUT")) ∧
    (s.session id = some x → x.up = false → Hears s x.via →
      exec (.endSession id) s = said s x.via [0x7F, 0x04] ∧ exec (.keyUpdate id) s = said s x.via [0x7F, 0x04] ∧
      exec (.heartbeat id now) s = said v x.via [0x7F, 0x04] ∧
      exec (.heartbeatTimeout id now) s = .fault (.notDue "HEARTBEAT_TIMEOUT") ∧
      exec (.finish id true period now) s = .next { v with
        sec := { s.sec with sessions := s.sec.sessions.map fun y => if y.id = id then
          { y with up := true, period := if period = 0 then s.sec.period else period.toNat, last := v.now } else y }
        outputs := .spdm x.via [0x65] :: s.outputs } ∧
      ∃ u : State, exec (.finish id false period now) s = .next u ∧ gone u) ∧
    (UpSession s id x →
      exec (.heartbeat id now) s = .next { v with
        sec := { s.sec with sessions := s.sec.sessions.map fun y => if y.id = id then { y with last := v.now } else y }
        outputs := .spdm x.via [0x68] :: s.outputs } ∧
      (s.sec.drbgDown = false → exec (.keyUpdate id) s = .next { s with
        sec := { s.sec with keyGen := s.sec.keyGen + 1, sessions := s.sec.sessions.map fun y => if y.id = id then
          { y with keyGen := s.sec.keyGen + 1 } else y }
        outputs := .spdm x.via [0x69] :: s.outputs }) ∧
      (s.sec.drbgDown = true → exec (.keyUpdate id) s = said s x.via [0x7F, 0x05, 0x03, 0x04]) ∧
      (∀ mac, exec (.finish id mac period now) s = said v x.via [0x7F, 0x04]) ∧
      (∃ u : State, exec (.endSession id) s = .next u ∧ gone u) ∧
      (x.last + x.period * 1000000000 ≤ v.now → ∃ u : State, exec (.heartbeatTimeout id now) s = .next u ∧ gone u) ∧
      (v.now < x.last + x.period * 1000000000 → exec (.heartbeatTimeout id now) s = .fault (.notDue "HEARTBEAT_TIMEOUT"))) ∧
    (∃ u : State, exec (.spdmSessionLoss id now) s = .next u ∧ gone u ∧ u.mem = s.mem ∧ u.tiles = s.tiles)

/-- R351, R352: TDISP messages are taken in a session of PF0's mailbox. An interface goes from CONFIG_UNLOCKED to CONFIG_LOCKED for a
function that holds a BOUND partition, then to RUN, and back; one that leaves CONFIG_LOCKED or RUN starts its key moult; a write to
its locked configuration sends it to ERROR. Any other request of it gets TDISP_ERROR and changes nothing. A key set is programmed,
goes to work once it holds a key, and is stopped. -/
def Obligations.InterfacesAndStreams : Prop :=
  ∀ (s : State) (id : BitVec 32) (x : Session) (vf : Fn) (k : Fin 18) (b : Bool) (now : Nat), UpSession s id x →
    let v := s.at_ now
    let requests : List Instr := [.getTdispVersion id, .getTdispCapabilities id, .lockInterfaceRequest id vf, .getDeviceInterfaceReport id vf,
      .getDeviceInterfaceState id vf, .startInterfaceRequest id vf, .ideKmQuery id, .ideKmKeyProgram id k b, .ideKmKeySetGo id k b,
      .ideKmKeySetStop id k b]
    let refused : Host.Outcome State Fault Refusal := said s .pf0 [0x7E, 0x7F]
    let tdi (y : Tdi) (w : Option (BitVec 32)) (body : List Byte) : Host.Outcome State Fault Refusal := .next { s with
      sec := { s.sec with tdi := s.sec.tdi.set vf y, tdiSess := s.sec.tdiSess.set vf w }, outputs := .spdm .pf0 body :: s.outputs }
    let locked := s.sec.tdi[vf] = .locked ∨ s.sec.tdi[vf] = .run
    let ide := s.sec.ide[k]
    let keys (y : Ide) (body : List Byte) : Host.Outcome State Fault Refusal := .next { s with
      sec := { s.sec with ide := s.sec.ide.set k y }, outputs := .spdm .pf0 body :: s.outputs }
    (x.via ≠ .pf0 → (∀ r ∈ requests, exec r s = said s x.via [0x7F, 0x07]) ∧
      exec (.stopInterfaceRequest id vf now) s = said v x.via [0x7F, 0x07]) ∧
    (x.via = .pf0 →
      exec (.getTdispVersion id) s = said s .pf0 [0x7E, 0x01, 0x10] ∧ exec (.getTdispCapabilities id) s = said s .pf0 [0x7E, 0x02] ∧
      exec (.lockInterfaceRequest id vf) s = (if vf ≠ 0 ∧ s.fnState vf = .bound ∧ s.sec.tdi[vf] = .unlocked then
        tdi .locked (some id) [0x7E, 0x03] else refused) ∧
      exec (.startInterfaceRequest id vf) s = (if s.sec.tdiSess[vf] = some id ∧ s.sec.tdi[vf] = .locked then
        tdi .run (some id) [0x7E, 0x06] else refused) ∧
      exec (.getDeviceInterfaceState id vf) s = (if vf = 0 then refused else said s .pf0 [0x7E, 0x05, tdiCode s.sec.tdi[vf]]) ∧
      (∀ p, s.partOfFn vf = some p → s.sec.tdiSess[vf] = some id → locked →
        ∃ body, exec (.getDeviceInterfaceReport id vf) s = said s .pf0 ([0x7E, 0x04] ++ body) ∧ body.length = 61 ∧
          (body.drop 32).take 5 = BitVec.ofNat 8 p.val :: leBytes 4 (s.part p).entry.epoch.toNat) ∧
      (s.partOfFn vf = none ∨ s.sec.tdiSess[vf] ≠ some id ∨ ¬ locked → exec (.getDeviceInterfaceReport id vf) s = refused) ∧
      (s.sec.tdiSess[vf] ≠ some id ∨ ¬ locked → vf = 0 ∨ s.sec.tdi[vf] ≠ .error →
        exec (.stopInterfaceRequest id vf now) s = said v .pf0 [0x7E, 0x7F]) ∧
      (s.sec.tdiSess[vf] = some id → locked → ∃ u : State, exec (.stopInterfaceRequest id vf now) s = .next u ∧ u.mem = s.mem ∧
        u.tiles = s.tiles ∧ u.sec.tdi[vf] = .unlocked ∧ u.sec.tdiSess[vf] = none ∧
        ∀ p, s.partOfFn vf = some p → (s.part p).entry.st = .bound → (u.part p).entry.keyMoult = true) ∧
      (vf ≠ 0 → s.sec.tdi[vf] = .error → ∃ u : State, exec (.stopInterfaceRequest id vf now) s = .next u ∧ u.sec.tdi[vf] = .unlocked ∧
        u.parts = s.parts) ∧
      exec (.ideKmQuery id) s = said s .pf0 [0x7E, 0x01] ∧
      (ide.active ≠ some b → exec (.ideKmKeyProgram id k b) s = keys { ide with
        prog := if b then (ide.prog.1, true) else (true, ide.prog.2) } [0x7E, 0x03]) ∧
      (ide.active = some b → exec (.ideKmKeyProgram id k b) s = said s .pf0 [0x7F, 0x01]) ∧
      exec (.ideKmKeySetGo id k b) s = (if (if b then ide.prog.2 else ide.prog.1) then keys { ide with active := some b } [0x7E, 0x05]
        else said s .pf0 [0x7F, 0x01]) ∧
      exec (.ideKmKeySetStop id k b) s = keys { ide with
        prog := if b then (ide.prog.1, false) else (false, ide.prog.2), active := if ide.active = some b then none else ide.active }
        [0x7E, 0x05]) ∧
    (s.fnUp vf = true → locked → ∃ u : State, exec (.lockedConfigWrite vf now) s = .next u ∧ u.sec.tdi[vf] = .error ∧ u.tiles = s.tiles ∧
      u.mem = s.mem ∧ ∀ p, s.partOfFn vf = some p → (s.part p).entry.st = .bound → (u.part p).entry.keyMoult = true) ∧
    (s.fnUp vf = false ∨ ¬ locked → exec (.lockedConfigWrite vf now) s = .next v)

/-! ### Management (19) -/

/-- R426, R435, R436: each binding has its endpoint ID and its answers, an address of I3C is taken once, an event receiver is set or
cleared, a sensor holds its last reading, and the vendor messages read and write as PF0 does, reset, read the attestation log and
force recovery. Before VERIFY has ended, or with the link down, a binding takes nothing. R437: the sensors that the
module's own state holds report it: the cap, the error counts, each partition's state. -/
def Obligations.ManagementMessages : Prop :=
  (∀ s : State, s.sensorOf 0x40 = some s.power.cap.toNat ∧ s.sensorOf 0x41 = some s.power.klow.toNat ∧ s.sensorOf 0x42 = some s.power.mlvl.toNat ∧
    s.sensorOf 0x50 = some s.memctl.ce.toNat ∧ s.sensorOf 0x51 = some s.memctl.ue.toNat ∧ s.sensorOf 0x52 = some s.links.replays.toNat ∧
    (∀ p : Pid, s.sensorOf (0x60 + p.val) = some (match (s.part p).entry.st with | .free => 0 | .bound => 1 | .moulting => 2)) ∧
    s.sensorOf 0x01 = none ∧ s.sensorOf 0x10 = none ∧ (∀ id, 0x70 ≤ id → sensorThere id = false)) ∧
  ∀ (s : State) (b : Binding) (eid x : Byte) (a w : BitVec 7) (off : BitVec 24) (v : Word) (first : Nat) (on : Bool),
    let messages : List Instr := [.setEndpointId b eid, .getEndpointId b, .getMctpVersionSupport b x, .getMessageTypeSupport b,
      .getVendorDefinedMessageSupport b x, .seteventreceiver b eid on, .regRead b off, .regWrite b off v, .devReset b, .attlogRead b first,
      .forceRecovery b]
    let answers (body : List Byte) : Host.Outcome State Fault Refusal := .next { s with outputs := .mctp b body :: s.outputs }
    (s.mctpUp b = false → ∀ m ∈ messages, exec m s = .next s) ∧
    (s.mctpUp b = true →
      (eid ≠ 0 → eid ≠ 0xFF → exec (.setEndpointId b eid) s = .next { s with
        mgmt := (match b with | .i3c => { s.mgmt with eidI3c := eid } | .pcie => { s.mgmt with eidPcie := eid }),
        outputs := .mctp b [0x01, 0x00, eid] :: s.outputs }) ∧
      (eid = 0 ∨ eid = 0xFF → exec (.setEndpointId b eid) s = answers [0x01, 0x02]) ∧
      exec (.getEndpointId b) s = answers [0x02, 0x00, match b with | .i3c => s.mgmt.eidI3c | .pcie => s.mgmt.eidPcie] ∧
      exec (.getMctpVersionSupport b x) s = (if x ∈ [0x00, 0x01, 0x05, 0x06, 0x7E, 0xFF] then
        answers [0x04, 0x00, 0x01, 0xF1, 0xF3, 0xFF, 0x00] else answers [0x04, 0x80]) ∧
      exec (.getMessageTypeSupport b) s = answers [0x05, 0x00, 0x05, 0x00, 0x01, 0x05, 0x06, 0x7E] ∧
      exec (.getVendorDefinedMessageSupport b x) s = (if x = 0 then answers ([0x06, 0x00, 0xFF, 0x00] ++ leBytes 2 Config.vendorId.toNat)
        else answers [0x06, 0x02]) ∧
      (s.mgmt.resetting = false → exec (.devReset b) s = .next s.deviceReset) ∧
      (s.mgmt.resetting = true → exec (.devReset b) s = .next s ∧ exec (.regWrite b off v) s = .next s ∧
        ∃ y, exec (.regRead b off) s = .next { s with outputs := .read b y :: s.outputs } ∧
          y = if off = 0x70000 then BitVec.ofNat 64 s.mgmt.bootWord else s.readReg 0 off.toNat) ∧
      (s.mgmt.resetting = false → ∃ y, exec (.regRead b off) s = .next { s with outputs := .read b y :: s.outputs } ∧ y = s.readReg 0 off.toNat) ∧
      (s.mgmt.recov = false →
        exec (.seteventreceiver b eid on) s = .next { s with
          mgmt := { s.mgmt with receiver := if on then some (b, eid) else none }, outputs := .mctp b [0x02, 0x04, 0x00] :: s.outputs } ∧
        exec (.attlogRead b first) s = answers (s.queryAttlog first 262208) ∧
        exec (.forceRecovery b) s = .next { s with mgmt := { s.mgmt with force := true } } ∧
        (s.fnUp 0 = true → off.toNat % 8 = 0 → off ≠ 0x20018 → exec (.regWrite b off v) s = exec (.registerWrite 0 off true v) s) ∧
        (s.mgmt.resetting = false → exec (.regWrite b 0x20018 v) s =
          exec (.dbgAttach (v.setWidth 32) (match b with | .i3c => .mctpI3c | .pcie => .mctpPcie)) s)) ∧
      (s.mgmt.recov = true → exec (.forceRecovery b) s = .next s ∧ exec (.regWrite b off v) s = .next s ∧
        exec (.seteventreceiver b eid on) s = .next s ∧ exec (.attlogRead b first) s = .next s)) ∧
    (exec (.entdaa a) s = .next (if s.verified = true ∧ s.mgmt.i3cAddr = none then
      { s with mgmt := { s.mgmt with i3cAddr := some a }, outputs := .i3cAddr a :: s.outputs } else s)) ∧
    (exec (.setdasa w a) s = .next (if s.verified = true ∧ s.mgmt.i3cAddr = none ∧ s.mgmt.i3cAct.toNat % 128 = w.toNat then
      { s with mgmt := { s.mgmt with i3cAddr := some a }, outputs := .i3cAddr a :: s.outputs } else s)) ∧
    (∀ (id : BitVec 16) (reading : Int), s.setupOpen = true → sensorThere id.toNat = true → exec (.sensorRefresh id reading) s = .next { s with
      mgmt := { s.mgmt with sensors := (id, (s.sensorOf id.toNat).getD reading) :: s.mgmt.sensors.filter fun y => decide (y.1 ≠ id) } }) ∧
    ∀ (id : BitVec 16) (reading : Int), s.setupOpen = false ∨ sensorThere id.toNat = false → exec (.sensorRefresh id reading) s = .next s

/-- R438 to R440: a request of an update is taken unless one runs and its size fits; its data arrives in pieces of at most 4,096 B up to
that size, is verified, written to flash and activated, in this order and in no other; a failed check ends it with its code and a
cancel before the write has ended leaves flash as it was. An applied image is at work from the next reset on. -/
def Obligations.FirmwareUpdate : Prop :=
  ∀ (s : State), let m := s.mgmt
    let out (u : MgmtSt) (b : Binding) (body : List Byte) : Host.Outcome State Fault Refusal :=
      .next { s with mgmt := u, outputs := .mctp b body :: s.outputs }
    (∀ (b : Binding) (c : Component) (size : Nat), let most := match c with | .firmware => 67108864 | .config => 4128
      s.mctpUp b = true → m.resetting = false → m.recov = false ∨ c = .firmware →
        ((m.fwu = .idle ∨ m.fwu = .pending) → 1 ≤ size → size ≤ most → exec (.requestupdate b c size) s = out
          { m with fwu := .receiving, progress := 0, fwuVia := b, comp := c, data := [], dataNeed := size } b [0x05, 0x10, 0x00]) ∧
        (m.fwu ≠ .idle → m.fwu ≠ .pending → exec (.requestupdate b c size) s = out m b [0x05, 0x10, 0x81]) ∧
        ((m.fwu = .idle ∨ m.fwu = .pending) → size = 0 ∨ most < size → exec (.requestupdate b c size) s = out m b [0x05, 0x10, 0x02])) ∧
    (∀ (b : Binding) (c : Component) (size : Nat), s.mctpUp b = false ∨ m.resetting = true ∨ (m.recov = true ∧ c = .config) →
      exec (.requestupdate b c size) s = .next s) ∧
    (∀ data : List Byte, let n := m.data.length + data.length
      (m.fwu = .receiving → data.length ≤ 4096 → n ≤ m.dataNeed → exec (.firmwareDataReceipt data) s = .next { s with
        mgmt := { m with data := m.data ++ data, progress := BitVec.ofNat 8 (100 * n / m.dataNeed) } }) ∧
      (m.fwu ≠ .receiving ∨ 4096 < data.length ∨ m.dataNeed < n →
        exec (.firmwareDataReceipt data) s = .fault (.notDue "FIRMWARE_DATA_RECEIPT"))) ∧
    (m.fwu = .receiving → m.data.length = m.dataNeed → exec .transfercomplete s = out { m with fwu := .verifying, progress := 0 } m.fwuVia
      [0x05, 0x16, 0x00]) ∧
    (m.fwu ≠ .receiving ∨ m.data.length ≠ m.dataNeed → exec .transfercomplete s = .fault (.notDue "TRANSFERCOMPLETE")) ∧
    (m.fwu = .verifying → ∀ how : VerifyEnd,
      let failed (code : BitVec 16) := out { m with fwu := .idle, progress := 0, fwuCode := code, data := [], dataNeed := 0 } m.fwuVia
        [0x05, 0x17, 0x01]
      (how = .unreadable → exec (.updateVerifyEnd how) s = failed 0x0201) ∧ (how = .badSignature → exec (.updateVerifyEnd how) s = failed 0x0402) ∧
      (how = .badField → exec (.updateVerifyEnd how) s = failed 0x0102) ∧
      (how = .ok → m.comp = .firmware ∨ m.configOk = true → exec (.updateVerifyEnd how) s = out { m with fwu := .applying, progress := 0 }
        m.fwuVia [0x05, 0x17, 0x00])) ∧
    (m.fwu ≠ .verifying → ∀ how, exec (.updateVerifyEnd how) s = .fault (.notDue "UPDATE_VERIFY_END")) ∧
    (m.fwu = .applying → m.progress ≠ 100 → m.recov = false → ∃ u : State, exec .applycomplete s = .next u ∧
      u = { s with mgmt := u.mgmt, sec := u.sec, outputs := .mctp m.fwuVia [0x05, 0x18, 0x00] :: s.outputs } ∧
      u.mgmt.progress = 100 ∧ u.mgmt.fwuCode = 0 ∧ u.mgmt.data = [] ∧ u.sec.log.length =
        (if s.sec.log.length < 4096 then s.sec.log.length + 1 else s.sec.log.length) ∧
      (m.comp = .firmware → u.mgmt.pendImg = some (.written m.data) ∧ u.mgmt.owner = m.owner ∧ u.mgmt.preset = m.preset ∧
        u.deviceReset.mgmt.image = .written m.data ∧
        ({ s with mgmt := { m with image := .written m.data } } : State).measurement 1 = sha384 m.data) ∧
      (m.comp = .config → u.mgmt.image = m.image ∧ u.mgmt.pendImg = m.pendImg ∧
        if configType m.data = 1 then u.mgmt.owner = m.data ∧ u.mgmt.preset = m.preset
        else u.mgmt.preset = m.data ∧ u.mgmt.owner = m.owner)) ∧
    (m.fwu = .applying → m.progress ≠ 100 → m.recov = true → ∃ u v : State, exec .applycomplete s = .next v ∧ v = u.deviceReset ∧
      (m.comp = .firmware → u.mgmt.pendImg = some (.written m.data))) ∧
    (m.fwu ≠ .applying ∨ m.progress = 100 → exec .applycomplete s = .fault (.notDue "APPLYCOMPLETE")) ∧
    (m.fwu = .applying → m.progress = 100 → exec .activatefirmware s = out { m with fwu := .pending, progress := 0 } m.fwuVia
      [0x05, 0x1A, 0x00]) ∧
    (m.fwu ≠ .applying ∨ m.progress ≠ 100 → exec .activatefirmware s = .fault (.notDue "ACTIVATEFIRMWARE")) ∧
    (m.fwu = .receiving ∨ m.fwu = .verifying ∨ (m.fwu = .applying ∧ m.progress ≠ 100) → ∃ u : State, exec .cancelupdate s = .next u ∧
      u = { s with mgmt := u.mgmt, freeCtr := s.freeCtr + 1, outputs := .mctp m.fwuVia [0x05, 0x1D, 0x00] :: s.outputs } ∧
      u.mgmt = { m with fwu := .idle, progress := 0, fwuCode := u.mgmt.fwuCode, data := [], dataNeed := 0 }) ∧
    (m.fwu = .idle ∨ m.fwu = .pending ∨ (m.fwu = .applying ∧ m.progress = 100) → exec .cancelupdate s = .next s)

/-! ### The machine as a whole -/

namespace Sys2Proof.Claims

/-- Every RW field of the set-up registers lies in its stated range (R442; 09 R223, R228; 10 R249, R256; 11 R261, R262, R271; 17 R393 to
R397; 19 R435), and so do the operating points and memory levels that the power manager sets. -/
def InRanges (s : State) : Prop :=
  (600 ≤ s.power.cap.toNat ∧ s.power.cap.toNat ≤ 1500) ∧ (90 ≤ s.power.dthr.toNat ∧ s.power.dthr.toNat ≤ 105) ∧
  (1 ≤ s.power.mmin.toNat ∧ s.power.mmin.toNat ≤ 8) ∧ (8 ≤ s.power.kmin.toNat ∧ s.power.kmin.toNat ≤ s.power.kmax.toNat ∧ s.power.kmax.toNat ≤ 20) ∧
  (85 ≤ s.memctl.tthr.toNat ∧ s.memctl.tthr.toNat ≤ 105) ∧ (1 ≤ s.memctl.pcue.toNat ∧ s.memctl.pcue.toNat ≤ 16) ∧
  256 ≤ s.memctl.pcpce.toNat ∧ (2 ≤ s.memctl.rowpce.toNat ∧ s.memctl.rowpce.toNat ≤ 64) ∧
  (s.links.modId.toNat ≤ 0x1FFF ∨ s.links.modId = 0xFFFF) ∧ (1024 ≤ s.links.udp.toNat ∧ s.links.udp.toNat ≤ 65534) ∧ s.links.dscp ≠ 46 ∧
  (∀ p : PortId, (s.links.cfg[p]).epmd ≠ 3) ∧ 2048 ≤ s.time.lead.toNat ∧
  (∀ p, 2 ^ 20 ≤ (s.part p).waitLim.toNat ∧ (s.part p).waitLim.toNat ≤ 2 ^ 48) ∧
  (8 ≤ s.mgmt.i3cCfg.toNat % 128 ∧ s.mgmt.i3cCfg.toNat % 128 ≤ 0x77) ∧
  (1 ≤ s.power.mlvl.toNat ∧ s.power.mlvl.toNat ≤ 8) ∧ (∀ m : StackId, 1 ≤ (s.memctl.stackSt[m]).level.toNat ∧ (s.memctl.stackSt[m]).level.toNat ≤ 8) ∧
  (∀ p : Pid, 8 ≤ (s.power.pk[p]).toNat ∧ (s.power.pk[p]).toNat ≤ 20) ∧
  ∀ e : EngId, (8 ≤ (s.power.k[e]).toNat ∧ (s.power.k[e]).toNat ≤ 20) ∧ (8 ≤ (s.power.lim[e]).toNat ∧ (s.power.lim[e]).toNat ≤ 20) ∧
    ∀ x, s.power.target[e] = some x → 8 ≤ x.toNat ∧ x.toNat ≤ 20

/-- The attestation log holds at most 4,096 entries of 64 B, and while none is lost LCHAIN is their hash chain from 48 zero bytes (R355). -/
def LogOk (s : State) : Prop :=
  s.sec.log.length ≤ 4096 ∧ (∀ e ∈ s.sec.log, e.length = 64) ∧
    (s.sec.lost = 0 → s.sec.lchain = s.sec.log.foldl (fun c e => sha384 (c ++ e)) (List.replicate 48 0))

end Sys2Proof.Claims

/-- A step takes the command at the front of the queue and is that command's effect on the state with the queue's rest. -/
def Obligations.StepRunsCommand : Prop :=
  ∀ (s : State) (c : Instr) (rest : List Instr), s.pending = c :: rest → step s = exec c { s with pending := rest }

/-- With no command waiting, each copy of the global counter counts one more while the module has power and is out of PERST#, and nothing
else changes (R236; that a step with an empty queue is one tick is the model's choice, log 20). -/
def Obligations.IdleTick : Prop :=
  ∀ s : State, s.pending = [] →
    step s = .next (if s.pins.on = true ∧ s.pins.perst = false then
      { s with time := { s.time with gt := s.time.gt + 1, cd0 := s.time.cd0 + 1, cd1 := s.time.cd1 + 1 } } else s)

/-- What the rules say a reset leaves: no partition bound, no program, every allocatable granule queued for its clear, rings disabled, the
version 1.0 active, the counter at 0 and UNLOCKED, the cap at 1,500 W, DTHR 100, KMAX 20 and KMIN 8, TTHR 95, no module ID. (That the
state after reset stands behind the boot stages is the model's choice, log 19.) -/
def Obligations.ResetState : Prop :=
  let s := State.reset
  s.pending = [] ∧ (∀ p, (s.part p).entry.st = .free ∧ (s.part p).slots = Vector.replicate 8 none ∧ (s.part p).launch = none) ∧
    s.bind.clrPend = BitVec.allOnes 376 ∧ (∀ n r, (s.ring n r).en = false) ∧ (∀ n, (s.func n).act = 0x10 ∧ (s.func n).evq.en = false) ∧
    s.time.gt = 0 ∧ s.time.lock = .unlocked ∧ s.time.lead = 4096 ∧ s.power.cap = 1500 ∧ s.power.dthr = 100 ∧ s.power.kmax = 20 ∧
    s.power.kmin = 8 ∧ s.power.mmin = 1 ∧ s.memctl.tthr = 95 ∧ s.links.modId = 0xFFFF ∧ s.links.udp = 50432 ∧ s.links.dscp = 26 ∧
    s.bind.bepoch = 0 ∧ s.mem = [] ∧ ∀ t, (s.core t).status = .idle

/-- The invariants hold after reset. -/
def Obligations.InvariantsAtReset : Prop := State.reset.canonical = true ∧ InRanges State.reset ∧ LogOk State.reset

/-- Whatever a step does, memory, host memory and the table of sync objects keep their canonical form: addresses rise, no entry reads as an
unlisted address does. -/
def Obligations.StorageStaysCanonical : Prop :=
  ∀ s t : State, s.canonical = true → step s = .next t → t.canonical = true

/-- Whatever a step does, the set-up registers, the operating points and the memory levels stay in their ranges (R442, R393, R396, R397). -/
def Obligations.RangesHold : Prop :=
  ∀ s t : State, InRanges s → step s = .next t → InRanges t

/-- Whatever a step does, the attestation log stays the preimage of LCHAIN until it is full (R355). -/
def Obligations.AttestationLogHolds : Prop :=
  ∀ s t : State, LogOk s → step s = .next t → LogOk t
end

