-- ==== Sys2Proof/Laws/State.lean ====
section
/-!
SUPPORT. Sys2Proof/Laws/State.lean: what each named update of the state leaves alone, field by field, and what the accessors read
after it.
-/
namespace Sys2Proof.Machine

variable (s : State)

/-! ### setTile -/

@[simp] theorem State.setTile_pending (t : TileId) (x : Tile) : (s.setTile t x).pending = s.pending := rfl
@[simp] theorem State.setTile_freeCtr (t : TileId) (x : Tile) : (s.setTile t x).freeCtr = s.freeCtr := rfl
@[simp] theorem State.setTile_outputs (t : TileId) (x : Tile) : (s.setTile t x).outputs = s.outputs := rfl
@[simp] theorem State.setTile_time (t : TileId) (x : Tile) : (s.setTile t x).time = s.time := rfl
@[simp] theorem State.setTile_sync (t : TileId) (x : Tile) : (s.setTile t x).sync = s.sync := rfl
@[simp] theorem State.setTile_bind (t : TileId) (x : Tile) : (s.setTile t x).bind = s.bind := rfl
@[simp] theorem State.setTile_parts (t : TileId) (x : Tile) : (s.setTile t x).parts = s.parts := rfl
@[simp] theorem State.setTile_funcs (t : TileId) (x : Tile) : (s.setTile t x).funcs = s.funcs := rfl
@[simp] theorem State.setTile_vfs (t : TileId) (x : Tile) : (s.setTile t x).vfs = s.vfs := rfl
@[simp] theorem State.setTile_lastFn (t : TileId) (x : Tile) : (s.setTile t x).lastFn = s.lastFn := rfl
@[simp] theorem State.setTile_engines (t : TileId) (x : Tile) : (s.setTile t x).engines = s.engines := rfl
@[simp] theorem State.setTile_mem (t : TileId) (x : Tile) : (s.setTile t x).mem = s.mem := rfl
@[simp] theorem State.setTile_hostMem (t : TileId) (x : Tile) : (s.setTile t x).hostMem = s.hostMem := rfl
@[simp] theorem State.setTile_memctl (t : TileId) (x : Tile) : (s.setTile t x).memctl = s.memctl := rfl
@[simp] theorem State.setTile_power (t : TileId) (x : Tile) : (s.setTile t x).power = s.power := rfl
@[simp] theorem State.setTile_pins (t : TileId) (x : Tile) : (s.setTile t x).pins = s.pins := rfl
@[simp] theorem State.setTile_links (t : TileId) (x : Tile) : (s.setTile t x).links = s.links := rfl
@[simp] theorem State.setTile_sec (t : TileId) (x : Tile) : (s.setTile t x).sec = s.sec := rfl
@[simp] theorem State.setTile_mgmt (t : TileId) (x : Tile) : (s.setTile t x).mgmt = s.mgmt := rfl

/-! ### modTile -/

@[simp] theorem State.modTile_pending (t : TileId) (f : Tile → Tile) : (s.modTile t f).pending = s.pending := rfl
@[simp] theorem State.modTile_freeCtr (t : TileId) (f : Tile → Tile) : (s.modTile t f).freeCtr = s.freeCtr := rfl
@[simp] theorem State.modTile_outputs (t : TileId) (f : Tile → Tile) : (s.modTile t f).outputs = s.outputs := rfl
@[simp] theorem State.modTile_time (t : TileId) (f : Tile → Tile) : (s.modTile t f).time = s.time := rfl
@[simp] theorem State.modTile_sync (t : TileId) (f : Tile → Tile) : (s.modTile t f).sync = s.sync := rfl
@[simp] theorem State.modTile_bind (t : TileId) (f : Tile → Tile) : (s.modTile t f).bind = s.bind := rfl
@[simp] theorem State.modTile_parts (t : TileId) (f : Tile → Tile) : (s.modTile t f).parts = s.parts := rfl
@[simp] theorem State.modTile_funcs (t : TileId) (f : Tile → Tile) : (s.modTile t f).funcs = s.funcs := rfl
@[simp] theorem State.modTile_vfs (t : TileId) (f : Tile → Tile) : (s.modTile t f).vfs = s.vfs := rfl
@[simp] theorem State.modTile_lastFn (t : TileId) (f : Tile → Tile) : (s.modTile t f).lastFn = s.lastFn := rfl
@[simp] theorem State.modTile_engines (t : TileId) (f : Tile → Tile) : (s.modTile t f).engines = s.engines := rfl
@[simp] theorem State.modTile_mem (t : TileId) (f : Tile → Tile) : (s.modTile t f).mem = s.mem := rfl
@[simp] theorem State.modTile_hostMem (t : TileId) (f : Tile → Tile) : (s.modTile t f).hostMem = s.hostMem := rfl
@[simp] theorem State.modTile_memctl (t : TileId) (f : Tile → Tile) : (s.modTile t f).memctl = s.memctl := rfl
@[simp] theorem State.modTile_power (t : TileId) (f : Tile → Tile) : (s.modTile t f).power = s.power := rfl
@[simp] theorem State.modTile_pins (t : TileId) (f : Tile → Tile) : (s.modTile t f).pins = s.pins := rfl
@[simp] theorem State.modTile_links (t : TileId) (f : Tile → Tile) : (s.modTile t f).links = s.links := rfl
@[simp] theorem State.modTile_sec (t : TileId) (f : Tile → Tile) : (s.modTile t f).sec = s.sec := rfl
@[simp] theorem State.modTile_mgmt (t : TileId) (f : Tile → Tile) : (s.modTile t f).mgmt = s.mgmt := rfl

/-! ### modCore -/

@[simp] theorem State.modCore_pending (t : TileId) (f : Core → Core) : (s.modCore t f).pending = s.pending := rfl
@[simp] theorem State.modCore_freeCtr (t : TileId) (f : Core → Core) : (s.modCore t f).freeCtr = s.freeCtr := rfl
@[simp] theorem State.modCore_outputs (t : TileId) (f : Core → Core) : (s.modCore t f).outputs = s.outputs := rfl
@[simp] theorem State.modCore_time (t : TileId) (f : Core → Core) : (s.modCore t f).time = s.time := rfl
@[simp] theorem State.modCore_sync (t : TileId) (f : Core → Core) : (s.modCore t f).sync = s.sync := rfl
@[simp] theorem State.modCore_bind (t : TileId) (f : Core → Core) : (s.modCore t f).bind = s.bind := rfl
@[simp] theorem State.modCore_parts (t : TileId) (f : Core → Core) : (s.modCore t f).parts = s.parts := rfl
@[simp] theorem State.modCore_funcs (t : TileId) (f : Core → Core) : (s.modCore t f).funcs = s.funcs := rfl
@[simp] theorem State.modCore_vfs (t : TileId) (f : Core → Core) : (s.modCore t f).vfs = s.vfs := rfl
@[simp] theorem State.modCore_lastFn (t : TileId) (f : Core → Core) : (s.modCore t f).lastFn = s.lastFn := rfl
@[simp] theorem State.modCore_engines (t : TileId) (f : Core → Core) : (s.modCore t f).engines = s.engines := rfl
@[simp] theorem State.modCore_mem (t : TileId) (f : Core → Core) : (s.modCore t f).mem = s.mem := rfl
@[simp] theorem State.modCore_hostMem (t : TileId) (f : Core → Core) : (s.modCore t f).hostMem = s.hostMem := rfl
@[simp] theorem State.modCore_memctl (t : TileId) (f : Core → Core) : (s.modCore t f).memctl = s.memctl := rfl
@[simp] theorem State.modCore_power (t : TileId) (f : Core → Core) : (s.modCore t f).power = s.power := rfl
@[simp] theorem State.modCore_pins (t : TileId) (f : Core → Core) : (s.modCore t f).pins = s.pins := rfl
@[simp] theorem State.modCore_links (t : TileId) (f : Core → Core) : (s.modCore t f).links = s.links := rfl
@[simp] theorem State.modCore_sec (t : TileId) (f : Core → Core) : (s.modCore t f).sec = s.sec := rfl
@[simp] theorem State.modCore_mgmt (t : TileId) (f : Core → Core) : (s.modCore t f).mgmt = s.mgmt := rfl

/-! ### mapTiles -/

@[simp] theorem State.mapTiles_pending (w : TileId → Bool) (f : Tile → Tile) : (s.mapTiles w f).pending = s.pending := by simp only [State.mapTiles]
@[simp] theorem State.mapTiles_freeCtr (w : TileId → Bool) (f : Tile → Tile) : (s.mapTiles w f).freeCtr = s.freeCtr := by simp only [State.mapTiles]
@[simp] theorem State.mapTiles_outputs (w : TileId → Bool) (f : Tile → Tile) : (s.mapTiles w f).outputs = s.outputs := by simp only [State.mapTiles]
@[simp] theorem State.mapTiles_time (w : TileId → Bool) (f : Tile → Tile) : (s.mapTiles w f).time = s.time := by simp only [State.mapTiles]
@[simp] theorem State.mapTiles_sync (w : TileId → Bool) (f : Tile → Tile) : (s.mapTiles w f).sync = s.sync := by simp only [State.mapTiles]
@[simp] theorem State.mapTiles_bind (w : TileId → Bool) (f : Tile → Tile) : (s.mapTiles w f).bind = s.bind := by simp only [State.mapTiles]
@[simp] theorem State.mapTiles_parts (w : TileId → Bool) (f : Tile → Tile) : (s.mapTiles w f).parts = s.parts := by simp only [State.mapTiles]
@[simp] theorem State.mapTiles_funcs (w : TileId → Bool) (f : Tile → Tile) : (s.mapTiles w f).funcs = s.funcs := by simp only [State.mapTiles]
@[simp] theorem State.mapTiles_vfs (w : TileId → Bool) (f : Tile → Tile) : (s.mapTiles w f).vfs = s.vfs := by simp only [State.mapTiles]
@[simp] theorem State.mapTiles_lastFn (w : TileId → Bool) (f : Tile → Tile) : (s.mapTiles w f).lastFn = s.lastFn := by simp only [State.mapTiles]
@[simp] theorem State.mapTiles_engines (w : TileId → Bool) (f : Tile → Tile) : (s.mapTiles w f).engines = s.engines := by simp only [State.mapTiles]
@[simp] theorem State.mapTiles_mem (w : TileId → Bool) (f : Tile → Tile) : (s.mapTiles w f).mem = s.mem := by simp only [State.mapTiles]
@[simp] theorem State.mapTiles_hostMem (w : TileId → Bool) (f : Tile → Tile) : (s.mapTiles w f).hostMem = s.hostMem := by simp only [State.mapTiles]
@[simp] theorem State.mapTiles_memctl (w : TileId → Bool) (f : Tile → Tile) : (s.mapTiles w f).memctl = s.memctl := by simp only [State.mapTiles]
@[simp] theorem State.mapTiles_power (w : TileId → Bool) (f : Tile → Tile) : (s.mapTiles w f).power = s.power := by simp only [State.mapTiles]
@[simp] theorem State.mapTiles_pins (w : TileId → Bool) (f : Tile → Tile) : (s.mapTiles w f).pins = s.pins := by simp only [State.mapTiles]
@[simp] theorem State.mapTiles_links (w : TileId → Bool) (f : Tile → Tile) : (s.mapTiles w f).links = s.links := by simp only [State.mapTiles]
@[simp] theorem State.mapTiles_sec (w : TileId → Bool) (f : Tile → Tile) : (s.mapTiles w f).sec = s.sec := by simp only [State.mapTiles]
@[simp] theorem State.mapTiles_mgmt (w : TileId → Bool) (f : Tile → Tile) : (s.mapTiles w f).mgmt = s.mgmt := by simp only [State.mapTiles]

/-! ### setEngine -/

@[simp] theorem State.setEngine_pending (e : EngId) (x : Engine) : (s.setEngine e x).pending = s.pending := rfl
@[simp] theorem State.setEngine_freeCtr (e : EngId) (x : Engine) : (s.setEngine e x).freeCtr = s.freeCtr := rfl
@[simp] theorem State.setEngine_outputs (e : EngId) (x : Engine) : (s.setEngine e x).outputs = s.outputs := rfl
@[simp] theorem State.setEngine_time (e : EngId) (x : Engine) : (s.setEngine e x).time = s.time := rfl
@[simp] theorem State.setEngine_sync (e : EngId) (x : Engine) : (s.setEngine e x).sync = s.sync := rfl
@[simp] theorem State.setEngine_bind (e : EngId) (x : Engine) : (s.setEngine e x).bind = s.bind := rfl
@[simp] theorem State.setEngine_parts (e : EngId) (x : Engine) : (s.setEngine e x).parts = s.parts := rfl
@[simp] theorem State.setEngine_funcs (e : EngId) (x : Engine) : (s.setEngine e x).funcs = s.funcs := rfl
@[simp] theorem State.setEngine_vfs (e : EngId) (x : Engine) : (s.setEngine e x).vfs = s.vfs := rfl
@[simp] theorem State.setEngine_lastFn (e : EngId) (x : Engine) : (s.setEngine e x).lastFn = s.lastFn := rfl
@[simp] theorem State.setEngine_tiles (e : EngId) (x : Engine) : (s.setEngine e x).tiles = s.tiles := rfl
@[simp] theorem State.setEngine_mem (e : EngId) (x : Engine) : (s.setEngine e x).mem = s.mem := rfl
@[simp] theorem State.setEngine_hostMem (e : EngId) (x : Engine) : (s.setEngine e x).hostMem = s.hostMem := rfl
@[simp] theorem State.setEngine_memctl (e : EngId) (x : Engine) : (s.setEngine e x).memctl = s.memctl := rfl
@[simp] theorem State.setEngine_power (e : EngId) (x : Engine) : (s.setEngine e x).power = s.power := rfl
@[simp] theorem State.setEngine_pins (e : EngId) (x : Engine) : (s.setEngine e x).pins = s.pins := rfl
@[simp] theorem State.setEngine_links (e : EngId) (x : Engine) : (s.setEngine e x).links = s.links := rfl
@[simp] theorem State.setEngine_sec (e : EngId) (x : Engine) : (s.setEngine e x).sec = s.sec := rfl
@[simp] theorem State.setEngine_mgmt (e : EngId) (x : Engine) : (s.setEngine e x).mgmt = s.mgmt := rfl

/-! ### modEngine -/

@[simp] theorem State.modEngine_pending (e : EngId) (f : Engine → Engine) : (s.modEngine e f).pending = s.pending := rfl
@[simp] theorem State.modEngine_freeCtr (e : EngId) (f : Engine → Engine) : (s.modEngine e f).freeCtr = s.freeCtr := rfl
@[simp] theorem State.modEngine_outputs (e : EngId) (f : Engine → Engine) : (s.modEngine e f).outputs = s.outputs := rfl
@[simp] theorem State.modEngine_time (e : EngId) (f : Engine → Engine) : (s.modEngine e f).time = s.time := rfl
@[simp] theorem State.modEngine_sync (e : EngId) (f : Engine → Engine) : (s.modEngine e f).sync = s.sync := rfl
@[simp] theorem State.modEngine_bind (e : EngId) (f : Engine → Engine) : (s.modEngine e f).bind = s.bind := rfl
@[simp] theorem State.modEngine_parts (e : EngId) (f : Engine → Engine) : (s.modEngine e f).parts = s.parts := rfl
@[simp] theorem State.modEngine_funcs (e : EngId) (f : Engine → Engine) : (s.modEngine e f).funcs = s.funcs := rfl
@[simp] theorem State.modEngine_vfs (e : EngId) (f : Engine → Engine) : (s.modEngine e f).vfs = s.vfs := rfl
@[simp] theorem State.modEngine_lastFn (e : EngId) (f : Engine → Engine) : (s.modEngine e f).lastFn = s.lastFn := rfl
@[simp] theorem State.modEngine_tiles (e : EngId) (f : Engine → Engine) : (s.modEngine e f).tiles = s.tiles := rfl
@[simp] theorem State.modEngine_mem (e : EngId) (f : Engine → Engine) : (s.modEngine e f).mem = s.mem := rfl
@[simp] theorem State.modEngine_hostMem (e : EngId) (f : Engine → Engine) : (s.modEngine e f).hostMem = s.hostMem := rfl
@[simp] theorem State.modEngine_memctl (e : EngId) (f : Engine → Engine) : (s.modEngine e f).memctl = s.memctl := rfl
@[simp] theorem State.modEngine_power (e : EngId) (f : Engine → Engine) : (s.modEngine e f).power = s.power := rfl
@[simp] theorem State.modEngine_pins (e : EngId) (f : Engine → Engine) : (s.modEngine e f).pins = s.pins := rfl
@[simp] theorem State.modEngine_links (e : EngId) (f : Engine → Engine) : (s.modEngine e f).links = s.links := rfl
@[simp] theorem State.modEngine_sec (e : EngId) (f : Engine → Engine) : (s.modEngine e f).sec = s.sec := rfl
@[simp] theorem State.modEngine_mgmt (e : EngId) (f : Engine → Engine) : (s.modEngine e f).mgmt = s.mgmt := rfl

/-! ### modChan -/

@[simp] theorem State.modChan_pending (e : EngId) (c : ChanId) (f : Channel → Channel) : (s.modChan e c f).pending = s.pending := rfl
@[simp] theorem State.modChan_freeCtr (e : EngId) (c : ChanId) (f : Channel → Channel) : (s.modChan e c f).freeCtr = s.freeCtr := rfl
@[simp] theorem State.modChan_outputs (e : EngId) (c : ChanId) (f : Channel → Channel) : (s.modChan e c f).outputs = s.outputs := rfl
@[simp] theorem State.modChan_time (e : EngId) (c : ChanId) (f : Channel → Channel) : (s.modChan e c f).time = s.time := rfl
@[simp] theorem State.modChan_sync (e : EngId) (c : ChanId) (f : Channel → Channel) : (s.modChan e c f).sync = s.sync := rfl
@[simp] theorem State.modChan_bind (e : EngId) (c : ChanId) (f : Channel → Channel) : (s.modChan e c f).bind = s.bind := rfl
@[simp] theorem State.modChan_parts (e : EngId) (c : ChanId) (f : Channel → Channel) : (s.modChan e c f).parts = s.parts := rfl
@[simp] theorem State.modChan_funcs (e : EngId) (c : ChanId) (f : Channel → Channel) : (s.modChan e c f).funcs = s.funcs := rfl
@[simp] theorem State.modChan_vfs (e : EngId) (c : ChanId) (f : Channel → Channel) : (s.modChan e c f).vfs = s.vfs := rfl
@[simp] theorem State.modChan_lastFn (e : EngId) (c : ChanId) (f : Channel → Channel) : (s.modChan e c f).lastFn = s.lastFn := rfl
@[simp] theorem State.modChan_tiles (e : EngId) (c : ChanId) (f : Channel → Channel) : (s.modChan e c f).tiles = s.tiles := rfl
@[simp] theorem State.modChan_mem (e : EngId) (c : ChanId) (f : Channel → Channel) : (s.modChan e c f).mem = s.mem := rfl
@[simp] theorem State.modChan_hostMem (e : EngId) (c : ChanId) (f : Channel → Channel) : (s.modChan e c f).hostMem = s.hostMem := rfl
@[simp] theorem State.modChan_memctl (e : EngId) (c : ChanId) (f : Channel → Channel) : (s.modChan e c f).memctl = s.memctl := rfl
@[simp] theorem State.modChan_power (e : EngId) (c : ChanId) (f : Channel → Channel) : (s.modChan e c f).power = s.power := rfl
@[simp] theorem State.modChan_pins (e : EngId) (c : ChanId) (f : Channel → Channel) : (s.modChan e c f).pins = s.pins := rfl
@[simp] theorem State.modChan_links (e : EngId) (c : ChanId) (f : Channel → Channel) : (s.modChan e c f).links = s.links := rfl
@[simp] theorem State.modChan_sec (e : EngId) (c : ChanId) (f : Channel → Channel) : (s.modChan e c f).sec = s.sec := rfl
@[simp] theorem State.modChan_mgmt (e : EngId) (c : ChanId) (f : Channel → Channel) : (s.modChan e c f).mgmt = s.mgmt := rfl

/-! ### mapEngines -/

@[simp] theorem State.mapEngines_pending (w : EngId → Bool) (f : Engine → Engine) : (s.mapEngines w f).pending = s.pending := by simp only [State.mapEngines]
@[simp] theorem State.mapEngines_freeCtr (w : EngId → Bool) (f : Engine → Engine) : (s.mapEngines w f).freeCtr = s.freeCtr := by simp only [State.mapEngines]
@[simp] theorem State.mapEngines_outputs (w : EngId → Bool) (f : Engine → Engine) : (s.mapEngines w f).outputs = s.outputs := by simp only [State.mapEngines]
@[simp] theorem State.mapEngines_time (w : EngId → Bool) (f : Engine → Engine) : (s.mapEngines w f).time = s.time := by simp only [State.mapEngines]
@[simp] theorem State.mapEngines_sync (w : EngId → Bool) (f : Engine → Engine) : (s.mapEngines w f).sync = s.sync := by simp only [State.mapEngines]
@[simp] theorem State.mapEngines_bind (w : EngId → Bool) (f : Engine → Engine) : (s.mapEngines w f).bind = s.bind := by simp only [State.mapEngines]
@[simp] theorem State.mapEngines_parts (w : EngId → Bool) (f : Engine → Engine) : (s.mapEngines w f).parts = s.parts := by simp only [State.mapEngines]
@[simp] theorem State.mapEngines_funcs (w : EngId → Bool) (f : Engine → Engine) : (s.mapEngines w f).funcs = s.funcs := by simp only [State.mapEngines]
@[simp] theorem State.mapEngines_vfs (w : EngId → Bool) (f : Engine → Engine) : (s.mapEngines w f).vfs = s.vfs := by simp only [State.mapEngines]
@[simp] theorem State.mapEngines_lastFn (w : EngId → Bool) (f : Engine → Engine) : (s.mapEngines w f).lastFn = s.lastFn := by simp only [State.mapEngines]
@[simp] theorem State.mapEngines_tiles (w : EngId → Bool) (f : Engine → Engine) : (s.mapEngines w f).tiles = s.tiles := by simp only [State.mapEngines]
@[simp] theorem State.mapEngines_mem (w : EngId → Bool) (f : Engine → Engine) : (s.mapEngines w f).mem = s.mem := by simp only [State.mapEngines]
@[simp] theorem State.mapEngines_hostMem (w : EngId → Bool) (f : Engine → Engine) : (s.mapEngines w f).hostMem = s.hostMem := by simp only [State.mapEngines]
@[simp] theorem State.mapEngines_memctl (w : EngId → Bool) (f : Engine → Engine) : (s.mapEngines w f).memctl = s.memctl := by simp only [State.mapEngines]
@[simp] theorem State.mapEngines_power (w : EngId → Bool) (f : Engine → Engine) : (s.mapEngines w f).power = s.power := by simp only [State.mapEngines]
@[simp] theorem State.mapEngines_pins (w : EngId → Bool) (f : Engine → Engine) : (s.mapEngines w f).pins = s.pins := by simp only [State.mapEngines]
@[simp] theorem State.mapEngines_links (w : EngId → Bool) (f : Engine → Engine) : (s.mapEngines w f).links = s.links := by simp only [State.mapEngines]
@[simp] theorem State.mapEngines_sec (w : EngId → Bool) (f : Engine → Engine) : (s.mapEngines w f).sec = s.sec := by simp only [State.mapEngines]
@[simp] theorem State.mapEngines_mgmt (w : EngId → Bool) (f : Engine → Engine) : (s.mapEngines w f).mgmt = s.mgmt := by simp only [State.mapEngines]

/-! ### setPart -/

@[simp] theorem State.setPart_pending (p : Pid) (x : Part) : (s.setPart p x).pending = s.pending := rfl
@[simp] theorem State.setPart_freeCtr (p : Pid) (x : Part) : (s.setPart p x).freeCtr = s.freeCtr := rfl
@[simp] theorem State.setPart_outputs (p : Pid) (x : Part) : (s.setPart p x).outputs = s.outputs := rfl
@[simp] theorem State.setPart_time (p : Pid) (x : Part) : (s.setPart p x).time = s.time := rfl
@[simp] theorem State.setPart_sync (p : Pid) (x : Part) : (s.setPart p x).sync = s.sync := rfl
@[simp] theorem State.setPart_bind (p : Pid) (x : Part) : (s.setPart p x).bind = s.bind := rfl
@[simp] theorem State.setPart_funcs (p : Pid) (x : Part) : (s.setPart p x).funcs = s.funcs := rfl
@[simp] theorem State.setPart_vfs (p : Pid) (x : Part) : (s.setPart p x).vfs = s.vfs := rfl
@[simp] theorem State.setPart_lastFn (p : Pid) (x : Part) : (s.setPart p x).lastFn = s.lastFn := rfl
@[simp] theorem State.setPart_tiles (p : Pid) (x : Part) : (s.setPart p x).tiles = s.tiles := rfl
@[simp] theorem State.setPart_engines (p : Pid) (x : Part) : (s.setPart p x).engines = s.engines := rfl
@[simp] theorem State.setPart_mem (p : Pid) (x : Part) : (s.setPart p x).mem = s.mem := rfl
@[simp] theorem State.setPart_hostMem (p : Pid) (x : Part) : (s.setPart p x).hostMem = s.hostMem := rfl
@[simp] theorem State.setPart_memctl (p : Pid) (x : Part) : (s.setPart p x).memctl = s.memctl := rfl
@[simp] theorem State.setPart_power (p : Pid) (x : Part) : (s.setPart p x).power = s.power := rfl
@[simp] theorem State.setPart_pins (p : Pid) (x : Part) : (s.setPart p x).pins = s.pins := rfl
@[simp] theorem State.setPart_links (p : Pid) (x : Part) : (s.setPart p x).links = s.links := rfl
@[simp] theorem State.setPart_sec (p : Pid) (x : Part) : (s.setPart p x).sec = s.sec := rfl
@[simp] theorem State.setPart_mgmt (p : Pid) (x : Part) : (s.setPart p x).mgmt = s.mgmt := rfl

/-! ### modPart -/

@[simp] theorem State.modPart_pending (p : Pid) (f : Part → Part) : (s.modPart p f).pending = s.pending := rfl
@[simp] theorem State.modPart_freeCtr (p : Pid) (f : Part → Part) : (s.modPart p f).freeCtr = s.freeCtr := rfl
@[simp] theorem State.modPart_outputs (p : Pid) (f : Part → Part) : (s.modPart p f).outputs = s.outputs := rfl
@[simp] theorem State.modPart_time (p : Pid) (f : Part → Part) : (s.modPart p f).time = s.time := rfl
@[simp] theorem State.modPart_sync (p : Pid) (f : Part → Part) : (s.modPart p f).sync = s.sync := rfl
@[simp] theorem State.modPart_bind (p : Pid) (f : Part → Part) : (s.modPart p f).bind = s.bind := rfl
@[simp] theorem State.modPart_funcs (p : Pid) (f : Part → Part) : (s.modPart p f).funcs = s.funcs := rfl
@[simp] theorem State.modPart_vfs (p : Pid) (f : Part → Part) : (s.modPart p f).vfs = s.vfs := rfl
@[simp] theorem State.modPart_lastFn (p : Pid) (f : Part → Part) : (s.modPart p f).lastFn = s.lastFn := rfl
@[simp] theorem State.modPart_tiles (p : Pid) (f : Part → Part) : (s.modPart p f).tiles = s.tiles := rfl
@[simp] theorem State.modPart_engines (p : Pid) (f : Part → Part) : (s.modPart p f).engines = s.engines := rfl
@[simp] theorem State.modPart_mem (p : Pid) (f : Part → Part) : (s.modPart p f).mem = s.mem := rfl
@[simp] theorem State.modPart_hostMem (p : Pid) (f : Part → Part) : (s.modPart p f).hostMem = s.hostMem := rfl
@[simp] theorem State.modPart_memctl (p : Pid) (f : Part → Part) : (s.modPart p f).memctl = s.memctl := rfl
@[simp] theorem State.modPart_power (p : Pid) (f : Part → Part) : (s.modPart p f).power = s.power := rfl
@[simp] theorem State.modPart_pins (p : Pid) (f : Part → Part) : (s.modPart p f).pins = s.pins := rfl
@[simp] theorem State.modPart_links (p : Pid) (f : Part → Part) : (s.modPart p f).links = s.links := rfl
@[simp] theorem State.modPart_sec (p : Pid) (f : Part → Part) : (s.modPart p f).sec = s.sec := rfl
@[simp] theorem State.modPart_mgmt (p : Pid) (f : Part → Part) : (s.modPart p f).mgmt = s.mgmt := rfl

/-! ### setFunc -/

@[simp] theorem State.setFunc_pending (n : Fn) (x : Func) : (s.setFunc n x).pending = s.pending := rfl
@[simp] theorem State.setFunc_freeCtr (n : Fn) (x : Func) : (s.setFunc n x).freeCtr = s.freeCtr := rfl
@[simp] theorem State.setFunc_outputs (n : Fn) (x : Func) : (s.setFunc n x).outputs = s.outputs := rfl
@[simp] theorem State.setFunc_time (n : Fn) (x : Func) : (s.setFunc n x).time = s.time := rfl
@[simp] theorem State.setFunc_sync (n : Fn) (x : Func) : (s.setFunc n x).sync = s.sync := rfl
@[simp] theorem State.setFunc_bind (n : Fn) (x : Func) : (s.setFunc n x).bind = s.bind := rfl
@[simp] theorem State.setFunc_parts (n : Fn) (x : Func) : (s.setFunc n x).parts = s.parts := rfl
@[simp] theorem State.setFunc_vfs (n : Fn) (x : Func) : (s.setFunc n x).vfs = s.vfs := rfl
@[simp] theorem State.setFunc_lastFn (n : Fn) (x : Func) : (s.setFunc n x).lastFn = s.lastFn := rfl
@[simp] theorem State.setFunc_tiles (n : Fn) (x : Func) : (s.setFunc n x).tiles = s.tiles := rfl
@[simp] theorem State.setFunc_engines (n : Fn) (x : Func) : (s.setFunc n x).engines = s.engines := rfl
@[simp] theorem State.setFunc_mem (n : Fn) (x : Func) : (s.setFunc n x).mem = s.mem := rfl
@[simp] theorem State.setFunc_hostMem (n : Fn) (x : Func) : (s.setFunc n x).hostMem = s.hostMem := rfl
@[simp] theorem State.setFunc_memctl (n : Fn) (x : Func) : (s.setFunc n x).memctl = s.memctl := rfl
@[simp] theorem State.setFunc_power (n : Fn) (x : Func) : (s.setFunc n x).power = s.power := rfl
@[simp] theorem State.setFunc_pins (n : Fn) (x : Func) : (s.setFunc n x).pins = s.pins := rfl
@[simp] theorem State.setFunc_links (n : Fn) (x : Func) : (s.setFunc n x).links = s.links := rfl
@[simp] theorem State.setFunc_sec (n : Fn) (x : Func) : (s.setFunc n x).sec = s.sec := rfl
@[simp] theorem State.setFunc_mgmt (n : Fn) (x : Func) : (s.setFunc n x).mgmt = s.mgmt := rfl

/-! ### modFunc -/

@[simp] theorem State.modFunc_pending (n : Fn) (f : Func → Func) : (s.modFunc n f).pending = s.pending := rfl
@[simp] theorem State.modFunc_freeCtr (n : Fn) (f : Func → Func) : (s.modFunc n f).freeCtr = s.freeCtr := rfl
@[simp] theorem State.modFunc_outputs (n : Fn) (f : Func → Func) : (s.modFunc n f).outputs = s.outputs := rfl
@[simp] theorem State.modFunc_time (n : Fn) (f : Func → Func) : (s.modFunc n f).time = s.time := rfl
@[simp] theorem State.modFunc_sync (n : Fn) (f : Func → Func) : (s.modFunc n f).sync = s.sync := rfl
@[simp] theorem State.modFunc_bind (n : Fn) (f : Func → Func) : (s.modFunc n f).bind = s.bind := rfl
@[simp] theorem State.modFunc_parts (n : Fn) (f : Func → Func) : (s.modFunc n f).parts = s.parts := rfl
@[simp] theorem State.modFunc_vfs (n : Fn) (f : Func → Func) : (s.modFunc n f).vfs = s.vfs := rfl
@[simp] theorem State.modFunc_lastFn (n : Fn) (f : Func → Func) : (s.modFunc n f).lastFn = s.lastFn := rfl
@[simp] theorem State.modFunc_tiles (n : Fn) (f : Func → Func) : (s.modFunc n f).tiles = s.tiles := rfl
@[simp] theorem State.modFunc_engines (n : Fn) (f : Func → Func) : (s.modFunc n f).engines = s.engines := rfl
@[simp] theorem State.modFunc_mem (n : Fn) (f : Func → Func) : (s.modFunc n f).mem = s.mem := rfl
@[simp] theorem State.modFunc_hostMem (n : Fn) (f : Func → Func) : (s.modFunc n f).hostMem = s.hostMem := rfl
@[simp] theorem State.modFunc_memctl (n : Fn) (f : Func → Func) : (s.modFunc n f).memctl = s.memctl := rfl
@[simp] theorem State.modFunc_power (n : Fn) (f : Func → Func) : (s.modFunc n f).power = s.power := rfl
@[simp] theorem State.modFunc_pins (n : Fn) (f : Func → Func) : (s.modFunc n f).pins = s.pins := rfl
@[simp] theorem State.modFunc_links (n : Fn) (f : Func → Func) : (s.modFunc n f).links = s.links := rfl
@[simp] theorem State.modFunc_sec (n : Fn) (f : Func → Func) : (s.modFunc n f).sec = s.sec := rfl
@[simp] theorem State.modFunc_mgmt (n : Fn) (f : Func → Func) : (s.modFunc n f).mgmt = s.mgmt := rfl

/-! ### modRing -/

@[simp] theorem State.modRing_pending (n : Fn) (r : RingId) (f : Ring → Ring) : (s.modRing n r f).pending = s.pending := rfl
@[simp] theorem State.modRing_freeCtr (n : Fn) (r : RingId) (f : Ring → Ring) : (s.modRing n r f).freeCtr = s.freeCtr := rfl
@[simp] theorem State.modRing_outputs (n : Fn) (r : RingId) (f : Ring → Ring) : (s.modRing n r f).outputs = s.outputs := rfl
@[simp] theorem State.modRing_time (n : Fn) (r : RingId) (f : Ring → Ring) : (s.modRing n r f).time = s.time := rfl
@[simp] theorem State.modRing_sync (n : Fn) (r : RingId) (f : Ring → Ring) : (s.modRing n r f).sync = s.sync := rfl
@[simp] theorem State.modRing_bind (n : Fn) (r : RingId) (f : Ring → Ring) : (s.modRing n r f).bind = s.bind := rfl
@[simp] theorem State.modRing_parts (n : Fn) (r : RingId) (f : Ring → Ring) : (s.modRing n r f).parts = s.parts := rfl
@[simp] theorem State.modRing_vfs (n : Fn) (r : RingId) (f : Ring → Ring) : (s.modRing n r f).vfs = s.vfs := rfl
@[simp] theorem State.modRing_lastFn (n : Fn) (r : RingId) (f : Ring → Ring) : (s.modRing n r f).lastFn = s.lastFn := rfl
@[simp] theorem State.modRing_tiles (n : Fn) (r : RingId) (f : Ring → Ring) : (s.modRing n r f).tiles = s.tiles := rfl
@[simp] theorem State.modRing_engines (n : Fn) (r : RingId) (f : Ring → Ring) : (s.modRing n r f).engines = s.engines := rfl
@[simp] theorem State.modRing_mem (n : Fn) (r : RingId) (f : Ring → Ring) : (s.modRing n r f).mem = s.mem := rfl
@[simp] theorem State.modRing_hostMem (n : Fn) (r : RingId) (f : Ring → Ring) : (s.modRing n r f).hostMem = s.hostMem := rfl
@[simp] theorem State.modRing_memctl (n : Fn) (r : RingId) (f : Ring → Ring) : (s.modRing n r f).memctl = s.memctl := rfl
@[simp] theorem State.modRing_power (n : Fn) (r : RingId) (f : Ring → Ring) : (s.modRing n r f).power = s.power := rfl
@[simp] theorem State.modRing_pins (n : Fn) (r : RingId) (f : Ring → Ring) : (s.modRing n r f).pins = s.pins := rfl
@[simp] theorem State.modRing_links (n : Fn) (r : RingId) (f : Ring → Ring) : (s.modRing n r f).links = s.links := rfl
@[simp] theorem State.modRing_sec (n : Fn) (r : RingId) (f : Ring → Ring) : (s.modRing n r f).sec = s.sec := rfl
@[simp] theorem State.modRing_mgmt (n : Fn) (r : RingId) (f : Ring → Ring) : (s.modRing n r f).mgmt = s.mgmt := rfl

/-! ### skipFree -/

@[simp] theorem State.skipFree_pending (n : Nat) : (s.skipFree n).pending = s.pending := rfl
@[simp] theorem State.skipFree_outputs (n : Nat) : (s.skipFree n).outputs = s.outputs := rfl
@[simp] theorem State.skipFree_time (n : Nat) : (s.skipFree n).time = s.time := rfl
@[simp] theorem State.skipFree_sync (n : Nat) : (s.skipFree n).sync = s.sync := rfl
@[simp] theorem State.skipFree_bind (n : Nat) : (s.skipFree n).bind = s.bind := rfl
@[simp] theorem State.skipFree_parts (n : Nat) : (s.skipFree n).parts = s.parts := rfl
@[simp] theorem State.skipFree_funcs (n : Nat) : (s.skipFree n).funcs = s.funcs := rfl
@[simp] theorem State.skipFree_vfs (n : Nat) : (s.skipFree n).vfs = s.vfs := rfl
@[simp] theorem State.skipFree_lastFn (n : Nat) : (s.skipFree n).lastFn = s.lastFn := rfl
@[simp] theorem State.skipFree_tiles (n : Nat) : (s.skipFree n).tiles = s.tiles := rfl
@[simp] theorem State.skipFree_engines (n : Nat) : (s.skipFree n).engines = s.engines := rfl
@[simp] theorem State.skipFree_mem (n : Nat) : (s.skipFree n).mem = s.mem := rfl
@[simp] theorem State.skipFree_hostMem (n : Nat) : (s.skipFree n).hostMem = s.hostMem := rfl
@[simp] theorem State.skipFree_memctl (n : Nat) : (s.skipFree n).memctl = s.memctl := rfl
@[simp] theorem State.skipFree_power (n : Nat) : (s.skipFree n).power = s.power := rfl
@[simp] theorem State.skipFree_pins (n : Nat) : (s.skipFree n).pins = s.pins := rfl
@[simp] theorem State.skipFree_links (n : Nat) : (s.skipFree n).links = s.links := rfl
@[simp] theorem State.skipFree_sec (n : Nat) : (s.skipFree n).sec = s.sec := rfl
@[simp] theorem State.skipFree_mgmt (n : Nat) : (s.skipFree n).mgmt = s.mgmt := rfl

/-! ### emit -/

@[simp] theorem State.emit_pending (o : Output) : (s.emit o).pending = s.pending := rfl
@[simp] theorem State.emit_freeCtr (o : Output) : (s.emit o).freeCtr = s.freeCtr := rfl
@[simp] theorem State.emit_time (o : Output) : (s.emit o).time = s.time := rfl
@[simp] theorem State.emit_sync (o : Output) : (s.emit o).sync = s.sync := rfl
@[simp] theorem State.emit_bind (o : Output) : (s.emit o).bind = s.bind := rfl
@[simp] theorem State.emit_parts (o : Output) : (s.emit o).parts = s.parts := rfl
@[simp] theorem State.emit_funcs (o : Output) : (s.emit o).funcs = s.funcs := rfl
@[simp] theorem State.emit_vfs (o : Output) : (s.emit o).vfs = s.vfs := rfl
@[simp] theorem State.emit_lastFn (o : Output) : (s.emit o).lastFn = s.lastFn := rfl
@[simp] theorem State.emit_tiles (o : Output) : (s.emit o).tiles = s.tiles := rfl
@[simp] theorem State.emit_engines (o : Output) : (s.emit o).engines = s.engines := rfl
@[simp] theorem State.emit_mem (o : Output) : (s.emit o).mem = s.mem := rfl
@[simp] theorem State.emit_hostMem (o : Output) : (s.emit o).hostMem = s.hostMem := rfl
@[simp] theorem State.emit_memctl (o : Output) : (s.emit o).memctl = s.memctl := rfl
@[simp] theorem State.emit_power (o : Output) : (s.emit o).power = s.power := rfl
@[simp] theorem State.emit_pins (o : Output) : (s.emit o).pins = s.pins := rfl
@[simp] theorem State.emit_links (o : Output) : (s.emit o).links = s.links := rfl
@[simp] theorem State.emit_sec (o : Output) : (s.emit o).sec = s.sec := rfl
@[simp] theorem State.emit_mgmt (o : Output) : (s.emit o).mgmt = s.mgmt := rfl

/-! ### at_ -/

@[simp] theorem State.at_pending (now : Nat) : (s.at_ now).pending = s.pending := rfl
@[simp] theorem State.at_freeCtr (now : Nat) : (s.at_ now).freeCtr = s.freeCtr := rfl
@[simp] theorem State.at_outputs (now : Nat) : (s.at_ now).outputs = s.outputs := rfl
@[simp] theorem State.at_sync (now : Nat) : (s.at_ now).sync = s.sync := rfl
@[simp] theorem State.at_bind (now : Nat) : (s.at_ now).bind = s.bind := rfl
@[simp] theorem State.at_parts (now : Nat) : (s.at_ now).parts = s.parts := rfl
@[simp] theorem State.at_funcs (now : Nat) : (s.at_ now).funcs = s.funcs := rfl
@[simp] theorem State.at_vfs (now : Nat) : (s.at_ now).vfs = s.vfs := rfl
@[simp] theorem State.at_lastFn (now : Nat) : (s.at_ now).lastFn = s.lastFn := rfl
@[simp] theorem State.at_tiles (now : Nat) : (s.at_ now).tiles = s.tiles := rfl
@[simp] theorem State.at_engines (now : Nat) : (s.at_ now).engines = s.engines := rfl
@[simp] theorem State.at_mem (now : Nat) : (s.at_ now).mem = s.mem := rfl
@[simp] theorem State.at_hostMem (now : Nat) : (s.at_ now).hostMem = s.hostMem := rfl
@[simp] theorem State.at_memctl (now : Nat) : (s.at_ now).memctl = s.memctl := rfl
@[simp] theorem State.at_power (now : Nat) : (s.at_ now).power = s.power := rfl
@[simp] theorem State.at_pins (now : Nat) : (s.at_ now).pins = s.pins := rfl
@[simp] theorem State.at_links (now : Nat) : (s.at_ now).links = s.links := rfl
@[simp] theorem State.at_sec (now : Nat) : (s.at_ now).sec = s.sec := rfl
@[simp] theorem State.at_mgmt (now : Nat) : (s.at_ now).mgmt = s.mgmt := rfl

/-! ### Reading back -/

@[simp] theorem State.tile_setTile (t : TileId) (x : Tile) : (s.setTile t x).tile t = x := by simp [State.setTile, State.tile]

theorem State.tile_setTile_ne (t u : TileId) (x : Tile) (h : u ≠ t) : (s.setTile t x).tile u = s.tile u := by
  have h' : t.val ≠ u.val := fun e => h (Fin.ext e.symm)
  simp [State.setTile, State.tile, h']

@[simp] theorem State.tile_modTile (t : TileId) (f : Tile → Tile) : (s.modTile t f).tile t = f (s.tile t) := by simp [State.modTile]

theorem State.tile_modTile_ne (t u : TileId) (f : Tile → Tile) (h : u ≠ t) : (s.modTile t f).tile u = s.tile u :=
  State.tile_setTile_ne _ _ _ _ h

@[simp] theorem State.core_modCore (t : TileId) (f : Core → Core) : (s.modCore t f).core t = f (s.core t) := by
  simp [State.modCore, State.core]

theorem State.core_modCore_ne (t u : TileId) (f : Core → Core) (h : u ≠ t) : (s.modCore t f).core u = s.core u := by
  simp [State.core, State.modCore, State.tile_modTile_ne s t u _ h]

@[simp] theorem State.tile_modCore (t : TileId) (f : Core → Core) :
    (s.modCore t f).tile t = { s.tile t with core := f (s.core t) } := by simp [State.modCore, State.core]

@[simp] theorem State.setTile_setTile (t : TileId) (x y : Tile) : (s.setTile t x).setTile t y = s.setTile t y := by
  simp [State.setTile]

@[simp] theorem State.modTile_modTile (t : TileId) (f g : Tile → Tile) :
    (s.modTile t f).modTile t g = s.modTile t fun x => g (f x) := by simp [State.modTile]

@[simp] theorem State.modCore_modCore (t : TileId) (f g : Core → Core) :
    (s.modCore t f).modCore t g = s.modCore t fun c => g (f c) := by simp [State.modCore]

@[simp] theorem State.part_setPart (p : Pid) (x : Part) : (s.setPart p x).part p = x := by simp [State.setPart, State.part]

theorem State.part_setPart_ne (p q : Pid) (x : Part) (h : q ≠ p) : (s.setPart p x).part q = s.part q := by
  have h' : p.val ≠ q.val := fun e => h (Fin.ext e.symm)
  simp [State.setPart, State.part, h']

@[simp] theorem State.part_modPart (p : Pid) (f : Part → Part) : (s.modPart p f).part p = f (s.part p) := by simp [State.modPart]

theorem State.part_modPart_ne (p q : Pid) (f : Part → Part) (h : q ≠ p) : (s.modPart p f).part q = s.part q :=
  State.part_setPart_ne _ _ _ _ h

@[simp] theorem State.func_setFunc (n : Fn) (x : Func) : (s.setFunc n x).func n = x := by simp [State.setFunc, State.func]

theorem State.func_setFunc_ne (n m : Fn) (x : Func) (h : m ≠ n) : (s.setFunc n x).func m = s.func m := by
  have h' : n.val ≠ m.val := fun e => h (Fin.ext e.symm)
  simp [State.setFunc, State.func, h']

@[simp] theorem State.func_modFunc (n : Fn) (f : Func → Func) : (s.modFunc n f).func n = f (s.func n) := by simp [State.modFunc]

@[simp] theorem State.engine_setEngine (e : EngId) (x : Engine) : (s.setEngine e x).engine e = x := by
  simp [State.setEngine, State.engine]

@[simp] theorem State.engine_modEngine (e : EngId) (f : Engine → Engine) : (s.modEngine e f).engine e = f (s.engine e) := by
  simp [State.modEngine]

@[simp] theorem State.chan_modChan (e : EngId) (c : ChanId) (f : Channel → Channel) : (s.modChan e c f).chan e c = f (s.chan e c) := by
  simp [State.modChan, State.chan]

end Sys2Proof.Machine
end

