-- ==== Sys2Proof/Laws/Core.lean ====
section
/-!
SUPPORT. Sys2Proof/Laws/Core.lean: what the shared shells of the core's instructions can do: coreInstr, coreWait, whenDue.
-/
namespace Sys2Proof.Machine

/-! ### What does not look at a core's registers -/

/-- Two states agree on everything that says which program a tile runs. -/
theorem State.progOfTile_modCore (s : State) (t : TileId) (f : Core → Core) (h : (f (s.core t)).slot = (s.core t).slot) :
    (s.modCore t f).progOfTile t = s.progOfTile t := by
  have hp : (s.modCore t f).partOfTile t = s.partOfTile t := rfl
  simp [State.progOfTile, hp, State.core_modCore, h, State.prog, State.part]

theorem State.codeSize_modCore (s : State) (t : TileId) (f : Core → Core) (h : (f (s.core t)).slot = (s.core t).slot)
    (hc : (f (s.core t)).code = (s.core t).code) : (s.modCore t f).codeSize t = s.codeSize t := by
  simp [State.codeSize, State.progOfTile_modCore s t f h, State.core_modCore, hc]

@[simp] theorem Core.useStep_slot (c : Core) : c.useStep.slot = c.slot := by unfold Core.useStep; split <;> rfl
@[simp] theorem Core.useStep_code (c : Core) : c.useStep.code = c.code := by unfold Core.useStep; split <;> rfl
@[simp] theorem Core.useStep_pc (c : Core) : c.useStep.pc = c.pc := by unfold Core.useStep; split <;> rfl
@[simp] theorem Core.useStep_g (c : Core) : c.useStep.g = c.g := by unfold Core.useStep; split <;> rfl
@[simp] theorem Core.useStep_f (c : Core) : c.useStep.f = c.f := by unfold Core.useStep; split <;> rfl
@[simp] theorem Core.useStep_v (c : Core) : c.useStep.v = c.v := by unfold Core.useStep; split <;> rfl
@[simp] theorem Core.useStep_region (c : Core) : c.useStep.region = c.region := by unfold Core.useStep; split <;> rfl
@[simp] theorem Core.useStep_lsheaf (c : Core) : c.useStep.lsheaf = c.lsheaf := by unfold Core.useStep; split <;> rfl
@[simp] theorem Core.useStep_seq (c : Core) : c.useStep.seq = c.seq := by unfold Core.useStep; split <;> rfl
@[simp] theorem Core.useStep_span (c : Core) : c.useStep.span = c.span := by unfold Core.useStep; split <;> rfl
@[simp] theorem Core.useStep_rg (c : Core) (r : RegId) : c.useStep.rg r = c.rg r := by unfold Core.useStep; split <;> rfl
@[simp] theorem Core.useStep_rf (c : Core) (r : RegId) : c.useStep.rf r = c.rf r := by unfold Core.useStep; split <;> rfl

theorem Core.useStep_eq (c : Core) : c.useStep = { c with dbgSteps := if c.dbgHalt then c.dbgSteps - 1 else c.dbgSteps } := by
  unfold Core.useStep; split <;> rfl

@[simp] theorem State.codeSize_useStep (s : State) (t : TileId) : (s.modCore t Core.useStep).codeSize t = s.codeSize t :=
  State.codeSize_modCore s t _ (by simp) (by simp)

/-! ### The shells -/

/-- A core's next instruction is one of a core that issues. -/
theorem State.issuing_of_issues (s : State) (t : TileId) (i : Instr) (h : s.issues t i = true) : s.issuing t = true := by
  simp only [State.issues, Bool.and_eq_true] at h
  exact h.1

/-- Past the end of the code section any command finds the core fault. -/
theorem State.issues_end (s : State) (t : TileId) (i : Instr) (h : s.issuing t = true) (hc : s.codeSize t ≤ (s.core t).pc) :
    s.issues t i = true := by simp [State.issues, h, hc]

/-- An issuing core inside its code section runs the effect. -/
theorem coreInstr_next (m : String) (i : Instr) (t : TileId) (s : State) (eff : State → State) (hi : s.issues t i = true)
    (hc : (s.core t).pc < s.codeSize t) : coreInstr m i t s eff = .next (eff (s.modCore t Core.useStep)) := by
  simp [coreInstr, hi, Nat.not_le.mpr hc]

/-- An issuing core past the end of its code section takes the core fault. -/
theorem coreInstr_end (m : String) (i : Instr) (t : TileId) (s : State) (eff : State → State) (hi : s.issues t i = true)
    (hc : s.codeSize t ≤ (s.core t).pc) : coreInstr m i t s eff = .next ((s.modCore t Core.useStep).coreFault t 0x1 0) := by
  simp [coreInstr, hi, hc]

/-- A core that does not issue runs nothing. -/
theorem coreInstr_notDue (m : String) (i : Instr) (t : TileId) (s : State) (eff : State → State) (hi : s.issues t i = false) :
    coreInstr m i t s eff = notDue m := by
  simp [coreInstr, hi]

theorem coreWait_next (m : String) (i : Instr) (t : TileId) (s : State) (eff : State → State) (hi : s.issues t i = true)
    (hc : (s.core t).pc < s.codeSize t) : coreWait m i t s true eff = .next (eff (s.modCore t Core.useStep)) := by
  simp [coreWait, hi, coreInstr_next m i t s eff hi hc]

/-- A core that waits changes nothing. -/
theorem coreWait_stall (m : String) (i : Instr) (t : TileId) (s : State) (eff : State → State) (hi : s.issues t i = true)
    (hc : (s.core t).pc < s.codeSize t) : coreWait m i t s false eff = .next s := by
  simp [coreWait, hi, Nat.not_le.mpr hc]

theorem coreWait_end (m : String) (i : Instr) (t : TileId) (s : State) (b : Bool) (eff : State → State) (hi : s.issues t i = true)
    (hc : s.codeSize t ≤ (s.core t).pc) : coreWait m i t s b eff = .next ((s.modCore t Core.useStep).coreFault t 0x1 0) := by
  simp [coreWait, hi, hc, coreInstr_end m i t s eff hi hc]

theorem coreWait_notDue (m : String) (i : Instr) (t : TileId) (s : State) (b : Bool) (eff : State → State) (hi : s.issues t i = false) :
    coreWait m i t s b eff = notDue m := by
  simp [coreWait, hi]

/-- What an instruction of a core can do, once and for all. -/
theorem coreInstr_cases (m : String) (i : Instr) (t : TileId) (s s' : State) (eff : State → State) (h : coreInstr m i t s eff = .next s') :
    s.issues t i = true ∧
      (s' = (s.modCore t Core.useStep).coreFault t 0x1 0 ∨ s' = eff (s.modCore t Core.useStep)) := by
  unfold coreInstr at h
  split at h
  · cases h
  · rename_i hi
    refine ⟨by simpa using hi, ?_⟩
    dsimp only at h
    split at h
    · exact Or.inl (by cases h; rfl)
    · exact Or.inr (by cases h; rfl)

theorem coreWait_cases (m : String) (i : Instr) (t : TileId) (s s' : State) (b : Bool) (eff : State → State)
    (h : coreWait m i t s b eff = .next s') :
    s' = s ∨ s' = (s.modCore t Core.useStep).coreFault t 0x1 0 ∨ s' = eff (s.modCore t Core.useStep) := by
  unfold coreWait at h
  split at h
  · cases h
  · split at h
    · exact Or.inr (coreInstr_cases m i t s s' eff h).2
    · exact Or.inl (by cases h; rfl)

theorem whenDue_cases (b : Bool) (m : String) (s' s : State) (h : whenDue b m s = .next s') : b = true ∧ s' = s := by
  cases b with
  | true => exact ⟨rfl, by cases h; rfl⟩
  | false => cases h

end Sys2Proof.Machine
end

