-- ==== Sys2Proof/Laws/Memory.lean ====
section
/-!
SUPPORT. Sys2Proof/Laws/Memory.lean: every operation on a table or on memory keeps the canonical form, a read after a write gives what
was written, and a write leaves every other address alone.
-/
namespace Sys2Proof.Machine

section
variable {α : Type} [DecidableEq α] (d : α)

theorem Tab.wfFrom_weaken (l : List (Nat × α)) (a b : Nat) (hab : a ≤ b) (h : Tab.wfFrom d b l = true) : Tab.wfFrom d a l = true := by
  cases l with
  | nil => rfl
  | cons c r =>
    obtain ⟨k, v⟩ := c
    simp only [Tab.wfFrom, Bool.and_eq_true, decide_eq_true_eq] at h ⊢
    exact ⟨⟨by omega, h.1.2⟩, h.2⟩

theorem Tab.wfFrom_put (l : List (Nat × α)) (a : Nat) (x : α) (lo : Nat) (h : Tab.wfFrom d lo l = true) (ha : lo ≤ a) :
    Tab.wfFrom d lo (Tab.put d l a x) = true := by
  induction l generalizing lo with
  | nil => unfold Tab.put; split <;> rename_i hx <;> simp [Tab.wfFrom, hx, ha]
  | cons c r ih =>
    obtain ⟨k, v⟩ := c
    simp only [Tab.wfFrom, Bool.and_eq_true, decide_eq_true_eq, Bool.not_eq_true', decide_eq_false_iff_not] at h
    unfold Tab.put
    split
    · split <;> rename_i h1 hx
      · simp [Tab.wfFrom, h]
      · simp [Tab.wfFrom, ha, hx, h, show a + 1 ≤ k by omega]
    · split
      · split <;> rename_i h1 h2 hx
        · exact Tab.wfFrom_weaken d r lo (k + 1) (by omega) h.2
        · subst h2; simp [Tab.wfFrom, ha, hx, h]
      · rename_i h1 h2
        simp [Tab.wfFrom, h, ih (k + 1) h.2 (by omega)]

/-- A write keeps the canonical form. -/
theorem Tab.wf_put (l : List (Nat × α)) (a : Nat) (x : α) (h : Tab.wf d l = true) : Tab.wf d (Tab.put d l a x) = true :=
  Tab.wfFrom_put d l a x 0 h (Nat.zero_le a)

theorem Tab.wfFrom_filter (f : Nat × α → Bool) (l : List (Nat × α)) (lo : Nat) (h : Tab.wfFrom d lo l = true) :
    Tab.wfFrom d lo (l.filter f) = true := by
  induction l generalizing lo with
  | nil => rfl
  | cons c r ih =>
    obtain ⟨k, v⟩ := c
    simp only [Tab.wfFrom, Bool.and_eq_true, decide_eq_true_eq] at h
    rw [List.filter_cons]
    split
    · simp only [Tab.wfFrom, Bool.and_eq_true, decide_eq_true_eq]; exact ⟨h.1, ih _ h.2⟩
    · exact Tab.wfFrom_weaken d _ lo (k + 1) (by omega) (ih _ h.2)

/-- A clear keeps the canonical form. -/
theorem Tab.wf_drop (l : List (Nat × α)) (a b : Nat) (h : Tab.wf d l = true) : Tab.wf d (Tab.drop l a b) = true :=
  Tab.wfFrom_filter d _ l 0 h

omit [DecidableEq α] in
theorem Tab.get_below [DecidableEq α] (l : List (Nat × α)) (lo a : Nat) (h : Tab.wfFrom d lo l = true) (ha : a < lo) : Tab.get d l a = d := by
  cases l with
  | nil => rfl
  | cons c r =>
    obtain ⟨k, v⟩ := c
    simp only [Tab.wfFrom, Bool.and_eq_true, decide_eq_true_eq] at h
    simp [Tab.get, show a < k by omega]

/-- A read after a write: the value written at its key, every other key as before. -/
theorem Tab.get_put (l : List (Nat × α)) (a b : Nat) (x : α) (lo : Nat) (h : Tab.wfFrom d lo l = true) :
    Tab.get d (Tab.put d l a x) b = if b = a then x else Tab.get d l b := by
  induction l generalizing lo with
  | nil =>
    unfold Tab.put
    split <;> rename_i hx
    · simp [Tab.get, hx]
    · by_cases hb : b = a
      · simp [Tab.get, hb]
      · simp [Tab.get, hb]
  | cons c r ih =>
    obtain ⟨k, v⟩ := c
    have h' := h
    simp only [Tab.wfFrom, Bool.and_eq_true, decide_eq_true_eq, Bool.not_eq_true', decide_eq_false_iff_not] at h
    unfold Tab.put
    split
    · rename_i h1
      split <;> rename_i hx
      · by_cases hb : b = a
        · subst hb; simp [Tab.get, h1, hx]
        · simp [hb]
      · by_cases hb : b = a
        · subst hb; simp [Tab.get]
        · by_cases hlt : b < a
          · simp [Tab.get, hb, hlt, show b < k by omega]
          · simp [Tab.get, hb, hlt]
    · split
      · rename_i h1 h2
        subst h2
        split <;> rename_i hx
        · by_cases hb : b = a
          · subst hb; rw [if_pos rfl, hx]; exact Tab.get_below d r (b + 1) b h.2 (by omega)
          · rw [if_neg hb]
            by_cases hlt : b < a
            · simp only [Tab.get, hlt, if_true]; exact Tab.get_below d r (a + 1) b h.2 (by omega)
            · simp [Tab.get, hlt, hb]
        · by_cases hb : b = a
          · subst hb; simp [Tab.get]
          · simp [Tab.get, hb]
      · rename_i h1 h2
        by_cases hlt : b < k
        · simp [Tab.get, hlt, show b ≠ a by omega]
        · by_cases hk : k = b
          · simp [Tab.get, hk, show b ≠ a by omega]
          · simp [Tab.get, hlt, Ne.symm hk, ih (k + 1) h.2]

end

/-! ### Memory -/

theorem Memory.wf_write (m : List Host.Cell) (a : Nat) (x : Byte) (h : Memory.wf m = true) : Memory.wf (Memory.write m a x) = true :=
  Tab.wf_put _ m a x h

theorem Memory.wf_writeBytes (m : List Host.Cell) (a : Nat) (bs : List Byte) (h : Memory.wf m = true) :
    Memory.wf (Memory.writeBytes m a bs) = true := by
  induction bs generalizing m a with
  | nil => exact h
  | cons x xs ih => exact ih _ _ (Memory.wf_write m a x h)

theorem Memory.wf_writeLe (m : List Host.Cell) (a n v : Nat) (h : Memory.wf m = true) : Memory.wf (Memory.writeLe m a n v) = true :=
  Memory.wf_writeBytes m a _ h

theorem Memory.wf_clear (m : List Host.Cell) (a b : Nat) (h : Memory.wf m = true) : Memory.wf (Memory.clear m a b) = true :=
  Tab.wf_drop _ m a b h

theorem Memory.wf_foldl {β : Type} (f : List Host.Cell → β → List Host.Cell) (hf : ∀ m x, Memory.wf m = true → Memory.wf (f m x) = true)
    (xs : List β) (m : List Host.Cell) (h : Memory.wf m = true) : Memory.wf (xs.foldl f m) = true := by
  induction xs generalizing m with
  | nil => exact h
  | cons x xs ih => exact ih _ (hf m x h)

/-- A read after the write of one byte. -/
theorem Memory.read_write (m : List Host.Cell) (a b : Nat) (x : Byte) (h : Memory.wf m = true) :
    Memory.read (Memory.write m a x) b = if b = a then x else Memory.read m b :=
  Tab.get_put _ m a b x 0 h

/-- A read after a write of bytes. -/
theorem Memory.read_writeBytes (m : List Host.Cell) (a b : Nat) (bs : List Byte) (h : Memory.wf m = true) :
    Memory.read (Memory.writeBytes m a bs) b = if a ≤ b ∧ b < a + bs.length then bs[b - a]?.getD 0 else Memory.read m b := by
  induction bs generalizing m a with
  | nil => simp [Memory.writeBytes]
  | cons x xs ih =>
    simp only [Memory.writeBytes, List.length_cons]
    rw [ih _ _ (Memory.wf_write m a x h), Memory.read_write m a b x h]
    by_cases hb : b = a
    · subst hb; simp
    · by_cases h1 : a + 1 ≤ b ∧ b < a + 1 + xs.length
      · rw [if_pos h1, if_pos (by omega)]
        have : b - a = (b - (a + 1)) + 1 := by omega
        rw [this]; simp
      · rw [if_neg h1, if_neg hb, if_neg (by omega)]

@[simp] theorem leBytes_length (n v : Nat) : (leBytes n v).length = n := by
  induction n generalizing v with
  | zero => rfl
  | succ n ih => simp [leBytes, ih]

/-- Byte i of n bytes of a number. -/
theorem leBytes_get (n v i : Nat) (h : i < n) : (leBytes n v)[i]?.getD 0 = BitVec.ofNat 8 (v / 256 ^ i) := by
  induction n generalizing v i with
  | zero => omega
  | succ n ih =>
    cases i with
    | zero => simp [leBytes]
    | succ i =>
      have := ih (v / 256) i (by omega)
      simp only [leBytes, List.getElem?_cons_succ, this, Nat.div_div_eq_div_mul, Nat.pow_succ, Nat.mul_comm]

end Sys2Proof.Machine
end

