-- ==== Sys2Proof/Laws/Offload.lean ====
section
/-!
SUPPORT. Sys2Proof/Laws/Offload.lean: an update that goes through the digits of the arrays is the update the engine makes itself (05 R129,
R130).
-/
namespace Sys2Proof.Machine

theorem sumInt_nil : sumInt [] = 0 := rfl

theorem foldl_add (l : List Int) (a : Int) : l.foldl (· + ·) a = a + l.foldl (· + ·) 0 := by
  induction l generalizing a with
  | nil => simp
  | cons x r ih => rw [List.foldl_cons, List.foldl_cons, ih, ih (0 + x)]; omega

theorem sumInt_cons (x : Int) (l : List Int) : sumInt (x :: l) = x + sumInt l := by
  unfold sumInt; rw [List.foldl_cons, foldl_add]; omega

/-- Removing the low digit leaves a multiple of 2^18. -/
theorem low_digit (m : Int) : ∃ k, m - signedOf 18 (codeOf 18 m) = k * 2 ^ 18 := by
  refine ⟨(m - signedOf 18 (codeOf 18 m)) / 2 ^ 18, ?_⟩
  unfold signedOf codeOf
  norm_num
  split <;> omega

theorem up_digit (m : Int) : m = signedOf 18 (codeOf 18 m) + (m - signedOf 18 (codeOf 18 m)) / 2 ^ 18 * 2 ^ 18 := by
  obtain ⟨k, h⟩ := low_digit m
  rw [h, Int.mul_ediv_cancel _ (by norm_num), ← h]
  omega

/-- The digits stand for the number (05 R129). -/
theorem fxDigits_value (n : Int) :
    n = (fxDigits n).getD 0 0 + (fxDigits n).getD 1 0 * 2 ^ 18 + (fxDigits n).getD 2 0 * 2 ^ 36 + (fxDigits n).getD 3 0 * 2 ^ 54 := by
  have h0 := up_digit n
  have h1 := up_digit ((n - signedOf 18 (codeOf 18 n)) / 2 ^ 18)
  have h2 := up_digit (((n - signedOf 18 (codeOf 18 n)) / 2 ^ 18 -
    signedOf 18 (codeOf 18 ((n - signedOf 18 (codeOf 18 n)) / 2 ^ 18))) / 2 ^ 18)
  simp only [fxDigits, List.getD_cons_zero, List.getD_cons_succ]
  linarith

theorem digitPair_cons (x : Int × Int) (xs : List (Int × Int)) (a b : Nat) :
    digitPair (x :: xs) a b = (fxDigits x.1).getD a 0 * (fxDigits x.2).getD b 0 + digitPair xs a b := by
  unfold digitPair; rw [List.map_cons, sumInt_cons]

theorem offloadSum_cons (x : Int × Int) (xs : List (Int × Int)) : offloadSum (x :: xs) = x.1 * x.2 + offloadSum xs := by
  conv_rhs => rw [fxDigits_value x.1, fxDigits_value x.2]
  have e : List.range 16 = [0, 1, 2, 3, 4, 5, 6, 7, 8, 9, 10, 11, 12, 13, 14, 15] := rfl
  simp only [offloadSum, digitPair_cons, e, List.map_cons, List.map_nil, sumInt_cons, sumInt_nil]
  norm_num
  ring

/-- An offloaded update sums to what the engine's own update sums to (05 R130). -/
theorem offloadSum_eq (xs : List (Int × Int)) : offloadSum xs = sumInt (xs.map fun (x : Int × Int) => x.1 * x.2) := by
  induction xs with
  | nil => rfl
  | cons x r ih => rw [offloadSum_cons, List.map_cons, sumInt_cons, ih]

/-- The bits of an update do not depend on whether it is offloaded (05 R130). -/
theorem Elim.updated_offload (e : Elim) (sym : Bool) (ks : List Nat) (i j : Nat) :
    e.updated sym true ks i j = e.updated sym false ks i j := by
  simp [Elim.updated, offloadSum_eq]

end Sys2Proof.Machine
end

