-- ==== Sys2Proof/Laws/PerInstr.lean ====
section
/-!
SUPPORT. Sys2Proof/Laws/PerInstr.lean: a law of every command, as syntax: a well-formed one carries no stamp outside the 64-bit counter.
-/
namespace Sys2Proof.Laws.F

/-- A well-formed command happens at a value of the counter, where it carries a stamp (10 R236). -/
def Statement (i : Instr) : Prop := i.wellFormed = true → ∀ n, i.stamp = some n → n < 2 ^ 64

/-- The law, for any command. -/
theorem holds (i : Instr) : Statement i := by
  intro h n hn
  unfold Instr.wellFormed at h
  rw [hn] at h
  simp only [Bool.and_eq_true, decide_eq_true_eq] at h
  exact h.2

theorem loadProgram (a0 : Fn) (a1 : Nat) (a2 : HostReply) : Statement (.loadProgram a0 a1 a2) := holds _
theorem programUnload (a0 : Fn) (a1 : Nat) : Statement (.programUnload a0 a1) := holds _
theorem launch (a0 : Fn) (a1 : Nat) : Statement (.launch a0 a1) := holds _
theorem launchAt (a0 : Fn) (a1 : Nat) : Statement (.launchAt a0 a1) := holds _
theorem launchReady (a0 : Pid) (a1 : Nat) : Statement (.launchReady a0 a1) := holds _
theorem launchHint (a0 : Pid) (a1 : Nat) : Statement (.launchHint a0 a1) := holds _
theorem launchRelease (a0 : Pid) (a1 : Nat) : Statement (.launchRelease a0 a1) := holds _
theorem launchComplete (a0 : Pid) (a1 : Nat) : Statement (.launchComplete a0 a1) := holds _
theorem copy (a0 : Fn) (a1 : Nat) (a2 : HostReply) : Statement (.copy a0 a1 a2) := holds _
theorem fill (a0 : Fn) (a1 : Nat) : Statement (.fill a0 a1) := holds _
theorem solveDelta (a0 : Fn) (a1 : Nat) : Statement (.solveDelta a0 a1) := holds _
theorem solveAdjoint (a0 : Fn) (a1 : Nat) : Statement (.solveAdjoint a0 a1) := holds _
theorem signal (a0 : Fn) (a1 : Nat) : Statement (.signal a0 a1) := holds _
theorem wait (a0 : Fn) (a1 : Nat) : Statement (.wait a0 a1) := holds _
theorem fence (a0 : Fn) (a1 : Nat) : Statement (.fence a0 a1) := holds _
theorem bind (a0 : Fn) (a1 : Nat) (a2 : Option (BitVec 8192)) : Statement (.bind a0 a1 a2) := holds _
theorem unbind (a0 : Fn) (a1 : Nat) : Statement (.unbind a0 a1) := holds _
theorem moultStepEnd (a0 : Pid) (a1 : Nat) : Statement (.moultStepEnd a0 a1) := holds _
theorem keyRotate (a0 : Fn) (a1 : Nat) : Statement (.keyRotate a0 a1) := holds _
theorem keyRotateLink (a0 : Fn) (a1 : Nat) : Statement (.keyRotateLink a0 a1) := holds _
theorem query (a0 : Fn) (a1 : Nat) (a2 : HostReply) : Statement (.query a0 a1 a2) := holds _
theorem digestRead (a0 : Fn) (a1 : Nat) (a2 : HostReply) : Statement (.digestRead a0 a1 a2) := holds _
theorem abort (a0 : Fn) (a1 : Nat) : Statement (.abort a0 a1) := holds _
theorem sqTail (a0 : Fn) (a1 : Fin 128) (a2 : Half) : Statement (.sqTail a0 a1 a2) := holds _
theorem cqHead (a0 : Fn) (a1 : Fin 128) (a2 : Half) : Statement (.cqHead a0 a1 a2) := holds _
theorem abortDb (a0 : Fn) (a1 : Fin 128) (a2 : Half) : Statement (.abortDb a0 a1 a2) := holds _
theorem descriptorFetch (a0 : Option (BitVec 512)) : Statement (.descriptorFetch a0) := holds _
theorem atsInvalidation (a0 : Fn) (a1 : BitVec 52) : Statement (.atsInvalidation a0 a1) := holds _
theorem hifVersionReq (a0 : Fn) (a1 : Half) : Statement (.hifVersionReq a0 a1) := holds _
theorem hifRingCfg (a0 : Fn) (a1 : RingId) (a2 : Half) : Statement (.hifRingCfg a0 a1 a2) := holds _
theorem hifEvqCfg (a0 : Fn) (a1 : Half) : Statement (.hifEvqCfg a0 a1) := holds _
theorem registerWrite (a0 : Fn) (a1 : BitVec 24) (a2 : Bool) (a3 : Word) : Statement (.registerWrite a0 a1 a2 a3) := holds _
theorem pwrCapCfg (a0 : Half) : Statement (.pwrCapCfg a0) := holds _
theorem pwrPolicy (a0 : Half) : Statement (.pwrPolicy a0) := holds _
theorem deepIdleRequest : Statement .deepIdleRequest := holds _
theorem deepIdleEntered (a0 : Nat) : Statement (.deepIdleEntered a0) := holds _
theorem deepIdleLeave : Statement .deepIdleLeave := holds _
theorem deepIdleExitEnd (a0 : Nat) : Statement (.deepIdleExitEnd a0) := holds _
theorem devrst (a0 : ResetBy) : Statement (.devrst a0) := holds _
theorem go (a0 : Half) : Statement (.go a0) := holds _
theorem partitionResetEnd (a0 : Nat) : Statement (.partitionResetEnd a0) := holds _
theorem dbgAttach (a0 : Half) (a1 : Source) : Statement (.dbgAttach a0 a1) := holds _
theorem portReconfigure (a0 : PortId) (a1 : Half) : Statement (.portReconfigure a0 a1) := holds _
theorem retrain (a0 : PortId) : Statement (.retrain a0) := holds _
theorem lnkModId (a0 : Half) : Statement (.lnkModId a0) := holds _
theorem lnkLaneRet (a0 : Word) : Statement (.lnkLaneRet a0) := holds _
theorem lnkEthPrefix (a0 : Word) : Statement (.lnkEthPrefix a0) := holds _
theorem synTimeCfg (a0 : Half) : Statement (.synTimeCfg a0) := holds _
theorem memBudgetCfg (a0 : Half) : Statement (.memBudgetCfg a0) := holds _
theorem int (a0 : TileId) (a1 : IntOp) (a2 : RegId) (a3 : RegId) (a4 : RegId) : Statement (.int a0 a1 a2 a3 a4) := holds _
theorem inti (a0 : TileId) (a1 : IntOp) (a2 : RegId) (a3 : RegId) (a4 : Word) : Statement (.inti a0 a1 a2 a3 a4) := holds _
theorem ls (a0 : TileId) (a1 : LsOp) (a2 : Nat) : Statement (.ls a0 a1 a2) := holds _
theorem br (a0 : TileId) (a1 : BrOp) (a2 : RegId) (a3 : RegId) (a4 : RegId) (a5 : Word) : Statement (.br a0 a1 a2 a3 a4 a5) := holds _
theorem fp (a0 : TileId) (a1 : FpOp) (a2 : Rnd) (a3 : RegId) (a4 : RegId) (a5 : RegId) (a6 : RegId) : Statement (.fp a0 a1 a2 a3 a4 a5 a6) := holds _
theorem cvt (a0 : TileId) (a1 : BitVec 4) (a2 : BitVec 4) (a3 : BitVec 4) (a4 : RegId) (a5 : RegId) : Statement (.cvt a0 a1 a2 a3 a4 a5) := holds _
theorem mopadr (a0 : TileId) (a1 : RegId) (a2 : RegId) (a3 : RegId) : Statement (.mopadr a0 a1 a2 a3) := holds _
theorem mop (a0 : TileId) (a1 : RegId) : Statement (.mop a0 a1) := holds _
theorem mwait (a0 : TileId) (a1 : BitVec 6) : Statement (.mwait a0 a1) := holds _
theorem dma (a0 : TileId) (a1 : RegId) : Statement (.dma a0 a1) := holds _
theorem dwait (a0 : TileId) (a1 : BitVec 6) : Statement (.dwait a0 a1) := holds _
theorem solve (a0 : TileId) (a1 : RegId) : Statement (.solve a0 a1) := holds _
theorem swait (a0 : TileId) (a1 : RegId) (a2 : RegId) : Statement (.swait a0 a1 a2) := holds _
theorem ssig (a0 : TileId) (a1 : RegId) (a2 : RegId) (a3 : RegId) : Statement (.ssig a0 a1 a2 a3) := holds _
theorem stake (a0 : TileId) (a1 : RegId) (a2 : RegId) (a3 : RegId) : Statement (.stake a0 a1 a2 a3) := holds _
theorem sarr (a0 : TileId) (a1 : RegId) (a2 : RegId) (a3 : RegId) : Statement (.sarr a0 a1 a2 a3) := holds _
theorem ssetf (a0 : TileId) (a1 : RegId) (a2 : RegId) (a3 : RegId) : Statement (.ssetf a0 a1 a2 a3) := holds _
theorem sclrf (a0 : TileId) (a1 : RegId) (a2 : RegId) (a3 : RegId) : Statement (.sclrf a0 a1 a2 a3) := holds _
theorem swany (a0 : TileId) (a1 : RegId) (a2 : RegId) (a3 : RegId) : Statement (.swany a0 a1 a2 a3) := holds _
theorem swall (a0 : TileId) (a1 : RegId) (a2 : RegId) (a3 : RegId) : Statement (.swall a0 a1 a2 a3) := holds _
theorem sadv (a0 : TileId) (a1 : RegId) (a2 : RegId) (a3 : RegId) : Statement (.sadv a0 a1 a2 a3) := holds _
theorem swge (a0 : TileId) (a1 : RegId) (a2 : RegId) (a3 : RegId) : Statement (.swge a0 a1 a2 a3) := holds _
theorem wupd (a0 : TileId) (a1 : RegId) : Statement (.wupd a0 a1) := holds _
theorem uwait (a0 : TileId) (a1 : BitVec 6) : Statement (.uwait a0 a1) := holds _
theorem nclr (a0 : TileId) (a1 : Fin 4) : Statement (.nclr a0 a1) := holds _
theorem nsq (a0 : TileId) (a1 : RegId) (a2 : RegId) (a3 : RegId) (a4 : BitVec 4) (a5 : Fin 4) : Statement (.nsq a0 a1 a2 a3 a4 a5) := holds _
theorem nst (a0 : TileId) (a1 : RegId) (a2 : Fin 4) : Statement (.nst a0 a1 a2) := holds _
theorem nadd (a0 : TileId) (a1 : RegId) (a2 : Fin 4) : Statement (.nadd a0 a1 a2) := holds _
theorem csrr (a0 : TileId) (a1 : RegId) (a2 : Csr) : Statement (.csrr a0 a1 a2) := holds _
theorem csrw (a0 : TileId) (a1 : Csr) (a2 : RegId) : Statement (.csrw a0 a1 a2) := holds _
theorem halt (a0 : TileId) : Statement (.halt a0) := holds _
theorem rbegin (a0 : TileId) (a1 : RegId) (a2 : RegId) : Statement (.rbegin a0 a1 a2) := holds _
theorem rcheck (a0 : TileId) : Statement (.rcheck a0) := holds _
theorem rcmpb (a0 : TileId) : Statement (.rcmpb a0) := holds _
theorem rcmpe (a0 : TileId) : Statement (.rcmpe a0) := holds _
theorem stasha (a0 : TileId) (a1 : RegId) (a2 : RegId) (a3 : RegId) : Statement (.stasha a0 a1 a2 a3) := holds _
theorem stashr (a0 : TileId) (a1 : RegId) (a2 : RegId) : Statement (.stashr a0 a1 a2) := holds _
theorem vclaim (a0 : TileId) (a1 : RegId) (a2 : RegId) (a3 : Ew) (a4 : Grp) : Statement (.vclaim a0 a1 a2 a3 a4) := holds _
theorem vls (a0 : TileId) (a1 : VLsOp) : Statement (.vls a0 a1) := holds _
theorem vint (a0 : TileId) (a1 : VIntOp) : Statement (.vint a0 a1) := holds _
theorem vfp (a0 : TileId) (a1 : VFpOp) : Statement (.vfp a0 a1) := holds _
theorem vcvt (a0 : TileId) (a1 : VCvtOp) : Statement (.vcvt a0 a1) := holds _
theorem vred (a0 : TileId) (a1 : VRedOp) : Statement (.vred a0 a1) := holds _
theorem vectorSleep (a0 : TileId) : Statement (.vectorSleep a0) := holds _
theorem blockLoad (a0 : ArrayAt) : Statement (.blockLoad a0) := holds _
theorem passStart (a0 : ArrayAt) (a1 : Fin 3) : Statement (.passStart a0 a1) := holds _
theorem mopComplete (a0 : ArrayAt) : Statement (.mopComplete a0) := holds _
theorem offloadMopStart (a0 : ArrayAt) (a1 : BitVec 256) : Statement (.offloadMopStart a0 a1) := holds _
theorem loadLevelStep (a0 : ArrayAt) : Statement (.loadLevelStep a0) := holds _
theorem hintRampStep (a0 : TileAt) : Statement (.hintRampStep a0) := holds _
theorem hintLapse (a0 : TileId) (a1 : Nat) : Statement (.hintLapse a0 a1) := holds _
theorem dmaTransferRun (a0 : TileId) : Statement (.dmaTransferRun a0) := holds _
theorem dmaTransferComplete (a0 : TileId) : Statement (.dmaTransferComplete a0) := holds _
theorem updateOperationRun (a0 : TileId) (a1 : Fin 3) : Statement (.updateOperationRun a0 a1) := holds _
theorem updateOperationComplete (a0 : TileId) : Statement (.updateOperationComplete a0) := holds _
theorem solveCommandHead (a0 : EngId) (a1 : Nat) (a2 : Nat) (a3 : SolveFault) : Statement (.solveCommandHead a0 a1 a2 a3) := holds _
theorem syncOperationArrival (a0 : Nat) (a1 : Nat) : Statement (.syncOperationArrival a0 a1) := holds _
theorem barrierReleaseReceipt (a0 : Pid) (a1 : BitVec 16) (a2 : Release) (a3 : Nat) : Statement (.barrierReleaseReceipt a0 a1 a2 a3) := holds _
theorem launchBarrierHint (a0 : Fin 65536) (a1 : Nat) : Statement (.launchBarrierHint a0 a1) := holds _
theorem launchBarrierRelease (a0 : Fin 65536) (a1 : Nat) : Statement (.launchBarrierRelease a0 a1) := holds _
theorem remoteAck (a0 : Nat) (a1 : BitVec 16) : Statement (.remoteAck a0 a1) := holds _
theorem waitTimeout (a0 : Waiter) (a1 : Nat) : Statement (.waitTimeout a0 a1) := holds _
theorem timeMessageSend (a0 : Nat) : Statement (.timeMessageSend a0) := holds _
theorem timeMessageReceipt (a0 : HalfId) (a1 : Word) (a2 : TimeEcho) (a3 : Nat) : Statement (.timeMessageReceipt a0 a1 a2 a3) := holds _
theorem counterSlew : Statement .counterSlew := holds _
theorem holdoverEntry (a0 : Nat) : Statement (.holdoverEntry a0) := holds _
theorem synTimeUnlock (a0 : Nat) : Statement (.synTimeUnlock a0) := holds _
theorem portTrainingComplete (a0 : HalfId) (a1 : Training) (a2 : Nat) : Statement (.portTrainingComplete a0 a1 a2) := holds _
theorem laneRetrainStart (a0 : Fin 64) (a1 : Nat) : Statement (.laneRetrainStart a0 a1) := holds _
theorem laneRetrainEnd (a0 : Fin 64) (a1 : Bool) (a2 : Nat) : Statement (.laneRetrainEnd a0 a1 a2) := holds _
theorem laneRetryTimer (a0 : Fin 64) (a1 : Nat) : Statement (.laneRetryTimer a0 a1) := holds _
theorem frameReceipt (a0 : HalfId) (a1 : Frame) (a2 : Nat) : Statement (.frameReceipt a0 a1 a2) := holds _
theorem frameNak (a0 : HalfId) (a1 : FrameId) : Statement (.frameNak a0 a1) := holds _
theorem datagramResend (a0 : HalfId) (a1 : FrameId) : Statement (.datagramResend a0 a1) := holds _
theorem neighborSolicitation (a0 : PortId) (a1 : BitVec 128) : Statement (.neighborSolicitation a0 a1) := holds _
theorem echoRequest (a0 : PortId) (a1 : BitVec 128) (a2 : List Byte) : Statement (.echoRequest a0 a1 a2) := holds _
theorem linkHandshake (a0 : Pid) (a1 : ModId) (a2 : PeerCert) (a3 : Nat) : Statement (.linkHandshake a0 a1 a2 a3) := holds _
theorem rekey (a0 : Pid) (a1 : PeerAt) : Statement (.rekey a0 a1) := holds _
theorem keepaliveSend (a0 : Nat) : Statement (.keepaliveSend a0) := holds _
theorem keepaliveTimeout (a0 : Pid) (a1 : ModId) (a2 : Nat) : Statement (.keepaliveTimeout a0 a1 a2) := holds _
theorem retrainNotice (a0 : Pid) (a1 : ModId) (a2 : Nat) : Statement (.retrainNotice a0 a1 a2) := holds _
theorem retrainSuspensionExpiry (a0 : Pid) (a1 : ModId) (a2 : Nat) : Statement (.retrainSuspensionExpiry a0 a1 a2) := holds _
theorem unbindFrame (a0 : ModId) (a1 : Word) (a2 : Half) (a3 : Bool) (a4 : Nat) : Statement (.unbindFrame a0 a1 a2 a3 a4) := holds _
theorem abortFrame (a0 : ModId) (a1 : Word) (a2 : Nat) : Statement (.abortFrame a0 a1 a2) := holds _
theorem linkEntryStart (a0 : Pid) (a1 : Nat) : Statement (.linkEntryStart a0 a1) := holds _
theorem transferAck (a0 : Pid) (a1 : Nat) (a2 : ModId) : Statement (.transferAck a0 a1 a2) := holds _
theorem linkEntryComplete (a0 : Pid) (a1 : Nat) (a2 : List (Nat × List Byte)) (a3 : Nat) : Statement (.linkEntryComplete a0 a1 a2 a3) := holds _
theorem readyNotice (a0 : Pid) (a1 : Nat) (a2 : Nat) (a3 : Bool) (a4 : Nat) : Statement (.readyNotice a0 a1 a2 a3 a4) := holds _
theorem deadlineClose (a0 : Pid) (a1 : Nat) (a2 : Nat) : Statement (.deadlineClose a0 a1 a2) := holds _
theorem verdict (a0 : Pid) (a1 : Nat) (a2 : List Nat) (a3 : List Nat) (a4 : List Nat) (a5 : Nat) : Statement (.verdict a0 a1 a2 a3 a4 a5) := holds _
theorem memoryReadError (a0 : Nat) (a1 : ReadError) (a2 : Reader) (a3 : Nat) : Statement (.memoryReadError a0 a1 a2 a3) := holds _
theorem migrationComplete (a0 : Nat) : Statement (.migrationComplete a0) := holds _
theorem errorWindowEnd (a0 : Nat) : Statement (.errorWindowEnd a0) := holds _
theorem stackTempReading (a0 : StackId) (a1 : Byte) (a2 : Nat) : Statement (.stackTempReading a0 a1 a2) := holds _
theorem granuleClearComplete (a0 : Nat) : Statement (.granuleClearComplete a0) := holds _
theorem sweepPage (a0 : Pid) (a1 : Nat) : Statement (.sweepPage a0 a1) := holds _
theorem regulatorSample (a0 : Sample) (a1 : Nat) : Statement (.regulatorSample a0 a1) := holds _
theorem railSettled (a0 : EngId) : Statement (.railSettled a0) := holds _
theorem dieTempReading (a0 : Fin 2) (a1 : Byte) (a2 : Nat) : Statement (.dieTempReading a0 a1 a2) := holds _
theorem regulatorWarning (a0 : Fin 2) (a1 : Bool) (a2 : BitVec 16) (a3 : Nat) : Statement (.regulatorWarning a0 a1 a2 a3) := holds _
theorem railWarningRelease (a0 : Fin 2) (a1 : Nat) : Statement (.railWarningRelease a0 a1) := holds _
theorem thermalTrip (a0 : TripBy) (a1 : Nat) : Statement (.thermalTrip a0 a1) := holds _
theorem ageingMonitorRead (a0 : Fin 2) (a1 : Bool) (a2 : Nat) : Statement (.ageingMonitorRead a0 a1 a2) := holds _
theorem inputApplied : Statement .inputApplied := holds _
theorem powerLoss : Statement .powerLoss := holds _
theorem perstAssert : Statement .perstAssert := holds _
theorem perstRelease (a0 : Nat) : Statement (.perstRelease a0) := holds _
theorem bootStageEnd (a0 : StageEnd) : Statement (.bootStageEnd a0) := holds _
theorem flr (a0 : Fn) : Statement (.flr a0) := holds _
theorem peRefclkLoss : Statement .peRefclkLoss := holds _
theorem lnkRefclkLoss (a0 : Nat) : Statement (.lnkRefclkLoss a0) := holds _
theorem tileHardFault (a0 : TileId) (a1 : Fin 3) (a2 : Nat) (a3 : Nat) : Statement (.tileHardFault a0 a1 a2 a3) := holds _
theorem bindingAudit (a0 : List (UnitId × UnitState)) (a1 : Nat) : Statement (.bindingAudit a0 a1) := holds _
theorem fatalResetTimer (a0 : Nat) : Statement (.fatalResetTimer a0) := holds _
theorem getVersion (a0 : Source) : Statement (.getVersion a0) := holds _
theorem getCapabilities (a0 : SpdmHello) : Statement (.getCapabilities a0) := holds _
theorem negotiateAlgorithms (a0 : Source) (a1 : SpdmAsym) (a2 : Bool) (a3 : Bool) : Statement (.negotiateAlgorithms a0 a1 a2 a3) := holds _
theorem getDigests (a0 : Source) : Statement (.getDigests a0) := holds _
theorem getCertificate (a0 : Source) (a1 : Nat) (a2 : Nat) (a3 : Nat) : Statement (.getCertificate a0 a1 a2 a3) := holds _
theorem challenge (a0 : Source) (a1 : Nat) (a2 : BitVec 256) : Statement (.challenge a0 a1 a2) := holds _
theorem getMeasurements (a0 : Source) (a1 : Byte) (a2 : BitVec 256) (a3 : Option Nat) : Statement (.getMeasurements a0 a1 a2 a3) := holds _
theorem keyExchange (a0 : Source) (a1 : SpdmKeyReq) (a2 : Nat) : Statement (.keyExchange a0 a1 a2) := holds _
theorem finish (a0 : BitVec 32) (a1 : Bool) (a2 : Byte) (a3 : Nat) : Statement (.finish a0 a1 a2 a3) := holds _
theorem endSession (a0 : BitVec 32) : Statement (.endSession a0) := holds _
theorem keyUpdate (a0 : BitVec 32) : Statement (.keyUpdate a0) := holds _
theorem heartbeat (a0 : BitVec 32) (a1 : Nat) : Statement (.heartbeat a0 a1) := holds _
theorem heartbeatTimeout (a0 : BitVec 32) (a1 : Nat) : Statement (.heartbeatTimeout a0 a1) := holds _
theorem unsupportedRequest (a0 : Source) (a1 : Byte) : Statement (.unsupportedRequest a0 a1) := holds _
theorem getTdispVersion (a0 : BitVec 32) : Statement (.getTdispVersion a0) := holds _
theorem getTdispCapabilities (a0 : BitVec 32) : Statement (.getTdispCapabilities a0) := holds _
theorem lockInterfaceRequest (a0 : BitVec 32) (a1 : Fn) : Statement (.lockInterfaceRequest a0 a1) := holds _
theorem getDeviceInterfaceReport (a0 : BitVec 32) (a1 : Fn) : Statement (.getDeviceInterfaceReport a0 a1) := holds _
theorem getDeviceInterfaceState (a0 : BitVec 32) (a1 : Fn) : Statement (.getDeviceInterfaceState a0 a1) := holds _
theorem startInterfaceRequest (a0 : BitVec 32) (a1 : Fn) : Statement (.startInterfaceRequest a0 a1) := holds _
theorem stopInterfaceRequest (a0 : BitVec 32) (a1 : Fn) (a2 : Nat) : Statement (.stopInterfaceRequest a0 a1 a2) := holds _
theorem lockedConfigWrite (a0 : Fn) (a1 : Nat) : Statement (.lockedConfigWrite a0 a1) := holds _
theorem spdmSessionLoss (a0 : BitVec 32) (a1 : Nat) : Statement (.spdmSessionLoss a0 a1) := holds _
theorem ideKmQuery (a0 : BitVec 32) : Statement (.ideKmQuery a0) := holds _
theorem ideKmKeyProgram (a0 : BitVec 32) (a1 : Fin 18) (a2 : Bool) : Statement (.ideKmKeyProgram a0 a1 a2) := holds _
theorem ideKmKeySetGo (a0 : BitVec 32) (a1 : Fin 18) (a2 : Bool) : Statement (.ideKmKeySetGo a0 a1 a2) := holds _
theorem ideKmKeySetStop (a0 : BitVec 32) (a1 : Fin 18) (a2 : Bool) : Statement (.ideKmKeySetStop a0 a1 a2) := holds _
theorem drbgHealthFailure : Statement .drbgHealthFailure := holds _
theorem debugHalt (a0 : Pid) : Statement (.debugHalt a0) := holds _
theorem debugSingleStep (a0 : TileId) : Statement (.debugSingleStep a0) := holds _
theorem setEndpointId (a0 : Binding) (a1 : Byte) : Statement (.setEndpointId a0 a1) := holds _
theorem getEndpointId (a0 : Binding) : Statement (.getEndpointId a0) := holds _
theorem getMctpVersionSupport (a0 : Binding) (a1 : Byte) : Statement (.getMctpVersionSupport a0 a1) := holds _
theorem getMessageTypeSupport (a0 : Binding) : Statement (.getMessageTypeSupport a0) := holds _
theorem getVendorDefinedMessageSupport (a0 : Binding) (a1 : Byte) : Statement (.getVendorDefinedMessageSupport a0 a1) := holds _
theorem entdaa (a0 : BitVec 7) : Statement (.entdaa a0) := holds _
theorem setdasa (a0 : BitVec 7) (a1 : BitVec 7) : Statement (.setdasa a0 a1) := holds _
theorem seteventreceiver (a0 : Binding) (a1 : Byte) (a2 : Bool) : Statement (.seteventreceiver a0 a1 a2) := holds _
theorem sensorRefresh (a0 : BitVec 16) (a1 : Int) : Statement (.sensorRefresh a0 a1) := holds _
theorem regRead (a0 : Binding) (a1 : BitVec 24) : Statement (.regRead a0 a1) := holds _
theorem regWrite (a0 : Binding) (a1 : BitVec 24) (a2 : Word) : Statement (.regWrite a0 a1 a2) := holds _
theorem devReset (a0 : Binding) : Statement (.devReset a0) := holds _
theorem attlogRead (a0 : Binding) (a1 : Nat) : Statement (.attlogRead a0 a1) := holds _
theorem forceRecovery (a0 : Binding) : Statement (.forceRecovery a0) := holds _
theorem requestupdate (a0 : Binding) (a1 : Component) (a2 : Nat) : Statement (.requestupdate a0 a1 a2) := holds _
theorem firmwareDataReceipt (a0 : List Byte) : Statement (.firmwareDataReceipt a0) := holds _
theorem transfercomplete : Statement .transfercomplete := holds _
theorem updateVerifyEnd (a0 : VerifyEnd) : Statement (.updateVerifyEnd a0) := holds _
theorem applycomplete : Statement .applycomplete := holds _
theorem activatefirmware : Statement .activatefirmware := holds _
theorem cancelupdate : Statement .cancelupdate := holds _
theorem solveCommandEnd (a0 : EngId) (a1 : Nat) : Statement (.solveCommandEnd a0 a1) := holds _
theorem peRefclkReturn : Statement .peRefclkReturn := holds _
theorem lnkRefclkReturn : Statement .lnkRefclkReturn := holds _
theorem perstHoldExpiry : Statement .perstHoldExpiry := holds _
theorem inputSag : Statement .inputSag := holds _
theorem inputSagEnd : Statement .inputSagEnd := holds _
theorem deviceFatalFault (a0 : Fin 5) (a1 : Nat) : Statement (.deviceFatalFault a0 a1) := holds _
theorem priorityFlowControl (a0 : PortId) (a1 : Bool) : Statement (.priorityFlowControl a0 a1) := holds _
theorem msixVectorUnmask (a0 : Fn) (a1 : Nat) : Statement (.msixVectorUnmask a0 a1) := holds _
theorem srIovEnable (a0 : Nat) : Statement (.srIovEnable a0) := holds _
theorem jtagAttach (a0 : Half) : Statement (.jtagAttach a0) := holds _

end Sys2Proof.Laws.F
end

