-- ==== Sys2Proof/Laws/Work.lean ====
section
/-!
SUPPORT. Sys2Proof/Laws/Work.lean: what the shared operations of Events, Silo, Objects, Work and Sync can do, each said once as one
relation between the state before and after: they end and resume work, raise events, complete commands and write results, and touch
no set-up register, no key, no log, no binding and no management state.
-/
namespace Sys2Proof.Machine

/-- Every operating point, pending point, limit and partition point lies between 8 and 20. -/
def PointsOk (w : PowerSt) : Prop :=
  (8 ≤ w.kmax.toNat ∧ w.kmax.toNat ≤ 20) ∧ (∀ p : Pid, 8 ≤ (w.pk[p]).toNat ∧ (w.pk[p]).toNat ≤ 20) ∧
    ∀ e : EngId, (8 ≤ (w.k[e]).toNat ∧ (w.k[e]).toNat ≤ 20) ∧ (8 ≤ (w.lim[e]).toNat ∧ (w.lim[e]).toNat ≤ 20) ∧
      ∀ x, w.target[e] = some x → 8 ≤ x.toNat ∧ x.toNat ≤ 20

/-- u differs from s in work, events, completions, memory and sync objects alone; storage stays canonical. -/
structure Work (s u : State) : Prop where
  pending : u.pending = s.pending
  sec : u.sec = s.sec
  mgmt : u.mgmt = s.mgmt
  vfs : u.vfs = s.vfs
  lastFn : u.lastFn = s.lastFn
  memctl : ∃ c b w, u.memctl = { s.memctl with cache := c, bad := b, wrote := w }
  links : ∃ h q, u.links = { s.links with half := h, txq := q }
  time : ∃ n, u.time = { s.time with lateRel := n }
  pins : ∃ h, u.pins = { s.pins with heldCpl := h }
  bind : ∃ m h, u.bind = { s.bind with moved := m, heldWr := h }
  power : ∃ k t l, u.power = { s.power with k := k, target := t, klow := l }
  points : PointsOk s.power → PointsOk u.power
  entry : ∀ p, (u.part p).entry = (s.part p).entry
  waitLim : ∀ p, (u.part p).waitLim = (s.part p).waitLim
  canonical : s.canonical = true → u.canonical = true

theorem Work.refl (s : State) : Work s s :=
  ⟨rfl, rfl, rfl, rfl, rfl, ⟨_, _, _, rfl⟩, ⟨_, _, rfl⟩, ⟨_, rfl⟩, ⟨_, rfl⟩, ⟨_, _, rfl⟩, ⟨_, _, _, rfl⟩, id, fun _ => rfl, fun _ => rfl, id⟩

theorem Work.trans {s t u : State} (a : Work s t) (b : Work t u) : Work s u := by
  constructor
  · rw [b.pending, a.pending]
  · rw [b.sec, a.sec]
  · rw [b.mgmt, a.mgmt]
  · rw [b.vfs, a.vfs]
  · rw [b.lastFn, a.lastFn]
  · obtain ⟨x, x', x'', hx⟩ := a.memctl; obtain ⟨y, y', y'', hy⟩ := b.memctl; exact ⟨y, y', y'', by rw [hy, hx]⟩
  · obtain ⟨x, x', hx⟩ := a.links; obtain ⟨y, y', hy⟩ := b.links; exact ⟨y, y', by rw [hy, hx]⟩
  · obtain ⟨x, hx⟩ := a.time; obtain ⟨y, hy⟩ := b.time; exact ⟨y, by rw [hy, hx]⟩
  · obtain ⟨x, hx⟩ := a.pins; obtain ⟨y, hy⟩ := b.pins; exact ⟨y, by rw [hy, hx]⟩
  · obtain ⟨x, x', hx⟩ := a.bind; obtain ⟨y, y', hy⟩ := b.bind; exact ⟨y, y', by rw [hy, hx]⟩
  · obtain ⟨x, x', x'', hx⟩ := a.power; obtain ⟨y, y', y'', hy⟩ := b.power; exact ⟨y, y', y'', by rw [hy, hx]⟩
  · exact fun h => b.points (a.points h)
  · exact fun p => (b.entry p).trans (a.entry p)
  · exact fun p => (b.waitLim p).trans (a.waitLim p)
  · exact fun h => b.canonical (a.canonical h)

theorem Work.foldl {α : Type} (f : State → α → State) (hf : ∀ s x, Work s (f s x)) (xs : List α) (s : State) : Work s (xs.foldl f s) := by
  induction xs generalizing s with
  | nil => exact Work.refl s
  | cons x xs ih => exact (hf s x).trans (ih _)

theorem Work.ite {c : Prop} [Decidable c] {s a b : State} (ha : c → Work s a) (hb : ¬ c → Work s b) : Work s (if c then a else b) := by
  split
  · exact ha ‹_›
  · exact hb ‹_›

/-! ### Updates of one part of the state -/

theorem State.canonical_iff (s : State) :
    s.canonical = true ↔ Memory.wf s.mem = true ∧ Memory.wf s.hostMem = true ∧ Tab.wf (0 : BitVec 128) s.sync.objs = true := by
  simp [State.canonical, and_assoc]

theorem Work.sync (s : State) (y : SyncSt) (h : y.objs = s.sync.objs) : Work s { s with sync := y } :=
  ⟨rfl, rfl, rfl, rfl, rfl, ⟨_, _, _, rfl⟩, ⟨_, _, rfl⟩, ⟨_, rfl⟩, ⟨_, rfl⟩, ⟨_, _, rfl⟩, ⟨_, _, _, rfl⟩, id, fun _ => rfl, fun _ => rfl,
    fun c => by rw [State.canonical_iff] at c ⊢; exact ⟨c.1, c.2.1, by rw [h]; exact c.2.2⟩⟩

theorem Work.tiles (s : State) (ts : Vector Tile 128) : Work s { s with tiles := ts } :=
  ⟨rfl, rfl, rfl, rfl, rfl, ⟨_, _, _, rfl⟩, ⟨_, _, rfl⟩, ⟨_, rfl⟩, ⟨_, rfl⟩, ⟨_, _, rfl⟩, ⟨_, _, _, rfl⟩, id, fun _ => rfl, fun _ => rfl, id⟩

theorem Work.mem (s : State) (m : List Host.Cell) (h : Memory.wf s.mem = true → Memory.wf m = true) : Work s { s with mem := m } :=
  ⟨rfl, rfl, rfl, rfl, rfl, ⟨_, _, _, rfl⟩, ⟨_, _, rfl⟩, ⟨_, rfl⟩, ⟨_, rfl⟩, ⟨_, _, rfl⟩, ⟨_, _, _, rfl⟩, id, fun _ => rfl, fun _ => rfl, fun c => by rw [State.canonical_iff] at c ⊢; exact ⟨h c.1, c.2⟩⟩

theorem Work.hostMem (s : State) (m : List Host.Cell) (h : Memory.wf s.hostMem = true → Memory.wf m = true) : Work s { s with hostMem := m } :=
  ⟨rfl, rfl, rfl, rfl, rfl, ⟨_, _, _, rfl⟩, ⟨_, _, rfl⟩, ⟨_, rfl⟩, ⟨_, rfl⟩, ⟨_, _, rfl⟩, ⟨_, _, _, rfl⟩, id, fun _ => rfl, fun _ => rfl, fun c => by rw [State.canonical_iff] at c ⊢; exact ⟨c.1, h c.2.1, c.2.2⟩⟩

theorem Work.objs (s : State) (l : List (Nat × BitVec 128)) (h : Tab.wf (0 : BitVec 128) s.sync.objs = true → Tab.wf (0 : BitVec 128) l = true) :
    Work s { s with sync := { s.sync with objs := l } } :=
  ⟨rfl, rfl, rfl, rfl, rfl, ⟨_, _, _, rfl⟩, ⟨_, _, rfl⟩, ⟨_, rfl⟩, ⟨_, rfl⟩, ⟨_, _, rfl⟩, ⟨_, _, _, rfl⟩, id, fun _ => rfl, fun _ => rfl, fun c => by rw [State.canonical_iff] at c ⊢; exact ⟨c.1, c.2.1, h c.2.2⟩⟩

theorem Work.bindHeld (s : State) (m : List Nat) (h : List (Nat × List Byte)) : Work s { s with bind := { s.bind with moved := m, heldWr := h } } :=
  ⟨rfl, rfl, rfl, rfl, rfl, ⟨_, _, _, rfl⟩, ⟨_, _, rfl⟩, ⟨_, rfl⟩, ⟨_, rfl⟩, ⟨_, _, rfl⟩, ⟨_, _, _, rfl⟩, id, fun _ => rfl, fun _ => rfl, id⟩

theorem Work.sectors (s : State) (c : List CacheLine) (b w : List Nat) :
    Work s { s with memctl := { s.memctl with cache := c, bad := b, wrote := w } } :=
  ⟨rfl, rfl, rfl, rfl, rfl, ⟨_, _, _, rfl⟩, ⟨_, _, rfl⟩, ⟨_, rfl⟩, ⟨_, rfl⟩, ⟨_, _, rfl⟩, ⟨_, _, _, rfl⟩, id, fun _ => rfl, fun _ => rfl, id⟩

theorem Work.heldCpl (s : State) (h : List HeldCpl) : Work s { s with pins := { s.pins with heldCpl := h } } :=
  ⟨rfl, rfl, rfl, rfl, rfl, ⟨_, _, _, rfl⟩, ⟨_, _, rfl⟩, ⟨_, rfl⟩, ⟨_, rfl⟩, ⟨_, _, rfl⟩, ⟨_, _, _, rfl⟩, id, fun _ => rfl, fun _ => rfl, id⟩

theorem Work.lateRel (s : State) (n : Half) : Work s { s with time := { s.time with lateRel := n } } :=
  ⟨rfl, rfl, rfl, rfl, rfl, ⟨_, _, _, rfl⟩, ⟨_, _, rfl⟩, ⟨_, rfl⟩, ⟨_, rfl⟩, ⟨_, _, rfl⟩, ⟨_, _, _, rfl⟩, id, fun _ => rfl, fun _ => rfl, id⟩

theorem Work.link (s : State) (h : Vector HalfPort 16) (q : List TxItem) : Work s { s with links := { s.links with half := h, txq := q } } :=
  ⟨rfl, rfl, rfl, rfl, rfl, ⟨_, _, _, rfl⟩, ⟨_, _, rfl⟩, ⟨_, rfl⟩, ⟨_, rfl⟩, ⟨_, _, rfl⟩, ⟨_, _, _, rfl⟩, id, fun _ => rfl, fun _ => rfl, id⟩

/-- An update of a partition that leaves its binding entry and its wait limit. -/
theorem Work.modPart (s : State) (p : Pid) (f : Part → Part) (he : (f (s.part p)).entry = (s.part p).entry)
    (hw : (f (s.part p)).waitLim = (s.part p).waitLim) : Work s (s.modPart p f) := by
  have same (q : Pid) : q = p ∨ (s.modPart p f).part q = s.part q := by
    by_cases h : q = p
    · exact Or.inl h
    · exact Or.inr (State.part_modPart_ne s p q f h)
  exact ⟨rfl, rfl, rfl, rfl, rfl, ⟨_, _, _, rfl⟩, ⟨_, _, rfl⟩, ⟨_, rfl⟩, ⟨_, rfl⟩, ⟨_, _, rfl⟩, ⟨_, _, _, rfl⟩, id,
    fun q => (same q).elim (fun h => by subst h; rw [State.part_modPart]; exact he) fun h => by rw [h],
    fun q => (same q).elim (fun h => by subst h; rw [State.part_modPart]; exact hw) fun h => by rw [h], id⟩

theorem Work.modTile (s : State) (t : TileId) (f : Tile → Tile) : Work s (s.modTile t f) :=
  ⟨rfl, rfl, rfl, rfl, rfl, ⟨_, _, _, rfl⟩, ⟨_, _, rfl⟩, ⟨_, rfl⟩, ⟨_, rfl⟩, ⟨_, _, rfl⟩, ⟨_, _, _, rfl⟩, id, fun _ => rfl, fun _ => rfl, id⟩
theorem Work.modCore (s : State) (t : TileId) (f : Core → Core) : Work s (s.modCore t f) :=
  ⟨rfl, rfl, rfl, rfl, rfl, ⟨_, _, _, rfl⟩, ⟨_, _, rfl⟩, ⟨_, rfl⟩, ⟨_, rfl⟩, ⟨_, _, rfl⟩, ⟨_, _, _, rfl⟩, id, fun _ => rfl, fun _ => rfl, id⟩
theorem Work.mapTiles (s : State) (w : TileId → Bool) (f : Tile → Tile) : Work s (s.mapTiles w f) := by
  unfold State.mapTiles
  exact Work.tiles s _
theorem Work.modEngine (s : State) (e : EngId) (f : Engine → Engine) : Work s (s.modEngine e f) :=
  ⟨rfl, rfl, rfl, rfl, rfl, ⟨_, _, _, rfl⟩, ⟨_, _, rfl⟩, ⟨_, rfl⟩, ⟨_, rfl⟩, ⟨_, _, rfl⟩, ⟨_, _, _, rfl⟩, id, fun _ => rfl, fun _ => rfl, id⟩
theorem Work.modChan (s : State) (e : EngId) (c : ChanId) (f : Channel → Channel) : Work s (s.modChan e c f) :=
  ⟨rfl, rfl, rfl, rfl, rfl, ⟨_, _, _, rfl⟩, ⟨_, _, rfl⟩, ⟨_, rfl⟩, ⟨_, rfl⟩, ⟨_, _, rfl⟩, ⟨_, _, _, rfl⟩, id, fun _ => rfl, fun _ => rfl, id⟩
theorem Work.modFunc (s : State) (n : Fn) (f : Func → Func) : Work s (s.modFunc n f) :=
  ⟨rfl, rfl, rfl, rfl, rfl, ⟨_, _, _, rfl⟩, ⟨_, _, rfl⟩, ⟨_, rfl⟩, ⟨_, rfl⟩, ⟨_, _, rfl⟩, ⟨_, _, _, rfl⟩, id, fun _ => rfl, fun _ => rfl, id⟩
theorem Work.modRing (s : State) (n : Fn) (r : RingId) (f : Ring → Ring) : Work s (s.modRing n r f) :=
  ⟨rfl, rfl, rfl, rfl, rfl, ⟨_, _, _, rfl⟩, ⟨_, _, rfl⟩, ⟨_, rfl⟩, ⟨_, rfl⟩, ⟨_, _, rfl⟩, ⟨_, _, _, rfl⟩, id, fun _ => rfl, fun _ => rfl, id⟩
theorem Work.emit (s : State) (m : Output) : Work s (s.emit m) :=
  ⟨rfl, rfl, rfl, rfl, rfl, ⟨_, _, _, rfl⟩, ⟨_, _, rfl⟩, ⟨_, rfl⟩, ⟨_, rfl⟩, ⟨_, _, rfl⟩, ⟨_, _, _, rfl⟩, id, fun _ => rfl, fun _ => rfl, id⟩
theorem Work.skipFree (s : State) (n : Nat) : Work s (s.skipFree n) :=
  ⟨rfl, rfl, rfl, rfl, rfl, ⟨_, _, _, rfl⟩, ⟨_, _, rfl⟩, ⟨_, rfl⟩, ⟨_, rfl⟩, ⟨_, _, rfl⟩, ⟨_, _, _, rfl⟩, id, fun _ => rfl, fun _ => rfl, id⟩


/-! ### Events and completions (Events.lean) -/

theorem Work.irq (s : State) (n : Fn) (v : Nat) : Work s (s.irq n v) := Work.ite (fun _ => Work.emit s _) fun _ => Work.modFunc s _ _

theorem Work.writeEvent (s : State) (n : Fn) (e : Event) : Work s (s.writeEvent n e) := by
  unfold State.writeEvent
  exact (((Work.hostMem s _ fun h => Memory.wf_writeBytes _ _ _ h).trans (Work.modFunc _ _ _)).trans (Work.irq _ _ _)).trans
    (Work.ite (fun _ => Work.emit _ _) fun _ => Work.refl _)

theorem Work.dropEvent (s : State) (n : Fn) : Work s (s.dropEvent n) := Work.modFunc s _ _

theorem Work.flushOverflow (s : State) (n : Fn) : Work s (s.flushOverflow n) :=
  Work.ite (fun _ => (Work.writeEvent s n _).trans (Work.modFunc _ _ _)) fun _ => Work.refl s

theorem Work.raise (s : State) (n : Fn) (e : Event) : Work s (s.raise n e) :=
  Work.ite (fun _ => Work.ite (fun _ => Work.modFunc s _ _) fun _ => Work.dropEvent s n) fun _ =>
    Work.ite (fun _ => Work.modFunc s _ _) fun _ =>
      (Work.flushOverflow s n).trans (Work.ite (fun _ => Work.dropEvent _ n) fun _ => Work.writeEvent _ n e)

theorem Work.flushHeld (s : State) (n : Fn) : Work s (s.flushHeld n) :=
  ((Work.modFunc s _ _).trans (Work.foldl _ (fun _ _ => Work.ite (fun _ => Work.dropEvent _ n) fun _ => Work.writeEvent _ n _) _ _)).trans
    (Work.flushOverflow _ n)

theorem Work.raisePf0 (s : State) (code : BitVec 16) (p : Option Pid) (a b : Nat) : Work s (s.raisePf0 code p a b) := Work.raise s _ _

theorem Work.raiseFn (s : State) (code : BitVec 16) (p : Pid) (a b : Nat) : Work s (s.raiseFn code p a b) :=
  Work.ite (fun _ => Work.refl s) fun _ => Work.raise s _ _

theorem Work.raiseBoth (s : State) (code : BitVec 16) (p : Option Pid) (a b : Nat) : Work s (s.raiseBoth code p a b) := by
  unfold State.raiseBoth
  split
  · exact Work.raisePf0 s _ _ _ _
  · exact Work.ite (fun _ => Work.raisePf0 s _ _ _ _) fun _ => (Work.raiseFn s _ _ _ _).trans (Work.raisePf0 _ _ _ _ _)

theorem Work.postCpl (s : State) (n : Fn) (r : RingId) (tag : Nat) (nirq : Bool) (code : BitVec 16) (st info : Nat) :
    Work s (s.postCpl n r tag nirq code st info) :=
  Work.ite (fun _ => Work.refl s) fun _ =>
    ((Work.hostMem s _ fun h => Memory.wf_writeBytes _ _ _ h).trans (Work.modRing _ _ _ _)).trans
      (Work.ite (fun _ => Work.refl _) fun _ => Work.irq _ _ _)

/-- A completion changes work, host memory and messages alone. -/
theorem Work.complete (s : State) (n : Fn) (c : Cmd) (code : BitVec 16) (st info : Nat) : Work s (s.complete n c code st info) :=
  (Work.modFunc s n _).trans (Work.ite (fun _ => Work.postCpl _ _ _ _ _ _ _ _) fun _ => Work.heldCpl _ _)

/-- Completing a command that may have gone already. -/
theorem Work.completeAt (s : State) (n : Fn) (cid : Nat) (code : BitVec 16) (st info : Nat) :
    Work s (match s.findCmd n cid with
      | none => s
      | some c => s.complete n c code st info) := by
  split
  · exact Work.refl _
  · exact Work.complete _ _ _ _ _ _

theorem Work.flushHost (s : State) : Work s s.flushHost :=
  ((Work.heldCpl s _).trans (Work.foldl _ (fun _ _ => Work.postCpl _ _ _ _ _ _ _ _) _ _)).trans
    (Work.foldl _ (fun _ _ => Work.ite (fun _ => Work.flushHeld _ _) fun _ => Work.refl _) _ _)

theorem Work.setHalf (s : State) (h : HalfId) (f : HalfPort → HalfPort) : Work s (s.setHalf h f) := Work.link s _ _

theorem Work.modPeer (s : State) (p : Pid) (m : ModId) (f : Peer → Peer) : Work s (s.modPeer p m f) := Work.modPart s p _ rfl rfl

theorem Work.ensurePeer (s : State) (p : Pid) (m : ModId) : Work s (s.ensurePeer p m) :=
  Work.ite (fun _ => Work.refl s) fun _ => Work.modPart s p _ rfl rfl

/-- A frame that leaves changes its half-port, its peer and the messages sent alone. -/
theorem Work.transmit (s : State) (x : TxItem) (q : Peer) (h : HalfId) : Work s (s.transmit x q h) :=
  ((Work.setHalf s h _).trans (Work.modPeer _ _ _ _)).trans (Work.emit _ _)

theorem Work.trySend (s t : State) (x : TxItem) (h : s.trySend x = some t) : Work s t := by
  unfold State.trySend at h
  split at h
  · cases h
  · split at h
    · cases h
    · obtain ⟨k, -, rfl⟩ := Option.map_eq_some_iff.mp h
      exact Work.transmit s x _ k

theorem Work.pump (s : State) : Work s s.pump := by
  have go (xs : List TxItem) (r : State × List TxItem) :
      Work r.1 (xs.foldl (fun (r : State × List TxItem) x =>
        if r.2.any x.same then (r.1, r.2 ++ [x])
        else match r.1.trySend x with
          | none => (r.1, r.2 ++ [x])
          | some t => (t, r.2)) r).1 := by
    induction xs generalizing r with
    | nil => exact Work.refl _
    | cons x xs ih =>
      refine Work.trans ?_ (ih _)
      dsimp only
      split
      · exact Work.refl _
      · split
        · exact Work.refl _
        · exact Work.trySend _ _ _ ‹_›
  exact (go _ (s, [])).trans (Work.link _ _ _)

/-- Sending changes half-ports, the frames that wait, peers and the messages sent alone. -/
theorem Work.send (s : State) (p : Pid) (m : ModId) (x : Message) : Work s (s.send p m x) :=
  Work.ite (fun _ => Work.refl _) fun _ =>
    (Work.ensurePeer s p m).trans (Work.ite (fun _ => Work.refl _) fun _ => (Work.link _ _ _).trans (Work.pump _))

/-! ### Storage (Silo.lean) -/

/-- Writing a line changes cached lines, sectors that cannot be corrected and clear marks alone. -/
theorem MemSt.writeLines_frame (m : MemSt) (mem : List Host.Cell) (f : Nat → Nat × Nat × Nat × Nat) (xs : List Nat) :
    ∃ c b w, xs.foldl (fun m i => m.writeLine mem (f i).1 (f i).2.1 (f i).2.2.1 (f i).2.2.2) m = { m with cache := c, bad := b, wrote := w } := by
  induction xs generalizing m with
  | nil => exact ⟨_, _, _, rfl⟩
  | cons x xs ih => obtain ⟨c, b, w, h⟩ := ih (m.writeLine mem (f x).1 (f x).2.1 (f x).2.2.1 (f x).2.2.2); exact ⟨c, b, w, h⟩

theorem State.writeLines_frame (s : State) (p : Pid) (h a n : Nat) :
    ∃ c b w, s.writeLines p h a n = { s.memctl with cache := c, bad := b, wrote := w } := by
  unfold State.writeLines
  split
  · exact ⟨_, _, _, rfl⟩
  · exact MemSt.writeLines_frame s.memctl s.mem
      (fun i => (h, (s.part p).devAddr (256 * i) / 256, a - 256 * i, min 256 (a + n - 256 * i))) _

theorem Work.memLines (s : State) (m : List Host.Cell) (x : MemSt) (h : Memory.wf s.mem = true → Memory.wf m = true)
    (hx : ∃ c b w, x = { s.memctl with cache := c, bad := b, wrote := w }) : Work s { s with mem := m, memctl := x } := by
  obtain ⟨c, b, w, rfl⟩ := hx
  exact (Work.mem s m h).trans (Work.sectors _ c b w)

theorem Work.siloWriteH (s : State) (p : Pid) (i a : Nat) (bs : List Byte) : Work s (s.siloWriteH p i a bs) :=
  Work.ite (fun _ => Work.refl s) fun _ =>
    Work.memLines s _ _ (fun h => Memory.wf_foldl _ (fun _ _ h => Memory.wf_write _ _ _ h) _ _ h) (State.writeLines_frame s p i a _)

theorem Work.siloWrite (s : State) (p : Pid) (a : Nat) (bs : List Byte) : Work s (s.siloWrite p a bs) := Work.siloWriteH s p 0 a bs

theorem Work.siloZero (s : State) (p : Pid) (a n : Nat) : Work s (s.siloZero p a n) :=
  Work.ite (fun _ => Work.refl s) fun _ =>
    Work.memLines s _ _ (fun h => Memory.wf_foldl _ (fun _ _ h => Memory.wf_clear _ _ _ h) _ _ h) (State.writeLines_frame s p 0 a n)

theorem Work.siloRecord (s : State) (p : Pid) (a : Nat) (bs : List Byte) : Work s (s.siloRecord p a bs) :=
  Work.ite (fun _ => Work.refl s) fun _ =>
    Work.foldl _ (fun s _ => Work.ite (fun _ => Work.ite (fun _ => Work.refl s) fun _ => Work.siloWrite s p _ _) fun _ => Work.bindHeld s _ _) _ _

theorem Work.discardLine (s : State) (l : Nat) (w : Word) :
    Work s { s with memctl := (discardLine s.memctl s.mem l w).1, mem := (discardLine s.memctl s.mem l w).2 } := by
  refine Work.memLines s _ _ ?_ ?_
  · intro h
    unfold Machine.discardLine
    split
    · exact h
    · split
      · exact h
      · split
        · exact h
        · exact Memory.wf_writeBytes _ _ _ h
  · unfold Machine.discardLine
    split
    · exact ⟨_, _, _, rfl⟩
    · exact ⟨_, _, _, rfl⟩

theorem Work.lastUse (s : State) (p : Pid) (a n : Nat) : Work s (s.lastUse p a n) :=
  Work.foldl _ (fun s l => (Work.discardLine s l s.freeWord).trans (Work.skipFree _ 1)) _ _

/-- A read under a hint changes cached lines and, under LAST_USE, what the stack holds. -/
theorem Work.hintRead (s : State) (p : Pid) (h a n : Nat) : Work s (s.hintRead p h a n) :=
  Work.ite (fun _ => Work.lastUse s p a n) fun _ => Work.sectors s _ _ _

theorem Work.readLines (s : State) (p : Pid) (rs : List (Nat × Nat)) : Work s (s.readLines p rs) :=
  Work.foldl _ (fun s (r : Nat × Nat) => Work.hintRead s p 0 r.1 r.2) rs s

theorem Work.storeWrite (s : State) (t : TileId) (a : Nat) (bs : List Byte) : Work s (s.storeWrite t a bs) :=
  Work.mem s _ fun h => Memory.wf_writeBytes _ _ _ h

/-! ### Sync objects and link entries (Objects.lean) -/

theorem Work.setObj (s : State) (o : Nat) (x : BitVec 128) : Work s (s.setObj o x) :=
  Work.objs s _ fun h => Tab.wf_put _ _ _ _ h

theorem Work.wakeHosts (s : State) (o : Nat) : Work s (s.wakeHosts o) := by
  unfold State.wakeHosts
  dsimp only
  refine Work.trans (Work.trans (Work.ite (fun _ => Work.setObj s o _) fun _ => Work.refl s) (Work.sync _ _ (by rfl))) (Work.foldl _ ?_ _ _)
  intro s w
  split
  · split
    · exact Work.refl _
    · exact Work.complete _ _ _ _ _ _
  · exact Work.refl _

theorem Work.entryStatus (s : State) (p : Pid) (img : List Byte) (i : Nat) (code : BitVec 16) (f : Nat) :
    Work s (s.entryStatus p img i code f) := by
  unfold State.entryStatus
  split
  · exact Work.refl _
  · exact Work.siloRecord _ _ _ _

theorem Work.spoilDst (s : State) (p : Pid) (img : List Byte) (r : LinkRec) : Work s (s.spoilDst p img r) := by
  unfold State.spoilDst
  split
  · exact Work.refl _
  · exact Work.ite (fun _ => Work.refl _) fun _ => (Work.siloWrite _ _ _ _).trans (Work.skipFree _ _)

theorem Work.spoilEntry (s : State) (p : Pid) (l : Launch) (g : Program) (e : LinkEntry) (r : LinkRec) :
    Work s (s.spoilEntry p l g e r) := Work.ite (fun _ => Work.spoilDst s p _ r) fun _ => Work.refl s

theorem Work.endDone (s : State) (p : Pid) (r : LinkRec) : Work s (s.endDone p r) := by
  unfold State.endDone
  split
  · exact Work.refl _
  · exact (Work.setObj _ _ _).trans (Work.wakeHosts _ _)

theorem Work.endEntries (s : State) (p : Pid) (code : BitVec 16) : Work s (s.endEntries p code) := by
  unfold State.endEntries
  split
  · exact Work.refl _
  · refine Work.foldl _ ?_ _ _
    intro s e
    split
    · exact Work.entryStatus s p _ _ _ _
    · exact ((Work.entryStatus s p _ _ _ _).trans (Work.spoilEntry _ _ _ _ _ _)).trans (Work.endDone _ _ _)

/-! ### Flags and clocks (Flags.lean, Clocks.lean) -/

theorem Work.markPart (s : State) (p : Pid) (k : FlagKind) : Work s (s.markPart p k) := by
  refine Work.modPart s p _ ?_ ?_ <;> split <;> first | rfl | (split <;> rfl)

theorem Work.markWhere (s : State) (k : FlagKind) (w : Pid → Bool) : Work s (s.markWhere k w) :=
  Work.foldl _ (fun _ _ => Work.ite (fun _ => Work.markPart _ _ _) fun _ => Work.refl _) _ _

theorem Work.markAll (s : State) (k : FlagKind) : Work s (s.markAll k) := Work.markWhere s k _
theorem Work.markOthers (s : State) (p : Pid) : Work s (s.markOthers p) := Work.markWhere s _ _

theorem Work.touchEnd (s : State) (p : Pid) : Work s (s.touchEnd p) := by
  refine Work.modPart s p _ ?_ ?_ <;> split <;> rfl

/-- Points that lie in range stay there when every sheaf moves towards its point. -/
theorem changeK_range (k w : BitVec 5) (b : Bool) (hk : 8 ≤ k.toNat ∧ k.toNat ≤ 20) (hw : 8 ≤ w.toNat ∧ w.toNat ≤ 20) :
    (8 ≤ (changeK k w b).1.toNat ∧ (changeK k w b).1.toNat ≤ 20) ∧
      ∀ x, (changeK k w b).2 = some x → 8 ≤ x.toNat ∧ x.toNat ≤ 20 := by
  unfold changeK
  split
  · exact ⟨hk, fun _ h => by cases h⟩
  · split
    · exact ⟨hk, fun _ h => by cases h; exact hw⟩
    · split
      · exact ⟨hw, fun _ h => by cases h⟩
      · exact ⟨hk, fun _ h => by cases h; exact hw⟩

theorem State.wantK_range (s : State) (h : PointsOk s.power) (e : EngId) : 8 ≤ (s.wantK e).toNat ∧ (s.wantK e).toNat ≤ 20 := by
  have hc : 8 ≤ (s.capK e).toNat ∧ (s.capK e).toNat ≤ 20 := by
    unfold State.capK
    split
    · exact h.1
    · split
      · exact h.2.1 _
      · exact h.1
  unfold State.wantK lowerK
  split
  · exact hc
  · exact (h.2.2 e).2.1

theorem Work.settleK (s : State) : Work s s.settleK := by
  refine ⟨rfl, rfl, rfl, rfl, rfl, ⟨_, _, _, rfl⟩, ⟨_, _, rfl⟩, ⟨_, rfl⟩, ⟨_, rfl⟩, ⟨_, _, rfl⟩, ⟨_, _, _, rfl⟩, ?_, fun _ => rfl, fun _ => rfl, id⟩
  intro h
  refine ⟨h.1, h.2.1, fun e => ?_⟩
  have r := changeK_range (s.power.k[e]) (s.wantK e) (s.kWithheld e) (h.2.2 e).1 (s.wantK_range h e)
  exact ⟨by simpa [State.settleK] using r.1, (h.2.2 e).2.1, fun x hx => r.2 x (by simpa [State.settleK] using hx)⟩

/-! ### Ending work (Work.lean) -/

/-- The end of a command completes it, or leaves it waiting for its record. -/
theorem Work.finishCmd (s : State) (n : Fn) (cid : Nat) (p : Pid) (r : Option (Nat × Nat)) (code : BitVec 16) (st info : Nat) :
    Work s (s.finishCmd n cid p r code st info) := by
  unfold State.finishCmd
  split
  · exact Work.refl _
  · split
    · exact Work.ite (fun _ => Work.complete _ _ _ _ _ _) fun _ => Work.modFunc _ _ _
    · exact Work.complete _ _ _ _ _ _

theorem Work.putRecord (s : State) (p : Pid) (l : Launch) (bs : List Byte) : Work s (s.putRecord p l bs) := by
  have h (t : State) : Work t (t.modPart p fun x => { x with results := x.results.set l.slot (some (BitVec.ofNat 4096 (leNat bs))) }) :=
    Work.modPart t p _ rfl rfl
  exact (Work.siloRecord s p l.raddr bs).trans (h _)

theorem Work.setChain (s : State) (p : Pid) (k : SlotId) (c : List Byte) : Work s (s.setChain p k c) := by
  refine Work.modPart s p _ ?_ ?_ <;> split <;> rfl

theorem Work.stopTiles (s : State) (p : Pid) : Work s (s.stopTiles p) := Work.mapTiles s _ _
theorem Work.dropSync (s : State) (p : Pid) (h : Bool) : Work s (s.dropSync p h) := by
  unfold State.dropSync
  dsimp only
  split
  · exact Work.sync s _ rfl
  · exact Work.trans (Work.sync s _ (by rfl)) (Work.foldl _ (fun _ _ => Work.wakeHosts _ _) _ _)
theorem Work.settleTimes (s : State) (l : Launch) : Work s (s.settleTimes l).1 := Work.skipFree s 2
theorem Work.endHold (s : State) (p : Pid) : Work s (s.endHold p) := Work.mapTiles s _ _

theorem Work.clearLaunch (s : State) (p : Pid) : Work s (s.clearLaunch p) :=
  ((Work.modPart s p _ (by rfl) (by rfl)).trans (Work.endHold _ p)).trans (Work.settleK _)

/-- The end of a launch with an error changes work, storage and completions alone. -/
theorem Work.failLaunch (s : State) (p : Pid) (code : BitVec 16) : Work s (s.failLaunch p code) := by
  unfold State.failLaunch
  dsimp only
  split
  · exact Work.refl _
  · exact Work.trans ((((Work.trans (Work.endEntries s p eAborted) (Work.settleTimes _ _)).trans
      (Work.ite (fun _ => Work.putRecord _ _ _ _) fun _ => Work.refl _)).trans (Work.setChain _ _ _ _)).trans (Work.clearLaunch _ _))
      (Work.finishCmd _ _ _ _ _ _ _ _)

theorem Work.refuseLaunch (s : State) (p : Pid) (code : BitVec 16) : Work s (s.refuseLaunch p code) := by
  unfold State.refuseLaunch
  split
  · exact Work.refl _
  · exact (Work.clearLaunch s p).trans (Work.completeAt _ _ _ _ _ _)

theorem Work.finishSolve (s : State) (p : Pid) (q : QSolve) (r : List Byte) (code : BitVec 16) (st it : Nat) (w : Bool) :
    Work s (s.finishSolve p q r code st it w) := by
  unfold State.finishSolve
  dsimp only
  split
  · exact Work.ite (fun _ => Work.siloRecord s p _ _) fun _ => Work.refl s
  · exact Work.trans (Work.ite (fun _ => Work.siloRecord s p _ _) fun _ => Work.refl s) (Work.finishCmd _ _ _ _ _ _ _ _)

theorem Work.undoSolve (s : State) (e : EngId) (c : ChanId) : Work s (s.undoSolve e c) := by
  unfold State.undoSolve
  split
  · exact Work.refl _
  · exact ((Work.mem s _ fun h => Memory.wf_foldl _ (fun _ _ h => Memory.wf_write _ _ _ h) _ _ h).trans (Work.skipFree _ 1)).trans
      (Work.modChan _ _ _ _)

theorem Work.endChannel (s : State) (e : EngId) (c : ChanId) (code : BitVec 16) (w : Bool) : Work s (s.endChannel e c code w) := by
  unfold State.endChannel
  split
  · exact Work.refl _
  · exact (((Work.undoSolve s e c).trans (Work.modEngine _ _ _)).trans (Work.modChan _ _ _ _)).trans
      (Work.foldl _ (fun _ _ => Work.finishSolve _ _ _ _ _ _ _ _) _ _)

theorem Work.endChannels (s : State) (f : ChanAlloc → Bool) (code : BitVec 16) (w : Bool) : Work s (s.endChannels f code w) := by
  refine Work.foldl _ (fun s e => Work.foldl _ (fun s c => ?_) _ s) _ s
  split
  · exact Work.refl _
  · exact Work.ite (fun _ => Work.endChannel _ _ _ _ _) fun _ => Work.refl _

theorem Work.sendAbort (s : State) (p : Pid) : Work s (s.sendAbort p) := Work.foldl _ (fun _ _ => Work.send _ _ _ _) _ s

theorem Work.endCmds (s : State) (p : Pid) (save : Option (Fn × Nat)) (w : Bool) : Work s (s.endCmds p save w) :=
  Work.foldl _ (fun _ _ => Work.foldl _ (fun _ _ => Work.complete _ _ _ _ _ _) _ _) _ s

/-- Ending the work of a partition leaves every binding and every set-up register. -/
theorem Work.endWork (s : State) (p : Pid) (code : BitVec 16) (save : Option (Fn × Nat)) (w : Bool) : Work s (s.endWork p code save w) := by
  unfold State.endWork
  refine ((Work.stopTiles s p).trans (Work.dropSync _ p true)).trans (Work.trans ?_ ((Work.endChannels _ _ _ _).trans (Work.endCmds _ _ _ _)))
  exact Work.ite (fun _ => Work.failLaunch _ _ _) fun _ => (Work.modPart _ p _ (by rfl) (by rfl)).trans (Work.failLaunch _ _ _)

/-- A tile fault ends its partition's work and changes no set-up register. -/
theorem Work.tileFault (s : State) (t : TileId) (k : FaultSrc) (cause r pc : Nat) (u : Bool) : Work s (s.tileFault t k cause r pc u) := by
  unfold State.tileFault
  dsimp only
  split
  · exact Work.trans (Work.modTile s t _) (Work.modTile _ _ _)
  · exact Work.trans (Work.modTile s t _) (((Work.sendAbort _ _).trans (Work.endWork _ _ _ _ _)).trans (Work.raiseBoth _ _ _ _ _))

theorem Work.coreFaultU (s : State) (t : TileId) (cause a : Nat) (u : Bool) : Work s (s.coreFaultU t cause a u) := by
  unfold State.coreFaultU
  dsimp only
  exact (Work.tileFault s t _ _ _ _ _).trans (Work.modTile _ _ _)

theorem Work.coreFault (s : State) (t : TileId) (cause a : Nat) : Work s (s.coreFault t cause a) := Work.coreFaultU s t cause a false

theorem Work.killLaunch (s : State) (p : Pid) (code : BitVec 16) : Work s (s.killLaunch p code) :=
  Work.ite (fun _ => (((Work.sendAbort s p).trans (Work.stopTiles _ p)).trans (Work.dropSync _ p false)).trans (Work.failLaunch _ p code))
    fun _ => Work.refl s

/-! ### Core instructions (CoreOps.lean) -/

/-- An instruction whose own effect is work is work, whether it faults, waits or goes on. -/
theorem Work.coreInstr (m : String) (i : Instr) (t : TileId) (s u : State) (eff : State → State) (h : coreInstr m i t s eff = .next u)
    (he : ∀ s, Work s (eff s)) : Work s u := by
  obtain ⟨-, rfl | rfl⟩ := coreInstr_cases m i t s u eff h
  · exact (Work.modCore s t _).trans (Work.coreFault _ t _ _)
  · exact (Work.modCore s t _).trans (he _)

theorem Work.coreWait (m : String) (i : Instr) (t : TileId) (s u : State) (b : Bool) (eff : State → State) (h : coreWait m i t s b eff = .next u)
    (he : ∀ s, Work s (eff s)) : Work s u := by
  rcases coreWait_cases m i t s u b eff h with rfl | rfl | rfl
  · exact Work.refl _
  · exact (Work.modCore s t _).trans (Work.coreFault _ t _ _)
  · exact (Work.modCore s t _).trans (he _)

theorem Work.retire (s : State) (t : TileId) (f : Core → Core) : Work s (s.retire t f) := Work.modCore s t _

end Sys2Proof.Machine
end

