-- ==== Sys2Proof/Tests/Slice0.lean ====
section
/-!
SUPPORT. Sys2Proof/Tests/Slice0.lean: small states, the well-formedness smoke test, witnesses that the hypotheses of the statements can be met,
and examples whose expected values stand in the spec or follow from it by hand.
-/
open Sys2Proof Sys2Proof.Machine Sys2Proof.Claims

namespace Sys2Proof.Tests

set_option Elab.async false

/-! ### Small states -/

/-- The outcome is a next state with a property. -/
def after (x : Host.Outcome State Fault Refusal) (f : State → Bool) : Bool :=
  match x with
  | .next u => f u
  | _ => false

/-- The outcome is a fault. -/
def stops (x : Host.Outcome State Fault Refusal) : Bool :=
  match x with
  | .fault _ => true
  | _ => false

/-- An image of one code section of 4,096 B, and nothing else. -/
def image : List Byte :=
  List.replicate 6 0 ++ leBytes 2 1 ++ List.replicate 248 0 ++
    (leBytes 2 1 ++ leBytes 2 0 ++ leBytes 4 1 ++ leBytes 8 320 ++ leBytes 8 4096 ++ leBytes 8 0)

/-- The same with an instruction word at the start of the section. -/
def imageOf (w : Nat) : List Byte := image ++ List.replicate 32 0 ++ leBytes 4 w

/-- A program on the eight tiles of sheaf 0. -/
def job : Program :=
  { image := image, addr := 0, s := 1, t := 8, e := 1, sheafs := [0], tiles := [0, 1, 2, 3, 4, 5, 6, 7], chans := [], chain := [] }

/-- A released launch. -/
def launch : Launch :=
  { slot := 0, fn := 0, cid := 0, at_ := false, nmod := 1, rrec := false, dgst := false, sign := false, rplay := false, seed := 0, step := 0,
    c := 0, raddr := 0, phase := .released, overflow := false, ended := false, whash := 0, ihash := 0,
    flags := { pwr := none, thm := none, tmg := none, mnt := none, cont := none }, tEnd := 0, nextEntry := 0, lwait := none, active := [],
    inbox := [], notices := [], closed := [], sentVerdicts := [], verdicts := [] }

/-- Reset with partition 0 bound to PF0: sheaf 0, granule 0, block 0, ports 0 and 1; nothing waits for a clear; its key is in K0. -/
def bound : State :=
  let s := { State.reset with bind := { State.reset.bind with clrPend := 0, clearing := none, bepoch := 1 },
                              sec := { State.reset.sec with silo := State.reset.sec.silo.set 0 (some 9, none) } }
  s.modPart 0 fun x => { x with entry := { x.entry with
    st := .bound, epoch := 1, sheaves := 1, gran := [0], blk := [0], ports := 15, pshare := 1, jobTag := 7 } }

/-- With the program in slot 0. -/
def loaded : State := bound.modPart 0 fun x => { x with slots := x.slots.set 0 (some job) }

/-- With a launch that runs and the core of tile 0 at its first instruction. -/
def busy : State :=
  (loaded.modPart 0 fun x => { x with launch := some launch, stash := [1, 0, 0, 0] }).modCore 0 fun c => { c with status := .running }

/-- The instruction word w at the program counter. -/
def at_ (w : Nat) (s : State) : State := s.modPart 0 fun x => { x with slots := x.slots.set 0 (some { job with image := imageOf w }) }

theorem busy_issues : Issues busy 0 := ⟨by decide +kernel, by decide +kernel⟩

theorem test_int_add_wraps : after (exec (.inti 0 .add 1 0 0xFFFFFFFFFFFFFFFF) (at_ (wordAt 2 1 0 0 0) busy)) (fun u => (u.core 0).g[1] == 0xFFFFFFFFFFFFFFFF && (u.core 0).pc == 4) = true := by
  decide +kernel

/-! ### Well-formedness: one ill-formed command for each check -/

theorem test_illformed_offset8 : (Instr.registerWrite 0 0x60004 true 0).wellFormed = false := by decide
theorem test_illformed_offset4 : (Instr.registerWrite 0 0x60002 false 0).wellFormed = false := by decide
theorem test_wellformed_offset4 : (Instr.registerWrite 0 0x60004 false 0).wellFormed = true := by decide
theorem test_illformed_read : (Instr.regRead .i3c 0x70004).wellFormed = false := by decide
theorem test_illformed_write : (Instr.regWrite .i3c 0x70004 0).wellFormed = false := by decide
theorem test_illformed_vfs : (Instr.srIovEnable 17).wellFormed = false := by decide
theorem test_illformed_vector : (Instr.msixVectorUnmask 0 128).wellFormed = false := by decide
theorem test_illformed_vector_vf : (Instr.msixVectorUnmask 1 120).wellFormed = false := by decide
theorem test_illformed_piece : (Instr.firmwareDataReceipt (List.replicate 4097 0)).wellFormed = false := by decide +kernel
theorem test_illformed_stamp : (Instr.keepaliveSend (2 ^ 64)).wellFormed = false := by decide
theorem test_wellformed_stamp : (Instr.keepaliveSend (2 ^ 64 - 1)).wellFormed = true := by decide

/-! ### Control core -/

/-- Registers of tile 0 at chosen values. -/
def withG (s : State) (l : List (RegId × Word)) : State :=
  s.modCore 0 fun c => { c with g := l.foldl (fun g x => g.set x.1 x.2) c.g }

def withF (s : State) (l : List (RegId × Word)) : State :=
  s.modCore 0 fun c => { c with f := l.foldl (fun f x => f.set x.1 x.2) c.f }

/-- Bytes in the store of tile 0. -/
def withStore (s : State) (a : Nat) (bs : List Byte) : State := { s with mem := Memory.writeBytes s.mem (tileAddr 0 + a) bs }

theorem witness_arith : arith .add 1 2 = some 3 ∧ arith .div 5 0 = some 0 ∧ arith .rem 5 0 = some 5 ∧
    arith .sub 0 1 = some 0xFFFFFFFFFFFFFFFF ∧ logic .sll 1 65 = some 2 ∧ logic .slt 0xFFFFFFFFFFFFFFFF 0 = some 1 := by decide

theorem test_int_g0 : after (exec (.int 0 .add 0 1 1) (at_ (wordAt 1 0 1 1 0) (withG busy [(1, 7)]))) (fun u => (u.core 0).g[0] == 0 && (u.core 0).pc == 4) = true := by
  decide +kernel

/-- R156: −2^63 divided by −1. -/
theorem test_int_div_overflow : after (exec (.int 0 .div 3 1 2) (at_ (wordAt 1 3 1 2 0) (withG busy [(1, 0x8000000000000000), (2, 0xFFFFFFFFFFFFFFFF)])))
    (fun u => (u.core 0).g[3] == 0x8000000000000000) = true := by decide +kernel

theorem witness_branches : (∃ s, Issues s 0 ∧ taken .eq ((s.core 0).rg 1) ((s.core 0).rg 2)) ∧ ¬ taken .lt 1 0 ∧
    (BitVec.ofNat 64 (busy.core 0).pc + 4092).toNat < busy.codeSize 0 ∧ busy.codeSize 0 ≤ (BitVec.ofNat 64 (busy.core 0).pc + 4096).toNat ∧
    (BitVec.ofNat 64 (busy.core 0).pc + 2 : Word).toNat % 4 ≠ 0 :=
  ⟨⟨busy, busy_issues, by show busy.core 0 |>.rg 1 |> (· = (busy.core 0).rg 2); decide +kernel⟩,
    by show ¬ ((1 : Word).toInt < (0 : Word).toInt); decide, by decide +kernel, by decide +kernel, by decide +kernel⟩

theorem test_branch_taken : after (exec (.br 0 .jump 5 0 0 4092) (at_ (wordAt 4 5 0 0 0) busy)) (fun u => (u.core 0).pc == 4092 && (u.core 0).g[5] == 4) = true := by
  decide +kernel



/-- A word load at the last word of the store, held by nothing; a store; one outside; one misaligned. -/
theorem witness_ls : Issues busy 0 ∧ Memory.wf busy.mem = true ∧
    busy.accessHeld 0 false (2 ^ 22 - 8, 8) = false ∧ busy.accessHeld 0 true (2 ^ 22 - 8, 8) = false :=
  ⟨busy_issues, by decide +kernel, by decide +kernel, by decide +kernel⟩

theorem test_ls_sign : after (exec (.ls 0 { store := false, file := .g, reg := 2, base := 1, offset := 0, size := 0, signed := true } 0)
    (at_ (wordAt 3 2 1 0 0) (withStore busy 0 [0x80]))) (fun u => (u.core 0).g[2] == 0xFFFFFFFFFFFFFF80) = true := by decide +kernel

theorem test_ls_store : after (exec (.ls 0 { store := true, file := .g, reg := 2, base := 1, offset := 2 ^ 22 - 8, size := 3, signed := false } 0)
    (at_ (wordAt 3 2 1 0 0) (withG busy [(2, 0x1122334455667788)]))) (fun u => Memory.read u.mem (tileAddr 0 + 2 ^ 22 - 8) == 0x88 &&
      Memory.read u.mem (tileAddr 0 + 2 ^ 22 - 1) == 0x11) = true := by decide +kernel



/-- 1.5 + 2.25 = 3.75 (R157). -/
theorem test_fp_add : after (exec (.fp 0 .add .rne 3 1 2 0) (at_ (wordAt 5 3 1 2 0) (withF busy [(1, 0x3FF8000000000000), (2, 0x4002000000000000)])))
    (fun u => (u.core 0).f[3] == 0x400E000000000000) = true := by decide +kernel

/-- 1 / −0 is minus infinity (R157). -/
theorem test_fp_div_zero : after (exec (.fp 0 .div .rne 3 1 2 0) (at_ (wordAt 5 3 1 2 0) (withF busy [(1, 0x3FF0000000000000), (2, 0x8000000000000000)])))
    (fun u => (u.core 0).f[3] == 0xFFF0000000000000) = true := by decide +kernel

theorem test_cvt_int : after (exec (.cvt 0 0 0 9 3 1) (at_ (wordAt 6 3 1 0 0x48) (withG busy [(1, 7)]))) (fun _ => true) = true := by decide +kernel

/-- Queues at and below their limits. -/
def mopAt (seq passes loads : Nat) : QMop :=
  { record := 0, aAddr := 0, bAddr := 0, cAddr := 0, offset := 0, pc := 0, seq := seq, passes := passes, loads := loads, issued := 0, lastAt := 0 }

def dmaAt (seq : Nat) (ran : Bool) : QDma := { desc := 0, vtid := 0, veidx := 0, offset := 0, pc := 0, seq := seq, ran := ran }
def updAt (op : UpdOp) (seq : Nat) (ran : Bool) : QUpd := { op := op, offset := 0, pc := 0, seq := seq, ran := ran }

theorem witness_full_queues : ∃ s, Issues s 0 ∧ 8 ≤ (s.tile 0).mops.length ∧ 16 ≤ (s.tile 0).dmas.length ∧ 4 ≤ (s.tile 0).upds.length :=
  ⟨busy.modTile 0 fun y => { y with
      mops := List.replicate 8 (mopAt 0 0 0), dmas := List.replicate 16 (dmaAt 0 false), upds := List.replicate 4 (updAt (.nclr 0) 0 false) },
    ⟨by decide +kernel, by decide +kernel⟩, by decide +kernel, by decide +kernel, by decide +kernel⟩

/-- A DMA descriptor of zeros copies nothing and passes its checks, or is faulted: either way the form runs. -/
theorem test_dma_runs : after (exec (.dma 0 1) (at_ (wordAt 9 0 1 0 0) busy)) (fun _ => true) = true := by decide +kernel



theorem test_nclr_queued : after (exec (.nclr 0 2) (at_ (wordAt 0xC 0 0 0 0x82) busy)) (fun u => decide ((u.tile 0).upds.length = 1) && (u.core 0).uissued == 1) = true := by
  decide +kernel

/-- MWAIT 0 waits for one MOP, MWAIT 1 does not. -/
theorem test_mwait : after (exec (.mwait 0 0) (at_ (wordAt 8 0 0 0 0x80) (busy.modTile 0 fun y => { y with mops := [mopAt 0 0 0] }))) (fun u => (u.core 0).pc == 0) = true ∧
    after (exec (.mwait 0 1) (at_ (wordAt 8 0 0 0 0x81) (busy.modTile 0 fun y => { y with mops := [mopAt 0 0 0] }))) (fun u => (u.core 0).pc == 4) = true :=
  ⟨by decide +kernel, by decide +kernel⟩

/-- SWAIT: a record with DONE = 1 in the silo, one with DONE = 0. -/
theorem witness_swait : ∃ s, Issues s 0 ∧ s.partOfTile 0 = some 0 ∧ Memory.wf s.mem = true ∧ 64 ≤ (s.part 0).siloSize ∧
    s.siloFenced 0 0 64 = false ∧ s.siloBad 0 0 64 = false ∧ leNat (s.siloBytes 0 0 8) % 2 = 1 ∧ s.accessHeld 0 true (0, 64) = false ∧
    leNat (s.siloBytes 0 64 8) % 2 = 0 :=
  ⟨{ busy with mem := [(0, 1)] }, ⟨by decide +kernel, by decide +kernel⟩, by decide +kernel, by decide +kernel, by decide +kernel,
    by decide +kernel, by decide +kernel, by decide +kernel, by decide +kernel, by decide +kernel⟩

theorem test_swait_copies : after (exec (.swait 0 1 2) (at_ (wordAt 0xA 0 1 2 0x40) (withG { busy with mem := [(0, 1), (9, 5)] } [(2, 128)])))
    (fun u => Memory.read u.mem (tileAddr 0 + 137) == 5 && Memory.read u.mem 0 == 1 && (u.core 0).pc == 4) = true := by decide +kernel

/-- Sync references: a good one, one outside the partition's objects, a remote one. -/
theorem witness_refs : busy.partOfTile 0 = some 0 ∧
    ¬ (bits (1023 : Word) 31 16 ≠ 0 ∨ bits (1023 : Word) 62 48 ≠ 0 ∨ (bit (1023 : Word) 63 = false ∧ bits (1023 : Word) 47 32 ≠ 0) ∨
      (busy.part 0).entry.blk.length ≤ (bits (1023 : Word) 15 0) / 1024) ∧
    (busy.part 0).entry.blk.length ≤ (bits (1024 : Word) 15 0) / 1024 ∧ bit (0x8000000000000000 : Word) 63 = true :=
  ⟨by decide +kernel, by decide +kernel, by decide +kernel, by decide +kernel⟩

theorem test_stake_waits : after (exec (.stake 0 3 1 2) (at_ (wordAt 0xB 3 1 2 0x40) busy)) (fun u => decide ((u.core 0).status = .waiting) && decide (u.sync.sent.length = 1)) = true := by
  decide +kernel

theorem test_ssig_goes_on : after (exec (.ssig 0 0 1 2) (at_ (wordAt 0xB 0 1 2 0) busy)) (fun u => (u.core 0).pc == 4 && decide (u.sync.sent.length = 1)) = true := by
  decide +kernel

/-- R172: VCLAIM grants at most 2,048 × GRP / EW elements: 64 of 32 bits with GRP 1, 2,048 of 8 bits with GRP 8. -/
theorem test_vclaim : after (exec (.vclaim 0 3 1 .e32 .g1) (at_ (wordAt 0x10 3 1 0 0x008) (withG busy [(1, 5000)]))) (fun u => (u.core 0).g[3] == 64) = true ∧
    after (exec (.vclaim 0 3 1 .e8 .g8) (at_ (wordAt 0x10 3 1 0 0x0C0) (withG busy [(1, 5000)]))) (fun u => (u.core 0).g[3] == 2048) = true :=
  ⟨by decide +kernel, by decide +kernel⟩

theorem witness_csr : ∃ s, Issues s 0 ∧ (s.core 0).awake = true ∧ (s.core 0).vidle ≠ 0 := ⟨busy, busy_issues, by decide +kernel, by decide +kernel⟩

/-- VIDLE takes 64 and leaves 63. -/
theorem test_vidle : after (exec (.csrw 0 .vidle 1) (at_ (wordAt 0xD 0 1 0 0x222) (withG busy [(1, 64)]))) (fun u => (u.core 0).vidle == 64) = true ∧
    after (exec (.csrw 0 .vidle 1) (at_ (wordAt 0xD 0 1 0 0x222) (withG busy [(1, 63)]))) (fun u => (u.core 0).vidle == 4096) = true := ⟨by decide +kernel, by decide +kernel⟩

/-- HALT with nothing in flight, with a MOP in flight, inside a region. -/
def someRegion : Region := { rid := 0, rung := 0, table := [], snapG := Vector.replicate 32 0, snapF := Vector.replicate 32 0, flag := false }

theorem witness_halt : (busy.core 0).region = none ∧ (busy.tile 0).mops = [] ∧
    (∃ s, Issues s 0 ∧ (s.core 0).region = some someRegion) :=
  ⟨by decide +kernel, by decide +kernel,
    ⟨busy.modCore 0 fun c => { c with region := some someRegion }, ⟨by decide +kernel, by decide +kernel⟩, by decide +kernel⟩⟩

theorem test_halt : after (exec (.halt 0) (at_ (wordAt 0xD 0 0 0 0x7FF) busy)) (fun u => decide ((u.core 0).status = .halted)) = true := by decide +kernel

theorem test_span : after (exec (.rcmpb 0) (at_ (wordAt 0xD 0 0 0 0x782) busy)) (fun u => (u.core 0).span) = true := by decide +kernel

/-- The stash of the busy partition holds 1 of quota 0: giving back 1 is allowed. -/
theorem test_stash : after (exec (.stashr 0 1 2) (at_ (wordAt 0xD 0 1 2 0x785) (withG busy [(2, 1)]))) (fun u => (u.part 0).stash == [0, 0, 0, 0]) = true := by
  decide +kernel

/-- Two elements of 16 bits: VL 2. -/
def vectors : State := busy.modCore 0 fun c => { c with vl := 2, vew := 1, v := (c.v.set 1 0x00018000).set 2 0x00018000 }

theorem witness_shape : Issues vectors 0 ∧ (vectors.core 0).shapeOk .e16 false [3, 1, 2] = true ∧
    (vectors.core 0).shapeOk .e32 false [3, 1, 2] = false :=
  ⟨⟨by decide +kernel, by decide +kernel⟩, by decide +kernel, by decide +kernel⟩

/-- R178, R180: −32,768 × −32,768 in Q15 saturates and sets VSAT. -/
theorem test_vfmulh_saturates : after (exec (.vint 0 { fn := .vfmulh, vd := 3, vs1 := 1, vs2 := 2, frm := .rne, ew := .e16, mask := false, short := false })
    (at_ (wordAt 0x12 3 1 2 0x214) vectors)) (fun u => (u.core 0).elem 3 16 0 == 0x7FFF && (u.core 0).vsat) = true := by decide +kernel

theorem test_vls : after (exec (.vls 0 { store := true, vreg := 1, base := 4, ew := .e16, mask := false }) (at_ (wordAt 0x11 0 0 0 0) vectors))
    (fun u => Memory.read u.mem (tileAddr 0 + 1) == 0x80 && Memory.read u.mem (tileAddr 0 + 2) == 1) = true := by decide +kernel

theorem witness_elements : (0 : Nat) + 1 ≤ 32 ∧ ([(0, 5), (127, 6)].map (·.1)).Nodup ∧
    ∀ x ∈ [(0, 5), (127, 6)], ewBits .e16 * (x.1 + 1) ≤ 2048 * 1 := by decide

/-- R179: 2.5 rounds to 3, 2, 2 and 3; −0.5 to 0, 0, −1 and −1. -/
theorem test_rounding : frmRound .rnu 5 1 = 3 ∧ frmRound .rne 5 1 = 2 ∧ frmRound .rdn 5 1 = 2 ∧ frmRound .rod 5 1 = 3 ∧
    frmRound .rnu (-1) 1 = 0 ∧ frmRound .rne (-1) 1 = 0 ∧ frmRound .rdn (-1) 1 = -1 ∧ frmRound .rod (-1) 1 = -1 := by decide

/-- Words written from the tables: FUNC 0x021 of class SYS is a CSRR of VSTAT, 0x221 a CSRW of it, 0x7FF HALT (R165); VCLAIM g3, g1 with 16-bit
elements and groups of 2 (R172); a short VFMULH of pairs 2 and 3 to nearest even (R178). -/
theorem test_words : coreCommand 5 0x34E00021 = some (.csrr 5 7 .vstat) ∧ coreCommand 5 0x34070221 = some (.csrw 5 .vstat 7) ∧
    coreCommand 5 0x340007FF = some (.halt 5) ∧ coreCommand 5 0x40610044 = some (.vclaim 5 3 1 .e16 .g2) ∧
    coreCommand 5 0x48221A15 = some (.vint 5 { fn := .vfmulh, vd := 1, vs1 := 2, vs2 := 3, frm := .rne, ew := .e16, mask := false, short := true }) ∧
    coreCommand 5 0 = none ∧ coreCommand 5 0x34000220 = none ∧ coreCommand 5 0x48221A17 = none := by decide +kernel

theorem witness_fetches : Fetches (at_ (wordAt 8 0 0 0 0x80) busy) 0 (.mwait 0 0) ∧ ¬ Fetches busy 0 (.mwait 0 0) ∧
    Issues (at_ (wordAt 8 0 0 0 0x80) busy) 0 ∧ (busy.core 0).pc < busy.codeSize 0 ∧ majorReserved (wMajor 0) :=
  ⟨by unfold Fetches; decide +kernel, by unfold Fetches; decide +kernel, ⟨by decide +kernel, by decide +kernel⟩, by decide +kernel, Or.inl (by decide)⟩

theorem witness_code_end : ∃ s : State, s.issuing 0 = true ∧ s.codeSize 0 ≤ (s.core 0).pc :=
  ⟨busy.modCore 0 fun c => { c with pc := 4096 }, by decide +kernel, by decide +kernel⟩




/-! ### Arrays, tile DMA, update unit, solve engine -/

def words (l : List Nat) : List Byte := l.flatMap fun w => leBytes 8 w

/-- FX18 with FX16 operands, one element each, FX32 result: A at 0x10000, B at 0x20000, C at 0x30000, scales at 0x40000 (R60). -/
def mopWords : List Nat := [3 * 2 ^ 60 + 7 * 2 ^ 48 + 7 * 2 ^ 44 + 8 * 2 ^ 40, 0x10000 * 2 ^ 32 + 0x20000, 0x30000 * 2 ^ 32 + 0x40000, 0]

def aMop (passes loads : Nat) : QMop :=
  { record := BitVec.ofNat 256 (leNat (words mopWords)), aAddr := 0x10000, bAddr := 0x20000, cAddr := 0x30000, offset := 64, pc := 0,
    seq := 0, passes := passes, loads := loads, issued := 0, lastAt := 0 }

/-- A tile-to-tile copy of 16 FP32 elements from 0x1000 to 0x2000 (R167). -/
def dmaWords : List Nat :=
  [3 * 2 ^ 60 + 1 * 2 ^ 48 + 1 * 2 ^ 44, 16, 0x1000, 0x2000, 0, 0x3F8000003F800000, 0, 0]

def aDma (ran : Bool) : QDma :=
  { desc := BitVec.ofNat 512 (leNat (words dmaWords)), vtid := 0, veidx := 0, offset := 64, pc := 0, seq := 0, ran := ran }

/-- Gradient descent on two FP32 weights at 0x1000, gradients at 0x2000, first moments at 0x3000, learning rate 0.5 (R184). -/
def wupdWords : List Nat :=
  [1 * 2 ^ 56 + 1 * 2 ^ 52 + 1, 0, 0, 0x1000 * 2 ^ 32, 0x2000 * 2 ^ 32, 0x3000 * 2 ^ 32, 0x3F000000 * 2 ^ 32, 0, 0, 0,
    0x3F800000 * 2 ^ 32, 0, 0, 0, 0, 0]

def aWupd (ran : Bool) : QUpd := { op := .wupd (BitVec.ofNat 1024 (leNat (words wupdWords))), offset := 128, pc := 0, seq := 0, ran := ran }

/-- A descriptor in the store, g1 at it. -/
def record (l : List Nat) (off : Word) : State := withStore (withG busy [(1, off)]) off.toNat (words l)

theorem test_mop_issued : after (exec (.mop 0 1) (at_ (wordAt 8 0 1 0 0x40) (record mopWords 64))) (fun u => (u.tile 0).mops == [aMop 0 0] && (u.core 0).missued == 1) = true := by
  decide +kernel

theorem test_dma_issued : after (exec (.dma 0 1) (at_ (wordAt 9 0 1 0 0) (record dmaWords 64))) (fun u => (u.tile 0).dmas == [aDma false] && (u.core 0).dissued == 1) = true := by
  decide +kernel

theorem test_wupd_issued : after (exec (.wupd 0 1) (at_ (wordAt 0xC 0 1 0 0) (record wupdWords 128))) (fun u => (u.tile 0).upds == [aWupd false]) = true := by
  decide +kernel

theorem witness_engine_issue : Issues (record mopWords 64) 0 ∧ (record mopWords 64).mopCheck 0 (aMop 0 0) = none ∧
    Issues (record dmaWords 64) 0 ∧ (∀ p, (record dmaWords 64).partOfTile 0 = some p → (record dmaWords 64).dmaCheck p (aDma false).dma = none) ∧
    Issues (record wupdWords 128) 0 ∧ ((record wupdWords 128).core 0).region = none ∧
    (∀ p, (record wupdWords 128).partOfTile 0 = some p →
      (record wupdWords 128).wupdCheck p ((record wupdWords 128).imageOf 0) (wupdOf (BitVec.ofNat 1024 (storeNum (record wupdWords 128) 0 128 128))) = none) ∧
    fp64Scale 0x3FF0000000000000 = true :=
  ⟨⟨by decide +kernel, by decide +kernel⟩, by decide +kernel, ⟨by decide +kernel, by decide +kernel⟩,
    by intro p h; have : p = 0 := by
         have e : (record dmaWords 64).partOfTile 0 = some 0 := by decide +kernel
         rw [e] at h; exact (Option.some.inj h).symm
       subst this; decide +kernel,
    ⟨by decide +kernel, by decide +kernel⟩, by decide +kernel,
    by intro p h; have : p = 0 := by
         have e : (record wupdWords 128).partOfTile 0 = some 0 := by decide +kernel
         rw [e] at h; exact (Option.some.inj h).symm
       subst this; decide +kernel,
    by decide +kernel⟩

/-- Queues of tile 0 and its array at a level. -/
def withQueues (s : State) (m : List QMop) (d : List QDma) (u : List QUpd) (lvl : Fin 9) : State :=
  s.modTile 0 fun y => { y with mops := m, dmas := d, upds := u, array := { y.array with level := lvl } }

def withArray (s : State) (f : ArrayState → ArrayState) : State := s.modTile 0 fun y => { y with array := f y.array }

/-- An event of tile 0's array. -/
def at0 (ac : Nat) : ArrayAt := { tile := 0, ac := ac }

/-- The load level rises for a waiting MOP after 16 ac, falls with nothing to do after 80; a hint raises it and lapses after 4,096 ns. -/
theorem test_load_level : after (exec (.loadLevelStep (at0 16)) (withQueues busy [aMop 0 0] [] [] 0)) (fun u => (u.tile 0).array.level == 1) = true ∧
    after (exec (.loadLevelStep (at0 80)) (withQueues busy [] [] [] 8)) (fun u => (u.tile 0).array.level == 7) = true ∧
    stops (exec (.loadLevelStep (at0 80)) busy) = true ∧ stops (exec (.loadLevelStep (at0 15)) (withQueues busy [aMop 0 0] [] [] 0)) = true :=
  ⟨by decide +kernel, by decide +kernel, by decide +kernel, by decide +kernel⟩

def hinted : State := withArray busy fun a => { a with hint := some 0, hintNext := 256 }

theorem test_hint : after (exec (.hintRampStep { tile := 0, now := 256 }) hinted) (fun u => (u.tile 0).array.level == 1) = true ∧
    stops (exec (.hintRampStep { tile := 0, now := 255 }) hinted) = true ∧
    after (exec (.hintLapse 0 4096) hinted) (fun u => (u.tile 0).array.hintOver) = true ∧ stops (exec (.hintLapse 0 4095) hinted) = true :=
  ⟨by decide +kernel, by decide +kernel, by decide +kernel, by decide +kernel⟩

def ramping : State := withArray busy fun a => { a with level := 7, ramp := true }

theorem witness_load_level : (aMop 0 0).passes < (aMop 0 0).mop.fK * (aMop 0 0).mop.fN * (aMop 0 0).mop.perBlock ∧
    ((withQueues busy [aMop 0 0] [] [] 0).tile 0).mopHeld (aMop 0 0) = false ∧ (aMop 0 0).issued = 0 ∧
    (hinted.tile 0).array.hint = some 0 ∧ (hinted.tile 0).array.hintOver = false ∧ (busy.tile 0).array.hint = none ∧
    (busy.tile 0).array.level = 0 ∧ (busy.tile 0).mops = [] ∧ busy.heldRegion 0 = none ∧ (busy.tile 0).array.slot = none ∧
    (ramping.tile 0).array.ramp = true ∧ (ramping.tile 0).array.level = 7 ∧ (ramping.tile 0).array.stepAt + 16 ≤ 16 ∧
    (0 : Nat) + 4096 ≤ (hinted.at_ 4096).now ∧ (hinted.at_ 4095).now < 0 + 4096 ∧ (hinted.tile 0).array.hintNext ≤ (hinted.at_ 4096).now :=
  ⟨by decide +kernel, by decide +kernel, rfl, by decide +kernel, by decide +kernel, by decide +kernel, by decide +kernel, by decide +kernel,
    by decide +kernel, by decide +kernel, by decide +kernel, by decide +kernel, by decide +kernel, by decide +kernel, by decide +kernel,
    by decide +kernel⟩

/-- Pass order of R68 and R92: an M32F MOP of 97 × 97 has two K-folds and two N-folds of three passes; block (0,1) is third in
forward use and second in transposed use. -/
def folded (dir : Bool) : Mop := { mopOf 0 with amode := 4, dir := dir, m := 1, n := 97, k := 97 }

theorem test_pass_order : (folded false).passes = 12 ∧
    (folded false).pass 8 = { kFold := 0, nFold := 1, partA := 0, partB := 0, segA := 1, segB := 0 } ∧
    (folded true).pass 4 = { kFold := 0, nFold := 1, partA := 0, partB := 0, segA := 0, segB := 1 } := by decide

/-- A block is loaded 96 ac after its MOP's issue, its pass starts; a resident block is not loaded again. -/
theorem test_block_load : after (exec (.blockLoad (at0 96)) (withQueues busy [aMop 0 0] [] [] 8))
    (fun u => (u.tile 0).array.shadow.isSome && (u.tile 0).mops == [aMop 0 1]) = true ∧
    stops (exec (.blockLoad (at0 95)) (withQueues busy [aMop 0 0] [] [] 8)) = true := ⟨by decide +kernel, by decide +kernel⟩

/-- A weight register holds the 18-bit weight 5 of row 0 and column 0. -/
theorem test_weight_word : (withStore busy 0x20000 [5]).weightWord 0 (aMop 0 0) ((aMop 0 0).mop.pass 0) 0 0 = 5 := by decide +kernel

def aBlock : WeightBlock := { key := { bAddr := 0x20000, amode := 3, fmtB := 7, index := 0 }, seg := 0, words := [] }

def shadowed : State := withArray (withQueues busy [aMop 0 1] [] [] 8) fun a => { a with ac := 96, shadow := some aBlock }

def kept : State := withArray (withQueues busy [aMop 0 0] [] [] 8) fun a => { a with keep := true, active := some aBlock }

theorem test_pass_start : after (exec (.passStart (at0 96) 2) shadowed)
    (fun u => (u.tile 0).array.shadow.isNone && (u.tile 0).mops == [{ aMop 1 1 with lastAt := 96 }] && (u.tile 0).retryCnt == 2) = true ∧
    after (exec (.passStart (at0 0) 0) kept) (fun u => (u.tile 0).mops == [aMop 1 1]) = true ∧ stops (exec (.blockLoad (at0 96)) kept) = true :=
  ⟨by decide +kernel, by decide +kernel, by decide +kernel⟩

theorem witness_passes : (shadowed.tile 0).mops = [] ++ aMop 0 1 :: [] ∧ (aMop 0 1).total = 1 ∧ (shadowed.tile 0).mopHeld (aMop 0 1) = false ∧
    (shadowed.tile 0).array.slot = none ∧ (shadowed.tile 0).array.stagger = none ∧ (shadowed.tile 0).array.ac ≤ 96 ∧
    (kept.tile 0).mops = [] ++ aMop 0 0 :: [] ∧ (kept.tile 0).mopHeld (aMop 0 0) = false ∧
    (kept.tile 0).array.active = some aBlock ∧ (busy.tile 0).lanesChange (aMop 0 0) = false :=
  ⟨by decide +kernel, by decide +kernel, by decide +kernel, by decide +kernel, by decide +kernel, by decide +kernel, by decide +kernel,
    by decide +kernel, by decide +kernel, by decide +kernel⟩

/-- 3 × 5 = 15 in C with the scale 1.0, from 1 + 202 ac after the first feed; the byte after it stays. -/
def done : State := withStore (withStore (withStore (withStore (withQueues busy [aMop 1 1] [] [] 8) 0x10000 [3]) 0x20000 [5]) 0x30004 [9]) 0x40008 (leBytes 4 0x3F800000)

theorem test_mop_complete : after (exec (.mopComplete (at0 203)) done) (fun u => Memory.read u.mem (tileAddr 0 + 0x30000) == 15 &&
    Memory.read u.mem (tileAddr 0 + 0x30004) == 9 && (u.core 0).mdone == 1 && (u.tile 0).mops == []) = true ∧
    stops (exec (.mopComplete (at0 202)) done) = true := ⟨by decide +kernel, by decide +kernel⟩

theorem witness_mop_results : Memory.wf done.mem = true ∧ (done.tile 0).mops = aMop 1 1 :: [] ∧ (aMop 1 1).passes = (aMop 1 1).total ∧
    (aMop 1 1).lastAt + (aMop 1 1).mop.m + 202 ≤ 203 ∧ (done.tile 0).array.ac = 0 ∧
    (aMop 0 0).passes < (aMop 0 0).total ∧ (busy.tile 0).mops = [] :=
  ⟨by decide +kernel, by decide +kernel, by decide +kernel, by decide +kernel, by decide +kernel, by decide +kernel, by decide +kernel⟩

/-- The copy runs, then completes. -/
theorem test_dma_run : after (exec (.dmaTransferRun 0) (withStore (withQueues busy [] [aDma false] [] 0) 0x103F [7]))
    (fun u => Memory.read u.mem (tileAddr 0 + 0x203F) == 7 && (u.tile 0).dmas == [aDma true]) = true ∧
    after (exec (.dmaTransferComplete 0) (withQueues busy [] [aDma true] [] 0)) (fun u => (u.core 0).ddone == 1 && (u.tile 0).dmas == []) = true :=
  ⟨by decide +kernel, by decide +kernel⟩

def dmaState : State := withQueues busy [] [aDma false] [] 0

theorem witness_transfer : (dmaState.tile 0).dmas = aDma false :: [] ∧ dmaState.partOfTile 0 = some 0 ∧
    dmaState.dmaHeld 0 (aDma false) = false ∧ (aDma false).dma.siloRanges = [] ∧ dmaState.dmaBadAt 0 (aDma false).dma = none ∧
    (aDma false).dma.opc = 3 ∧ Memory.wf dmaState.mem = true ∧ (aDma true).ran = true :=
  ⟨by decide +kernel, by decide +kernel, by decide +kernel, by decide +kernel, by decide +kernel, by decide +kernel, by decide +kernel, rfl⟩

/-- W = 1 − 0.5 × 1 = 0.5 for the first weight; the second stays 0 (R186). -/
theorem test_update_run : after (exec (.updateOperationRun 0 0) (withStore (withStore (withQueues busy [] [] [aWupd false] 0)
      0x1000 (leBytes 4 0x3F800000)) 0x2000 (leBytes 4 0x3F800000)))
    (fun u => leNat (Memory.readBytes u.mem (tileAddr 0 + 0x1000) 8) == 0x3F000000 && (u.tile 0).upds == [aWupd true]) = true := by
  decide +kernel

theorem test_update_complete : after (exec (.updateOperationComplete 0) (withQueues busy [] [] [aWupd true] 0))
    (fun u => (u.core 0).udone == 1 && (u.tile 0).upds == []) = true := by decide +kernel

/-- R190: the square of 2^-172, the smallest scaled step, is one unit; 1.0 is 2^344. -/
theorem test_norm : after (exec (.updateOperationRun 0 0) (withStore (withQueues busy [] []
      [{ op := .nsq 0x1000 1 0x3FF0000000000000 1 2, offset := 0, pc := 0, seq := 0, ran := false }] 0) 0x1000 (leBytes 4 0x3F800000)))
    (fun u => ((u.tile 0).norms[(2 : Fin 4)]).value == BitVec.ofNat 704 (2 ^ 344)) = true := by decide +kernel

theorem witness_updates : ∀ z ∈ [updAt (.nclr 1) 0 false, updAt (.nst 128 1) 0 false, updAt (.nadd 128 1) 0 false,
      updAt (.nsq 64 1 0x3FF0000000000000 1 1) 0 false, aWupd false],
    ((withQueues busy [] [] [z] 0).tile 0).upds = [z] ∧ ((withQueues busy [] [] [z] 0).tile 0).updHeld z = false ∧
      (withQueues busy [] [] [z] 0).partOfTile 0 = some 0 := by decide +kernel

/-! Solve: a pattern of one row, one channel. -/

def pattern : List Byte :=
  List.replicate 8 0 ++ leBytes 4 1 ++ List.replicate 4 0 ++ leBytes 8 1 ++ leBytes 8 1 ++ List.replicate 32 0 ++ leBytes 8 128 ++ leBytes 8 192 ++
    leBytes 8 256 ++ leBytes 8 320 ++ List.replicate 32 0 ++ words [0, 1, 0, 0, 0, 0, 0, 0] ++ List.replicate 192 0

/-- OP 1, cap 1, 2^-1, no deltas; RHS at 0, SOL at 64, STAT at 128. -/
def solveRecord (op : Nat) : BitVec 512 := BitVec.ofNat 512 (leNat (words [op * 2 ^ 60 + 2 ^ 40 + 2 ^ 32, 0, 0, 64, 0, 0, 128, 0]))

def chanOf : ChanAlloc :=
  { pid := 0, slot := 0, lse := 0, lch := 0, hostOwn := false, tau := 0, refresh := 0, pattern := pattern, valAddr := 1024, facAddr := 2048,
    lastAdr := 3072, fprint := 0 }

def qOf (op : Nat) : QSolve := { record := solveRecord op, issuer := .tile 0 }

def solving (op : Nat) : State := busy.modChan 0 0 fun c => { c with alloc := some chanOf, queue := [qOf op] }

def noFactor : FactorBefore := { factor := Factor.reset, nreg := 0, pivots := [], age := 0, region := [] }

def ran : State := ((solving 1).modChan 0 0 fun c => { c with run := some { cmd := qOf 1, record := 1, undo := [], warm := none, before := noFactor } }).modEngine 0
  fun e => { e with running := some 0 }

/-- A good command, one with an unknown operation; a run at its end. -/
theorem witness_solve : ((solving 1).engine 0).running = none ∧ ((solving 1).engine 0).nextChan = some (0, chanOf, qOf 1) ∧
    (solving 1).solveCheck 0 0 chanOf (qOf 1) = none ∧
    (solving 1).inputFault chanOf ((solving 1).chan 0 0).factor.st (qOf 1).record = none ∧
    (solving 1).holdWrites 0 (solveTargets chanOf 0 (qOf 1).record) = none ∧
    ((solving 3).engine 0).nextChan = some (0, chanOf, qOf 3) ∧ (solving 3).solveCheck 0 0 chanOf (qOf 3) = some eField ∧
    (busy.engine 0).nextChan = none ∧ (solving 1).engineMoults 0 = false ∧ (ran.engine 0).running = some 0 ∧ (ran.chan 0 0).alloc = some chanOf ∧ (ran.chan 0 0).run ≠ none :=
  ⟨by decide +kernel, by decide +kernel, by decide +kernel, by decide +kernel, by decide +kernel, by decide +kernel, by decide +kernel,
    by decide +kernel, by decide +kernel, by decide +kernel, by decide +kernel⟩

theorem test_solve_end : after (exec (.solveCommandEnd 0 7) ran) (fun u => leNat (Memory.readBytes u.mem ((u.part 0).devAddr 128) 8) == 1 &&
    (u.chan 0 0).queue == [] && decide ((u.engine 0).running = none)) = true := by decide +kernel

/-! ### Sync objects, barriers, global time -/

/-- Object o of the partition's block. -/
def withObj (s : State) (o : Nat) (b : BitVec 128) : State := { s with sync := { s.sync with objs := [(o, b)] } }

/-- An operation of tile 0 on object 5 that has left the core. -/
def opSent (op : SyncOp) (remote : Option ModId) : SyncSent :=
  { id := 0, src := 0, pid := 0, remote := remote, index := 5, op := op, needM := 0, needD := 0, needU := 0, needX := 0, issue := 0, reply := true }

def waiting (s : State) (r : Resume) : State := s.modCore 0 fun c => { c with status := .waiting, resume := some r }

def arriving (op : SyncOp) (b : BitVec 128) : State :=
  let s := waiting (withObj busy 5 b) (.status 3)
  { s with sync := { s.sync with sent := [opSent op none], nextId := 1 } }

/-- SIGNAL 3 makes 2 into 5; one past 2^32 − 1 is E_RANGE; a TAKE of more than there is waits. -/
theorem test_signal : after (exec (.syncOperationArrival 0 0) (arriving (.signal 3) 2)) (fun u => u.obj 5 == 5 && (u.core 0).g[3] == 0 &&
      (u.core 0).pc == 4) = true ∧
    after (exec (.syncOperationArrival 0 0) (arriving (.signal 1) 0xFFFFFFFF)) (fun u => u.obj 5 == 0xFFFFFFFF && (u.core 0).g[3] == 0x0105) = true ∧
    after (exec (.syncOperationArrival 0 0) (arriving (.take 3) 2)) (fun u => u.obj 5 == 2 && u.sync.waits.length == 1) = true :=
  ⟨by decide +kernel, by decide +kernel, by decide +kernel⟩

theorem witness_sync : let s := arriving (.signal 3) 2
    Tab.wf 0 s.sync.objs = true ∧ (∀ w ∈ s.sync.waits, w.obj ≠ 5) ∧ s.fenced .syncBlock (5 / 1024) = false ∧
    s.sync.sent.find? (fun y => decide (y.id = 0)) = some (opSent (.signal 3) none) ∧ (s.core 0).resume = some (.status 3) ∧
    (s.part 0).objOf 5 = some 5 ∧ (s.at_ 0).sendDue (opSent (.signal 3) none) = true ∧ (s.at_ 0).inOrder 5 (s.tileRank 0) = true := by
  decide +kernel

def descr (l : List Nat) : BitVec 512 := BitVec.ofNat 512 (leNat (words l))

/-- Ring pair 0 of PF0 enabled with 64 entries each; commands fetched from it. -/
def ringed (s : State) : State := s.modRing 0 0 fun r => { r with en := true, cqlog := 6, sqlog := 6, cqBase := 0x1000, phase := true }

def fetched (s : State) (l : List (List Nat)) : State :=
  (ringed s).modFunc 0 fun f => { f with nextCid := l.length, cmds := l.zipIdx.map fun x =>
    { cid := x.2, ring := 0, desc := descr x.1, phase := .fetched } }

def cmdOf (l : List Nat) : Cmd := { cid := 0, ring := 0, desc := descr l, phase := .fetched }

/-- SIGNAL of 3 to object 5, WAIT for a count of 7 on it. -/
def signalDesc : List Nat := [0x30 * 2 ^ 56, 5, 0, 3]
def waitDesc : List Nat := [0x31 * 2 ^ 56, 5, 0, 7]

theorem test_host_signal : after (exec (.signal 0 0) (fetched bound [signalDesc])) (fun u => u.obj 5 == 3 && (u.func 0).cmds == [] &&
    (u.ring 0 0).cqTail == 1) = true := by decide +kernel

theorem test_host_wait : after (exec (.wait 0 0) (fetched bound [waitDesc])) (fun u => u.sync.waits.length == 1 && (u.ring 0 0).cqTail == 0) = true := by
  decide +kernel

theorem witness_host_sync : bound.partOfFn 0 = some 0 ∧ (fetched bound [signalDesc]).dueCmd 0 0 0x30 = some (cmdOf signalDesc) ∧
    copiesDone ((fetched bound [signalDesc]).func 0).cmds (cmdOf signalDesc) = true ∧
    signalCheck (fetched bound [signalDesc]) 0 (cmdOf signalDesc).desc = none ∧
    (fetched bound [signalDesc]).refRemote (dw (cmdOf signalDesc).desc 1) = none ∧
    ((fetched bound [signalDesc]).part 0).objOf (refIndex (dw (cmdOf signalDesc).desc 1)).toNat = some 5 ∧
    syncOutcome (signalOp (cmdOf signalDesc).desc) 0 = some (0, 3) ∧
    (fetched bound [waitDesc]).dueCmd 0 0 0x31 = some (cmdOf waitDesc) ∧
    waitCheck (fetched bound [waitDesc]) 0 (cmdOf waitDesc).desc = none ∧ waitOp (cmdOf waitDesc).desc = .take 7 := by
  decide +kernel

/-- A member barrier of generation 7 that expects two arrivals, LNCH as given; tile 0 waits at it. -/
def barrier (lnch : Bool) : BitVec 128 :=
  BitVec.ofNat 128 (1 * 2 ^ 126 + (if lnch then 2 ^ 124 else 0) + 3 * 2 ^ 96 + 7 * 2 ^ 80 + 2 * 2 ^ 42 + 2 ^ 21)

def atBarrier (lnch : Bool) : State :=
  let s := waiting (withObj busy 5 (barrier lnch)) (.status 3)
  { s with sync := { s.sync with waits := [{ obj := 5, who := .tile 0, op := .arrive false, stamp := 0, issue := 0 }] } }

def rel (gen : BitVec 16) (r : Option Nat) : Release := { gen := gen, flag := true, r := r }

/-- A release of generation 7 resumes the tile with FLAG and raises GEN; one of generation 6 does nothing. -/
theorem test_release : after (exec (.barrierReleaseReceipt 0 5 (rel 7 none) 0) (atBarrier false))
      (fun u => objGen (u.obj 5) == 8 && objArrived (u.obj 5) == 0 && (u.core 0).g[3] == 0x10000 && (u.core 0).pc == 4) = true ∧
    after (exec (.barrierReleaseReceipt 0 5 (rel 6 none) 0) (atBarrier false)) (fun u => u.sync.waits.length == 1) = true :=
  ⟨by decide +kernel, by decide +kernel⟩

/-- A launch barrier: R ahead is kept, R behind takes effect at once. -/
theorem test_launch_release : after (exec (.barrierReleaseReceipt 0 5 (rel 7 (some 5000)) 10) (atBarrier true))
      (fun u => u.sync.pends == [{ obj := 5, pid := 0, r := 5000, flag := true, hinted := false }]) = true ∧
    after (exec (.barrierReleaseReceipt 0 5 (rel 7 (some 9)) 10) (atBarrier true)) (fun u => objGen (u.obj 5) == 8 && u.time.lateRel == 1) = true :=
  ⟨by decide +kernel, by decide +kernel⟩

theorem witness_barrier : ∀ lnch : Bool, let s := atBarrier lnch
    Tab.wf 0 s.sync.objs = true ∧ tilesWait s 5 ∧ (s.part 0).objOf (5 : BitVec 16).toNat = some 5 ∧ (s.part 0).entry.st = .bound ∧
    objKind (s.obj 5) = 1 ∧ objRoot (s.obj 5) = false ∧ objUp (s.obj 5) ≠ 0xFFFF ∧ objGen (s.obj 5) = 7 ∧ objLnch (s.obj 5) = lnch ∧
    objGen (s.obj 5) ≠ 6 ∧ (s.at_ 10).now = 10 := by
  intro lnch
  refine ⟨by cases lnch <;> decide +kernel, ?_, by cases lnch <;> decide +kernel⟩
  intro w hw _
  have h : (atBarrier lnch).sync.waits = [{ obj := 5, who := .tile 0, op := .arrive false, stamp := 0, issue := 0 }] := by
    cases lnch <;> decide +kernel
  rw [h, List.mem_singleton] at hw
  exact ⟨0, 3, by rw [hw], by cases lnch <;> decide +kernel⟩

def pending : State :=
  let s := atBarrier true
  { s with sync := { s.sync with pends := [{ obj := 5, pid := 0, r := 5000, flag := true, hinted := false }] } }

/-- The hint of R = 5,000 is due from 2,952, the release from 5,000; the stagger of logical tile 0 is 0. -/
theorem test_pending : stops (exec (.launchBarrierHint 5 2951) pending) = true ∧
    after (exec (.launchBarrierHint 5 2952) pending) (fun u => decide ((u.tile 0).array.hint = some 2952)) = true ∧
    stops (exec (.launchBarrierRelease 5 4999) pending) = true ∧
    after (exec (.launchBarrierRelease 5 5000) pending) (fun u => objGen (u.obj 5) == 8 && decide ((u.tile 0).array.stagger = some 0)) = true :=
  ⟨by decide +kernel, by decide +kernel, by decide +kernel, by decide +kernel⟩

theorem witness_pending : pending.sync.pends.find? (fun y => decide (y.obj = 5)) = some { obj := 5, pid := 0, r := 5000, flag := true, hinted := false } ∧
    (5000 : Nat) ≤ (pending.at_ 2952).now + 2048 ∧ (pending.at_ 2951).now + 2048 < 5000 ∧ (5000 : Nat) ≤ (pending.at_ 5000).now ∧
    (pending.mappedTiles 0).find? (fun z => decide (z.1 = 0)) = some (0, 0) := by decide +kernel

/-- An operation for module 9, its peer sound and lost. -/
def farPeer (lost : Option (BitVec 16)) : Peer :=
  { id := 9, keyed := true, keyGen := 0, rekey := false, frames := 0, fails := 0, lastAlive := 0, suspended := none, lost := lost, lastPut := none,
    ver := 1, xfers := 0, tx := PerVc.zero, rx := PerVc.zero, ahead := [], early := [], out := PerVc.zero, owed := PerVc.zero, torn := none }

/-- The messages in the frames sent. -/
def sentMsgs (s : State) : List Message := s.outputs.filterMap fun o => match o with | .frame _ m => some m | _ => none

/-- Half-port 0 UP to module 9. -/
def joined (s : State) : State :=
  { s with links := { s.links with half := s.links.half.set 0 { s.links.half[(0 : HalfId)] with state := .up, peer := 9, ver := 1 } } }

def remote (lost : Option (BitVec 16)) : State :=
  let s := joined (waiting busy (.status 3))
  { s with sync := { s.sync with sent := [opSent (.signal 1) (some 9)], nextId := 1 } }.modPart 0 fun x => { x with peers := [farPeer lost] }

def remoteOp (bar : Option Nat) : RemoteOp := { id := 0, pid := 0, peer := 9, bar := bar, who := some (.tile 0) }

def acking (bar : Option Nat) : State := { atBarrier false with sync := { (atBarrier false).sync with remotes := [remoteOp bar] } }

theorem test_remote : after (exec (.syncOperationArrival 0 0) (remote none)) (fun u => u.sync.remotes == [remoteOp none] &&
      sentMsgs u == [.sync 5 (.signal 1) 0] && (u.half 0).out.vs == 1 && (u.half 0).replay.length == 1) = true ∧
    after (exec (.syncOperationArrival 0 0) (remote (some 0x0603))) (fun u => (u.core 0).g[3] == 0x0603) = true ∧
    after (exec (.remoteAck 0 0x0105) (acking none)) (fun u => (u.core 0).g[3] == 0x0105) = true ∧
    after (exec (.remoteAck 0 0x0105) (acking (some 5))) (fun u => (u.core 0).g[3] == 0x0105 && u.sync.waits == []) = true :=
  ⟨by decide +kernel, by decide +kernel, by decide +kernel, by decide +kernel⟩

theorem witness_remote : (remote none).sync.sent.find? (fun y => decide (y.id = 0)) = some (opSent (.signal 1) (some 9)) ∧
    ((remote none).at_ 0).sendDue (opSent (.signal 1) (some 9)) = true ∧ (remote none).peerLost 0 9 = none ∧
    ((remote (some 0x0603)).at_ 0).sendDue (opSent (.signal 1) (some 9)) = true ∧ (remote (some 0x0603)).peerLost 0 9 = some 0x0603 ∧
    ((remote none).core 0).resume = some (.status 3) ∧ Ready (remote none) 0 9 .vs 1 (farPeer none) :=
  ⟨by decide +kernel, by decide +kernel, by decide +kernel, by decide +kernel, by decide +kernel, by decide +kernel,
    by decide +kernel, by decide +kernel, by decide +kernel, by decide +kernel, by decide +kernel, by decide +kernel⟩

theorem witness_ack : ∀ x ∈ [none, some 5], (acking x).sync.remotes.find? (fun y => decide (y.id = 0)) = some (remoteOp x) ∧
    ((acking x).core 0).resume = some (.status 3) ∧ ((acking x).sync.waits.map (·.obj)) = [5] := by decide +kernel

/-- With SYN_WAIT_LIMIT at 100 the wait that began at 0 ends at 100. -/
def limited : State := (atBarrier false).modPart 0 fun x => { x with waitLim := 100 }

theorem test_timeout : after (exec (.waitTimeout (.tile 0) 100) limited) (fun u => (u.core 0).g[3] == 0x0303 && objArrived (u.obj 5) == 1) = true ∧
    stops (exec (.waitTimeout (.tile 0) 99) limited) = true := ⟨by decide +kernel, by decide +kernel⟩

theorem witness_timeout : limited.sync.waits.find? (fun y => decide (y.who = .tile 0)) =
      some { obj := 5, who := .tile 0, op := .arrive false, stamp := 0, issue := 0 } ∧
    (limited.core 0).resume = some (.status 3) ∧ objKind (limited.obj 5) ≠ 0 ∧ 0 + limited.waitLimit (.tile 0) ≤ (limited.at_ 100).now ∧
    (limited.at_ 99).now < 0 + limited.waitLimit (.tile 0) := by decide +kernel

/-! Time: the upstream port is port 0's half A. -/

def clock (f : TimeSt → TimeSt) : State :=
  { busy with time := f busy.time, links := { busy.links with half := busy.links.half.set 0 { busy.links.half[(0 : HalfId)] with state := .up } } }

/-- The sixteenth good message in a row gives LOCKED; a step is taken while UNLOCKED without a launch, to upstream's 1,800 and half of
the round trip of 300 − 100; messages go out every 8 µs. -/
theorem test_message : after (exec (.timeMessageReceipt 0 1 { sent := 0, got := 1 } 0) (clock fun t => { t with good := 15 }))
      (fun u => decide (u.time.lock = .locked)) = true ∧
    after (exec (.timeMessageReceipt 0 1800 { sent := 0, got := 1700 } 300) { clock id with parts := State.reset.parts })
      (fun u => decide (u.time.lock = .acquiring) && u.time.gt == 1900 && u.time.cd1 == 1900 && u.time.good == 0 && !u.time.stepLeft) = true ∧
    after (exec (.timeMessageReceipt 0 1800 { sent := 0, got := 1700 } 300) { clock fun t => { t with stepLeft := false } with parts := State.reset.parts })
      (fun u => decide (u.time.lock = .acquiring) && u.time.gt == 300 && u.time.slew == 1600) = true ∧
    after (exec (.timeMessageSend 8000) (clock fun t => { t with lastSend := some 0 })) (fun u => u.outputs == [.port 0 (.time 8000)]) = true ∧
    stops (exec (.timeMessageSend 7999) (clock fun t => { t with lastSend := some 0 })) = true :=
  ⟨by decide +kernel, by decide +kernel, by decide +kernel, by decide +kernel, by decide +kernel⟩

/-- One tick may be added or withheld once in 1,024 gt; 32 µs without a message give HOLDOVER, 1 ms there UNLOCKED. -/
theorem test_slew : after (exec .counterSlew (clock fun t => { t with gt := 1024, slew := 2 }))
      (fun u => u.time.gt == 1025 && u.time.slew == 1) = true ∧
    stops (exec .counterSlew (clock fun t => { t with gt := 1023, slew := 2 })) = true := ⟨by decide +kernel, by decide +kernel⟩

theorem test_holdover : after (exec (.holdoverEntry 32000) (clock fun t => { t with lock := .locked })) (fun u => decide (u.time.lock = .holdover)) = true ∧
    stops (exec (.holdoverEntry 31999) (clock fun t => { t with lock := .locked })) = true ∧
    after (exec (.synTimeUnlock 1000000) (clock fun t => { t with lock := .holdover })) (fun u => decide (u.time.lock = .unlocked)) = true ∧
    stops (exec (.synTimeUnlock 999999) (clock fun t => { t with lock := .holdover })) = true :=
  ⟨by decide +kernel, by decide +kernel, by decide +kernel, by decide +kernel⟩

theorem witness_time : (clock id).up = true ∧ (clock id).time.root = false ∧ ((clock fun t => { t with root := true }).time.root = true) ∧
    ((clock id).links.half[(0 : HalfId)]).state = .up ∧ (0 : HalfId) = (clock id).upstream ∧ (1 : HalfId) ≠ (clock id).upstream ∧
    (clock id).anyLaunch = true ∧ ({ clock id with parts := State.reset.parts } : State).anyLaunch = false ∧
    (clock id).time.slewAt = 0 ∧ (clock id).time.lastMsg = 0 ∧ (clock id).time.holdAt = 0 := by decide +kernel

/-! ### Host interface -/

/-- Reset with nothing waiting for a clear, no partition bound. -/
def unbound : State := { State.reset with bind := { State.reset.bind with clrPend := 0, clearing := none, bepoch := 1 } }

theorem witness_completion : (fetched bound [signalDesc]).pins.pcieUp = true ∧ ((fetched bound [signalDesc]).ring 0 0).en = true ∧
    Memory.wf (fetched bound [signalDesc]).hostMem = true ∧ (bound.ring 0 0).en = false ∧
    ({ bound with pins := { bound.pins with pcieUp := false } } : State).pins.pcieUp = false ∧ (15 : Nat) < 16 ∧ 2 ^ 40 - 1 < 2 ^ 40 := by
  decide +kernel

/-- R370: the entry of code E_RANGE, TAG 9, phase 1 at the base of the completion ring. -/
theorem test_completion : let u := (ringed bound).complete 0 { cid := 0, ring := 0, desc := descr [0x30 * 2 ^ 56 + 9], phase := .fetched } eRange 0 5
    leNat (Memory.readBytes u.hostMem 0x1000 8) = 0x0105 * 2 ^ 48 + 9 ∧ leNat (Memory.readBytes u.hostMem 0x1008 8) = 2 ^ 63 + 5 :=
  ⟨by decide +kernel, by decide +kernel⟩

/-- Versions 1.0 to 1.5 asked for: 1.0 is activated; 1.1 to 1.5: none. -/
theorem test_version : after (exec (.hifVersionReq 0 0x1510) bound) (fun u => (u.func 0).act == 0x10) = true ∧
    after (exec (.hifVersionReq 0 0x1511) bound) (fun u => (u.func 0).act == 0) = true := ⟨by decide +kernel, by decide +kernel⟩

/-- Ring sizes of 2^6 and 2^16 are allowed, 2^5 and 2^17 are not; an index at the size sets DB_ERR. -/
theorem test_rings : after (exec (.hifRingCfg 0 0 0x80001006) bound) (fun u => (u.ring 0 0).en && (u.ring 0 0).cqlog == 16) = true ∧
    after (exec (.hifRingCfg 0 0 0x80000605) bound) (fun u => !(u.ring 0 0).en && (u.ring 0 0).cfgErr) = true ∧
    after (exec (.hifRingCfg 0 0 0x80001106) bound) (fun u => !(u.ring 0 0).en && (u.ring 0 0).cfgErr) = true ∧
    after (exec (.sqTail 0 0 63) (ringed bound)) (fun u => (u.ring 0 0).sqTail == 63) = true ∧
    after (exec (.sqTail 0 0 64) (ringed bound)) (fun u => (u.ring 0 0).sqTail == 0 && (u.ring 0 0).dbErr) = true :=
  ⟨by decide +kernel, by decide +kernel, by decide +kernel, by decide +kernel, by decide +kernel⟩

def evented (s : State) : State := s.modFunc 0 fun f => { f with evq := { f.evq with en := true, log := 6, base := 0x8000 } }

theorem witness_rings : Open bound 0 ∧ (∀ k : RingId, (bound.ring 0 k).en = false) ∧ ((ringed bound).ring 0 0).en = true ∧ Open (ringed bound) 0 ∧
    (ringed bound).ringBusy 0 0 = false ∧ (fetched bound [signalDesc]).ringBusy 0 0 = true ∧ (bound.func 0).evq.en = false ∧
    (bound.func 0).evq.held = [] ∧ (bound.func 0).evq.drops = 0 ∧ ((evented bound).func 0).evq.en = true ∧ Open (evented bound) 0 :=
  ⟨⟨by decide +kernel, by decide +kernel, by decide +kernel⟩, by decide +kernel, by decide +kernel,
    ⟨by decide +kernel, by decide +kernel, by decide +kernel⟩, by decide +kernel, by decide +kernel, by decide +kernel, by decide +kernel,
    by decide +kernel, by decide +kernel, ⟨by decide +kernel, by decide +kernel, by decide +kernel⟩⟩

def fenceDesc : List Nat := [0x32 * 2 ^ 56, 0]

/-- FENCE with a command before it, and as the only one; a vector's pending message is sent. -/
theorem test_controls : after (exec (.fence 0 0) (fetched bound [fenceDesc])) (fun u => (u.func 0).cmds == []) = true ∧
    stops (exec (.fence 0 1) (fetched bound [signalDesc, fenceDesc])) = true ∧
    after (exec (.msixVectorUnmask 0 3) (bound.modFunc 0 fun f => { f with msixPend := [3] })) (fun u => u.outputs == [.msix 0 3]) = true ∧
    after (exec (.srIovEnable 16) bound) (fun u => u.vfs == 16) = true ∧ after (exec (.srIovEnable 17) bound) (fun u => u.vfs == 0) = true :=
  ⟨by decide +kernel, by decide +kernel, by decide +kernel, by decide +kernel, by decide +kernel⟩

theorem witness_controls : bound.fnUp 0 = true ∧ (fetched bound [fenceDesc]).fnState 0 ≠ .moulting ∧ (bound.func 0).unmasked.contains 127 = false ∧
    (fetched bound [fenceDesc]).findCmd 0 0 = some (cmdOf fenceDesc) ∧ headBad (cmdOf fenceDesc).desc = false ∧
    zeroFrom (cmdOf fenceDesc).desc 2 = true := by decide +kernel

/-- A ring with one descriptor to fetch. -/
def toFetch : State := (ringed bound).modRing 0 0 fun r => { r with sqTail := 1 }

theorem test_fetch : after (exec (.descriptorFetch (some (descr [0x30 * 2 ^ 56 + 0x10 * 2 ^ 48, 5, 0, 3]))) toFetch)
      (fun u => (u.func 0).cmds.length == 1 && (u.ring 0 0).sqHead == 1) = true ∧
    after (exec (.descriptorFetch (some (descr [0x33 * 2 ^ 56 + 0x10 * 2 ^ 48]))) toFetch)
      (fun u => (u.func 0).cmds == [] && leNat (Memory.readBytes u.hostMem 0x1006 2) == 0x0101) = true :=
  ⟨by decide +kernel, by decide +kernel⟩

theorem witness_fetch : toFetch.pickAbort = none ∧ toFetch.pick = some (0, 0) ∧ bound.pick = none ∧
    toFetch.fetchCheck 0 (descr [0x30 * 2 ^ 56 + 0x10 * 2 ^ 48, 5, 0, 3]) = none ∧ isSolve (descr [0x30 * 2 ^ 56]) = false ∧
    toFetch.fetchCheck 0 (descr [0x33 * 2 ^ 56 + 0x10 * 2 ^ 48]) = some 0x0101 :=
  ⟨by decide +kernel, by decide +kernel, by decide +kernel, by decide +kernel, by decide +kernel, by decide +kernel⟩

/-- COPY of 8 bytes from host 0x5000 to silo 0x40 and back, FILL of 16 bytes, QUERY of the device, DIGEST_READ of slot 0. -/
def copyIn : List Nat := [0x10 * 2 ^ 56, 0x5000, 0x40, 8, 2]
def copyOut : List Nat := [0x10 * 2 ^ 56, 0x40, 0x5000, 8, 1]
def fillDesc : List Nat := [0x11 * 2 ^ 56, 0x40, 16, 0x1122334455667788]
def queryDesc : List Nat := [0x50 * 2 ^ 56, 1, 0, 0x6000, 4096]
def digestDesc : List Nat := [0x51 * 2 ^ 56, 0, 0x6000]

def hasResult (s : State) : State := s.modPart 0 fun x => { x with results := x.results.set 0 (some 77) }

theorem test_copy : after (exec (.copy 0 0 (.ok (words [0x8877665544332211]))) (fetched bound [copyIn]))
      (fun u => leNat (Memory.readBytes u.mem ((u.part 0).devAddr 0x40) 8) == 0x8877665544332211) = true ∧
    after (exec (.copy 0 0 .error) (fetched bound [copyOut])) (fun u => (u.func 0).cmds == []) = true :=
  ⟨by decide +kernel, by decide +kernel⟩

theorem test_fill : after (exec (.fill 0 0) (fetched bound [fillDesc]))
    (fun u => leNat (Memory.readBytes u.mem ((u.part 0).devAddr 0x48) 8) == 0x1122334455667788) = true := by decide +kernel

theorem test_digest_read : after (exec (.digestRead 0 0 (.ok [])) (fetched (hasResult bound) [digestDesc]))
    (fun u => Memory.read u.hostMem 0x6000 == 77) = true := by decide +kernel

theorem witness_moves : Memory.wf (fetched bound [copyIn]).mem = true ∧ (fetched bound [copyIn]).dueCmd 0 0 0x10 = some (cmdOf copyIn) ∧
    copyCheck (cmdOf copyIn).desc = none ∧ copyCheck (cmdOf copyOut).desc = none ∧ copyHint (cmdOf copyOut).desc = 0 ∧
    (bound.part 0).entry.gran.Nodup ∧ 0x40 + 16 ≤ (bound.part 0).siloSize ∧
    (match bound.placeOf 0 false 0x5000 8 with | .ok (.host a) => a == 0x5000 | _ => false) = true ∧
    (match bound.placeOf 0 true 0x40 8 with | .ok (.silo a) => a == 0x40 | _ => false) = true ∧
    bound.holdWrites 0 [(0x40, 16)] = none ∧ bound.targetBad 0 (.silo 0x40) 16 = none ∧ bound.sourceBad 0 (.silo 0x40) 8 = none ∧
    (fetched bound [fillDesc]).dueCmd 0 0 0x11 = some (cmdOf fillDesc) ∧ fillCheck (cmdOf fillDesc).desc = none ∧
    (fetched bound [queryDesc]).dueCmd 0 0 0x50 = some (cmdOf queryDesc) ∧ zeroFrom (cmdOf queryDesc).desc 5 = true ∧
    (match bound.queryResult 0 (cmdOf queryDesc).desc with | .ok bs => decide (bs.length ≤ 4096) | _ => false) = true ∧
    (fetched (hasResult bound) [digestDesc]).dueCmd 0 0 0x51 = some (cmdOf digestDesc) ∧ zeroFrom (cmdOf digestDesc).desc 3 = true ∧
    ((hasResult bound).part 0).results[digestSlot (cmdOf digestDesc).desc] = some 77 := by
  refine ⟨?_, ?_, ?_, ?_, ?_, ?_, ?_, ?_, ?_, ?_, ?_, ?_, ?_, ?_, ?_, ?_, ?_, ?_, ?_, ?_⟩ <;> decide +kernel

/-- Every sector of the bound silo has its key, and none of an unbound one. -/
theorem witness_keys : (∀ d, (bound.sectorKey 0 d).isSome = true) ∧ bound.keyless 0 = false ∧ State.reset.keyless 0 = true :=
  ⟨fun _ => rfl, by decide +kernel, by decide +kernel⟩

/-- An image of 448 B: sixteen HALT instructions and the entry point of one tile (R380, R381). -/
def goodImage : List Byte :=
  leBytes 4 0x54504731 ++ leBytes 2 0x0100 ++ leBytes 2 2 ++ leBytes 8 448 ++ [1, 1, 0] ++ List.replicate 237 0 ++
    (leBytes 2 1 ++ leBytes 2 0 ++ leBytes 4 0 ++ leBytes 8 320 ++ leBytes 8 64 ++ leBytes 8 0) ++
    (leBytes 2 2 ++ leBytes 2 0 ++ leBytes 4 1 ++ leBytes 8 384 ++ leBytes 8 16 ++ leBytes 8 0) ++
    (List.replicate 16 (leBytes 4 0x340007FF)).flatten ++ List.replicate 64 0

def loadDesc : List Nat := [0x01 * 2 ^ 56, 0x5000, 0x10000, 448, 2]
def unloadDesc : List Nat := [0x01 * 2 ^ 56, 0, 0, 0, 8]
def loadState : State := fetched bound [loadDesc]
def goodMap : List EngId × List TileId := ([0], [0])

theorem witness_load : loadState.dueCmd 0 0 0x01 = some (cmdOf loadDesc) ∧ bit (dw (cmdOf loadDesc).desc 4) 3 = false ∧
    loadFieldBad (cmdOf loadDesc).desc false = false ∧ loadSlot (cmdOf loadDesc).desc = 2 ∧ 0x10000 + 448 ≤ (loadState.part 0).siloSize ∧
    (loadState.part 0).otherRegions 2 = [] ∧ loadState.siloFenced 0 0x10000 448 = false ∧ loadState.slotBusy 0 2 0 0 = false ∧
    loadState.holdWrites 0 [(0x10000, 448)] = none ∧ goodImage.length = 448 ∧
    loadState.buildMap 0 1 1 0 = some goodMap ∧ loadState.allocate 0 2 goodImage [0] = some [] ∧
    (fetched loaded [unloadDesc]).dueCmd 0 0 0x01 = some (cmdOf unloadDesc) ∧ bit (dw (cmdOf unloadDesc).desc 4) 3 = true ∧
    loadFieldBad (cmdOf unloadDesc).desc true = false ∧ (fetched loaded [unloadDesc]).slotBusy 0 0 0 0 = false := by
  refine ⟨?_, ?_, ?_, ?_, ?_, ?_, ?_, ?_, ?_, ?_, ?_, ?_, ?_, ?_, ?_, ?_⟩ <;> decide +kernel

theorem witness_image : loadState.imageCheck 0 goodImage 0x10000 = none := by decide +kernel



/-- A program that holds logical channel 0 of engine 0. -/
def channeled : State := (bound.modPart 0 fun x => { x with slots := x.slots.set 0 (some { job with chans := [{ lse := 0, lch := 0, eng := 0, ch := 0 }] }) }).modChan
  0 0 fun c => { c with alloc := some { chanOf with hostOwn := true } }

def deltaDesc : List Nat := [0x20 * 2 ^ 56, 0]

theorem test_solve_delta : after (exec (.solveDelta 0 0) (fetched channeled [deltaDesc])) (fun u => (u.chan 0 0).queue.length == 1) = true := by
  decide +kernel

theorem witness_solve_delta : (fetched channeled [deltaDesc]).dueCmd 0 0 0x20 = some (cmdOf deltaDesc) ∧
    (channeled.part 0).descChan (cmdOf deltaDesc).desc = some (0, 0) ∧ (channeled.chan 0 0).queue.length < 16 ∧
    (fetched channeled [[0x21 * 2 ^ 56, 0]]).dueCmd 0 0 0x21 = some (cmdOf [0x21 * 2 ^ 56, 0]) := by decide +kernel

/-- LAUNCH of slot 0 for one module, and its life. -/
def launchDesc : List Nat := [0x02 * 2 ^ 56, 2 ^ 32, 5, 6, 0, 0]
def launchAtDesc : List Nat := [0x03 * 2 ^ 56, 2 ^ 32, 5, 6, 9000, 0]

theorem test_launch : after (exec (.launch 0 0) (fetched loaded [launchDesc]))
    (fun u => match (u.part 0).launch with | some l => l.seed == 5 && l.step == 6 && decide (l.phase = .started) | none => false) = true := by
  decide +kernel

theorem witness_launch : (fetched loaded [launchDesc]).dueCmd 0 0 0x02 = some (cmdOf launchDesc) ∧
    (fetched loaded [launchDesc]).launchTurn 0 0 0 = true ∧ (fetched loaded [launchDesc]).launchCheck 0 (cmdOf launchDesc).desc false = none ∧
    (fetched loaded [launchAtDesc]).launchCheck 0 (cmdOf launchAtDesc).desc true = none ∧
    (fetched bound [launchDesc]).launchCheck 0 (cmdOf launchDesc).desc false = some eField :=
  ⟨by decide +kernel, by decide +kernel, by decide +kernel, by decide +kernel, by decide +kernel⟩

def phased (ph : LaunchPhase) (timed : Bool) (c : Nat) : State :=
  loaded.modPart 0 fun x => { x with launch := some { launch with phase := ph, at_ := timed, c := c } }

/-- Every core of the program has halted. -/
def allHalted : State := { phased .released false 0 with tiles := (phased .released false 0).tiles.map fun y => { y with core := { y.core with status := .halted } } }

def locked (s : State) : State := { s with time := { s.time with lock := .locked } }

/-- C is the ready point plus 2,048; LAUNCH_AT needs more than 2,048 counts ahead and LOCKED. -/
theorem test_ready : after (exec (.launchReady 0 100) (phased .started false 0))
      (fun u => match (u.part 0).launch with | some l => l.c == 2148 && decide (l.phase = .accepted) | none => false) = true ∧
    after (exec (.launchReady 0 100) (phased .started true 9000)) (fun u => (u.part 0).launch.isNone) = true ∧
    after (exec (.launchReady 0 100) (locked (phased .started true 2148))) (fun u => (u.part 0).launch.isNone) = true ∧
    after (exec (.launchReady 0 100) (locked (phased .started true 2149))) (fun u => (u.part 0).launch.isSome) = true :=
  ⟨by decide +kernel, by decide +kernel, by decide +kernel, by decide +kernel⟩

theorem test_hint_release : stops (exec (.launchHint 0 951) (phased .accepted false 3000)) = true ∧
    after (exec (.launchHint 0 952) (phased .accepted false 3000)) (fun u => decide ((u.tile 7).array.hint = some 952)) = true ∧
    stops (exec (.launchRelease 0 2999) (phased .hinted false 3000)) = true :=
  ⟨by decide +kernel, by decide +kernel, by decide +kernel⟩

theorem witness_life : (phased .started true 2149).live 0 = some ({ launch with phase := .started, at_ := true, c := 2149 }, job) ∧
    ((phased .started false 0).at_ 100).tableCheck 0 job.image = none ∧
    (∀ t ∈ job.tiles, ((phased .hinted false 3000).tile t).mops = [] ∧ ((phased .hinted false 3000).tile t).dmas = [] ∧
      ((phased .hinted false 3000).tile t).upds = []) ∧ job.logical 3 = some 3 ∧
    allHalted.launchOver { launch with phase := .released, at_ := false, c := 0 } job = true ∧
    busy.launchOver launch job = false := by
  refine ⟨?_, ?_, ?_, ?_, ?_, ?_⟩ <;> decide +kernel

theorem test_complete : after (exec (.launchComplete 0 0) allHalted) (fun u => (u.part 0).launch.isNone) = true ∧
    stops (exec (.launchComplete 0 0) busy) = true := ⟨by decide +kernel, by decide +kernel⟩

/-- A binding record: partition 1, PF0, sheaf 2, granules 3 and 4, block 7, weight 1, port share 1, job tag 9 (R325). -/
def goodRecord : BitVec 8192 :=
  BitVec.ofNat 8192 (leNat (words [1 * 2 ^ 60 + 4 * 2 ^ 32 + 2 * 2 ^ 16 + 1 * 2 ^ 8 + 1, 3 * 2 ^ 48 + 1 * 2 ^ 40, 9, 0, 7, 0, 0, 0, 0, 0, 0, 0,
    3 + 4 * 2 ^ 16]))

def bindDesc : List Nat := [0x40 * 2 ^ 56, 0x40]
def unbindDesc : List Nat := [0x41 * 2 ^ 56, 0]

theorem test_bind : after (exec (.bind 0 0 (some goodRecord)) (fetched unbound [bindDesc]))
    (fun u => decide ((u.part 1).entry.st = .bound) && (u.part 1).entry.gran == [3, 4] && u.bind.bepoch == 2 &&
      decide ((u.bind.sheaves[(2 : EngId)]).owner = some 1)) = true := by decide +kernel

theorem witness_bind : (fetched unbound [bindDesc]).dueCmd 0 0 0x40 = some (cmdOf bindDesc) ∧ zeroFrom (cmdOf bindDesc).desc 2 = true ∧
    bits (dw (cmdOf bindDesc).desc 1) 5 0 = 0 ∧ (fetched unbound [bindDesc]).bindCheck goodRecord = none ∧
    (fetched bound [bindDesc]).bindCheck goodRecord = some eBusy ∧
    (1 : Pid).val = goodRecord.toNat / 2 ^ 60 % 16 ∧ (fetched unbound [bindDesc]).bindTurn 0 0 = true ∧
    (fetched unbound [bindDesc, bindDesc]).bindTurn 0 1 = false := by
  refine ⟨?_, ?_, ?_, ?_, ?_, ?_, ?_, ?_⟩ <;> decide +kernel

theorem witness_unbind : (fetched bound [unbindDesc]).dueCmd 0 0 0x41 = some (cmdOf unbindDesc) ∧ zeroFrom (cmdOf unbindDesc).desc 2 = true ∧
    (dw (cmdOf unbindDesc).desc 1).toNat = (0 : Pid).val ∧ ((fetched bound [unbindDesc]).part 0).entry.st = .bound := by
  refine ⟨?_, ?_, ?_, ?_⟩ <;> decide +kernel

def moulting (n : Nat) : State := bound.modPart 0 fun x => { x with entry := { x.entry with st := .moulting, mstep := n } }

theorem test_moult : after (exec (.moultStepEnd 0 0) (moulting 4)) (fun u => decide ((u.part 0).entry.st = .free) && u.bind.clrPend.getLsbD 0) = true ∧
    stops (exec (.moultStepEnd 0 0) (moulting 0)) = true := ⟨by decide +kernel, by decide +kernel⟩

theorem witness_moult : (moulting 0).fnState 0 = .moulting ∧ ∀ n ∈ [0, 1, 2, 3, 4], ((moulting n).part 0).entry.st = .moulting ∧ ((moulting n).part 0).entry.mstep = n ∧
    ((moulting n).part 0).entry.keyMoult = false := by decide +kernel

/-- 14 R329: after step 1 the silo reads as zeros and a write of it is dropped; a BIND that names the moulting partition's function, or
another resource of it, fails with E_MOULTING (R327). -/
theorem test_moult_keys : after (exec (.moultStepEnd 0 0) { moulting 1 with mem := [(5, 9)] })
      (fun u => u.siloByte 0 5 == 0 && (u.siloWrite 0 64 [7]).mem == [(5, 9)]) = true ∧
    (fetched (moulting 1) [bindDesc]).bindCheck goodRecord = some eMoulting := ⟨by decide +kernel, by decide +kernel⟩

/-- 14 R334: an engine of a moulting partition takes no command and ends none; no launch of it goes on. -/
theorem test_moult_quiet : stops (exec (.solveCommandHead 0 0 0 .none) ((solving 1).modPart 0 fun x => { x with entry := { x.entry with st := .moulting, mstep := 1 } })) = true ∧
    (ran.modPart 0 fun x => { x with entry := { x.entry with st := .moulting } }).engineMoults 0 = true ∧ ran.engineMoults 0 = false ∧
    stops (exec (.launchReady 0 0) ((phased .started true 2149).modPart 0 fun x => { x with entry := { x.entry with st := .moulting } })) = true := by
  decide +kernel

def abortDesc : List Nat := [0x60 * 2 ^ 56, 0]

theorem witness_abort : (fetched bound [abortDesc]).findCmd 0 0 = some (cmdOf abortDesc) ∧ (fetched bound [abortDesc]).up = true ∧
    (dw (cmdOf abortDesc).desc 1).toNat = (0 : Pid).val ∧ (fetched bound [abortDesc]).fenced .function 0 = false ∧
    ((fetched bound [abortDesc]).part 0).entry.keyMoult = false ∧ zeroFrom (cmdOf abortDesc).desc 2 = true ∧
    ((fetched bound [abortDesc]).part 0).entry.hfn = 0 ∧ ((fetched unbound [abortDesc]).part 0).entry.st = .free := by
  refine ⟨?_, ?_, ?_, ?_, ?_, ?_, ?_, ?_⟩ <;> decide +kernel

theorem test_go : after (exec (.go 0x80000001) bound) (fun u => u.bind.rstErr) = true ∧
    after (exec (.go 0x40000000) { bound with bind := { bound.bind with rstErr := true } }) (fun u => !u.bind.rstErr) = true :=
  ⟨by decide +kernel, by decide +kernel⟩

theorem witness_go : bound.up = true ∧ bound.mgmt.recov = false ∧ (0x80000000 : Half).toNat % 16 = (0 : Pid).val ∧
    (bound.part 0).entry.st = .bound ∧ bound.bind.rstBusy = false ∧ (bound.part 1).entry.st ≠ .bound ∧
    ({ bound with bind := { bound.bind with rstBusy := true } } : State).bind.rstBusy = true ∧ bound.bind.rstPid = 0 := by decide +kernel

theorem test_flr : after (exec (.flr 0) (ringed unbound)) (fun u => !(u.ring 0 0).en) = true := by decide +kernel

theorem witness_flr : unbound.fnUp 0 = true ∧ unbound.partOfFn 0 = none ∧ unbound.fnUp 3 = false := by decide +kernel

/-! ### Memory, keys, power and thermal control -/

/-- A corrected read is counted; one that both attempts failed makes its sector unreadable. -/
theorem test_read_error : after (exec (.memoryReadError 0x12345 (.corrected true) (.command 0 0) 0) unbound) (fun u => u.memctl.ce == 1) = true ∧
    after (exec (.memoryReadError 0x12345 (.retried false) (.command 0 0) 0) unbound)
      (fun u => u.memctl.ue == 1 && u.memctl.bad == [0x12340]) = true := ⟨by decide +kernel, by decide +kernel⟩

theorem witness_read_error : (0x12345 : Nat) < 384 * 2 ^ 30 ∧ unbound.granPending (0x12345 / 2 ^ 30) = false ∧
    unbound.partOfGran (0x12345 / 2 ^ 30) = none ∧ State.reset.granPending 0 = true := by decide +kernel

/-- The 24 h window ends at its boundary. -/
theorem test_window : stops (exec (.errorWindowEnd 86399999999999) unbound) = true ∧
    after (exec (.errorWindowEnd 86400000000000) unbound) (fun u => u.memctl.window == 1) = true := ⟨by decide +kernel, by decide +kernel⟩

def migrating : State := { unbound with memctl := { unbound.memctl with running := some { pc := 5, slot := 0 } } }

theorem test_migration : after (exec (.migrationComplete 0) migrating) (fun u => u.memctl.running.isNone) = true ∧
    stops (exec (.migrationComplete 0) unbound) = true := ⟨by decide +kernel, by decide +kernel⟩

theorem witness_migration : migrating.memctl.running = some { pc := 5, slot := 0 } ∧ migrating.memctl.queued = [] := by decide +kernel

/-- TTHR is 95 °C: 95 lowers the level, 85 doubles the refresh rate. -/
theorem test_stack : after (exec (.stackTempReading 3 95 0) unbound)
      (fun u => (u.memctl.stackSt[(3 : StackId)]).level == 7 && (u.memctl.stackSt[(3 : StackId)]).ref2) = true ∧
    after (exec (.stackTempReading 3 84 0) unbound) (fun u => !(u.memctl.stackSt[(3 : StackId)]).ref2) = true :=
  ⟨by decide +kernel, by decide +kernel⟩

theorem witness_stack : unbound.pins.on = true ∧ unbound.memctl.tthr = 95 ∧ 1 < ((unbound.memctl.stackSt[(0 : StackId)]).level).toNat ∧
    (({ unbound with memctl := { unbound.memctl with stackSt := unbound.memctl.stackSt.set 0 { temp := 96, level := 3, ref2 := true } } } : State).memctl.stackSt[(0 : StackId)]).level.toNat < 8 := by
  decide +kernel

/-- A granule at its clear, with one unreadable sector and data in it. -/
def clearing : State := { unbound with bind := { unbound.bind with clrPend := 1, clearing := some 0 }, mem := [(5, 9)],
                                       memctl := { unbound.memctl with bad := [64] } }

theorem test_clear : after (exec (.granuleClearComplete 0) clearing) (fun u => u.mem == [] && u.memctl.bad == [] && u.bind.clrPend == 0) = true ∧
    stops (exec (.granuleClearComplete 0) unbound) = true := ⟨by decide +kernel, by decide +kernel⟩

/-- 09 Worked example: address 0x1234567A00 lies in pseudo-channel 222, stack 6, channel 27, line offset 596,523, column 3, bank 52, group 13,
row 2,330. -/
theorem test_interleave : pcOf 0x1234567A00 = 222 ∧ stackOf 222 = 6 ∧ channelOf 222 = 27 ∧ halfChannelOf 222 = 0 ∧
    pcOffset 0x1234567A00 = 596523 ∧ columnOf 596523 = 3 ∧ bankOf 596523 = 52 ∧ bankGroupOf 52 = 13 ∧ rowOf 596523 = 2330 := by decide +kernel

/-- R230: without other retirements, line 5 of a pseudo-channel retired in slot 1 lies at c = 5, s = 0 of the slot's band. -/
theorem test_relocate : ({ MemSt.reset with pcRet := 1, slots := MemSt.reset.slots.set 1 (some 0) } : MemSt).place 0 5 = (5, headroomBase + 6144) ∧
    ({ MemSt.reset with pcRet := 1, slots := MemSt.reset.slots.set 1 (some 0) } : MemSt).place 0 512 = (1, headroomBase + 6144 + 6048 + 1) := by
  decide +kernel

/-- R219, R220: a STREAM read allocates nothing, a NORMAL read does; a LAST_USE read of a dirty line drops it, and memory then holds one of
the values the line had. -/
theorem test_hints : cacheRead 1 [] 7 = [] ∧ (cacheRead 0 [] 7).map (·.line) = [7] ∧ cacheRead 3 (cacheRead 0 [] 7) 7 = [] ∧
    (discardLine { MemSt.reset with cache := cacheWrite 0 [] 0 1 false (List.replicate 256 0) } [(0, 9)] 0 5).2 = [] := by decide +kernel

/-- R233: a read of a marked sector counts no error; once written, it does. -/
def marked : State := { unbound with memctl := { unbound.memctl with cleared := [0] } }
theorem test_clear_mark : after (exec (.memoryReadError 64 (.corrected true) .block 0) marked) (fun u => u.memctl.ce == 0) = true ∧
    after (exec (.memoryReadError 64 (.corrected true) .block 0) { marked with memctl := { marked.memctl with wrote := [1] } })
      (fun u => u.memctl.ce == 1) = true := ⟨by decide +kernel, by decide +kernel⟩

theorem witness_clear : clearing.bind.clearing = some 0 ∧ Memory.wf clearing.mem = true ∧ clearing.bind.heldWr = [] := by decide +kernel

/-- KEY_ROTATE of partition 0; a rotation at its first page, and at its last (one granule: 2^18 pages of 4 KiB). -/
def rotateDesc : List Nat := [0x42 * 2 ^ 56, 0]
def rotateLinkDesc : List Nat := [0x42 * 2 ^ 56, 0x100]
def rotating (n : Half) : State := { bound with sec := { bound.sec with rot := bound.sec.rot.set 0 { Rotation.reset with active := true, next := n } } }

theorem test_rotate : after (exec (.keyRotate 0 0) (fetched bound [rotateDesc])) (fun u => (u.sec.rot[(0 : Pid)]).active && u.sec.keyGen == 3 && u.sec.silo[(0 : Pid)] == (some 9, some 3)) = true ∧
    after (exec (.sweepPage 0 0) (rotating 0)) (fun u => (u.sec.rot[(0 : Pid)]).next == 1) = true ∧
    after (exec (.sweepPage 0 0) (rotating 262143)) (fun u => !(u.sec.rot[(0 : Pid)]).active && (u.sec.rot[(0 : Pid)]).cur) = true :=
  ⟨by decide +kernel, by decide +kernel, by decide +kernel⟩

def peered (s : State) : State := s.modPart 0 fun x => { x with peers := [farPeer none] }

theorem witness_rotate : (fetched bound [rotateDesc]).dueCmd 0 0 0x42 = some (cmdOf rotateDesc) ∧ rotLink (cmdOf rotateDesc).desc = false ∧
    (fetched bound [rotateDesc]).rotateCheck 0 (cmdOf rotateDesc).desc false = none ∧
    (fetched unbound [rotateDesc]).rotateCheck 0 (cmdOf rotateDesc).desc false = some 0x0104 ∧
    (fetched (peered bound) [rotateLinkDesc]).dueCmd 0 0 0x42 = some (cmdOf rotateLinkDesc) ∧ rotLink (cmdOf rotateLinkDesc).desc = true ∧
    (fetched (peered bound) [rotateLinkDesc]).rotateCheck 0 (cmdOf rotateLinkDesc).desc false = none ∧
    (((fetched (peered bound) [rotateLinkDesc]).part 0).peers.any fun q => q.keyed) = true ∧ (bound.sec.rot[(0 : Pid)]).active = false ∧
    bound.sec.drbgDown = false := by
  refine ⟨?_, ?_, ?_, ?_, ?_, ?_, ?_, ?_, ?_, ?_⟩ <;> decide +kernel

/-- PWR_CAP_CFG takes 600 and 1,500 and no 599 or 1,501. -/
theorem test_cap : after (exec (.pwrCapCfg 600) unbound) (fun u => u.power.cap == 600) = true ∧
    after (exec (.pwrCapCfg 599) unbound) (fun u => u.power.cap == 1500 && u.power.cfgErr) = true ∧
    after (exec (.pwrCapCfg 1501) unbound) (fun u => u.power.cfgErr) = true :=
  ⟨by decide +kernel, by decide +kernel, by decide +kernel⟩

def deepAt (d : Deep) : State := { unbound with power := { unbound.power with deep := d } }

theorem test_deep : after (exec .deepIdleRequest unbound) (fun u => decide (u.power.deep = .entering)) = true ∧
    after (exec .deepIdleRequest bound) (fun u => u.power.cfgErr) = true ∧
    after (exec (.deepIdleEntered 0) (deepAt .entering)) (fun u => decide (u.power.deep = .inside)) = true ∧
    after (exec .deepIdleLeave (deepAt .inside)) (fun u => decide (u.power.deep = .leaving) && decide ((u.half 1).state = .down)) = true :=
  ⟨by decide +kernel, by decide +kernel, by decide +kernel, by decide +kernel⟩

theorem witness_power : unbound.setupOpen = true ∧ (∀ p : Pid, (unbound.part p).entry.st = .free) ∧ unbound.bind.clrPend = 0 ∧
    unbound.memctl.running = none ∧ unbound.memctl.queued = [] ∧ unbound.power.deep = .none ∧ (bound.part 0).entry.st ≠ .free ∧
    (deepAt .leaving).power.deep = .leaving ∧ (∀ h : HalfId, ((deepAt .leaving).links.half[h]).state ≠ .training) ∧
    ({ unbound with mgmt := { unbound.mgmt with recov := true } } : State).setupOpen = false ∧
    ((unbound.links.cfg[(0 : PortId)]).en = true) := by
  refine ⟨?_, ?_, ?_, ?_, ?_, ?_, ?_, ?_, ?_, ?_, ?_⟩ <;> decide +kernel

def sample (p pUp : Nat) : Sample := { p := p, pUp := pUp, nonCompute := 300, compute := List.replicate 16 10 }

/-- 1,801 W lowers the memory level and the running partition's point from 20 to 16; 1,501 W its point by one. -/
theorem test_sample : after (exec (.regulatorSample (sample 1801 1801) 0) busy)
      (fun u => u.power.fast && u.power.mlvl == 7 && u.power.pk[(0 : Pid)] == 16) = true ∧
    after (exec (.regulatorSample (sample 1501 1501) 0) busy) (fun u => u.power.mlvl == 8 && u.power.pk[(0 : Pid)] == 19) = true :=
  ⟨by decide +kernel, by decide +kernel⟩

theorem witness_power_loops : busy.pins.on = true ∧ (∀ q, busy.partRuns q = true ↔ q = 0) ∧ (∀ q, unbound.partRuns q = false) ∧
    (busy.sheavesOf 0).any (fun e => decide (busy.power.kmin.toNat < (busy.power.k[e]).toNat)) = true ∧
    ({ unbound with power := { unbound.power with mlvl := 3 } } : State).power.mlvl.toNat < 8 ∧ unbound.power.dieThrot[(0 : Fin 2)] = false := by
  refine ⟨?_, ?_, ?_, ?_, ?_, ?_⟩ <;> decide +kernel

/-- A sheaf at point 15 whose rail rises to 20; a die at DTHR; a warning released after 1 ms. -/
def rising_ : State := { unbound with power := { unbound.power with k := unbound.power.k.set 0 15, target := unbound.power.target.set 0 (some 20) } }
def warned : State := { unbound with power := { unbound.power with railWarn := unbound.power.railWarn.set 1 (some 5) } }

theorem test_rail : after (exec (.railSettled 0) rising_) (fun u => u.power.k[(0 : EngId)] == 20) = true ∧
    after (exec (.dieTempReading 0 100 0) unbound) (fun u => u.power.dieThrot[(0 : Fin 2)] && u.power.lim[(0 : EngId)] == 19) = true ∧
    stops (exec (.railWarningRelease 1 1000004) warned) = true ∧
    after (exec (.railWarningRelease 1 1000005) warned) (fun u => (u.power.railWarn[(1 : Fin 2)]).isNone) = true ∧
    after (exec (.ageingMonitorRead 0 true 0) unbound) (fun u => u.power.trim[(0 : Fin 2)] == 25) = true :=
  ⟨by decide +kernel, by decide +kernel, by decide +kernel, by decide +kernel, by decide +kernel⟩

theorem witness_rail : rising_.power.target[(0 : EngId)] = some 20 ∧ rising_.kWithheld 0 = false ∧ rising_.wantK 0 = 20 ∧
    unbound.power.target[(0 : EngId)] = none ∧ warned.power.railWarn[(1 : Fin 2)] = some 5 := by decide +kernel

/-! ### Links -/

/-- R260: lanes 4 to 7 pass: the group of 4 from lane 4; lane 3 alone: that lane; none: no group. -/
theorem test_groups : bestGroup (0, 8) 8 (fun l => decide (4 ≤ l)) = some (4, 4) ∧ bestGroup (0, 8) 8 (fun l => decide (l = 3)) = some (3, 1) ∧
    bestGroup (4, 4) 4 (fun _ => false) = none ∧ bestGroup (0, 8) 2 (fun _ => true) = some (0, 2) := by decide

/-- Module ID 7; half 0 in a state. -/
def linked (st : PortState) (s : State) : State :=
  { s with links := { s.links with modId := 7, half := s.links.half.set 0 { s.links.half[(0 : HalfId)] with state := st, peer := 9, lanes := 0xFF, ver := 2, width := 8 } } }

def found (usable : BitVec 8) (peer : ModId) : Training := { usable := usable, failed := 0, peer := peer, v10 := true, v11 := true, skew := 0 }

theorem test_training : after (exec (.portTrainingComplete 0 (found 0xF0 9) 0) (linked .training unbound))
      (fun u => decide ((u.half 0).state = .up) && (u.half 0).lanes == 0xF0 && (u.half 0).ver == 2) = true ∧
    after (exec (.portTrainingComplete 0 (found 0 9) 0) (linked .training unbound)) (fun u => decide ((u.half 0).state = .failed)) = true ∧
    after (exec (.portTrainingComplete 0 (found 0xFF 7) 0) (linked .training unbound)) (fun u => decide ((u.half 0).state = .down)) = true ∧
    stops (exec (.portTrainingComplete 0 (found 0xFF 9) 0) (linked .up unbound)) = true ∧
    after (exec (.portTrainingComplete 0 { found 0xF0 9 with failed := 0x0F } 7) (linked .training unbound))
      (fun u => (u.links.lanes[(3 : Fin 64)]).fails == [7]) = true :=
  ⟨by decide +kernel, by decide +kernel, by decide +kernel, by decide +kernel, by decide +kernel⟩

theorem witness_training : Trains (linked .training unbound) 0 ∧ ¬ Trains (linked .up unbound) 0 ∧
    (found 0xF0 9).peer ≠ (linked .training unbound).links.modId ∧
    bestGroup ((linked .training unbound).span 0) (maxWidth ((linked .training unbound).cfgOf 0))
      (fun l => bit (found 0xF0 9).usable l && !bit (found 0xF0 9).failed l && !bit (linked .training unbound).links.laneRet (laneId 0 l).val) =
        some (4, 4) :=
  ⟨⟨by decide +kernel, by decide +kernel, by decide +kernel, by decide +kernel⟩,
    fun h => (show ¬ (((linked .up unbound).half 0).state = .training ∨ ((linked .up unbound).half 0).state = .retrain) by decide +kernel) h.2.2.2,
    by decide +kernel, by decide +kernel⟩

def laneAt (x : Lane) (s : State) : State := { s with links := { s.links with lanes := s.links.lanes.set 3 x } }

/-- A lane retrains under version 1.1 with its port UP; its third failure within 10 s retires it, a first one is tried again after 1 s. -/
theorem test_lane : after (exec (.laneRetrainStart 3 0) (linked .up unbound))
      (fun u => (u.links.lanes[(3 : Fin 64)]).retrain && decide ((u.half 0).state = .up)) = true ∧
    after (exec (.laneRetrainEnd 3 false 100) (laneAt { retrain := true, retryAt := none, fails := [50, 0], tries := 2 } (linked .up unbound)))
      (fun u => u.links.laneRet == 8) = true ∧
    after (exec (.laneRetrainEnd 3 false 100) (laneAt { Lane.reset with retrain := true } (linked .up unbound)))
      (fun u => decide ((u.links.lanes[(3 : Fin 64)]).retryAt = some 1000000100)) = true ∧
    after (exec (.laneRetryTimer 3 100) (laneAt { Lane.reset with retryAt := some 100 } (linked .up unbound)))
      (fun u => (u.links.lanes[(3 : Fin 64)]).retrain) = true :=
  ⟨by decide +kernel, by decide +kernel, by decide +kernel, by decide +kernel⟩

theorem witness_lane : (linked .up unbound).halfUp 0 = true ∧ bit ((linked .up unbound).half 0).lanes 3 = true ∧ (linked .up unbound).halfOfLane 3 = 0 ∧
    (linked .up unbound).mayTrain 0 = true ∧ unbound.halfUp 0 = false ∧ ((linked .down unbound).half 0).state ≠ .up := by decide +kernel

/-- Port 0 split, without Ethernet, enabled; EPMD 0b11 changes nothing. -/
theorem test_port : after (exec (.portReconfigure 0 0x82) unbound) (fun u => (u.links.cfg[(0 : PortId)]).split && decide ((u.half 1).state = .training)) = true ∧
    after (exec (.portReconfigure 0 0xB2) unbound) (fun u => !(u.links.cfg[(0 : PortId)]).split) = true ∧
    after (exec (.portReconfigure 0 0) unbound) (fun u => decide ((u.half 0).state = .down)) = true :=
  ⟨by decide +kernel, by decide +kernel, by decide +kernel⟩

theorem test_mod_id : after (exec (.lnkModId 0x1FFF) unbound) (fun u => u.links.modId == 0x1FFF) = true ∧
    after (exec (.lnkModId 0x2000) unbound) (fun u => u.links.modId == 0xFFFF) = true ∧
    after (exec (.lnkModId 5) bound) (fun u => u.links.modId == 0xFFFF) = true := ⟨by decide +kernel, by decide +kernel, by decide +kernel⟩

theorem test_refclk : after (exec (.lnkRefclkLoss 0) unbound) (fun u => !u.pins.lnkClk && decide ((u.half 0).state = .down)) = true ∧
    after (exec .lnkRefclkReturn unbound) (fun u => decide ((u.half 0).state = .training)) = true := ⟨by decide +kernel, by decide +kernel⟩

theorem witness_link_regs : unbound.setupOpen = true ∧ (∀ q, (unbound.part q).entry.st ≠ .bound) ∧ unbound.pins.lnkClk = true ∧
    (∀ i : Fin 16, unbound.fenced .port i.val = false) ∧ (unbound.links.cfg[(0 : PortId)]).en = true ∧ (unbound.links.cfg[(0 : PortId)]).epmd ≠ 3 ∧
    unbound.mayTrain 0 = true ∧ unbound.halfThere 0 = true ∧ (unbound.half 1).state = .down ∧ unbound.up = true ∧
    (∀ h, (unbound.half h).state ≠ .up ∧ (unbound.half h).state ≠ .retrain) := by
  refine ⟨?_, ?_, ?_, ?_, ?_, ?_, ?_, ?_, ?_, ?_, ?_⟩ <;> decide +kernel

/-- Frames for module 7, job 7 (partition 0), from module 9 whose key is there. -/
def frame (vc : Vc) (seq : Nat) (crc tag : Bool) (body : FrameBody) : Frame :=
  { carrier := .native, src := 9, dst := 7, jobTag := 7, vc := vc, seq := seq, credits := PerVc.zero, arrived := PerVc.zero, crcOk := crc,
    tagOk := tag, body := body }

def putFrame (seq : Nat) : Frame := frame .vd1 seq true true (.put 5 0x40 [1, 2] true)

def hearing : State := peered (linked .up bound)

theorem test_frames : after (exec (.frameReceipt 0 (putFrame 0) 0) hearing)
      (fun u => Memory.readBytes u.mem ((u.part 0).devAddr 0x40) 2 == [1, 2] && sentMsgs u == [.landed 5 0]) = true ∧
    after (exec (.frameReceipt 0 (frame .vs 0 false true .keepAlive) 0) hearing) (fun u => u.outputs == [.port 0 (.nak 9 .vs 0)]) = true ∧
    after (exec (.frameReceipt 0 { frame .vs 0 true true .keepAlive with dst := 8 } 0) hearing) (fun u => u.links.discards == 1) = true ∧
    after (exec (.frameReceipt 0 (frame .vs 0 true false .keepAlive) 0) hearing) (fun u => u.links.authFail == 1 &&
      u.outputs == [.port 0 (.nak 9 .vs 0)]) = true ∧
    after (exec (.frameReceipt 0 { frame .vs 0 true true .credit with credits := { vs := 3, vd0 := 0, vd1 := 0 } } 0)
      (hearing.setHalf 0 fun h => { h with out := { vs := 4, vd0 := 0, vd1 := 0 } })) (fun u => (u.half 0).out.vs == 1) = true :=
  ⟨by decide +kernel, by decide +kernel, by decide +kernel, by decide +kernel, by decide +kernel⟩

/-- Frame 1 of module 9 came before frame 0: it waits, and is taken after it; a second copy of frame 0 changes nothing. -/
def ahead : State := hearing.modPeer 0 9 fun q => { q with early := [(0, frame .vd1 1 true true (.put 6 0x40 [3] true))] }

theorem test_order : after (exec (.frameReceipt 1 (putFrame 1) 0) (hearing.setHalf 1 fun h => { h with state := .up }))
      (fun u => u.mem == hearing.mem && ((u.peer 0 9).map fun q => q.early.length) == some 1) = true ∧
    after (exec (.frameReceipt 0 (putFrame 0) 0) ahead)
      (fun u => Memory.readBytes u.mem ((u.part 0).devAddr 0x40) 2 == [3, 2] && ((u.peer 0 9).map fun q => q.rx.vd1) == some 2) = true ∧
    after (exec (.frameReceipt 0 (putFrame 0) 0) (hearing.modPeer 0 9 fun q => { q with rx := { vs := 0, vd0 := 0, vd1 := 1 } }))
      (fun u => u.mem == hearing.mem && u.outputs == []) = true :=
  ⟨by decide +kernel, by decide +kernel, by decide +kernel⟩

theorem witness_frames : hearing.halfUp 0 = true ∧ (hearing.cfgOf 0).eth = false ∧ hearing.partOfJob 7 = some 0 ∧ hearing.peer 0 9 = some (farPeer none) ∧
    (farPeer none).fails < 15 ∧ (linked .up bound).peer 0 9 = none ∧ (putFrame 0).payload ≤ 512 ∧ hearing.frameInOrder (putFrame 0) = true ∧
    hearing.siloWaiting 0 0x40 2 = [] ∧ hearing.siloFenced 0 0x40 2 = false ∧ hearing.partialBad 0 0x40 2 = false ∧ Memory.wf hearing.mem = true ∧
    hearing.partOfJob 8 = none ∧ hearing.moultOfJob 8 = none ∧ unbound.halfUp 0 = false ∧ (farPeer none).taken (putFrame 0) = false ∧
    Ready hearing 0 9 .vs 1 (farPeer none) ∧
    ({ hearing with bind := { hearing.bind with clrPend := 1 } } : State).siloWaiting 0 0x40 2 ≠ [] := by
  refine ⟨?_, ?_, ?_, ?_, ?_, ?_, ?_, ?_, ?_, ?_, ?_, ?_, ?_, ?_, ?_, ?_, ⟨?_, ?_, ?_, ?_, ?_, ?_⟩, ?_⟩ <;> decide +kernel

theorem witness_taken : ({ farPeer none with rx := { vs := 0, vd0 := 0, vd1 := 1 } } : Peer).taken (putFrame 0) = true ∧
    ({ farPeer none with fails := 15 } : Peer).fails = 15 ∧ (Message.keepAlive).frames = [.keepAlive] ∧
    hearing.txHalf 0 (farPeer none) .vs 1 = some 0 ∧ hearing.txHalf 0 { farPeer none with id := 8 } .vs 1 = none := by
  refine ⟨?_, ?_, ?_, ?_, ?_⟩ <;> decide +kernel

/-- An Ethernet port 0 that is UP with one datagram of partition 0 in its buffer; its address is prefix 0, module 7, port 0. -/
def datagram : SentFrame :=
  { id := { pid := 0, peer := 9, vc := .vd1, seq := 4 }, msg := .put 0 0 [1] true, dgram := true, sends := 1, at_ := 0
    hd := { half := 0, src := 7, dst := 9, job := 7, vc := .vd1, len := 1, seq := 4, credits := PerVc.zero, arrived := PerVc.zero, net := none } }

def ethernet : State :=
  let s := linked .up bound
  { s with links := { s.links with
      cfg := s.links.cfg.set 0 { s.links.cfg[(0 : PortId)] with eth := true, pfc := true }
      half := s.links.half.set 0 { s.links.half[(0 : HalfId)] with replay := [datagram] } } }

theorem test_ethernet : after (exec (.datagramResend 0 datagram.id) (ethernet.at_ 20000)) (fun u => u.links.replays == 1 &&
      u.outputs == [.frame datagram.hd datagram.msg]) = true ∧
    stops (exec (.datagramResend 0 datagram.id) (ethernet.at_ 19999)) = true ∧
    after (exec (.frameNak 0 datagram.id) ethernet) (fun u => u.links.replays == 1) = true ∧
    after (exec (.echoRequest 0 0x700 [1]) ethernet) (fun u => u.outputs == [.net 0 [1]]) = true ∧
    after (exec (.echoRequest 0 0x701 [1]) ethernet) (fun u => u.outputs == [] && u.links.discards == 1) = true ∧
    after (exec (.priorityFlowControl 0 true) ethernet) (fun u => u.links.paused[(0 : PortId)]) = true :=
  ⟨by decide +kernel, by decide +kernel, by decide +kernel, by decide +kernel, by decide +kernel, by decide +kernel⟩

/-- A put to module 9 goes as a datagram to its port 0, under LNK_ETH_UDP and LNK_ETH_DSCP, and waits while the data priority pauses. -/
theorem test_datagram : after (.next ((peered ethernet).send 0 9 (.put 0 0 [1] true)))
      (fun u => (u.outputs.map fun o => match o with
        | .frame hd _ => hd.net.map fun n => (n.dst, n.udp, n.dscp)
        | _ => none) == [some (0x900, 50432, 26)]) = true ∧
    after (.next ({ peered ethernet with links := { ethernet.links with paused := ethernet.links.paused.set 0 true } }.send 0 9 (.put 0 0 [1] true)))
      (fun u => u.outputs == [] && u.links.txq.length == 1) = true := ⟨by decide +kernel, by decide +kernel⟩

theorem witness_ethernet : ethernet.ethUp 0 = true ∧
    (0x700 : Nat) = (ethernet.links.pfx.toNat * 2 ^ 64 + ethernet.links.modId.toNat * 256 + 0) % 2 ^ 128 ∧ unbound.ethUp 0 = false ∧
    (ethernet.half 0).replay.find? (fun x => decide (x.id = datagram.id)) = some datagram ∧ ethernet.halfUp 0 = true ∧
    datagram.at_ + 20000 ≤ (ethernet.at_ 20000).now ∧ ethernet.now < datagram.at_ + 20000 := by decide +kernel

/-- Peers: a handshake with a good certificate gives a key; one below PEERMIN gives none. -/
def cert (n : BitVec 16) : PeerCert := { chainOk := true, svn := n, v11 := true }
def minned (s : State) : State := { s with sec := { s.sec with peerMin := 3 } }

theorem test_handshake : after (exec (.linkHandshake 0 9 (cert 3) 0) (minned (linked .up bound))) (fun u => decide ((u.peer 0 9).map (·.keyed) = some true)) = true ∧
    after (exec (.linkHandshake 0 9 (cert 2) 0) (minned (linked .up bound))) (fun u => decide ((u.peer 0 9).map (·.keyed) = some false)) = true ∧
    after (exec (.rekey 0 { id := 9, cert := cert 3 }) (minned hearing)) (fun u => u.sec.keyGen == 3) = true ∧
    after (exec (.rekey 0 { id := 9, cert := cert 2 }) (minned hearing)) (fun u => decide ((u.peer 0 9).map (·.keyed) = some false)) = true :=
  ⟨by decide +kernel, by decide +kernel, by decide +kernel, by decide +kernel⟩

def put1 (s : State) : State := s.modPart 0 fun x => { x with peers := [{ farPeer none with lastPut := some 0 }] }

theorem test_keepalive : after (exec (.keepaliveSend 0) (put1 hearing)) (fun u => (sentMsgs u).contains .keepAlive) = true ∧
    stops (exec (.keepaliveTimeout 0 9 7999) (put1 hearing)) = true ∧
    after (exec (.retrainNotice 0 9 5) hearing) (fun u => decide ((u.peer 0 9).bind (·.suspended) = some 1000005)) = true :=
  ⟨by decide +kernel, by decide +kernel, by decide +kernel⟩

theorem witness_peers : hearing.linkOpen 0 = true ∧ ((hearing.peer 0 9).bind (·.lost)) = none ∧ hearing.sec.drbgDown = false ∧ hearing.sec.idCause = 0 ∧
    (cert 3).chainOk = true ∧ (minned hearing).sec.peerMin ≤ (cert 3).svn ∧ (cert 2).svn < (minned hearing).sec.peerMin ∧
    unbound.linkOpen 0 = false ∧ (((put1 hearing).at_ 8000).peerSet 0).contains 9 = true ∧
    (farPeer none).lastAlive + 8000 ≤ ((put1 hearing).at_ 8000).now ∧ ((put1 hearing).at_ 7999).now < (farPeer none).lastAlive + 8000 ∧
    (farPeer none).suspended = none ∧ hearing.up = true ∧ ({ hearing with sec := { hearing.sec with drbgDown := true } } : State).sec.drbgDown = true := by
  refine ⟨?_, ?_, ?_, ?_, ?_, ?_, ?_, ?_, ?_, ?_, ?_, ?_, ?_, ?_⟩ <;> decide +kernel

def suspended : State := (linked .up bound).modPart 0 fun x => { x with peers := [{ farPeer none with suspended := some 50 }] }

theorem witness_suspension : (suspended.peer 0 9).bind (·.suspended) = some 50 ∧ (suspended.at_ 49).now < 50 ∧ 50 ≤ (suspended.at_ 50).now ∧
    ((peered busy).running 0) = some (launch, job) ∧ (peered busy).partOfJob 7 = some 0 := by
  refine ⟨?_, ?_, ?_, ?_, ?_⟩ <;> decide +kernel

/-- An image with two entries of link work, a PUT of 8 bytes to module 9 and one with a wait that names no object, a third with
a deadline that closes at 1,000, and a group of modules 7 and 9. -/
def linkImage : List Byte :=
  List.replicate 6 0 ++ leBytes 2 4 ++ List.replicate 248 0 ++
    (leBytes 2 1 ++ leBytes 2 0 ++ leBytes 4 1 ++ leBytes 8 1024 ++ leBytes 8 4096 ++ leBytes 8 0) ++
    (leBytes 2 9 ++ leBytes 2 0 ++ leBytes 4 3 ++ leBytes 8 384 ++ leBytes 8 192 ++ leBytes 8 0) ++
    (leBytes 2 10 ++ leBytes 2 0 ++ leBytes 4 1 ++ leBytes 8 576 ++ leBytes 8 16 ++ leBytes 8 0) ++
    (leBytes 2 11 ++ leBytes 2 0 ++ leBytes 4 1 ++ leBytes 8 640 ++ leBytes 8 16 ++ leBytes 8 0) ++
    words [1 * 2 ^ 60 + 9, 8, 0x100, 0x200, 0, 0, 0, 0] ++ words [1 * 2 ^ 60 + 1 * 2 ^ 31 + 9, 8, 0x100, 0x200, 0xFFFF, 0, 0, 0] ++
    words [2 * 2 ^ 60 + 1 * 2 ^ 33, 8, 0x100, 0x200, 0, 0, 0, 0] ++ words [2, 7 + 9 * 2 ^ 16] ++ List.replicate 48 0 ++ words [1000, 0]

def linkJob : Program := { job with image := linkImage }

def linkLaunch (n : Nat) (act : List LinkEntry) : Launch := { launch with nextEntry := n, active := act }

def linking (n : Nat) (act : List LinkEntry) : State :=
  hearing.modPart 0 fun x => { x with slots := x.slots.set 0 (some linkJob), launch := some (linkLaunch n act) }

def entry0 (un : List (ModId × Nat)) : LinkEntry := { idx := 0, phase := .moving, carry := false, unacked := un }

theorem test_link_entry : after (exec (.linkEntryStart 0 0) (linking 0 [])) (fun u => sentMsgs u == [.put 0 0x200 (List.replicate 8 0) true]) = true ∧
    after (exec (.transferAck 0 0 9) (linking 1 [entry0 [(9, 0)]]))
      (fun u => decide ((u.part 0).launch.map (·.active) = some [entry0 []])) = true ∧
    after (exec (.linkEntryComplete 0 0 [] 0) (linking 1 [entry0 []])) (fun u => decide ((u.part 0).launch.map (·.active) = some [])) = true ∧
    stops (exec (.linkEntryComplete 0 0 [] 0) (linking 1 [entry0 [(9, 0)]])) = true :=
  ⟨by decide +kernel, by decide +kernel, by decide +kernel, by decide +kernel⟩

theorem test_deadline : stops (exec (.deadlineClose 0 2 999) (linking 0 [])) = true ∧
    after (exec (.deadlineClose 0 2 1000) (linking 0 [])) (fun u => decide ((u.part 0).launch.map (·.closed) = some [2])) = true ∧
    after (exec (.readyNotice 0 2 1 false 6) { linking 0 [] with parts := ((linking 0 []).modPart 0 fun x =>
        { x with launch := some { linkLaunch 0 [] with sentVerdicts := [2] } }).parts })
      (fun u => decide ((u.part 0).launch.map (·.notices) = some [{ entry := 2, rank := 1, stamp := 6, carry := false }])) = true :=
  ⟨by decide +kernel, by decide +kernel, by decide +kernel⟩

theorem witness_link_work : (linking 0 []).live 0 = some (linkLaunch 0 [], linkJob) ∧ linkTurn (linkLaunch 0 []) linkJob = true ∧
    ((imgLinks linkImage)[0]?).map (fun r => (r.op, r.wcond, r.dln, r.tgt, r.count)) = some (1, 0, 0, 9, 8) ∧
    ((imgLinks linkImage)[1]?).map (fun r => (r.op, r.wcond, r.wref)) = some (1, 1, 65535) ∧
    ((imgLinks linkImage)[2]?).bind (linkDeadline linkJob) = some { policy := 0, maxx := 0, resv := 0, close := 1000, dbuf := 0 } ∧
    ((imgLinks linkImage)[2]?).map (linkGroup linkJob) = some [7, 9] ∧ ((imgLinks linkImage)[2]?).map ((linking 0 []).ownRank linkJob) = some 0 ∧
    ((imgLinks linkImage)[0]?).map ((linking 0 []).lostFor 0 linkJob) = some none ∧ (linking 0 []).siloFenced 0 0x100 8 = false ∧
    (linking 0 []).siloBadAt 0 0x100 8 = none ∧ ((linking 0 []).part 0).objOf 65535 = none ∧ linkTurn (linkLaunch 3 []) linkJob = false ∧
    (linkLaunch 0 []).verdictOf 2 = none ∧ imgDlog linkImage = none := by
  refine ⟨?_, ?_, ?_, ?_, ?_, ?_, ?_, ?_, ?_, ?_, ?_, ?_, ?_, ?_⟩ <;> decide +kernel

/-! ### Registers, resets, start-up, errors, debug -/

/-- Values at the ends of the ranges: TTHR 85 and 105, not 84; UDP port 1,024, not 1,023; DSCP not 46; lead 2,048; wait limit 2^20. -/
theorem test_register_ranges : after (exec (.registerWrite 0 0x30040 true 85) unbound) (fun u => u.memctl.tthr == 85) = true ∧
    after (exec (.registerWrite 0 0x30040 true 84) unbound) (fun u => u.memctl.tthr == 95) = true ∧
    after (exec (.registerWrite 0 0x40208 true 1023) unbound) (fun u => u.links.udp == 50432) = true ∧
    after (exec (.registerWrite 0 0x40210 true 46) unbound) (fun u => u.links.dscp == 26) = true ∧
    after (exec (.registerWrite 0 0x50018 true 2047) unbound) (fun u => u.time.lead == 4096) = true ∧
    after (exec (.registerWrite 0 0x50108 true 0x100000) unbound) (fun u => (u.part 1).waitLim == 0x100000) = true :=
  ⟨by decide +kernel, by decide +kernel, by decide +kernel, by decide +kernel, by decide +kernel, by decide +kernel⟩

theorem witness_registers : unbound.fnUp 0 = true ∧ unbound.mgmt.recov = false ∧ unbound.fnUp 3 = false ∧
    ({ unbound with mgmt := { unbound.mgmt with recov := true } } : State).mgmt.recov = true ∧ (unbound.ring 0 5).en = false := by decide +kernel

/-- PART_ID reads what the spec's table gives for a full-grade part (20 R444). -/
theorem test_part_id : after (exec (.regRead .pcie 0x10000) unbound) (fun u => u.outputs == [.read .pcie 0x0D110180]) = true := by decide +kernel

theorem test_devrst : after (exec (.devrst .register) { unbound with mem := [(4, 4)] }) (fun u => u.mem == [] && decide (u.mgmt.stage = .verify) && u.pins.pcieUp) = true ∧
    after (exec .perstAssert unbound) (fun u => !u.pins.pcieUp && decide (u.mgmt.stage = .none)) = true := ⟨by decide +kernel, by decide +kernel⟩

def fatalAt (t : Nat) : State := { unbound with mgmt := { unbound.mgmt with fatalAt := some t } }
def noInput : State := { unbound with pins := { unbound.pins with input := .none, on := false, pwrgd := false } }
def inPerst : State := { unbound with pins := { unbound.pins with perst := true } }

/-- A fatal fault at 7 resets at 1,000,007; PERST_N released 99 ms after PWRGD is held, at 100 ms the stages start. -/
theorem test_fatal : stops (exec (.fatalResetTimer 1000006) (fatalAt 7)) = true ∧
    after (exec (.deviceFatalFault 2 5) unbound) (fun u => u.mgmt.fatalRec == 3 && decide (u.mgmt.fatalAt = some 5)) = true ∧
    after (exec (.perstRelease 99) inPerst) (fun u => u.pins.hold) = true ∧
    after (exec (.perstRelease 100) inPerst) (fun u => !u.pins.perst && decide (u.mgmt.stage = .root)) = true ∧
    after (exec .inputApplied noInput) (fun u => u.pins.on) = true :=
  ⟨by decide +kernel, by decide +kernel, by decide +kernel, by decide +kernel, by decide +kernel⟩

theorem witness_resets : unbound.setupOpen = true ∧ unbound.pins.pcieUp = true ∧ (fatalAt 7).mgmt.fatalAt = some 7 ∧ unbound.mgmt.fatalAt = none ∧
    unbound.alive = true ∧ inPerst.alive = false ∧ unbound.mgmt.resetting = false ∧ unbound.pins.input = .applied ∧ noInput.pins.input = .none ∧
    noInput.pins.on = false ∧ ({ unbound with mgmt := { unbound.mgmt with resetting := true } } : State).alive = true := by decide +kernel

/-- In a stage after reset. -/
def staged (st : Stage) (s : State) : State := { s with mgmt := { s.mgmt with stage := st, resetting := true } }

def report (ok : Bool) (ds : List (Nat × Nat × Nat)) : TestReport := { defects := ds, channels := [], engines := [], repairRecordOk := ok }

theorem test_stages : after (exec (.bootStageEnd (.root true 0)) (staged .root unbound)) (fun u => decide (u.mgmt.stage = .verify)) = true ∧
    after (exec (.bootStageEnd (.root false 0)) (staged .root unbound)) (fun u => decide (u.pins.alerts = [.rom])) = true ∧
    after (exec (.bootStageEnd (.verify true false false)) (staged .verify unbound)) (fun u => decide (u.mgmt.stage = .test)) = true ∧
    after (exec (.bootStageEnd (.test (report false []))) (staged .test unbound)) (fun u => u.mgmt.halted) = true ∧
    after (exec (.bootStageEnd (.mem [] false)) (staged .mem unbound)) (fun u => decide (u.mgmt.stage = .link)) = true :=
  ⟨by decide +kernel, by decide +kernel, by decide +kernel, by decide +kernel, by decide +kernel⟩

theorem witness_stages : (staged .verify unbound).alive = true ∧ (staged .verify unbound).mgmt.imgOk = true ∧ (staged .verify unbound).mgmt.force = false ∧
    (staged .verify unbound).mgmt.owner = [] ∧ (staged .verify unbound).mgmt.preset = [] ∧ (staged .mem unbound).mgmt.stage = .mem ∧
    (staged .test unbound).mgmt.resetting = true ∧ (∀ h, ((staged .mem unbound).half h).state = .down) ∧ (unbound.tile 0).enabled = true ∧
    (unbound.tile 0).pend = false ∧ ((unbound.modTile 0 fun y => { y with pend := true }).tile 0).pend = true ∧
    ((unbound.modTile 0 fun y => { y with retired := true }).tile 0).enabled = false := by
  refine ⟨?_, ?_, ?_, ?_, ?_, ?_, ?_, ?_, ?_, ?_, ?_, ?_⟩ <;> decide +kernel

/-- Unit 0 allows 2 failures, units 1 and 2 allow 7. -/
theorem test_hard_fault : after (exec (.tileHardFault 0 0 2 0) unbound) (fun u => (u.tile 0).retryCnt == 2 && !(u.tile 0).pend) = true ∧
    after (exec (.tileHardFault 0 0 3 0) unbound) (fun u => (u.tile 0).pend) = true ∧
    after (exec (.tileHardFault 0 1 7 0) unbound) (fun u => (u.tile 0).sramCnt == 7 && !(u.tile 0).pend) = true :=
  ⟨by decide +kernel, by decide +kernel, by decide +kernel⟩

/-- A sheaf's copy from the past, from a later epoch, from the future. -/
def audited (e : Half) : UnitState := { owner := some 1, st := .bound, epoch := e }
def sheaf0 : UnitId := { kind := .sheaf, index := 0 }
def epochs : State := { unbound with bind := { unbound.bind with bepoch := 5, sheaves := unbound.bind.sheaves.set 0 { owner := none, st := .free, epoch := 3 } } }

theorem test_audit : after (exec (.bindingAudit [(sheaf0, audited 2)] 0) epochs) (fun u => decide ((u.bind.sheaves[(0 : EngId)]).epoch = 3)) = true ∧
    after (exec (.bindingAudit [(sheaf0, audited 4)] 0) epochs) (fun u => decide ((u.bind.sheaves[(0 : EngId)]).epoch = 4)) = true ∧
    after (exec (.bindingAudit [(sheaf0, audited 6)] 0) epochs) (fun u => u.bind.fenced.length == 1) = true :=
  ⟨by decide +kernel, by decide +kernel, by decide +kernel⟩

theorem witness_audit : epochs.up = true ∧ epochs.bind.unitState sheaf0 = some { owner := none, st := .free, epoch := 3 } ∧
    sheaf0 ∉ epochs.bind.fenced := by decide +kernel

/-- FULL for a partition with no tenant session; a tenant session gets HALT; halting and stepping under FULL. -/
def tenanted : State := { bound with sec := { bound.sec with tdi := bound.sec.tdi.set 0 .locked } }
def full (s : State) : State := { s with sec := { s.sec with dbg := s.sec.dbg.set 0 3 } }
def haltedCore (s : State) : State := s.modCore 0 fun c => { c with dbgHalt := true }

theorem test_attach : after (exec (.dbgAttach 3 .pf0) bound) (fun u => u.sec.dbg[(0 : Pid)] == 3 && u.sec.log.length == 2) = true ∧
    after (exec (.dbgAttach 3 .pf0) tenanted) (fun u => u.sec.dbg[(0 : Pid)] == 2) = true ∧
    after (exec (.dbgAttach 0 .pf0) (full bound)) (fun u => u.sec.dbg[(0 : Pid)] == 0) = true ∧
    after (exec (.jtagAttach 1) bound) (fun u => u.outputs.length == 1) = true :=
  ⟨by decide +kernel, by decide +kernel, by decide +kernel, by decide +kernel⟩

theorem test_debug : after (exec (.debugHalt 0) (full busy)) (fun u => (u.core 0).dbgHalt) = true ∧
    after (exec (.debugSingleStep 0) (haltedCore (full busy))) (fun u => (u.core 0).dbgSteps == 1) = true ∧
    after (exec (.debugHalt 0) busy) (fun u => !(u.core 0).dbgHalt) = true := ⟨by decide +kernel, by decide +kernel, by decide +kernel⟩

theorem witness_debug : (3 : Half).toNat / 65536 % 16 = (0 : Pid).val ∧ bound.setupOpen = true ∧ (bound.part 0).entry.keyMoult = false ∧
    ((tenanted.part 0).entry.st = .bound ∧ tenanted.sec.tdi[(tenanted.part 0).entry.hfn] = .locked) ∧ bit (0x80000003 : Half) 31 = true ∧
    bound.sec.dbg[(0 : Pid)] ≠ 3 ∧ busy.partOfTile 0 = some 0 ∧ (full busy).sec.dbg[(0 : Pid)] = 3 := by decide +kernel

/-! ### SPDM, TDISP, IDE, management -/

def negotiated (s : State) : State := { s with sec := { s.sec with ver := true, caps := true, algs := true } }

theorem test_negotiation : after (exec (.getVersion .pf0) (negotiated unbound)) (fun u => u.sec.ver && !u.sec.caps && !u.sec.algs) = true ∧
    after (exec (.getDigests .pf0) unbound) (fun u => u.outputs == [.spdm .pf0 [0x7F, 0x04]]) = true ∧
    after (exec (.getMeasurements .pf0 0 0 none) (negotiated unbound)) (fun u => u.outputs == [.spdm .pf0 [0x60, 7]]) = true ∧
    after (exec (.getCapabilities { via := .pf0, versions := [0x11, 0x20, 0x12] }) (negotiated unbound)) (fun u => u.sec.spdm == 0x12) = true ∧
    after (exec (.challenge .pf0 1 0) (negotiated unbound)) (fun u => u.outputs == [.spdm .pf0 [0x7F, 0x01]]) = true :=
  ⟨by decide +kernel, by decide +kernel, by decide +kernel, by decide +kernel⟩

theorem witness_spdm : Hears (negotiated unbound) .pf0 ∧ (negotiated unbound).sec.algs = true ∧ unbound.sec.algs = false ∧ inPerst.reachable .pf0 = false ∧
    ({ unbound with mgmt := { unbound.mgmt with recov := true } } : State).reachable .pf0 = true ∧
    ({ unbound with sec := { unbound.sec with idCause := 2 } } : State).sec.idCause ≠ 0 :=
  ⟨⟨by decide +kernel, by decide +kernel, by decide +kernel⟩, by decide +kernel, by decide +kernel, by decide +kernel, by decide +kernel,
    by decide +kernel⟩

/-- A session of PF0's mailbox, up or not, that locked VF 3, which holds partition 0. -/
def aSession (up : Bool) : Session := { id := 1, via := .pf0, up := up, period := 60, last := 0, keyGen := 1 }

def inSession (up : Bool) (y : Tdi) : State :=
  let s := negotiated (bound.modPart 0 fun x => { x with entry := { x.entry with hfn := 3 } })
  { s with vfs := 3, sec := { s.sec with
      sessions := [aSession up], tdi := s.sec.tdi.set 3 y, tdiSess := s.sec.tdiSess.set 3 (if y = .unlocked then none else some 1) } }

theorem test_sessions : after (exec (.keyExchange .pf0 { session := 9, slot := 0 } 0) (negotiated unbound)) (fun u => u.sec.sessions.length == 1 && u.sec.keyGen == 3) = true ∧
    after (exec (.finish 1 true 30 0) (inSession false .unlocked)) (fun u => u.sec.sessions == [{ aSession true with period := 30 }]) = true ∧
    after (exec (.finish 1 false 30 0) (inSession false .unlocked)) (fun u => u.sec.sessions == []) = true ∧
    stops (exec (.heartbeatTimeout 1 59999999999) (inSession true .unlocked)) = true ∧
    after (exec (.heartbeatTimeout 1 60000000000) (inSession true .unlocked)) (fun u => u.sec.sessions == []) = true :=
  ⟨by decide +kernel, by decide +kernel, by decide +kernel, by decide +kernel, by decide +kernel⟩

theorem witness_sessions : UpSession (inSession true .locked) 1 (aSession true) ∧ (inSession false .unlocked).session 1 = some (aSession false) ∧
    (aSession false).up = false ∧ Hears (inSession false .unlocked) .pf0 ∧ unbound.session 1 = none ∧ (inSession true .locked).sec.drbgDown = false ∧
    (inSession true .locked).sec.tdiSess[(3 : Fn)] = some 1 ∧ (inSession true .locked).partOfFn 3 = some 0 ∧
    (List.replicate 17 (aSession true)).length = 17 ∧ unbound.up = true :=
  ⟨⟨by decide +kernel, by decide +kernel, by decide +kernel, by decide +kernel, by decide +kernel⟩, by decide +kernel, by decide +kernel,
    ⟨by decide +kernel, by decide +kernel, by decide +kernel⟩, by decide +kernel, by decide +kernel, by decide +kernel, by decide +kernel,
    by decide +kernel, by decide +kernel⟩

theorem test_interface : after (exec (.lockInterfaceRequest 1 3) (inSession true .unlocked)) (fun u => decide (u.sec.tdi[(3 : Fn)] = .locked)) = true ∧
    after (exec (.startInterfaceRequest 1 3) (inSession true .locked)) (fun u => decide (u.sec.tdi[(3 : Fn)] = .run)) = true ∧
    after (exec (.startInterfaceRequest 1 3) (inSession true .unlocked)) (fun u => u.outputs == [.spdm .pf0 [0x7E, 0x7F]]) = true ∧
    after (exec (.ideKmKeyProgram 1 17 true) (inSession true .unlocked)) (fun u => decide ((u.sec.ide[(17 : Fin 18)]).prog = (false, true))) = true :=
  ⟨by decide +kernel, by decide +kernel, by decide +kernel, by decide +kernel⟩

theorem witness_interface : (inSession true .unlocked).fnState 3 = .bound ∧ (inSession true .unlocked).sec.tdi[(3 : Fn)] = .unlocked ∧
    (inSession true .run).sec.tdi[(3 : Fn)] = .run ∧ (inSession true .error).sec.tdi[(3 : Fn)] = .error ∧ (inSession true .locked).fnUp 3 = true ∧
    ((inSession true .locked).sec.ide[(0 : Fin 18)]).active ≠ some true ∧ ((inSession true .locked).part 0).entry.st = .bound := by decide +kernel

/-- Management: endpoint IDs, the vendor's identifier, sensors, one dynamic address. -/
theorem test_messages : after (exec (.setEndpointId .i3c 9) unbound) (fun u => u.mgmt.eidI3c == 9 && u.outputs == [.mctp .i3c [1, 0, 9]]) = true ∧
    after (exec (.setEndpointId .i3c 0) unbound) (fun u => u.outputs == [.mctp .i3c [1, 2]]) = true ∧
    after (exec (.getMctpVersionSupport .pcie 2) unbound) (fun u => u.outputs == [.mctp .pcie [4, 0x80]]) = true ∧
    after (exec (.entdaa 8) unbound) (fun u => decide (u.mgmt.i3cAddr = some 8)) = true ∧
    after (exec (.sensorRefresh 0x40 0) unbound) (fun u => u.mgmt.sensors == [(0x40, 1500)]) = true :=
  ⟨by decide +kernel, by decide +kernel, by decide +kernel, by decide +kernel, by decide +kernel⟩

theorem witness_messages : unbound.mctpUp .i3c = true ∧ unbound.mctpUp .pcie = true ∧ inPerst.mctpUp .i3c = false ∧ unbound.mgmt.resetting = false ∧
    unbound.verified = true ∧ unbound.mgmt.i3cAddr = none ∧ sensorThere 0x40 = true ∧ (0x40000 : BitVec 24).toNat % 8 = 0 := by decide +kernel

/-- An update in a state, with data and size. -/
def updating (st : FwuState) (have_ need : Nat) (progress : Byte) : State :=
  { unbound with mgmt := { unbound.mgmt with fwu := st, data := List.replicate have_ 0, dataNeed := need, progress := progress } }

theorem test_update : after (exec (.requestupdate .i3c .config 4128) unbound) (fun u => decide (u.mgmt.fwu = .receiving)) = true ∧
    after (exec (.requestupdate .i3c .config 4129) unbound) (fun u => u.outputs == [.mctp .i3c [5, 0x10, 2]]) = true ∧
    after (exec (.firmwareDataReceipt [1, 2]) (updating .receiving 2 4 0)) (fun u => u.mgmt.progress == 100) = true ∧
    stops (exec (.firmwareDataReceipt [1, 2, 3]) (updating .receiving 2 4 0)) = true ∧
    after (exec .transfercomplete (updating .receiving 4 4 100)) (fun u => decide (u.mgmt.fwu = .verifying)) = true :=
  ⟨by decide +kernel, by decide +kernel, by decide +kernel, by decide +kernel, by decide +kernel⟩

theorem test_activate : after (exec (.updateVerifyEnd .badSignature) (updating .verifying 4 4 0)) (fun u => u.mgmt.fwuCode == 0x0402) = true ∧
    after (exec .activatefirmware (updating .applying 0 0 100)) (fun u => decide (u.mgmt.fwu = .pending)) = true ∧
    stops (exec .activatefirmware (updating .applying 0 0 50)) = true ∧
    after (exec .cancelupdate (updating .receiving 2 4 50)) (fun u => decide (u.mgmt.fwu = .idle)) = true :=
  ⟨by decide +kernel, by decide +kernel, by decide +kernel, by decide +kernel⟩

theorem witness_update : unbound.mctpUp .i3c = true ∧ unbound.mgmt.fwu = .idle ∧ (updating .receiving 2 4 0).mgmt.data.length = 2 ∧
    (updating .verifying 4 4 0).mgmt.comp = .firmware ∧ (updating .applying 4 4 0).mgmt.progress ≠ 100 ∧ unbound.mgmt.recov = false := by decide +kernel

/-! ### The machine as a whole -/

theorem test_step : after (step { at_ (wordAt 2 1 0 0 0) busy with pending := [.inti 0 .add 1 0 7, .halt 0] })
    (fun u => (u.core 0).g[1] == 7 && u.pending == [.halt 0]) = true := by decide +kernel

theorem test_idle_tick : after (step State.reset) (fun u => u.time.gt == 1 && u.time.cd0 == 1 && u.time.cd1 == 1) = true := by decide +kernel

theorem witness_canonical : busy.canonical = true ∧ after (step { at_ (wordAt 2 1 0 0 0) busy with pending := [.inti 0 .add 1 0 7] }) (fun _ => true) = true :=
  ⟨by decide +kernel, by decide +kernel⟩

theorem witness_log : LogOk unbound := ⟨by decide +kernel, by decide +kernel, fun _ => rfl⟩

theorem witness_ranges : InRanges unbound := by
  refine ⟨?_, ?_, ?_, ?_, ?_, ?_, ?_, ?_, ?_, ?_, ?_, ?_, ?_, ?_, ?_, ?_, ?_, ?_, ?_⟩ <;> decide +kernel

/-! ### The spec's worked examples -/

/-- R212: A = 0x1234567A00 lies in pseudo-channel 222, at offset 596,523, bank 52, row 2,330. -/
theorem test_address_example : pcOf 0x1234567A00 = 222 ∧ pcOffset 0x1234567A00 = 596523 ∧ bankOf 596523 = 52 ∧ rowOf 596523 = 2330 ∧
    pcOf (0x1234567A00 + 256) = 223 := by decide

/-- R450: rows 40 and 90 mapped out give TRIM2 0x55550000, TRIM0 and TRIM1 zero and TRIM5 0xAAA95555. -/
theorem test_trim_example : trimWord [40, 90] 0 = 0 ∧ trimWord [40, 90] 1 = 0 ∧ trimWord [40, 90] 2 = 0x55550000 ∧ trimWord [40, 90] 5 = 0xAAA95555 := by
  decide
end Sys2Proof.Tests
end

