-- ==== Sys2Proof/Proofs/RingRegisters.lean ====
section
/-!
PROOFS. The version, ring and event ring registers and the doorbells of a host function (16 R359 to R361, R384).
-/
namespace Sys2Proof.Machine

open Sys2Proof.Claims

/-! ### Fields and guards of the register writes -/

/-- A bit field as the quotient and remainder that the rules write. -/
theorem bits_eq_div_mod {w : Nat} (x : BitVec w) (hi lo : Nat) : bits x hi lo = x.toNat / 2 ^ lo % 2 ^ (hi + 1 - lo) := by
  rw [bits, Nat.shiftRight_eq_div_pow]

theorem bits_low16 (value : Half) : bits value 15 0 = value.toNat % 65536 := by simp [bits_eq_div_mod]

theorem bits_low8 (value : Half) : bits value 7 0 = value.toNat % 256 := by simp [bits_eq_div_mod]

theorem bits_mid8 (value : Half) : bits value 15 8 = value.toNat / 256 % 256 := by simp [bits_eq_div_mod]

theorem bits_vector (value : Half) : bits value 26 16 = value.toNat / 65536 % 2048 := by simp [bits_eq_div_mod]

theorem vectors_eq (n : Fn) : vectors n = if n = 0 then 128 else 120 := by simp only [vectors, Fin.ext_iff, Fin.val_zero]

theorem State.regsOpen_iff (s : State) (n : Fn) : s.regsOpen n = true ↔ Open s n := by
  simp [State.regsOpen, Open, and_assoc]

theorem State.any_ring_enabled_iff (s : State) (n : Fn) : ((s.func n).rings.any (·.en)) = true ↔ ∃ k : RingId, (s.ring n k).en = true := by
  simp only [Vector.any_eq_true, State.ring]
  exact ⟨fun ⟨i, hi, h⟩ => ⟨⟨i, hi⟩, h⟩, fun ⟨k, h⟩ => ⟨k, k.isLt, h⟩⟩

theorem versionAct_ofNat (hi lo : Nat) (hh : hi < 256) (hl : lo < 256) :
    versionAct (BitVec.ofNat 8 hi) (BitVec.ofNat 8 lo) = if lo ≤ 0x10 ∧ 0x10 ≤ hi then 0x10 else 0 := by
  simp [versionAct, BitVec.le_def, Nat.mod_eq_of_lt hh, Nat.mod_eq_of_lt hl]

/-- The vector and the sizes that an enabled pair may have (16 R360). -/
theorem ringFieldsOk_iff (n : Fn) (value : Half) : ringFieldsOk n value = true ↔
    value.toNat / 65536 % 2048 < (if n = 0 then 128 else 120) ∧ 6 ≤ value.toNat / 256 % 256 ∧ value.toNat / 256 % 256 ≤ 16 ∧
      6 ≤ value.toNat % 256 ∧ value.toNat % 256 ≤ 16 := by
  simp only [ringFieldsOk, Bool.and_eq_true, decide_eq_true_eq, and_assoc, bits_vector, bits_mid8, bits_low8, vectors_eq]

theorem evqFieldsOk_iff (n : Fn) (value : Half) : evqFieldsOk n value = true ↔
    value.toNat / 65536 % 2048 < (if n = 0 then 128 else 120) ∧ 6 ≤ value.toNat % 256 ∧ value.toNat % 256 ≤ 16 := by
  simp only [evqFieldsOk, Bool.and_eq_true, decide_eq_true_eq, and_assoc, bits_vector, bits_low8, vectors_eq]

/-- Two updates that agree on the pair as it stands are one. -/
theorem State.modRing_congr (s : State) (n : Fn) (k : RingId) (f g : Ring → Ring) (h : f (s.ring n k) = g (s.ring n k)) :
    s.modRing n k f = s.modRing n k g := by
  simp only [State.ring] at h
  simp only [State.modRing, State.modFunc, h]

theorem State.modRing_of_enabled (s : State) (n : Fn) (k : RingId) (f : Ring → Ring) (he : (s.ring n k).en = true) :
    s.modRing n k (fun r => if r.en = false then r else f r) = s.modRing n k f :=
  s.modRing_congr n k _ f (by simp [he])

/-! ### HIF_VERSION_REQ (16 R359) -/

theorem State.writeVersion_of_disabled (s : State) (n : Fn) (value : Half) (ho : Open s n) (hk : ∀ k : RingId, (s.ring n k).en = false) :
    s.writeVersion n value = s.modFunc n fun f =>
      { f with maxv := BitVec.ofNat 8 (value.toNat / 256 % 256), minv := BitVec.ofNat 8 (value.toNat % 256),
               act := if value.toNat % 256 ≤ 0x10 ∧ 0x10 ≤ value.toNat / 256 % 256 then 0x10 else 0 } := by
  have hany : (s.func n).rings.any (·.en) = false := by
    rw [Bool.eq_false_iff, Ne, s.any_ring_enabled_iff]
    simp [hk]
  simp only [State.writeVersion, (s.regsOpen_iff n).2 ho, hany, Bool.not_false, Bool.and_true, if_true, bits_mid8, bits_low8,
    versionAct_ofNat _ _ (Nat.mod_lt _ (by decide : 0 < 256)) (Nat.mod_lt _ (by decide : 0 < 256))]

theorem State.writeVersion_of_enabled (s : State) (n : Fn) (value : Half) (hk : ∃ k : RingId, (s.ring n k).en = true) :
    s.writeVersion n value = s := by
  simp [State.writeVersion, (s.any_ring_enabled_iff n).2 hk]

/-! ### HIF_RING_CFG (16 R360) -/

theorem State.execHifRingCfg_of_open (s : State) (n : Fn) (k : RingId) (value : Half) (ho : Open s n) (g : Ring → Ring)
    (h : (s.ring n k).configure n (s.ringBusy n k) value = g (s.ring n k)) :
    execHifRingCfg n k value s = .next (s.modRing n k g) := by
  rw [execHifRingCfg, State.writeRingCfg, if_pos ((s.regsOpen_iff n).2 ho)]
  exact congrArg _ (s.modRing_congr n k _ g h)

/-- A disabled pair that is enabled starts empty. -/
theorem Ring.configure_enable (r : Ring) (n : Fn) (busy : Bool) (value : Half) (he : r.en = false) (hf : ringFieldsOk n value = true)
    (hb : bit value 31 = true) : r.configure n busy value =
      { r with prio := bit value 30, vec := BitVec.ofNat 11 (value.toNat / 65536 % 2048), cqlog := BitVec.ofNat 8 (value.toNat / 256 % 256),
               sqlog := BitVec.ofNat 8 (value.toNat % 256), en := true, sqHead := 0, sqTail := 0, cqTail := 0, cqHead := 0, phase := true,
               abort := none } := by
  simp [Ring.configure, he, hf, hb, bits_vector, bits_mid8, bits_low8]

theorem Ring.configure_reject (r : Ring) (n : Fn) (busy : Bool) (value : Half) (he : r.en = false) (hf : ringFieldsOk n value = false)
    (hb : bit value 31 = true) : r.configure n busy value = { r with cfgErr := true } := by
  simp [Ring.configure, he, hf, hb]

theorem Ring.configure_disable (r : Ring) (n : Fn) (value : Half) (he : r.en = true) (hb : bit value 31 = false) :
    r.configure n false value = { r with en := false } := by
  simp [Ring.configure, he, hb]

theorem Ring.configure_keep (r : Ring) (n : Fn) (busy : Bool) (value : Half) (he : r.en = true) (hb : bit value 31 = true ∨ busy = true) :
    r.configure n busy value = r := by
  rcases hb with hb | hb <;> simp [Ring.configure, he, hb]

/-! ### HIF_EVQ_CFG (16 R384) -/

/-- With no event held and none dropped there is nothing to write into a ring that comes up. -/
theorem State.flushHeld_of_empty (s : State) (n : Fn) (hh : (s.func n).evq.held = []) (hd : (s.func n).evq.drops = 0) :
    s.flushHeld n = s.modFunc n fun f => { f with evq := { f.evq with held := [] } } := by
  simp [State.flushHeld, State.flushOverflow, hh, hd]

theorem State.modFunc_frame (s : State) (n : Fn) (f : Func → Func) :
    s.modFunc n f = { s with funcs := (s.modFunc n f).funcs } ∧ ∀ m, m ≠ n → (s.modFunc n f).func m = s.func m :=
  ⟨rfl, fun m h => s.func_setFunc_ne n m _ h⟩

@[simp] theorem State.modFunc_modFunc (s : State) (n : Fn) (f g : Func → Func) :
    (s.modFunc n f).modFunc n g = s.modFunc n fun x => g (f x) := by simp [State.modFunc, State.setFunc, State.func]

theorem State.writeEvqCfg_of_enabled (s : State) (n : Fn) (value : Half) (ho : Open s n) (he : (s.func n).evq.en = true) :
    s.writeEvqCfg n value = if bit value 31 then s else s.modFunc n fun f => { f with evq := { f.evq with en := false } } := by
  simp [State.writeEvqCfg, (s.regsOpen_iff n).2 ho, he]

/-- A disabled event ring that is enabled starts empty. -/
theorem State.writeEvqCfg_enable (s : State) (n : Fn) (value : Half) (ho : Open s n) (he : (s.func n).evq.en = false)
    (hh : (s.func n).evq.held = []) (hd : (s.func n).evq.drops = 0) (hb : bit value 31 = true) (hf : evqFieldsOk n value = true) :
    s.writeEvqCfg n value = s.modFunc n fun f => { f with evq := { f.evq with
      vec := BitVec.ofNat 11 (value.toNat / 65536 % 2048), log := BitVec.ofNat 8 (value.toNat % 256), en := true, tail := 0, head := 0,
      phase := true, unread := [], held := [] } } := by
  have hpcie : s.pins.pcieUp = true := by
    have hup := ho.1
    simp only [State.fnUp, Bool.and_eq_true] at hup
    exact hup.1.2
  simp [State.writeEvqCfg, (s.regsOpen_iff n).2 ho, he, hf, hb, hpcie, State.flushHeld_of_empty, hh, hd, bits_vector, bits_low8]

/-! ### Doorbells (16 R361) -/

theorem execSqTail_of_ring (s : State) (n : Fn) (page : Fin 128) (k : RingId) (value : Half) (hu : s.fnUp n = true)
    (hr : s.mgmt.recov = false) (hp : page.val = k.val) (he : (s.ring n k).en = true) :
    execSqTail n page value s = .next (s.modRing n k fun r =>
      if value.toNat % 65536 < 2 ^ r.sqlog.toNat then { r with sqTail := value.toNat % 65536 } else { r with dbErr := true }) := by
  simp [execSqTail, hp, hu, hr, s.modRing_of_enabled n k _ he, bits_low16]

theorem execCqHead_of_ring (s : State) (n : Fn) (page : Fin 128) (k : RingId) (value : Half) (hu : s.fnUp n = true)
    (hr : s.mgmt.recov = false) (hp : page.val = k.val) (he : (s.ring n k).en = true) :
    execCqHead n page value s = .next (s.modRing n k fun r =>
      if value.toNat % 65536 < 2 ^ r.cqlog.toNat then { r with cqHead := value.toNat % 65536 } else { r with dbErr := true }) := by
  simp [execCqHead, hp, hu, hr, s.modRing_of_enabled n k _ he, bits_low16]

theorem execAbortDb_of_ring (s : State) (n : Fn) (page : Fin 128) (k : RingId) (value : Half) (hu : s.fnUp n = true)
    (hr : s.mgmt.recov = false) (hp : page.val = k.val) (he : (s.ring n k).en = true) :
    execAbortDb n page value s = .next (s.modRing n k fun r =>
      if value.toNat % 65536 < 2 ^ r.sqlog.toNat then { r with abort := some (value.toNat % 65536) } else { r with dbErr := true }) := by
  simp [execAbortDb, hp, hu, hr, s.modRing_of_enabled n k _ he, bits_low16]

/-- Pages from 64 on have no ring pair. -/
theorem doorbells_of_high_page (s : State) (n : Fn) (page : Fin 128) (value : Half) (hp : 64 ≤ page.val) :
    execSqTail n page value s = .next s ∧ execAbortDb n page value s = .next s ∧
      (page.val ≠ 64 → execCqHead n page value s = .next s) := by
  have hlow : ¬ page.val < 64 := Nat.not_lt.2 hp
  exact ⟨by simp [execSqTail, hlow], by simp [execAbortDb, hlow], fun h64 => by simp [execCqHead, hlow, h64]⟩

/-- Settles O27, one lemma for each register and doorbell. -/
theorem ringRegisters : Obligations.RingRegisters := by
  intro s fn page ring value f r idx hi lo fits
  have hfits : ringFieldsOk fn value = true ↔ fits := ringFieldsOk_iff fn value
  refine ⟨?_, ?_, ?_, ?_, ?_, ?_, ?_, ?_, ?_, doorbells_of_high_page s fn page value⟩
  · exact fun ho hk => congrArg _ (s.writeVersion_of_disabled fn value ho hk)
  · exact fun hk => congrArg _ (s.writeVersion_of_enabled fn value hk)
  · exact fun ho he hf hb => s.execHifRingCfg_of_open fn ring value ho _ (r.configure_enable fn _ value he (hfits.2 hf) hb)
  · exact fun ho he hf hb =>
      s.execHifRingCfg_of_open fn ring value ho _ (r.configure_reject fn _ value he (Bool.eq_false_iff.2 (mt hfits.1 hf)) hb)
  · intro ho he hb hbusy
    exact s.execHifRingCfg_of_open fn ring value ho _ (hbusy ▸ r.configure_disable fn value he hb)
  · exact fun ho he hb => s.execHifRingCfg_of_open fn ring value ho _ (r.configure_keep fn _ value he hb)
  · exact fun ho he => congrArg _ (s.writeEvqCfg_of_enabled fn value ho he)
  · intro ho he hh hd hb hv h6 h16
    have hw := s.writeEvqCfg_enable fn value ho he hh hd hb ((evqFieldsOk_iff fn value).2 ⟨hv, h6, h16⟩)
    refine ⟨_, congrArg Host.Outcome.next hw, (s.modFunc_frame fn _).1, ?_, (s.modFunc_frame fn _).2⟩
    rw [State.func_modFunc, ← hh]
  · exact fun hu hr hp he => ⟨execSqTail_of_ring s fn page ring value hu hr hp he, execCqHead_of_ring s fn page ring value hu hr hp he,
      execAbortDb_of_ring s fn page ring value hu hr hp he⟩

end Sys2Proof.Machine
end

