-- ==== Sys2Proof/Proofs/LaunchFrames.lean ====
section
/-!
PROOFS. What the shared operations under the life of a launch leave alone: fetched commands, binding entries, the clear queue and the
launches (16 R370, R372; 13 R312; 09 R234).
-/
namespace Sys2Proof.Machine

/-! ### What the end of a launch's command reads -/

/-- Of a launch: its command, its record, its link entries at work. -/
def Launch.ending (l : Launch) : Fn × Nat × Bool × Nat × List LinkEntry := (l.fn, l.cid, l.rrec, l.raddr, l.active)

/-- u keeps the fetched commands, the binding entries, the clear queue and what ends each launch's command as they are in s. -/
structure Kept (s u : State) : Prop where
  cmds : ∀ n, (u.func n).cmds = (s.func n).cmds
  entry : ∀ q, (u.part q).entry = (s.part q).entry
  clrPend : u.bind.clrPend = s.bind.clrPend
  launch : ∀ q, (u.part q).launch.map Launch.ending = (s.part q).launch.map Launch.ending

theorem Kept.refl (s : State) : Kept s s := ⟨fun _ => rfl, fun _ => rfl, rfl, fun _ => rfl⟩

theorem Kept.trans {s t u : State} (a : Kept s t) (b : Kept t u) : Kept s u :=
  ⟨fun n => (b.cmds n).trans (a.cmds n), fun q => (b.entry q).trans (a.entry q), b.clrPend.trans a.clrPend,
    fun q => (b.launch q).trans (a.launch q)⟩

theorem Kept.ite {c : Prop} [Decidable c] {s a b : State} (ha : Kept s a) (hb : Kept s b) : Kept s (if c then a else b) := by
  split
  · exact ha
  · exact hb

theorem Kept.foldl {α : Type} (f : State → α → State) (hf : ∀ s x, Kept s (f s x)) (xs : List α) (s : State) : Kept s (xs.foldl f s) :=
  List.foldlRecOn xs f (motive := Kept s) (Kept.refl s) fun t ht x _ => ht.trans (hf t x)

/-- An update outside functions, partitions and the clear queue. -/
theorem Kept.of_fields {s u : State} (hf : u.funcs = s.funcs) (hp : u.parts = s.parts) (hb : u.bind.clrPend = s.bind.clrPend) : Kept s u :=
  ⟨fun n => by rw [State.func, hf, ← State.func], fun q => by rw [State.part, hp, ← State.part], hb,
    fun q => by rw [State.part, hp, ← State.part]⟩

theorem Kept.hostMem (s : State) (m : List Host.Cell) : Kept s { s with hostMem := m } := Kept.of_fields rfl rfl rfl

theorem Kept.emit (s : State) (o : Output) : Kept s (s.emit o) := Kept.of_fields rfl rfl rfl

theorem Kept.modFunc (s : State) (n : Fn) (f : Func → Func) (h : (f (s.func n)).cmds = (s.func n).cmds) : Kept s (s.modFunc n f) := by
  refine ⟨fun m => ?_, fun _ => rfl, rfl, fun _ => rfl⟩
  by_cases hm : m = n
  · rw [hm, State.func_modFunc, h]
  · rw [State.modFunc, State.func_setFunc_ne _ _ _ _ hm]

theorem Kept.modPart (s : State) (p : Pid) (f : Part → Part) (he : (f (s.part p)).entry = (s.part p).entry)
    (hl : (f (s.part p)).launch.map Launch.ending = (s.part p).launch.map Launch.ending) : Kept s (s.modPart p f) := by
  refine ⟨fun _ => rfl, fun q => ?_, rfl, fun q => ?_⟩ <;> by_cases hq : q = p
  · rw [hq, State.part_modPart, he]
  · rw [State.part_modPart_ne _ _ _ _ hq]
  · rw [hq, State.part_modPart, hl]
  · rw [State.part_modPart_ne _ _ _ _ hq]

theorem State.siloWaiting_congr {s u : State} (p : Pid) (he : (u.part p).entry = (s.part p).entry)
    (hb : u.bind.clrPend = s.bind.clrPend) (a n : Nat) : u.siloWaiting p a n = s.siloWaiting p a n := by
  have hg : u.granPending = s.granPending := by funext g; rw [State.granPending, State.granPending, hb]
  rw [State.siloWaiting, State.siloWaiting, Part.granules, Part.granules, he, hg]

theorem Kept.siloWaiting {s u : State} (h : Kept s u) (p : Pid) (a n : Nat) : u.siloWaiting p a n = s.siloWaiting p a n :=
  State.siloWaiting_congr p (h.entry p) h.clrPend a n

/-! ### Events (16 R384, R385) -/

theorem Kept.irq (s : State) (n : Fn) (v : Nat) : Kept s (s.irq n v) :=
  Kept.ite (Kept.emit s _) (Kept.modFunc s n _ (by split <;> rfl))

theorem Kept.writeEvent (s : State) (n : Fn) (e : Event) : Kept s (s.writeEvent n e) := by
  unfold State.writeEvent
  exact (((Kept.hostMem s _).trans (Kept.modFunc _ n _ rfl)).trans (Kept.irq _ n _)).trans (Kept.ite (Kept.emit _ _) (Kept.refl _))

theorem Kept.dropEvent (s : State) (n : Fn) : Kept s (s.dropEvent n) := Kept.modFunc s n _ rfl

theorem Kept.flushOverflow (s : State) (n : Fn) : Kept s (s.flushOverflow n) :=
  Kept.ite ((Kept.writeEvent s n _).trans (Kept.modFunc _ n _ rfl)) (Kept.refl s)

theorem Kept.raise (s : State) (n : Fn) (e : Event) : Kept s (s.raise n e) :=
  Kept.ite (Kept.ite (Kept.modFunc s n _ rfl) (Kept.dropEvent s n))
    (Kept.ite (Kept.modFunc s n _ rfl)
      ((Kept.flushOverflow s n).trans (Kept.ite (Kept.dropEvent _ n) (Kept.writeEvent _ n e))))

theorem Kept.raiseFn (s : State) (code : BitVec 16) (p : Pid) (a b : Nat) : Kept s (s.raiseFn code p a b) :=
  Kept.ite (Kept.refl s) (Kept.raise s _ _)

theorem Kept.raiseBoth (s : State) (code : BitVec 16) (p : Option Pid) (a b : Nat) : Kept s (s.raiseBoth code p a b) := by
  unfold State.raiseBoth
  split
  · exact Kept.raise s _ _
  · exact Kept.ite (Kept.raise s _ _) ((Kept.raiseFn s _ _ _ _).trans (Kept.raise _ _ _))

/-! ### Flags of a launch (13 R312) -/

/-- A launch without its intervention flags. -/
def Launch.unflagged (l : Launch) : Launch := { l with flags := { pwr := none, thm := none, tmg := none, mnt := none, cont := none } }

/-- u differs from s in partitions alone, and there in the flags of launches alone. -/
structure FlagsMarked (s u : State) : Prop where
  frame : u = { s with parts := u.parts }
  entry : ∀ q, (u.part q).entry = (s.part q).entry
  launch : ∀ q, (u.part q).launch.map Launch.unflagged = (s.part q).launch.map Launch.unflagged

theorem FlagsMarked.refl (s : State) : FlagsMarked s s := ⟨rfl, fun _ => rfl, fun _ => rfl⟩

theorem FlagsMarked.trans {s t u : State} (a : FlagsMarked s t) (b : FlagsMarked t u) : FlagsMarked s u :=
  ⟨by rw [b.frame, a.frame], fun q => (b.entry q).trans (a.entry q), fun q => (b.launch q).trans (a.launch q)⟩

theorem FlagsMarked.ite {c : Prop} [Decidable c] {s a b : State} (ha : FlagsMarked s a) (hb : FlagsMarked s b) :
    FlagsMarked s (if c then a else b) := by
  split
  · exact ha
  · exact hb

theorem FlagsMarked.modPart (s : State) (p : Pid) (f : Part → Part) (he : (f (s.part p)).entry = (s.part p).entry)
    (hl : (f (s.part p)).launch.map Launch.unflagged = (s.part p).launch.map Launch.unflagged) : FlagsMarked s (s.modPart p f) := by
  refine ⟨rfl, fun q => ?_, fun q => ?_⟩ <;> by_cases hq : q = p
  · rw [hq, State.part_modPart, he]
  · rw [State.part_modPart_ne _ _ _ _ hq]
  · rw [hq, State.part_modPart, hl]
  · rw [State.part_modPart_ne _ _ _ _ hq]

theorem FlagsMarked.markPart (s : State) (p : Pid) (k : FlagKind) : FlagsMarked s (s.markPart p k) := by
  refine FlagsMarked.modPart s p _ ?_ ?_ <;> split
  · rfl
  · split <;> rfl
  · rfl
  · next hl => split <;> simp [hl, Launch.unflagged]

theorem FlagsMarked.markWhere (s : State) (k : FlagKind) (which : Pid → Bool) : FlagsMarked s (s.markWhere k which) :=
  List.foldlRecOn allParts _ (motive := FlagsMarked s) (FlagsMarked.refl s) fun t ht q _ =>
    ht.trans (FlagsMarked.ite (FlagsMarked.markPart t q k) (FlagsMarked.refl t))

/-- The flags that hold at the release are marked, nothing else changes. -/
theorem FlagsMarked.startFlags (s : State) (p : Pid) : FlagsMarked s (s.startFlags p) := by
  have step (c : Prop) [Decidable c] (t : State) (k : FlagKind) : FlagsMarked t (if c then t.markPart p k else t) :=
    FlagsMarked.ite (FlagsMarked.markPart t p k) (FlagsMarked.refl t)
  have skip (c : Prop) [Decidable c] (t : State) (k : FlagKind) : FlagsMarked t (if c then t else t.markPart p k) :=
    FlagsMarked.ite (FlagsMarked.refl t) (FlagsMarked.markPart t p k)
  unfold State.startFlags
  exact ((((step _ s .cont).trans (step _ _ .thm)).trans (step _ _ .mnt)).trans (skip _ _ .tmg)).trans (FlagsMarked.markWhere _ .pwr _)

theorem FlagsMarked.kept {s u : State} (h : FlagsMarked s u) : Kept s u := by
  refine ⟨fun n => by rw [h.frame]; rfl, h.entry, by rw [h.frame], fun q => ?_⟩
  have hq := congrArg (Option.map Launch.ending) (h.launch q)
  rwa [Option.map_map, Option.map_map] at hq

/-! ### Completing a command (16 R370) -/

theorem Kept.postCpl (s : State) (n : Fn) (k : RingId) (tag : Nat) (nirq : Bool) (code : BitVec 16) (st info : Nat) :
    Kept s (s.postCpl n k tag nirq code st info) :=
  Kept.ite (Kept.refl s)
    (((Kept.hostMem s _).trans (Kept.modFunc _ n _ rfl)).trans (Kept.ite (Kept.refl _) (Kept.irq _ n _)))

/-- Posting a completion keeps everything but the command that leaves the fetched ones. -/
theorem Kept.complete (s : State) (n : Fn) (c : Cmd) (code : BitVec 16) (st info : Nat) :
    Kept (s.modFunc n fun f => { f with cmds := f.cmds.filter fun x => !decide (x.cid = c.cid) }) (s.complete n c code st info) :=
  Kept.ite (Kept.postCpl _ n _ _ _ _ _ _) (Kept.of_fields rfl rfl rfl)

/-- A command that completes leaves the fetched commands of its function. -/
theorem State.cmds_complete (s : State) (n : Fn) (c : Cmd) (code : BitVec 16) (st info : Nat) :
    ((s.complete n c code st info).func n).cmds = (s.func n).cmds.filter fun y => decide (y.cid ≠ c.cid) := by
  simp [(Kept.complete s n c code st info).cmds]

theorem State.findCmd_cid {s : State} {n : Fn} {cid : Nat} {c : Cmd} (h : s.findCmd n cid = some c) : c.cid = cid := by
  simpa using List.find?_some h

/-- A command whose record is written, or that has none, completes. -/
theorem State.cmds_finishCmd_of_written (s : State) (n : Fn) (cid : Nat) (p : Pid) (r : Option (Nat × Nat)) (code : BitVec 16) (st info : Nat)
    (c : Cmd) (hc : s.findCmd n cid = some c) (hr : ∀ x, r = some x → s.siloWaiting p x.1 x.2 = []) :
    ((s.finishCmd n cid p r code st info).func n).cmds = (s.func n).cmds.filter fun y => decide (y.cid ≠ c.cid) := by
  cases r with
  | none => simpa only [State.finishCmd, hc] using s.cmds_complete n c code st info
  | some x => simpa only [State.finishCmd, hc, hr x rfl, List.isEmpty_nil, if_true] using s.cmds_complete n c code st info

/-- A command whose record waits for a clear stays, with its completion set aside (13 R317). -/
theorem State.cmds_finishCmd_of_waiting (s : State) (n : Fn) (cid : Nat) (p : Pid) (x : Nat × Nat) (code : BitVec 16) (st info : Nat)
    (c : Cmd) (hc : s.findCmd n cid = some c) (hw : s.siloWaiting p x.1 x.2 ≠ []) :
    ((s.finishCmd n cid p (some x) code st info).func n).cmds = (s.func n).cmds.map fun y => if y.cid = c.cid then
      { y with done := some { pid := p, addr := x.1, len := x.2, code := code, status := st, info := info } } else y := by
  have he : (s.siloWaiting p x.1 x.2).isEmpty = false := by simpa using hw
  simp [State.finishCmd, hc, he, State.findCmd_cid hc]

/-- A partition without a launch stays so when a command completes. -/
theorem State.launch_complete (s : State) (n : Fn) (c : Cmd) (q : Pid) (code : BitVec 16) (st info : Nat) (h : (s.part q).launch = none) :
    ((s.complete n c code st info).part q).launch = none := by
  have hk := (Kept.complete s n c code st info).launch q
  rw [show (s.modFunc n _).part q = s.part q from rfl, h, Option.map_none] at hk
  exact Option.map_eq_none_iff.1 hk

theorem State.launch_finishCmd (s : State) (n : Fn) (cid : Nat) (p q : Pid) (r : Option (Nat × Nat)) (code : BitVec 16) (st info : Nat)
    (h : (s.part q).launch = none) : ((s.finishCmd n cid p r code st info).part q).launch = none := by
  unfold State.finishCmd
  cases s.findCmd n cid with
  | none => exact h
  | some c =>
    cases r with
    | none => exact s.launch_complete n c q _ _ _ h
    | some x =>
      dsimp only
      split
      · exact s.launch_complete n c q _ _ _ h
      · exact h

/-! ### Letting a launch go -/

theorem State.part_clearLaunch (s : State) (p : Pid) :
    (s.clearLaunch p).part p = { s.part p with launch := none, watch := (s.part p).watch.map Watch.clear } := by
  have hp : (s.clearLaunch p).parts = (s.modPart p fun x => { x with launch := none, watch := x.watch.map Watch.clear }).parts := by
    simp only [State.clearLaunch, State.settleK, State.endHold, State.mapTiles_parts]
  rw [State.part, hp, ← State.part, State.part_modPart]

theorem State.funcs_clearLaunch (s : State) (p : Pid) : (s.clearLaunch p).funcs = s.funcs := by
  simp only [State.clearLaunch, State.settleK, State.endHold, State.mapTiles_funcs, State.modPart_funcs]

theorem State.bind_clearLaunch (s : State) (p : Pid) : (s.clearLaunch p).bind = s.bind := by
  simp only [State.clearLaunch, State.settleK, State.endHold, State.mapTiles_bind, State.modPart_bind]

end Sys2Proof.Machine
end

