-- ==== Sys2Proof/Proofs/LaunchEnds.lean ====
section
/-!
PROOFS. The end of a launch: what an uncorrectable sector, the watch table, the logs and the record leave alone, and how the launch's
command ends (09 R227; 13 R316 to R321; 16 R372).
-/
namespace Sys2Proof.Machine

/-! ### Errors of memory (09 R227 to R232) -/

theorem Kept.memctl (s : State) (m : MemSt) : Kept s { s with memctl := m } := Kept.of_fields rfl rfl rfl

theorem Kept.retirePc (s : State) (k : Nat) : Kept s (s.retirePc k) := by
  unfold State.retirePc
  split
  · exact Kept.refl s
  · exact ((Kept.memctl s _).trans (FlagsMarked.markWhere _ .mnt _).kept).trans (Kept.raise _ _ _)

theorem Kept.pcBudget (s : State) (k : Nat) : Kept s (s.pcBudget k) :=
  Kept.ite (Kept.refl s)
    (Kept.ite (Kept.ite (Kept.refl s) ((Kept.memctl s _).trans (Kept.raise _ _ _))) (Kept.ite (Kept.memctl s _) (Kept.retirePc s k)))

theorem Kept.pcUe (s : State) (k : Nat) : Kept s (s.pcUe k) :=
  (Kept.memctl s _).trans (Kept.ite (Kept.pcBudget _ k) (Kept.refl _))

theorem Kept.raiseUncorrectable (s : State) (p : Option Pid) (dev : Nat) : Kept s (s.raiseUncorrectable p dev) :=
  ((Kept.memctl s _).trans (Kept.pcUe _ _)).trans (Kept.raiseBoth _ _ _ _ _)

/-! ### Records in the silo (09 R234) -/

/-- u differs from s in memory, its sectors and the writes held for a clear. -/
def SiloWritten (s u : State) : Prop :=
  ∃ m c a h, u = { s with mem := m, memctl := c, bind := { s.bind with moved := a, heldWr := h } }

theorem SiloWritten.refl (s : State) : SiloWritten s s := ⟨_, _, _, _, rfl⟩

theorem SiloWritten.trans {s t u : State} (a : SiloWritten s t) (b : SiloWritten t u) : SiloWritten s u := by
  obtain ⟨_, _, _, _, rfl⟩ := a
  obtain ⟨_, _, _, _, rfl⟩ := b
  exact ⟨_, _, _, _, rfl⟩

theorem SiloWritten.kept {s u : State} (h : SiloWritten s u) : Kept s u := by
  obtain ⟨_, _, _, _, rfl⟩ := h
  exact Kept.of_fields rfl rfl rfl

theorem SiloWritten.siloWrite (s : State) (p : Pid) (a : Nat) (bs : List Byte) : SiloWritten s (s.siloWrite p a bs) := by
  unfold State.siloWrite State.siloWriteH
  split
  · exact SiloWritten.refl s
  · exact ⟨_, _, _, _, rfl⟩

theorem SiloWritten.siloRecord (s : State) (p : Pid) (a : Nat) (bs : List Byte) : SiloWritten s (s.siloRecord p a bs) := by
  unfold State.siloRecord
  split
  · exact SiloWritten.refl s
  · refine List.foldlRecOn _ _ (motive := SiloWritten s) (SiloWritten.refl s) fun t ht c _ => ht.trans ?_
    split
    · split
      · exact SiloWritten.refl t
      · exact SiloWritten.siloWrite t p _ _
    · exact ⟨_, _, _, _, rfl⟩

theorem Kept.sortDlog (s : State) (p : Pid) (l : Launch) (img : List Byte) : Kept s (s.sortDlog p l img) := by
  unfold State.sortDlog
  split
  · exact Kept.refl s
  · exact Kept.ite (Kept.refl s) ((SiloWritten.siloRecord s p _ _).trans (SiloWritten.siloRecord _ p _ _)).kept

theorem Kept.putRecord (s : State) (p : Pid) (l : Launch) (bs : List Byte) : Kept s (s.putRecord p l bs) := by
  unfold State.putRecord
  exact (SiloWritten.siloRecord s p _ _).kept.trans (Kept.modPart _ p _ rfl rfl)

theorem Kept.setChain (s : State) (p : Pid) (k : SlotId) (c : List Byte) : Kept s (s.setChain p k c) :=
  Kept.modPart s p _ (by split <;> rfl) (by split <;> rfl)

theorem Kept.evalWatch (s : State) (p : Pid) (step : Word) : Kept s (s.evalWatch p step) := by
  unfold State.evalWatch
  exact (Kept.foldl _ (fun t _ => Kept.ite (Kept.raiseFn t _ _ _ _) (Kept.refl t)) _ s).trans (Kept.modPart _ p _ rfl rfl)

/-! ### The launch's command (16 R372; 13 R317) -/

/-- The program and the launch of a partition that runs one. -/
theorem State.launch_of_running {s : State} {p : Pid} {l : Launch} {x : Program} (h : s.running p = some (l, x)) :
    (s.part p).launch = some l := by
  unfold State.running at h
  cases hl : (s.part p).launch with
  | none => simp [hl] at h
  | some l' =>
    simp only [hl, Option.map_eq_some_iff, Prod.mk.injEq] at h
    obtain ⟨_, -, rfl, -⟩ := h
    rfl

theorem State.running_of_live {s : State} {p : Pid} {r : Launch × Program} (h : s.live p = some r) : s.running p = some r := by
  unfold State.live at h
  split at h
  · cases h
  · exact h

/-- u is s after the launch l of partition p has ended: what its command's end reads was kept, the launch was let go, the command
finished. -/
def EndsLaunch (s u : State) (p : Pid) (l : Launch) : Prop :=
  ∃ (t : State) (code : BitVec 16) (info : Nat), Kept s t ∧
    u = (t.clearLaunch p).finishCmd l.fn l.cid p (if l.rrec then some (l.raddr, 512) else none) code 0 info

theorem EndsLaunch.launch {s u : State} {p : Pid} {l : Launch} (h : EndsLaunch s u p l) : (u.part p).launch = none := by
  obtain ⟨t, code, info, -, rfl⟩ := h
  exact State.launch_finishCmd _ _ _ _ _ _ _ _ _ (by rw [State.part_clearLaunch])

theorem Kept.cmds_clearLaunch {s t : State} (h : Kept s t) (p : Pid) (n : Fn) : ((t.clearLaunch p).func n).cmds = (s.func n).cmds := by
  rw [← h.cmds, State.func, State.funcs_clearLaunch, ← State.func]

theorem Kept.findCmd_clearLaunch {s t : State} (h : Kept s t) (p : Pid) (n : Fn) (cid : Nat) :
    (t.clearLaunch p).findCmd n cid = s.findCmd n cid := by
  rw [State.findCmd, State.findCmd, h.cmds_clearLaunch]

theorem Kept.siloWaiting_clearLaunch {s t : State} (h : Kept s t) (p : Pid) (a n : Nat) :
    (t.clearLaunch p).siloWaiting p a n = s.siloWaiting p a n := by
  rw [← h.siloWaiting]
  exact State.siloWaiting_congr p (by rw [State.part_clearLaunch]) (by rw [State.bind_clearLaunch]) a n

/-- The command completes with its launch, once the launch's record, if it has one, is written. -/
theorem EndsLaunch.cmds_of_written {s u : State} {p : Pid} {l : Launch} (h : EndsLaunch s u p l) {c : Cmd}
    (hc : s.findCmd l.fn l.cid = some c) (hw : l.rrec = false ∨ s.siloWaiting p l.raddr 512 = []) :
    (u.func l.fn).cmds = (s.func l.fn).cmds.filter fun y => decide (y.cid ≠ c.cid) := by
  obtain ⟨t, code, info, hk, rfl⟩ := h
  rw [← hk.cmds_clearLaunch p]
  rw [← hk.findCmd_clearLaunch p] at hc
  refine State.cmds_finishCmd_of_written _ _ _ _ _ _ _ _ c hc fun x hx => ?_
  rcases hw with hr | hw
  · simp [hr] at hx
  · obtain ⟨-, rfl⟩ : l.rrec = true ∧ (l.raddr, 512) = x := by simpa using hx
    rw [hk.siloWaiting_clearLaunch, hw]

/-- While the record waits for a clear the command stays, its completion set aside. -/
theorem EndsLaunch.cmds_of_waiting {s u : State} {p : Pid} {l : Launch} (h : EndsLaunch s u p l) {c : Cmd}
    (hc : s.findCmd l.fn l.cid = some c) (hr : l.rrec = true) (hw : s.siloWaiting p l.raddr 512 ≠ []) :
    ∃ e, e.pid = p ∧ e.addr = l.raddr ∧ e.len = 512 ∧
      (u.func l.fn).cmds = (s.func l.fn).cmds.map fun y => if y.cid = c.cid then { y with done := some e } else y := by
  obtain ⟨t, code, info, hk, rfl⟩ := h
  rw [← hk.cmds_clearLaunch p, hr, if_pos rfl]
  rw [← hk.findCmd_clearLaunch p] at hc
  rw [← hk.siloWaiting_clearLaunch p] at hw
  exact ⟨_, rfl, rfl, rfl, State.cmds_finishCmd_of_waiting _ _ _ _ (l.raddr, 512) _ _ _ c hc hw⟩

/-- A launch that completes ends. -/
theorem EndsLaunch.closeLaunch {s t : State} (h : Kept s t) (p : Pid) (l : Launch) (x : Program) : EndsLaunch s (t.closeLaunch p l x) p l :=
  ⟨_, _, _, (h.trans (Kept.ite (Kept.putRecord t p l _) (Kept.refl t))).trans (Kept.setChain _ p l.slot _), rfl⟩

theorem State.endEntries_of_idle (s : State) (p : Pid) (code : BitVec 16) (h : ∀ l, (s.part p).launch = some l → l.active = []) :
    s.endEntries p code = s := by
  unfold State.endEntries
  cases hr : s.running p with
  | none => rfl
  | some r => simp only [h r.1 (State.launch_of_running hr), List.foldl_nil]

/-- A launch without link entries at work that fails ends. -/
theorem EndsLaunch.failLaunch {s t : State} {p : Pid} {l : Launch} (h : Kept s t) (hl : (s.part p).launch = some l) (ha : l.active = [])
    (code : BitVec 16) : EndsLaunch s (t.failLaunch p code) p l := by
  obtain ⟨l', hl', he⟩ : ∃ l', (t.part p).launch = some l' ∧ l'.ending = l.ending := by
    have hk := h.launch p
    rwa [hl, Option.map_some, Option.map_eq_some_iff] at hk
  simp only [Launch.ending, Prod.mk.injEq] at he
  obtain ⟨hfn, hcid, hrec, haddr, hact⟩ := he
  have hidle : t.endEntries p eAborted = t := t.endEntries_of_idle p _ fun y hy => by
    obtain rfl : l' = y := Option.some.inj (hl'.symm.trans hy)
    rw [hact, ha]
  have hfree : Kept t (t.skipFree 2) := Kept.of_fields rfl rfl rfl
  unfold EndsLaunch
  rw [State.failLaunch, hl', hidle, ← hfn, ← hcid, ← hrec, ← haddr]
  exact ⟨_, _, _, ((h.trans hfree).trans (Kept.ite (Kept.putRecord _ p _ _) (Kept.refl _))).trans (Kept.setChain _ p l'.slot _), rfl⟩

theorem State.launch_failLaunch (s : State) (p : Pid) (code : BitVec 16) : ((s.failLaunch p code).part p).launch = none := by
  unfold State.failLaunch
  split
  · assumption
  · exact State.launch_finishCmd _ _ _ _ _ _ _ _ _ (by rw [State.part_clearLaunch])

end Sys2Proof.Machine
end

