-- ==== Sys2Proof/Proofs/LaunchLife.lean ====
section
/-!
PROOFS. The life of a launch: start, ready point, hint, release and completion (16 R372; 10 R255, R256; 07 R152; 01 R26).
-/
namespace Sys2Proof.Machine

/-! ### Start (16 R372) -/

theorem startLaunch_refused (m : String) (opc : Nat) (timed : Bool) (s : State) (fn : Fn) (cid : Nat) (c : Cmd) (p : Pid)
    (hp : s.partOfFn fn = some p) (hc : s.dueCmd fn cid opc = some c) (ht : s.launchTurn p fn cid = true) (code : BitVec 16)
    (hk : s.launchCheck p c.desc timed = some code) : startLaunch m opc timed fn cid s = .next (s.complete fn c code 0 0) := by
  simp [startLaunch, hp, hc, ht, hk]

theorem startLaunch_started (m : String) (opc : Nat) (timed : Bool) (s : State) (fn : Fn) (cid : Nat) (c : Cmd) (p : Pid)
    (hp : s.partOfFn fn = some p) (hc : s.dueCmd fn cid opc = some c) (ht : s.launchTurn p fn cid = true)
    (hk : s.launchCheck p c.desc timed = none) :
    startLaunch m opc timed fn cid s = .next ((s.startCmd fn c).modPart p fun x => { x with launch := some (launchOf fn c timed) }) := by
  simp [startLaunch, hp, hc, ht, hk]

/-- LAUNCH and LAUNCH_AT are one meaning at two opcodes. -/
theorem exec_launch_eq (timed : Bool) (fn : Fn) (cid : Nat) (s : State) : ∃ m : String,
    exec (if timed then .launchAt fn cid else .launch fn cid) s = startLaunch m (if timed then 0x03 else 0x02) timed fn cid s := by
  cases timed
  · exact ⟨_, rfl⟩
  · exact ⟨_, rfl⟩

/-! ### A stamp changes the clock alone -/

theorem State.live_at (s : State) (now : Nat) (p : Pid) : (s.at_ now).live p = s.live p := rfl

theorem State.lock_at (s : State) (now : Nat) : (s.at_ now).time.lock = s.time.lock := rfl

theorem State.launch_of_live {s : State} {p : Pid} {l : Launch} {x : Program} (h : s.live p = some (l, x)) :
    (s.part p).launch = some l := State.launch_of_running (State.running_of_live h)

@[simp] theorem State.part_modLaunch (s : State) (p : Pid) (f : Launch → Launch) :
    (s.modLaunch p f).part p = { s.part p with launch := (s.part p).launch.map f } := by simp [State.modLaunch]

/-! ### Ready point (10 R255, R256) -/

theorem execLaunchReady_busy {s : State} {p : Pid} {l : Launch} {x : Program} (now : Nat) (hl : s.live p = some (l, x))
    (hph : l.phase = .started) (ha : l.at_ = true) (hk : s.time.lock ≠ .locked) :
    execLaunchReady p now s = .next ((s.at_ now).refuseLaunch p eBusy) := by
  simp [execLaunchReady, State.live_at, hl, hph, ha, State.lock_at, hk]

theorem execLaunchReady_late {s : State} {p : Pid} {l : Launch} {x : Program} (now : Nat) (hl : s.live p = some (l, x))
    (hph : l.phase = .started) (ha : l.at_ = true) (hk : s.time.lock = .locked) (hc : l.c ≤ (s.at_ now).now + 2048) :
    execLaunchReady p now s = .next ((s.at_ now).refuseLaunch p eTimeout) := by
  simp [execLaunchReady, State.live_at, hl, hph, ha, State.lock_at, hk, hc]

/-- A refused launch is let go and its command completes with the code. -/
theorem State.refuseLaunch_eq (s : State) (p : Pid) (l : Launch) (code : BitVec 16) (hl : (s.part p).launch = some l) :
    s.refuseLaunch p code = (match s.findCmd l.fn l.cid with
      | none => s.clearLaunch p
      | some c => (s.clearLaunch p).complete l.fn c code 0 0) := by
  cases hc : s.findCmd l.fn l.cid with
  | none => simp only [State.refuseLaunch, hl, (Kept.refl s).findCmd_clearLaunch, hc]
  | some c => simp only [State.refuseLaunch, hl, (Kept.refl s).findCmd_clearLaunch, hc]

theorem State.launch_refuseLaunch (s : State) (p : Pid) (code : BitVec 16) : ((s.refuseLaunch p code).part p).launch = none := by
  have hgone : ((s.clearLaunch p).part p).launch = none := by rw [State.part_clearLaunch]
  unfold State.refuseLaunch
  split
  · assumption
  · dsimp only
    split
    · exact hgone
    · exact State.launch_complete _ _ _ p _ _ _ hgone

/-- The sync table and, with live deadlines, the header of the deferral log are written as the launch is accepted. -/
def State.prepareLaunch (s : State) (p : Pid) (l : Launch) (img : List Byte) : State :=
  match imgDlog img with
  | none => s.writeTable p img
  | some log =>
    if liveDeadlines l img then (s.writeTable p img).siloRecord p log.1 (dlogHeader 0 l.step false) else s.writeTable p img

theorem State.writeTable_frame (s : State) (p : Pid) (img : List Byte) : ∃ y, s.writeTable p img = { s with sync := y } := by
  refine List.foldlRecOn (imgSync img) _ (motive := fun u => ∃ y, u = { s with sync := y }) ⟨s.sync, rfl⟩ ?_
  rintro _ ⟨y, rfl⟩ e -
  split
  · exact ⟨y, rfl⟩
  · exact ⟨_, rfl⟩

theorem State.prepareLaunch_frame (s : State) (p : Pid) (l : Launch) (img : List Byte) :
    ∃ y, SiloWritten { s with sync := y } (s.prepareLaunch p l img) := by
  obtain ⟨y, hy⟩ := s.writeTable_frame p img
  refine ⟨y, ?_⟩
  rw [← hy]
  unfold State.prepareLaunch
  split
  · exact SiloWritten.refl _
  · split
    · exact SiloWritten.siloRecord _ p _ _
    · exact SiloWritten.refl _

theorem execLaunchReady_accepted {s : State} {p : Pid} {l : Launch} {x : Program} (now : Nat) (hl : s.live p = some (l, x))
    (hph : l.phase = .started) (hd : l.dgst = false) (ha : l.at_ = true → s.time.lock = .locked ∧ (s.at_ now).now + 2048 < l.c)
    (ht : (s.at_ now).tableCheck p x.image = none) :
    execLaunchReady p now s = .next (((s.at_ now).prepareLaunch p l x.image).modLaunch p fun y =>
      { y with phase := .accepted, whash := 0, ihash := 0,
               c := if y.at_ then y.c else ((s.at_ now).prepareLaunch p l x.image).now + 2048 }) := by
  have hlock : ¬ (l.at_ = true ∧ s.time.lock ≠ .locked) := fun h => h.2 (ha h.1).1
  have hcount : ¬ (l.at_ = true ∧ l.c ≤ (s.at_ now).now + 2048) := fun h => Nat.not_le.2 (ha h.1).2 h.2
  simp only [execLaunchReady, State.live_at, hl, hph, State.lock_at, hlock, hcount, ht, hd]
  rfl

/-! ### Hint (03 R82, R84) -/

theorem execLaunchHint_eq {s : State} {p : Pid} {l : Launch} {x : Program} (now : Nat) (hl : s.live p = some (l, x)) :
    execLaunchHint p now s = whenDue (decide (l.phase = .accepted) && decide (l.c ≤ (s.at_ now).now + 2048)) "LAUNCH_HINT"
      (((s.at_ now).sendHint p true).modLaunch p fun l => { l with phase := .hinted }) := by
  simp only [execLaunchHint, State.live_at, hl]

/-- The hint reaches the arrays of the mapped tiles and changes tiles alone. -/
theorem State.sendHint_spec {s : State} {p : Pid} {l : Launch} {x : Program} (idle : Bool) (hr : s.running p = some (l, x)) :
    s.sendHint p idle = { s with tiles := (s.sendHint p idle).tiles } ∧
      ∀ t, t ∈ x.tiles → (s.sendHint p idle).tile t = { s.tile t with array := (s.tile t).array.receiveHint s.now } := by
  simp only [State.sendHint, hr]
  refine ⟨rfl, fun t ht => ?_⟩
  simp [State.mapTiles, State.tile, ht]

/-! ### Release (07 R152; 03 R82 to R84) -/

theorem State.tile_beginTiles_of_logical {s : State} {p : Pid} {x : Program} {l : Launch} {t : TileId} {n : Nat} (h : x.logical t = some n) :
    (s.beginTiles p x l).tile t = (s.tile t).begin l.slot x n l.seed l.step := by
  simp [State.beginTiles, State.tile, h]

/-- At the release the tiles begin, the launch is released, flags are marked; memory and functions stay. -/
theorem execLaunchRelease_released {s : State} {p : Pid} {l : Launch} {x : Program} (now : Nat) (hl : s.live p = some (l, x))
    (hph : l.phase = .hinted) (hc : l.c ≤ (s.at_ now).now) (hd : ∀ t ∈ x.tiles, (s.tile t).drained = true) :
    ∃ w u : State, execLaunchRelease p now s = .next u ∧ FlagsMarked w u ∧ w.mem = s.mem ∧ w.funcs = s.funcs ∧
      (w.part p).launch = some { l with phase := .released, nextEntry := 0, lwait := none, active := [], inbox := [] } ∧
      w.tiles = ((s.at_ now).beginTiles p x l).tiles := by
  have hdr : (x.tiles.all fun t => ((s.at_ now).tile t).drained) = true := List.all_eq_true.2 hd
  have hlaunch : (((s.at_ now).beginTiles p x l).part p).launch = some l := State.launch_of_live hl
  simp only [execLaunchRelease, State.live_at, hl, hph, hc, hdr, decide_true, Bool.and_true, Bool.not_true, Bool.false_eq_true, if_false]
  refine ⟨_, _, rfl, (FlagsMarked.markWhere _ .cont _).trans (FlagsMarked.startFlags _ p), rfl, rfl, ?_, rfl⟩
  have hset (t : State) (w : PowerSt) : ({ t with power := w }.settleK).part p = t.part p := rfl
  rw [hset, State.part_modLaunch, State.part_modPart, Part.beginLaunch]
  simp only [Part.clearLinkCounters, hlaunch, Option.map_some]

theorem execLaunchRelease_notDue {s : State} {p : Pid} {l : Launch} {x : Program} (now : Nat) (hl : s.live p = some (l, x))
    (h : l.phase ≠ .hinted ∨ (s.at_ now).now < l.c) : execLaunchRelease p now s = .fault (.notDue "LAUNCH_RELEASE") := by
  rcases h with h | h
  · simp [execLaunchRelease, State.live_at, hl, h, notDue]
  · simp [execLaunchRelease, State.live_at, hl, Nat.not_le.2 h, notDue]

/-! ### Completion (16 R372; 13 R311 to R319) -/

/-- The state in which the end of the launch l is looked at: T_REL and T_END settled, after a stop at the top rung the waits forgotten. -/
def State.settledEnd (s : State) (p : Pid) (l : Launch) : State :=
  let t := (s.settleTimes l).1.modLaunch p fun _ => (s.settleTimes l).2
  if l.ended then t.forgetWaits p else t

/-- What LAUNCH_COMPLETE does: a launch that is over fails on a sector that cannot be read, else it completes. -/
theorem execLaunchComplete_over {s : State} {p : Pid} {l : Launch} {x : Program} (now : Nat) (hl : s.live p = some (l, x))
    (hph : l.phase = .released) (ho : s.launchOver l x = true) (hs : l.sign = false) :
    ∃ u, execLaunchComplete p now s = .next u ∧
      let t := (s.at_ now).settledEnd p l
      let l' := ((s.at_ now).settleTimes l).2
      ((∃ dev, u = (t.raiseUncorrectable (some p) dev).failLaunch p eMemUncorrectable) ∨
        u = ((t.evalWatch p l'.step).sortDlog p l' x.image).closeLaunch p l' x) := by
  have ho' : (s.at_ now).launchOver l x = true := ho
  have hs' : ((s.at_ now).settleTimes l).2.sign = false := hs
  simp only [execLaunchComplete, State.live_at, hl, hph, ho', decide_true, Bool.and_true, Bool.not_true, Bool.false_eq_true, if_false]
  split
  · exact ⟨_, rfl, Or.inl ⟨_, rfl⟩⟩
  · rw [if_neg (by simp [hs'])]
    exact ⟨_, rfl, Or.inr rfl⟩

theorem execLaunchComplete_notDue {s : State} {p : Pid} {l : Launch} {x : Program} (now : Nat) (hl : s.live p = some (l, x))
    (h : l.phase ≠ .released ∨ s.launchOver l x = false) : execLaunchComplete p now s = .fault (.notDue "LAUNCH_COMPLETE") := by
  have ho : (s.at_ now).launchOver l x = s.launchOver l x := rfl
  rcases h with h | h
  · simp [execLaunchComplete, State.live_at, hl, h, notDue]
  · simp [execLaunchComplete, State.live_at, hl, ho, h, notDue]

/-- Unless it was stopped at the top rung, settling a launch keeps what its command's end reads. -/
theorem Kept.settledEnd {s : State} {p : Pid} {l : Launch} (hl : (s.part p).launch = some l) (he : l.ended = false) :
    Kept s (s.settledEnd p l) := by
  have hfree : Kept s (s.settleTimes l).1 := Kept.of_fields rfl rfl rfl
  have hlaunch : (((s.settleTimes l).1).part p).launch = some l := hl
  simp only [State.settledEnd, he, Bool.false_eq_true, if_false]
  exact hfree.trans (Kept.modPart _ p _ rfl (by rw [hlaunch]; rfl))

/-- A launch that is over ends: its partition has none, and unless it was stopped at the top rung its command ends. -/
theorem execLaunchComplete_ends {s : State} {p : Pid} {l : Launch} {x : Program} (now : Nat) (hl : s.live p = some (l, x))
    (hph : l.phase = .released) (ho : s.launchOver l x = true) (hs : l.sign = false) :
    ∃ u, execLaunchComplete p now s = .next u ∧ (u.part p).launch = none ∧ (l.ended = false → EndsLaunch (s.at_ now) u p l) := by
  obtain ⟨u, hu, ⟨dev, rfl⟩ | rfl⟩ := execLaunchComplete_over now hl hph ho hs
  · have hlaunch : ((s.at_ now).part p).launch = some l := State.launch_of_live hl
    have hact : l.active = [] := by
      simp only [State.launchOver, Bool.and_eq_true, List.isEmpty_iff] at ho
      exact ho.1.2
    exact ⟨_, hu, State.launch_failLaunch _ p _, fun he =>
      EndsLaunch.failLaunch ((Kept.settledEnd hlaunch he).trans (Kept.raiseUncorrectable _ _ dev)) hlaunch hact _⟩
  · have hlaunch : ((s.at_ now).part p).launch = some l := State.launch_of_live hl
    refine ⟨_, hu, (EndsLaunch.closeLaunch (Kept.refl _) p _ x).launch, fun he => ?_⟩
    exact EndsLaunch.closeLaunch (((Kept.settledEnd hlaunch he).trans (Kept.evalWatch _ p _)).trans (Kept.sortDlog _ p _ _)) p _ x

/-! ### The obligation -/

/-- A refused launch as the statement has it. -/
theorem exec_launchReady_refused {s : State} {p : Pid} {l : Launch} {x : Program} (now : Nat) (hl : s.live p = some (l, x)) (code : BitVec 16)
    (he : execLaunchReady p now s = .next ((s.at_ now).refuseLaunch p code)) :
    ∃ u : State, exec (.launchReady p now) s = .next u ∧
      u = (match s.findCmd l.fn l.cid with
        | none => (s.at_ now).clearLaunch p
        | some c => ((s.at_ now).clearLaunch p).complete l.fn c code 0 0) ∧ (u.part p).launch = none :=
  ⟨_, he, (s.at_ now).refuseLaunch_eq p l code (State.launch_of_live hl), State.launch_refuseLaunch _ p code⟩

/-- An accepted launch has its count, and tiles, engines and functions stay. -/
theorem exec_launchReady_accepted {s : State} {p : Pid} {l : Launch} {x : Program} (now : Nat) (hl : s.live p = some (l, x))
    (hph : l.phase = .started) (hd : l.dgst = false) (ha : l.at_ = true → s.time.lock = .locked ∧ (s.at_ now).now + 2048 < l.c)
    (ht : (s.at_ now).tableCheck p x.image = none) :
    ∃ u : State, exec (.launchReady p now) s = .next u ∧ u.tiles = s.tiles ∧ u.engines = s.engines ∧ u.funcs = s.funcs ∧
      (u.part p).launch =
        some { l with phase := .accepted, whash := 0, ihash := 0, c := if l.at_ then l.c else (s.at_ now).now + 2048 } := by
  have hx := execLaunchReady_accepted now hl hph hd ha ht
  obtain ⟨y, _, _, _, _, hw⟩ := (s.at_ now).prepareLaunch_frame p l x.image
  rw [hw] at hx
  refine ⟨_, hx, rfl, rfl, rfl, ?_⟩
  have hlaunch : ((s.at_ now).part p).launch = some l := State.launch_of_live hl
  rw [State.part_modLaunch]
  exact congrArg (Option.map _) hlaunch

/-- At the hint the launch is hinted and the mapped arrays have it. -/
theorem exec_launchHint_hinted {s : State} {p : Pid} {l : Launch} {x : Program} (now : Nat) (hl : s.live p = some (l, x))
    (hph : l.phase = .accepted) (hc : l.c ≤ (s.at_ now).now + 2048) :
    ∃ u : State, exec (.launchHint p now) s = .next u ∧ u = { s.at_ now with tiles := u.tiles, parts := u.parts } ∧
      (u.part p).launch = some { l with phase := .hinted } ∧
      ∀ t, t ∈ x.tiles → u.tile t = { s.tile t with array :=
        { (s.tile t).array with hint := some (s.at_ now).now, hintOver := false, hintNext := (s.at_ now).now + 256 } } := by
  have hx := execLaunchHint_eq now hl
  rw [whenDue, if_pos (by simp [hph, hc])] at hx
  have hr : (s.at_ now).running p = some (l, x) := State.running_of_live hl
  obtain ⟨hframe, htile⟩ := State.sendHint_spec true hr
  have hlaunch : (((s.at_ now).sendHint p true).part p).launch = some l := by
    rw [hframe]
    exact State.launch_of_live hl
  refine ⟨_, hx, ?_, by rw [State.part_modLaunch, hlaunch, Option.map_some], htile⟩
  rw [hframe]
  rfl

theorem exec_launchHint_notDue {s : State} {p : Pid} {l : Launch} {x : Program} (now : Nat) (hl : s.live p = some (l, x))
    (h : l.phase ≠ .accepted ∨ (s.at_ now).now + 2048 < l.c) : exec (.launchHint p now) s = .fault (.notDue "LAUNCH_HINT") := by
  have hx := execLaunchHint_eq now hl
  rw [whenDue, if_neg (by
    rcases h with h | h
    · simp [h]
    · simp [Nat.not_le.2 h])] at hx
  exact hx

/-- At the release every mapped core stands at its entry point, registers zero, counters clear. -/
theorem exec_launchRelease_released {s : State} {p : Pid} {l : Launch} {x : Program} (now : Nat) (hl : s.live p = some (l, x))
    (hph : l.phase = .hinted) (hc : l.c ≤ (s.at_ now).now)
    (hd : ∀ t ∈ x.tiles, (s.tile t).mops = [] ∧ (s.tile t).dmas = [] ∧ (s.tile t).upds = []) :
    ∃ u : State, exec (.launchRelease p now) s = .next u ∧ u.mem = s.mem ∧ u.funcs = s.funcs ∧
      (∃ l', (u.part p).launch = some l' ∧ l'.phase = .released ∧ l'.c = l.c ∧ l'.seed = l.seed ∧ l'.step = l.step) ∧
      ∀ t n, x.logical t = some n → u.tile t = (s.tile t).begin l.slot x n l.seed l.step := by
  have hdrained : ∀ t ∈ x.tiles, (s.tile t).drained = true := fun t ht => by simp [Tile.drained, hd t ht]
  obtain ⟨w, u, hu, hmark, hmem, hfuncs, hlaunch, htiles⟩ := execLaunchRelease_released now hl hph hc hdrained
  refine ⟨u, hu, by rw [hmark.frame, ← hmem], by rw [hmark.frame, ← hfuncs], ?_, fun t n hn => ?_⟩
  · have hl' := hmark.launch p
    rw [hlaunch, Option.map_some, Option.map_eq_some_iff] at hl'
    obtain ⟨l', hu', he⟩ := hl'
    exact ⟨l', hu', (congrArg Launch.phase he :), (congrArg Launch.c he :), (congrArg Launch.seed he :), (congrArg Launch.step he :)⟩
  · rw [hmark.frame, State.tile, htiles, ← State.tile, State.tile_beginTiles_of_logical hn]
    rfl

/-- Settles O32: one lemma for each step of the life of a launch. -/
theorem launchLife : Obligations.LaunchLife := by
  refine ⟨fun s fn cid c p timed hp hc ht => ?_, fun s p now l x hl => ⟨?_, ?_, ?_, ?_, ?_, ?_, ?_, ?_, ?_⟩⟩
  · obtain ⟨m, hm⟩ := exec_launch_eq timed fn cid s
    refine ⟨fun code hk => hm.trans (startLaunch_refused m _ timed s fn cid c p hp hc ht code hk), fun hk => ?_⟩
    exact ⟨launchOf fn c timed, hm.trans (startLaunch_started m _ timed s fn cid c p hp hc ht hk),
      rfl, rfl, rfl, rfl, rfl, rfl, rfl, rfl, rfl, rfl⟩
  · exact fun hph ha hk => exec_launchReady_refused now hl _ (execLaunchReady_busy now hl hph ha hk)
  · exact fun hph ha hk hc => exec_launchReady_refused now hl _ (execLaunchReady_late now hl hph ha hk hc)
  · exact fun hph hd ha ht => exec_launchReady_accepted now hl hph hd ha ht
  · exact fun hph hc => exec_launchHint_hinted now hl hph hc
  · exact fun h => exec_launchHint_notDue now hl h
  · intro hph hc hd
    obtain ⟨u, hu, hmem, hfuncs, hlaunch, htile⟩ := exec_launchRelease_released now hl hph hc hd
    refine ⟨u, hu, hmem, hfuncs, hlaunch, fun t n hn => ?_⟩
    rw [htile t n hn]
    exact ⟨rfl, rfl, rfl, rfl, rfl, rfl, rfl, rfl, rfl, rfl, rfl, rfl, rfl, rfl, rfl⟩
  · exact fun h => execLaunchRelease_notDue now hl h
  · intro hph ho _ hs
    obtain ⟨u, hu, hnone, hends⟩ := execLaunchComplete_ends now hl hph ho hs
    exact ⟨u, hu, hnone, fun c hc he => ⟨(hends he).cmds_of_written hc, (hends he).cmds_of_waiting hc⟩⟩
  · exact fun h => execLaunchComplete_notDue now hl h

end Sys2Proof.Machine
end

