-- ==== Sys2Proof/Proofs/LoadLevel.lean ====
section
/-!
PROOFS. The load level of an array: its steps, the ramp of a hint and the lapse of a hint (03 R80 to R84).
-/
namespace Sys2Proof.Machine

open Sys2Proof.Claims

/-! ### Events that are due or not -/

theorem whenDue_of_due {b : Bool} (m : String) (u : State) (h : b = true) : whenDue b m u = .next u := by
  rw [whenDue, if_pos h]

theorem whenDue_of_not_due {b : Bool} (m : String) (u : State) (h : b = false) : whenDue b m u = .fault (.notDue m) := by
  simp [whenDue, h, notDue]

/-- Two updates that agree on the tile as it stands are one. -/
theorem State.modTile_congr {s : State} {t : TileId} {f g : Tile → Tile} (h : f (s.tile t) = g (s.tile t)) :
    s.modTile t f = s.modTile t g := congrArg (s.setTile t) h

/-- Two updates of an array that agree on it as it stands are one. -/
theorem arrayed_congr {s : State} {t : TileId} {f g : ArrayState → ArrayState} (h : f (s.tile t).array = g (s.tile t).array) :
    arrayed s t f = arrayed s t g := State.modTile_congr (by rw [h])

@[simp] theorem State.tile_at (s : State) (now : Nat) (t : TileId) : (s.at_ now).tile t = s.tile t := rfl

/-! ### What the level depends on -/

theorem ArrayState.hinted_iff (a : ArrayState) : a.hinted = true ↔ a.hint ≠ none ∧ a.hintOver = false := by
  simp [ArrayState.hinted, Option.isSome_iff_ne_none]

theorem ArrayState.hinted_eq_false_iff (a : ArrayState) : a.hinted = false ↔ ¬ (a.hint ≠ none ∧ a.hintOver = false) := by
  rw [← a.hinted_iff, Bool.not_eq_true]

theorem State.arrayWork_of_streaming {s : State} {t : TileId} {q : QMop} (hq : (s.tile t).streaming = some q)
    (hh : (s.tile t).mopHeld q = false) : s.arrayWork t = true := by
  simp [State.arrayWork, hq, hh]

/-- No MOP can start and no offload region is held. -/
theorem State.arrayWork_of_idle {s : State} {t : TileId} (hq : ∀ q, (s.tile t).streaming = some q → (s.tile t).mopHeld q = true)
    (hr : s.heldRegion t = none) : s.arrayWork t = false := by
  cases h : (s.tile t).streaming with
  | none => simp [State.arrayWork, h, hr]
  | some q => simp [State.arrayWork, h, hr, hq q h]

theorem ArrayState.rises_of_work {a : ArrayState} (hh : a.hinted = false) (hl : a.level ≠ 8) : a.rises true = true := by
  simp [ArrayState.rises, hh, hl]

theorem ArrayState.rises_of_ramp {a : ArrayState} (work : Bool) (hr : a.ramp = true) (hl : a.level ≠ 8) : a.rises work = true := by
  simp [ArrayState.rises, hr, hl]

theorem ArrayState.rises_of_idle {a : ArrayState} (hr : a.ramp = false) : a.rises false = false := by simp [ArrayState.rises, hr]

theorem ArrayState.rises_of_hinted {a : ArrayState} (work : Bool) (hh : a.hinted = true) (hr : a.ramp = false) :
    a.rises work = false := by simp [ArrayState.rises, hr, hh]

theorem ArrayState.falls_of_idle {a : ArrayState} (hl : a.level ≠ 0) (hh : a.hinted = false) (hh' : a.hold = false) (hr : a.ramp = false) :
    a.falls false = true := by simp [ArrayState.falls, hl, hh, hh', hr]

theorem ArrayState.falls_of_zero {a : ArrayState} (work : Bool) (hl : a.level = 0) : a.falls work = false := by simp [ArrayState.falls, hl]

theorem ArrayState.falls_of_hinted {a : ArrayState} (work : Bool) (hh : a.hinted = true) : a.falls work = false := by
  simp [ArrayState.falls, hh]

/-! ### The count from which a step is due -/

theorem State.stepFrom_of_ramp {s : State} {t : TileId} (hl : (s.tile t).array.level ≠ 8) (hr : (s.tile t).array.ramp = true) :
    s.stepFrom t = 16 + max (s.tile t).array.stepAt (s.tile t).array.relAt := by
  simp [State.stepFrom, ArrayState.rises_of_ramp _ hr hl, hr]

theorem State.stepFrom_of_streaming {s : State} {t : TileId} {q : QMop} (hq : (s.tile t).streaming = some q)
    (hh : (s.tile t).mopHeld q = false) (hn : (s.tile t).array.hinted = false) (hl : (s.tile t).array.level ≠ 8)
    (hr : (s.tile t).array.ramp = false) : s.stepFrom t = 16 + max (s.tile t).array.stepAt q.issued := by
  simp [State.stepFrom, State.arrayWork_of_streaming hq hh, ArrayState.rises_of_work hn hl, hr, hq]

theorem State.stepFrom_of_not_rises {s : State} {t : TileId} (h : (s.tile t).array.rises (s.arrayWork t) = false) :
    s.stepFrom t = 16 + max (s.tile t).array.stepAt ((s.tile t).array.streamEnd + 64) := by
  simp [State.stepFrom, h]

theorem State.stepAt_add_le_stepFrom (s : State) (t : TileId) : (s.tile t).array.stepAt + 16 ≤ s.stepFrom t := by
  rw [Nat.add_comm, State.stepFrom]
  exact Nat.add_le_add_left (Nat.le_max_left _ _) 16

/-! ### LOAD_LEVEL_STEP (R80) -/

section
variable {s : State} {t : TileId} {ac : Nat}

theorem exec_loadLevelStep_up (hr : (s.tile t).array.rises (s.arrayWork t) = true) (hf : s.stepFrom t ≤ ac)
    (hac : (s.tile t).array.ac ≤ ac) :
    exec (.loadLevelStep { tile := t, ac := ac }) s = .next (arrayed s t fun a => a.stepUp ac) := by
  refine (whenDue_of_due _ _ (by simp [hr, hf, hac])).trans (congrArg _ (State.modTile_congr ?_))
  simp only [hr, if_true]

theorem exec_loadLevelStep_down (hr : (s.tile t).array.rises (s.arrayWork t) = false)
    (hd : (s.tile t).array.falls (s.arrayWork t) = true) (hf : s.stepFrom t ≤ ac) (hac : (s.tile t).array.ac ≤ ac) :
    exec (.loadLevelStep { tile := t, ac := ac }) s = .next (arrayed s t fun a => a.stepDown ac) := by
  refine (whenDue_of_due _ _ (by simp [hd, hf, hac])).trans (congrArg _ (State.modTile_congr ?_))
  simp only [hr, Bool.false_eq_true, if_false]

theorem exec_loadLevelStep_level (hr : (s.tile t).array.rises (s.arrayWork t) = false)
    (hd : (s.tile t).array.falls (s.arrayWork t) = false) :
    exec (.loadLevelStep { tile := t, ac := ac }) s = .fault (.notDue "LOAD_LEVEL_STEP") :=
  whenDue_of_not_due _ _ (by simp [hr, hd])

theorem exec_loadLevelStep_early (h : ac < s.stepFrom t) :
    exec (.loadLevelStep { tile := t, ac := ac }) s = .fault (.notDue "LOAD_LEVEL_STEP") :=
  whenDue_of_not_due _ _ (by simp [Nat.not_le.2 h])

end

theorem level_add_one_eq_eight_iff (l : Fin 9) : l + 1 = 8 ↔ l = 7 := by decide +revert

theorem ArrayState.stepUp_of_no_ramp {a : ArrayState} (ac : Nat) (hr : a.ramp = false) :
    a.stepUp ac = { a with ac := ac, level := a.level + 1, stepAt := ac } := by
  simp [ArrayState.stepUp, hr]

theorem ArrayState.stepUp_of_ramp {a : ArrayState} (ac : Nat) (hr : a.ramp = true) :
    a.stepUp ac = { a with ac := ac, level := a.level + 1, stepAt := ac
                           ramp := decide (a.level ≠ 7), hold := a.hold || decide (a.level = 7)
                           relAt := if a.level = 7 then ac else a.relAt } := by
  simp [ArrayState.stepUp, hr, level_add_one_eq_eight_iff]

/-- The last row of the last pass has streamed 64 ac before a step down. -/
theorem ArrayState.streamEnd_le {a : ArrayState} {n : Nat} (h : ∀ f m, a.slot = some (f, m) → f + m ≤ n) : a.streamEnd ≤ n := by
  unfold ArrayState.streamEnd
  split
  · exact Nat.zero_le n
  · next x hx => exact h x.1 x.2 hx

/-! ### Hints (R81, R84) -/

section
variable {s : State} {t : TileId} {now : Nat}

theorem exec_hintRampStep_up (hh : (s.tile t).array.hinted = true) (hl : (s.tile t).array.level ≠ 8)
    (hn : (s.tile t).array.hintNext ≤ (s.at_ now).now) :
    exec (.hintRampStep { tile := t, now := now }) s =
      .next (arrayed (s.at_ now) t fun a => { a with level := a.level + 1, hintNext := (s.at_ now).now + 256 }) :=
  whenDue_of_due _ _ (by simp [hh, hl, hn])

theorem exec_hintRampStep_notDue
    (h : (s.tile t).array.hinted = false ∨ (s.tile t).array.level = 8 ∨ (s.at_ now).now < (s.tile t).array.hintNext) :
    exec (.hintRampStep { tile := t, now := now }) s = .fault (.notDue "HINT_RAMP_STEP") := by
  refine whenDue_of_not_due _ _ ?_
  rcases h with h | h | h
  · simp [h]
  · simp [h]
  · simp [Nat.not_le.2 h]

theorem execHintLapse_of_hint {h : Nat} (hh : (s.tile t).array.hint = some h) :
    execHintLapse t now s = whenDue (!(s.tile t).array.hintOver && decide (h + 4096 ≤ (s.at_ now).now)) "HINT_LAPSE"
      (arrayed (s.at_ now) t fun a => { a with hintOver := true }) := by
  simp only [execHintLapse, State.tile_at, hh]
  rfl

end

/-- Settles O17: one lemma for a step up, a step down and a step that is not due, by what the level and the count depend on. -/
theorem loadLevel : Obligations.LoadLevel := by
  intro s t ac now y a hinted step next idle
  have hidle : idle → s.arrayWork t = false := fun h => State.arrayWork_of_idle h.1 h.2
  have hhint : hinted ↔ a.hinted = true := a.hinted_iff.symm
  have hnohint : ¬ hinted ↔ a.hinted = false := a.hinted_eq_false_iff.symm
  have hflat : a.ramp = false → idle → a.rises (s.arrayWork t) = false := fun hr h => by
    rw [hidle h]; exact ArrayState.rises_of_idle hr
  refine ⟨?_, ?_, ?_, ?_, ?_, ?_, ?_, ?_, ?_, ?_, ?_⟩
  · intro q hq hheld hnh hr hl hstep hissued hac
    have hwork := State.arrayWork_of_streaming hq hheld
    have hrise : a.rises (s.arrayWork t) = true := by rw [hwork]; exact ArrayState.rises_of_work (hnohint.1 hnh) hl
    have hfrom : s.stepFrom t = 16 + max a.stepAt q.issued := State.stepFrom_of_streaming hq hheld (hnohint.1 hnh) hl hr
    rw [exec_loadLevelStep_up hrise (by rw [hfrom]; omega) hac]
    exact congrArg _ (arrayed_congr (ArrayState.stepUp_of_no_ramp ac hr))
  · intro hr hl hstep hrel hac
    have hfrom : s.stepFrom t = 16 + max a.stepAt a.relAt := State.stepFrom_of_ramp hl hr
    rw [exec_loadLevelStep_up (ArrayState.rises_of_ramp _ hr hl) (by rw [hfrom]; omega) hac]
    exact congrArg _ (arrayed_congr (ArrayState.stepUp_of_ramp ac hr))
  · intro hl hi hnh hhold hr hslot h80 hstep hac
    have hfall : a.falls (s.arrayWork t) = true := by rw [hidle hi]; exact ArrayState.falls_of_idle hl (hnohint.1 hnh) hhold hr
    have hend : a.streamEnd ≤ ac - 80 := ArrayState.streamEnd_le fun f m h => by have := hslot f m h; omega
    have hfrom : s.stepFrom t = 16 + max a.stepAt (a.streamEnd + 64) := State.stepFrom_of_not_rises (hflat hr hi)
    exact exec_loadLevelStep_down (hflat hr hi) hfall (by rw [hfrom]; omega) hac
  · intro f m hslot hr hi hlt
    have hend : a.streamEnd = f + m := by simp [ArrayState.streamEnd, hslot]
    have hfrom : s.stepFrom t = 16 + max a.stepAt (a.streamEnd + 64) := State.stepFrom_of_not_rises (hflat hr hi)
    exact exec_loadLevelStep_early (by rw [hfrom]; omega)
  · exact fun hlt => exec_loadLevelStep_early (lt_of_lt_of_le hlt (s.stepAt_add_le_stepFrom t))
  · exact fun hl hr hi => exec_loadLevelStep_level (hflat hr hi) (ArrayState.falls_of_zero _ hl)
  · exact fun hh hr => exec_loadLevelStep_level (ArrayState.rises_of_hinted _ (hhint.1 hh) hr) (ArrayState.falls_of_hinted _ (hhint.1 hh))
  · exact fun hh hl hn => exec_hintRampStep_up (hhint.1 hh) hl hn
  · exact fun h => exec_hintRampStep_notDue (h.imp_left hnohint.1)
  · intro h hh hover hle
    exact (execHintLapse_of_hint hh).trans (whenDue_of_due _ _ (by rw [show (s.tile t).array.hintOver = false from hover]; simp [hle]))
  · intro h hh hlt
    exact (execHintLapse_of_hint hh).trans (whenDue_of_not_due _ _ (by simp [Nat.not_le.2 hlt]))

end Sys2Proof.Machine
end

