-- ==== Sys2Proof/Proofs/PassesStart.lean ====
section
/-!
PROOFS. Block loads and pass starts of an array's queue (03 R66, R68, R77, R78, R83).
-/
namespace Sys2Proof.Machine

open Sys2Proof.Claims

/-! ### The queue of an array -/

section
variable {y : Tile} {q : QMop} {pre post : List QMop}

theorem Tile.loading_eq (hm : y.mops = pre ++ q :: post) (hpre : ∀ x ∈ pre, x.total ≤ x.loads) (hq : q.loads < q.total) :
    y.loading = some q :=
  List.find?_eq_some_iff_append.2 ⟨by simp [hq], pre, post, hm, fun x hx => by simp [hpre x hx]⟩

theorem Tile.streaming_eq (hm : y.mops = pre ++ q :: post) (hpre : ∀ x ∈ pre, x.total ≤ x.passes) (hq : q.passes < q.total) :
    y.streaming = some q :=
  List.find?_eq_some_iff_append.2 ⟨by simp [hq], pre, post, hm, fun x hx => by simp [hpre x hx]⟩

/-- The update of a MOP whose number no other MOP has reaches that MOP alone. -/
theorem Tile.updMop_eq (hm : y.mops = pre ++ q :: post) (hseq : ∀ x ∈ pre ++ post, x.seq ≠ q.seq) (f : QMop → QMop) :
    y.updMop q f = { y with mops := pre ++ f q :: post } := by
  have hid (xs : List QMop) (h : ∀ x ∈ xs, x.seq ≠ q.seq) : xs.map (fun x => if x.seq = q.seq then f x else x) = xs :=
    (List.map_congr_left fun x hx => if_neg (h x hx)).trans xs.map_id'
  have hpre := hid pre fun x hx => hseq x (List.mem_append_left post hx)
  have hpost := hid post fun x hx => hseq x (List.mem_append_right pre hx)
  simp only [Tile.updMop, hm, List.map_append, List.map_cons, hpre, hpost, if_true]

end

/-! ### Blocks (R66, R68) -/

/-- The contraction folds of one output fold come before the next output fold. -/
theorem Mop.blockIndex_pass (x : Mop) (n : Nat) : x.blockIndex (x.pass n) =
    if x.dir then n / x.perBlock % x.fN * x.fK + n / x.perBlock / x.fN else n / x.perBlock := by
  cases hd : x.dir with
  | true => simp [Mop.blockIndex, Mop.pass, hd]
  | false => simp [Mop.blockIndex, Mop.pass, hd, Nat.div_add_mod']

theorem QMop.key_eq (q : QMop) : q.key = { bAddr := q.bAddr, amode := q.mop.amode, fmtB := q.mop.fmtB, index := 0 } := by
  simp [QMop.key, Mop.blockIndex_pass]

theorem Tile.resident_iff (y : Tile) (q : QMop) : y.resident q = true ↔
    y.array.keep = true ∧ y.array.active.map (·.key) = some { bAddr := q.bAddr, amode := q.mop.amode, fmtB := q.mop.fmtB, index := 0 } ∧
      q.passes = 0 ∧ q.loads = 0 := by
  simp [Tile.resident, QMop.key_eq, and_assoc]

theorem State.weightBlock_length (s : State) (t : TileId) (q : QMop) (n : Nat) : (s.weightBlock t q n).words.length = 9216 := by
  simp [State.weightBlock, List.length_flatMap]

/-! ### BLOCK_LOAD (R77, R78) -/

theorem Tile.turnOf_eq_true {y : Tile} {q : QMop} (h : ∀ x ∈ y.mops, q.seq ≤ x.seq ∨ x.passes = x.total) : y.turnOf q = true := by
  simpa [Tile.turnOf] using h

theorem Tile.loadFrom_le_iff (y : Tile) (q : QMop) (n : Nat) :
    y.loadFrom q ≤ n ↔ y.array.freeAt ≤ n ∧ q.issued ≤ n ∧ (y.waitsLanes q = true → y.array.streamEnd ≤ n) := by
  unfold Tile.loadFrom
  split
  · next h => simp [h]
  · next h => simp [h]

/-- What holds back a first block by lanes: the last pass streamed 96 ac ago and every MOP before has started its passes, or no change. -/
theorem Tile.lanes_free {y : Tile} {q : QMop} {ac : Nat} (h : q.loads = 0 → y.lanesChange q = false ∨
    (y.array.streamEnd + 96 ≤ ac ∧ ∀ x ∈ y.mops, q.seq ≤ x.seq ∨ x.passes = x.total)) :
    (y.waitsLanes q && !y.turnOf q) = false ∧ (y.waitsLanes q = true → y.array.streamEnd ≤ ac - 96) := by
  cases hw : y.waitsLanes q with
  | false => simp
  | true =>
    obtain ⟨hq, hc⟩ : q.loads = 0 ∧ y.lanesChange q = true := by simpa [Tile.waitsLanes] using hw
    obtain ⟨hend, hturn⟩ := (h hq).resolve_left (by simp [hc])
    exact ⟨by simp [Tile.turnOf_eq_true hturn], fun _ => by omega⟩

section
variable {s : State} {t : TileId} {q : QMop} {ac : Nat}

theorem exec_blockLoad_eq (hl : (s.tile t).loading = some q) : exec (.blockLoad { tile := t, ac := ac }) s =
    whenDue ((s.tile t).array.shadow.isNone && !(s.tile t).resident q && !(decide (q.loads = 0) && (s.tile t).mopHeld q) &&
      !((s.tile t).waitsLanes q && !(s.tile t).turnOf q) && decide ((s.tile t).loadFrom q + 96 ≤ ac) && decide ((s.tile t).array.ac ≤ ac))
      "BLOCK_LOAD" (s.modTile t fun y =>
        { y.updMop q fun x => { x with loads := x.loads + 1 } with
          array := { y.array with ac := ac, shadow := some (s.weightBlock t q q.loads) } }) := by
  change execBlockLoad _ s = _
  simp only [execBlockLoad, hl]
  rfl

theorem exec_blockLoad_loads (hl : (s.tile t).loading = some q) (hsh : (s.tile t).array.shadow = none)
    (hfree : (s.tile t).array.freeAt + 96 ≤ ac) (hiss : q.issued + 96 ≤ ac) (hac : (s.tile t).array.ac ≤ ac)
    (hfirst : q.loads = 0 → (s.tile t).resident q = false ∧ (s.tile t).mopHeld q = false ∧ ((s.tile t).lanesChange q = false ∨
      ((s.tile t).array.streamEnd + 96 ≤ ac ∧ ∀ x ∈ (s.tile t).mops, q.seq ≤ x.seq ∨ x.passes = x.total))) :
    exec (.blockLoad { tile := t, ac := ac }) s = .next (s.modTile t fun y =>
      { y.updMop q fun x => { x with loads := x.loads + 1 } with
        array := { y.array with ac := ac, shadow := some (s.weightBlock t q q.loads) } }) := by
  obtain ⟨hturn, hend⟩ := Tile.lanes_free fun h => (hfirst h).2.2
  have hres : (s.tile t).resident q = false := by
    by_cases hq : q.loads = 0
    · exact (hfirst hq).1
    · simp [Tile.resident, hq]
  have hheld : (decide (q.loads = 0) && (s.tile t).mopHeld q) = false := by
    by_cases hq : q.loads = 0
    · simp [(hfirst hq).2.1]
    · simp [hq]
  have hfrom : (s.tile t).loadFrom q + 96 ≤ ac := by
    have := ((s.tile t).loadFrom_le_iff q (ac - 96)).2 ⟨by omega, by omega, hend⟩
    omega
  exact (exec_blockLoad_eq hl).trans (whenDue_of_due _ _ (by simp [hsh, hres, hheld, hturn, hfrom, hac]))

theorem exec_blockLoad_notDue (hl : (s.tile t).loading = some q) (h : (s.tile t).array.shadow ≠ none ∨ (s.tile t).resident q = true ∨
    ac < (s.tile t).array.freeAt + 96 ∨ ac < q.issued + 96) :
    exec (.blockLoad { tile := t, ac := ac }) s = .fault (.notDue "BLOCK_LOAD") := by
  refine (exec_blockLoad_eq hl).trans (whenDue_of_not_due _ _ ?_)
  have hfrom := ((s.tile t).loadFrom_le_iff q ((s.tile t).loadFrom q)).1 le_rfl
  rcases h with h | h | h | h
  · simp [Option.isNone_eq_false_iff.2 (Option.isSome_iff_ne_none.2 h)]
  · simp [h]
  · simp [show ¬ (s.tile t).loadFrom q + 96 ≤ ac by omega]
  · simp [show ¬ (s.tile t).loadFrom q + 96 ≤ ac by omega]

/-! ### PASS_START (R77, R83) -/

theorem exec_passStart_eq (k : Fin 3) (hl : (s.tile t).streaming = some q) : exec (.passStart { tile := t, ac := ac } k) s =
    whenDue (((s.tile t).resident q || ((s.tile t).array.shadow.isSome && decide (q.loads = q.passes + 1))) &&
      decide ((s.tile t).array.level = 8) && !(s.tile t).mopHeld q && decide ((s.tile t).array.slotEnd ≤ ac) &&
      decide ((match (s.tile t).array.stagger with | none => 0 | some n => (s.tile t).array.relAt + n) ≤ ac) &&
      decide ((s.tile t).array.ac ≤ ac)) "PASS_START"
      (s.modTile t fun y =>
        { y.updMop q fun z => { z with passes := z.passes + 1, loads := max z.loads (z.passes + 1), lastAt := ac } with
          retryCnt := satAdd y.retryCnt k.val
          array := y.array.feed q ((s.tile t).resident q) ac }) := by
  change execPassStart _ k s = _
  simp only [execPassStart, hl, State.countReruns, State.modTile_modTile]
  rfl

theorem ArrayState.stagger_le {a : ArrayState} {ac : Nat} (h : ∀ n, a.stagger = some n → a.relAt + n ≤ ac) :
    (match a.stagger with | none => 0 | some n => a.relAt + n) ≤ ac := by
  split
  · exact Nat.zero_le ac
  · next n hn => exact h n hn

theorem exec_passStart_starts (k : Fin 3) (hl : (s.tile t).streaming = some q) (hlev : (s.tile t).array.level = 8)
    (hheld : (s.tile t).mopHeld q = false) (hslot : (s.tile t).array.slotEnd ≤ ac) (hac : (s.tile t).array.ac ≤ ac)
    (hst : ∀ n, (s.tile t).array.stagger = some n → (s.tile t).array.relAt + n ≤ ac)
    (hblock : (s.tile t).resident q = true ∨ ((s.tile t).array.shadow ≠ none ∧ q.loads = q.passes + 1)) :
    exec (.passStart { tile := t, ac := ac } k) s = .next (s.modTile t fun y =>
      { y.updMop q fun z => { z with passes := z.passes + 1, loads := max z.loads (z.passes + 1), lastAt := ac } with
        retryCnt := satAdd y.retryCnt k.val
        array := y.array.feed q ((s.tile t).resident q) ac }) := by
  refine (exec_passStart_eq k hl).trans (whenDue_of_due _ _ ?_)
  have hthere : ((s.tile t).resident q || ((s.tile t).array.shadow.isSome && decide (q.loads = q.passes + 1))) = true := by
    rcases hblock with h | ⟨hsh, hq⟩
    · simp [h]
    · simp [Option.isSome_iff_ne_none.2 hsh, hq]
  simp [hthere, hlev, hheld, hslot, hac, ArrayState.stagger_le hst]

theorem exec_passStart_notDue (k : Fin 3) (hl : (s.tile t).streaming = some q) (h : (s.tile t).array.level ≠ 8 ∨
    (s.tile t).mopHeld q = true ∨ ac < (s.tile t).array.slotEnd ∨
      ∃ n, (s.tile t).array.stagger = some n ∧ ac < (s.tile t).array.relAt + n) :
    exec (.passStart { tile := t, ac := ac } k) s = .fault (.notDue "PASS_START") := by
  refine (exec_passStart_eq k hl).trans (whenDue_of_not_due _ _ ?_)
  rcases h with h | h | h | ⟨n, hn, h⟩
  · simp [h]
  · simp [h]
  · simp [Nat.not_le.2 h]
  · simp [hn, Nat.not_le.2 h]

end

/-- Settles O18, by the lemmas on what BLOCK_LOAD and PASS_START do for the oldest MOP that waits for them. -/
theorem passesStart : Obligations.PassesStart := by
  intro s t q pre post ac k y a hm hseq x key n block resident streamed slotOver fed
  have hres : y.resident q = true ↔ resident := y.resident_iff q
  have hnres : y.resident q = false ↔ ¬ resident := by rw [← hres, Bool.not_eq_true]
  refine ⟨?_, ?_, ?_, ?_, ?_⟩
  · intro hpre hq hsh hfree hiss hac hfirst
    refine ⟨s.weightBlock t q q.loads, congrArg (BlockKey.mk _ _ _) (Mop.blockIndex_pass _ _), State.weightBlock_length _ _ _ _, ?_⟩
    rw [exec_blockLoad_loads (Tile.loading_eq hm hpre hq) hsh hfree hiss hac fun h => ⟨hnres.2 (hfirst h).1, (hfirst h).2⟩]
    refine congrArg _ (State.modTile_congr ?_)
    rw [Tile.updMop_eq hm hseq]
  · exact fun hpre hq h => exec_blockLoad_notDue (Tile.loading_eq hm hpre hq) (h.imp_right (Or.imp_left hres.2))
  · intro hpre hq hlev hheld hover hac hst hsh hload hnr
    rw [exec_passStart_starts k (Tile.streaming_eq hm hpre hq) hlev hheld hover hac hst (Or.inr ⟨hsh, hload⟩)]
    refine congrArg _ (State.modTile_congr ?_)
    rw [Tile.updMop_eq hm hseq, show (s.tile t).resident q = false from hnres.2 hnr, ← hload, Nat.max_self]
    rfl
  · intro hpre hq hlev hheld hover hac hst hr
    have hkept : (s.tile t).resident q = true := hres.2 hr
    obtain ⟨-, -, hpasses, hloads⟩ := hr
    rw [exec_passStart_starts k (Tile.streaming_eq hm hpre hq) hlev hheld hover hac hst (Or.inl hkept)]
    refine congrArg _ (State.modTile_congr ?_)
    rw [Tile.updMop_eq hm hseq, hkept, hpasses, hloads]
    rfl
  · exact fun hpre hq h => exec_passStart_notDue k (Tile.streaming_eq hm hpre hq) h

end Sys2Proof.Machine
end

