-- ==== Sys2Proof/Proofs/StoredResults.lean ====
section
/-!
PROOFS. Little-endian values stored in memory and read back, alone and as a list of stores, and where the elements of a MOP's C lie
(16 R380; 03 R69).
-/
namespace Sys2Proof.Machine

/-! ### One value -/

theorem leNat_leBytes (n v : Nat) : leNat (leBytes n v) = v % 2 ^ (8 * n) := by
  induction n generalizing v with
  | zero => simp [leBytes, leNat, Nat.mod_one]
  | succ n ih =>
    have hpow : 2 ^ (8 * (n + 1)) = 256 * 2 ^ (8 * n) := by rw [Nat.mul_succ, pow_add, Nat.mul_comm]; rfl
    rw [leBytes, leNat, ih, hpow, Nat.mod_mul, BitVec.toNat_ofNat]

theorem Memory.readBytes_congr {m m' : List Host.Cell} {a n : Nat} (h : ∀ i, i < n → Memory.read m (a + i) = Memory.read m' (a + i)) :
    Memory.readBytes m a n = Memory.readBytes m' a n :=
  List.map_congr_left fun i hi => h i (List.mem_range.1 hi)

theorem Memory.readBytes_writeBytes (m : List Host.Cell) (a : Nat) (bs : List Byte) (h : Memory.wf m = true) :
    Memory.readBytes (Memory.writeBytes m a bs) a bs.length = bs := by
  refine List.ext_getElem (by simp [Memory.readBytes]) fun i hi hi' => ?_
  simp [Memory.readBytes, Memory.read_writeBytes m a _ bs h, hi']

/-- A value read back where it was stored. -/
theorem Memory.readLe_writeLe (m : List Host.Cell) (a w v : Nat) (h : Memory.wf m = true) :
    Memory.readLe (Memory.writeLe m a w v) a w = v % 2 ^ (8 * w) := by
  have hread := Memory.readBytes_writeBytes m a (leBytes w v) h
  rw [leBytes_length] at hread
  rw [Memory.readLe, Memory.writeLe, hread, leNat_leBytes]

/-- A store leaves every byte outside it. -/
theorem Memory.read_writeLe_of_outside (m : List Host.Cell) (a w v b : Nat) (h : Memory.wf m = true) (hb : b < a ∨ a + w ≤ b) :
    Memory.read (Memory.writeLe m a w v) b = Memory.read m b := by
  rw [Memory.writeLe, Memory.read_writeBytes m a b _ h, leBytes_length, if_neg (by omega)]

theorem Memory.readLe_writeLe_of_disjoint (m : List Host.Cell) (a w v c : Nat) (h : Memory.wf m = true) (hc : c + w ≤ a ∨ a + w ≤ c) :
    Memory.readLe (Memory.writeLe m a w v) c w = Memory.readLe m c w :=
  congrArg leNat (Memory.readBytes_congr fun i hi => Memory.read_writeLe_of_outside m a w v _ h (by omega))

/-! ### A list of values of one width -/

/-- The memory after values of width w are stored at offsets from a base, in order. -/
def Memory.writeAll (m : List Host.Cell) (base w : Nat) (xs : List (Nat × Nat)) : List Host.Cell :=
  xs.foldl (fun m x => Memory.writeLe m (base + x.1) w x.2) m

theorem Memory.read_writeAll_of_outside {m : List Host.Cell} (base w b : Nat) (xs : List (Nat × Nat)) (h : Memory.wf m = true)
    (hb : ∀ x ∈ xs, b < base + x.1 ∨ base + x.1 + w ≤ b) : Memory.read (Memory.writeAll m base w xs) b = Memory.read m b := by
  induction xs generalizing m with
  | nil => rfl
  | cons x xs ih =>
    obtain ⟨hx, hxs⟩ := List.forall_mem_cons.1 hb
    exact (ih (Memory.wf_writeLe m _ w _ h) hxs).trans (Memory.read_writeLe_of_outside m _ w _ b h hx)

/-- A value stands where it was stored when every other store of the list is beside it. -/
theorem Memory.readLe_writeAll {m : List Host.Cell} (base w : Nat) (xs : List (Nat × Nat)) (x : Nat × Nat) (h : Memory.wf m = true)
    (hx : x ∈ xs ∨ Memory.readLe m (base + x.1) w = x.2 % 2 ^ (8 * w))
    (hd : ∀ z ∈ xs, z = x ∨ x.1 + w ≤ z.1 ∨ z.1 + w ≤ x.1) :
    Memory.readLe (Memory.writeAll m base w xs) (base + x.1) w = x.2 % 2 ^ (8 * w) := by
  induction xs generalizing m with
  | nil => exact hx.resolve_left List.not_mem_nil
  | cons z zs ih =>
    obtain ⟨hz, hzs⟩ := List.forall_mem_cons.1 hd
    refine ih (Memory.wf_writeLe m _ w _ h) ?_ hzs
    by_cases hzx : z = x
    · exact Or.inr (by rw [hzx, Memory.readLe_writeLe m _ w _ h])
    · rcases hx with hx | hx
      · exact Or.inl ((List.mem_cons.1 hx).resolve_left (Ne.symm hzx))
      · have hbeside := hz.resolve_left hzx
        exact Or.inr (by rw [Memory.readLe_writeLe_of_disjoint m _ w _ _ h (by omega), hx])

/-! ### The elements of C (03 R69) -/

theorem mul_add_inj_of_lt {n a b a' b' : Nat} (hb : b < n) (hb' : b' < n) (h : a * n + b = a' * n + b') : a = a' ∧ b = b' := by
  have hdiv := congrArg (· / n) h
  have hmod := congrArg (· % n) h
  simp only [Nat.mul_add_mod_self_right, Nat.mod_eq_of_lt hb, Nat.mod_eq_of_lt hb'] at hmod
  subst hmod
  exact ⟨Nat.eq_of_mul_eq_mul_right (by omega) (Nat.add_right_cancel h), rfl⟩

/-- The row-major place of an element (part, row, column) of C. -/
def Mop.rowMajor (x : Mop) (o : Nat × Nat × Nat) : Nat := o.1 * (x.m * x.cols) + o.2.1 * x.cols + o.2.2

theorem Mop.mem_outputs {x : Mop} {o : Nat × Nat × Nat} : o ∈ x.outputs ↔ o.1 < x.parts ∧ o.2.1 < x.m ∧ o.2.2 < x.cols := by
  obtain ⟨p, i, c⟩ := o
  simp [Mop.outputs]

/-- Row i < m and column c < n of a part lie among its m * n elements. -/
theorem row_add_column_lt {m n i c : Nat} (hi : i < m) (hc : c < n) : i * n + c < m * n :=
  calc i * n + c < (i + 1) * n := by rw [Nat.succ_mul]; omega
    _ ≤ m * n := Nat.mul_le_mul_right n hi

theorem Mop.rowMajor_lt {x : Mop} {o : Nat × Nat × Nat} (ho : o ∈ x.outputs) : x.rowMajor o < x.parts * (x.m * x.cols) := by
  obtain ⟨hp, hi, hc⟩ := Mop.mem_outputs.1 ho
  rw [Mop.rowMajor, Nat.add_assoc]
  exact row_add_column_lt hp (row_add_column_lt hi hc)

/-- Different elements have different places. -/
theorem Mop.rowMajor_inj {x : Mop} {o o' : Nat × Nat × Nat} (ho : o ∈ x.outputs) (ho' : o' ∈ x.outputs)
    (h : x.rowMajor o = x.rowMajor o') : o = o' := by
  obtain ⟨-, hi, hc⟩ := Mop.mem_outputs.1 ho
  obtain ⟨-, hi', hc'⟩ := Mop.mem_outputs.1 ho'
  rw [Mop.rowMajor, Mop.rowMajor, Nat.add_assoc, Nat.add_assoc] at h
  obtain ⟨hp, hrow⟩ := mul_add_inj_of_lt (row_add_column_lt hi hc) (row_add_column_lt hi' hc') h
  obtain ⟨hi, hc⟩ := mul_add_inj_of_lt hc hc' hrow
  exact Prod.ext hp (Prod.ext hi hc)

/-- Values of width w at different places are beside each other. -/
theorem mul_width_disjoint {a b : Nat} (w : Nat) (h : a ≠ b) : a * w + w ≤ b * w ∨ b * w + w ≤ a * w := by
  rcases Nat.lt_or_gt_of_ne h with h | h
  · exact Or.inl (by rw [← Nat.succ_mul]; exact Nat.mul_le_mul_right w h)
  · exact Or.inr (by rw [← Nat.succ_mul]; exact Nat.mul_le_mul_right w h)

theorem State.drain_offset (s : State) (t : TileId) (q : QMop) (z : Nat × Nat × Nat) (o : Nat × Nat × Nat) :
    (s.drain t q z o.1 o.2.1 o.2.2).1 = q.cAddr + q.mop.rowMajor o * fmtBytes q.mop.fmtC := by
  simp only [State.drain, Mop.sizeC, Mop.rowMajor]
  ring

/-- What a MOP stores: the offset and the code of every element of C. -/
def State.stores (s : State) (t : TileId) (q : QMop) : List (Nat × Nat) :=
  q.mop.outputs.map fun o => (q.cAddr + q.mop.rowMajor o * fmtBytes q.mop.fmtC, (s.drain t q (s.mopScales t q.mop) o.1 o.2.1 o.2.2).2.1.1)

theorem State.runMop_mem (s : State) (t : TileId) (q : QMop) (counted : Bool) :
    (s.runMop t q counted).mem = Memory.writeAll s.mem (tileAddr t) (fmtBytes q.mop.fmtC) (s.stores t q) := by
  have hstores : s.stores t q = (q.mop.outputs.map fun o => s.drain t q (s.mopScales t q.mop) o.1 o.2.1 o.2.2).map
      fun r => (r.1, r.2.1.1) := by
    simp only [State.stores, List.map_map, Function.comp_def, State.drain_offset]
  rw [hstores]
  cases counted <;> rfl

/-- After a MOP every element of C reads as its code. -/
theorem State.readLe_runMop {s : State} {q : QMop} (t : TileId) (counted : Bool) (h : Memory.wf s.mem = true) {o : Nat × Nat × Nat}
    (ho : o ∈ q.mop.outputs) :
    Memory.readLe (s.runMop t q counted).mem (tileAddr t + (q.cAddr + q.mop.rowMajor o * fmtBytes q.mop.fmtC)) (fmtBytes q.mop.fmtC) =
      (s.drain t q (s.mopScales t q.mop) o.1 o.2.1 o.2.2).2.1.1 % 2 ^ (8 * fmtBytes q.mop.fmtC) := by
  rw [State.runMop_mem]
  refine Memory.readLe_writeAll (tileAddr t) _ _ (_, _) h (Or.inl (List.mem_map.2 ⟨o, ho, rfl⟩)) fun z hz => ?_
  obtain ⟨o', ho', rfl⟩ := List.mem_map.1 hz
  by_cases heq : o' = o
  · exact Or.inl (by rw [heq])
  · have hne : q.mop.rowMajor o ≠ q.mop.rowMajor o' := fun e => heq (Mop.rowMajor_inj ho' ho e.symm)
    have := mul_width_disjoint (fmtBytes q.mop.fmtC) hne
    exact Or.inr (by omega)

/-- A MOP changes no byte outside C. -/
theorem State.read_runMop_of_outside {s : State} {q : QMop} (t : TileId) (counted : Bool) (h : Memory.wf s.mem = true) {b : Nat}
    (hb : b < tileAddr t + q.cAddr ∨ tileAddr t + q.cAddr + q.mop.parts * (q.mop.m * q.mop.cols * fmtBytes q.mop.fmtC) ≤ b) :
    Memory.read (s.runMop t q counted).mem b = Memory.read s.mem b := by
  rw [State.runMop_mem]
  refine Memory.read_writeAll_of_outside _ _ b _ h fun z hz => ?_
  obtain ⟨o, ho, rfl⟩ := List.mem_map.1 hz
  have hlast : q.mop.rowMajor o * fmtBytes q.mop.fmtC + fmtBytes q.mop.fmtC ≤
      q.mop.parts * (q.mop.m * q.mop.cols * fmtBytes q.mop.fmtC) := by
    rw [← Nat.succ_mul, ← Nat.mul_assoc]
    exact Nat.mul_le_mul_right _ (Mop.rowMajor_lt ho)
  rcases hb with hb | hb
  · exact Or.inl (by omega)
  · exact Or.inr (by omega)

end Sys2Proof.Machine
end

