-- ==== Sys2Proof/Proofs/MopResults.lean ====
section
/-!
PROOFS. The end of a MOP of the queue and of an offloaded one (03 R69, R79; 05 R131; 07 R160).
-/
namespace Sys2Proof.Machine

open Sys2Proof.Claims

/-! ### Counters and the region flag (02 R55, 08 R201) -/

theorem Core.flagIf_flagIf (c : Core) (a b : Bool) : (c.flagIf a).flagIf b = c.flagIf (a || b) := by
  simp only [Core.flagIf, Option.map_map, Function.comp_def, Bool.or_assoc]

/-- An open region's flag is set or everything stays. -/
theorem FlagOnly.flagIf (c : Core) (b : Bool) : FlagOnly c (c.flagIf b) := by
  refine ⟨rfl, ?_⟩
  cases b with
  | false => exact Or.inl (by simp [Core.flagIf])
  | true => exact Or.inr (by simp [Core.flagIf])

/-- The tile that counted its conversions, a bad scale and what was shed. -/
def Tile.counted (y : Tile) (fmt : Nat) (rs : List (Nat × Cnt)) (ok : Bool) (shed : Nat) : Tile :=
  let z := if ok then y.countAll fmt rs else (y.countAll fmt rs).countScaleBad
  { z with cnt := { z.cnt with shed := satAdd z.cnt.shed shed } }

/-- Counting changes counters and the region's flag. -/
theorem Tile.counted_frame (y : Tile) (fmt : Nat) (rs : List (Nat × Cnt)) (ok : Bool) (shed : Nat) :
    ∃ b, y.counted fmt rs ok shed = { y with cnt := (y.counted fmt rs ok shed).cnt, core := y.core.flagIf b } := by
  cases ok with
  | true => exact ⟨_, rfl⟩
  | false =>
    refine ⟨(rs.any fun r => r.2.flags || codeSpecial fmt r.1) || true, ?_⟩
    rw [← Core.flagIf_flagIf]
    rfl

theorem State.runMop_eq_counted (s : State) (t : TileId) (q : QMop) : ∃ rs ok shed,
    s.runMop t q true = { s with mem := (s.runMop t q true).mem }.modTile t fun y => y.counted q.mop.fmtC rs ok shed :=
  ⟨_, _, _, rfl⟩

/-- A counted MOP writes memory, counters and the region's flag. -/
theorem State.runMop_counted (s : State) (t : TileId) (q : QMop) : ∃ (cnt : Counters) (b : Bool),
    s.runMop t q true = { s with mem := (s.runMop t q true).mem }.modTile t fun y => { y with cnt := cnt, core := y.core.flagIf b } := by
  obtain ⟨rs, ok, shed, hrun⟩ := s.runMop_eq_counted t q
  obtain ⟨b, hcount⟩ := (s.tile t).counted_frame q.mop.fmtC rs ok shed
  exact ⟨_, b, hrun.trans (State.modTile_congr hcount)⟩

/-! ### T_END (13 R311) -/

theorem State.part_touchEnd (s : State) (p r : Pid) : (s.touchEnd p).part r =
    { s.part r with launch := (s.part r).launch.map fun l => if p = r then { l with tEnd := max l.tEnd s.now } else l } := by
  by_cases h : r = p
  · subst h
    rw [State.touchEnd, State.part_modPart]
    cases hl : (s.part r).launch with
    | none => exact congrArg (fun z => { s.part r with launch := z }) hl
    | some l => simp
  · rw [State.touchEnd, State.part_modPart_ne _ _ _ _ h]
    simp [Ne.symm h]

/-- The launch whose tile wrote a result: T_END follows it. -/
def State.touchOwner (s : State) (t : TileId) : State :=
  match s.partOfTile t with
  | none => s
  | some p => s.touchEnd p

theorem State.touchOwner_frame (s : State) (t : TileId) : s.touchOwner t = { s with parts := (s.touchOwner t).parts } := by
  unfold State.touchOwner
  split
  · rfl
  · rfl

@[simp] theorem State.mem_touchOwner (s : State) (t : TileId) : (s.touchOwner t).mem = s.mem := by rw [State.touchOwner_frame]

@[simp] theorem State.tile_touchOwner (s : State) (t v : TileId) : (s.touchOwner t).tile v = s.tile v := by
  rw [State.touchOwner_frame]
  rfl

@[simp] theorem State.core_touchOwner (s : State) (t v : TileId) : (s.touchOwner t).core v = s.core v := by
  rw [State.core, State.tile_touchOwner, State.core]

theorem State.part_touchOwner (s : State) (t : TileId) (p : Pid) : (s.touchOwner t).part p =
    { s.part p with launch := (s.part p).launch.map fun l =>
        if s.partOfTile t = some p then { l with tEnd := max l.tEnd s.now } else l } := by
  unfold State.touchOwner
  cases s.partOfTile t with
  | none => simp
  | some r => simp [State.part_touchEnd]

/-- The work of a tile that changed itself and memory alone, with its launch's T_END. -/
theorem TileWork.touchOwner {s w : State} {t : TileId} (hw : w = { s with tiles := w.tiles, mem := w.mem })
    (ht : ∀ v, v ≠ t → w.tile v = s.tile v) : TileWork s (w.touchOwner t) t := by
  refine ⟨?_, fun v hv => ?_, fun p => ?_⟩
  · rw [State.touchOwner_frame, hw]
  · rw [State.tile_touchOwner, ht v hv]
  · have hpart : w.part p = s.part p := by rw [hw]; rfl
    have hown : w.partOfTile t = s.partOfTile t := by rw [hw]; rfl
    have hnow : w.now = s.time.gt.toNat := by rw [hw]; rfl
    rw [State.part_touchOwner, hpart, hown, hnow]
    exact ⟨rfl, rfl⟩

/-! ### MOP_COMPLETE (03 R79, 07 R160) -/

/-- The state after a completed MOP: the results written, the queue without it, one more MOP done, counters and the region's flag. -/
def State.mopDone (s : State) (t : TileId) (q : QMop) (rest : List QMop) (ac : Nat) (cnt : Counters) (b : Bool) : State :=
  { s with mem := (s.runMop t q true).mem }.modTile t fun y =>
    { y with mops := rest, cnt := cnt, core := { y.core with mdone := y.core.mdone + 1 }.flagIf b, array := { y.array with ac := ac } }

theorem State.tile_mopDone (s : State) (t : TileId) (q : QMop) (rest : List QMop) (ac : Nat) (cnt : Counters) (b : Bool) :
    (s.mopDone t q rest ac cnt b).tile t =
      { s.tile t with mops := rest, cnt := cnt, core := { s.core t with mdone := (s.core t).mdone + 1 }.flagIf b
                      array := { (s.tile t).array with ac := ac } } := by
  rw [State.mopDone, State.tile_modTile]
  rfl

theorem State.core_mopDone (s : State) (t : TileId) (q : QMop) (rest : List QMop) (ac : Nat) (cnt : Counters) (b : Bool) :
    (s.mopDone t q rest ac cnt b).core t = { s.core t with mdone := (s.core t).mdone + 1 }.flagIf b := by
  rw [State.core, State.tile_mopDone]

section
variable {s : State} {t : TileId} {q : QMop} {rest : List QMop} {ac : Nat}

theorem exec_mopComplete_done (hm : (s.tile t).mops = q :: rest) (hp : q.passes = q.total) (hl : q.lastAt + q.mop.m + 202 ≤ ac)
    (hac : (s.tile t).array.ac ≤ ac) :
    ∃ cnt b, exec (.mopComplete { tile := t, ac := ac }) s = .next ((s.mopDone t q rest ac cnt b).touchOwner t) := by
  obtain ⟨cnt, b, hrun⟩ := s.runMop_counted t q
  refine ⟨cnt, b, ?_⟩
  change execMopComplete _ s = _
  simp only [execMopComplete, hm, hp, Nat.lt_irrefl, Nat.not_lt.2 hl, Nat.not_lt.2 hac, or_self, if_false]
  rw [hrun, State.modTile_modTile]
  rfl

theorem exec_mopComplete_early (hm : (s.tile t).mops = q :: rest)
    (h : q.passes < q.total ∨ ac < q.lastAt + q.mop.m + 202 ∨ ac < (s.tile t).array.ac) :
    exec (.mopComplete { tile := t, ac := ac }) s = .fault (.notDue "MOP_COMPLETE") := by
  change execMopComplete _ s = _
  simp only [execMopComplete, hm, h, if_true]
  rfl

theorem exec_mopComplete_empty (hm : (s.tile t).mops = []) :
    exec (.mopComplete { tile := t, ac := ac }) s = .fault (.notDue "MOP_COMPLETE") := by
  change execMopComplete _ s = _
  simp only [execMopComplete, hm]
  rfl

end

theorem exec_offloadMopStart_runs {s : State} {t : TileId} {ac : Nat} {r : BitVec 256} (hok : s.offloadOk t (offloadMop r) = true)
    (hl : (s.tile t).array.level = 8) (hb : ∀ z ∈ (s.tile t).mops, z.passes = 0 ∨ z.passes = z.total)
    (hfrom : (s.tile t).array.offloadFrom ≤ ac) (hac : (s.tile t).array.ac ≤ ac) :
    exec (.offloadMopStart { tile := t, ac := ac } r) s = .next ((s.runMop t (offloadMop r) false).modTile t fun y =>
      { y with mops := y.mops.map fun x => if x.passes = 0 then { x with loads := 0 } else x
               array := y.array.offloaded (offloadMop r).mop ac }) := by
  refine whenDue_of_due _ _ ?_
  simp only [Bool.and_eq_true, decide_eq_true_eq, List.all_eq_true, Bool.or_eq_true]
  exact ⟨⟨⟨⟨hb, hok⟩, hl⟩, hfrom⟩, hac⟩

/-- Settles O19: the results by the places of C's elements, the frame by what a run, a completion and an offload change. -/
theorem mopResults : Obligations.MopResults := by
  intro s t q rest ac hwf x w place Results due e
  have hresults {u : State} {counted : Bool} (hu : u.mem = (s.runMop t q counted).mem) : Results u := by
    refine ⟨fun p i c hp hi hc => ?_, fun b hb => by rw [hu]; exact State.read_runMop_of_outside t counted hwf hb⟩
    rw [hu, show place p i c = tileAddr t + (q.cAddr + q.mop.rowMajor (p, i, c) * fmtBytes q.mop.fmtC) from Nat.add_assoc _ _ _]
    exact State.readLe_runMop t counted hwf (o := (p, i, c)) (Mop.mem_outputs.2 ⟨hp, hi, hc⟩)
  refine ⟨fun hp hm hdue => ?_, fun h hm => exec_mopComplete_early hm (h.imp_right fun h => ?_), exec_mopComplete_empty, ?_⟩
  · obtain ⟨cnt, b, hexec⟩ := exec_mopComplete_done hm hp hdue.1 hdue.2
    refine ⟨_, hexec, TileWork.touchOwner rfl fun v hv => State.tile_modTile_ne _ t v _ hv,
      hresults (counted := true) (State.mem_touchOwner _ _), ?_, ?_⟩
    · rw [State.core_touchOwner, State.core_mopDone]
      exact FlagOnly.flagIf _ b
    · rw [State.tile_touchOwner, State.core_touchOwner, State.core_mopDone, State.tile_mopDone]
  · by_contra hnot
    obtain ⟨hlast, hac⟩ := not_or.1 hnot
    exact h ⟨Nat.not_lt.1 hlast, Nat.not_lt.1 hac⟩
  · intro r a streamed slotOver last hq hok hl hb hslot hfree hac
    subst hq
    have hexec := exec_offloadMopStart_runs hok hl hb (max_le hslot hfree) hac
    refine ⟨_, hexec, hresults rfl, rfl, fun v hv => State.tile_modTile_ne _ t v _ hv, ?_⟩
    rw [State.tile_modTile]
    rfl

end Sys2Proof.Machine
end

