-- ==== Sys2Proof/Proofs/BarrierObjects.lean ====
section
/-!
PROOFS. A barrier object after its release, and what a state keeps of an object's waiters (10 R244, R249, R253).
-/
namespace Sys2Proof.Machine

open Sys2Proof.Claims

/-! ### The object (10 R244) -/

theorem State.obj_setObj {s : State} (h : Tab.wf (0 : BitVec 128) s.sync.objs = true) (o o' : Nat) (x : BitVec 128) :
    (s.setObj o x).obj o' = if o' = o then x else s.obj o' := Tab.get_put 0 _ o o' x 0 h

theorem objRelease_toNat (x : BitVec 128) : (objRelease x).toNat =
    bits x 124 96 * 2 ^ 96 + 2 ^ 126 + ((objGen x).toNat + 1) % 2 ^ 16 * 2 ^ 80 + objExpect x * 2 ^ 42 := by
  have hhigh : bits x 124 96 < 2 ^ 29 := Nat.mod_lt _ (by decide)
  have hexp : objExpect x < 2 ^ 21 := Nat.mod_lt _ (by decide)
  rw [objRelease, BitVec.toNat_ofNat, Nat.mod_eq_of_lt]
  omega

/-- A field of the released object as a quotient and a remainder. -/
theorem bits_objRelease (x : BitVec 128) (hi lo : Nat) : bits (objRelease x) hi lo =
    (bits x 124 96 * 2 ^ 96 + 2 ^ 126 + ((objGen x).toNat + 1) % 2 ^ 16 * 2 ^ 80 + objExpect x * 2 ^ 42) / 2 ^ lo % 2 ^ (hi + 1 - lo) := by
  rw [bits_eq_div_mod, objRelease_toNat]

theorem objGen_objRelease (x : BitVec 128) : objGen (objRelease x) = objGen x + 1 := by
  have hhigh : bits x 124 96 < 2 ^ 29 := Nat.mod_lt _ (by decide)
  have hexp : objExpect x < 2 ^ 21 := Nat.mod_lt _ (by decide)
  refine BitVec.eq_of_toNat_eq ?_
  rw [objGen, bits_objRelease, BitVec.toNat_ofNat, BitVec.toNat_add, show (1 : BitVec 16).toNat = 1 from rfl]
  omega

theorem objArrived_objRelease (x : BitVec 128) : objArrived (objRelease x) = 0 := by
  rw [objArrived, bits_objRelease]
  omega

theorem objFlag_objRelease (x : BitVec 128) : objFlag (objRelease x) = false := by
  have hhigh : bits x 124 96 < 2 ^ 29 := Nat.mod_lt _ (by decide)
  have hexp : objExpect x < 2 ^ 21 := Nat.mod_lt _ (by decide)
  rw [objFlag, bit, BitVec.getLsbD, Nat.testBit_eq_decide_div_mod_eq, objRelease_toNat, decide_eq_false_iff_not]
  omega

theorem objExpect_objRelease (x : BitVec 128) : objExpect (objRelease x) = objExpect x := by
  have hexp : objExpect x < 2 ^ 21 := Nat.mod_lt _ (by decide)
  rw [objExpect, bits_objRelease]
  omega

theorem objUp_objRelease (x : BitVec 128) : objUp (objRelease x) = objUp x := by
  have hexp : objExpect x < 2 ^ 21 := Nat.mod_lt _ (by decide)
  have hup : bits x 111 96 = bits x 124 96 % 2 ^ 16 := by
    rw [bits_eq_div_mod, bits_eq_div_mod]
    omega
  rw [objUp, objUp, bits_objRelease, hup]
  congr 1
  omega

/-! ### Wait limits (10 R249) -/

theorem State.waitLimit_congr {s u : State} (he : ∀ p, (u.part p).entry = (s.part p).entry)
    (hw : ∀ p, (u.part p).waitLim = (s.part p).waitLim) (x : Waiter) : u.waitLimit x = s.waitLimit x := by
  have hfn (n : Fn) : u.partOfFn n = s.partOfFn n := by simp only [State.partOfFn, he]
  have htile (t : TileId) : u.partOfTile t = s.partOfTile t := by simp only [State.partOfTile, State.partOfSheaf, he]
  cases x with
  | tile t => simp only [State.waitLimit, htile, hw]
  | host n c => simp only [State.waitLimit, hfn, hw]
  | link p i => simp only [State.waitLimit, hw]

/-- w has the objects, the waiters with their limits, and the cores as s has them, and every tile that does not wait at the object o. -/
structure KeepsWaits (s w : State) (o : Nat) : Prop where
  objs : w.sync.objs = s.sync.objs
  waits : w.sync.waits = s.sync.waits
  core : ∀ t, w.core t = s.core t
  tile : ∀ t, (∀ x ∈ s.sync.waits, x.obj = o → x.who ≠ .tile t) → w.tile t = s.tile t
  limit : ∀ x, w.waitLimit x = s.waitLimit x

theorem KeepsWaits.trans {s w u : State} {o : Nat} (a : KeepsWaits s w o) (b : KeepsWaits w u o) : KeepsWaits s u o :=
  ⟨b.objs.trans a.objs, b.waits.trans a.waits, fun t => (b.core t).trans (a.core t),
    fun t h => (b.tile t (by rw [a.waits]; exact h)).trans (a.tile t h), fun x => (b.limit x).trans (a.limit x)⟩

/-- Work outside tiles, objects and waiters. -/
theorem KeepsWaits.of_work {s w : State} {o : Nat} (h : Work s w) (ho : w.sync.objs = s.sync.objs) (hw : w.sync.waits = s.sync.waits)
    (ht : w.tiles = s.tiles) : KeepsWaits s w o := by
  have htile (t : TileId) : w.tile t = s.tile t := by rw [State.tile, ht, State.tile]
  exact ⟨ho, hw, fun t => congrArg Tile.core (htile t), fun t _ => htile t, State.waitLimit_congr h.entry h.waitLim⟩

theorem KeepsWaits.at_ (s : State) (now o : Nat) : KeepsWaits s (s.at_ now) o := ⟨rfl, rfl, fun _ => rfl, fun _ _ => rfl, fun _ => rfl⟩

end Sys2Proof.Machine
end

