-- ==== Sys2Proof/Proofs/WaiterResumes.lean ====
section
/-!
PROOFS. Resuming the tiles that wait for the status of a sync instruction, and the release of a barrier (10 R247, R249, R253).
-/
namespace Sys2Proof.Machine

open Sys2Proof.Claims

/-! ### One waiter (10 R247) -/

/-- A core that waits for a status gets it and goes on; any other stays. -/
def Core.resumed (c : Core) (code : BitVec 16) (flag : Bool) : Core :=
  match c.resume with
  | some (.status rd) => answered c rd code flag
  | _ => c

theorem Core.resumed_of_status {c : Core} {rd : RegId} (code : BitVec 16) (flag : Bool) (h : c.resume = some (.status rd)) :
    c.resumed code flag = answered c rd code flag := by
  rw [Core.resumed, h]

theorem Core.resumed_of_none {c : Core} (code : BitVec 16) (flag : Bool) (h : c.resume = none) : c.resumed code flag = c := by
  rw [Core.resumed, h]

/-- A core that got its status waits for nothing. -/
theorem Core.resume_resumed {c : Core} (code : BitVec 16) (flag : Bool) (h : c.resume ≠ some .rcheck) :
    (c.resumed code flag).resume = none := by
  cases hr : c.resume with
  | none => rw [Core.resumed_of_none code flag hr, hr]
  | some r =>
    cases r with
    | status rd => rw [Core.resumed_of_status code flag hr, answered]
    | rcheck => exact absurd hr h

theorem Core.resumed_twice {c : Core} (code code' : BitVec 16) (flag flag' : Bool) (h : c.resume ≠ some .rcheck) :
    (c.resumed code flag).resumed code' flag' = c.resumed code flag :=
  Core.resumed_of_none code' flag' (Core.resume_resumed code flag h)

/-- The status word goes to the register, g0 excepted, and the core goes on behind the instruction. -/
theorem Core.wg_status_eq_answered (c : Core) (rd : RegId) (code : BitVec 16) (flag : Bool) :
    { c.wg rd (syncStatus code flag) with status := .running, resume := none, pc := c.pc + 4 } = answered c rd code flag := by
  have hword : syncStatus code flag = BitVec.ofNat 64 (code.toNat + if flag then 65536 else 0) := by
    cases flag <;> simp [syncStatus, b2n]
  unfold Core.wg answered
  split
  · rfl
  · rw [← hword]

/-- The waiter is a tile that waits for a status, or for nothing any more. -/
def State.AwaitsStatus (s : State) (x : Waiter) : Prop := ∃ t, x = .tile t ∧ (s.core t).resume ≠ some .rcheck

theorem State.awaitsStatus_of_tilesWait {s : State} {o : Nat} (h : tilesWait s o) {w : SyncWait} (hw : w ∈ s.sync.waits) (ho : w.obj = o) :
    s.AwaitsStatus w.who := by
  obtain ⟨t, rd, hwho, hr⟩ := h w hw ho
  exact ⟨t, hwho, by rw [hr]; simp⟩

theorem State.AwaitsStatus.congr {s u : State} {x : Waiter} (h : s.AwaitsStatus x) (hc : ∀ t, u.core t = s.core t) : u.AwaitsStatus x := by
  obtain ⟨t, hx, hr⟩ := h
  exact ⟨t, hx, by rw [hc]; exact hr⟩

/-! ### A list of waiters -/

/-- The tiles among the waiters resume. -/
def State.resumeTiles (s : State) (ws : List SyncWait) (code : BitVec 16) (flag : Bool) : State :=
  s.mapTiles (fun t => ws.any fun w => decide (w.who = .tile t)) fun y => { y with core := y.core.resumed code flag }

/-- States that agree outside tiles and in every tile are one. -/
theorem State.eq_of_tiles {u v : State} (h : v = { u with tiles := v.tiles }) (ht : ∀ t, v.tile t = u.tile t) : v = u := by
  have htiles : v.tiles = u.tiles := Vector.ext fun i hi => ht ⟨i, hi⟩
  rw [h, htiles]

theorem State.resumeTiles_frame (s : State) (ws : List SyncWait) (code : BitVec 16) (flag : Bool) :
    s.resumeTiles ws code flag = { s with tiles := (s.resumeTiles ws code flag).tiles } := by simp only [State.resumeTiles, State.mapTiles]

theorem State.tile_resumeTiles (s : State) (ws : List SyncWait) (code : BitVec 16) (flag : Bool) (t : TileId) :
    (s.resumeTiles ws code flag).tile t =
      if ws.any (fun w => decide (w.who = .tile t)) then { s.tile t with core := (s.core t).resumed code flag } else s.tile t := by
  simp [State.resumeTiles, State.mapTiles, State.tile, State.core]

theorem State.core_resumeTiles (s : State) (ws : List SyncWait) (code : BitVec 16) (flag : Bool) (t : TileId) :
    (s.resumeTiles ws code flag).core t =
      if ws.any (fun w => decide (w.who = .tile t)) then (s.core t).resumed code flag else s.core t := by
  rw [State.core, State.tile_resumeTiles]
  split <;> rfl

theorem State.array_resumeTiles (s : State) (ws : List SyncWait) (code : BitVec 16) (flag : Bool) (t : TileId) :
    ((s.resumeTiles ws code flag).tile t).array = (s.tile t).array := by
  rw [State.tile_resumeTiles]
  split <;> rfl

theorem State.resumeTiles_nil (s : State) (code : BitVec 16) (flag : Bool) : s.resumeTiles [] code flag = s :=
  State.eq_of_tiles (s.resumeTiles_frame [] code flag) fun t => s.tile_resumeTiles [] code flag t

/-- The order of the waiters does not matter. -/
theorem State.resumeTiles_congr (s : State) {ws ws' : List SyncWait} (h : ∀ w, w ∈ ws ↔ w ∈ ws') (code : BitVec 16) (flag : Bool) :
    s.resumeTiles ws code flag = s.resumeTiles ws' code flag := by
  have hany (t : TileId) : (ws.any fun w => decide (w.who = .tile t)) = ws'.any fun w => decide (w.who = .tile t) := by
    rw [Bool.eq_iff_iff, List.any_eq_true, List.any_eq_true]
    simp only [h]
  simp only [State.resumeTiles, hany]

theorem State.AwaitsStatus.resumeTiles {s : State} {x : Waiter} (h : s.AwaitsStatus x) (ws : List SyncWait) (code : BitVec 16) (flag : Bool) :
    (s.resumeTiles ws code flag).AwaitsStatus x := by
  obtain ⟨t, hx, hr⟩ := h
  refine ⟨t, hx, ?_⟩
  rw [State.core_resumeTiles]
  split
  · rw [Core.resume_resumed code flag hr]
    exact nofun
  · exact hr

theorem State.modCore_congr {s : State} {t : TileId} {f g : Core → Core} (h : f (s.core t) = g (s.core t)) : s.modCore t f = s.modCore t g :=
  State.modTile_congr (congrArg (fun c : Core => { s.tile t with core := c }) h)

theorem State.modCore_eq_self {s : State} {t : TileId} {f : Core → Core} (h : f (s.core t) = s.core t) : s.modCore t f = s := by
  refine State.eq_of_tiles rfl fun v => ?_
  by_cases hv : v = t
  · rw [hv, State.tile_modCore, h]
    rfl
  · exact State.tile_modTile_ne _ _ _ _ hv

theorem State.resumeTiles_one (s : State) {w : SyncWait} {t : TileId} (hw : w.who = .tile t) (code : BitVec 16) (flag : Bool) :
    s.resumeTiles [w] code flag = s.modCore t fun c => c.resumed code flag := by
  refine State.eq_of_tiles (s.resumeTiles_frame [w] code flag) fun v => ?_
  rw [State.tile_resumeTiles]
  by_cases hv : v = t
  · subst hv
    simp [hw]
  · rw [State.modCore, State.tile_modTile_ne _ _ _ _ hv]
    simp [hw, Ne.symm hv]

theorem State.resume_eq_resumeTiles {s : State} {w : SyncWait} (h : s.AwaitsStatus w.who) (code : BitVec 16) (flag : Bool) :
    s.resume w.who code flag = s.resumeTiles [w] code flag := by
  obtain ⟨t, hw, hr⟩ := h
  rw [s.resumeTiles_one hw, hw]
  cases hc : (s.core t).resume with
  | none =>
    rw [State.modCore_eq_self (Core.resumed_of_none code flag hc)]
    simp only [State.resume, hc]
  | some r =>
    cases r with
    | status rd =>
      simp only [State.resume, hc]
      exact State.modCore_congr ((Core.wg_status_eq_answered _ rd code flag).trans (Core.resumed_of_status code flag hc).symm)
    | rcheck => exact absurd hc hr

/-- Waiters that resume one after another are the tiles among them, each resumed once. -/
theorem State.foldl_resume {s : State} (ws : List SyncWait) (code : BitVec 16) (flag : Bool) (h : ∀ w ∈ ws, s.AwaitsStatus w.who) :
    ws.foldl (fun s w => s.resume w.who code flag) s = s.resumeTiles ws code flag := by
  induction ws generalizing s with
  | nil => exact (s.resumeTiles_nil code flag).symm
  | cons w ws ih =>
    obtain ⟨hw, hws⟩ := List.forall_mem_cons.1 h
    rw [List.foldl_cons, State.resume_eq_resumeTiles hw, ih fun x hx => (hws x hx).resumeTiles [w] code flag]
    refine State.eq_of_tiles ?_ fun t => ?_
    · simp only [State.resumeTiles, State.mapTiles]
    · rw [State.tile_resumeTiles, State.tile_resumeTiles, State.core_resumeTiles, State.tile_resumeTiles, List.any_cons]
      obtain ⟨v, hv, hr⟩ := hw
      by_cases ht : v = t
      · subst ht
        simp [hv, Core.resumed_twice _ _ _ _ hr]
      · simp [hv, ht]

/-! ### The end of a generation (10 R249, R253) -/

/-- The wait at the object reached its limit before the stamp. -/
def State.overdue (s : State) (o t : Nat) (w : SyncWait) : Bool := decide (w.obj = o) && decide (w.issue + s.waitLimit w.who ≤ t)

/-- The waiter arrived at the barrier. -/
def SyncWait.arrivedAt (w : SyncWait) (o : Nat) : Bool := decide (w.obj = o) && match w.op with | .arrive _ => true | _ => false

/-- The waits that an event at a stamp comes too late for are gone. -/
def State.withoutOverdue (s : State) (o t : Nat) : State :=
  { s with sync := { s.sync with waits := s.sync.waits.filter fun w => !s.overdue o t w } }

/-- The barrier in its next generation, nobody waiting for the one before. -/
def State.nextGeneration (s : State) (o : Nat) : State :=
  { s with sync := { s.sync with objs := Tab.put 0 s.sync.objs o (objRelease (s.obj o))
                                 waits := s.sync.waits.filter fun w => !w.arrivedAt o } }

theorem SyncWait.obj_of_arrivedAt {w : SyncWait} {o : Nat} (h : w.arrivedAt o = true) : w.obj = o := by
  simp only [SyncWait.arrivedAt, Bool.and_eq_true, decide_eq_true_eq] at h
  exact h.1

theorem State.topCheck_eq_none {s : State} {x : Waiter} (h : s.AwaitsStatus x) : s.topCheck x = none := by
  obtain ⟨t, rfl, hr⟩ := h
  simp only [State.topCheck]
  split
  · simp [hr]
  · rfl

/-- No waiter for a status checks a region. -/
theorem State.overflowUnled_eq_self {s : State} {ws : List Waiter} (h : ∀ x ∈ ws, s.AwaitsStatus x) (flag : Bool) :
    s.overflowUnled ws flag = s := by
  have hnone : ws.filterMap s.topCheck = [] := List.filterMap_eq_nil_iff.2 fun x hx => State.topCheck_eq_none (h x hx)
  simp [State.overflowUnled, hnone]

section
variable {s : State} {o : Nat}

theorem State.expireWaits_eq (t : Nat) (h : ∀ w ∈ s.sync.waits, w.obj = o → s.AwaitsStatus w.who) :
    s.expireWaits o t = (s.withoutOverdue o t).resumeTiles (s.sync.waits.filter (s.overdue o t)) eTimeout false := by
  refine State.foldl_resume (s := s.withoutOverdue o t) _ eTimeout false fun w hw => ?_
  obtain ⟨hmem, hdue⟩ := List.mem_filter.1 hw
  simp only [Bool.and_eq_true, decide_eq_true_eq] at hdue
  exact h w hmem hdue.1

theorem State.expireWaits_inTime {t : Nat} (h : ∀ w ∈ s.sync.waits, w.obj = o → t < w.issue + s.waitLimit w.who) :
    s.expireWaits o t = s := by
  have hnot (w : SyncWait) (hw : w ∈ s.sync.waits) : s.overdue o t w = false := by
    by_cases ho : w.obj = o
    · simp [State.overdue, Nat.not_le.2 (h w hw ho)]
    · simp [State.overdue, ho]
  have hgone : s.sync.waits.filter (s.overdue o t) = [] := List.filter_eq_nil_iff.2 fun w hw => by simp [hnot w hw]
  have hstay : (s.sync.waits.filter fun w => !s.overdue o t w) = s.sync.waits := List.filter_eq_self.2 fun w hw => by simp [hnot w hw]
  change (s.sync.waits.filter (s.overdue o t)).foldl _ (s.withoutOverdue o t) = s
  rw [hgone, State.withoutOverdue, hstay]
  rfl

/-- Every waiter for a status that arrived resumes in the next generation. -/
theorem State.releaseNow_eq (flag : Bool) (t : Nat)
    (h : ∀ w ∈ (s.expireWaits o t).sync.waits, w.obj = o → (s.expireWaits o t).AwaitsStatus w.who) :
    s.releaseNow o flag t = ((s.expireWaits o t).nextGeneration o).resumeTiles
      ((s.expireWaits o t).sync.waits.filter fun w => w.arrivedAt o) cOk flag := by
  generalize he : s.expireWaits o t = e at h
  have hall : ∀ w ∈ e.sync.waits.filter fun w => w.arrivedAt o, (e.nextGeneration o).AwaitsStatus w.who := fun w hw => by
    obtain ⟨hmem, harr⟩ := List.mem_filter.1 hw
    exact h w hmem (SyncWait.obj_of_arrivedAt harr)
  have hled := State.overflowUnled_eq_self (ws := (e.sync.waits.filter fun w => w.arrivedAt o).map (·.who))
    (List.forall_mem_map.2 hall) flag
  have hrelease : s.releaseNow o flag t =
      let u := (e.nextGeneration o).overflowUnled ((e.sync.waits.filter fun w => w.arrivedAt o).map (·.who)) flag
      ((e.sync.waits.filter fun w => w.arrivedAt o).filter (fun w => u.isLead w.who) ++
        (e.sync.waits.filter fun w => w.arrivedAt o).filter fun w => !u.isLead w.who).foldl (fun s w => s.resume w.who cOk flag) u := by
    rw [← he]
    rfl
  have hsplit (p : SyncWait → Bool) (ws : List SyncWait) (w : SyncWait) :
      w ∈ ws.filter p ++ ws.filter (fun w => !p w) ↔ w ∈ ws := by
    cases hp : p w <;> simp [hp]
  rw [hrelease, hled, State.foldl_resume _ cOk flag fun w hw => hall w ((hsplit _ _ w).1 hw)]
  exact State.resumeTiles_congr _ (hsplit _ _) cOk flag

end

/-! ### What a release leaves (10 R253) -/

/-- u is s after the release of the barrier o with a flag. -/
structure BarrierReleased (s u : State) (o : Nat) (flag : Bool) : Prop where
  gen : objGen (u.obj o) = objGen (s.obj o) + 1
  arrived : objArrived (u.obj o) = 0
  flagClear : objFlag (u.obj o) = false
  expect : objExpect (u.obj o) = objExpect (s.obj o)
  up : objUp (u.obj o) = objUp (s.obj o)
  others : ∀ o', o' ≠ o → u.obj o' = s.obj o'
  waits : u.sync.waits = s.sync.waits.filter fun w => !w.arrivedAt o
  resumed : ∀ w ∈ s.sync.waits, w.arrivedAt o = true → ∀ t rd, w.who = .tile t → (s.core t).resume = some (.status rd) →
    u.core t = answered (s.core t) rd 0 flag
  tile : ∀ t, (∀ w ∈ s.sync.waits, w.obj = o → w.who ≠ .tile t) → u.tile t = s.tile t

theorem State.obj_congr {s u : State} (h : u.sync.objs = s.sync.objs) (o : Nat) : u.obj o = s.obj o := by rw [State.obj, h, State.obj]

theorem State.obj_nextGeneration {s : State} (h : Tab.wf (0 : BitVec 128) s.sync.objs = true) (o o' : Nat) :
    (s.nextGeneration o).obj o' = if o' = o then objRelease (s.obj o) else s.obj o' := State.obj_setObj h o o' _

section
variable {s w : State} {o : Nat}

theorem KeepsWaits.obj (h : KeepsWaits s w o) (o' : Nat) : w.obj o' = s.obj o' := State.obj_congr h.objs o'

theorem KeepsWaits.awaitsStatus (h : KeepsWaits s w o) (ht : tilesWait s o) {x : SyncWait} (hx : x ∈ w.sync.waits) (ho : x.obj = o) :
    w.AwaitsStatus x.who := by
  rw [h.waits] at hx
  exact (State.awaitsStatus_of_tilesWait ht hx ho).congr h.core

/-- Within the limits a release is the next generation, with the tiles that arrived resumed. -/
theorem KeepsWaits.releaseNow_eq (h : KeepsWaits s w o) (ht : tilesWait s o) (flag : Bool) {t : Nat}
    (hin : ∀ x ∈ s.sync.waits, x.obj = o → t < x.issue + s.waitLimit x.who) :
    w.releaseNow o flag t = (w.nextGeneration o).resumeTiles (s.sync.waits.filter fun x => x.arrivedAt o) cOk flag := by
  have hexp : w.expireWaits o t = w := State.expireWaits_inTime fun x hx ho => by
    rw [h.limit]
    exact hin x (h.waits ▸ hx) ho
  rw [State.releaseNow_eq flag t (by rw [hexp]; exact fun x hx ho => h.awaitsStatus ht hx ho), hexp, h.waits]

theorem KeepsWaits.released (h : KeepsWaits s w o) (hwf : Tab.wf (0 : BitVec 128) s.sync.objs = true) (ht : tilesWait s o) (flag : Bool)
    {t : Nat} (hin : ∀ x ∈ s.sync.waits, x.obj = o → t < x.issue + s.waitLimit x.who) :
    BarrierReleased s (w.releaseNow o flag t) o flag := by
  have hwf' : Tab.wf (0 : BitVec 128) w.sync.objs = true := by rw [h.objs]; exact hwf
  rw [h.releaseNow_eq ht flag hin]
  generalize hus : (w.nextGeneration o).resumeTiles (s.sync.waits.filter fun x => x.arrivedAt o) cOk flag = u
  have hframe := (w.nextGeneration o).resumeTiles_frame (s.sync.waits.filter fun x => x.arrivedAt o) cOk flag
  rw [hus] at hframe
  have hobj (o' : Nat) : u.obj o' = if o' = o then objRelease (s.obj o) else s.obj o' := by
    rw [State.obj_congr (s := w.nextGeneration o) (by rw [hframe]), State.obj_nextGeneration hwf', h.obj, h.obj]
  have hself : u.obj o = objRelease (s.obj o) := by rw [hobj, if_pos rfl]
  have hcore (v : TileId) : (w.nextGeneration o).core v = s.core v := h.core v
  constructor
  · rw [hself, objGen_objRelease]
  · rw [hself, objArrived_objRelease]
  · rw [hself, objFlag_objRelease]
  · rw [hself, objExpect_objRelease]
  · rw [hself, objUp_objRelease]
  · exact fun o' ho' => by rw [hobj, if_neg ho']
  · rw [hframe, ← h.waits]
    rfl
  · intro x hx harr v rd hwho hr
    have hany : ((s.sync.waits.filter fun x => x.arrivedAt o).any fun x => decide (x.who = .tile v)) = true :=
      List.any_eq_true.2 ⟨x, List.mem_filter.2 ⟨hx, harr⟩, by simp [hwho]⟩
    rw [← hus, State.core_resumeTiles, if_pos hany, hcore, Core.resumed_of_status cOk flag hr]
    rfl
  · intro v hv
    have hany : ¬ ((s.sync.waits.filter fun x => x.arrivedAt o).any fun x => decide (x.who = .tile v)) = true := fun hany => by
      obtain ⟨x, hx, hwho⟩ := List.any_eq_true.1 hany
      obtain ⟨hmem, harr⟩ := List.mem_filter.1 hx
      exact hv x hmem (SyncWait.obj_of_arrivedAt harr) (of_decide_eq_true hwho)
    rw [← hus, State.tile_resumeTiles, if_neg hany]
    exact h.tile v hv

/-- A waiter whose limit has passed ends with the timeout's code, whatever else the release does (10 R249). -/
theorem KeepsWaits.core_releaseNow_late (h : KeepsWaits s w o) (ht : tilesWait s o) (flag : Bool) {t : Nat} {x : SyncWait}
    (hx : x ∈ s.sync.waits) (ho : x.obj = o) (hlate : x.issue + s.waitLimit x.who ≤ t) {v : TileId} {rd : RegId} (hwho : x.who = .tile v)
    (hr : (s.core v).resume = some (.status rd)) : (w.releaseNow o flag t).core v = answered (s.core v) rd eTimeout false := by
  have hexp := State.expireWaits_eq (s := w) t fun y hy hyo => h.awaitsStatus ht hy hyo
  have hcore : (w.expireWaits o t).core v = answered (s.core v) rd eTimeout false := by
    have hany : ((w.sync.waits.filter (w.overdue o t)).any fun y => decide (y.who = .tile v)) = true :=
      List.any_eq_true.2 ⟨x, List.mem_filter.2 ⟨by rw [h.waits]; exact hx, by simp [State.overdue, ho, h.limit, hlate]⟩, by simp [hwho]⟩
    have hkeep : (w.withoutOverdue o t).core v = s.core v := h.core v
    rw [hexp, State.core_resumeTiles, if_pos hany, hkeep, Core.resumed_of_status eTimeout false hr]
  have hrest : ∀ y ∈ (w.expireWaits o t).sync.waits, y.obj = o → (w.expireWaits o t).AwaitsStatus y.who := by
    intro y hy hyo
    have hmem : y ∈ w.sync.waits := by
      rw [hexp, State.resumeTiles_frame] at hy
      exact (List.mem_filter.1 hy).1
    rw [hexp]
    exact ((h.awaitsStatus ht hmem hyo).congr (u := w.withoutOverdue o t) fun _ => rfl).resumeTiles _ eTimeout false
  have hnone : ((w.expireWaits o t).core v).resume = none := by rw [hcore]; rfl
  have hgen : ((w.expireWaits o t).nextGeneration o).core v = (w.expireWaits o t).core v := rfl
  rw [State.releaseNow_eq flag t hrest, State.core_resumeTiles, hgen, Core.resumed_of_none cOk flag hnone, ite_self, hcore]

end

end Sys2Proof.Machine
end

