-- ==== Sys2Proof/Proofs/BarrierReleases.lean ====
section
/-!
PROOFS. Releases of barriers and of launch barriers, the hint and the coordinated release of the waiting tiles' arrays (10 R252 to R254;
03 R82, R83).
-/
namespace Sys2Proof.Machine

open Sys2Proof.Claims

/-! ### Messages sent (11 R264) -/

/-- u differs from s in messages, links and partitions alone. -/
def Sent (s u : State) : Prop := u = { s with outputs := u.outputs, links := u.links, parts := u.parts }

theorem Sent.refl (s : State) : Sent s s := rfl

theorem Sent.trans {s t u : State} (a : Sent s t) (b : Sent t u) : Sent s u := by
  rw [Sent, b, a]

theorem Sent.trySend {s t : State} {x : TxItem} (h : s.trySend x = some t) : Sent s t := by
  unfold State.trySend at h
  split at h
  · cases h
  · split at h
    · cases h
    · obtain ⟨k, -, rfl⟩ := Option.map_eq_some_iff.1 h
      rfl

theorem Sent.pump (s : State) : Sent s s.pump := by
  unfold State.pump
  refine Sent.trans (List.foldlRecOn _ _ (motive := fun r : State × List TxItem => Sent s r.1) (Sent.refl s) fun r hr x _ => ?_) rfl
  split
  · exact hr
  · split
    · exact hr
    · next t ht => exact hr.trans (Sent.trySend ht)

theorem Sent.send (s : State) (p : Pid) (m : ModId) (x : Message) : Sent s (s.send p m x) := by
  have hpeer : Sent s (s.ensurePeer p m) := by
    unfold State.ensurePeer
    split
    · rfl
    · rfl
  unfold State.send
  split
  · rfl
  · dsimp only
    split
    · exact hpeer
    · exact (Sent.trans hpeer (rfl : Sent (s.ensurePeer p m) { s.ensurePeer p m with links := _ })).trans (Sent.pump _)

/-- The release goes on to the children; of the module's own state only their list changes. -/
theorem State.forwardRelease_frame (s : State) (p : Pid) (o : Nat) (rel : Release) :
    ∃ out links parts kids, s.forwardRelease p o rel =
      { s with outputs := out, links := links, parts := parts, sync := { s.sync with children := kids } } := by
  have hsent (ks : List (Nat × ModId × BitVec 16)) :
      Sent s (ks.foldl (fun s c => s.send p c.2.1 (.release ((s.part p).indexOf o) rel)) s) :=
    List.foldlRecOn ks _ (motive := Sent s) (Sent.refl s) fun t ht c _ => ht.trans (Sent.send t p _ _)
  unfold State.forwardRelease
  dsimp only
  rw [hsent]
  exact ⟨_, _, _, _, rfl⟩

theorem Work.forwardRelease (s : State) (p : Pid) (o : Nat) (rel : Release) : Work s (s.forwardRelease p o rel) :=
  (Work.foldl _ (fun s _ => Work.send s p _ _) _ s).trans (Work.sync _ _ rfl)

theorem KeepsWaits.forwardRelease (s : State) (p : Pid) (o : Nat) (rel : Release) : KeepsWaits s (s.forwardRelease p o rel) o := by
  obtain ⟨out, links, parts, kids, hf⟩ := s.forwardRelease_frame p o rel
  exact KeepsWaits.of_work (Work.forwardRelease s p o rel) (by rw [hf]) (by rw [hf]) (by rw [hf])

/-! ### Arrays of the waiting tiles (03 R82, R83) -/

theorem State.any_waits_eq_true {s : State} {o : Nat} {t : TileId} (h : ∃ w ∈ s.sync.waits, w.obj = o ∧ w.who = .tile t) :
    (s.sync.waits.any fun w => decide (w.obj = o) && decide (w.who = .tile t)) = true := by
  obtain ⟨w, hw, ho, hwho⟩ := h
  exact List.any_eq_true.2 ⟨w, hw, by simp [ho, hwho]⟩

theorem State.any_waits_eq_false {s : State} {o : Nat} {t : TileId} (h : ¬ ∃ w ∈ s.sync.waits, w.obj = o ∧ w.who = .tile t) :
    (s.sync.waits.any fun w => decide (w.obj = o) && decide (w.who = .tile t)) = false := by
  refine List.any_eq_false.2 fun w hw hb => h ⟨w, hw, ?_⟩
  simpa using hb

theorem State.tile_mapTiles (s : State) (which : TileId → Bool) (f : Tile → Tile) (t : TileId) :
    (s.mapTiles which f).tile t = if which t then f (s.tile t) else s.tile t := by
  simp [State.mapTiles, State.tile]

theorem State.tile_hintWaiters (s : State) (o : Nat) (t : TileId) : (s.hintWaiters o).tile t =
    if ∃ w ∈ s.sync.waits, w.obj = o ∧ w.who = .tile t then { s.tile t with array := (s.tile t).array.receiveHint s.now } else s.tile t := by
  by_cases h : ∃ w ∈ s.sync.waits, w.obj = o ∧ w.who = .tile t
  · rw [State.hintWaiters, State.tile_mapTiles, State.any_waits_eq_true h, if_pos rfl, if_pos h]
  · rw [State.hintWaiters, State.tile_mapTiles, State.any_waits_eq_false h, if_neg Bool.false_ne_true, if_neg h]

/-- The logical index of a tile that waits at the object, in the partition's program. -/
def State.releaseIndex (s : State) (p : Pid) (o : Nat) (t : TileId) : Option Nat :=
  if s.sync.waits.any fun w => decide (w.obj = o) && decide (w.who = .tile t) then
    ((s.mappedTiles p).find? fun x => decide (x.1 = t)).map (·.2)
  else none

/-- The coordinated release in the arrays of the waiting tiles. -/
def State.staggerWaiters (s : State) (p : Pid) (o : Nat) : State :=
  { s with tiles := Vector.ofFn fun t =>
      match s.releaseIndex p o t with
      | none => s.tile t
      | some l => { s.tile t with array := (s.tile t).array.receiveRelease l } }

theorem State.releaseLaunch_eq (s : State) (p : Pid) (o r : Nat) (flag : Bool) (t : Nat) :
    s.releaseLaunch p o r flag t = ((s.staggerWaiters p o).modPart p fun x => x.addSlack o r).releaseNow o flag t := rfl

theorem State.tile_staggerWaiters_some {s : State} {p : Pid} {o l : Nat} {t : TileId} (h : s.releaseIndex p o t = some l) :
    (s.staggerWaiters p o).tile t = { s.tile t with array := (s.tile t).array.receiveRelease l } := by
  simp [State.staggerWaiters, State.tile, h]

theorem State.tile_staggerWaiters_none {s : State} {p : Pid} {o : Nat} {t : TileId} (h : s.releaseIndex p o t = none) :
    (s.staggerWaiters p o).tile t = s.tile t := by
  simp [State.staggerWaiters, State.tile, h]

theorem KeepsWaits.staggerWaiters (s : State) (p : Pid) (o : Nat) : KeepsWaits s (s.staggerWaiters p o) o := by
  have hwork : Work s (s.staggerWaiters p o) := Work.tiles s _
  refine ⟨rfl, rfl, fun t => ?_, fun t ht => State.tile_staggerWaiters_none ?_, State.waitLimit_congr hwork.entry hwork.waitLim⟩
  · rw [State.core]
    cases h : s.releaseIndex p o t with
    | none => rw [State.tile_staggerWaiters_none h, State.core]
    | some l => rw [State.tile_staggerWaiters_some h, State.core]
  · have hno : ¬ ∃ w ∈ s.sync.waits, w.obj = o ∧ w.who = .tile t := fun ⟨w, hw, ho, hwho⟩ => ht w hw ho hwho
    rw [State.releaseIndex, State.any_waits_eq_false hno]
    rfl

/-- Before the waiters of a launch barrier resume, their arrays have the release and the partition counts its slack. -/
theorem KeepsWaits.beforeLaunch (s : State) (p : Pid) (o r : Nat) :
    KeepsWaits s ((s.staggerWaiters p o).modPart p fun x => x.addSlack o r) o :=
  (KeepsWaits.staggerWaiters s p o).trans (KeepsWaits.of_work (Work.modPart _ p _ rfl rfl) rfl rfl rfl)

/-! ### What a release keeps beside the barrier -/

section
variable {s w : State} {o : Nat}

theorem KeepsWaits.pends_releaseNow (h : KeepsWaits s w o) (ht : tilesWait s o) (flag : Bool) {t : Nat}
    (hin : ∀ x ∈ s.sync.waits, x.obj = o → t < x.issue + s.waitLimit x.who) :
    (w.releaseNow o flag t).sync.pends = w.sync.pends := by
  rw [h.releaseNow_eq ht flag hin, State.resumeTiles_frame]
  rfl

theorem KeepsWaits.time_releaseNow (h : KeepsWaits s w o) (ht : tilesWait s o) (flag : Bool) {t : Nat}
    (hin : ∀ x ∈ s.sync.waits, x.obj = o → t < x.issue + s.waitLimit x.who) : (w.releaseNow o flag t).time = w.time := by
  rw [h.releaseNow_eq ht flag hin, State.resumeTiles_frame]
  rfl

theorem KeepsWaits.array_releaseNow (h : KeepsWaits s w o) (ht : tilesWait s o) (flag : Bool) {t : Nat}
    (hin : ∀ x ∈ s.sync.waits, x.obj = o → t < x.issue + s.waitLimit x.who) (v : TileId) :
    ((w.releaseNow o flag t).tile v).array = (w.tile v).array := by
  rw [h.releaseNow_eq ht flag hin, State.array_resumeTiles]
  rfl

end

/-! ### Taking a release (10 R253, R254) -/

section
variable {s : State} {p : Pid} {o : Nat} {rel : Release}

theorem State.now_forwardRelease (s : State) (p : Pid) (o : Nat) (rel : Release) : (s.forwardRelease p o rel).now = s.now := by
  obtain ⟨out, links, parts, kids, hf⟩ := s.forwardRelease_frame p o rel
  rw [hf]
  rfl

theorem State.takeRelease_now (h : rel.r = none) : s.takeRelease p o rel = (s.forwardRelease p o rel).releaseNow o rel.flag s.now := by
  simp only [State.takeRelease, h, State.now_forwardRelease]

/-- The state of a late release of a launch barrier before its waiters resume: counted, a timing intervention. -/
def State.lateRelease (s : State) (p : Pid) (o : Nat) (rel : Release) : State :=
  { s.forwardRelease p o rel with
    time := { (s.forwardRelease p o rel).time with lateRel := satAdd (s.forwardRelease p o rel).time.lateRel 1 } }.markPart p .tmg

theorem State.takeRelease_late {r : Nat} (h : rel.r = some r) (hr : r < s.now) :
    s.takeRelease p o rel = (s.lateRelease p o rel).releaseLaunch p o r rel.flag s.now := by
  have hnow : (s.lateRelease p o rel).now = s.now := State.now_forwardRelease s p o rel
  rw [← hnow]
  simp only [State.takeRelease, h, State.now_forwardRelease, hr, if_true]
  rfl

theorem KeepsWaits.lateRelease (s : State) (p : Pid) (o : Nat) (rel : Release) : KeepsWaits s (s.lateRelease p o rel) o :=
  (KeepsWaits.forwardRelease s p o rel).trans
    (KeepsWaits.of_work ((Work.lateRel _ _).trans (Work.markPart _ p .tmg)) rfl rfl rfl)

theorem State.lateRel_lateRelease (s : State) (p : Pid) (o : Nat) (rel : Release) :
    (s.lateRelease p o rel).time.lateRel = satAdd s.time.lateRel 1 := by
  obtain ⟨out, links, parts, kids, hf⟩ := s.forwardRelease_frame p o rel
  rw [State.lateRelease, hf]
  rfl

/-- The hint of a release that lies less than 2,048 gt ahead. -/
def State.hintLate (s : State) (o r : Nat) : State := if r < s.now + 2048 then s.hintWaiters o else s

/-- A launch barrier's release that waits for R. -/
def State.pendRelease (s : State) (p : Pid) (o r : Nat) (flag : Bool) : State :=
  { s.hintLate o r with sync := { (s.hintLate o r).sync with
      pends := (s.hintLate o r).sync.pends ++ [{ obj := o, pid := p, r := r, flag := flag, hinted := decide (r < s.now + 2048) }] } }

theorem State.takeRelease_pending {r : Nat} (h : rel.r = some r) (hr : s.now ≤ r) :
    s.takeRelease p o rel = (s.forwardRelease p o rel).pendRelease p o r rel.flag := by
  simp only [State.takeRelease, h, State.now_forwardRelease, Nat.not_lt.2 hr, if_false]
  simp only [State.pendRelease, State.hintLate, State.now_forwardRelease, decide_eq_true_eq]

theorem State.hintLate_sync (s : State) (o r : Nat) : (s.hintLate o r).sync = s.sync := by
  unfold State.hintLate
  split
  · exact State.mapTiles_sync s _ _
  · rfl

theorem State.sync_pendRelease (s : State) (p : Pid) (o r : Nat) (flag : Bool) : (s.pendRelease p o r flag).sync =
    { s.sync with
      pends := s.sync.pends ++ [{ obj := o, pid := p, r := r, flag := flag, hinted := decide (r < s.now + 2048) }] } := by
  simp only [State.pendRelease, State.hintLate_sync]

theorem State.tile_hintLate (s : State) (o r : Nat) (t : TileId) : (s.hintLate o r).tile t =
    if r < s.now + 2048 ∧ ∃ w ∈ s.sync.waits, w.obj = o ∧ w.who = .tile t then
      { s.tile t with array := (s.tile t).array.receiveHint s.now } else s.tile t := by
  by_cases hr : r < s.now + 2048
  · simp only [State.hintLate, hr, if_true, true_and, State.tile_hintWaiters]
  · simp only [State.hintLate, hr, if_false, false_and]

end

/-! ### BARRIER_RELEASE_RECEIPT -/

/-- The aggregated arrival of this module at the barrier has its answer. -/
def State.forgetArrival (s : State) (o : Nat) : State :=
  { s with sync := { s.sync with remotes := s.sync.remotes.filter fun r => !decide (r.bar = some o) } }

theorem KeepsWaits.forgetArrival_at (s : State) (now o : Nat) : KeepsWaits s ((s.at_ now).forgetArrival o) o :=
  (KeepsWaits.at_ s now o).trans (KeepsWaits.of_work (Work.sync _ _ rfl) rfl rfl rfl)

/-- The object is a barrier of the partition whose parent is another module. -/
structure BarrierMember (s : State) (p : Pid) (index : BitVec 16) (o : Nat) : Prop where
  obj : (s.part p).objOf index.toNat = some o
  bound : (s.part p).entry.st = .bound
  kind : objKind (s.obj o) = 1
  root : objRoot (s.obj o) = false
  up : objUp (s.obj o) ≠ 0xFFFF

section
variable {s : State} {p : Pid} {index : BitVec 16} {o : Nat} {rel : Release} {now : Nat}

/-- A release for no member of the barrier or of another generation changes nothing. -/
theorem exec_barrierReleaseReceipt_ignored (ho : (s.part p).objOf index.toNat = some o)
    (h : ¬ BarrierMember s p index o ∨ objGen (s.obj o) ≠ rel.gen) :
    exec (.barrierReleaseReceipt p index rel now) s = .next (s.at_ now) := by
  change execBarrierReleaseReceipt p index rel now s = _
  have ho' : ((s.at_ now).part p).objOf index.toNat = some o := ho
  have hskip : ((s.at_ now).part p).entry.st ≠ .bound ∨ objKind ((s.at_ now).obj o) ≠ 1 ∨ objRoot ((s.at_ now).obj o) = true ∨
      objUp ((s.at_ now).obj o) = 0xFFFF ∨ objGen ((s.at_ now).obj o) ≠ rel.gen := by
    by_contra hnot
    simp only [not_or, not_not, Bool.not_eq_true] at hnot
    obtain ⟨hb, hk, hr, hu, hg⟩ := hnot
    exact h.elim (fun hm => hm ⟨ho, hb, hk, hr, hu⟩) fun hne => hne hg
  simp only [execBarrierReleaseReceipt, ho', hskip, if_true]

/-- A member takes a release of its generation, with R where the barrier is a launch barrier. -/
theorem exec_barrierReleaseReceipt_takes (hm : BarrierMember s p index o) (hg : objGen (s.obj o) = rel.gen)
    {x : Option Nat} (hx : (if objLnch (s.obj o) then rel.r else none) = x) :
    exec (.barrierReleaseReceipt p index rel now) s = .next (((s.at_ now).forgetArrival o).takeRelease p o { rel with r := x }) := by
  subst hx
  change execBarrierReleaseReceipt p index rel now s = _
  have ho : ((s.at_ now).part p).objOf index.toNat = some o := hm.obj
  have hnot : ¬ (((s.at_ now).part p).entry.st ≠ .bound ∨ objKind ((s.at_ now).obj o) ≠ 1 ∨ objRoot ((s.at_ now).obj o) = true ∨
      objUp ((s.at_ now).obj o) = 0xFFFF ∨ objGen ((s.at_ now).obj o) ≠ rel.gen) := by
    rintro (h | h | h | h | h)
    exacts [h hm.bound, h hm.kind, Bool.false_ne_true (hm.root.symm.trans h), hm.up h, h hg]
  simp only [execBarrierReleaseReceipt, ho, hnot, if_false]
  rfl

/-- A release without R acts on a state that keeps the barrier's waiters. -/
theorem exec_barrierReleaseReceipt_now (hm : BarrierMember s p index o) (hg : objGen (s.obj o) = rel.gen)
    (hnow : objLnch (s.obj o) = false ∨ rel.r = none) : ∃ w, KeepsWaits s w o ∧
      exec (.barrierReleaseReceipt p index rel now) s = .next (w.releaseNow o rel.flag (s.at_ now).now) := by
  have hrel : (if objLnch (s.obj o) then rel.r else none) = none := by
    rcases hnow with h | h
    · simp [h]
    · rw [h, ite_self]
  have hexec := exec_barrierReleaseReceipt_takes (now := now) hm hg hrel
  rw [State.takeRelease_now rfl] at hexec
  exact ⟨_, (KeepsWaits.forgetArrival_at s now o).trans (KeepsWaits.forwardRelease _ p o { rel with r := none }), hexec⟩

/-- A release of a launch barrier before R is kept, with its hint when R is near. -/
theorem exec_barrierReleaseReceipt_pends {r : Nat} (hm : BarrierMember s p index o) (hg : objGen (s.obj o) = rel.gen)
    (hl : objLnch (s.obj o) = true) (hr : rel.r = some r) (hle : (s.at_ now).now ≤ r) :
    ∃ u, exec (.barrierReleaseReceipt p index rel now) s = .next u ∧ u.obj o = s.obj o ∧ u.sync.waits = s.sync.waits ∧
      u.sync.pends = s.sync.pends ++
        [{ obj := o, pid := p, r := r, flag := rel.flag, hinted := decide (r < (s.at_ now).now + 2048) }] ∧
      ∀ t, u.tile t = ((s.at_ now).hintLate o r).tile t := by
  have hexec := exec_barrierReleaseReceipt_takes (now := now) hm hg (by rw [if_pos hl, hr])
  have hahead : ((s.at_ now).forgetArrival o).now ≤ r := hle
  obtain ⟨out, links, parts, kids, hf⟩ := ((s.at_ now).forgetArrival o).forwardRelease_frame p o { rel with r := some r }
  rw [State.takeRelease_pending rfl hahead, hf] at hexec
  refine ⟨_, hexec, State.obj_congr ?_ o, ?_, ?_, fun t => ?_⟩
  · rw [State.sync_pendRelease]
    rfl
  · rw [State.sync_pendRelease]
    rfl
  · rw [State.sync_pendRelease]
    rfl
  · exact (State.tile_hintLate _ o r t).trans ((s.at_ now).tile_hintLate o r t).symm

/-- A release of a launch barrier after R acts at once and is counted. -/
theorem exec_barrierReleaseReceipt_late {r : Nat} (hm : BarrierMember s p index o) (hg : objGen (s.obj o) = rel.gen)
    (hl : objLnch (s.obj o) = true) (hr : rel.r = some r) (hlt : r < (s.at_ now).now) : ∃ w, KeepsWaits s w o ∧
      w.time.lateRel = satAdd s.time.lateRel 1 ∧
      exec (.barrierReleaseReceipt p index rel now) s = .next (w.releaseNow o rel.flag (s.at_ now).now) := by
  have hexec := exec_barrierReleaseReceipt_takes (now := now) hm hg (by rw [if_pos hl, hr])
  have hbehind : r < ((s.at_ now).forgetArrival o).now := hlt
  rw [State.takeRelease_late rfl hbehind, State.releaseLaunch_eq] at hexec
  exact ⟨_, ((KeepsWaits.forgetArrival_at s now o).trans (KeepsWaits.lateRelease _ p o { rel with r := some r })).trans
    (KeepsWaits.beforeLaunch _ p o r), State.lateRel_lateRelease _ p o _, hexec⟩

end

/-! ### LAUNCH_BARRIER_HINT and LAUNCH_BARRIER_RELEASE -/

/-- The pending release of the launch barrier is over. -/
def State.dropPend (s : State) (o : Nat) : State :=
  { s with sync := { s.sync with pends := s.sync.pends.filter fun y => !decide (y.obj = o) } }

theorem KeepsWaits.dropPend_at (s : State) (now o : Nat) : KeepsWaits s ((s.at_ now).dropPend o) o :=
  (KeepsWaits.at_ s now o).trans (KeepsWaits.of_work (Work.sync _ _ rfl) rfl rfl rfl)

section
variable {s : State} {k : Fin 65536} {o : Nat} {x : PendRelease} {now : Nat}

theorem exec_launchBarrierHint_eq (hk : k.val = o) (hx : s.sync.pends.find? (fun y => decide (y.obj = o)) = some x) :
    exec (.launchBarrierHint k now) s = whenDue (!x.hinted && decide (x.r ≤ (s.at_ now).now + 2048)) "LAUNCH_BARRIER_HINT"
      { (s.at_ now).hintWaiters o with sync := { s.sync with
          pends := s.sync.pends.map fun y => if y.obj = o then { y with hinted := true } else y } } := by
  subst hk
  change execLaunchBarrierHint k now s = _
  simp only [execLaunchBarrierHint, State.at_sync, hx]

theorem exec_launchBarrierRelease_eq (hk : k.val = o) (hx : s.sync.pends.find? (fun y => decide (y.obj = o)) = some x) :
    exec (.launchBarrierRelease k now) s = whenDue (decide (x.r ≤ (s.at_ now).now)) "LAUNCH_BARRIER_RELEASE"
      (((s.at_ now).dropPend o).releaseLaunch x.pid o x.r x.flag x.r) := by
  subst hk
  change execLaunchBarrierRelease k now s = _
  simp only [execLaunchBarrierRelease, State.at_sync, hx]
  rfl

theorem State.releaseIndex_dropPend {p : Pid} {t : TileId} {l : Nat} (hw : ∃ w ∈ s.sync.waits, w.obj = o ∧ w.who = .tile t)
    (hmap : (s.mappedTiles p).find? (fun z => decide (z.1 = t)) = some (t, l)) : ((s.at_ now).dropPend o).releaseIndex p o t = some l := by
  have hw' : ∃ w ∈ ((s.at_ now).dropPend o).sync.waits, w.obj = o ∧ w.who = .tile t := hw
  rw [State.releaseIndex, State.any_waits_eq_true hw', if_pos rfl]
  exact congrArg (Option.map (·.2)) hmap

/-- At R the release acts on a state in which the waiting tiles' arrays have it. -/
theorem exec_launchBarrierRelease_due (hk : k.val = o) (hx : s.sync.pends.find? (fun y => decide (y.obj = o)) = some x)
    (hle : x.r ≤ (s.at_ now).now) : ∃ w, KeepsWaits s w o ∧
      w.sync.pends = (s.sync.pends.filter fun y => !decide (y.obj = o)) ∧
      (∀ t l, (∃ y ∈ s.sync.waits, y.obj = o ∧ y.who = .tile t) →
        (s.mappedTiles x.pid).find? (fun z => decide (z.1 = t)) = some (t, l) →
        (w.tile t).array = (s.tile t).array.receiveRelease l) ∧
      exec (.launchBarrierRelease k now) s = .next (w.releaseNow o x.flag x.r) := by
  have hexec := (exec_launchBarrierRelease_eq (now := now) hk hx).trans (whenDue_of_due _ _ (decide_eq_true hle))
  rw [State.releaseLaunch_eq] at hexec
  refine ⟨_, (KeepsWaits.dropPend_at s now o).trans (KeepsWaits.beforeLaunch _ x.pid o x.r), rfl, fun t l hw hmap => ?_, hexec⟩
  have htile := State.tile_staggerWaiters_some (State.releaseIndex_dropPend (now := now) hw hmap)
  exact congrArg Tile.array htile

end

/-- Settles O23: each way in which a release comes acts on a state that keeps the barrier's waiters, and KeepsWaits says what the release
of such a state does. -/
theorem barrierReleases : Obligations.BarrierReleases := by
  intro s p index o rel now v b member Released inTime hwf ht
  have released {u : State} {flag : Bool} (h : BarrierReleased s u o flag) : Released u flag :=
    ⟨h.gen, h.arrived, h.flagClear, h.expect, h.up, h.others, h.waits,
      fun w hw ho ⟨f, hf⟩ => h.resumed w hw (by simp [SyncWait.arrivedAt, ho, hf]), h.tile⟩
  have hmember (h : member) : BarrierMember s p index o := by
    obtain ⟨ho, hb, hk, hr, hu⟩ := h
    exact ⟨ho, hb, hk, hr, hu⟩
  have hnot (h : ¬ member) : ¬ BarrierMember s p index o := fun hm => h ⟨hm.obj, hm.bound, hm.kind, hm.root, hm.up⟩
  refine ⟨fun h ho => exec_barrierReleaseReceipt_ignored ho (h.imp_left hnot), fun hm hg hnow => ?_, fun r hm hg hl hr hle => ?_,
    fun r hm hg hl hr hlt hin => ?_, fun k x hk hx => ⟨fun hhint hle => ?_, fun hlt => ?_, fun hle hin => ?_, fun hlt => ?_⟩⟩
  · obtain ⟨w, hkeeps, hexec⟩ := exec_barrierReleaseReceipt_now (now := now) (hmember hm) hg hnow
    exact ⟨fun hin => ⟨_, hexec, released (hkeeps.released hwf ht rel.flag hin)⟩,
      fun x hx ho hlate t rd hwho hres => ⟨_, hexec, hkeeps.core_releaseNow_late ht rel.flag hx ho hlate hwho hres⟩⟩
  · obtain ⟨u, hexec, hobj, hwaits, hpends, htile⟩ := exec_barrierReleaseReceipt_pends (hmember hm) hg hl hr hle
    exact ⟨u, hexec, hobj, hwaits, hpends, fun t => (htile t).trans ((s.at_ now).tile_hintLate o r t)⟩
  · obtain ⟨w, hkeeps, hlate, hexec⟩ := exec_barrierReleaseReceipt_late (hmember hm) hg hl hr hlt
    refine ⟨_, hexec, released (hkeeps.released hwf ht rel.flag hin), ?_⟩
    rw [hkeeps.time_releaseNow ht rel.flag hin, hlate]
  · exact ⟨_, (exec_launchBarrierHint_eq hk hx).trans (whenDue_of_due _ _ (by rw [hhint, decide_eq_true hle]; rfl)), rfl, rfl,
      fun t => (s.at_ now).tile_hintWaiters o t⟩
  · exact (exec_launchBarrierHint_eq hk hx).trans
      (whenDue_of_not_due _ _ (by rw [decide_eq_false (Nat.not_le.2 hlt), Bool.and_false]))
  · obtain ⟨w, hkeeps, hpends, harray, hexec⟩ := exec_launchBarrierRelease_due hk hx hle
    have hin' : ∀ y ∈ s.sync.waits, y.obj = o → x.r < y.issue + s.waitLimit y.who := fun y hy ho => lt_of_le_of_lt hle (hin y hy ho)
    refine ⟨_, hexec, released (hkeeps.released hwf ht x.flag hin'), by rw [hkeeps.pends_releaseNow ht x.flag hin', hpends],
      fun t l hw hmap => ?_⟩
    rw [hkeeps.array_releaseNow ht x.flag hin', harray t l hw hmap]
    exact ⟨rfl, rfl⟩
  · exact (exec_launchBarrierRelease_eq hk hx).trans (whenDue_of_not_due _ _ (decide_eq_false (Nat.not_le.2 hlt)))

end Sys2Proof.Machine
end

