-- ==== Sys2Proof/Proofs/CoreShell.lean ====
section
/-!
PROOFS. What it takes to run one instruction of a core: the shells coreInstr and coreWait seen through Issues, Fetches and Runs, and the
state in which the effect of an instruction acts (07 R153, R155; 15 R354).
-/
namespace Sys2Proof.Machine

open Sys2Proof.Claims

/-! ### The state after a single step of debug was used up -/

theorem faultBase_eq_modCore (s : State) (t : TileId) : faultBase s t = s.modCore t Core.useStep :=
  congrArg (s.modCore t) (funext fun c => (Core.useStep_eq c).symm)

@[simp] theorem core_faultBase (s : State) (t : TileId) : (faultBase s t).core t = (s.core t).useStep := by
  rw [faultBase_eq_modCore, State.core_modCore]

@[simp] theorem codeSize_faultBase (s : State) (t : TileId) : (faultBase s t).codeSize t = s.codeSize t := by
  rw [faultBase_eq_modCore, State.codeSize_useStep]

@[simp] theorem progOfTile_faultBase (s : State) (t : TileId) : (faultBase s t).progOfTile t = s.progOfTile t := by
  rw [faultBase_eq_modCore, State.progOfTile_modCore s t _ (Core.useStep_slot _)]

/-- An instruction that goes on, from the state with the single step used up. -/
theorem retire_faultBase {s : State} {t : TileId} {f g : Core → Core} (h : (f (s.core t).useStep).next = stepped (g (s.core t))) :
    (faultBase s t).retire t f = retired s t g := by
  rw [State.retire, faultBase_eq_modCore, State.modCore_modCore]
  exact State.modCore_congr (g := fun c => stepped (g c)) h

/-- An instruction that goes on and changes its tile, likewise. -/
theorem modTile_faultBase {s : State} {t : TileId} {f g : Tile → Tile}
    (h : f { s.tile t with core := (s.core t).useStep } = { g (s.tile t) with core := stepped (g (s.tile t)).core }) :
    (faultBase s t).modTile t f = issued s t g := by
  rw [faultBase_eq_modCore, State.modCore, State.modTile_modTile]
  exact State.modTile_congr h

theorem retire_id_faultBase (s : State) (t : TileId) : (faultBase s t).retire t id = retired s t id :=
  retire_faultBase (by rw [Core.useStep_eq]; rfl)

/-- An instruction that writes a general register; g0 stays 0. -/
theorem retire_wg_faultBase {s : State} {t : TileId} {rd : RegId} {x : Word} {f : Core → Core}
    (h : f (s.core t).useStep = (s.core t).useStep.wg rd x) :
    (faultBase s t).retire t f = retired s t fun c => if rd = 0 then c else { c with g := c.g.set rd x } := by
  refine retire_faultBase ?_
  rw [h, Core.useStep_eq, Core.wg]
  split <;> rfl

/-! ### Instructions that go on, fault or wait -/

section
variable {s u : State} {t : TileId} {i : Instr} {m : String} {b : Bool} {eff : State → State}

/-- The word at the counter of an issuing core makes its command the core's next. -/
theorem issues_of_fetches (hi : Issues s t) (hf : Fetches s t i) : s.issues t i = true := by
  rw [State.issues, hi.1, show spells t (s.codeWord t) i = true from hf, Bool.or_true, Bool.and_true]

theorem runs_coreInstr (hi : Issues s t) (he : exec i s = coreInstr m i t s eff) (hu : eff (faultBase s t) = u) : Runs s t i u := fun hf => by
  rw [he, coreInstr_next m i t s eff (issues_of_fetches hi hf) hi.2, ← faultBase_eq_modCore, hu]

/-- An instruction whose condition holds has its effect. -/
theorem runs_coreWait (hi : Issues s t) (he : exec i s = coreWait m i t s b eff) (hb : b = true) (hu : eff (faultBase s t) = u) :
    Runs s t i u := fun hf => by
  rw [he, hb, coreWait_next m i t s eff (issues_of_fetches hi hf) hi.2, ← faultBase_eq_modCore, hu]

/-- An instruction whose condition does not hold changes nothing. -/
theorem runs_stall (hi : Issues s t) (he : exec i s = coreWait m i t s b eff) (hb : b = false) : Runs s t i s := fun hf => by
  rw [he, hb, coreWait_stall m i t s eff (issues_of_fetches hi hf) hi.2]

end

end Sys2Proof.Machine
end

