-- ==== Sys2Proof/Proofs/ScalarInstructions.lean ====
section
/-!
PROOFS. INT, INTI and BR, and the waits for counts (07 R155, R156, R159; 08 R182).
-/
namespace Sys2Proof.Machine

open Sys2Proof.Claims

/-! ### Integer functions (07 R156) -/

/-- The arithmetic functions compute what R156 gives. -/
theorem intEval_of_arith {op : IntOp} {a b x : Word} (h : arith op a b = some x) : intEval op a b = x := by
  cases op <;> simp only [arith, Option.some.injEq, reduceCtorEq] at h <;> subst h
  case add => exact BitVec.eq_of_toInt_eq (by simp [intEval, BitVec.toInt_add])
  case sub => exact BitVec.eq_of_toInt_eq (by simp [intEval, BitVec.toInt_sub])
  case mul => exact BitVec.eq_of_toInt_eq (by simp [intEval, BitVec.toInt_mul])
  case div =>
    refine if_congr Iff.rfl rfl (BitVec.eq_of_toInt_eq ?_)
    rw [BitVec.toInt_sdiv, BitVec.toInt_ofInt]
  case divu => exact if_congr Iff.rfl rfl (by rw [← BitVec.toNat_udiv, BitVec.ofNat_toNat, BitVec.setWidth_eq])
  case rem => exact if_congr Iff.rfl rfl (by rw [← BitVec.toInt_srem, BitVec.ofInt_toInt])
  case remu => exact if_congr Iff.rfl rfl (by rw [← BitVec.toNat_umod, BitVec.ofNat_toNat, BitVec.setWidth_eq])

/-- Truth as a word. -/
theorem b2n_word (p : Prop) [Decidable p] : BitVec.ofNat 64 (b2n (decide p)) = if p then 1 else 0 := by
  by_cases h : p <;> simp [b2n, h]

theorem intEval_of_logic {op : IntOp} {a b x : Word} (h : logic op a b = some x) : intEval op a b = x := by
  cases op <;> simp only [logic, Option.some.injEq, reduceCtorEq] at h <;> subst h
  case and => rfl
  case or => rfl
  case xor => rfl
  case sll => exact BitVec.eq_of_toNat_eq (by simp [intEval, Nat.shiftLeft_eq])
  case srl => rw [intEval, ← Nat.shiftRight_eq_div_pow, ← BitVec.toNat_ushiftRight, BitVec.ofNat_toNat, BitVec.setWidth_eq]
  case sra =>
    rw [intEval, show a.toInt / 2 ^ (b.toNat % 64) = a.toInt >>> (b.toNat % 64) from (Int.shiftRight_eq_div_pow _ _).symm,
      ← BitVec.toInt_sshiftRight, BitVec.ofInt_toInt]
  case slt => exact (b2n_word _).symm
  case sltu => exact (b2n_word _).symm

theorem exec_int (t : TileId) (op : IntOp) (rd rs1 rs2 : RegId) (s : State) : exec (.int t op rd rs1 rs2) s = execInt t op rd rs1 rs2 s := rfl

theorem exec_inti (t : TileId) (op : IntOp) (rd rs1 : RegId) (imm : Word) (s : State) :
    exec (.inti t op rd rs1 imm) s = execInti t op rd rs1 imm s := rfl

theorem runs_int {s : State} {t : TileId} (hi : Issues s t) {op : IntOp} {rd rs1 rs2 : RegId} {x : Word}
    (h : intEval op ((s.core t).rg rs1) ((s.core t).rg rs2) = x) :
    Runs s t (.int t op rd rs1 rs2) (retired s t fun c => if rd = 0 then c else { c with g := c.g.set rd x }) := by
  refine runs_coreInstr hi (exec_int ..) ?_
  exact retire_wg_faultBase <| by simp only [Core.useStep_rg, h]

theorem runs_inti {s : State} {t : TileId} (hi : Issues s t) {op : IntOp} {rd rs1 : RegId} {imm x : Word}
    (h : intEval op ((s.core t).rg rs1) imm = x) :
    Runs s t (.inti t op rd rs1 imm) (retired s t fun c => if rd = 0 then c else { c with g := c.g.set rd x }) := by
  refine runs_coreInstr hi (exec_inti ..) ?_
  exact retire_wg_faultBase <| by simp only [Core.useStep_rg, h]

/-- Settles O1: each function computes what R156 gives, and INT and INTI write it to their register. -/
theorem integerArithmetic : Obligations.IntegerArithmetic :=
  ⟨by decide, fun _ _ _ _ _ _ _ _ hi => ⟨fun h => runs_int hi (intEval_of_arith h), fun h => runs_inti hi (intEval_of_arith h)⟩⟩

/-! ### Branches (07 R153, R155) -/

theorem brTaken_iff {op : BrOp} {a b : Word} : brTaken op a b = true ↔ taken op a b := by
  cases op <;> simp [brTaken, taken]

theorem brTarget_eq (op : BrOp) (c : Core) (rs1 : RegId) (offset : Word) :
    brTarget op c rs1 offset = ((if op = .jumpReg then c.rg rs1 else BitVec.ofNat 64 c.pc) + offset).toNat := by
  cases op <;> rfl

/-- A taken branch goes to its target; a jump leaves the address after it. -/
theorem Core.branch_eq (op : BrOp) (rd : RegId) (target : Nat) (c : Core) :
    { (if brLinks op then c.wg rd (BitVec.ofNat 64 (c.pc + 4)) else c) with pc := target } =
      { c with pc := target
               g := if (op = .jump ∨ op = .jumpReg) ∧ rd ≠ 0 then c.g.set rd (BitVec.ofNat 64 (c.pc + 4)) else c.g } := by
  by_cases hop : op = .jump ∨ op = .jumpReg <;> by_cases hrd : rd = 0 <;> simp [brLinks, Core.wg, hop, hrd]

section
variable {s : State} {t : TileId} {op : BrOp} {rs1 rs2 : RegId} (offset : Word)

/-- The target of a branch. -/
def branchTarget (s : State) (t : TileId) (op : BrOp) (rs1 : RegId) (offset : Word) : Nat :=
  ((if op = .jumpReg then (s.core t).rg rs1 else BitVec.ofNat 64 (s.core t).pc) + offset).toNat

theorem brTarget_useStep (s : State) (t : TileId) (op : BrOp) (rs1 : RegId) (offset : Word) :
    brTarget op (s.core t).useStep rs1 offset = branchTarget s t op rs1 offset := by
  rw [Core.useStep_eq, brTarget_eq]
  rfl

theorem exec_br (t : TileId) (op : BrOp) (rd rs1 rs2 : RegId) (offset : Word) (s : State) :
    exec (.br t op rd rs1 rs2 offset) s = execBr t op rd rs1 rs2 offset s := rfl

variable (hi : Issues s t) (rd : RegId)
include hi

theorem runs_br_of_not_taken (h : ¬ taken op ((s.core t).rg rs1) ((s.core t).rg rs2)) :
    Runs s t (.br t op rd rs1 rs2 offset) (retired s t id) := by
  have hb : brTaken op ((s.core t).rg rs1) ((s.core t).rg rs2) = false := Bool.eq_false_iff.2 (mt brTaken_iff.1 h)
  refine runs_coreInstr hi (exec_br ..) ?_
  simp only [core_faultBase, Core.useStep_rg, hb, Bool.not_false, if_true]
  exact retire_id_faultBase s t

theorem runs_br_to (h : taken op ((s.core t).rg rs1) ((s.core t).rg rs2)) (hlt : branchTarget s t op rs1 offset < s.codeSize t)
    (hal : branchTarget s t op rs1 offset % 4 = 0) : Runs s t (.br t op rd rs1 rs2 offset) ((faultBase s t).modCore t fun c =>
      { c with pc := branchTarget s t op rs1 offset
               g := if (op = .jump ∨ op = .jumpReg) ∧ rd ≠ 0 then c.g.set rd (BitVec.ofNat 64 (c.pc + 4)) else c.g }) := by
  refine runs_coreInstr hi (exec_br ..) ?_
  simp [brTaken_iff.2 h, brTarget_useStep, hlt, hal, Core.branch_eq]

theorem runs_br_fault (h : taken op ((s.core t).rg rs1) ((s.core t).rg rs2))
    (hbad : s.codeSize t ≤ branchTarget s t op rs1 offset ∨ branchTarget s t op rs1 offset % 4 ≠ 0) :
    Runs s t (.br t op rd rs1 rs2 offset) ((faultBase s t).coreFault t 0x1 0) := by
  refine runs_coreInstr hi (exec_br ..) ?_
  simp only [core_faultBase, Core.useStep_rg, brTaken_iff.2 h, brTarget_useStep, codeSize_faultBase, hbad, if_true, Bool.not_true, Bool.false_eq_true,
    if_false]

end

/-- Settles O2: the functions as in O1, the branches by whether they are taken and where they lead. -/
theorem logicAndBranches : Obligations.LogicAndBranches := by
  intro s t hi
  refine ⟨fun op rd rs1 rs2 imm x => ⟨fun h => runs_int hi (intEval_of_logic h), fun h => runs_inti hi (intEval_of_logic h)⟩,
    fun op rd rs1 rs2 offset => ⟨?_, ?_, ?_⟩⟩
  · exact runs_br_of_not_taken offset hi rd
  · exact runs_br_to offset hi rd
  · exact runs_br_fault offset hi rd

/-! ### Waits for counts (07 R159, 08 R182) -/

theorem exec_mwait (t : TileId) (n : BitVec 6) (s : State) : exec (.mwait t n) s = execMwait t n s := rfl
theorem exec_dwait (t : TileId) (n : BitVec 6) (s : State) : exec (.dwait t n) s = execDwait t n s := rfl
theorem exec_uwait (t : TileId) (n : BitVec 6) (s : State) : exec (.uwait t n) s = execUwait t n s := rfl

/-- A wait that only goes on or stays. -/
theorem runs_wait {s : State} {t : TileId} {i : Instr} {m : String} {p : Prop} [Decidable p] (hi : Issues s t)
    (he : exec i s = coreWait m i t s (decide p) fun s => s.retire t id) : Runs s t i (if p then retired s t id else s) := by
  by_cases hp : p
  · rw [if_pos hp]
    exact runs_coreWait hi he (decide_eq_true hp) (retire_id_faultBase s t)
  · rw [if_neg hp]
    exact runs_stall hi he (decide_eq_false hp)

/-- Settles O6: each wait compares a count with the length of its queue. -/
theorem countWaits : Obligations.CountWaits :=
  fun _ _ _ hi => ⟨runs_wait hi (exec_mwait ..), runs_wait hi (exec_dwait ..), runs_wait hi (exec_uwait ..)⟩

end Sys2Proof.Machine
end

