-- ==== Sys2Proof/Proofs/FixedPointRounding.lean ====
section
/-!
PROOFS. The fixed-point rounding modes by the exact quotient (07 R179).
-/
namespace Sys2Proof.Machine

section
variable (x : Int) (k : Nat)

/-- The floor of the quotient and the remainder of a rounding. -/
theorem frmRound_divides : x = x / 2 ^ k * 2 ^ k + x % 2 ^ k ∧ 0 ≤ x % 2 ^ k ∧ x % 2 ^ k < 2 ^ k :=
  ⟨(Int.ediv_mul_add_emod x (2 ^ k)).symm, Int.emod_nonneg _ (pow_pos two_pos k).ne', Int.emod_lt_of_pos _ (pow_pos two_pos k)⟩

/-- RNU is the floor of the quotient plus a half. -/
theorem frmRound_rnu : frmRound .rnu x k = (2 * x + 2 ^ k) / 2 ^ (k + 1) := by
  obtain ⟨hx, hlo, hhi⟩ := frmRound_divides x k
  simp only [frmRound]
  refine ((Int.ediv_eq_iff_of_pos (by positivity)).2 ?_).symm
  rw [pow_succ]
  split <;> constructor <;> nlinarith

/-- RNE is at most half a unit away, and even where it is just that. -/
theorem frmRound_rne : |2 * (x - frmRound .rne x k * 2 ^ k)| ≤ 2 ^ k ∧
    (|2 * (x - frmRound .rne x k * 2 ^ k)| = 2 ^ k → frmRound .rne x k % 2 = 0) := by
  obtain ⟨hx, hlo, hhi⟩ := frmRound_divides x k
  have hdown : x - x / 2 ^ k * 2 ^ k = x % 2 ^ k := by omega
  have hup : x - (x / 2 ^ k + 1) * 2 ^ k = x % 2 ^ k - 2 ^ k := by rw [add_mul, one_mul]; omega
  simp only [frmRound]
  split
  case isTrue h =>
    rw [hup, abs_of_nonpos (by omega)]
    omega
  case isFalse h =>
    rw [hdown, abs_of_nonneg (by omega)]
    omega

/-- ROD sets bit 0 of the floor when the quotient is no integer. -/
theorem frmRound_rod : frmRound .rod x k = if x % 2 ^ k ≠ 0 ∧ x / 2 ^ k % 2 = 0 then x / 2 ^ k + 1 else x / 2 ^ k := by
  simp only [frmRound]
  split <;> split <;> omega

end

/-- Settles O15, mode by mode. -/
theorem fixedPointRounding : Obligations.FixedPointRounding :=
  fun x k => ⟨frmRound_rnu x k, rfl, frmRound_rne x k, frmRound_rod x k⟩

end Sys2Proof.Machine
end

