-- ==== Sys2Proof/Proofs/ElementWrites.lean ====
section
/-!
PROOFS. The elements of a vector register group as bit fields of the registers, and what writing some of them changes (07 R173, R174).
-/
namespace Sys2Proof.Machine

/-! ### A bit field of a number -/

/-- A number with w bits from bit o on replaced. -/
def putField (old o w x : Nat) : Nat := old - old / 2 ^ o % 2 ^ w * 2 ^ o + x % 2 ^ w * 2 ^ o

/-- The replaced field stands between what was above and below it. -/
theorem putField_eq (old o w x : Nat) :
    putField old o w x = (old / 2 ^ o / 2 ^ w * 2 ^ w + x % 2 ^ w) * 2 ^ o + old % 2 ^ o := by
  have hlow := Nat.div_add_mod' old (2 ^ o)
  have hmid := Nat.div_add_mod' (old / 2 ^ o) (2 ^ w)
  have hsum : old = old / 2 ^ o / 2 ^ w * 2 ^ w * 2 ^ o + old / 2 ^ o % 2 ^ w * 2 ^ o + old % 2 ^ o := by
    rw [← Nat.add_mul, hmid, hlow]
  rw [putField, Nat.add_mul]
  omega

theorem putField_lt {old n o w : Nat} (x : Nat) (h : old < 2 ^ n) (ho : o + w ≤ n) : putField old o w x < 2 ^ n := by
  have hn : 2 ^ n = 2 ^ (n - o - w) * 2 ^ w * 2 ^ o := by rw [← pow_add, ← pow_add]; congr 1; omega
  have hhigh : old / 2 ^ o / 2 ^ w < 2 ^ (n - o - w) := by
    rw [Nat.div_div_eq_div_mul, Nat.div_lt_iff_lt_mul (by positivity), Nat.mul_comm (2 ^ o), ← Nat.mul_assoc, ← hn]
    exact h
  rw [putField_eq, hn]
  exact row_add_column_lt (row_add_column_lt hhigh (Nat.mod_lt _ (by positivity))) (Nat.mod_lt _ (by positivity))

theorem toNat_ofNat_putField {n o w : Nat} (old : BitVec n) (x : Nat) (ho : o + w ≤ n) :
    (BitVec.ofNat n (putField old.toNat o w x)).toNat = putField old.toNat o w x := by
  rw [BitVec.toNat_ofNat, Nat.mod_eq_of_lt (putField_lt x old.isLt ho)]

theorem putField_same (old o w x : Nat) : putField old o w x / 2 ^ o % 2 ^ w = x % 2 ^ w := by
  rw [putField_eq, Nat.mul_comm _ (2 ^ o), Nat.mul_add_div (by positivity), Nat.div_eq_of_lt (Nat.mod_lt _ (by positivity)), Nat.add_zero,
    Nat.mul_comm _ (2 ^ w), Nat.mul_add_mod, Nat.mod_mod]

/-- A field below bit o is that of the bits below. -/
theorem field_below {a b o o' w : Nat} (h : o' + w ≤ o) : (a * 2 ^ o + b) / 2 ^ o' % 2 ^ w = b / 2 ^ o' % 2 ^ w := by
  have ho : a * 2 ^ o = 2 ^ o' * (2 ^ w * (a * 2 ^ (o - o' - w))) := by
    rw [show 2 ^ o = 2 ^ o' * 2 ^ w * 2 ^ (o - o' - w) by rw [← pow_add, ← pow_add]; congr 1; omega]
    ring
  rw [ho, Nat.mul_add_div (by positivity), Nat.mul_add_mod]

/-- A field beside the replaced one stays. -/
theorem putField_apart {old o o' w : Nat} (x : Nat) (h : o' + w ≤ o ∨ o + w ≤ o') :
    putField old o w x / 2 ^ o' % 2 ^ w = old / 2 ^ o' % 2 ^ w := by
  rcases h with h | h
  · conv_rhs => rw [← Nat.div_add_mod' old (2 ^ o)]
    rw [putField_eq, field_below h, field_below h]
  · have hsplit (n : Nat) : n / 2 ^ o' = n / 2 ^ o / 2 ^ w / 2 ^ (o' - o - w) := by
      rw [Nat.div_div_eq_div_mul, Nat.div_div_eq_div_mul, ← pow_add, ← pow_add]
      congr 2; omega
    rw [hsplit, hsplit old, putField_eq, Nat.mul_comm _ (2 ^ o), Nat.mul_add_div (by positivity),
      Nat.div_eq_of_lt (Nat.mod_lt _ (by positivity)), Nat.add_zero, Nat.mul_comm _ (2 ^ w), Nat.mul_add_div (by positivity),
      Nat.div_eq_of_lt (Nat.mod_lt _ (by positivity)), Nat.add_zero]

/-! ### Where the elements lie -/

theorem vreg_val {n : Nat} (h : n < 32) : (vreg n).val = n := Nat.mod_eq_of_lt h

/-- An element does not cross into the next register. -/
theorem element_fits (ew : Ew) (i : Nat) : ewBits ew * i % 2048 + ewBits ew ≤ 2048 := by
  cases ew <;> simp only [ewBits] <;> omega

/-- Different elements lie in different registers or beside each other. -/
theorem elements_apart (ew : Ew) {i j : Nat} (h : i ≠ j) : ewBits ew * i / 2048 ≠ ewBits ew * j / 2048 ∨
    ewBits ew * j % 2048 + ewBits ew ≤ ewBits ew * i % 2048 ∨ ewBits ew * i % 2048 + ewBits ew ≤ ewBits ew * j % 2048 := by
  cases ew <;> simp only [ewBits] <;> omega

theorem element_register_lt {ew : Ew} {i k : Nat} (h : ewBits ew * (i + 1) ≤ 2048 * k) : ewBits ew * i / 2048 < k := by
  cases ew <;> simp only [ewBits] at h ⊢ <;> omega

/-! ### One element -/

/-- The registers after an element was written. -/
theorem Core.v_setElem (c : Core) (r : RegId) (ew : Ew) (i x : Nat) (n : RegId) : ((c.setElem r (ewBits ew) i x).v[n]).toNat =
    if n = vreg (r.val + ewBits ew * i / 2048) then putField (c.v[n]).toNat (ewBits ew * i % 2048) (ewBits ew) x else (c.v[n]).toNat := by
  simp only [Core.setElem, Fin.getElem_fin, Vector.getElem_set, Fin.ext_iff, eq_comm (a := n.val)]
  split
  next h =>
    simp only [h]
    exact toNat_ofNat_putField _ x (element_fits ew i)
  next => rfl

theorem Core.elem_setElem (c : Core) (r : RegId) (ew : Ew) (i x : Nat) :
    (c.setElem r (ewBits ew) i x).elem r (ewBits ew) i = x % 2 ^ ewBits ew := by
  rw [Core.elem, Core.v_setElem, if_pos rfl, putField_same]

section
variable {r : RegId} {ew : Ew} {k : Nat} (hr : r.val + k ≤ 32)
include hr

theorem Core.elem_setElem_ne (c : Core) {i j : Nat} (x : Nat) (hi : ewBits ew * (i + 1) ≤ 2048 * k) (hj : ewBits ew * (j + 1) ≤ 2048 * k)
    (h : i ≠ j) : (c.setElem r (ewBits ew) i x).elem r (ewBits ew) j = c.elem r (ewBits ew) j := by
  have hi := element_register_lt hi
  have hj := element_register_lt hj
  rw [Core.elem, Core.v_setElem, Core.elem]
  split
  next heq =>
    have hreg : ewBits ew * j / 2048 = ewBits ew * i / 2048 := by
      rw [Fin.ext_iff, vreg_val (by omega), vreg_val (by omega)] at heq
      omega
    exact putField_apart x ((elements_apart ew h).resolve_left fun hne => hne hreg.symm)
  next => rfl

theorem Core.v_setElem_outside (c : Core) {i : Nat} (x : Nat) (hi : ewBits ew * (i + 1) ≤ 2048 * k) {n : RegId}
    (hn : n.val < r.val ∨ r.val + k ≤ n.val) : (c.setElem r (ewBits ew) i x).v[n] = c.v[n] := by
  have hi := element_register_lt hi
  refine BitVec.eq_of_toNat_eq ?_
  rw [Core.v_setElem, if_neg]
  rw [Fin.ext_iff, vreg_val (by omega)]
  omega

/-! ### A list of elements -/

theorem Core.elem_setElems_of_not_mem {xs : List (Nat × Nat)} (hxs : ∀ x ∈ xs, ewBits ew * (x.1 + 1) ≤ 2048 * k) (c : Core) {i : Nat}
    (hi : ewBits ew * (i + 1) ≤ 2048 * k) (h : i ∉ xs.map (·.1)) :
    (c.setElems r (ewBits ew) xs).elem r (ewBits ew) i = c.elem r (ewBits ew) i := by
  induction xs generalizing c with
  | nil => rfl
  | cons x xs ih =>
    obtain ⟨hx, hxs⟩ := List.forall_mem_cons.1 hxs
    obtain ⟨hne, hnot⟩ := not_or.1 (mt List.mem_cons.2 h)
    exact (ih hxs _ hnot).trans (Core.elem_setElem_ne hr c x.2 hx hi (Ne.symm hne))

theorem Core.elem_setElems_of_mem {xs : List (Nat × Nat)} (hxs : ∀ x ∈ xs, ewBits ew * (x.1 + 1) ≤ 2048 * k) (c : Core)
    (hd : (xs.map (·.1)).Nodup) {x : Nat × Nat} (h : x ∈ xs) :
    (c.setElems r (ewBits ew) xs).elem r (ewBits ew) x.1 = x.2 % 2 ^ ewBits ew := by
  induction xs generalizing c with
  | nil => exact absurd h List.not_mem_nil
  | cons y ys ih =>
    obtain ⟨hy, hys⟩ := List.forall_mem_cons.1 hxs
    obtain ⟨hnot, hd⟩ := List.nodup_cons.1 hd
    rcases List.mem_cons.1 h with rfl | h
    · exact (Core.elem_setElems_of_not_mem hr hys _ hy hnot).trans (Core.elem_setElem c r ew x.1 x.2)
    · exact ih hys _ hd h

theorem Core.v_setElems_outside {xs : List (Nat × Nat)} (hxs : ∀ x ∈ xs, ewBits ew * (x.1 + 1) ≤ 2048 * k) (c : Core) {n : RegId}
    (hn : n.val < r.val ∨ r.val + k ≤ n.val) : (c.setElems r (ewBits ew) xs).v[n] = c.v[n] := by
  induction xs generalizing c with
  | nil => rfl
  | cons x xs ih =>
    obtain ⟨hx, hxs⟩ := List.forall_mem_cons.1 hxs
    exact (ih hxs _).trans (Core.v_setElem_outside hr c x.2 hx hn)

end

theorem Core.setElems_frame (c : Core) (r : RegId) (w : Nat) (xs : List (Nat × Nat)) : { c.setElems r w xs with v := c.v } = c := by
  induction xs generalizing c with
  | nil => rfl
  | cons x xs ih => exact congrArg (fun d : Core => { d with v := c.v }) (ih (c.setElem r w x.1 x.2))

/-- Settles O13, by induction on the list of results: writing an element changes its own bit field of the registers. -/
theorem elementWrites : Obligations.ElementWrites := by
  intro c r ew xs k hr hd hxs d
  exact ⟨fun x hx => Core.elem_setElems_of_mem hr hxs c hd hx, fun i hi hnot => Core.elem_setElems_of_not_mem hr hxs c hi hnot,
    fun v hv => Core.v_setElems_outside hr hxs c hv, Core.setElems_frame c r _ xs⟩

end Sys2Proof.Machine
end

