-- ==== Sys2Proof/Proofs/LoadsAndStores.lean ====
section
/-!
PROOFS. Scalar loads and stores (07 R155, R164; 16 R380; 18 R411).
-/
namespace Sys2Proof.Machine

open Sys2Proof.Claims

/-! ### Bytes of the tile store -/

theorem leNat_lt (bs : List Byte) : leNat bs < 2 ^ (8 * bs.length) := by
  induction bs with
  | nil => simp [leNat]
  | cons x xs ih =>
    rw [leNat, List.length_cons, Nat.mul_succ, pow_add]
    have := x.isLt
    omega

theorem State.storeLe_eq_storeNum (s : State) (t : TileId) (a n : Nat) : s.storeLe t a n = storeNum s t a n := by
  simp only [State.storeLe, State.storeBytes, Memory.readBytes, storeNum, State.storeByte, Nat.add_assoc]

theorem storeNum_lt (s : State) (t : TileId) (a n : Nat) : storeNum s t a n < 2 ^ (8 * n) := by
  simpa [storeNum] using leNat_lt ((List.range n).map fun i => s.storeByte t (a + i))

theorem leBytes_eq_map (n v : Nat) : leBytes n v = (List.range n).map fun i => BitVec.ofNat 8 (v / 256 ^ i) := by
  refine List.ext_getElem (by simp) fun i hi hi' => ?_
  rw [leBytes_length] at hi
  simpa [hi] using leBytes_get n v i hi

/-- What a write of bytes stores and leaves. -/
theorem stored_writeBytes {m : List Host.Cell} (h : Memory.wf m = true) (a : Nat) (bs : List Byte) :
    Stored m (Memory.writeBytes m a bs) a bs := by
  refine ⟨fun i hi => ?_, fun x hx => ?_⟩
  · rw [Memory.read_writeBytes m a _ bs h, if_pos (by omega), Nat.add_sub_cancel_left]
  · rw [Memory.read_writeBytes m a x bs h, if_neg (by omega)]

theorem stored_leBytes {m : List Host.Cell} (h : Memory.wf m = true) (a n v : Nat) :
    Stored m (Memory.writeBytes m a (leBytes n v)) a ((List.range n).map fun i => BitVec.ofNat 8 (v / 256 ^ i)) := by
  rw [← leBytes_eq_map]
  exact stored_writeBytes h a _

/-! ### The access -/

theorem not_outside {a n : Nat} (h : a + n ≤ 2 ^ 22) : ¬ tileSize < a + n := Nat.not_lt.2 h

section
variable {a n : Nat}

theorem accessCause_of_ok (h : a + n ≤ 2 ^ 22) (ha : a % n = 0) : accessCause a n = none := by
  rw [accessCause, if_neg (not_outside h), if_neg (not_not.2 ha)]

theorem accessCause_of_outside (h : 2 ^ 22 < a + n) : accessCause a n = some 0x2 := if_pos h

theorem accessCause_of_misaligned (h : a + n ≤ 2 ^ 22) (ha : a % n ≠ 0) : accessCause a n = some 0x3 := by
  rw [accessCause, if_neg (not_outside h), if_pos ha]

/-- A value of n bytes as a signed load extends it. -/
theorem extendTo_eq (signed : Bool) {v : Nat} (h : v < 2 ^ (8 * n)) : extendTo signed n v =
    if signed = true ∧ 2 ^ (8 * n - 1) ≤ v then BitVec.ofInt 64 ((v : Int) - 2 ^ (8 * n)) else BitVec.ofNat 64 v := by
  cases signed with
  | false => simp [extendTo]
  | true =>
    by_cases hv : 2 ^ (8 * n - 1) ≤ v
    · simp [extendTo, signedOf, Nat.mod_eq_of_lt h, hv, Nat.not_lt.2 hv]
    · simp [extendTo, signedOf, Nat.mod_eq_of_lt h, hv, Nat.lt_of_not_le hv]

end

theorem exec_ls (t : TileId) (op : LsOp) (k : Nat) (s : State) : exec (.ls t op k) s = execLs t op k s := rfl

/-- The tile with its corrected words counted. -/
def Tile.countWords (k : Nat) (y : Tile) : Tile := { y with sramCnt := satAdd y.sramCnt k }

/-- A core with a loaded value in its register; g0 stays 0. -/
def Core.loaded (op : LsOp) (x : Nat) (c : Core) : Core :=
  match op.file with
  | .g => c.wg op.reg (extendTo op.signed (2 ^ op.size.val) x)
  | .f => c.wf op.reg (BitVec.ofNat 64 x)

/-- The value a store takes from its register. -/
def Core.stored (op : LsOp) (c : Core) : Word :=
  match op.file with
  | .g => c.rg op.reg
  | .f => c.rf op.reg

theorem Core.loaded_g {op : LsOp} (h : op.file = .g) {x : Nat} (hx : x < 2 ^ (8 * 2 ^ op.size.val)) (c : Core) :
    c.loaded op x = if op.reg = 0 then c else
      { c with g := c.g.set op.reg (if op.signed = true ∧ 2 ^ (8 * 2 ^ op.size.val - 1) ≤ x then
          BitVec.ofInt 64 ((x : Int) - 2 ^ (8 * 2 ^ op.size.val)) else BitVec.ofNat 64 x) } := by
  rw [Core.loaded, h, ← extendTo_eq op.signed hx]
  rfl

theorem Core.loaded_f {op : LsOp} (h : op.file = .f) (x : Nat) (c : Core) :
    c.loaded op x = { c with f := c.f.set op.reg (BitVec.ofNat 64 x) } := by
  rw [Core.loaded, h]
  rfl

theorem Core.stored_g {op : LsOp} (h : op.file = .g) (c : Core) : c.stored op = c.rg op.reg := by rw [Core.stored, h]

theorem Core.stored_f {op : LsOp} (h : op.file = .f) (c : Core) : c.stored op = c.f[op.reg] := by
  rw [Core.stored, h]
  rfl

theorem Core.loaded_useStep (op : LsOp) (x : Nat) (c : Core) : (c.useStep.loaded op x).next = stepped (c.loaded op x) := by
  rw [Core.useStep_eq, Core.loaded, Core.loaded]
  cases op.file with
  | g => simp only [Core.wg]; split <;> rfl
  | f => rfl

theorem Core.stored_useStep (op : LsOp) (c : Core) : c.useStep.stored op = c.stored op := by
  rw [Core.stored, Core.stored, Core.useStep_rg, Core.useStep_rf]

/-- An access that goes on, with its corrected words counted. -/
theorem retire_countCorrected {s : State} {t : TileId} (k : Nat) {f g : Core → Core} (h : (f (s.core t).useStep).next = stepped (g (s.core t))) :
    ((faultBase s t).countCorrected t k).retire t f = issued s t fun y => Tile.countWords k { y with core := g y.core } := by
  rw [State.countCorrected, State.retire, State.modCore, State.modTile_modTile]
  refine modTile_faultBase ?_
  simp only [h, Tile.countWords]
  rfl

@[simp] theorem State.core_countCorrected (s : State) (t : TileId) (k : Nat) : (s.countCorrected t k).core t = s.core t := by
  rw [State.core, State.countCorrected, State.tile_modTile]
  rfl

section
variable {s : State} {t : TileId} {op : LsOp} {a n : Nat} (k : Nat) (ha : ((s.core t).rg op.base + op.offset).toNat = a)
  (hn : 2 ^ op.size.val = n) (hi : Issues s t)
include ha hn hi

theorem runs_ls_held (hc : accessCause a n = none) (hh : s.accessHeld t op.store (a, n) = true) : Runs s t (.ls t op k) s :=
  runs_stall hi (exec_ls ..) (by rw [ha, hn, hc, hh]; rfl)

theorem runs_ls_fault {cause : Nat} (hc : accessCause a n = some cause) :
    Runs s t (.ls t op k) (((faultBase s t).countCorrected t k).coreFault t cause a) :=
  runs_coreWait hi (exec_ls ..) (by rw [ha, hn, hc]; rfl) (by simp only [ha, hn, hc])

theorem runs_load (hc : accessCause a n = none) (hh : s.accessHeld t op.store (a, n) = false) (hs : op.store = false) :
    Runs s t (.ls t op k) (issued s t fun y => Tile.countWords k { y with core := y.core.loaded op (storeNum s t a n) }) := by
  refine runs_coreWait hi (exec_ls ..) (by rw [ha, hn, hc, hh]; rfl) ?_
  simp only [ha, hn, hc, hs, Bool.false_eq_true, if_false, State.storeLe_eq_storeNum]
  subst hn
  exact retire_countCorrected k (Core.loaded_useStep op _ _)

theorem exec_store (hc : accessCause a n = none) (hh : s.accessHeld t op.store (a, n) = false) (hs : op.store = true)
    (hf : Fetches s t (.ls t op k)) : exec (.ls t op k) s = .next { issued s t (Tile.countWords k) with
      mem := Memory.writeBytes s.mem (tileAddr t + a) (leBytes n ((s.core t).stored op).toNat) } := by
  refine runs_coreWait hi (exec_ls ..) (by rw [ha, hn, hc, hh]; rfl) ?_ hf
  simp only [ha, hn, hc, hs, if_true]
  change State.retire (State.storeWrite _ t a (leBytes n (Core.stored op _).toNat)) t id = _
  rw [State.core_countCorrected, core_faultBase, Core.stored_useStep]
  exact congrArg (fun u : State => { u with mem := Memory.writeBytes s.mem (tileAddr t + a) (leBytes n ((s.core t).stored op).toNat) })
    (retire_countCorrected k (f := id) (g := id) (by rw [Core.useStep_eq]; rfl))

end

/-- Settles O3: the fault and the wait by the cause of the access, a load and a store by the register file they name. -/
theorem loadAndStore : Obligations.LoadAndStore := by
  intro s t op k hi n a held v count
  have hcause (hfit : a + n ≤ 2 ^ 22) (hal : a % n = 0) : accessCause a n = none := accessCause_of_ok hfit hal
  have hv : v < 2 ^ (8 * n) := storeNum_lt s t a n
  refine ⟨fun hfit hal hh => runs_ls_held k rfl rfl hi (hcause hfit hal) hh, fun hfit hal hh hs => ?_, fun hfit hal hh hs hwf hf => ?_,
    fun hout => runs_ls_fault k rfl rfl hi (accessCause_of_outside hout),
    fun hfit hal => runs_ls_fault k rfl rfl hi (accessCause_of_misaligned hfit hal)⟩
  · refine (congrArg (Runs s t _) (congrArg (issued s t) (funext fun y => ?_))).mp (runs_load k rfl rfl hi (hcause hfit hal) hh hs)
    cases hfile : op.file with
    | g => exact congrArg (fun c => count { y with core := c }) (Core.loaded_g hfile hv y.core)
    | f => exact congrArg (fun c => count { y with core := c }) (Core.loaded_f hfile v y.core)
  · refine ⟨_, exec_store k rfl rfl hi (hcause hfit hal) hh hs hf, ?_⟩
    have hstored {x : Word} (hx : (s.core t).stored op = x) :
        Stored s.mem (Memory.writeBytes s.mem (tileAddr t + a) (leBytes n ((s.core t).stored op).toNat)) (tileAddr t + a)
          ((List.range n).map fun i => BitVec.ofNat 8 (x.toNat / 256 ^ i)) := hx ▸ stored_leBytes hwf _ n _
    cases hfile : op.file with
    | g => exact hstored (Core.stored_g hfile _)
    | f => exact hstored (Core.stored_f hfile _)

end Sys2Proof.Machine
end

