-- ==== Sys2Proof/Proofs/EngineIssue.lean ====
section
/-!
PROOFS. The instructions that queue work for a tile's engines: MOPADR, MOP, DMA and those of the update unit (07 R159 to R161; 08 R182, R190,
R204). Each checks its operands in the state in which a single step of debug is used up, where everything it looks at is as before.
-/
namespace Sys2Proof.Machine

open Sys2Proof.Claims

@[simp] theorem tile_faultBase (s : State) (t : TileId) : (faultBase s t).tile t = { s.tile t with core := (s.core t).useStep } := by
  rw [faultBase_eq_modCore, State.tile_modCore]

theorem imageOf_faultBase (s : State) (t : TileId) : (faultBase s t).imageOf t = s.imageOf t := by
  simp only [State.imageOf, progOfTile_faultBase]

/-- The offset of an n-byte record is aligned and inside the store, or the check of it fails. -/
theorem not_offset_bad {off al n : Nat} (hal : off % al = 0) (hfit : off + n ≤ 2 ^ 22) : ¬ (off % al ≠ 0 ∨ tileSize < off + n) := by
  rw [not_or, not_not]
  exact ⟨hal, not_outside hfit⟩

theorem exec_mopadr (t : TileId) (rd rs1 rs2 : RegId) (s : State) : exec (.mopadr t rd rs1 rs2) s = execMopadr t rd rs1 rs2 s := rfl
theorem exec_mop (t : TileId) (rs1 : RegId) (s : State) : exec (.mop t rs1) s = execMop t rs1 s := rfl
theorem exec_dma (t : TileId) (rs1 : RegId) (s : State) : exec (.dma t rs1) s = execDma t rs1 s := rfl
theorem exec_wupd (t : TileId) (rs1 : RegId) (s : State) : exec (.wupd t rs1) s = execWupd t rs1 s := rfl
theorem exec_nclr (t : TileId) (a : Fin 4) (s : State) : exec (.nclr t a) s = execNclr t a s := rfl
theorem exec_nst (t : TileId) (rs1 : RegId) (a : Fin 4) (s : State) : exec (.nst t rs1 a) s = execNst t rs1 a s := rfl
theorem exec_nadd (t : TileId) (rs1 : RegId) (a : Fin 4) (s : State) : exec (.nadd t rs1 a) s = execNadd t rs1 a s := rfl
theorem exec_nsq (t : TileId) (rd rs1 rs2 : RegId) (fmt : BitVec 4) (a : Fin 4) (s : State) :
    exec (.nsq t rd rs1 rs2 fmt a) s = execNsq t rd rs1 rs2 fmt a s := rfl

/-! ### MOPADR and MOP (07 R160) -/

/-- The MOP that an instruction issues. -/
def issuedMop (s : State) (t : TileId) (off : Nat) : QMop :=
  let c := s.core t
  let r := BitVec.ofNat 256 (storeNum s t off 32)
  { record := r, aAddr := (mopAddrs c r).1, bAddr := (mopAddrs c r).2.1, cAddr := (mopAddrs c r).2.2, offset := off, pc := c.pc,
    seq := c.seq, passes := 0, loads := 0, issued := (s.tile t).array.ac, lastAt := 0 }

theorem newMop_faultBase (s : State) (t : TileId) (off : Nat) : (faultBase s t).newMop t off = issuedMop s t off := by
  have hnum : (faultBase s t).storeLe t off 32 = storeNum s t off 32 := State.storeLe_eq_storeNum ..
  simp only [State.newMop, hnum, core_faultBase, tile_faultBase, issuedMop, mopAddrs, Core.useStep_eq]
  cases (s.core t).latch <;> rfl

section
variable {s : State} {t : TileId} {rs1 : RegId} {off : Nat} (hi : Issues s t) (hoff : ((s.core t).rg rs1).toNat = off)
include hi

theorem runs_mopadr (rd rs2 : RegId) : Runs s t (.mopadr t rd rs1 rs2) (retired s t fun c =>
    { c with latch := some ((c.rg rd).setWidth 32, (c.rg rs1).setWidth 32, (c.rg rs2).setWidth 32) }) :=
  runs_coreInstr hi (exec_mopadr ..) (retire_faultBase (by rw [Core.useStep_eq]; rfl))

theorem runs_mop_full (h : 8 ≤ (s.tile t).mops.length) : Runs s t (.mop t rs1) s :=
  runs_stall hi (exec_mop ..) (decide_eq_false (Nat.not_lt.2 h))

include hoff

theorem runs_mop_offset (h : (s.tile t).mops.length < 8) (hbad : off % 32 ≠ 0 ∨ 2 ^ 22 < off + 32) :
    Runs s t (.mop t rs1) ((faultBase s t).coreFault t 0x4 off) := by
  refine runs_coreWait hi (exec_mop ..) (decide_eq_true h) ?_
  simp only [core_faultBase, Core.useStep_rg, hoff]
  exact if_pos hbad

/-- Past the check of its offset a MOP's record is checked. -/
theorem runs_mop_record (h : (s.tile t).mops.length < 8) (hal : off % 32 = 0) (hfit : off + 32 ≤ 2 ^ 22) {o : Option Nat} {u : State}
    (hu : (match o with
      | some k => ((faultBase s t).modCore t fun c => { c with latch := none }).tileFault t .mop k off (s.core t).pc false
      | none => issued s t fun y => { y with
          mops := y.mops ++ [issuedMop s t off]
          core := { y.core with latch := none, missued := y.core.missued + 1, seq := y.core.seq + 1 } }) = u)
    (ho : s.mopCheck t (issuedMop s t off) = o) : Runs s t (.mop t rs1) u := by
  refine runs_coreWait hi (exec_mop ..) (decide_eq_true h) (Eq.trans ?_ hu)
  simp only [core_faultBase, Core.useStep_rg, hoff, newMop_faultBase]
  rw [if_neg (not_offset_bad hal hfit)]
  have hcheck : ((faultBase s t).modCore t fun c => { c with latch := none }).mopCheck t (issuedMop s t off) =
    s.mopCheck t (issuedMop s t off) := rfl
  rw [hcheck, ho]
  cases o with
  | some k => rfl
  | none =>
    simp only [State.modCore, State.modTile_modTile]
    exact modTile_faultBase (by rw [Core.useStep_eq]; rfl)

/-! ### DMA (07 R161) -/

omit hoff in
theorem runs_dma_full (h : 16 ≤ (s.tile t).dmas.length) : Runs s t (.dma t rs1) s :=
  runs_stall hi (exec_dma ..) (decide_eq_false (Nat.not_lt.2 h))

theorem runs_dma_offset (h : (s.tile t).dmas.length < 16) (hbad : off % 64 ≠ 0 ∨ 2 ^ 22 < off + 64) :
    Runs s t (.dma t rs1) ((faultBase s t).coreFault t 0x4 off) := by
  refine runs_coreWait hi (exec_dma ..) (decide_eq_true h) ?_
  simp only [core_faultBase, Core.useStep_rg, hoff]
  exact if_pos hbad

/-- The transfer that an instruction issues. -/
def issuedDma (s : State) (t : TileId) (off : Nat) : QDma :=
  { desc := BitVec.ofNat 512 (storeNum s t off 64), vtid := (s.core t).vtid, veidx := (s.core t).veidx, offset := off, pc := (s.core t).pc,
    seq := (s.core t).seq, ran := false }

/-- Past the check of its offset a transfer's descriptor is checked. -/
theorem runs_dma_record (h : (s.tile t).dmas.length < 16) (hal : off % 64 = 0) (hfit : off + 64 ≤ 2 ^ 22) {o : Option Nat} {u : State}
    (hu : (match o with
      | some k => (faultBase s t).tileFault t .dma k off (s.core t).pc false
      | none => issued s t fun y => { y with
          dmas := y.dmas ++ [issuedDma s t off]
          core := { y.core with dissued := y.core.dissued + 1, seq := y.core.seq + 1 } }) = u)
    (ho : ((s.partOfTile t).bind fun p => s.dmaCheck p (dmaOf (issuedDma s t off).desc)) = o) : Runs s t (.dma t rs1) u := by
  have hnum : (faultBase s t).storeLe t off 64 = storeNum s t off 64 := State.storeLe_eq_storeNum ..
  refine runs_coreWait hi (exec_dma ..) (decide_eq_true h) (Eq.trans ?_ hu)
  simp only [core_faultBase, Core.useStep_rg, hoff, hnum]
  rw [if_neg (not_offset_bad hal hfit)]
  have hcheck : ((faultBase s t).partOfTile t).bind (fun p => (faultBase s t).dmaCheck p (dmaOf (BitVec.ofNat 512 (storeNum s t off 64)))) =
    (s.partOfTile t).bind fun p => s.dmaCheck p (dmaOf (issuedDma s t off).desc) := rfl
  rw [hcheck, ho]
  cases o with
  | some k => simp only [Core.useStep_pc]
  | none => exact modTile_faultBase (by simp only [Core.useStep_eq]; rfl)

end

/-! ### The update queue (08 R182) -/

theorem pushUpd_faultBase (s : State) (t : TileId) (op : UpdOp) (off : Nat) : (faultBase s t).pushUpd t op off = issued s t fun y => { y with
    upds := y.upds ++ [{ op := op, offset := off, pc := (s.core t).pc, seq := (s.core t).seq, ran := false }]
    core := { y.core with uissued := y.core.uissued + 1, seq := y.core.seq + 1 } } :=
  modTile_faultBase (by simp only [Core.useStep_eq]; rfl)

section
variable {s : State} {t : TileId} {i : Instr} {m : String} {eff : State → State}

theorem runs_upd_full (hi : Issues s t) (he : exec i s = updInstr m i t s eff) (h : 4 ≤ (s.tile t).upds.length) : Runs s t i s :=
  runs_stall hi he (decide_eq_false (Nat.not_lt.2 h))

theorem runs_upd {u : State} (hi : Issues s t) (he : exec i s = updInstr m i t s eff) (h : (s.tile t).upds.length < 4)
    (hu : eff (faultBase s t) = u) : Runs s t i u :=
  runs_coreWait hi he (decide_eq_true h) hu

end

section
variable {s : State} {t : TileId} {rs1 : RegId} {off : Nat} (hi : Issues s t) (hroom : (s.tile t).upds.length < 4)
include hi hroom

theorem runs_nclr (a : Fin 4) : Runs s t (.nclr t a) (issued s t fun y => { y with
    upds := y.upds ++ [{ op := .nclr a, offset := 0, pc := (s.core t).pc, seq := (s.core t).seq, ran := false }]
    core := { y.core with uissued := y.core.uissued + 1, seq := y.core.seq + 1 } }) :=
  runs_upd hi (exec_nclr ..) hroom (pushUpd_faultBase ..)

theorem runs_wupd_region (h : (s.core t).region ≠ none) : Runs s t (.wupd t rs1) ((faultBase s t).coreFault t 0x8 0) := by
  refine runs_upd hi (exec_wupd ..) hroom ?_
  simp only [core_faultBase, Core.useStep_region]
  exact if_pos (Option.isSome_iff_ne_none.2 h)

variable (hoff : ((s.core t).rg rs1).toNat = off)
include hoff

theorem runs_wupd_offset (h : (s.core t).region = none) (hbad : off % 128 ≠ 0 ∨ 2 ^ 22 < off + 128) :
    Runs s t (.wupd t rs1) ((faultBase s t).coreFault t 0x4 off) := by
  refine runs_upd hi (exec_wupd ..) hroom ?_
  simp only [core_faultBase, Core.useStep_region, Core.useStep_rg, hoff, h]
  exact if_pos hbad

/-- Past the check of its offset an update's descriptor is checked. -/
theorem runs_wupd_record (h : (s.core t).region = none) (hal : off % 128 = 0) (hfit : off + 128 ≤ 2 ^ 22) {o : Option Nat} {u : State}
    (hu : (match o with
      | some k => (faultBase s t).tileFault t .upd k off (s.core t).pc false
      | none => (faultBase s t).pushUpd t (.wupd (BitVec.ofNat 1024 (storeNum s t off 128))) off) = u)
    (ho : ((s.partOfTile t).bind fun p => s.wupdCheck p (s.imageOf t) (wupdOf (BitVec.ofNat 1024 (storeNum s t off 128)))) = o) :
    Runs s t (.wupd t rs1) u := by
  have hnum : (faultBase s t).storeLe t off 128 = storeNum s t off 128 := State.storeLe_eq_storeNum ..
  refine runs_upd hi (exec_wupd ..) hroom (Eq.trans ?_ hu)
  simp only [core_faultBase, Core.useStep_region, Core.useStep_rg, Core.useStep_pc, hoff, h, hnum, imageOf_faultBase]
  rw [← ho]
  exact if_neg (not_offset_bad hal hfit)

theorem runs_nst (a : Fin 4) {u : State} (hu : (if off % 64 ≠ 0 ∨ tileSize < off + 128 then (faultBase s t).coreFault t 0x4 off
    else (faultBase s t).pushUpd t (.nst off a) off) = u) : Runs s t (.nst t rs1 a) u := by
  refine runs_upd hi (exec_nst ..) hroom (Eq.trans ?_ hu)
  simp only [core_faultBase, Core.useStep_rg, hoff]

theorem runs_nadd (a : Fin 4) {u : State} (hu : (if off % 64 ≠ 0 ∨ tileSize < off + 128 then (faultBase s t).coreFault t 0x4 off
    else (faultBase s t).pushUpd t (.nadd off a) off) = u) : Runs s t (.nadd t rs1 a) u := by
  refine runs_upd hi (exec_nadd ..) hroom (Eq.trans ?_ hu)
  simp only [core_faultBase, Core.useStep_rg, hoff]

theorem runs_nsq (a : Fin 4) (rd rs2 : RegId) (fmt : BitVec 4) {u : State}
    (hu : (if off % fmtBytes fmt.toNat ≠ 0 ∨ tileSize < off + ((s.core t).rg rs2).toNat * fmtBytes fmt.toNat then
        (faultBase s t).tileFault t .upd 0x6 off (s.core t).pc false
      else if (fmt = 4 ∨ fmt = 5) ∧ !fp64Scale ((s.core t).rf rd) then (faultBase s t).tileFault t .upd 0x9 off (s.core t).pc false
      else (faultBase s t).pushUpd t (.nsq off ((s.core t).rg rs2).toNat ((s.core t).rf rd) fmt a) off) = u) :
    Runs s t (.nsq t rd rs1 rs2 fmt a) u := by
  refine runs_upd hi (exec_nsq ..) hroom (Eq.trans ?_ hu)
  simp only [core_faultBase, Core.useStep_rg, Core.useStep_rf, Core.useStep_pc, hoff]

end

/-- Settles O5, instruction by instruction: the checks in their order, and the place in the queue. -/
theorem engineIssue : Obligations.EngineIssue := by
  intro s t rs1 hi y c off q d upd
  refine ⟨fun rd rs2 => runs_mopadr hi rd rs2, runs_mop_full hi, fun k h hal hfit hk => ?_, fun k p h hal hfit hp hk => ?_,
    runs_wupd_region hi, fun h => runs_wupd_offset hi h rfl, fun k p h hr hal hfit hp hk => ?_, fun a h hbad => ?_,
    fun a rd rs2 fmt h => ⟨fun hbad => ?_, fun hal hfit hfmt hsc => ?_⟩, runs_mop_offset hi rfl, fun h hal hfit hk => ?_,
    runs_dma_full hi, runs_dma_offset hi rfl, fun h hal hfit hk => ?_, fun h hr hal hfit hk => ?_,
    fun a h => ⟨runs_nclr hi h a, fun hal hfit => ?_, fun rd rs2 fmt hal hfit hsc => ?_⟩, fun a rd rs2 fmt h => ?_⟩
  · exact runs_mop_record hi rfl h hal hfit rfl hk
  · exact runs_dma_record hi rfl h hal hfit (o := some k) rfl (by rw [hp]; exact hk)
  · exact runs_wupd_record hi h rfl hr hal hfit (o := some k) rfl (by rw [hp]; exact hk)
  · exact ⟨runs_nst hi h rfl a (if_pos hbad), runs_nadd hi h rfl a (if_pos hbad)⟩
  · exact runs_nsq hi h rfl a rd rs2 fmt (if_pos hbad)
  · exact runs_nsq hi h rfl a rd rs2 fmt ((if_neg (not_offset_bad hal hfit)).trans (if_pos ⟨hfmt, by rw [hsc]; rfl⟩))
  · exact runs_mop_record hi rfl h hal hfit rfl hk
  · exact runs_dma_record hi rfl h hal hfit rfl (Option.bind_eq_none_iff.2 hk)
  · exact runs_wupd_record hi h rfl hr hal hfit (o := none) (pushUpd_faultBase ..) (Option.bind_eq_none_iff.2 hk)
  · have hok := not_offset_bad hal hfit
    exact ⟨runs_nst hi h rfl a ((if_neg hok).trans (pushUpd_faultBase ..)), runs_nadd hi h rfl a ((if_neg hok).trans (pushUpd_faultBase ..))⟩
  · refine runs_nsq hi h rfl a rd rs2 fmt ((if_neg (not_offset_bad hal hfit)).trans ((if_neg ?_).trans (pushUpd_faultBase ..)))
    rintro ⟨hfmt, hbad⟩
    rw [hsc hfmt] at hbad
    exact absurd hbad (by decide)
  · exact ⟨runs_upd_full hi (exec_wupd ..) h, runs_upd_full hi (exec_nclr ..) h, runs_upd_full hi (exec_nst ..) h,
      runs_upd_full hi (exec_nadd ..) h, runs_upd_full hi (exec_nsq ..) h⟩

end Sys2Proof.Machine
end

