-- ==== Sys2Proof/Proofs/StatusRegisters.lean ====
section
/-!
PROOFS. Core status registers, VCLAIM and the sleep of the long-vector unit (07 R165, R172, R176).
-/
namespace Sys2Proof.Machine

open Sys2Proof.Claims

theorem exec_csrr (t : TileId) (rd : RegId) (csr : Csr) (s : State) : exec (.csrr t rd csr) s = execCsrr t rd csr s := rfl
theorem exec_csrw (t : TileId) (csr : Csr) (rs1 : RegId) (s : State) : exec (.csrw t csr rs1) s = execCsrw t csr rs1 s := rfl
theorem exec_vclaim (t : TileId) (rd rs1 : RegId) (ew : Ew) (grp : Grp) (s : State) :
    exec (.vclaim t rd rs1 ew grp) s = execVclaim t rd rs1 ew grp s := rfl
theorem exec_vectorSleep (t : TileId) (s : State) : exec (.vectorSleep t) s = execVectorSleep t s := rfl

theorem readCsr_faultBase (s : State) (t : TileId) (csr : Csr) : (faultBase s t).readCsr t csr = s.readCsr t csr := by
  simp only [State.readCsr, core_faultBase, Core.useStep_eq]
  rfl

theorem word_of_bool (b : Bool) : (if b then 1 else 0 : Word) = BitVec.ofNat 64 (b2n b) := by cases b <;> rfl

/-- A tile's copy of the counter is that of its compute die. -/
theorem die_of_tile (t : TileId) : (dieOf (sheafOf t)).val = 0 ↔ t.val < 64 := by
  simp only [dieOf, sheafOf]
  omega

theorem grantVl_eq (req : Nat) (ew : Ew) (grp : Grp) :
    grantVl req ew grp = min req (2048 * (match grp with | .g1 => 1 | .g2 => 2 | .g4 => 4 | .g8 => 8) / ewBits ew) := by
  cases grp <;> rfl

/-- VSTAT is written 1 to clear. -/
theorem Core.writeCsr_vstat (c : Core) (x : Word) : c.writeCsr .vstat x = { c with vsat := c.vsat && !bit x 0 } := by
  rw [Core.writeCsr]
  cases bit x 0 with
  | true => simp
  | false => simp

/-- VIDLE keeps its value where the new one is out of its range. -/
theorem Core.writeCsr_vidle (c : Core) (x : Word) : c.writeCsr .vidle x =
    { c with vidle := if x = 0 ∨ (64 ≤ x.toNat ∧ x.toNat ≤ 65535) then x.setWidth 16 else c.vidle } := by
  rw [Core.writeCsr]
  split <;> rfl

section
variable {s : State} {t : TileId} {rs1 : RegId} (hi : Issues s t)
include hi

theorem runs_csrr {rd : RegId} {csr : Csr} {v : Word} (hv : s.readCsr t csr = v) :
    Runs s t (.csrr t rd csr) (retired s t fun c => if rd = 0 then c else { c with g := c.g.set rd v }) :=
  runs_coreInstr hi (exec_csrr ..) (retire_wg_faultBase (by rw [readCsr_faultBase, hv]))

/-- A write of a register that leaves the single steps of debug alone. -/
theorem runs_csrw {csr : Csr} {f : Core → Core} (h : (((s.core t).useStep).writeCsr csr ((s.core t).rg rs1)).next = stepped (f (s.core t))) :
    Runs s t (.csrw t csr rs1) (retired s t f) := by
  refine runs_coreInstr hi (exec_csrw ..) ?_
  exact retire_faultBase (by rw [Core.useStep_rg, h])

theorem runs_vclaim (rd : RegId) (ew : Ew) (grp : Grp) {n : Nat} (hn : grantVl ((s.core t).rg rs1).toNat ew grp = n) :
    Runs s t (.vclaim t rd rs1 ew grp) (retired s t fun c =>
      { c with g := if rd = 0 then c.g else c.g.set rd (BitVec.ofNat 64 n), vl := BitVec.ofNat 12 n, vew := ewCode ew, vgrp := grpCode grp }) := by
  refine runs_coreInstr hi (exec_vclaim ..) ?_
  refine retire_faultBase ?_
  simp only [Core.useStep_rg, hn]
  by_cases hrd : rd = 0
  · simp only [Core.useStep_eq, Core.wg, hrd, if_true]
    rfl
  · simp only [Core.useStep_eq, Core.wg, hrd, if_false]
    rfl

end

/-- Settles O9, register by register. -/
theorem statusRegisters : Obligations.StatusRegisters := by
  intro s t c
  refine ⟨?_, fun hawake hidle => whenDue_of_due _ _ ?_, fun h => whenDue_of_not_due _ _ ?_⟩
  · intro hi rd rs1 csr ew grp v x n
    refine ⟨runs_csrr hi ?_, runs_csrw hi ?_, runs_csrw hi ?_, runs_csrw hi ?_, runs_csrw hi ?_, ?_⟩
    · cases csr
      case gtime => exact if_congr (die_of_tile t) rfl rfl
      case vstat => exact word_of_bool _
      case vidle => exact (BitVec.ofNat_toNat ..).symm
      all_goals rfl
    · rw [Core.useStep_eq, Core.writeCsr_vstat]
      rfl
    · rw [Core.useStep_eq, Core.writeCsr_vidle]
      rfl
    · rw [Core.useStep_eq]
      rfl
    · rw [Core.useStep_eq]
      rfl
    · have hclaim := runs_vclaim hi rd ew grp (grantVl_eq (c.rg rs1).toNat ew grp)
      cases ew <;> cases grp <;> exact hclaim
  · rw [show (s.core t).awake = true from hawake, decide_eq_true hidle, Bool.and_self]
  · rcases h with h | h
    · rw [show (s.core t).awake = false from h, Bool.false_and]
    · rw [decide_eq_false (not_not.2 h), Bool.and_false]

end Sys2Proof.Machine
end

