-- ==== Sys2Proof/Proofs/ReplayRegions.lean ====
section
/-!
PROOFS. HALT, replay regions and recomputation spans (07 R166; 08 R200 to R205).
-/
namespace Sys2Proof.Machine

open Sys2Proof.Claims

theorem exec_halt (t : TileId) (s : State) : exec (.halt t) s = execHalt t s := rfl
theorem exec_rbegin (t : TileId) (rs1 rs2 : RegId) (s : State) : exec (.rbegin t rs1 rs2) s = execRbegin t rs1 rs2 s := rfl
theorem exec_rcheck (t : TileId) (s : State) : exec (.rcheck t) s = execRcheck t s := rfl
theorem exec_rcmpb (t : TileId) (s : State) : exec (.rcmpb t) s = execRcmpb t s := rfl
theorem exec_rcmpe (t : TileId) (s : State) : exec (.rcmpe t) s = execRcmpe t s := rfl

theorem issuedDone_iff (s : State) (t : TileId) :
    s.issuedDone t = true ↔ (s.tile t).mops = [] ∧ (s.tile t).dmas = [] ∧ (s.tile t).upds = [] := by
  simp only [State.issuedDone, Bool.and_eq_true, List.isEmpty_iff, and_assoc]

@[simp] theorem regionRec_faultBase (s : State) (t : TileId) (rid : Nat) : (faultBase s t).regionRec t rid = s.regionRec t rid := by
  simp only [State.regionRec, progOfTile_faultBase]

theorem rungTable_faultBase (s : State) (t : TileId) (a : Nat) :
    (faultBase s t).rungTable t a = (List.range 4).map fun i => BitVec.ofNat 32 (storeNum s t (a + 4 * i) 4) := by
  simp only [State.rungTable, State.storeLe_eq_storeNum]
  rfl

/-- The module that a reference names, as the operation carries it. -/
theorem sentOp_eq (s : State) (t : TileId) (p : Pid) (ref : Word) (op : SyncOp) (ordered reply : Bool) :
    sentOp s t p ref op ordered reply =
    { id := s.sync.nextId, src := t, pid := p, remote := s.refRemote ref, index := refIndex ref, op := op
      needM := if ordered then (s.core t).missued else 0, needD := if ordered then (s.core t).dissued else 0
      needU := if ordered then (s.core t).uissued else 0, issue := s.now, reply := reply
      needX := match s.refRemote ref with | none => 0 | some m => ((s.peer p m).map (·.xfers)).getD 0 } := by
  rw [sentOp, State.refRemote]
  cases bit ref 63 && decide (bits ref 47 32 ≠ s.links.modId.toNat) <;> rfl

/-- The operation an instruction hands to the fabric, from the state with the single step used up. -/
theorem sendSync_faultBase (s : State) (t : TileId) (p : Pid) (ref : Word) (op : SyncOp) (r : Option Resume) :
    (faultBase s t).sendSync t p ref op r = sent s t (sentOp s t p ref op (opOrdered op) r.isSome) r := by
  rw [sentOp_eq]
  cases r with
  | none =>
    rw [sent, ← retire_id_faultBase]
    simp only [State.sendSync, core_faultBase, Core.useStep_eq]
    rfl
  | some k =>
    simp only [State.sendSync, core_faultBase, Core.useStep_eq]
    rfl

section
variable {s : State} {t : TileId} (hi : Issues s t)
include hi

/-! ### HALT (07 R166) -/

theorem runs_halt (hr : (s.core t).region = none) (hd : s.issuedDone t = true) :
    Runs s t (.halt t) (((faultBase s t).freeSent t).modCore t fun c => { c with status := .halted }) := by
  refine runs_coreWait hi (exec_halt ..) (by rw [hd, Bool.or_true]) ?_
  rw [core_faultBase, Core.useStep_region, hr]
  rfl

theorem runs_halt_wait (hr : (s.core t).region = none) (hd : s.issuedDone t = false) : Runs s t (.halt t) s :=
  runs_stall hi (exec_halt ..) (by rw [hr, hd]; rfl)

theorem runs_halt_region (hr : (s.core t).region ≠ none) : Runs s t (.halt t) ((faultBase s t).coreFault t 0x8 0) := by
  have hsome := Option.isSome_iff_ne_none.2 hr
  refine runs_coreWait hi (exec_halt ..) (by rw [hsome, Bool.true_or]) ?_
  rw [core_faultBase, Core.useStep_region, if_pos hsome]

/-! ### RBEGIN (08 R200) -/

section
variable {rs1 rs2 : RegId} {rid a : Nat} (hrid : ((s.core t).rg rs1).toNat = rid)
include hrid

theorem runs_rbegin_bad (h : (s.core t).region ≠ none ∨ s.regionRec t rid = none) :
    Runs s t (.rbegin t rs1 rs2) ((faultBase s t).coreFault t 0x8 0) := by
  have hbad : ((s.core t).region.isSome || (s.regionRec t rid).isNone) = true := by
    rw [Bool.or_eq_true, Option.isSome_iff_ne_none, Option.isNone_iff_eq_none]
    exact h
  refine runs_coreWait hi (exec_rbegin ..) ?_ ?_
  · rw [hrid, hbad, Bool.true_or, Bool.true_or, Bool.true_or]
  · rw [hrid, if_pos hbad]

/-- A region may begin: the core is in none and the RID is known. -/
def beginsRegion (s : State) (t : TileId) (rid : Nat) : Prop := ((s.core t).region.isSome || (s.regionRec t rid).isNone) = false

variable (ha : ((s.core t).rg rs2).toNat = a)
include ha

theorem runs_rbegin_outside (hok : beginsRegion s t rid) (h : 2 ^ 22 < a + 16) :
    Runs s t (.rbegin t rs1 rs2) ((faultBase s t).coreFault t 0x2 a) := by
  have hout : tileSize < a + 16 := h
  refine runs_coreWait hi (exec_rbegin ..) ?_ ?_
  · rw [ha, decide_eq_true hout, Bool.or_true, Bool.true_or, Bool.true_or]
  · rw [hrid, ha, hok, if_neg Bool.false_ne_true, if_pos hout]

theorem runs_rbegin_misaligned (hok : beginsRegion s t rid) (hfit : a + 16 ≤ 2 ^ 22) (h : a % 16 ≠ 0) :
    Runs s t (.rbegin t rs1 rs2) ((faultBase s t).coreFault t 0x3 a) := by
  refine runs_coreWait hi (exec_rbegin ..) ?_ ?_
  · rw [ha, decide_eq_true h, Bool.or_true, Bool.true_or]
  · rw [hrid, ha, hok, if_neg Bool.false_ne_true, if_neg (not_outside hfit), if_pos h]

theorem runs_rbegin_held (hok : beginsRegion s t rid) (hfit : a + 16 ≤ 2 ^ 22) (hal : a % 16 = 0)
    (h : s.accessHeld t false (a, 16) = true) : Runs s t (.rbegin t rs1 rs2) s := by
  refine runs_stall hi (exec_rbegin ..) ?_
  rw [hrid, ha, hok, decide_eq_false (not_outside hfit), decide_eq_false (not_not.2 hal), h]
  rfl

theorem runs_rbegin (hok : beginsRegion s t rid) (hfit : a + 16 ≤ 2 ^ 22) (hal : a % 16 = 0)
    (h : s.accessHeld t false (a, 16) = false) : Runs s t (.rbegin t rs1 rs2) (retired s t fun c =>
      { c with region := some { rid := BitVec.ofNat 16 rid, rung := 0
                                table := (List.range 4).map fun i => BitVec.ofNat 32 (storeNum s t (a + 4 * i) 4)
                                snapG := c.g, snapF := c.f, flag := false } }) := by
  refine runs_coreWait hi (exec_rbegin ..) ?_ ?_
  · rw [ha, h, Bool.not_false, Bool.or_true]
  · rw [hrid, ha, hok, if_neg Bool.false_ne_true, if_neg (not_outside hfit), if_neg (not_not.2 hal), rungTable_faultBase]
    exact retire_faultBase (by rw [Core.useStep_eq]; rfl)

end

/-! ### RCHECK (08 R201, R203) -/

theorem runs_rcheck_none (hr : (s.core t).region = none) : Runs s t (.rcheck t) ((faultBase s t).coreFault t 0x8 0) := by
  refine runs_coreWait hi (exec_rcheck ..) (by rw [hr]; rfl) ?_
  rw [core_faultBase, Core.useStep_region, hr]

theorem runs_rcheck_unknown {g : Region} (hr : (s.core t).region = some g) (hrec : s.regionRec t g.rid.toNat = none)
    (hd : s.issuedDone t = true) : Runs s t (.rcheck t) ((faultBase s t).coreFault t 0x8 0) := by
  refine runs_coreWait hi (exec_rcheck ..) (by rw [hd, Bool.or_true]) ?_
  simp only [core_faultBase, Core.useStep_region, hr, regionRec_faultBase]
  cases (faultBase s t).partOfTile t with
  | none => rfl
  | some p => simp only [hrec]

theorem runs_rcheck {g : Region} {r : RegionRec} {p : Pid} (hr : (s.core t).region = some g) (hp : s.partOfTile t = some p)
    (hrec : s.regionRec t g.rid.toNat = some r) (hd : s.issuedDone t = true) : Runs s t (.rcheck t)
      (sent s t (sentOp s t p (BitVec.ofNat 64 r.bar) (.arrive g.flag) true true) (some .rcheck)) := by
  refine runs_coreWait hi (exec_rcheck ..) (by rw [hd, Bool.or_true]) ?_
  have hp' : (faultBase s t).partOfTile t = some p := hp
  simp only [core_faultBase, Core.useStep_region, hr, hp', regionRec_faultBase, hrec]
  exact sendSync_faultBase ..

theorem runs_rcheck_wait {g : Region} (hr : (s.core t).region = some g) (hd : s.issuedDone t = false) : Runs s t (.rcheck t) s :=
  runs_stall hi (exec_rcheck ..) (by rw [hr, hd]; rfl)

/-! ### RCMPB and RCMPE (08 R205) -/

theorem runs_rcmpb : Runs s t (.rcmpb t)
    (if (s.core t).span then (faultBase s t).coreFault t 0x8 0 else retired s t fun c => { c with span := true }) := by
  refine runs_coreInstr hi (exec_rcmpb ..) ?_
  rw [core_faultBase, Core.useStep_span]
  exact if_congr Iff.rfl rfl (retire_faultBase (by rw [Core.useStep_eq]; rfl))

theorem runs_rcmpe : Runs s t (.rcmpe t)
    (if (s.core t).span then retired s t fun c => { c with span := false } else (faultBase s t).coreFault t 0x8 0) := by
  refine runs_coreInstr hi (exec_rcmpe ..) ?_
  rw [core_faultBase, Core.useStep_span]
  exact if_congr Iff.rfl (retire_faultBase (by rw [Core.useStep_eq]; rfl)) rfl

end

/-- Settles O10, instruction by instruction. -/
theorem haltAndRegions : Obligations.HaltAndRegions := by
  intro s t hi c y idle fault
  have hidle : s.issuedDone t = true ↔ idle := issuedDone_iff s t
  have hbusy (h : ¬ idle) : s.issuedDone t = false := eq_false_of_ne_true (mt hidle.1 h)
  refine ⟨fun hr hd => runs_halt hi hr (hidle.2 hd), fun hr hd => runs_halt_wait hi hr (hbusy hd), runs_halt_region hi,
    fun rs1 rs2 r => ?_, fun g hr hrec hd => runs_rcheck_unknown hi hr hrec (hidle.2 hd),
    fun g r p hr hp hrec => ⟨fun hd => runs_rcheck hi hr hp hrec (hidle.2 hd), fun hd => runs_rcheck_wait hi hr (hbusy hd)⟩,
    runs_rcheck_none hi, runs_rcmpb hi, runs_rcmpe hi⟩
  intro rid a
  have hok (hr : c.region = none) (hrec : s.regionRec t rid = some r) : beginsRegion s t rid := by
    rw [beginsRegion, show (s.core t).region = none from hr, hrec]
    rfl
  exact ⟨fun hr hrec hfit hal hh => runs_rbegin hi rfl rfl (hok hr hrec) hfit hal hh, runs_rbegin_bad hi rfl, fun hr hrec =>
    ⟨runs_rbegin_outside hi rfl rfl (hok hr hrec), runs_rbegin_misaligned hi rfl rfl (hok hr hrec),
      runs_rbegin_held hi rfl rfl (hok hr hrec)⟩⟩

end Sys2Proof.Machine
end

