-- ==== Sys2Proof/Proofs/SolveIssue.lean ====
section
/-!
PROOFS. SOLVE and SWAIT (07 R162, R163).
-/
namespace Sys2Proof.Machine

open Sys2Proof.Claims

theorem exec_solve (t : TileId) (rs1 : RegId) (s : State) : exec (.solve t rs1) s = execSolve t rs1 s := rfl
theorem exec_swait (t : TileId) (rs1 rs2 : RegId) (s : State) : exec (.swait t rs1 rs2) s = execSwait t rs1 rs2 s := rfl

/-! ### SOLVE (07 R162) -/

theorem solveRecord_faultBase (s : State) (t : TileId) (off : Nat) :
    (faultBase s t).solveRecord t off = BitVec.ofNat 512 (storeNum s t off 64) :=
  congrArg (BitVec.ofNat 512) (s.storeLe_eq_storeNum t off 64)

theorem solveTarget_faultBase (s : State) (t : TileId) (off : Nat) : (faultBase s t).solveTarget t off = s.solveTarget t off := by
  have hrec : (faultBase s t).solveRecord t off = s.solveRecord t off := rfl
  have hpart : (faultBase s t).partOfTile t = s.partOfTile t := rfl
  simp only [State.solveTarget, State.solveChan, hrec, hpart, progOfTile_faultBase, core_faultBase, Core.useStep_lsheaf]
  rfl

/-- A channel with one more record; its watch starts when it was idle. -/
theorem enqueue_eq (c : Channel) (q : QSolve) (now : Nat) : c.enqueue q now =
    { c with queue := c.queue ++ [q], tStart := if c.queue = [] then some now else c.tStart } := by
  simp only [Channel.enqueue, List.isEmpty_iff]

theorem retire_modChan (s : State) (t : TileId) (e : EngId) (c : ChanId) (f : Channel → Channel) (g : Core → Core) :
    (s.modChan e c f).retire t g = (s.retire t g).modChan e c f := rfl

section
variable {s : State} {t : TileId} {rs1 : RegId} {off : Nat} (hi : Issues s t) (hoff : ((s.core t).rg rs1).toNat = off)
include hi

theorem runs_solve_region (h : (s.core t).region ≠ none) : Runs s t (.solve t rs1) ((faultBase s t).coreFault t 0x8 0) := by
  have hsome := Option.isSome_iff_ne_none.2 h
  refine runs_coreWait hi (exec_solve ..) (by rw [State.solveReady, hsome]; rfl) ?_
  rw [core_faultBase, Core.useStep_region, if_pos hsome]

variable (hr : (s.core t).region = none)
include hoff hr

theorem runs_solve_offset (h : off % 64 ≠ 0 ∨ 2 ^ 22 < off + 64) : Runs s t (.solve t rs1) ((faultBase s t).coreFault t 0x4 off) := by
  have hbad : off % 64 ≠ 0 ∨ tileSize < off + 64 := h
  refine runs_coreWait hi (exec_solve ..) ?_ ?_
  · rw [hoff, State.solveReady, hr, Option.isSome_none, Bool.false_or, ← Bool.decide_or, decide_eq_true hbad, Bool.true_or]
  · rw [core_faultBase, Core.useStep_region, hr, hoff, if_neg (by decide), if_pos hbad]

variable (hal : off % 64 = 0) (hfit : off + 64 ≤ 2 ^ 22)
include hal hfit

omit hi hoff in
/-- With an aligned record inside the store, SOLVE waits for the tile's transfers and for room. -/
theorem solveReady_eq : s.solveReady t off = ((s.tile t).dmas.isEmpty && match s.solveTarget t off with
    | none => true
    | some m => decide ((s.chan m.eng m.ch).queue.length < 16)) := by
  rw [State.solveReady, hr, decide_eq_false (not_not.2 hal), decide_eq_false (not_outside hfit)]
  rfl

omit hi hoff in
theorem solveReady_of_target {m : ChanMap} (ho : s.solveTarget t off = some m) :
    s.solveReady t off = ((s.tile t).dmas.isEmpty && decide ((s.chan m.eng m.ch).queue.length < 16)) := by
  rw [solveReady_eq hr hal hfit, ho]

/-- Once it is ready, it looks at what its record names. -/
theorem runs_solve_target {o : Option ChanMap} {u : State} (hready : s.solveReady t off = true) (hu : (match o with
      | none => (faultBase s t).coreFault t 0xB off
      | some m => (retired s t id).modChan m.eng m.ch fun c => { c with
          queue := c.queue ++ [{ record := BitVec.ofNat 512 (storeNum s t off 64), issuer := .tile t }]
          tStart := if c.queue = [] then some s.now else c.tStart }) = u) (ho : s.solveTarget t off = o) :
    Runs s t (.solve t rs1) u := by
  refine runs_coreWait hi (exec_solve ..) (by rw [hoff, hready]) (Eq.trans ?_ hu)
  rw [core_faultBase, Core.useStep_region, hr, hoff, if_neg (by decide), if_neg (not_offset_bad hal hfit), solveTarget_faultBase, ho]
  cases o with
  | none => rfl
  | some m =>
    simp only [solveRecord_faultBase, enqueue_eq, retire_modChan, retire_id_faultBase]
    rfl

end

/-! ### SWAIT (07 R163) -/

theorem retire_storeWrite_faultBase (s : State) (t : TileId) (a : Nat) (bs : List Byte) : ((faultBase s t).storeWrite t a bs).retire t id =
    { retired s t id with mem := Memory.writeBytes s.mem (tileAddr t + a) bs } := by
  rw [← retire_id_faultBase]
  rfl

section
variable {s : State} {t : TileId} {rs1 rs2 : RegId} {p : Pid} {a d : Nat} (hi : Issues s t) (hp : s.partOfTile t = some p)
  (ha : ((s.core t).rg rs1).toNat = a) (hd : ((s.core t).rg rs2).toNat = d)

include hp in
theorem swaitBad_iff : s.swaitBad t a d = true ↔ a % 64 ≠ 0 ∨ d % 64 ≠ 0 ∨ 2 ^ 22 < d + 64 ∨ (s.part p).siloSize < a + 64 := by
  simp only [State.swaitBad, hp, Part.inSilo, Bool.or_eq_true, decide_eq_true_eq, Bool.not_eq_true', decide_eq_false_iff_not, Nat.not_le,
    or_assoc]
  rfl

include hp in
theorem swaitReady_eq : s.swaitReady t a d =
    (s.siloFenced p a 64 || s.siloBad p a 64 || (decide (s.siloLe p a 8 % 2 = 1) && !s.accessHeld t true (d, 64))) := by
  rw [State.swaitReady, hp]

include hp in
theorem swaitBad_of_ok (h : a % 64 = 0) (h' : d % 64 = 0) (hfit : d + 64 ≤ 2 ^ 22) (hin : a + 64 ≤ (s.part p).siloSize) :
    s.swaitBad t a d = false := by
  refine eq_false_of_ne_true fun hbad => ?_
  have := (swaitBad_iff hp).1 hbad
  omega

include hi ha hd

theorem runs_swait_bad (h : s.swaitBad t a d = true) : Runs s t (.swait t rs1 rs2) ((faultBase s t).coreFault t 0x5 d) :=
  runs_coreWait hi (exec_swait ..) (by rw [ha, hd, h, Bool.true_or]) (by rw [ha, hd]; exact if_pos h)

variable (hok : s.swaitBad t a d = false)
include hp hok

theorem runs_swait_fenced (hf : s.siloFenced p a 64 = true) : Runs s t (.swait t rs1 rs2) ((faultBase s t).killLaunch p eRetired) := by
  have hp' : (faultBase s t).partOfTile t = some p := hp
  refine runs_coreWait hi (exec_swait ..) ?_ ?_
  · rw [ha, hd, swaitReady_eq hp, hf, Bool.true_or, Bool.true_or, Bool.or_true]
  · rw [ha, hd, hp']
    exact (if_neg (ne_true_of_eq_false hok)).trans (if_pos hf)

variable (hf : s.siloFenced p a 64 = false)
include hf

theorem runs_swait_uncorrectable (hb : s.siloBad p a 64 = true) : Runs s t (.swait t rs1 rs2) ((faultBase s t).coreUncorrectable t p a) := by
  have hp' : (faultBase s t).partOfTile t = some p := hp
  refine runs_coreWait hi (exec_swait ..) ?_ ?_
  · rw [ha, hd, swaitReady_eq hp, hb, Bool.or_true, Bool.true_or, Bool.or_true]
  · rw [ha, hd, hp']
    exact (if_neg (ne_true_of_eq_false hok)).trans ((if_neg (ne_true_of_eq_false hf)).trans (if_pos hb))

variable (hb : s.siloBad p a 64 = false)
include hb

theorem runs_swait_wait (h : leNat (s.siloBytes p a 8) % 2 = 0 ∨ s.accessHeld t true (d, 64) = true) : Runs s t (.swait t rs1 rs2) s := by
  refine runs_stall hi (exec_swait ..) ?_
  rw [ha, hd, hok, swaitReady_eq hp, hf, hb]
  rcases h with h | h
  · have hdone : ¬ s.siloLe p a 8 % 2 = 1 := by
      rw [State.siloLe, h]
      decide
    simp only [decide_eq_false hdone, Bool.false_and, Bool.or_false]
  · simp only [h, Bool.not_true, Bool.and_false, Bool.or_false]

theorem runs_swait (hdone : leNat (s.siloBytes p a 8) % 2 = 1) (hh : s.accessHeld t true (d, 64) = false) :
    Runs s t (.swait t rs1 rs2)
      { retired s t id with mem := Memory.writeBytes s.mem (tileAddr t + d) (s.siloBytes p a 64) } := by
  have hp' : (faultBase s t).partOfTile t = some p := hp
  have hdone' : s.siloLe p a 8 % 2 = 1 := hdone
  refine runs_coreWait hi (exec_swait ..) ?_ ?_
  · rw [ha, hd, swaitReady_eq hp, hh]
    simp only [decide_eq_true hdone', Bool.not_false, Bool.and_self, Bool.or_true]
  · rw [ha, hd, hp']
    refine (if_neg (ne_true_of_eq_false hok)).trans ((if_neg (ne_true_of_eq_false hf)).trans ((if_neg (ne_true_of_eq_false hb)).trans ?_))
    exact retire_storeWrite_faultBase s t d (s.siloBytes p a 64)

end

/-- Settles O7: SOLVE by its checks in order, SWAIT by the state of its record. -/
theorem solveIssue : Obligations.SolveIssue := by
  refine ⟨?_, ?_⟩
  · intro s t rs1 m hi off r full
    refine ⟨runs_solve_region hi, runs_solve_offset hi rfl, fun hr hal hfit ho hdma => ?_, fun hr hal hfit ho => ⟨fun h => ?_, fun hdma hroom => ?_⟩⟩
    · refine runs_solve_target hi rfl hr hal hfit ?_ rfl ho
      rw [solveReady_eq hr hal hfit, hdma, ho]
      rfl
    · refine runs_stall hi (exec_solve ..) ?_
      rw [solveReady_of_target hr hal hfit ho]
      rcases h with h | h
      · rw [List.isEmpty_eq_false_iff.2 h, Bool.false_and]
      · rw [decide_eq_false (Nat.not_lt.2 h), Bool.and_false]
    · refine runs_solve_target hi rfl hr hal hfit ?_ rfl ho
      rw [solveReady_of_target hr hal hfit ho, hdma]
      exact decide_eq_true (Nat.lt_of_not_le hroom)
  · intro s t rs1 rs2 p hi hp hwf a d
    refine ⟨fun h => runs_swait_bad hi rfl rfl ((swaitBad_iff hp).2 h), fun hal hal' hfit hin => ?_⟩
    have hok := swaitBad_of_ok hp hal hal' hfit hin
    refine ⟨runs_swait_fenced hi hp rfl rfl hok, runs_swait_uncorrectable hi hp rfl rfl hok, fun hf hb => ?_⟩
    refine ⟨runs_swait_wait hi hp rfl rfl hok hf hb, fun hdone hh hfetch => ?_⟩
    exact ⟨_, runs_swait hi hp rfl rfl hok hf hb hdone hh hfetch, stored_writeBytes hwf ..⟩

end Sys2Proof.Machine
end

