-- ==== Sys2Proof/Proofs/MemorySteps.lean ====
section
/-!
PROOFS. Steps that change memory and the caches in front of it alone: reads under a hint, and the bytes of a tile's transfer as they land
(07 R161, R170; 09 R218 to R220).
-/
namespace Sys2Proof.Machine

open Sys2Proof.Claims

/-! ### Steps on memory and caches alone -/

/-- u is s but for memory, the caches and sectors of its controllers, and the free values used; a well-formed memory stays so. -/
def MemoryOnly (s u : State) : Prop :=
  u = { s with mem := u.mem, freeCtr := u.freeCtr
               memctl := { s.memctl with cache := u.memctl.cache, bad := u.memctl.bad, wrote := u.memctl.wrote } } ∧
  (Memory.wf s.mem = true → Memory.wf u.mem = true)

theorem MemoryOnly.refl (s : State) : MemoryOnly s s := ⟨rfl, id⟩

theorem MemoryOnly.trans {s u v : State} (a : MemoryOnly s u) (b : MemoryOnly u v) : MemoryOnly s v := by
  refine ⟨?_, b.2 ∘ a.2⟩
  rw [b.1, a.1]

theorem MemoryOnly.foldl {α : Type} {f : State → α → State} (hf : ∀ s x, MemoryOnly s (f s x)) (xs : List α) (s : State) :
    MemoryOnly s (xs.foldl f s) :=
  List.foldlRecOn xs f (MemoryOnly.refl s) fun u hu x _ => hu.trans (hf u x)

theorem MemoryOnly.tile {s u : State} (h : MemoryOnly s u) (v : TileId) : u.tile v = s.tile v := by
  rw [h.1]
  rfl

theorem MemoryOnly.part {s u : State} (h : MemoryOnly s u) (p : Pid) : u.part p = s.part p := by
  rw [h.1]
  rfl

/-- With a step of one tile after it, the tiles are those of that step. -/
theorem MemoryOnly.modTile_frame {s u : State} (h : MemoryOnly s u) (t : TileId) (f : Tile → Tile) :
    u.modTile t f = { s with
      tiles := (u.modTile t f).tiles, mem := u.mem, freeCtr := u.freeCtr
      memctl := { s.memctl with cache := u.memctl.cache, bad := u.memctl.bad, wrote := u.memctl.wrote } } :=
  congrArg (fun w : State => { w with tiles := (u.modTile t f).tiles }) h.1

/-! ### LAST_USE (09 R219, R220) -/

theorem memoryOnly_discardLine (s : State) (l : Nat) (w : Word) : MemoryOnly s
    ({ s with memctl := (discardLine s.memctl s.mem l w).1, mem := (discardLine s.memctl s.mem l w).2 }.skipFree 1) := by
  unfold discardLine
  split
  · exact ⟨rfl, id⟩
  · refine ⟨rfl, fun h => ?_⟩
    dsimp only [State.skipFree]
    split
    · exact h
    · split
      · exact h
      · exact Memory.wf_writeBytes _ _ _ h

theorem memoryOnly_hintRead (s : State) (p : Pid) (hint a n : Nat) : MemoryOnly s (s.hintRead p hint a n) := by
  unfold State.hintRead
  split
  · exact MemoryOnly.foldl (fun s l => memoryOnly_discardLine s l s.freeWord) _ s
  · exact ⟨rfl, id⟩

/-- A read under another hint than LAST_USE changes cached lines alone. -/
theorem hintRead_of_ne {hint : Nat} (h : hint ≠ 3) (s : State) (p : Pid) (a n : Nat) :
    (s.hintRead p hint a n).mem = s.mem ∧ (s.hintRead p hint a n).freeCtr = s.freeCtr := by
  rw [State.hintRead, if_neg h]
  exact ⟨rfl, rfl⟩

/-- No cached line is dirty. -/
def State.cacheClean (s : State) : Prop := ∀ l ∈ s.memctl.cache, l.dirty = false

/-- A clean line has no values to fall back to. -/
theorem discardLine_clean {m : MemSt} (h : ∀ l ∈ m.cache, l.dirty = false) (mem : List Host.Cell) (line : Nat) (w : Word) :
    (discardLine m mem line w).2 = mem ∧ ∀ l ∈ (discardLine m mem line w).1.cache, l.dirty = false := by
  unfold discardLine
  split
  · exact ⟨rfl, h⟩
  · next x hx =>
    refine ⟨?_, fun l hl => h l (List.mem_of_mem_filter hl)⟩
    dsimp only
    rw [h x (List.mem_of_find?_eq_some hx)]
    rfl

theorem lastUse_clean {s : State} (h : s.cacheClean) (p : Pid) (a n : Nat) : (s.lastUse p a n).mem = s.mem ∧ (s.lastUse p a n).cacheClean := by
  refine List.foldlRecOn (motive := fun u : State => u.mem = s.mem ∧ u.cacheClean) _ _ ⟨rfl, h⟩ fun u ⟨hmem, hclean⟩ l _ => ?_
  obtain ⟨hm, hc⟩ := discardLine_clean hclean u.mem l u.freeWord
  exact ⟨hm.trans hmem, hc⟩

/-! ### What a transfer does before its bytes land (07 R170) -/

/-- The reads of a transfer from the silo, under its hint. -/
def State.readSources (s : State) (p : Pid) (x : Dma) : State :=
  if x.opc = 1 then x.sources.foldl (fun s (r : Nat × Nat) => s.hintRead p x.hint r.1 r.2) s else s

theorem memoryOnly_readSources (s : State) (p : Pid) (x : Dma) : MemoryOnly s (s.readSources p x) := by
  unfold State.readSources
  split
  · exact MemoryOnly.foldl (fun s (r : Nat × Nat) => memoryOnly_hintRead s p x.hint r.1 r.2) _ s
  · exact MemoryOnly.refl s

/-- Reads other than those under LAST_USE leave memory and the free values alone. -/
theorem readSources_of_not_lastUse {x : Dma} (h : ¬ (x.opc = 1 ∧ x.hint = 3)) (s : State) (p : Pid) :
    (s.readSources p x).mem = s.mem ∧ (s.readSources p x).freeCtr = s.freeCtr := by
  by_cases hopc : x.opc = 1
  · have hhint : x.hint ≠ 3 := fun hh => h ⟨hopc, hh⟩
    rw [State.readSources, if_pos hopc]
    refine List.foldlRecOn (motive := fun u : State => u.mem = s.mem ∧ u.freeCtr = s.freeCtr) _ _ ⟨rfl, rfl⟩ fun u ⟨hmem, hfree⟩ r _ => ?_
    obtain ⟨hm, hf⟩ := hintRead_of_ne hhint u p r.1 r.2
    exact ⟨hm.trans hmem, hf.trans hfree⟩
  · rw [State.readSources, if_neg hopc]
    exact ⟨rfl, rfl⟩

/-- Without a dirty line a LAST_USE read leaves memory alone as well. -/
theorem readSources_of_clean {s : State} {x : Dma} (h : x.opc = 1 → x.hint = 3 → s.cacheClean) (p : Pid) : (s.readSources p x).mem = s.mem := by
  by_cases hlast : x.opc = 1 ∧ x.hint = 3
  · obtain ⟨hopc, hhint⟩ := hlast
    rw [State.readSources, if_pos hopc]
    refine (List.foldlRecOn (motive := fun u : State => u.mem = s.mem ∧ u.cacheClean) _ _ ⟨rfl, h hopc hhint⟩ fun u ⟨hmem, hclean⟩ r _ => ?_).1
    rw [State.hintRead, if_pos hhint]
    obtain ⟨hm, hc⟩ := lastUse_clean hclean p r.1 r.2
    exact ⟨hm.trans hmem, hc⟩
  · exact (readSources_of_not_lastUse hlast s p).1

/-! ### The bytes of a transfer land (07 R161; 09 R218) -/

/-- One range of a transfer's results is written. -/
def State.land (t : TileId) (p : Pid) (x : Dma) (s : State) (w : Nat × List Byte) : State :=
  if x.opc = 2 then s.siloWriteH p x.hint w.1 w.2 else s.storeWrite t w.1 w.2

/-- Device address of byte i of a range. -/
def landAddr (t : TileId) (y : Part) (x : Dma) (w : Nat × List Byte) (i : Nat) : Nat :=
  if x.opc = 2 then y.devAddr (w.1 + i) else tileAddr t + w.1 + i

theorem dmaMove_eq (s : State) (t : TileId) (p : Pid) (q : QDma) (x : Dma) : s.dmaMove t p q x =
    ((s.dmaWrites t p q x).foldl (State.land t p x) (s.readSources p x)).modTile t fun y => y.countAll x.fmtD (s.dmaCounts t p q x) := rfl

theorem memoryOnly_siloWriteH (s : State) (p : Pid) (hint a : Nat) (bs : List Byte) : MemoryOnly s (s.siloWriteH p hint a bs) := by
  unfold State.siloWriteH
  split
  · exact MemoryOnly.refl s
  · obtain ⟨c, b, w, hlines⟩ := s.writeLines_frame p hint a bs.length
    refine ⟨?_, fun h => Memory.wf_foldl _ (fun _ _ h => Memory.wf_write _ _ _ h) _ _ h⟩
    rw [hlines]

theorem freeCtr_siloWriteH (s : State) (p : Pid) (hint a : Nat) (bs : List Byte) : (s.siloWriteH p hint a bs).freeCtr = s.freeCtr := by
  unfold State.siloWriteH
  split
  · rfl
  · rfl

/-- A fold of byte writes leaves the bytes at other addresses. -/
theorem read_foldl_write {α : Type} (addr : α → Nat) (val : α → Byte) {b : Nat} (xs : List α) {m : List Host.Cell} (hwf : Memory.wf m = true)
    (h : ∀ x ∈ xs, b ≠ addr x) : Memory.read (xs.foldl (fun m x => Memory.write m (addr x) (val x)) m) b = Memory.read m b := by
  refine (List.foldlRecOn (motive := fun m' => Memory.wf m' = true ∧ Memory.read m' b = Memory.read m b) _ _ ⟨hwf, rfl⟩
    fun m' ⟨hwf', hread⟩ x hx => ⟨Memory.wf_write _ _ _ hwf', ?_⟩).2
  rw [Memory.read_write _ _ _ _ hwf', if_neg (h x hx), hread]

theorem read_siloWriteH {s : State} {p : Pid} {a b : Nat} {bs : List Byte} (hint : Nat) (hwf : Memory.wf s.mem = true)
    (h : ∀ i, i < bs.length → b ≠ (s.part p).devAddr (a + i)) : Memory.read (s.siloWriteH p hint a bs).mem b = Memory.read s.mem b := by
  unfold State.siloWriteH
  split
  · rfl
  · exact read_foldl_write (fun x : Byte × Nat => (s.part p).devAddr (a + x.2)) Prod.fst _ hwf
      fun x hx => h x.2 (List.getElem?_eq_some_iff.1 (List.mem_zipIdx_iff_getElem?.1 hx)).1

section
variable {t : TileId} {p : Pid} {x : Dma}

theorem memoryOnly_land (s : State) (w : Nat × List Byte) : MemoryOnly s (s.land t p x w) := by
  unfold State.land
  split
  · exact memoryOnly_siloWriteH ..
  · exact ⟨rfl, Memory.wf_writeBytes _ _ _⟩

theorem freeCtr_land (s : State) (w : Nat × List Byte) : (s.land t p x w).freeCtr = s.freeCtr := by
  unfold State.land
  split
  · exact freeCtr_siloWriteH ..
  · rfl

theorem read_land {s : State} {w : Nat × List Byte} {b : Nat} (hwf : Memory.wf s.mem = true)
    (h : ∀ i, i < w.2.length → b ≠ landAddr t (s.part p) x w i) : Memory.read (s.land t p x w).mem b = Memory.read s.mem b := by
  by_cases hopc : x.opc = 2
  · rw [State.land, if_pos hopc]
    exact read_siloWriteH x.hint hwf fun i hi => by simpa only [landAddr, if_pos hopc] using h i hi
  · rw [State.land, if_neg hopc]
    refine (Memory.read_writeBytes _ _ b _ hwf).trans (if_neg fun hb => ?_)
    refine h (b - (tileAddr t + w.1)) (by omega) ?_
    rw [landAddr, if_neg hopc]
    omega

variable (s : State) (ws : List (Nat × List Byte))

theorem memoryOnly_lands : MemoryOnly s (ws.foldl (State.land t p x) s) := MemoryOnly.foldl (fun s w => memoryOnly_land s w) ws s

theorem freeCtr_lands : (ws.foldl (State.land t p x) s).freeCtr = s.freeCtr :=
  List.foldlRecOn (motive := fun u : State => u.freeCtr = s.freeCtr) ws _ rfl fun u hu w _ => (freeCtr_land u w).trans hu

theorem read_lands {s : State} {ws : List (Nat × List Byte)} {b : Nat} (hwf : Memory.wf s.mem = true)
    (h : ∀ w ∈ ws, ∀ i, i < w.2.length → b ≠ landAddr t (s.part p) x w i) :
    Memory.read (ws.foldl (State.land t p x) s).mem b = Memory.read s.mem b := by
  refine (List.foldlRecOn (motive := fun u : State => MemoryOnly s u ∧ Memory.read u.mem b = Memory.read s.mem b) ws _
    ⟨MemoryOnly.refl s, rfl⟩ fun u ⟨hu, hread⟩ w hw => ⟨hu.trans (memoryOnly_land u w), ?_⟩).2
  refine (read_land (hu.2 hwf) ?_).trans hread
  rw [hu.part]
  exact h w hw

end

end Sys2Proof.Machine
end

