-- ==== Sys2Proof/Proofs/TransfersAndUpdates.lean ====
section
/-!
PROOFS. A tile's transfers and update operations: what running and completing the oldest one changes (07 R161, R164; 08 R182, R190).
-/
namespace Sys2Proof.Machine

open Sys2Proof.Claims

/-! ### DMA_TRANSFER_RUN and DMA_TRANSFER_COMPLETE (07 R161, R164) -/

theorem exec_dmaTransferRun (t : TileId) (s : State) : exec (.dmaTransferRun t) s = execDmaTransferRun t s := rfl
theorem exec_dmaTransferComplete (t : TileId) (s : State) : exec (.dmaTransferComplete t) s = execDmaTransferComplete t s := rfl

/-- The state after the oldest transfer has moved its bytes. -/
def State.dmaRan (s : State) (t : TileId) (p : Pid) (q : QDma) (rest : List QDma) : State :=
  ((s.dmaWrites t p q q.dma).foldl (State.land t p q.dma) (s.readSources p q.dma)).modTile t fun y =>
    { y.countAll q.dma.fmtD (s.dmaCounts t p q q.dma) with dmas := { q with ran := true } :: rest }

section
variable {s : State} {t : TileId} {p : Pid} {q : QDma} {rest : List QDma} (hq : (s.tile t).dmas = q :: rest)
include hq

theorem exec_dmaTransferRun_moves (hp : s.partOfTile t = some p) (hran : q.ran = false) (hheld : s.dmaHeld t q = false)
    (hfence : ∀ r ∈ q.dma.siloRanges, s.siloFenced p r.1 r.2 = false) (hbad : s.dmaBadAt p q.dma = none)
    (hwait : q.dma.opc = 2 → s.holdWrites p q.dma.targets = none) :
    exec (.dmaTransferRun t) s = .next (s.dmaRan t p q rest) := by
  have hfence' : ¬ (q.dma.siloRanges.any fun r => s.siloFenced p r.1 r.2) = true := by simpa using hfence
  have hwait' : (if q.dma.opc = 2 then s.holdWrites p q.dma.targets else none) = none := by
    split
    · exact hwait ‹_›
    · rfl
  simp only [exec_dmaTransferRun, execDmaTransferRun, hq, hp, hran, hheld, Bool.or_self, Bool.false_eq_true, if_false, hfence', hwait', hbad]
  rw [dmaMove_eq, State.modTile_modTile]
  rfl

theorem exec_dmaTransferRun_waits (hp : s.partOfTile t = some p) (h : q.ran = true ∨ s.dmaHeld t q = true) :
    exec (.dmaTransferRun t) s = .fault (.notDue "DMA_TRANSFER_RUN") := by
  have hwait : (q.ran || s.dmaHeld t q) = true := Bool.or_eq_true_iff.2 h
  simp only [exec_dmaTransferRun, execDmaTransferRun, hq, hp, hwait, if_true]
  rfl

theorem exec_dmaTransferComplete_done (hran : q.ran = true) : exec (.dmaTransferComplete t) s =
    .next ((s.modTile t fun y => { y with dmas := rest, core := { y.core with ddone := y.core.ddone + 1 } }).touchOwner t) := by
  simp only [exec_dmaTransferComplete, execDmaTransferComplete, hq, hran, Bool.not_true, Bool.false_eq_true, if_false]
  rfl

theorem exec_dmaTransferComplete_early (hran : q.ran = false) :
    exec (.dmaTransferComplete t) s = .fault (.notDue "DMA_TRANSFER_COMPLETE") := by
  simp only [exec_dmaTransferComplete, execDmaTransferComplete, hq, hran, Bool.not_false, if_true]
  rfl

end

section
variable (s : State) (t : TileId) (p : Pid) (q : QDma) (rest : List QDma)

theorem memoryOnly_moved : MemoryOnly s ((s.dmaWrites t p q q.dma).foldl (State.land t p q.dma) (s.readSources p q.dma)) :=
  (memoryOnly_readSources s p q.dma).trans (memoryOnly_lands ..)

theorem State.tile_dmaRan : (s.dmaRan t p q rest).tile t =
    { (s.tile t).countAll q.dma.fmtD (s.dmaCounts t p q q.dma) with dmas := { q with ran := true } :: rest } := by
  rw [State.dmaRan, State.tile_modTile, (memoryOnly_moved s t p q).tile]

theorem State.flagOnly_dmaRan : FlagOnly (s.core t) ((s.dmaRan t p q rest).core t) := by
  rw [State.core, State.core, State.tile_dmaRan]
  exact FlagOnly.flagIf ..

theorem State.tile_dmaRan_ne {v : TileId} (h : v ≠ t) : (s.dmaRan t p q rest).tile v = s.tile v := by
  rw [State.dmaRan, State.tile_modTile_ne _ _ _ _ h, (memoryOnly_moved s t p q).tile]

theorem State.freeCtr_dmaRan (h : ¬ (q.dma.opc = 1 ∧ q.dma.hint = 3)) : (s.dmaRan t p q rest).freeCtr = s.freeCtr :=
  (freeCtr_lands ..).trans (readSources_of_not_lastUse h s p).2

variable {s} (hwf : Memory.wf s.mem = true)
include hwf

theorem State.read_dmaRan_of_outside {b : Nat} (hclean : q.dma.opc = 1 → q.dma.hint = 3 → s.cacheClean)
    (h : ∀ w ∈ s.dmaWrites t p q q.dma, ∀ i, i < w.2.length → b ≠ landAddr t (s.part p) q.dma w i) :
    Memory.read (s.dmaRan t p q rest).mem b = Memory.read s.mem b := by
  have hread := memoryOnly_readSources s p q.dma
  refine (read_lands (hread.2 hwf) ?_).trans (by rw [readSources_of_clean hclean])
  rw [hread.part]
  exact h

/-- A single range stored in the tile reads back. -/
theorem State.read_dmaRan_of_single {w : Nat × List Byte} (hopc : q.dma.opc ≠ 2) (hw : s.dmaWrites t p q q.dma = [w]) {i : Nat}
    (hi : i < w.2.length) : Memory.read (s.dmaRan t p q rest).mem (tileAddr t + w.1 + i) = w.2[i]?.getD 0 := by
  have hmem : (s.dmaRan t p q rest).mem = Memory.writeBytes (s.readSources p q.dma).mem (tileAddr t + w.1) w.2 := by
    rw [State.dmaRan, hw, State.modTile_mem, List.foldl_cons, List.foldl_nil, State.land, if_neg hopc]
    rfl
  rw [hmem]
  exact (stored_writeBytes ((memoryOnly_readSources s p q.dma).2 hwf) (tileAddr t + w.1) w.2).1 i hi

end

/-! ### UPDATE_OPERATION_RUN and UPDATE_OPERATION_COMPLETE (08 R182, R190) -/

theorem exec_updateOperationRun (t : TileId) (k : Fin 3) (s : State) :
    exec (.updateOperationRun t k) s = execUpdateOperationRun t k s := rfl
theorem exec_updateOperationComplete (t : TileId) (s : State) :
    exec (.updateOperationComplete t) s = execUpdateOperationComplete t s := rfl

/-- The state after the oldest update operation, which changed its tile by f. -/
def State.updRan (s : State) (t : TileId) (k : Fin 3) (z : QUpd) (rest : List QUpd) (f : Tile → Tile) : State :=
  s.modTile t fun y => { f { y with retryCnt := satAdd y.retryCnt k.val } with upds := { z with ran := true } :: rest }

/-- An operation that changes its tile alone. -/
theorem updRan_of_modTile (s : State) (t : TileId) (k : Fin 3) (z : QUpd) (rest : List QUpd) (f : Tile → Tile) :
    ((s.countReruns t k.val).modTile t f).modTile t (fun y => { y with upds := { z with ran := true } :: rest }) = s.updRan t k z rest f := by
  rw [State.countReruns, State.modTile_modTile, State.modTile_modTile, State.updRan]

theorem updRan_id (s : State) (t : TileId) (k : Fin 3) (z : QUpd) (rest : List QUpd) :
    (s.countReruns t k.val).modTile t (fun y => { y with upds := { z with ran := true } :: rest }) = s.updRan t k z rest id := by
  rw [State.countReruns, State.modTile_modTile, State.updRan]
  rfl

/-- An operation that writes its tile's store alone. -/
theorem updRan_of_storeWrite (s : State) (t : TileId) (k : Fin 3) (z : QUpd) (rest : List QUpd) (a : Nat) (bs : List Byte) :
    ((s.countReruns t k.val).storeWrite t a bs).modTile t (fun y => { y with upds := { z with ran := true } :: rest }) =
      { s.updRan t k z rest id with mem := Memory.writeBytes s.mem (tileAddr t + a) bs } :=
  congrArg (fun u : State => { u with mem := Memory.writeBytes s.mem (tileAddr t + a) bs })
    (updRan_id s t k z rest)

theorem norms_countReruns (s : State) (t : TileId) (n : Nat) : ((s.countReruns t n).tile t).norms = (s.tile t).norms := by
  rw [State.countReruns, State.tile_modTile]

section
variable {s : State} {t : TileId} {p : Pid} {z : QUpd} {rest : List QUpd} (hz : (s.tile t).upds = z :: rest)
include hz

theorem exec_updateOperationComplete_done (hran : z.ran = true) : exec (.updateOperationComplete t) s =
    .next ((s.modTile t fun y => { y with upds := rest, core := { y.core with udone := y.core.udone + 1 } }).touchOwner t) := by
  simp only [exec_updateOperationComplete, execUpdateOperationComplete, hz, hran, Bool.not_true, Bool.false_eq_true, if_false]
  rfl

theorem exec_updateOperationComplete_early (hran : z.ran = false) :
    exec (.updateOperationComplete t) s = .fault (.notDue "UPDATE_OPERATION_COMPLETE") := by
  simp only [exec_updateOperationComplete, execUpdateOperationComplete, hz, hran, Bool.not_false, if_true]
  rfl

variable (k : Fin 3) (hp : s.partOfTile t = some p)
include hp

theorem exec_updateOperationRun_waits (h : z.ran = true ∨ (s.tile t).updHeld z = true) :
    exec (.updateOperationRun t k) s = .fault (.notDue "UPDATE_OPERATION_RUN") := by
  simp only [exec_updateOperationRun, execUpdateOperationRun, hz, hp]
  refine whenDue_of_not_due _ _ ?_
  rcases h with h | h
  · rw [h, Bool.not_true, Bool.false_and]
  · rw [h, Bool.not_true, Bool.and_false]

variable (hran : z.ran = false) (hheld : (s.tile t).updHeld z = false)
include hran hheld

theorem exec_updateOperationRun_runs {u : State} (hu : (s.countReruns t k.val).runUpd t p z.op = u) : exec (.updateOperationRun t k) s =
    .next (u.modTile t fun y => { y with upds := { z with ran := true } :: rest }) := by
  simp only [exec_updateOperationRun, execUpdateOperationRun, hz, hp, hu]
  exact whenDue_of_due _ _ (by rw [hran, hheld]; rfl)

/-- An operation that changes its tile alone runs. -/
theorem exec_updateOperationRun_tile {f : Tile → Tile} (hu : (s.countReruns t k.val).runUpd t p z.op = (s.countReruns t k.val).modTile t f) :
    exec (.updateOperationRun t k) s = .next (s.updRan t k z rest f) := by
  rw [exec_updateOperationRun_runs hz k hp hran hheld hu, updRan_of_modTile]

end

theorem runUpd_nclr (s : State) (t : TileId) (p : Pid) (a : Fin 4) : s.runUpd t p (.nclr a) = s.modTile t fun y =>
    { y with norms := y.norms.set a { value := 0, inf := false, nan := false } } := rfl

theorem runUpd_nadd (s : State) (t : TileId) (p : Pid) (addr : Nat) (a : Fin 4) (n : Nat) :
    (s.countReruns t n).runUpd t p (.nadd addr a) = (s.countReruns t n).modTile t fun y =>
      y.setNorm a (((s.tile t).norms[a]).join (normOf (s.storeBytes t addr 128))) := by
  simp only [State.runUpd, norms_countReruns]
  rfl

theorem addSquares_countReruns (s : State) (t : TileId) (n addr c fmt : Nat) (sc : Machine.Num) (a : Norm) :
    (s.countReruns t n).addSquares t addr c fmt sc a = s.addSquares t addr c fmt sc a := rfl

theorem runUpd_nsq (s : State) (t : TileId) (p : Pid) (addr c : Nat) (sc : Word) (fmt : BitVec 4) (a : Fin 4) (n : Nat) :
    (s.countReruns t n).runUpd t p (.nsq addr c sc fmt a) = (s.countReruns t n).modTile t fun y =>
      y.setNorm a (s.addSquares t addr c fmt.toNat (fp32.decode (fp32.code (fp64.decode sc.toNat))) (s.tile t).norms[a]) := by
  simp only [State.runUpd, norms_countReruns, addSquares_countReruns]

theorem runUpd_nst (s : State) (t : TileId) (p : Pid) (addr : Nat) (a : Fin 4) (n : Nat) :
    (s.countReruns t n).runUpd t p (.nst addr a) = (s.countReruns t n).storeWrite t addr ((s.tile t).norms[a]).bytes := by
  simp only [State.runUpd, norms_countReruns]

/-! ### WUPD (08 R182, R197) -/

theorem State.tile_storeWrites (s : State) (t v : TileId) (ws : List (Nat × List Byte)) :
    (ws.foldl (fun s (w : Nat × List Byte) => s.storeWrite t w.1 w.2) s).tile v = s.tile v :=
  List.foldlRecOn (motive := fun u : State => u.tile v = s.tile v) ws _ rfl fun _ hu _ _ => hu

theorem State.tile_touchWatch (s : State) (p : Pid) (x : Wupd) (hit : Bool) (v : TileId) : (s.touchWatch p x hit).tile v = s.tile v := by
  unfold State.touchWatch
  split
  · rfl
  · rfl

/-- A weight update changes no other tile, and of its own the counters alone. -/
theorem State.tile_runWupd_ne (s : State) {t v : TileId} (h : v ≠ t) (p : Pid) (x : Wupd) : (s.runWupd t p x).tile v = s.tile v := by
  rw [State.runWupd, State.tile_touchWatch, State.tile_modTile_ne _ _ _ _ h, State.tile_storeWrites]

theorem State.core_runWupd (s : State) (t : TileId) (p : Pid) (x : Wupd) : ((s.runWupd t p x).tile t).core = (s.tile t).core := by
  rw [State.runWupd, State.tile_touchWatch, State.tile_modTile, State.tile_storeWrites]

/-- Settles O20: a transfer by the reads, the writes and the counts it is made of, an update operation by its kind. -/
theorem transfersAndUpdates : Obligations.TransfersAndUpdates := by
  refine ⟨fun s t p q rest hq hp => ?_, fun s t p z rest k hz hp => ?_⟩
  · refine ⟨fun hran hheld hfence hbad hwait hwf => ?_, exec_dmaTransferRun_waits hq hp, fun hran => ?_, exec_dmaTransferComplete_early hq⟩
    · refine ⟨s.dmaRan t p q rest, exec_dmaTransferRun_moves hq hp hran hheld hfence hbad hwait, ?_, s.flagOnly_dmaRan t p q rest,
        fun v hv => s.tile_dmaRan_ne t p q rest hv, (memoryOnly_moved s t p q).modTile_frame t _, s.freeCtr_dmaRan t p q rest,
        fun b hclean hout => State.read_dmaRan_of_outside t p q rest hwf hclean hout,
        fun w hopc hw i hi => State.read_dmaRan_of_single t p q rest hwf hopc hw hi⟩
      rw [State.core, State.tile_dmaRan]
      rfl
    · refine ⟨_, exec_dmaTransferComplete_done hq hran, TileWork.touchOwner rfl fun v hv => State.tile_modTile_ne _ _ _ _ hv,
        State.mem_touchOwner .., ?_⟩
      rw [State.tile_touchOwner, State.tile_modTile]
  · intro after
    refine ⟨fun hran hheld => ⟨fun a hop => ?_, fun addr a hop hwf => ?_, fun addr a hop => ⟨_, ?_, rfl⟩,
      fun addr c sc f a hop => ⟨_, ?_, rfl⟩, fun d hop => ⟨_, exec_updateOperationRun_runs hz k hp hran hheld rfl, ?_, ?_, fun v hv => ?_⟩⟩,
      exec_updateOperationRun_waits hz k hp, fun hran => ?_, exec_updateOperationComplete_early hz⟩
    · exact exec_updateOperationRun_tile hz k hp hran hheld (by rw [hop, runUpd_nclr])
    · refine ⟨_, ?_, stored_writeBytes hwf (tileAddr t + addr) ((s.tile t).norms[a]).bytes⟩
      rw [exec_updateOperationRun_runs hz k hp hran hheld (by rw [hop, runUpd_nst])]
      exact congrArg Host.Outcome.next (updRan_of_storeWrite s t k z rest addr _)
    · exact exec_updateOperationRun_tile hz k hp hran hheld (by rw [hop, runUpd_nadd])
    · exact exec_updateOperationRun_tile hz k hp hran hheld (by rw [hop, runUpd_nsq])
    · rw [State.tile_modTile]
    · rw [State.tile_modTile, hop]
      refine (State.core_runWupd ..).trans ?_
      rw [State.countReruns, State.tile_modTile]
    · rw [State.tile_modTile_ne _ _ _ _ hv, hop]
      refine (State.tile_runWupd_ne _ hv ..).trans ?_
      rw [State.countReruns, State.tile_modTile_ne _ _ _ _ hv]
    · refine ⟨_, exec_updateOperationComplete_done hz hran, TileWork.touchOwner rfl fun v hv => State.tile_modTile_ne _ _ _ _ hv,
        State.mem_touchOwner .., ?_⟩
      rw [State.tile_touchOwner, State.tile_modTile]

end Sys2Proof.Machine
end

