-- ==== Sys2Proof/Proofs/StashQuotas.lean ====
section
/-!
PROOFS. STASHA and STASHR: the quotas a logical sheaf has, and what taking from one and giving back to it do (08 R206).
-/
namespace Sys2Proof.Machine

open Sys2Proof.Claims

theorem exec_stasha (t : TileId) (rd rs1 rs2 : RegId) (s : State) : exec (.stasha t rd rs1 rs2) s = execStasha t rd rs1 rs2 s := rfl
theorem exec_stashr (t : TileId) (rs1 rs2 : RegId) (s : State) : exec (.stashr t rs1 rs2) s = execStashr t rs1 rs2 s := rfl

/-! ### The quotas that exist -/

theorem stashIndex_of_lt {c : Core} {q : Nat} (hq : q < 4) : stashIndex c q = some (4 * c.lsheaf + q) := if_pos hq

theorem stashIndex_of_ge {c : Core} {q : Nat} (hq : 4 ≤ q) : stashIndex c q = none := if_neg (Nat.not_lt.2 hq)

section
variable {s : State} {t : TileId} {q : Nat}

theorem State.stashCount_of_lt {p : Pid} (hp : s.partOfTile t = some p) (hq : q < 4) :
    s.stashCount t q = (s.part p).stash[4 * (s.core t).lsheaf + q]?.getD 0 := by
  simp only [State.stashCount, hp, stashIndex_of_lt hq]

theorem State.stashCount_of_ge (hq : 4 ≤ q) : s.stashCount t q = 0 := by
  rw [State.stashCount, stashIndex_of_ge hq]
  cases s.partOfTile t <;> rfl

theorem State.stashLimit_of_ge (hq : 4 ≤ q) : s.stashLimit t q = 0 := by
  rw [State.stashLimit]
  split
  · rfl
  · exact if_neg (Nat.not_lt.2 hq)

theorem State.setStash_of_lt {p : Pid} (hp : s.partOfTile t = some p) (hq : q < 4) (k : Nat) :
    s.setStash t q k = s.modPart p fun x => { x with stash := x.stash.set (4 * (s.core t).lsheaf + q) k } := by
  simp only [State.setStash, hp, stashIndex_of_lt hq]

theorem State.setStash_of_ge (hq : 4 ≤ q) (k : Nat) : s.setStash t q k = s := by
  rw [State.setStash, stashIndex_of_ge hq]
  cases s.partOfTile t <;> rfl

end

/-! ### The quotas do not see the single step of debug -/

@[simp] theorem stashCount_faultBase (s : State) (t : TileId) (q : Nat) : (faultBase s t).stashCount t q = s.stashCount t q := by
  simp only [State.stashCount, stashIndex, core_faultBase, Core.useStep_lsheaf]
  rfl

@[simp] theorem stashLimit_faultBase (s : State) (t : TileId) (q : Nat) : (faultBase s t).stashLimit t q = s.stashLimit t q := by
  simp only [State.stashLimit, progOfTile_faultBase, core_faultBase, Core.useStep_lsheaf]

/-- A counter is set and the core goes on, in either order. -/
theorem retire_setStash_faultBase {s : State} {t : TileId} {p : Pid} {q : Nat} (hp : s.partOfTile t = some p) (hq : q < 4) (k : Nat)
    (f : Core → Core) : ((faultBase s t).setStash t q k).retire t f =
      ((faultBase s t).retire t f).modPart p fun x => { x with stash := x.stash.set (4 * (s.core t).lsheaf + q) k } := by
  have hp' : (faultBase s t).partOfTile t = some p := hp
  rw [State.setStash_of_lt hp' hq, core_faultBase, Core.useStep_lsheaf]
  rfl

/-! ### The two instructions, on any quota number -/

section
variable {s : State} {t : TileId} {rs1 rs2 : RegId} {q n : Nat} (hi : Issues s t) (hq : ((s.core t).rg rs1).toNat = q)
  (hn : ((s.core t).rg rs2).toNat = n)
include hi hq hn

theorem runs_stasha_granted (rd : RegId) (h : n = 0 ∨ s.stashCount t q + n ≤ s.stashLimit t q) : Runs s t (.stasha t rd rs1 rs2)
    (((faultBase s t).setStash t q (s.stashCount t q + n)).retire t fun c => c.wg rd 1) := by
  refine runs_coreInstr hi (exec_stasha ..) ?_
  simp only [core_faultBase, Core.useStep_rg, hq, hn, stashCount_faultBase, stashLimit_faultBase, if_pos h]

theorem runs_stasha_refused (rd : RegId) (h : ¬ (n = 0 ∨ s.stashCount t q + n ≤ s.stashLimit t q)) : Runs s t (.stasha t rd rs1 rs2)
    (retired s t fun c => if rd = 0 then c else { c with g := c.g.set rd 0 }) := by
  refine runs_coreInstr hi (exec_stasha ..) ?_
  simp only [core_faultBase, Core.useStep_rg, hq, hn, stashCount_faultBase, stashLimit_faultBase, if_neg h]
  exact retire_wg_faultBase rfl

theorem runs_stashr_back (h : n ≤ s.stashCount t q) : Runs s t (.stashr t rs1 rs2)
    (((faultBase s t).setStash t q (s.stashCount t q - n)).retire t id) := by
  refine runs_coreInstr hi (exec_stashr ..) ?_
  simp only [core_faultBase, Core.useStep_rg, hq, hn, stashCount_faultBase, if_neg (Nat.not_lt.2 h)]

theorem runs_stashr_fault (h : s.stashCount t q < n) : Runs s t (.stashr t rs1 rs2) ((faultBase s t).coreFault t 0x9 0) := by
  refine runs_coreInstr hi (exec_stashr ..) ?_
  simp only [core_faultBase, Core.useStep_rg, hq, hn, stashCount_faultBase, if_pos h]

/-! ### A quota number past 3: its count and its limit are 0 -/

theorem runs_stasha_of_ge (rd : RegId) (h4 : 4 ≤ q) : Runs s t (.stasha t rd rs1 rs2)
    (retired s t fun c => if rd = 0 then c else { c with g := c.g.set rd (if n = 0 then 1 else 0) }) := by
  by_cases h0 : n = 0
  · have hrun := runs_stasha_granted hi hq hn rd (.inl h0)
    rw [State.setStash_of_ge h4, retire_wg_faultBase rfl] at hrun
    rwa [if_pos h0]
  · rw [if_neg h0]
    refine runs_stasha_refused hi hq hn rd ?_
    rw [State.stashCount_of_ge h4, State.stashLimit_of_ge h4]
    omega

theorem runs_stashr_of_ge (h4 : 4 ≤ q) : Runs s t (.stashr t rs1 rs2)
    (if n = 0 then retired s t id else (faultBase s t).coreFault t 0x9 0) := by
  have hcount : s.stashCount t q = 0 := State.stashCount_of_ge h4
  by_cases h0 : n = 0
  · have hrun := runs_stashr_back hi hq hn (by omega)
    rw [State.setStash_of_ge h4, retire_id_faultBase] at hrun
    rwa [if_pos h0]
  · rw [if_neg h0]
    exact runs_stashr_fault hi hq hn (by omega)

end

/-- Settles O11: a quota that does not exist counts as one with limit 0; of the others, the count decides. -/
theorem stashQuotas : Obligations.StashQuotas := by
  intro s t rd rs1 rs2 p hi hp c q n i held put
  refine ⟨fun h4 => ⟨runs_stasha_of_ge hi rfl rfl rd h4, runs_stashr_of_ge hi rfl rfl h4⟩, fun hlt => ?_⟩
  have hheld : s.stashCount t q = held := State.stashCount_of_lt hp hlt
  refine ⟨fun hfit => ?_, fun hover => ?_, fun hback => ?_, fun hfault => ?_⟩
  · have hrun := runs_stasha_granted hi rfl rfl rd (hheld ▸ hfit)
    rwa [retire_setStash_faultBase hp hlt, retire_wg_faultBase rfl, hheld] at hrun
  · exact runs_stasha_refused hi rfl rfl rd (hheld ▸ hover)
  · have hrun := runs_stashr_back hi rfl rfl (hheld ▸ hback)
    rwa [retire_setStash_faultBase hp hlt, retire_id_faultBase, hheld] at hrun
  · exact runs_stashr_fault hi rfl rfl (hheld ▸ hfault)

end Sys2Proof.Machine
end

