-- ==== Sys2Proof/Proofs/RegisterWrites.lean ====
section
/-!
PROOFS. Writes of BAR0 registers: which are ignored, the set-up registers that only store, those that have a command of their own, and
the registers of a ring pair (20 R441, R442, R452 to R456; 16 R360).
-/
namespace Sys2Proof.Machine

open Sys2Proof.Claims

/-! ### Slots and fields of the register map (20 R441, R442) -/

/-- Register k of an array stands k strides behind the base. -/
theorem slotAt_slot {n stride : Nat} (base : Nat) (hs : 0 < stride) (k : Fin n) : slotAt n base stride (base + stride * k.val) = some k := by
  have hq : stride * k.val / stride = k.val := Nat.mul_div_cancel_left _ hs
  simp [slotAt, hq]

/-- An offset below an array, behind it or between two of its registers is none of them. -/
theorem slotAt_none {n base stride off : Nat} (hs : 0 < stride)
    (h : off < base ∨ base + n * stride ≤ off ∨ (off - base) % stride ≠ 0) : slotAt n base stride off = none := by
  unfold slotAt
  split
  · next hq =>
    rw [Nat.div_lt_iff_lt_mul hs] at hq
    exact if_neg fun ⟨hb, hr⟩ => by omega
  · rfl

/-- A field stored at its own width. -/
theorem ofNat_bits {w : Nat} (x : BitVec w) (hi lo n : Nat) (hn : hi + 1 - lo = n) :
    BitVec.ofNat n (bits x hi lo) = BitVec.ofNat n (x.toNat / 2 ^ lo) := by
  subst hn
  rw [bits_eq_div_mod]
  exact BitVec.eq_of_toNat_eq (by simp)

theorem ofNat_bits_low {w : Nat} (x : BitVec w) (hi n : Nat) (hn : hi + 1 = n) : BitVec.ofNat n (bits x hi 0) = BitVec.ofNat n x.toNat := by
  rw [ofNat_bits x hi 0 n hn, Nat.pow_zero, Nat.div_one]

theorem bits_low {w : Nat} (x : BitVec w) (hi m : Nat) (hm : 2 ^ (hi + 1) = m) : bits x hi 0 = x.toNat % m := by
  rw [bits_eq_div_mod, Nat.pow_zero, Nat.div_one, Nat.sub_zero, hm]

theorem inRange_iff (x lo hi : Nat) : inRange x lo hi = true ↔ lo ≤ x ∧ x ≤ hi := by simp [inRange]

/-! ### Which writes are accepted (20 R441; 14 R334; 19 R434) -/

theorem exec_registerWrite_ignored {s : State} {fn : Fn} {off : BitVec 24} {eight : Bool} (v : Word)
    (h : s.fnUp fn = false ∨ off.toNat % 8 ≠ 0 ∨ (eight = false ∧ wideReg off.toNat = true) ∨ s.mgmt.recov = true ∨
      (fn ≠ 0 ∧ 0x10000 ≤ off.toNat)) : exec (.registerWrite fn off eight v) s = .next s := by
  refine congrArg Host.Outcome.next ?_
  rcases h with h | h | ⟨he, hw⟩ | h | ⟨hfn, hoff⟩
  · exact if_pos (by simp [h])
  · exact if_pos (by simp [h])
  · exact if_pos (by simp [he, hw])
  · simp [State.writeReg, State.setupOpen, h]
  · have hval : fn.val ≠ 0 := fun h0 => hfn (Fin.ext h0)
    simp [State.writeReg, Nat.not_lt.2 hoff, hval]

/-- What answers a function is up, so its set-up registers are open outside recovery. -/
theorem State.setupOpen_of_fnUp {s : State} {fn : Fn} (hup : s.fnUp fn = true) (hr : s.mgmt.recov = false) : s.setupOpen = true := by
  simp only [State.fnUp, Bool.and_eq_true] at hup
  simp [State.setupOpen, hup.1.1, hr]

theorem State.pcieUp_of_fnUp {s : State} {fn : Fn} (hup : s.fnUp fn = true) : s.pins.pcieUp = true := by
  simp only [State.fnUp, Bool.and_eq_true] at hup
  exact hup.1.2

theorem exec_registerWrite_aligned {s : State} {fn : Fn} {k : Nat} {eight : Bool} (v : Word) (hup : s.fnUp fn = true) (hk : k < 2 ^ 24)
    (hal : k % 8 = 0) (hw : eight = true ∨ wideReg k = false) :
    exec (.registerWrite fn (BitVec.ofNat 24 k) eight v) s = .next (s.writeReg fn .pf0 k v) := by
  have hoff : (BitVec.ofNat 24 k).toNat = k := by rw [BitVec.toNat_ofNat, Nat.mod_eq_of_lt hk]
  have hok : ¬ (!s.fnUp fn || decide (k % 8 ≠ 0) || !eight && wideReg k) = true := by
    rcases hw with hw | hw <;> simp [hup, hal, hw]
  change execRegisterWrite _ _ _ _ _ = _
  rw [execRegisterWrite, hoff, if_neg hok]

/-! ### PF0's set-up registers (20 R452 to R456) -/

section
variable {s : State} (hup : s.fnUp 0 = true) (hr : s.mgmt.recov = false)
include hup hr

/-- An 8 B write of PF0 to a register outside the HIF_ block. -/
theorem exec_setupWrite {k : Nat} (v : Word) (h : 0x10000 ≤ k ∧ k < 2 ^ 24 ∧ k % 8 = 0) :
    exec (.registerWrite 0 (BitVec.ofNat 24 k) true v) s = .next (s.writeSetup .pf0 k v) := by
  obtain ⟨hlo, hhi, hal⟩ := h
  rw [exec_registerWrite_aligned v hup hhi hal (.inl rfl), State.writeReg, State.setupOpen_of_fnUp hup hr, if_neg (by simp),
    if_neg (Nat.not_lt.2 hlo)]
  rfl

end

/-! ### Set-up registers that only store (20 R452 to R456) -/

section
variable (s : State) (v : Word)

theorem State.writeSetup_tthr : s.writeSetup .pf0 0x30040 v = if 85 ≤ v.toNat % 256 ∧ v.toNat % 256 ≤ 105 then
    { s with memctl := { s.memctl with tthr := BitVec.ofNat 8 v.toNat } } else s := by
  have hv : s.writeSetup .pf0 0x30040 v = if inRange (bits v 7 0) 85 105 then
    { s with memctl := { s.memctl with tthr := BitVec.ofNat 8 (bits v 7 0) } } else s := rfl
  rw [hv, ofNat_bits_low v 7 8 rfl, bits_low v 7 256 rfl]
  simp only [inRange_iff]

theorem State.writeSetup_udp : s.writeSetup .pf0 0x40208 v = if 1024 ≤ v.toNat % 65536 ∧ v.toNat % 65536 ≤ 65534 then
    { s with links := { s.links with udp := BitVec.ofNat 16 v.toNat } } else s := by
  have hv : s.writeSetup .pf0 0x40208 v = if inRange (bits v 15 0) 1024 65534 then
    { s with links := { s.links with udp := BitVec.ofNat 16 (bits v 15 0) } } else s := rfl
  rw [hv, ofNat_bits_low v 15 16 rfl, bits_low v 15 65536 rfl]
  simp only [inRange_iff]

theorem State.writeSetup_dscp : s.writeSetup .pf0 0x40210 v =
    if v.toNat % 64 = 46 then s else { s with links := { s.links with dscp := BitVec.ofNat 6 v.toNat } } := by
  have hv : s.writeSetup .pf0 0x40210 v = if !decide (bits v 5 0 = 46) then
    { s with links := { s.links with dscp := BitVec.ofNat 6 (bits v 5 0) } } else s := rfl
  rw [hv, ofNat_bits_low v 5 6 rfl, bits_low v 5 64 rfl]
  simp only [Bool.not_eq_true', decide_eq_false_iff_not, ite_not]

theorem State.writeSetup_lead : s.writeSetup .pf0 0x50018 v =
    if 2048 ≤ v.toNat % 65536 then { s with time := { s.time with lead := BitVec.ofNat 16 v.toNat } } else s := by
  have hv : s.writeSetup .pf0 0x50018 v = if decide (2048 ≤ bits v 15 0) then
    { s with time := { s.time with lead := BitVec.ofNat 16 (bits v 15 0) } } else s := rfl
  rw [hv, ofNat_bits_low v 15 16 rfl, bits_low v 15 65536 rfl]
  simp only [decide_eq_true_eq]

theorem State.writeSetup_peerMin :
    s.writeSetup .pf0 0x20008 v = { s with sec := { s.sec with peerMin := BitVec.ofNat 16 (v.toNat / 65536) } } :=
  congrArg (fun x => { s with sec := { s.sec with peerMin := x } }) (ofNat_bits v 31 16 16 rfl)

/-! ### The arrays of set-up registers, one register after another -/

theorem State.writeSetup_portCfg (p : PortId) : s.writeSetup .pf0 (0x40100 + 8 * p.val) v = s.writePortCfg p (v.setWidth 32) := by
  fin_cases p <;> rfl

theorem State.writeSetup_gwmac (p : PortId) : s.writeSetup .pf0 (0x401C0 + 8 * p.val) v =
    { s with links := { s.links with gwmac := s.links.gwmac.set p (BitVec.ofNat 48 v.toNat) } } := by
  rw [← ofNat_bits_low v 47 48 rfl]
  fin_cases p <;> rfl

theorem State.writeSetup_waitLim (p : Pid) : s.writeSetup .pf0 (0x50100 + 8 * p.val) v =
    if 2 ^ 20 ≤ v.toNat % 2 ^ 49 ∧ v.toNat % 2 ^ 49 ≤ 2 ^ 48 then s.modPart p fun x => { x with waitLim := BitVec.ofNat 49 v.toNat } else s := by
  have hv : s.writeSetup .pf0 (0x50100 + 8 * p.val) v = if inRange (bits v 48 0) (2 ^ 20) (2 ^ 48) then
      s.modPart p fun x => { x with waitLim := BitVec.ofNat 49 (bits v 48 0) } else s := by
    fin_cases p <;> rfl
  rw [hv, ofNat_bits_low v 48 49 rfl, bits_low v 48 (2 ^ 49) rfl]
  simp only [inRange_iff]

end

theorem wideReg_waitLim (p : Pid) : wideReg (0x50100 + 8 * p.val) = true := by
  fin_cases p <;> rfl

/-! ### The registers of a ring pair (16 R360; 20 R455) -/

section
variable {s : State} {n : Fn} (ho : Open s n) (r : RingId) (v : Word)
include ho

theorem State.writeHif_sqBase : s.writeHif n (0x1000 + 0x20 * r.val) v =
    s.modRing n r fun x => if x.en then x else { x with sqBase := baseOf v } := by
  have hsq := slotAt_slot 0x1000 (by decide : 0 < 0x20) r
  rw [State.writeHif, if_neg (by omega), if_neg (by omega), (s.regsOpen_iff n).2 ho, if_neg (by simp), if_neg (by omega), hsq]

theorem State.writeHif_cqBase : s.writeHif n (0x1008 + 0x20 * r.val) v =
    s.modRing n r fun x => if x.en then x else { x with cqBase := baseOf v } := by
  have hsq : slotAt 64 0x1000 0x20 (0x1008 + 0x20 * r.val) = none := slotAt_none (by decide) (by omega)
  have hcq := slotAt_slot 0x1008 (by decide : 0 < 0x20) r
  rw [State.writeHif, if_neg (by omega), if_neg (by omega), (s.regsOpen_iff n).2 ho, if_neg (by simp), if_neg (by omega), hsq, hcq]

theorem State.writeHif_ringCfg : s.writeHif n (0x1010 + 0x20 * r.val) v = s.writeRingCfg n r (v.setWidth 32) := by
  have hsq : slotAt 64 0x1000 0x20 (0x1010 + 0x20 * r.val) = none := slotAt_none (by decide) (by omega)
  have hcq : slotAt 64 0x1008 0x20 (0x1010 + 0x20 * r.val) = none := slotAt_none (by decide) (by omega)
  have hcfg := slotAt_slot 0x1010 (by decide : 0 < 0x20) r
  rw [State.writeHif, if_neg (by omega), if_neg (by omega), (s.regsOpen_iff n).2 ho, if_neg (by simp), if_neg (by omega), hsq, hcq, hcfg]

/-- An accepted write of a ring register of an open function. -/
theorem exec_ringWrite {off : Nat} {eight : Bool} (h : off < 0x10000 ∧ off % 8 = 0) (hw : eight = true ∨ wideReg off = false) :
    exec (.registerWrite n (BitVec.ofNat 24 off) eight v) s = .next (s.writeHif n off v) := by
  obtain ⟨hup, -, hr⟩ := ho
  rw [exec_registerWrite_aligned v hup (by omega) h.2 hw, State.writeReg, State.setupOpen_of_fnUp hup hr, if_neg (by simp), if_pos h.1]

end

theorem wideReg_ringCfg (r : RingId) : wideReg (0x1010 + 0x20 * r.val) = false := by
  have hr := r.isLt
  have hsq : slotAt 64 0x1000 0x20 (0x1010 + 0x20 * r.val) = none := slotAt_none (by decide) (by omega)
  have hcq : slotAt 64 0x1008 0x20 (0x1010 + 0x20 * r.val) = none := slotAt_none (by decide) (by omega)
  have hmac : slotAt 8 0x401C0 8 (0x1010 + 0x20 * r.val) = none := slotAt_none (by decide) (by omega)
  have hlim : slotAt 16 0x50100 8 (0x1010 + 0x20 * r.val) = none := slotAt_none (by decide) (by omega)
  simp only [wideReg, hsq, hcq, hmac, hlim, Option.isSome_none, Bool.or_false, Bool.or_eq_false_iff, decide_eq_false_iff_not]
  omega

/-- Settles O45: the guards once, then each register by the value its write stores or the command that writes it. -/
theorem registerWrites : Obligations.RegisterWrites := by
  intro s fn off eight v w n
  refine ⟨fun h => ?_, fun h => ?_, fun hfn hoff => ?_, fun p => ?_, fun hup hr => ?_, fun ho r hen => ?_⟩
  · exact exec_registerWrite_ignored v (by tauto)
  · exact exec_registerWrite_ignored v (.inr (.inr (.inr (.inl h))))
  · exact exec_registerWrite_ignored v (.inr (.inr (.inr (.inr ⟨hfn, hoff⟩))))
  · have hoff : (BitVec.ofNat 24 (0x50100 + 8 * p.val)).toNat = 0x50100 + 8 * p.val := by
      rw [BitVec.toNat_ofNat, Nat.mod_eq_of_lt (by omega)]
    exact exec_registerWrite_ignored v (.inr (.inr (.inl ⟨rfl, by rw [hoff, wideReg_waitLim]⟩)))
  · have hopen : s.setupOpen = true := State.setupOpen_of_fnUp hup hr
    have hreset : exec (.devrst .register) s = .next s.deviceReset :=
      congrArg Host.Outcome.next (if_pos (by rw [hopen, State.pcieUp_of_fnUp hup]; rfl))
    have stored {k : Nat} {u : State} (h : 0x10000 ≤ k ∧ k < 2 ^ 24 ∧ k % 8 = 0) (hu : s.writeSetup .pf0 k v = u) : w k = .next u :=
      hu ▸ exec_setupWrite hup hr v h
    have command {k : Nat} {c : Instr} {u : State} (h : 0x10000 ≤ k ∧ k < 2 ^ 24 ∧ k % 8 = 0) (hu : s.writeSetup .pf0 k v = u)
        (hc : exec c s = .next u) : w k = exec c s := (stored h hu).trans hc.symm
    have guarded {k : Nat} {c : Instr} {u : State} (h : 0x10000 ≤ k ∧ k < 2 ^ 24 ∧ k % 8 = 0) (hu : s.writeSetup .pf0 k v = u)
        (hc : exec c s = .next (if s.setupOpen then u else s)) : w k = exec c s := command h hu (by rw [hc, hopen, if_pos rfl])
    exact ⟨stored (by decide) (s.writeSetup_tthr v), stored (by decide) (s.writeSetup_udp v), stored (by decide) (s.writeSetup_dscp v),
      stored (by decide) (s.writeSetup_lead v), stored (by decide) (s.writeSetup_peerMin v), stored (by decide) rfl,
      fun p => stored (by omega) (s.writeSetup_gwmac v p), fun p => stored (by omega) (s.writeSetup_waitLim v p),
      fun p => guarded (by omega) (s.writeSetup_portCfg v p) rfl,
      command (by decide) rfl rfl, guarded (by decide) rfl rfl, guarded (by decide) rfl rfl, guarded (by decide) rfl rfl,
      guarded (by decide) rfl rfl, guarded (by decide) rfl rfl, guarded (by decide) rfl rfl, command (by decide) rfl rfl,
      command (by decide) rfl rfl, fun hb => command (by decide) (if_pos hb) hreset,
      fun hb hd => command (by decide) ((if_neg (by simp [hb])).trans (if_pos hd)) rfl,
      fun hb hd => command (by decide) ((if_neg (by simp [hb])).trans (if_neg (by simp [hd]))) rfl⟩
  · have store (f g : Ring → Ring) (h : f (s.ring fn r) = g (s.ring fn r)) :
        (.next (s.modRing fn r f) : Host.Outcome State Fault Refusal) = .next (s.modRing fn r g) := congrArg _ (s.modRing_congr fn r f g h)
    refine ⟨?_, ?_, ?_⟩
    · rw [exec_ringWrite ho v (by omega) (.inl rfl), State.writeHif_sqBase ho]
      exact store _ _ (by simp [hen, baseOf])
    · rw [exec_ringWrite ho v (by omega) (.inl rfl), State.writeHif_cqBase ho]
      exact store _ _ (by simp [hen, baseOf])
    · rw [exec_ringWrite ho v (by omega) (.inr (wideReg_ringCfg r)), State.writeHif_ringCfg ho]
      rfl

end Sys2Proof.Machine
end

