-- ==== Sys2Proof/Proofs/HostSteps.lean ====
section
/-!
PROOFS. Events and completions change what the host sees and nothing else of the module, marks of launches their partitions alone
(16 R370, R384, R385; 13 R312).
-/
namespace Sys2Proof.Claims

open Sys2Proof.Machine

theorem HostOnly.refl (s : State) : HostOnly s s := rfl

theorem HostOnly.trans {s t u : State} (a : HostOnly s t) (b : HostOnly t u) : HostOnly s u := by
  rw [HostOnly, b, a]

theorem HostOnly.ite {c : Prop} [Decidable c] {s a b : State} (ha : HostOnly s a) (hb : HostOnly s b) : HostOnly s (if c then a else b) := by
  split
  · exact ha
  · exact hb

theorem HostOnly.foldl {α : Type} {f : State → α → State} (hf : ∀ s x, HostOnly s (f s x)) (xs : List α) (s : State) :
    HostOnly s (xs.foldl f s) :=
  List.foldlRecOn xs f (HostOnly.refl s) fun t ht x _ => ht.trans (hf t x)

theorem HostOnly.mem {s u : State} (h : HostOnly s u) : u.mem = s.mem := by rw [h]
theorem HostOnly.memctl {s u : State} (h : HostOnly s u) : u.memctl = s.memctl := by rw [h]
theorem HostOnly.bind {s u : State} (h : HostOnly s u) : u.bind = s.bind := by rw [h]
theorem HostOnly.sec {s u : State} (h : HostOnly s u) : u.sec = s.sec := by rw [h]
theorem HostOnly.tiles {s u : State} (h : HostOnly s u) : u.tiles = s.tiles := by rw [h]
theorem HostOnly.parts {s u : State} (h : HostOnly s u) : u.parts = s.parts := by rw [h]

/-! ### Events (16 R384, R385) -/

theorem HostOnly.hostMem (s : State) (m : List Host.Cell) : HostOnly s { s with hostMem := m } := rfl

theorem HostOnly.modFunc (s : State) (n : Fn) (f : Func → Func) : HostOnly s (s.modFunc n f) := rfl

theorem HostOnly.modRing (s : State) (n : Fn) (k : RingId) (f : Ring → Ring) : HostOnly s (s.modRing n k f) := rfl

theorem HostOnly.irq (s : State) (n : Fn) (v : Nat) : HostOnly s (s.irq n v) := HostOnly.ite rfl (HostOnly.modFunc s n _)

theorem HostOnly.writeEvent (s : State) (n : Fn) (e : Event) : HostOnly s (s.writeEvent n e) := by
  unfold State.writeEvent
  exact (((HostOnly.hostMem s _).trans (HostOnly.modFunc _ n _)).trans (HostOnly.irq _ n _)).trans (HostOnly.ite rfl rfl)

theorem HostOnly.flushOverflow (s : State) (n : Fn) : HostOnly s (s.flushOverflow n) :=
  HostOnly.ite ((HostOnly.writeEvent s n _).trans (HostOnly.modFunc _ n _)) rfl

theorem HostOnly.raise (s : State) (n : Fn) (e : Event) : HostOnly s (s.raise n e) :=
  HostOnly.ite (HostOnly.ite rfl rfl)
    (HostOnly.ite rfl ((HostOnly.flushOverflow s n).trans (HostOnly.ite rfl (HostOnly.writeEvent _ n e))))

theorem HostOnly.raisePf0 (s : State) (code : BitVec 16) (p : Option Pid) (a b : Nat) : HostOnly s (s.raisePf0 code p a b) :=
  HostOnly.raise s _ _

theorem HostOnly.raiseFn (s : State) (code : BitVec 16) (p : Pid) (a b : Nat) : HostOnly s (s.raiseFn code p a b) :=
  HostOnly.ite rfl (HostOnly.raise s _ _)

theorem HostOnly.raiseBoth (s : State) (code : BitVec 16) (p : Option Pid) (a b : Nat) : HostOnly s (s.raiseBoth code p a b) := by
  unfold State.raiseBoth
  split
  · exact HostOnly.raisePf0 s _ _ _ _
  · exact HostOnly.ite (HostOnly.raisePf0 s _ _ _ _) ((HostOnly.raiseFn s _ _ _ _).trans (HostOnly.raisePf0 _ _ _ _ _))

/-! ### Completions (16 R370) -/

theorem HostOnly.postCpl (s : State) (n : Fn) (k : RingId) (tag : Nat) (nirq : Bool) (code : BitVec 16) (st info : Nat) :
    HostOnly s (s.postCpl n k tag nirq code st info) :=
  HostOnly.ite (HostOnly.refl s)
    (((HostOnly.hostMem s _).trans (HostOnly.modRing _ n k _)).trans (HostOnly.ite (HostOnly.refl _) (HostOnly.irq _ n _)))

theorem HostOnly.complete (s : State) (n : Fn) (c : Cmd) (code : BitVec 16) (st info : Nat) : HostOnly s (s.complete n c code st info) :=
  (HostOnly.modFunc s n _).trans (HostOnly.ite (HostOnly.postCpl _ n _ _ _ _ _ _) rfl)

theorem HostOnly.postWritten (s : State) : HostOnly s s.postWritten := by
  refine HostOnly.foldl (fun t n => HostOnly.foldl (fun t c => ?_) _ t) _ s
  split
  · exact HostOnly.refl t
  · exact HostOnly.ite (HostOnly.complete t n c _ _ _) (HostOnly.refl t)

end Sys2Proof.Claims

namespace Sys2Proof.Machine

/-! ### What a mark of launches leaves (13 R312) -/

theorem FlagsMarked.mem {s u : State} (h : FlagsMarked s u) : u.mem = s.mem := by rw [h.frame]
theorem FlagsMarked.bind {s u : State} (h : FlagsMarked s u) : u.bind = s.bind := by rw [h.frame]
theorem FlagsMarked.tiles {s u : State} (h : FlagsMarked s u) : u.tiles = s.tiles := by rw [h.frame]
theorem FlagsMarked.funcs {s u : State} (h : FlagsMarked s u) : u.funcs = s.funcs := by rw [h.frame]
theorem FlagsMarked.sec {s u : State} (h : FlagsMarked s u) : u.sec = s.sec := by rw [h.frame]
theorem FlagsMarked.memctl {s u : State} (h : FlagsMarked s u) : u.memctl = s.memctl := by rw [h.frame]

/-! ### Completions whose records are written (13 R317) -/

/-- With no completion set aside there is none to post. -/
theorem State.postWritten_of_none {s : State} (h : ∀ n, ∀ c ∈ (s.func n).cmds, c.done = none) : s.postWritten = s := by
  refine List.foldlRecOn (motive := fun t : State => t = s) allFns _ rfl ?_
  rintro _ rfl n -
  refine List.foldlRecOn (motive := fun u : State => u = _) _ _ rfl ?_
  rintro _ rfl c hc
  rw [h n c hc]

end Sys2Proof.Machine
end

