-- ==== Sys2Proof/Proofs/ReceivedData.lean ====
section
/-!
PROOFS. Frames that wait for a clear and are taken: what they leave of the clear queue and of the unreadable sectors (09 R227, R234; 11 R266;
14 R332).
-/
namespace Sys2Proof.Machine

open Sys2Proof.Claims

/-! ### Messages, peers and buffers (11 R265, R283) -/

theorem Sent.foldl {α : Type} {f : State → α → State} (hf : ∀ s x, Sent s (f s x)) (xs : List α) (s : State) : Sent s (xs.foldl f s) :=
  List.foldlRecOn xs f (Sent.refl s) fun t ht x _ => ht.trans (hf t x)

theorem Sent.addTransfer (s : State) (p : Pid) (idx : Nat) (m : ModId) : Sent s (s.addTransfer p idx m) := by
  have hpeer : Sent s (s.ensurePeer p m) := by
    unfold State.ensurePeer
    split
    · rfl
    · rfl
  exact hpeer.trans rfl

theorem Sent.passOn (s : State) (p : Pid) (g : Program) (idx : Nat) (r : LinkRec) (rank : Nat) (carry : Bool) (data : List Byte)
    (skip : Option ModId) : Sent s (s.passOn p g idx r rank carry data skip) :=
  Sent.foldl (fun t m => (Sent.addTransfer t p idx m).trans (Sent.send _ p m _)) _ s

theorem Sent.relay (s : State) (p : Pid) (l : Launch) (g : Program) (r : LinkRec) (src : ModId) (entry rank : Nat) (carry : Bool) :
    Sent s (s.relay p l g r src entry rank carry) := by
  unfold State.relay
  dsimp only
  split
  · exact (Sent.send s p src _).trans (Sent.passOn ..)
  · exact Sent.send s p src _

theorem Sent.takeContribution (s : State) (p : Pid) (src : ModId) (entry rank : Nat) (carry : Bool) (bs : List Byte) (last : Bool) :
    Sent s (s.takeContribution p src entry rank carry bs last).1 := by
  unfold State.takeContribution
  split
  · rfl
  · split
    · rfl
    · split
      · rfl
      · dsimp only
        split
        · exact Sent.trans (t := s.modLaunch p _) rfl (Sent.relay ..)
        · rfl

theorem Sent.freeUnits (s : State) (p : Pid) (m : ModId) (h : HalfId) (c : Vc) (n : Nat) : Sent s (s.freeUnits p m h c n) := by
  unfold State.freeUnits State.freePeer State.freeLink
  split
  · dsimp only
    split
    · rfl
    · split
      · rfl
      · rfl
  · dsimp only
    split
    · rfl
    · rfl

theorem Sent.sendPfc (s : State) (h : HalfId) : Sent s (s.sendPfc h) := by
  unfold State.sendPfc
  dsimp only
  split
  · rfl
  · rfl

/-! ### The clear queue and the unreadable sectors -/

/-- u has the clear queue of s, and no sector has become unreadable since. -/
structure SectorsKept (s u : State) : Prop where
  clrPend : u.bind.clrPend = s.bind.clrPend
  bad : u.memctl.bad ⊆ s.memctl.bad

theorem SectorsKept.trans {s t u : State} (a : SectorsKept s t) (b : SectorsKept t u) : SectorsKept s u :=
  ⟨b.clrPend.trans a.clrPend, fun _ h => a.bad (b.bad h)⟩

theorem SectorsKept.of_fields {s u : State} (hc : u.bind.clrPend = s.bind.clrPend) (hb : u.memctl.bad = s.memctl.bad) : SectorsKept s u :=
  ⟨hc, hb ▸ List.Subset.refl _⟩

theorem SectorsKept.refl (s : State) : SectorsKept s s := SectorsKept.of_fields rfl rfl

theorem SectorsKept.ite {c : Prop} [Decidable c] {s a b : State} (ha : SectorsKept s a) (hb : SectorsKept s b) :
    SectorsKept s (if c then a else b) := by
  split
  · exact ha
  · exact hb

theorem SectorsKept.foldl {α : Type} {f : State → α → State} (hf : ∀ s x, SectorsKept s (f s x)) (xs : List α) (s : State) :
    SectorsKept s (xs.foldl f s) :=
  List.foldlRecOn xs f (SectorsKept.refl s) fun t ht x _ => ht.trans (hf t x)

theorem SectorsKept.of_hostOnly {s u : State} (h : HostOnly s u) : SectorsKept s u := SectorsKept.of_fields (by rw [h.bind]) (by rw [h.memctl])

theorem SectorsKept.memctl (s : State) (m : MemSt) (h : m.bad ⊆ s.memctl.bad) : SectorsKept s { s with memctl := m } := ⟨rfl, h⟩

theorem SectorsKept.of_sent {s u : State} (h : Sent s u) : SectorsKept s u := SectorsKept.of_fields (by rw [h]) (by rw [h])

theorem SectorsKept.of_flagsMarked {s u : State} (h : FlagsMarked s u) : SectorsKept s u :=
  SectorsKept.of_fields (by rw [h.frame]) (by rw [h.frame])

/-! ### Errors of memory (09 R227 to R232) -/

theorem SectorsKept.retirePc (s : State) (k : Nat) : SectorsKept s (s.retirePc k) := by
  unfold State.retirePc
  split
  · exact SectorsKept.refl s
  · refine ((SectorsKept.memctl s _ ?_).trans (SectorsKept.of_flagsMarked (FlagsMarked.markWhere _ .mnt _))).trans
      (SectorsKept.of_hostOnly (HostOnly.raisePf0 _ _ _ _ _))
    exact List.Subset.refl _

theorem SectorsKept.pcBudget (s : State) (k : Nat) : SectorsKept s (s.pcBudget k) := by
  refine SectorsKept.ite (SectorsKept.refl s) (SectorsKept.ite (SectorsKept.ite (SectorsKept.refl s)
    ((SectorsKept.memctl s _ ?_).trans (SectorsKept.of_hostOnly (HostOnly.raisePf0 _ _ _ _ _))))
    (SectorsKept.ite (SectorsKept.memctl s _ ?_) (SectorsKept.retirePc s k)))
  · exact List.Subset.refl _
  · exact List.Subset.refl _

theorem bad_roll (m : MemSt) (now : Nat) : (m.roll now).bad = m.bad := by
  unfold MemSt.roll
  split
  · rfl
  · rfl

theorem SectorsKept.pcUe (s : State) (k : Nat) : SectorsKept s (s.pcUe k) := by
  refine (SectorsKept.memctl s _ ?_).trans (SectorsKept.ite (SectorsKept.pcBudget _ k) (SectorsKept.refl _))
  exact bad_roll s.memctl s.now ▸ List.Subset.refl _

theorem SectorsKept.raiseUncorrectable (s : State) (p : Option Pid) (dev : Nat) : SectorsKept s (s.raiseUncorrectable p dev) := by
  refine ((SectorsKept.memctl s _ ?_).trans (SectorsKept.pcUe _ _)).trans (SectorsKept.of_hostOnly (HostOnly.raiseBoth _ _ _ _ _))
  exact List.Subset.refl _

/-! ### Writes make sectors readable (09 R227) -/

/-- Lines of device memory written one after another make no sector unreadable. -/
theorem bad_foldl_writeLine {α : Type} (mem : List Host.Cell) (hint line lo hi : α → Nat) (xs : List α) (m : MemSt) :
    (xs.foldl (fun m i => m.writeLine mem (hint i) (line i) (lo i) (hi i)) m).bad ⊆ m.bad :=
  List.foldlRecOn (motive := fun m' : MemSt => m'.bad ⊆ m.bad) xs _ (List.Subset.refl _) fun _ h _ _ =>
    List.Subset.trans (List.filter_subset_self _) h

theorem SectorsKept.siloWrite (s : State) (p : Pid) (a : Nat) (bs : List Byte) : SectorsKept s (s.siloWrite p a bs) := by
  unfold State.siloWrite State.siloWriteH
  split
  · exact SectorsKept.refl s
  · refine ⟨rfl, ?_⟩
    dsimp only [State.writeLines]
    split
    · exact List.Subset.refl _
    · exact bad_foldl_writeLine _ (fun _ => 0) _ _ _ _ _

/-! ### Frames in their turn (11 R266; 14 R332) -/

theorem SectorsKept.holdWrites {s t : State} {p : Pid} {rs : List (Nat × Nat)} (h : s.holdWrites p rs = some t) : SectorsKept s t := by
  unfold State.holdWrites at h
  dsimp only at h
  split at h
  · cases h
  · cases h
    exact SectorsKept.of_fields rfl rfl

theorem SectorsKept.writePut (s : State) (p : Pid) (src : ModId) (xfer addr : Nat) (bs : List Byte) (last : Bool) :
    SectorsKept s (s.writePut p src xfer addr bs last) := by
  have hpeer (t : State) (f : Peer → Peer) : SectorsKept t (t.modPeer p src f) := SectorsKept.of_fields rfl rfl
  have hsend (t : State) (x : Message) : SectorsKept t (t.send p src x) := SectorsKept.of_sent (Sent.send t p src x)
  unfold State.writePut
  dsimp only
  refine SectorsKept.trans ?_ (SectorsKept.ite ((hsend _ _).trans (hpeer _ _)) (SectorsKept.refl _))
  split
  · exact SectorsKept.siloWrite s p addr bs
  · exact (SectorsKept.ite (SectorsKept.raiseUncorrectable s _ _) (SectorsKept.refl s)).trans (hpeer _ _)

theorem SectorsKept.takeData (s : State) (p : Pid) (f : Frame) : SectorsKept s (s.takeData p f).1 := by
  unfold State.takeData
  split
  · unfold State.takePut
    split
    · next t ht =>
      split at ht
      · exact SectorsKept.holdWrites ht
      · cases ht
    · exact SectorsKept.writePut ..
  · exact SectorsKept.of_sent (Sent.takeContribution ..)
  · exact SectorsKept.refl s

theorem SectorsKept.drainChan (s : State) (p : Pid) (src : ModId) (c : Vc) (n : Nat) : SectorsKept s (s.drainChan p src c n) := by
  induction n generalizing s with
  | zero => exact SectorsKept.refl s
  | succ n ih =>
    unfold State.drainChan
    split
    · exact SectorsKept.refl s
    · split
      · exact SectorsKept.refl s
      · dsimp only
        split
        · exact SectorsKept.takeData s p _
        · exact ((SectorsKept.takeData s p _).trans (SectorsKept.of_sent
            (Sent.trans (rfl : Sent _ (State.modPeer _ p src _)) ((Sent.freeUnits ..).trans (Sent.sendPfc ..))))).trans (ih _)

theorem SectorsKept.drainPart (s : State) (p : Pid) : SectorsKept s (s.drainPart p) :=
  SectorsKept.foldl (fun t (q : Peer) => (SectorsKept.drainChan t p q.id .vd0 _).trans (SectorsKept.drainChan _ p q.id .vd1 _)) _ s

/-- Without a frame that waits there is none to take. -/
theorem State.drainPart_of_no_early {s : State} {p : Pid} (h : ∀ q ∈ (s.part p).peers, q.early = []) : s.drainPart p = s := by
  have hnone (src : ModId) : ((s.peer p src).map (·.early.length)).getD 0 = 0 := by
    cases hq : s.peer p src with
    | none => rfl
    | some q => simp [h q (List.mem_of_find?_eq_some hq)]
  refine List.foldlRecOn (motive := fun t : State => t = s) _ _ rfl ?_
  rintro _ rfl q -
  rw [State.drainPeer, hnone]
  rfl

end Sys2Proof.Machine
end

