-- ==== Sys2Proof/Proofs/GranuleClears.lean ====
section
/-!
PROOFS. The end of a granule's clear: its zeros, its bit, its sectors, the writes held for it and the next clear (09 R233, R234; 14 R331,
R332).
-/
namespace Sys2Proof.Machine

open Sys2Proof.Claims

/-! ### Memory after a clear (14 R331) -/

theorem Tab.get_drop {α : Type} [DecidableEq α] (d : α) (l : List (Nat × α)) (a b x lo : Nat) (h : Tab.wfFrom d lo l = true) :
    Tab.get d (Tab.drop l a b) x = if a ≤ x ∧ x < b then d else Tab.get d l x := by
  induction l generalizing lo with
  | nil => simp [Tab.drop, Tab.get]
  | cons c r ih =>
    obtain ⟨k, v⟩ := c
    simp only [Tab.wfFrom, Bool.and_eq_true, decide_eq_true_eq] at h
    have hr := ih (k + 1) h.2
    by_cases hk : a ≤ k ∧ k < b
    · have hdrop : Tab.drop ((k, v) :: r) a b = Tab.drop r a b := by simp [Tab.drop, hk]
      rw [hdrop, hr]
      by_cases hx : a ≤ x ∧ x < b
      · rw [if_pos hx, if_pos hx]
      · rw [if_neg hx, if_neg hx, Tab.get]
        by_cases hlt : x < k
        · rw [if_pos hlt, Tab.get_below d r (k + 1) x h.2 (by omega)]
        · rw [if_neg hlt, if_neg (by omega)]
    · have hdrop : Tab.drop ((k, v) :: r) a b = (k, v) :: Tab.drop r a b :=
        List.filter_cons_of_pos (by rw [← Bool.decide_and, decide_eq_false hk, Bool.not_false])
      rw [hdrop, Tab.get, Tab.get, hr]
      by_cases hlt : x < k
      · rw [if_pos hlt, if_pos hlt, ite_self]
      · rw [if_neg hlt, if_neg hlt]
        by_cases heq : x = k
        · rw [if_pos heq, if_pos heq, if_neg (heq ▸ hk)]
        · rw [if_neg heq, if_neg heq]

/-- A cleared range reads as zero, every other byte as before. -/
theorem Memory.read_clear (m : List Host.Cell) (a b x : Nat) (h : Memory.wf m = true) :
    Memory.read (Memory.clear m a b) x = if a ≤ x ∧ x < b then 0 else Memory.read m x :=
  Tab.get_drop _ m a b x 0 h

/-- A byte lies in a granule when it lies between the granule's ends. -/
theorem granule_iff (g x : Nat) : (g * granSize ≤ x ∧ x < g * granSize + granSize) ↔ x / granSize = g := by
  rw [granSize]
  omega

/-! ### The clear queue (09 R234) -/

theorem getLsbD_setBit_false {w : Nat} (x : BitVec w) (i j : Nat) :
    (setBit x i false).getLsbD j = (x.getLsbD j && decide (j ≠ i)) := by
  by_cases hj : j < w
  · rw [setBit, if_neg Bool.false_ne_true, BitVec.getLsbD_and, BitVec.getLsbD_not, BitVec.getLsbD_ofNat, Nat.testBit_two_pow]
    simp [hj, eq_comm]
  · simp [BitVec.getLsbD_of_ge, Nat.not_lt.1 hj]

theorem BindSt.nextClear_fields (b : BindSt) : b.nextClear.clrPend = b.clrPend ∧ b.nextClear.heldWr = b.heldWr := by
  unfold BindSt.nextClear
  split
  · exact ⟨rfl, rfl⟩
  · split
    · exact ⟨rfl, rfl⟩
    · exact ⟨rfl, rfl⟩

/-- With no clear at work the next one is that of a granule that waits. -/
theorem BindSt.nextClear_waits {b : BindSt} {h : Nat} (hb : b.clearing = none) (hn : b.nextClear.clearing = some h) :
    b.clrPend.getLsbD h = true := by
  unfold BindSt.nextClear at hn
  rw [hb] at hn
  dsimp only at hn
  split at hn
  · next hm =>
    cases hn
    simpa using (List.mem_filter.1 (hm ▸ List.mem_cons_self)).2
  · exact List.find?_some hn

/-- With no clear at work and a granule that waits a clear starts. -/
theorem BindSt.nextClear_starts {b : BindSt} {h : Nat} (hb : b.clearing = none) (hlt : h < 376) (hp : b.clrPend.getLsbD h = true) :
    b.nextClear.clearing ≠ none := by
  unfold BindSt.nextClear
  rw [hb]
  dsimp only
  split
  · exact Option.some_ne_none _
  · intro hnone
    exact List.find?_eq_none.1 hnone h (List.mem_range.2 hlt) hp

/-! ### GRANULE_CLEAR_COMPLETE (09 R233, R234; 14 R332) -/

theorem SectorsKept.drainParts (s : State) (ps : List Pid) : SectorsKept s (ps.foldl State.drainPart s) :=
  SectorsKept.foldl SectorsKept.drainPart ps s

theorem State.drainParts_of_no_early {s : State} (h : ∀ p, ∀ q ∈ (s.part p).peers, q.early = []) (ps : List Pid) :
    ps.foldl State.drainPart s = s := by
  refine List.foldlRecOn (motive := fun t : State => t = s) _ _ rfl ?_
  rintro _ rfl p -
  exact State.drainPart_of_no_early (h p)

theorem bad_writeRange (m : MemSt) (mem : List Host.Cell) (a n : Nat) : (m.writeRange mem a n).bad ⊆ m.bad := by
  unfold MemSt.writeRange
  split
  · exact List.Subset.refl _
  · exact bad_foldl_writeLine mem (fun _ => 0) id _ _ _ m

/-- After its clear no unreadable sector lies in a granule: the writes held for it make none. -/
theorem State.bad_clearGranule (s : State) (g : Nat) : ∀ a ∈ (s.clearGranule g).memctl.bad, a / granSize ≠ g := by
  have hland : (s.clearGranule g).memctl.bad ⊆ (s.memctl.clearGranule g).bad :=
    List.foldlRecOn (motive := fun m : MemSt => m.bad ⊆ (s.memctl.clearGranule g).bad) _ _ (List.Subset.refl _)
      fun m hm w _ => List.Subset.trans (bad_writeRange m _ w.1 w.2.length) hm
  intro a ha
  simpa using (List.mem_filter.1 (hland ha)).2

theorem exec_granuleClearComplete {s : State} {g : Nat} (now : Nat) (hg : s.bind.clearing = some g) :
    exec (.granuleClearComplete now) s = .next ((allParts.foldl State.drainPart ((s.at_ now).clearGranule g).postWritten).markWhere .cont
      fun p => !(s.part p).entry.gran.contains g) := by
  change execGranuleClearComplete now s = _
  simp only [execGranuleClearComplete, State.at_bind, hg]
  rfl

/-- The queue after the clear of a granule, before the next clear starts. -/
def BindSt.cleared (b : BindSt) (g : Nat) : BindSt :=
  { b with clrPend := setBit b.clrPend g false, clearing := none
           heldWr := b.heldWr.filter fun w => !decide (w.1 / granSize = g) }

theorem BindSt.cleared_waits (b : BindSt) (g h : Nat) : (b.cleared g).clrPend.getLsbD h = true ↔ h ≠ g ∧ b.clrPend.getLsbD h = true := by
  rw [BindSt.cleared, getLsbD_setBit_false, Bool.and_eq_true, decide_eq_true_eq, and_comm]

theorem State.bind_clearGranule (s : State) (g : Nat) : (s.clearGranule g).bind = (s.bind.cleared g).nextClear := rfl

/-- The memory after the clear of a granule for which no write is held. -/
theorem State.read_clearGranule {s : State} {g : Nat} (hwf : Memory.wf s.mem = true) (hheld : ∀ w ∈ s.bind.heldWr, w.1 / granSize ≠ g)
    (a : Nat) : Memory.read (s.clearGranule g).mem a = if a / granSize = g then 0 else Memory.read s.mem a := by
  have hnone : (s.bind.heldWr.filter fun w => decide (w.1 / granSize = g)) = [] :=
    List.filter_eq_nil_iff.2 fun w hw => by simpa using hheld w hw
  have hmem : (s.clearGranule g).mem = Memory.clear s.mem (g * granSize) (g * granSize + granSize) := by
    change landWrites _ (s.bind.heldWr.filter fun w => decide (w.1 / granSize = g)) = _
    rw [hnone]
    rfl
  rw [hmem, Memory.read_clear _ _ _ _ hwf]
  simp only [granule_iff]

/-- The end of a clear: the granule is cleared, and without frames that wait nothing more happens to memory, the queue and the tiles. -/
theorem exec_granuleClearComplete_clears {s : State} {g : Nat} (now : Nat) (hg : s.bind.clearing = some g) :
    ∃ u : State, exec (.granuleClearComplete now) s = .next u ∧ SectorsKept ((s.at_ now).clearGranule g) u ∧
      ((∀ p, ∀ q ∈ (s.part p).peers, q.early = []) →
        u.mem = ((s.at_ now).clearGranule g).mem ∧ u.bind = ((s.at_ now).clearGranule g).bind ∧ u.tiles = s.tiles ∧
          ((∀ n, ∀ c ∈ (s.func n).cmds, c.done = none) → u.funcs = s.funcs)) := by
  have hpost : HostOnly ((s.at_ now).clearGranule g) ((s.at_ now).clearGranule g).postWritten := HostOnly.postWritten _
  have hmark := FlagsMarked.markWhere (allParts.foldl State.drainPart ((s.at_ now).clearGranule g).postWritten) .cont
    fun p => !((s.at_ now).part p).entry.gran.contains g
  refine ⟨_, exec_granuleClearComplete now hg, ((SectorsKept.of_hostOnly hpost).trans (SectorsKept.drainParts _ _)).trans
    (SectorsKept.of_flagsMarked hmark), fun hearly => ?_⟩
  have hdrain : allParts.foldl State.drainPart ((s.at_ now).clearGranule g).postWritten = ((s.at_ now).clearGranule g).postWritten := by
    refine State.drainParts_of_no_early (fun p => ?_) allParts
    rw [State.part, hpost.parts]
    exact hearly p
  rw [hdrain] at hmark ⊢
  refine ⟨hmark.mem.trans hpost.mem, hmark.bind.trans hpost.bind, hmark.tiles.trans hpost.tiles, fun hdone => hmark.funcs.trans ?_⟩
  have hnone : ∀ n, ∀ c ∈ (((s.at_ now).clearGranule g).func n).cmds, c.done = none := hdone
  rw [State.postWritten_of_none hnone]
  rfl

theorem exec_granuleClearComplete_idle {s : State} (now : Nat) (hg : s.bind.clearing = none) :
    exec (.granuleClearComplete now) s = .fault (.notDue "GRANULE_CLEAR_COMPLETE") := by
  change execGranuleClearComplete now s = _
  simp only [execGranuleClearComplete, State.at_bind, hg]
  rfl

/-- The end of a clear in the terms of the memory, the queue and the tiles. -/
theorem exec_granuleClearComplete_spec {s : State} {g : Nat} (now : Nat) (hg : s.bind.clearing = some g) (hwf : Memory.wf s.mem = true) :
    ∃ u : State, exec (.granuleClearComplete now) s = .next u ∧
      u.bind.clrPend.getLsbD g = false ∧ (∀ h, h ≠ g → u.bind.clrPend.getLsbD h = s.bind.clrPend.getLsbD h) ∧
      (∀ a ∈ u.memctl.bad, a / granSize ≠ g) ∧
      ((∀ p, ∀ q ∈ (s.part p).peers, q.early = []) →
        u.mem = landWrites (Memory.clear s.mem (g * granSize) (g * granSize + granSize))
          (s.bind.heldWr.filter fun w => decide (w.1 / granSize = g)) ∧
        u.bind.heldWr = s.bind.heldWr.filter (fun w => !decide (w.1 / granSize = g)) ∧
        (∀ h, u.bind.clearing = some h → h ≠ g ∧ s.bind.clrPend.getLsbD h = true) ∧
        ((∃ h, h < 376 ∧ h ≠ g ∧ s.bind.clrPend.getLsbD h = true) → u.bind.clearing ≠ none) ∧
        (∀ a, a / granSize ≠ g → (∀ w ∈ s.bind.heldWr, w.1 / granSize ≠ g) → Memory.read u.mem a = Memory.read s.mem a) ∧
        ((∀ w ∈ s.bind.heldWr, w.1 / granSize ≠ g) → ∀ a, a / granSize = g → Memory.read u.mem a = 0) ∧ u.tiles = s.tiles ∧
        ((∀ n, ∀ c ∈ (s.func n).cmds, c.done = none) → u.funcs = s.funcs)) := by
  obtain ⟨u, hexec, hkept, hquiet⟩ := exec_granuleClearComplete_clears now hg
  have hpend (h : Nat) : u.bind.clrPend.getLsbD h = (s.bind.clrPend.getLsbD h && decide (h ≠ g)) := by
    rw [hkept.clrPend, State.bind_clearGranule, (BindSt.nextClear_fields _).1]
    exact getLsbD_setBit_false s.bind.clrPend g h
  refine ⟨u, hexec, by simp [hpend], fun h hne => by simp [hpend, hne], fun a ha => State.bad_clearGranule _ g a (hkept.bad ha),
    fun hearly => ?_⟩
  obtain ⟨hmem, hbind, htiles, hfuncs⟩ := hquiet hearly
  rw [State.bind_clearGranule] at hbind
  have hread := State.read_clearGranule (s := s.at_ now) (g := g) hwf
  rw [hbind]
  refine ⟨hmem, (BindSt.nextClear_fields _).2, fun h hn => (BindSt.cleared_waits s.bind g h).1 (BindSt.nextClear_waits rfl hn),
    fun ⟨h, hlt, hwait⟩ => BindSt.nextClear_starts rfl hlt ((BindSt.cleared_waits s.bind g h).2 hwait), fun a ha hheld => ?_,
    fun hheld a ha => ?_, htiles, hfuncs⟩
  · rw [hmem, hread hheld, if_neg ha]
    rfl
  · rw [hmem, hread hheld, if_pos ha]

end Sys2Proof.Machine
end

