-- ==== Sys2Proof/Proofs/KeyRotations.lean ====
section
/-!
PROOFS. Rotations of the memory keys and of the link keys: their start, the sweep over the pages, their completion (15 R347 to R350; 16
R376).
-/
namespace Sys2Proof.Machine

open Sys2Proof.Claims

/-! ### Updates of a rotation -/

theorem State.rot_modRot (s : State) (p : Pid) (f : Rotation → Rotation) : (s.modRot p f).sec.rot[p] = f s.sec.rot[p] := by
  simp [State.modRot]

/-- While the transport key stands both dies load the key that XD sends (15 R345). -/
theorem SecSt.load_of_transport {x : SecSt} (h : x.transport ≠ none) (k : Nat) : x.load k = some k := by
  cases ht : x.transport with
  | none => exact absurd ht h
  | some t => simp [SecSt.load, SecSt.unwrap, SecSt.wrap, ht]

theorem pidOf_of_bits {d : BitVec 512} {p : Pid} (h : bits (dw d 1) 3 0 = p.val) : pidOf d = p := Fin.ext h

/-! ### The command that waits for a rotation -/

theorem State.hostOnly_rotationDone (s : State) (w : Option (Fn × Nat)) : HostOnly s (s.rotationDone w) := by
  unfold State.rotationDone
  split
  · exact HostOnly.refl s
  · split
    · exact HostOnly.refl s
    · exact HostOnly.complete s _ _ _ _ _

theorem State.hostOnly_raiseRotated (s : State) (p : Pid) (link : Bool) : HostOnly s (s.raiseRotated p link) := HostOnly.raiseFn s _ _ _ _

/-- The command leaves the fetched ones of its function, and the event after it keeps them. -/
theorem State.cmds_rotationDone {s : State} {n : Fn} {cid : Nat} {c : Cmd} (hc : s.findCmd n cid = some c) (p : Pid) (link : Bool) :
    (((s.rotationDone (some (n, cid))).raiseRotated p link).func n).cmds = (s.func n).cmds.filter fun y => decide (y.cid ≠ c.cid) := by
  rw [State.raiseRotated, (Kept.raiseFn _ _ p _ _).cmds]
  simp only [State.rotationDone, hc]
  exact s.cmds_complete n c _ _ _

/-! ### The sweep (15 R347, R348) -/

/-- The page that the sweep of a partition is at. -/
def State.sweepAt (s : State) (p : Pid) : Nat :=
  ((s.part p).entry.gran[(s.sec.rot[p]).next.toNat / 2 ^ 18]?.getD 0) * 2 ^ 18 + (s.sec.rot[p]).next.toNat % 2 ^ 18

/-- The page at which the sweep is takes the epoch bit of the new slot. -/
def State.flipPage (s : State) (p : Pid) : State :=
  let rest := s.memctl.epochOne.filter fun (q : Nat) => !decide (q = s.sweepAt p)
  { s with memctl := { s.memctl with epochOne := if (s.sec.rot[p]).cur then rest else s.sweepAt p :: rest } }

/-- A page among those of epoch 1 after it has moved to a slot. -/
theorem contains_flipped (one : List Nat) (cur : Bool) (page x : Nat) :
    (if cur then one.filter (fun q => !decide (q = page)) else page :: one.filter fun q => !decide (q = page)).contains x =
      if x = page then !cur else one.contains x := by
  by_cases hx : x = page
  · cases cur <;> simp [hx]
  · cases cur <;> simp [hx]

/-- The page is read under the new slot, every other one under the slot it had. -/
theorem State.sectorKey_flipPage (s : State) (p : Pid) (d : Nat) : (s.flipPage p).sectorKey p d =
    if d / 4096 = s.sweepAt p then (if (s.sec.rot[p]).cur then (s.sec.silo[p]).1 else (s.sec.silo[p]).2) else s.sectorKey p d := by
  have hone : (s.flipPage p).memctl.epochOne.contains (d / 4096) =
      if d / 4096 = s.sweepAt p then !(s.sec.rot[p]).cur else s.memctl.epochOne.contains (d / 4096) := contains_flipped _ _ _ _
  have hsilo : (s.flipPage p).sec.silo = s.sec.silo := rfl
  rw [State.sectorKey, hone, hsilo]
  by_cases hd : d / 4096 = s.sweepAt p
  · rw [if_pos hd, if_pos hd]
    cases (s.sec.rot[p]).cur <;> rfl
  · rw [if_neg hd, if_neg hd, State.sectorKey]

theorem State.sectorKey_congr {s u : State} (hm : u.memctl = s.memctl) (hs : u.sec.silo = s.sec.silo) (p : Pid) (d : Nat) :
    u.sectorKey p d = s.sectorKey p d := by
  rw [State.sectorKey, State.sectorKey, hm, hs]

/-- The state in which a page of the sweep has flipped and the launches are marked for it (15 R349). -/
def State.swept (s : State) (p : Pid) : State := ((s.flipPage p).markPart p .mnt).markOthers p

theorem State.flagsMarked_swept (s : State) (p : Pid) : FlagsMarked (s.flipPage p) (s.swept p) := by
  unfold State.swept State.markOthers
  exact (FlagsMarked.markPart _ p .mnt).trans (FlagsMarked.markWhere _ .cont _)

section
variable {s : State} {p : Pid} (now : Nat)

theorem exec_sweepPage (ha : (s.sec.rot[p]).active = true) (hd : s.sec.drbgDown = false) : exec (.sweepPage p now) s =
    .next (if (s.sec.rot[p]).next.toNat + 1 = (s.part p).entry.gran.length * 2 ^ 18 then ((s.at_ now).swept p).endRotation p
      else ((s.at_ now).swept p).modRot p fun r => { r with next := r.next + 1 }) := by
  change execSweepPage p now s = _
  rw [execSweepPage]
  simp only [State.at_sec, ha, hd]
  rfl

theorem exec_sweepPage_idle (ha : (s.sec.rot[p]).active = false) : exec (.sweepPage p now) s = .fault (.notDue "SWEEP_PAGE") := by
  change execSweepPage p now s = _
  rw [execSweepPage]
  simp only [State.at_sec, ha, Bool.not_false, Bool.true_or, if_true]
  rfl

end

/-- The old key is erased and the other slot is current. -/
def State.swapKeys (s : State) (p : Pid) : State :=
  let keys := if (s.sec.rot[p]).cur then ((s.sec.silo[p]).1, none) else (none, (s.sec.silo[p]).2)
  ({ s with sec := { s.sec with silo := s.sec.silo.set p keys } } : State).modRot p fun r =>
    { r with active := false, cur := !r.cur, next := 0, waiter := none }

theorem State.endRotation_eq (s : State) (p : Pid) :
    s.endRotation p = ((s.swapKeys p).rotationDone (s.sec.rot[p]).waiter).raiseRotated p false := rfl

/-- The end of a rotation: the other slot is current and alone, and the command that waited has completed. -/
theorem State.endRotation_spec (s : State) (p : Pid) :
    (s.endRotation p).sec.rot[p] = { s.sec.rot[p] with active := false, cur := !(s.sec.rot[p]).cur, next := 0, waiter := none } ∧
      (s.endRotation p).sec.silo[p] = (if (s.sec.rot[p]).cur then ((s.sec.silo[p]).1, none) else (none, (s.sec.silo[p]).2)) ∧
      (s.endRotation p).mem = s.mem ∧
      ∀ w k c, (s.sec.rot[p]).waiter = some (w, k) → s.findCmd w k = some c →
        ((s.endRotation p).func w).cmds = (s.func w).cmds.filter fun y => decide (y.cid ≠ c.cid) := by
  have hhost : HostOnly (s.swapKeys p) (s.endRotation p) :=
    (State.hostOnly_rotationDone _ (s.sec.rot[p]).waiter).trans (State.hostOnly_raiseRotated _ p false)
  refine ⟨?_, ?_, hhost.mem, fun w k c hw hc => ?_⟩
  · rw [hhost.sec]
    exact State.rot_modRot _ p _
  · rw [hhost.sec]
    exact Vector.getElem_set_self _
  · have hc' : (s.swapKeys p).findCmd w k = some c := hc
    rw [State.endRotation_eq, hw, State.cmds_rotationDone hc']
    rfl

/-! ### The start of a rotation (15 R347, R350) -/

/-- A keyed peer that is not lost has a handshake before it. -/
def Peer.markRekey (q : Peer) : Peer := { q with rekey := q.rekey || (q.keyed && q.lost.isNone) }

/-- The link rotation runs: its command waits, and the peers are marked. -/
def State.rekeyPeers (s : State) (p : Pid) (n : Fn) (cid : Nat) : State :=
  (s.modPart p fun x => { x with peers := x.peers.map Peer.markRekey }).modRot p fun r => { r with link := true, linkWaiter := some (n, cid) }

section
variable {s : State} {fn : Fn} {cid : Nat} {c : Cmd} {p : Pid} (hdue : s.dueCmd fn cid 0x42 = some c) (hp : bits (dw c.desc 1) 3 0 = p.val)
include hdue hp

theorem exec_keyRotate_refused {code : BitVec 16} (hl : rotLink c.desc = false)
    (hk : s.rotateCheck fn c.desc (s.sec.rot[p]).active = some code) : exec (.keyRotate fn cid) s = .next (s.complete fn c code 0 0) := by
  change execKeyRotate fn cid s = _
  simp only [execKeyRotate, hdue, hl, pidOf_of_bits hp, hk, Bool.false_eq_true, if_false]

theorem exec_keyRotate_starts (hl : rotLink c.desc = false) (hk : s.rotateCheck fn c.desc (s.sec.rot[p]).active = none) :
    exec (.keyRotate fn cid) s = .next ((s.startCmd fn c).startRotation p fn cid) := by
  change execKeyRotate fn cid s = _
  simp only [execKeyRotate, hdue, hl, pidOf_of_bits hp, hk, Bool.false_eq_true, if_false]

theorem exec_keyRotateLink_refused {code : BitVec 16} (hl : rotLink c.desc = true)
    (hk : s.rotateCheck fn c.desc (s.sec.rot[p]).link = some code) : exec (.keyRotateLink fn cid) s = .next (s.complete fn c code 0 0) := by
  change execKeyRotateLink fn cid s = _
  simp only [execKeyRotateLink, hdue, hl, pidOf_of_bits hp, hk, Bool.not_true, Bool.false_eq_true, if_false]

theorem exec_keyRotateLink_starts (hl : rotLink c.desc = true) (hk : s.rotateCheck fn c.desc (s.sec.rot[p]).link = none) :
    exec (.keyRotateLink fn cid) s = .next (((s.startCmd fn c).rekeyPeers p fn cid).linkRotated p) := by
  change execKeyRotateLink fn cid s = _
  simp only [execKeyRotateLink, hdue, hl, pidOf_of_bits hp, hk, Bool.not_true, Bool.false_eq_true, if_false]
  rfl

end

/-- A memory rotation puts a new key into the other slot; without a transport key the dies load none (15 R345, R347). -/
theorem State.startRotation_spec (s : State) (p : Pid) (n : Fn) (cid : Nat) :
    (s.startRotation p n cid).mem = s.mem ∧ (s.startRotation p n cid).hostMem = s.hostMem ∧
      (s.startRotation p n cid).sec.rot[p] = { s.sec.rot[p] with active := true, next := 0, waiter := some (n, cid) } ∧
      (s.startRotation p n cid).sec.keyGen = s.sec.keyGen + 1 ∧
      (s.sec.transport ≠ none → (s.startRotation p n cid).sec.silo[p] =
        if (s.sec.rot[p]).cur then (some (s.sec.keyGen + 1), (s.sec.silo[p]).2) else ((s.sec.silo[p]).1, some (s.sec.keyGen + 1))) := by
  refine ⟨rfl, rfl, State.rot_modRot _ p _, rfl, fun ht => ?_⟩
  have hload : s.newKey.sec.load s.newKey.sec.keyGen = some (s.sec.keyGen + 1) := SecSt.load_of_transport ht _
  rw [← hload]
  exact Vector.getElem_set_self _

/-! ### The link rotation (15 R350) -/

theorem any_markRekey_eq_false {qs : List Peer} (h : ∀ q ∈ qs, q.rekey = false ∧ (q.keyed = false ∨ q.lost ≠ none)) :
    ((qs.map Peer.markRekey).any fun q => q.rekey) = false := by
  refine List.any_eq_false.2 fun x hx => ?_
  obtain ⟨q, hq, rfl⟩ := List.mem_map.1 hx
  obtain ⟨hr, hk | hl⟩ := h q hq
  · simp [Peer.markRekey, hr, hk]
  · simp [Peer.markRekey, hr, Option.isNone_eq_false_iff.2 (Option.isSome_iff_ne_none.2 hl)]

theorem any_markRekey_eq_true {qs : List Peer} (h : ∃ q ∈ qs, q.keyed = true ∧ q.lost = none) :
    ((qs.map Peer.markRekey).any fun q => q.rekey) = true := by
  obtain ⟨q, hq, hk, hl⟩ := h
  exact List.any_eq_true.2 ⟨q.markRekey, List.mem_map_of_mem hq, by simp [Peer.markRekey, hk, hl]⟩

theorem State.rot_rekeyPeers (s : State) (p : Pid) (n : Fn) (cid : Nat) :
    (s.rekeyPeers p n cid).sec.rot[p] = { s.sec.rot[p] with link := true, linkWaiter := some (n, cid) } := State.rot_modRot _ p _

theorem State.peers_rekeyPeers (s : State) (p : Pid) (n : Fn) (cid : Nat) :
    ((s.rekeyPeers p n cid).part p).peers = (s.part p).peers.map Peer.markRekey :=
  congrArg Part.peers (s.part_modPart p fun x => { x with peers := x.peers.map Peer.markRekey })

/-- A pair without its handshake keeps the rotation at work. -/
theorem State.linkRotated_of_pending {s : State} {p : Pid} (h : ((s.part p).peers.any fun q => q.rekey) = true) : s.linkRotated p = s := by
  simp [State.linkRotated, h]

/-- The last handshake ends the rotation, and the command that waited completes. -/
theorem State.linkRotated_spec {s : State} {p : Pid} {n : Fn} {cid : Nat} {c : Cmd} (hl : (s.sec.rot[p]).link = true)
    (hw : (s.sec.rot[p]).linkWaiter = some (n, cid)) (hc : s.findCmd n cid = some c) (h : ((s.part p).peers.any fun q => q.rekey) = false) :
    (s.linkRotated p).mem = s.mem ∧ (s.linkRotated p).sec.rot[p] = { s.sec.rot[p] with link := false, linkWaiter := none } ∧
      ((s.linkRotated p).func n).cmds = (s.func n).cmds.filter fun y => decide (y.cid ≠ c.cid) := by
  have hend : s.linkRotated p =
      ((s.modRot p fun r => { r with link := false, linkWaiter := none }).rotationDone (some (n, cid))).raiseRotated p true := by
    rw [State.linkRotated, hl, h, ← hw]
    rfl
  have hhost : HostOnly (s.modRot p fun r => { r with link := false, linkWaiter := none }) (s.linkRotated p) :=
    hend ▸ (State.hostOnly_rotationDone _ _).trans (State.hostOnly_raiseRotated _ p true)
  have hc' : (s.modRot p fun r => { r with link := false, linkWaiter := none }).findCmd n cid = some c := hc
  refine ⟨hhost.mem, ?_, ?_⟩
  · rw [hhost.sec]
    exact State.rot_modRot s p _
  · rw [hend, State.cmds_rotationDone hc']
    rfl

/-! ### The command that starts a rotation -/

theorem State.cmds_startCmd (s : State) (n : Fn) (c : Cmd) :
    ((s.startCmd n c).func n).cmds = (s.func n).cmds.map fun x => if x.cid = c.cid then { x with phase := .started } else x := by
  simp [State.startCmd]

/-- A command at work stands under its number as it was fetched. -/
theorem State.findCmd_startCmd {s : State} {n : Fn} {cid : Nat} {c : Cmd} (h : s.findCmd n cid = some c) :
    (s.startCmd n c).findCmd n cid = some { c with phase := .started } := by
  have hcid : c.cid = cid := State.findCmd_cid h
  have hkept : ((fun x : Cmd => decide (x.cid = cid)) ∘ fun x : Cmd => if x.cid = c.cid then { x with phase := .started } else x) =
      fun x : Cmd => decide (x.cid = cid) := by
    funext x
    by_cases hx : x.cid = c.cid
    · simp [hx]
    · simp [hx]
  rw [State.findCmd] at h
  rw [State.findCmd, State.cmds_startCmd, List.find?_map, hkept, h, Option.map_some, if_pos rfl]

/-- The start of a command leaves the other ones of its function. -/
theorem State.filter_startCmd (s : State) (n : Fn) (c : Cmd) :
    ((s.startCmd n c).func n).cmds.filter (fun y => decide (y.cid ≠ c.cid)) = (s.func n).cmds.filter fun y => decide (y.cid ≠ c.cid) := by
  rw [State.cmds_startCmd]
  induction (s.func n).cmds with
  | nil => rfl
  | cons x xs ih =>
    by_cases hx : x.cid = c.cid
    · simpa [hx] using ih
    · simpa [hx] using ih

theorem State.findCmd_of_dueCmd {s : State} {n : Fn} {cid opc : Nat} {c : Cmd} (h : s.dueCmd n cid opc = some c) :
    s.findCmd n cid = some c := by
  unfold State.dueCmd at h
  split at h
  · cases h
  · next c' hc =>
    split at h
    · cases h
      exact hc
    · cases h

/-- With no keyed peer left a link rotation completes as it starts. -/
theorem exec_keyRotateLink_completes {s : State} {fn : Fn} {cid : Nat} {c : Cmd} {p : Pid} (hdue : s.dueCmd fn cid 0x42 = some c)
    (hp : bits (dw c.desc 1) 3 0 = p.val) (hl : rotLink c.desc = true) (hk : s.rotateCheck fn c.desc (s.sec.rot[p]).link = none)
    (hpeers : ∀ q ∈ (s.part p).peers, q.rekey = false ∧ (q.keyed = false ∨ q.lost ≠ none)) :
    ∃ u : State, exec (.keyRotateLink fn cid) s = .next u ∧ u.mem = s.mem ∧
      u.sec.rot[p] = { s.sec.rot[p] with link := false, linkWaiter := none } ∧
      (u.func fn).cmds = (s.func fn).cmds.filter fun y => decide (y.cid ≠ c.cid) := by
  have hrot := (s.startCmd fn c).rot_rekeyPeers p fn cid
  have hnone : ((((s.startCmd fn c).rekeyPeers p fn cid).part p).peers.any fun q => q.rekey) = false := by
    rw [State.peers_rekeyPeers]
    exact any_markRekey_eq_false hpeers
  have hcmd : ((s.startCmd fn c).rekeyPeers p fn cid).findCmd fn cid = some { c with phase := .started } :=
    State.findCmd_startCmd (State.findCmd_of_dueCmd hdue)
  obtain ⟨hmem, hdone, hcmds⟩ := State.linkRotated_spec (by rw [hrot]) (by rw [hrot]) hcmd hnone
  exact ⟨_, exec_keyRotateLink_starts hdue hp hl hk, hmem, by rw [hdone, hrot]; rfl, hcmds.trans (State.filter_startCmd s fn c)⟩

/-- With a keyed peer a link rotation marks its peers and waits. -/
theorem exec_keyRotateLink_marks {s : State} {fn : Fn} {cid : Nat} {c : Cmd} {p : Pid} (hdue : s.dueCmd fn cid 0x42 = some c)
    (hp : bits (dw c.desc 1) 3 0 = p.val) (hl : rotLink c.desc = true) (hk : s.rotateCheck fn c.desc (s.sec.rot[p]).link = none)
    (hpeers : ∃ q ∈ (s.part p).peers, q.keyed = true ∧ q.lost = none) :
    exec (.keyRotateLink fn cid) s = .next ((s.startCmd fn c).rekeyPeers p fn cid) := by
  have hsome : ((((s.startCmd fn c).rekeyPeers p fn cid).part p).peers.any fun q => q.rekey) = true := by
    rw [State.peers_rekeyPeers]
    exact any_markRekey_eq_true hpeers
  rw [exec_keyRotateLink_starts hdue hp hl hk, State.linkRotated_of_pending hsome]

/-! ### Pages of a sweep -/

section
variable {s : State} {p : Pid} (now : Nat) (ha : (s.sec.rot[p]).active = true) (hd : s.sec.drbgDown = false)
include ha hd

theorem exec_sweepPage_flips (hn : (s.sec.rot[p]).next.toNat + 1 ≠ (s.part p).entry.gran.length * 2 ^ 18) :
    ∃ u : State, exec (.sweepPage p now) s = .next u ∧ u.sec.rot[p] = { s.sec.rot[p] with next := (s.sec.rot[p]).next + 1 } ∧
      u.sec.silo = s.sec.silo ∧ u.mem = s.mem ∧ u.tiles = s.tiles ∧ u.funcs = s.funcs ∧
      ∀ d, u.sectorKey p d = if d / 4096 = s.sweepAt p then (if (s.sec.rot[p]).cur then (s.sec.silo[p]).1 else (s.sec.silo[p]).2)
        else s.sectorKey p d := by
  have hmark := (s.at_ now).flagsMarked_swept p
  have hsilo : ((s.at_ now).swept p).sec.silo = s.sec.silo := congrArg SecSt.silo hmark.sec
  refine ⟨((s.at_ now).swept p).modRot p fun r => { r with next := r.next + 1 }, ?_, ?_, hsilo, hmark.mem, hmark.tiles, hmark.funcs,
    fun d => ?_⟩
  · rw [exec_sweepPage now ha hd, if_neg hn]
  · rw [State.rot_modRot, hmark.sec]
    rfl
  · exact (State.sectorKey_congr (s := (s.at_ now).flipPage p) hmark.memctl hsilo p d).trans
      ((s.at_ now).sectorKey_flipPage p d)

theorem exec_sweepPage_ends (hn : (s.sec.rot[p]).next.toNat + 1 = (s.part p).entry.gran.length * 2 ^ 18) :
    ∃ u : State, exec (.sweepPage p now) s = .next u ∧
      u.sec.rot[p] = { s.sec.rot[p] with active := false, cur := !(s.sec.rot[p]).cur, next := 0, waiter := none } ∧
      u.sec.silo[p] = (if (s.sec.rot[p]).cur then ((s.sec.silo[p]).1, none) else (none, (s.sec.silo[p]).2)) ∧ u.mem = s.mem ∧
      ∀ w k c, (s.sec.rot[p]).waiter = some (w, k) → s.findCmd w k = some c →
        (u.func w).cmds = (s.func w).cmds.filter fun y => decide (y.cid ≠ c.cid) := by
  have hmark := (s.at_ now).flagsMarked_swept p
  have hsec : ((s.at_ now).swept p).sec = s.sec := hmark.sec
  have hfunc (w : Fn) : ((s.at_ now).swept p).func w = s.func w := congrArg (fun f => f[w]) hmark.funcs
  obtain ⟨hrot, hsilo, hmem, hcmds⟩ := State.endRotation_spec ((s.at_ now).swept p) p
  rw [hsec] at hrot hsilo hcmds
  refine ⟨((s.at_ now).swept p).endRotation p, ?_, hrot, hsilo, hmem.trans hmark.mem, fun w k c hw hc => ?_⟩
  · rw [exec_sweepPage now ha hd, if_pos hn]
  · rw [hcmds w k c hw (by rw [State.findCmd, hfunc]; exact hc), hfunc]

end

/-! ### The obligation -/

/-- Settles O36: the clear by `exec_granuleClearComplete_clears`, the pages of a sweep by `State.flagsMarked_swept` and
`State.endRotation_spec`, the start of a rotation by the equations of KEY_ROTATE. -/
theorem clearsAndRotations : Obligations.ClearsAndRotations := by
  intro s now
  refine ⟨fun g hg _ hwf => exec_granuleClearComplete_spec now hg hwf, exec_granuleClearComplete_idle now,
    fun p ha hd => ⟨exec_sweepPage_flips now ha hd, exec_sweepPage_ends now ha hd⟩, fun p => exec_sweepPage_idle now,
    fun fn cid c p hdue hp => ⟨fun code => exec_keyRotate_refused hdue hp, fun hl hk => ?_,
    fun code => exec_keyRotateLink_refused hdue hp, exec_keyRotateLink_completes hdue hp, fun hl hk hpeers => ?_⟩⟩
  · exact ⟨_, exec_keyRotate_starts hdue hp hl hk, State.startRotation_spec (s.startCmd fn c) p fn cid⟩
  · exact ⟨_, exec_keyRotateLink_marks hdue hp hl hk hpeers, rfl, rfl, State.rot_rekeyPeers _ p fn cid, State.peers_rekeyPeers _ p fn cid⟩

end Sys2Proof.Machine
end

