-- ==== Sys2Proof/Proofs/SyncIssue.lean ====
section
/-!
PROOFS. The sync instructions: their references and the operations that they hand to the fabric (10 R243, R247, R248).
-/
namespace Sys2Proof.Machine

open Sys2Proof.Claims

/-! ### References (10 R243) -/

/-- The reference has a reserved bit set, a module ID without REM, or an index that names no object of the partition. -/
def BadReference (s : State) (p : Pid) (ref : Word) : Prop :=
  bits ref 31 16 ≠ 0 ∨ bits ref 62 48 ≠ 0 ∨ (bit ref 63 = false ∧ bits ref 47 32 ≠ 0) ∨
    (s.part p).entry.blk.length ≤ bits ref 15 0 / 1024

theorem refIndex_toNat (ref : Word) : (refIndex ref).toNat = bits ref 15 0 := by
  rw [refIndex, BitVec.toNat_ofNat]
  exact Nat.mod_eq_of_lt (Nat.mod_lt _ (by decide))

theorem Part.objOf_isNone_iff (x : Part) (i : Nat) : (x.objOf i).isNone = true ↔ x.entry.blk.length ≤ i / 1024 := by
  rw [Part.objOf, Option.isNone_map, Option.isNone_iff_eq_none, List.getElem?_eq_none_iff]

theorem badReference_iff (s : State) (p : Pid) (ref : Word) :
    BadReference s p ref ↔ refBad ref = true ∨ ((s.part p).objOf (refIndex ref).toNat).isNone = true := by
  simp only [Part.objOf_isNone_iff, refIndex_toNat, refBad, BadReference, Bool.or_eq_true, Bool.and_eq_true, Bool.not_eq_true',
    decide_eq_true_eq, or_assoc]

/-! ### The table of sync instructions (10 R247, R248) -/

/-- A row of the table: i's instruction sends i's operation, with rs2 as its operand; i's flag says whether earlier work comes first, w
whether the operation waits for its effect. -/
def SyncRow (s : State) (t : TileId) (rd rs1 rs2 : RegId) (w : Bool) (i : Instr × SyncOp × Bool) : Prop :=
  (∃ (m : String) (op : Word → SyncOp), exec i.1 s = syncInstr m i.1 t rd rs1 (fun c => op (c.rg rs2)) s ∧ op ((s.core t).rg rs2) = i.2.1) ∧
    opWaits i.2.1 = w ∧ opOrdered i.2.1 = i.2.2

/-- The instructions that go on unless they ask for a status, with operand x. -/
def syncPosts (t : TileId) (rd rs1 rs2 : RegId) (x : Word) : List (Instr × SyncOp × Bool) :=
  [(.ssig t rd rs1 rs2, .signal x, true), (.ssetf t rd rs1 rs2, .setf x, true), (.sclrf t rd rs1 rs2, .clrf x, true),
   (.sadv t rd rs1 rs2, .adv x, true)]

/-- The instructions that wait for their effect, with operand x. -/
def syncWaits (t : TileId) (rd rs1 rs2 : RegId) (x : Word) : List (Instr × SyncOp × Bool) :=
  [(.stake t rd rs1 rs2, .take x, false), (.sarr t rd rs1 rs2, .arrive (bit x 0), true),
   (.swany t rd rs1 rs2, .wany x, false), (.swall t rd rs1 rs2, .wall x, false), (.swge t rd rs1 rs2, .wge x, false)]

theorem syncPosts_rows (s : State) (t : TileId) (rd rs1 rs2 : RegId) :
    ∀ i ∈ syncPosts t rd rs1 rs2 ((s.core t).rg rs2), SyncRow s t rd rs1 rs2 false i := by
  simp only [syncPosts, List.forall_mem_cons]
  exact ⟨⟨⟨"SSIG", .signal, rfl, rfl⟩, rfl, rfl⟩, ⟨⟨"SSETF", .setf, rfl, rfl⟩, rfl, rfl⟩, ⟨⟨"SCLRF", .clrf, rfl, rfl⟩, rfl, rfl⟩,
    ⟨⟨"SADV", .adv, rfl, rfl⟩, rfl, rfl⟩, List.forall_mem_nil _⟩

theorem syncWaits_rows (s : State) (t : TileId) (rd rs1 rs2 : RegId) :
    ∀ i ∈ syncWaits t rd rs1 rs2 ((s.core t).rg rs2), SyncRow s t rd rs1 rs2 true i := by
  simp only [syncWaits, List.forall_mem_cons]
  exact ⟨⟨⟨"STAKE", .take, rfl, rfl⟩, rfl, rfl⟩, ⟨⟨"SARR", fun x => .arrive (bit x 0), rfl, rfl⟩, rfl, rfl⟩,
    ⟨⟨"SWANY", .wany, rfl, rfl⟩, rfl, rfl⟩, ⟨⟨"SWALL", .wall, rfl, rfl⟩, rfl, rfl⟩, ⟨⟨"SWGE", .wge, rfl, rfl⟩, rfl, rfl⟩, List.forall_mem_nil _⟩

section
variable {s : State} {t : TileId} {rd rs1 rs2 : RegId} {p : Pid} {w : Bool} {i : Instr × SyncOp × Bool}
  (hi : Issues s t) (hp : s.partOfTile t = some p) (h : SyncRow s t rd rs1 rs2 w i)
include hi hp h

/-- A sync instruction checks its reference, then sends its operation. -/
theorem runs_sync {u : State} (hu : (if refBad ((s.core t).rg rs1) || (w && bit ((s.core t).rg rs1) 63) ||
        ((s.part p).objOf (refIndex ((s.core t).rg rs1)).toNat).isNone then (faultBase s t).coreFault t 0x7 0
      else (faultBase s t).sendSync t p ((s.core t).rg rs1) i.2.1 (if w || decide (rd ≠ 0) then some (.status rd) else none)) = u) :
    Runs s t i.1 u := by
  obtain ⟨⟨m, op, he, hop⟩, hw, -⟩ := h
  have hp' : (faultBase s t).partOfTile t = some p := hp
  refine runs_coreInstr hi he (Eq.trans ?_ hu)
  simp only [core_faultBase, Core.useStep_rg, hp', hop, hw]
  rfl

theorem runs_sync_malformed (hb : BadReference s p ((s.core t).rg rs1) ∨ w = true ∧ bit ((s.core t).rg rs1) 63 = true) :
    Runs s t i.1 ((faultBase s t).coreFault t 0x7 0) := by
  refine runs_sync hi hp h (if_pos ?_)
  rw [badReference_iff] at hb
  simp only [Bool.or_eq_true, Bool.and_eq_true]
  rcases hb with (hbad | hnone) | hrem
  exacts [.inl (.inl hbad), .inr hnone, .inl (.inr hrem)]

theorem runs_sync_sends (hb : ¬ BadReference s p ((s.core t).rg rs1)) (hw : w = true → bit ((s.core t).rg rs1) 63 = false) {r : Option Resume}
    (hr : (if w || decide (rd ≠ 0) then some (.status rd) else none) = r) :
    Runs s t i.1 (sent s t (sentOp s t p ((s.core t).rg rs1) i.2.1 i.2.2 r.isSome) r) := by
  refine runs_sync hi hp h ((if_neg ?_).trans ?_)
  · rw [badReference_iff] at hb
    simp only [Bool.or_eq_true, Bool.and_eq_true]
    rintro ((hbad | ⟨hwait, hrem⟩) | hnone)
    exacts [hb (.inl hbad), Bool.false_ne_true ((hw hwait).symm.trans hrem), hb (.inr hnone)]
  · obtain ⟨-, -, hord⟩ := h
    rw [hr, sendSync_faultBase, hord]

end

/-- Settles O8: the two tables row by row, and what all their rows share. -/
theorem syncIssue : Obligations.SyncIssue := by
  intro s t rd rs1 rs2 p hi hp ref x bad posts waits
  have hposts := syncPosts_rows s t rd rs1 rs2
  have hwaits := syncWaits_rows s t rd rs1 rs2
  refine ⟨fun hb i hmem => ?_, fun hb hlocal i hmem => ?_, fun hb i hmem => ?_, fun hrem i hmem => ?_⟩
  · have hsend {r : Option Resume} := runs_sync_sends hi hp (hposts i hmem) hb nofun (r := r)
    by_cases hrd : rd = 0
    · rw [if_pos hrd, decide_eq_false (not_not.2 hrd)]
      exact hsend (if_neg (by rw [hrd]; decide))
    · rw [if_neg hrd, decide_eq_true hrd]
      exact hsend (if_pos (decide_eq_true hrd))
  · exact runs_sync_sends hi hp (hwaits i hmem) hb (fun _ => hlocal) rfl
  · rcases List.mem_append.1 hmem with hpost | hwait
    · exact runs_sync_malformed hi hp (hposts i hpost) (.inl hb)
    · exact runs_sync_malformed hi hp (hwaits i hwait) (.inl hb)
  · exact runs_sync_malformed hi hp (hwaits i hmem) (.inr ⟨rfl, hrem⟩)

end Sys2Proof.Machine
end

