-- ==== Sys2Proof/Proofs/RemoteOperations.lean ====
section
/-!
PROOFS. Operations for other modules, their acknowledgements, and the waits that reach their limit (10 R248 to R250, R257).
-/
namespace Sys2Proof.Machine

open Sys2Proof.Claims

/-! ### One frame to a peer (11 R264, R265) -/

/-- The waiting frames in the order in which they go out, where there is one. -/
theorem vsFirst_one (x : TxItem) :
    [x].filter (fun x => decide (x.msg.vc = .vs)) ++ [x].filter (fun x => !decide (x.msg.vc = .vs)) = [x] := by
  by_cases hv : x.msg.vc = .vs
  · simp [hv]
  · simp [hv]

/-- The message as the only frame that waits. -/
def State.queueOne (s : State) (p : Pid) (m : ModId) (x : Message) : State :=
  { s with links := { s.links with txq := [{ pid := p, peer := m, msg := x }] } }

section
variable {s : State} {p : Pid} {m : ModId} {x : Message} {q : Peer}

theorem State.pump_queueOne_waits (h : (s.queueOne p m x).trySend { pid := p, peer := m, msg := x } = none) :
    (s.queueOne p m x).pump = s.queueOne p m x := by
  have hq : (s.queueOne p m x).links.txq = [{ pid := p, peer := m, msg := x }] := rfl
  simp only [State.pump, hq, vsFirst_one, List.foldl_cons, List.foldl_nil, h, List.any_nil]
  rfl

theorem State.pump_queueOne_goes {u : State} (h : (s.queueOne p m x).trySend { pid := p, peer := m, msg := x } = some u) :
    (s.queueOne p m x).pump = { u with links := { u.links with txq := [] } } := by
  have hq : (s.queueOne p m x).links.txq = [{ pid := p, peer := m, msg := x }] := rfl
  simp only [State.pump, hq, vsFirst_one, List.foldl_cons, List.foldl_nil, h, List.any_nil]
  rfl

section
variable (hx : x.frames = [x]) (hm : s.moults p = false) (ht : s.links.txq = []) (hq : s.peer p m = some q) (hl : q.lost = none)
include hx hm ht hq hl

/-- A message of one frame to a known peer waits alone, and goes out where it can. -/
theorem State.send_one : s.send p m x = (s.queueOne p m x).pump := by
  have hfind : (s.part p).peers.find? (fun y => decide (y.id = m)) = some q := hq
  have hid := List.find?_some hfind
  have hknown : ((s.part p).peers.any fun y => decide (y.id = m)) = true := List.any_eq_true.2 ⟨q, List.mem_of_find?_eq_some hfind, hid⟩
  have hpeer : s.ensurePeer p m = s := if_pos hknown
  simp only [State.send, hm, Bool.false_and, hpeer, hq, Option.bind_some, hl, ht, hx]
  rfl

/-- A pair without keys sends nothing. -/
theorem State.send_one_unkeyed (hk : q.keyed = false) : s.send p m x = s.queueOne p m x := by
  rw [State.send_one hx hm ht hq hl]
  refine State.pump_queueOne_waits ?_
  have hq' : (s.queueOne p m x).peer p m = some q := hq
  simp only [State.trySend, hq', hk, Bool.not_false, Bool.true_or, if_true]

end

/-- The frame of a pair that is ready goes out at once, under the header of the pair. -/
theorem State.send_one_ready {n : Nat} (hx : x.frames = [x]) (hn : unitsOf x.payload = n) (h : Ready s p m x.vc n q) :
    ∃ hd, (s.send p m x).outputs = .frame hd x :: s.outputs ∧ Heads s hd p m x.vc x.payload q := by
  subst hn
  obtain ⟨hm, ht, hq, hk, hfr, hl, hroom⟩ := h
  obtain ⟨k, hk'⟩ := Option.isSome_iff_exists.1 hroom
  have hq' : (s.queueOne p m x).peer p m = some q := hq
  have htx : (s.queueOne p m x).txHalf p q x.vc (unitsOf x.payload) = some k := hk'
  have hgo : (s.queueOne p m x).trySend { pid := p, peer := m, msg := x } =
      some ((s.queueOne p m x).transmit { pid := p, peer := m, msg := x } q k) := by
    simp only [State.trySend, hq', hk, Bool.not_true, Bool.false_or, decide_eq_false (Nat.not_le.2 hfr), htx, Option.map_some]
    rfl
  rw [State.send_one hx hm ht hq hl, State.pump_queueOne_goes hgo]
  exact ⟨_, rfl, rfl, rfl, rfl, rfl, rfl, rfl⟩

end

theorem State.lost_of_peerLost {s : State} {p : Pid} {m : ModId} {q : Peer} (h : s.peerLost p m = none) (hq : s.peer p m = some q) :
    q.lost = none := by
  have hbind : (s.peer p m).bind (·.lost) = none := h
  rwa [hq] at hbind

/-! ### The issuer's answer (10 R247, R250) -/

section
variable {s : State} {t : TileId} {rd : RegId} (hr : (s.core t).resume = some (.status rd)) (code : BitVec 16)
include hr

theorem State.resume_tile (flag : Bool) : s.resume (.tile t) code flag = s.modCore t fun c => answered c rd code flag := by
  simp only [State.resume, hr]
  exact State.modCore_congr (Core.wg_status_eq_answered _ rd code flag)

theorem State.answer_tile : s.answer (some (.tile t)) (some code) = s.modCore t fun c => answered c rd code false :=
  State.resume_tile hr code false

end

/-! ### An operation for another module (10 R248, R250, R257) -/

/-- The operation is no longer with its tile. -/
def State.dropSent (s : State) (id : Nat) : State :=
  { s with sync := { s.sync with sent := s.sync.sent.filter fun y => !decide (y.id = id) } }

/-- Who waits for the code of an operation. -/
def SyncSent.issuer (x : SyncSent) : Option Waiter := if x.reply then some (.tile x.src) else none

section
variable {s : State} {x : SyncSent} {m : ModId} {now : Nat} (hx : s.sync.sent.find? (fun y => decide (y.id = x.id)) = some x)
include hx

theorem exec_syncOperationArrival_early (hdue : (s.at_ now).sendDue x = false) :
    exec (.syncOperationArrival x.id now) s = .fault (.notDue "SYNC_OPERATION_ARRIVAL") := by
  change execSyncOperationArrival x.id now s = _
  simp only [execSyncOperationArrival, hx, hdue, Bool.not_false, Bool.true_or, if_true]
  rfl

variable (hm : x.remote = some m) (hp : s.moults x.pid = false) (hdue : (s.at_ now).sendDue x = true)
include hm hp hdue

theorem exec_syncOperationArrival_lost {code : BitVec 16} (hl : s.peerLost x.pid m = some code) :
    exec (.syncOperationArrival x.id now) s = .next (((s.at_ now).dropSent x.id).answer x.issuer (some code)) := by
  change execSyncOperationArrival x.id now s = _
  have hp' : (s.at_ now).moults x.pid = false := hp
  have hl' : (s.at_ now).peerLost x.pid m = some code := hl
  simp only [execSyncOperationArrival, hx, hdue, hp', hm, hl', Bool.not_true, Bool.or_false]
  rfl

theorem exec_syncOperationArrival_leaves (hl : s.peerLost x.pid m = none) :
    exec (.syncOperationArrival x.id now) s =
      .next { ((s.at_ now).dropSent x.id).send x.pid m (.sync x.index x.op x.id) with
        sync := { s.sync with
          sent := s.sync.sent.filter fun y => !decide (y.id = x.id)
          remotes := s.sync.remotes ++ [{ id := x.id, pid := x.pid, peer := m, bar := none, who := x.issuer }] } } := by
  change execSyncOperationArrival x.id now s = _
  have hp' : (s.at_ now).moults x.pid = false := hp
  have hl' : (s.at_ now).peerLost x.pid m = none := hl
  simp only [execSyncOperationArrival, hx, hdue, hp', hm, hl', Bool.not_true, Bool.or_false]
  rfl

end

/-! ### Acknowledgements (10 R250, R252) -/

/-- The operation has its acknowledgement. -/
def State.dropRemote (s : State) (id : Nat) : State :=
  { s with sync := { s.sync with remotes := s.sync.remotes.filter fun y => !decide (y.id = id) } }

section
variable {s : State} {r : RemoteOp} {code : BitVec 16} (hr : s.sync.remotes.find? (fun y => decide (y.id = r.id)) = some r)
  (hp : s.moults r.pid = false)
include hr hp

theorem exec_remoteAck_issuer (hb : r.bar = none) :
    exec (.remoteAck r.id code) s = .next ((s.dropRemote r.id).answer r.who (some code)) := by
  change execRemoteAck r.id code s = _
  have hp' : (s.dropRemote r.id).moults r.pid = false := hp
  simp only [execRemoteAck, hr, hb]
  exact if_neg (ne_true_of_eq_false hp')

theorem exec_remoteAck_barrier {o : Nat} (hb : r.bar = some o) :
    exec (.remoteAck r.id code) s = .next (if code = cOk then s.dropRemote r.id else (s.dropRemote r.id).failWaiters o code) := by
  change execRemoteAck r.id code s = _
  have hp' : (s.dropRemote r.id).moults r.pid = false := hp
  simp only [execRemoteAck, hr, hb]
  exact if_neg (ne_true_of_eq_false hp')

end

/-- Waiters for a status at an object that fails resume with the code; no object changes. -/
theorem State.failWaiters_spec {s : State} {o : Nat} (h : tilesWait s o) (code : BitVec 16) :
    (s.failWaiters o code).sync = { s.sync with waits := s.sync.waits.filter fun w => !decide (w.obj = o) } ∧
      ∀ w ∈ s.sync.waits, w.obj = o → ∀ t rd, w.who = .tile t → (s.core t).resume = some (.status rd) →
        (s.failWaiters o code).core t = answered (s.core t) rd code false := by
  have heq : s.failWaiters o code =
      { s with sync := { s.sync with waits := s.sync.waits.filter fun w => !decide (w.obj = o) } }.resumeTiles
        (s.sync.waits.filter fun w => decide (w.obj = o)) code false := by
    refine State.foldl_resume _ code false fun w hw => ?_
    obtain ⟨hmem, ho⟩ := List.mem_filter.1 hw
    exact State.awaitsStatus_of_tilesWait h hmem (of_decide_eq_true ho)
  rw [heq]
  refine ⟨State.mapTiles_sync _ _ _, fun w hw ho t rd hwho hrd => ?_⟩
  have hany : ((s.sync.waits.filter fun w => decide (w.obj = o)).any fun w => decide (w.who = .tile t)) = true :=
    List.any_eq_true.2 ⟨w, List.mem_filter.2 ⟨hw, decide_eq_true ho⟩, decide_eq_true hwho⟩
  rw [State.core_resumeTiles, if_pos hany]
  exact Core.resumed_of_status code false hrd

/-! ### Wait limits (10 R249) -/

/-- The waiter waits at no object. -/
def State.dropWaits (s : State) (x : Waiter) : State :=
  { s with sync := { s.sync with waits := s.sync.waits.filter fun y => !decide (y.who = x) } }

/-- The waiter's wait ends with E_TIMEOUT; behind it at a semaphore a later TAKE may be served. -/
def State.endWait (s : State) (x : Waiter) (o : Nat) : State :=
  let u := (s.dropWaits x).resume x eTimeout false
  if objKind (u.obj o) = 0 then u.wake o else u

theorem State.endWait_of_status {s : State} {t : TileId} {rd : RegId} {o : Nat} (hr : (s.core t).resume = some (.status rd))
    (hk : objKind (s.obj o) ≠ 0) : s.endWait (.tile t) o = (s.dropWaits (.tile t)).modCore t fun c => answered c rd 0x0303 false := by
  rw [State.endWait, State.resume_tile (s := s.dropWaits (.tile t)) hr]
  exact if_neg hk

section
variable {s : State} {w : SyncWait} {x : Waiter} {now : Nat} (hw : s.sync.waits.find? (fun y => decide (y.who = x)) = some w)
include hw

theorem exec_waitTimeout_early (h : (s.at_ now).now < w.issue + s.waitLimit x) :
    exec (.waitTimeout x now) s = .fault (.notDue "WAIT_TIMEOUT") := by
  change execWaitTimeout x now s = _
  have hlim : ¬ w.issue + (s.at_ now).waitLimit x ≤ (s.at_ now).now := Nat.not_le.2 h
  simp only [execWaitTimeout, State.at_sync, hw, decide_eq_false hlim, Bool.false_and]
  rfl

theorem exec_waitTimeout_due (hp : ∀ p, s.moults p = true → s.waiterOf p x = false) (h : w.issue + s.waitLimit x ≤ (s.at_ now).now) :
    exec (.waitTimeout x now) s = .next ((s.at_ now).endWait x w.obj) := by
  change execWaitTimeout x now s = _
  have hlim : w.issue + (s.at_ now).waitLimit x ≤ (s.at_ now).now := h
  have hfree : (allParts.any fun p => (s.at_ now).moults p && (s.at_ now).waiterOf p x) = false :=
    List.any_eq_false.2 fun p _ hmw => by
      obtain ⟨hm, hof⟩ := Bool.and_eq_true_iff.1 hmw
      exact Bool.false_ne_true ((hp p hm).symm.trans hof)
  simp only [execWaitTimeout, State.at_sync, hw, decide_eq_true hlim, hfree, Bool.not_false, Bool.and_self, whenDue, if_true]
  rfl

end

/-- A waiting operation that has not left its tile ends likewise. -/
theorem exec_waitTimeout_sent {s : State} {x : SyncSent} {now : Nat}
    (hw : s.sync.waits.find? (fun y => decide (y.who = .tile x.src)) = none)
    (hx : s.sync.sent.find? (fun y => decide ((.tile x.src : Waiter) = .tile y.src) && opWaits y.op) = some x)
    (h : x.issue + s.waitLimit (.tile x.src) ≤ (s.at_ now).now) :
    exec (.waitTimeout (.tile x.src) now) s = .next (((s.at_ now).dropSent x.id).resume (.tile x.src) eTimeout false) := by
  change execWaitTimeout (.tile x.src) now s = _
  have hlim : x.issue + (s.at_ now).waitLimit (.tile x.src) ≤ (s.at_ now).now := h
  simp only [execWaitTimeout, State.at_sync, hw, hx, decide_eq_true hlim, whenDue, if_true]
  rfl

/-! ### The obligation -/

/-- Settles O24: an operation leaves as one frame of its pair, and whatever ends a wait resumes the tile with a status. -/
theorem remoteAndTimeouts : Obligations.RemoteAndTimeouts := by
  intro s
  refine ⟨fun x m now hx hm hp => ⟨exec_syncOperationArrival_early hx, fun hdue hl => ?_, fun code rd hdue hl hrep hrd => ?_⟩,
    fun r code hr hp => ⟨fun t rd hb hwho hrd => ?_, fun o hb hc => ?_, fun o hb hc ht => ?_⟩,
    fun w t rd now hw hrd hk hp => ⟨fun h => ?_, exec_waitTimeout_early hw⟩,
    fun w now hw hp h => ⟨_, exec_waitTimeout_due hw hp h⟩, fun x rd now hw hx hrd h => ?_⟩
  · have hsent := Sent.send ((s.at_ now).dropSent x.id) x.pid m (.sync x.index x.op x.id)
    refine ⟨_, exec_syncOperationArrival_leaves hx hm hp hdue hl, by rw [hsent]; rfl, by rw [hsent]; rfl, rfl, fun q hq => ?_,
      fun q ht hq hk => ?_⟩
    · exact State.send_one_ready (s := (s.at_ now).dropSent x.id) (x := .sync x.index x.op x.id) rfl (rfl : unitsOf 32 = 1) hq
    · have hwait := State.send_one_unkeyed (s := (s.at_ now).dropSent x.id) (x := .sync x.index x.op x.id) rfl hp ht hq
        (State.lost_of_peerLost hl hq) hk
      rw [hwait]
      exact ⟨rfl, rfl⟩
  · have hwho : x.issuer = some (.tile x.src) := if_pos hrep
    rw [exec_syncOperationArrival_lost hx hm hp hdue hl, hwho, State.answer_tile (s := (s.at_ now).dropSent x.id) hrd]
    rfl
  · rw [exec_remoteAck_issuer hr hp hb, hwho, State.answer_tile (s := s.dropRemote r.id) hrd]
    rfl
  · exact (exec_remoteAck_barrier hr hp hb).trans (congrArg _ (if_pos hc))
  · obtain ⟨hsync, hcore⟩ := State.failWaiters_spec (s := s.dropRemote r.id) ht code
    exact ⟨_, (exec_remoteAck_barrier hr hp hb).trans (congrArg _ (if_neg hc)), by rw [hsync]; rfl, by rw [hsync]; rfl, hcore⟩
  · exact (exec_waitTimeout_due hw hp h).trans (congrArg _ (State.endWait_of_status (s := s.at_ now) hrd hk))
  · rw [exec_waitTimeout_sent hw hx h, State.resume_tile (s := (s.at_ now).dropSent x.id) hrd]
    rfl

end Sys2Proof.Machine
end

