-- ==== Sys2Proof/Proofs/GlobalTime.lean ====
section
/-!
PROOFS. The global counter: its ticks, the time messages, the lock states and the slew (10 R236 to R239; 11 R273; 20 R454).
-/
namespace Sys2Proof.Machine

open Sys2Proof.Claims

/-! ### The counter (10 R236) -/

/-- Settles O55: with an empty queue a step is a tick. -/
theorem idleTick : Obligations.IdleTick := by
  intro s hs
  have hstep : step s = .next s.tick := by rw [step, hs]
  rw [hstep, State.tick]
  simp only [Bool.and_eq_true, Bool.not_eq_true']

/-- The counter takes the later of its value and the stamp. -/
theorem TimeSt.toNat_gt_advance (t : TimeSt) {now : Nat} (h : now < 2 ^ 64) : (t.advance now).gt.toNat = max t.gt.toNat now := by
  have hnow : (BitVec.ofNat 64 now).toNat = now := by rw [BitVec.toNat_ofNat, Nat.mod_eq_of_lt h]
  simp only [TimeSt.advance, hnow]
  split
  · next hlt => rw [hnow, Nat.max_eq_right (Nat.le_of_lt hlt)]
  · next hle => rw [Nat.max_eq_left (Nat.not_lt.1 hle)]

/-! ### Time messages (10 R237; 11 R273) -/

/-- u differs from s in messages and in the half-ports hs alone. -/
structure PortsSent (s u : State) (hs : List HalfId) : Prop where
  frame : u = { s with outputs := u.outputs, links := u.links }
  cfg : u.links.cfg = s.links.cfg
  half : ∀ h, h ∉ hs → u.half h = s.half h
  outputs : s.outputs ⊆ u.outputs

theorem PortsSent.refl (s : State) (hs : List HalfId) : PortsSent s s hs := ⟨rfl, rfl, fun _ _ => rfl, fun _ => id⟩

theorem PortsSent.trans {s t u : State} {hs ks : List HalfId} (a : PortsSent s t hs) (b : PortsSent t u ks) : PortsSent s u (hs ++ ks) := by
  refine ⟨by rw [b.frame, a.frame], b.cfg.trans a.cfg, fun h hnot => ?_, fun _ hx => b.outputs (a.outputs hx)⟩
  obtain ⟨hh, hk⟩ := not_or.1 (mt List.mem_append.2 hnot)
  exact (b.half h hk).trans (a.half h hh)

theorem PortsSent.emit (s : State) (o : Output) (hs : List HalfId) : PortsSent s (s.emit o) hs :=
  ⟨rfl, rfl, fun _ _ => rfl, List.subset_cons_self _ _⟩

theorem PortsSent.portSend (s : State) (h : HalfId) (m : Message) : PortsSent s (s.portSend h m) [h] := by
  unfold State.portSend
  split
  · refine ⟨rfl, rfl, fun k hk => ?_, List.subset_cons_self _ _⟩
    have hne : h.val ≠ k.val := fun heq => hk (List.mem_singleton.2 (Fin.ext heq.symm))
    simp [State.half, State.setHalf, hne]
  · exact PortsSent.refl s [h]

theorem PortsSent.sendTime (s : State) (h : HalfId) : PortsSent s (s.sendTime h) [h] := by
  unfold State.sendTime
  split
  · dsimp only
    split
    · exact (PortsSent.emit s _ []).trans (PortsSent.emit _ _ [h])
    · exact PortsSent.emit s _ [h]
  · exact PortsSent.portSend s h _

theorem PortsSent.sendTimes (s : State) (hs : List HalfId) : PortsSent s (hs.foldl State.sendTime s) hs := by
  induction hs generalizing s with
  | nil => exact PortsSent.refl s []
  | cons h hs ih => exact (PortsSent.sendTime s h).trans (ih _)

/-- The messages that a half-port with room on VS owes at the counter of s. -/
def TimeSent (s : State) (h : HalfId) (out : List Output) : Prop :=
  ((s.cfgOf h).eth = false → linkRoom (s.cfgOf h).split (s.half h).out .vs 1 = true → .port h (.time s.time.gt) ∈ out) ∧
    ((s.cfgOf h).eth = true → .port h (.ptpSync s.time.gt) ∈ out ∧
      (h = s.upstream → s.time.root = false → .port h .ptpDelayReq ∈ out))

theorem timeSent_sendTime (s : State) (h : HalfId) : TimeSent s h (s.sendTime h).outputs := by
  refine ⟨fun he hroom => ?_, fun he => ?_⟩
  · have hsend : s.sendTime h = s.portSend h (.time s.time.gt) := if_neg (ne_true_of_eq_false he)
    have hgo : (linkRoom (s.cfgOf h).split (s.links.half[h]).out .vs 1 || (s.cfgOf h).eth) = true := Bool.or_eq_true_iff.2 (.inl hroom)
    rw [hsend, State.portSend, if_pos hgo]
    exact .head _
  · simp only [State.sendTime, he, if_true]
    split
    · exact ⟨.tail _ (.head _), fun _ _ => .head _⟩
    · next hnot => exact ⟨.head _, fun hup hroot => absurd ⟨hup, congrArg (!·) hroot⟩ hnot⟩

theorem PortsSent.timeSent {s u : State} {hs : List HalfId} (a : PortsSent s u hs) {h : HalfId} (hh : h ∉ hs) {out : List Output}
    (hu : TimeSent u h out) : TimeSent s h out := by
  have hcfg : u.cfgOf h = s.cfgOf h := by rw [State.cfgOf, a.cfg, State.cfgOf]
  have htime : u.time = s.time := by rw [a.frame]
  have hup : u.upstream = s.upstream := by simp only [State.upstream, a.cfg, htime]
  rwa [TimeSent, hcfg, a.half h hh, htime, hup] at hu

theorem TimeSent.mono {s : State} {h : HalfId} {out out' : List Output} (a : TimeSent s h out) (hsub : out ⊆ out') : TimeSent s h out' := by
  obtain ⟨hnative, heth⟩ := a
  exact ⟨fun he hroom => hsub (hnative he hroom), fun he => ⟨hsub (heth he).1, fun hup hroot => hsub ((heth he).2 hup hroot)⟩⟩

/-- Every half-port of the list sends. -/
theorem timeSent_sendTimes (s : State) {hs : List HalfId} {h : HalfId} (hh : h ∈ hs) : TimeSent s h (hs.foldl State.sendTime s).outputs := by
  obtain ⟨before, after, rfl, hnot⟩ := List.eq_append_cons_of_mem hh
  have hlater := (PortsSent.sendTimes ((before.foldl State.sendTime s).sendTime h) after).outputs
  have hturn := timeSent_sendTime (before.foldl State.sendTime s) h
  rw [List.foldl_append, List.foldl_cons]
  exact ((PortsSent.sendTimes s before).timeSent hnot hturn).mono hlater

/-- Time messages are due 8 µs after the last ones. -/
def State.sendTimeDue (s : State) (now : Nat) : Prop := ∀ x, s.time.lastSend = some x → x + 8000 ≤ (s.at_ now).now

/-- The state in which the trained half-ports send their messages. -/
def State.noteSend (s : State) (now : Nat) : State :=
  { s.at_ now with time := { (s.at_ now).time with lastSend := some (s.at_ now).now } }

section
variable {s : State} {now : Nat}

theorem exec_timeMessageSend_eq : ∃ due : Bool, (due = true ↔ s.up = true ∧ s.sendTimeDue now) ∧
    exec (.timeMessageSend now) s = whenDue due "TIME_MESSAGE_SEND"
      ((allHalves.filter fun h => decide ((s.half h).state = .up)).foldl State.sendTime (s.noteSend now)) := by
  have hlast : (s.at_ now).time.lastSend = s.time.lastSend := rfl
  refine ⟨_, ?_, rfl⟩
  rw [Bool.and_eq_true, State.sendTimeDue, hlast]
  refine and_congr Iff.rfl ?_
  cases s.time.lastSend with
  | none => exact ⟨fun _ => nofun, fun _ => rfl⟩
  | some x => simp

theorem exec_timeMessageSend_due (hup : s.up = true) (hdue : s.sendTimeDue now) : ∃ u, exec (.timeMessageSend now) s = .next u ∧
    u = { s.noteSend now with outputs := u.outputs, links := u.links } ∧ ∀ h, (s.half h).state = .up → TimeSent (s.at_ now) h u.outputs := by
  obtain ⟨due, hiff, hexec⟩ := exec_timeMessageSend_eq (s := s) (now := now)
  rw [hiff.2 ⟨hup, hdue⟩] at hexec
  refine ⟨_, hexec, (PortsSent.sendTimes _ _).frame, fun h hh => ?_⟩
  exact timeSent_sendTimes (s.noteSend now) (List.mem_filter.2 ⟨List.mem_finRange h, decide_eq_true hh⟩)

theorem exec_timeMessageSend_early (h : s.up = false ∨ ¬ s.sendTimeDue now) :
    exec (.timeMessageSend now) s = .fault (.notDue "TIME_MESSAGE_SEND") := by
  obtain ⟨due, hiff, hexec⟩ := exec_timeMessageSend_eq (s := s) (now := now)
  have hnot : due = false := eq_false_of_ne_true fun hd => by
    obtain ⟨hup, hdue⟩ := hiff.1 hd
    exact h.elim (fun hdown => Bool.false_ne_true (hdown.symm.trans hup)) fun hn => hn hdue
  rw [hexec, hnot]
  rfl

end

/-! ### A time message from upstream (10 R237, R238) -/

/-- The one step of a module that never locked, to upstream's counter v (log 69). -/
def State.stepsTo (s : State) (v : Int) : Prop :=
  s.time.stepLeft = true ∧ (s.time.lock = .unlocked ∨ s.time.lock = .acquiring) ∧ s.anyLaunch = false ∧ (s.now : Int) - v ≤ 0 ∧ v < 2 ^ 64

theorem toInt_offsetField (d : Int) : (offsetField d).toInt = max (-32768) (min 32767 d) := by
  rw [offsetField, BitVec.toInt_ofInt, Int.bmod_eq_of_le (by omega) (by omega)]

theorem TimeSt.gt_step {t : TimeSt} {v : Int} (hle : (t.gt.toNat : Int) ≤ v) (hlt : v < 2 ^ 64) : ((t.step v.toNat).gt.toNat : Int) = v := by
  have hgt : (t.step v.toNat).gt.toNat = max t.gt.toNat v.toNat := t.toNat_gt_advance (by omega)
  omega

/-- The step stays open to a module that has not stepped and is not LOCKED now. -/
theorem TimeSt.stepLeft_judge (t : TimeSt) (d : Int) (stepped : Bool) :
    (t.judge d stepped).stepLeft = true ↔ t.stepLeft = true ∧ (t.judge d stepped).good ≠ 16 :=
  Bool.and_eq_true_iff.trans (and_congr_right' decide_eq_true_iff)

section
variable {s : State} {h : HalfId} {up : Word} {echo : TimeEcho} {now : Nat} (hup : s.up = true) (hh : (s.half h).state = .up)
include hup hh

/-- The root takes no time, and only the upstream port counts. -/
theorem exec_timeMessageReceipt_ignored (hi : s.time.root = true ∨ h ≠ s.upstream) :
    exec (.timeMessageReceipt h up echo now) s = .next (s.at_ now) := by
  change execTimeMessageReceipt h up echo now s = _
  have hport : (s.at_ now).halfUp h = true := Bool.and_eq_true_iff.2 ⟨hup, decide_eq_true hh⟩
  have hskip : (s.at_ now).time.root = true ∨ h ≠ (s.at_ now).upstream := hi
  simp only [execTimeMessageReceipt, hport, hskip, Bool.not_true, if_true]
  rfl

/-- A message from upstream is judged by its offset, after the step where it makes one. -/
theorem exec_timeMessageReceipt_judged (hr : s.time.root = false) (hu : h = s.upstream) {v : Int}
    (hv : upstreamNow (s.at_ now).now up echo (s.half h).skew = v) :
    ∃ stepped : Bool, (stepped = true ↔ (s.at_ now).stepsTo v) ∧ exec (.timeMessageReceipt h up echo now) s =
      .next { s with time := (if stepped then (s.at_ now).time.step v.toNat else (s.at_ now).time).judge ((s.at_ now).now - v) stepped } := by
  have hport : ¬ (!(s.at_ now).halfUp h) = true := by
    rw [State.halfUp, show (s.at_ now).up = true from hup, show ((s.at_ now).half h).state = .up from hh]
    decide
  have hgo : ¬ ((s.at_ now).time.root = true ∨ h ≠ (s.at_ now).upstream) :=
    not_or.2 ⟨ne_true_of_eq_false hr, not_not.2 hu⟩
  subst hv
  refine ⟨_, ?_, (if_neg hport).trans (if_neg hgo)⟩
  simp only [State.stepsTo, Bool.and_eq_true, Bool.not_eq_true', decide_eq_true_eq, sub_nonpos, and_assoc]
  rfl

end

/-! ### The slew (10 R237, R238) -/

section
variable {s : State}

/-- What a slewed tick leaves: the correction c made at the counter's new value. -/
def TimeSt.slewed (t : TimeSt) (c : Int) : TimeSt :=
  let add : Word := if 0 < c then 1 else 0
  { t with gt := t.gt + add, cd0 := t.cd0 + add, cd1 := t.cd1 + add, lastSlew := c, slewAt := (t.gt + add).toNat, slew := t.slew - c }

theorem TimeSt.slewed_down (t : TimeSt) :
    t.slewed (-1) = { t with lastSlew := -1, slewAt := t.gt.toNat, slew := t.slew + 1 } := by
  simp [TimeSt.slewed]

theorem exec_counterSlew_ticks (hr : s.time.root = false) (hl : s.time.lock ≠ .holdover) (hat : s.time.slewAt + 1024 ≤ s.time.gt.toNat)
    {c : Int} (hc : (if s.time.slew < 0 then -1 else if 0 < s.time.slew then 1 else 0) = c) (hne : c ≠ 0) :
    exec .counterSlew s = .next { s with time := s.time.slewed c } := by
  change execCounterSlew s = _
  simp only [execCounterSlew, if_neg hl, hc]
  refine (if_neg ?_).trans rfl
  rintro (hroot | h0 | hlt)
  exacts [Bool.false_ne_true (hr.symm.trans hroot), hne h0, Nat.not_lt.2 hat hlt]

theorem exec_counterSlew_waits (h : (s.time.lock ≠ .holdover ∧ s.time.slew = 0) ∨ s.time.gt.toNat < s.time.slewAt + 1024) :
    exec .counterSlew s = .fault (.notDue "COUNTER_SLEW") := by
  change execCounterSlew s = _
  refine if_pos ?_
  rcases h with ⟨hl, h0⟩ | hat
  · refine .inr (.inl ?_)
    rw [if_neg hl, h0]
    rfl
  · exact .inr (.inr hat)

end

/-! ### Lock states (10 R238; 13 R312) -/

/-- A flag of the launch, once it is released. -/
def Launch.marked (l : Launch) (k : FlagKind) (now : Nat) : Launch :=
  if l.phase = .released then { l with flags := l.flags.mark k now } else l

theorem State.launch_markPart (s : State) (p q : Pid) (k : FlagKind) : ((s.markPart p k).part q).launch =
    if q = p then (s.part q).launch.map fun l => l.marked k s.now else (s.part q).launch := by
  split
  · next hq =>
    subst hq
    rw [State.markPart, State.part_modPart]
    cases hl : (s.part q).launch with
    | none => simp only [hl, Option.map_none]
    | some l =>
      simp only [Option.map_some, Launch.marked]
      split
      · rfl
      · exact hl
  · next hq => rw [State.markPart, State.part_modPart_ne _ _ _ _ hq]

theorem State.launch_markParts (s : State) (ps : List Pid) (hnd : ps.Nodup) (q : Pid) (k : FlagKind) :
    ((ps.foldl (fun s p => s.markPart p k) s).part q).launch =
      if q ∈ ps then (s.part q).launch.map fun l => l.marked k s.now else (s.part q).launch := by
  induction ps generalizing s with
  | nil => rfl
  | cons p ps ih =>
    obtain ⟨hp, hps⟩ := List.nodup_cons.1 hnd
    have hnow : (s.markPart p k).now = s.now := rfl
    rw [List.foldl_cons, ih _ hps, State.launch_markPart, hnow]
    by_cases hq : q = p
    · subst hq
      simp [hp]
    · simp [hq]

theorem State.launch_markAll (s : State) (q : Pid) (k : FlagKind) :
    ((s.markAll k).part q).launch = (s.part q).launch.map fun l => l.marked k s.now :=
  (s.launch_markParts allParts (List.nodup_finRange 16) q k).trans (if_pos (List.mem_finRange q))

/-- The counter goes on alone. -/
def State.holdOver (s : State) : State := { s with time := { s.time with lock := .holdover, holdAt := s.now, good := 0 } }

/-- The counter follows nothing any more. -/
def State.unlockTime (s : State) : State := { s with time := { s.time with lock := .unlocked, good := 0, slew := 0 } }

section
variable {s : State} {now : Nat}

theorem exec_holdoverEntry_due (hl : s.time.lock = .locked) (hr : s.time.root = false) (hm : s.time.lastMsg + 32000 ≤ (s.at_ now).now) :
    exec (.holdoverEntry now) s = .next ((s.at_ now).holdOver.markAll .tmg) := by
  change execHoldoverEntry now s = _
  refine if_pos ?_
  simp only [Bool.and_eq_true, Bool.not_eq_true', decide_eq_true_eq]
  exact ⟨⟨hl, hr⟩, hm⟩

theorem exec_holdoverEntry_early (h : s.time.lock ≠ .locked ∨ (s.at_ now).now < s.time.lastMsg + 32000) :
    exec (.holdoverEntry now) s = .fault (.notDue "HOLDOVER_ENTRY") := by
  change execHoldoverEntry now s = _
  refine if_neg ?_
  simp only [Bool.and_eq_true, Bool.not_eq_true', decide_eq_true_eq]
  rintro ⟨⟨hl, -⟩, hm⟩
  exact h.elim (fun hne => hne hl) (Nat.not_lt.2 hm)

theorem exec_synTimeUnlock_due (hl : s.time.lock = .holdover) (hr : s.time.root = false) (ha : s.time.holdAt + 1000000 ≤ (s.at_ now).now) :
    exec (.synTimeUnlock now) s = .next
      ((s.at_ now).unlockTime.raisePf0 0x0301 none s.time.upPort.toNat (codeOf 64 (offsetOf s.time.offset))) := by
  change execSynTimeUnlock now s = _
  refine if_pos ?_
  simp only [Bool.and_eq_true, Bool.not_eq_true', decide_eq_true_eq]
  exact ⟨⟨hl, hr⟩, ha⟩

theorem exec_synTimeUnlock_early (h : s.time.lock ≠ .holdover ∨ s.time.root = true ∨ (s.at_ now).now < s.time.holdAt + 1000000) :
    exec (.synTimeUnlock now) s = .fault (.notDue "SYN_TIME_UNLOCK") := by
  change execSynTimeUnlock now s = _
  refine if_neg ?_
  simp only [Bool.and_eq_true, Bool.not_eq_true', decide_eq_true_eq]
  rintro ⟨⟨hl, hr⟩, ha⟩
  rcases h with hne | hroot | hlt
  exacts [hne hl, Bool.false_ne_true (hr.symm.trans hroot), Nat.not_lt.2 ha hlt]

end

/-! ### An event leaves the pins (16 R384) -/

theorem State.pins_irq (s : State) (n : Fn) (v : Nat) : (s.irq n v).pins = s.pins := by
  unfold State.irq
  split <;> rfl

theorem State.pins_writeEvent (s : State) (n : Fn) (e : Event) : (s.writeEvent n e).pins = s.pins := by
  unfold State.writeEvent
  dsimp only
  split <;> exact State.pins_irq ..

theorem State.pins_flushOverflow (s : State) (n : Fn) : (s.flushOverflow n).pins = s.pins := by
  unfold State.flushOverflow
  dsimp only
  split
  · exact s.pins_writeEvent n _
  · rfl

theorem State.pins_raise (s : State) (n : Fn) (e : Event) : (s.raise n e).pins = s.pins := by
  unfold State.raise
  dsimp only
  split
  · split <;> rfl
  · split
    · rfl
    · split
      · exact s.pins_flushOverflow n
      · exact (State.pins_writeEvent ..).trans (s.pins_flushOverflow n)

theorem State.raisePf0_frame (s : State) (code : BitVec 16) (p : Option Pid) (a b : Nat) :
    ∃ funcs mem out, s.raisePf0 code p a b = { s with funcs := funcs, hostMem := mem, outputs := out } := by
  have hpins : (s.raisePf0 code p a b).pins = s.pins := s.pins_raise ..
  have hframe := HostOnly.raisePf0 s code p a b
  rw [HostOnly, hpins] at hframe
  exact ⟨_, _, _, hframe⟩

/-! ### SYN_TIME_CFG (20 R454) -/

theorem State.writeTimeCfg_eq {s : State} (hup : s.up = true) (value : Half) : s.writeTimeCfg value =
    { s with time :=
        ({ s.time with root := bit value 4, upHalf := bit value 3, upPort := BitVec.ofNat 3 (value.toNat % 8) } : TimeSt).runRoot } := by
  have hport : bits value 2 0 = value.toNat % 8 := by simp [bits_eq_div_mod]
  rw [State.writeTimeCfg, hport, if_pos hup]

/-! ### The obligation -/

/-- Settles O25, message by message and lock state by lock state. -/
theorem globalTime : Obligations.GlobalTime := by
  intro s now hnow v t
  have hgt : t.gt.toNat = max s.time.gt.toNat now := s.time.toNat_gt_advance hnow
  refine ⟨⟨by omega, by omega⟩, fun hup hdue => ?_, exec_timeMessageSend_early, fun h up echo hh hup => ⟨?_, ?_⟩,
    fun hr hl hat => ⟨fun hpos => ?_, fun hneg => ?_, fun h0 => exec_counterSlew_waits (.inl ⟨hl, h0⟩)⟩,
    fun h => exec_counterSlew_waits (.inr h), fun hl hr hm => ?_, exec_holdoverEntry_early, fun hl hr ha => ?_,
    exec_synTimeUnlock_early, fun value => ?_⟩
  · exact exec_timeMessageSend_due hup hdue
  · exact exec_timeMessageReceipt_ignored hup hh
  · intro hr hu
    obtain ⟨stepped, hiff, hexec⟩ := exec_timeMessageReceipt_judged (now := now) (up := up) (echo := echo) hup hh hr hu rfl
    cases stepped with
    | true =>
      have hs := hiff.1 rfl
      obtain ⟨-, -, -, hle, hlt⟩ := id hs
      have hstep := TimeSt.gt_step (sub_nonpos.1 hle) hlt
      refine ⟨_, hexec, rfl, hstep.trans (if_pos hs).symm, rfl, toInt_offsetField _, rfl, (TimeSt.stepLeft_judge ..).trans ?_, (if_pos hs).symm⟩
      exact ⟨fun ⟨hleft, _⟩ => absurd hleft Bool.false_ne_true, fun ⟨_, hnot, _⟩ => absurd hs hnot⟩
    | false =>
      have hs := mt hiff.2 Bool.false_ne_true
      refine ⟨_, hexec, rfl, (if_neg hs).symm, rfl, toInt_offsetField _, rfl, (TimeSt.stepLeft_judge ..).trans ?_, (if_neg hs).symm⟩
      exact ⟨fun ⟨hleft, hg⟩ => ⟨hleft, hs, hg⟩, fun ⟨hleft, _, hg⟩ => ⟨hleft, hg⟩⟩
  · exact exec_counterSlew_ticks hr hl hat (by rw [if_neg (by omega), if_pos hpos]) (by decide)
  · rw [exec_counterSlew_ticks hr hl hat (if_pos hneg) (by decide), TimeSt.slewed_down]
  · have hframe := (FlagsMarked.markWhere v.holdOver .tmg fun _ => true).frame
    refine ⟨_, exec_holdoverEntry_due hl hr hm, hframe, congrArg State.time hframe, fun p => ?_⟩
    refine (v.holdOver.launch_markAll p .tmg).trans (congrArg (Option.map · _) (funext fun l => ?_))
    rw [Launch.marked, Flags.mark]
    cases l.flags.tmg <;> rfl
  · obtain ⟨_, _, _, hframe⟩ := v.unlockTime.raisePf0_frame 0x0301 none s.time.upPort.toNat (codeOf 64 (offsetOf s.time.offset))
    exact ⟨_, (exec_synTimeUnlock_due hl hr ha).trans (congrArg _ hframe), rfl, rfl, rfl, rfl, rfl⟩
  · change Host.Outcome.next (if s.setupOpen then s.writeTimeCfg value else s) = _
    by_cases ho : s.setupOpen = true
    · have hup : s.up = true := (Bool.and_eq_true_iff.1 ho).1
      rw [if_pos ho, if_pos ho, State.writeTimeCfg_eq hup]
      rfl
    · rw [if_neg ho, if_neg ho]

end Sys2Proof.Machine
end

