-- ==== Sys2Proof/Proofs/LaneGroups.lean ====
section
/-!
PROOFS. The group of lanes that training chooses (11 R260).
-/
namespace Sys2Proof.Machine

/-- Every lane of aligned group k of width w passes. -/
def GroupPasses (first : Nat) (ok : Nat → Bool) (w k : Nat) : Prop := ∀ i, i < w → ok (first + w * k + i) = true

/-- A width that training may choose. -/
def TrainWidth (size limit w : Nat) : Prop := (w = 1 ∨ w = 2 ∨ w = 4 ∨ w = 8) ∧ w ≤ limit ∧ w ≤ size

/-- The lowest aligned group of one width whose lanes all pass. -/
def lowestGroup (first size : Nat) (ok : Nat → Bool) (w : Nat) : Option (Nat × Nat) :=
  ((List.range (size / w)).find? fun k => (List.range w).all fun i => ok (first + w * k + i)).map fun k => (first + w * k, w)

/-- The widths that training tries, widest first. -/
def trainWidths (size limit : Nat) : List Nat := [8, 4, 2, 1].filter fun w => decide (w ≤ limit) && decide (w ≤ size)

theorem bestGroup_eq (first size limit : Nat) (ok : Nat → Bool) :
    bestGroup (first, size) limit ok = (trainWidths size limit).findSome? (lowestGroup first size ok) := rfl

theorem mem_trainWidths {size limit w : Nat} : w ∈ trainWidths size limit ↔ TrainWidth size limit w := by
  simp only [trainWidths, TrainWidth, List.mem_filter, List.mem_cons, List.not_mem_nil, or_false, Bool.and_eq_true, decide_eq_true_eq]
  omega

theorem trainWidths_descend (size limit : Nat) : (trainWidths size limit).Pairwise (· > ·) :=
  List.Pairwise.filter _ (by decide)

section
variable {first size w : Nat} {ok : Nat → Bool}

theorem all_lanes_iff (k : Nat) : ((List.range w).all fun i => ok (first + w * k + i)) = true ↔ GroupPasses first ok w k := by
  simp only [List.all_eq_true, List.mem_range, GroupPasses]

theorem lt_groups_iff (hw : 0 < w) (k : Nat) : k < size / w ↔ w * k + w ≤ size := by
  rw [Nat.lt_iff_add_one_le, Nat.le_div_iff_mul_le hw, Nat.add_mul, one_mul, Nat.mul_comm]

theorem lowestGroup_eq_some {g : Nat × Nat} (hw : 0 < w) (h : lowestGroup first size ok w = some g) :
    g.2 = w ∧ ∃ k, g.1 = first + w * k ∧ w * k + w ≤ size ∧ GroupPasses first ok w k ∧ ∀ j, j < k → ¬ GroupPasses first ok w j := by
  obtain ⟨k, hk, rfl⟩ := Option.map_eq_some_iff.1 h
  obtain ⟨hall, hmem, hlow⟩ := List.find?_range_eq_some.1 hk
  refine ⟨rfl, k, rfl, (lt_groups_iff hw k).1 (List.mem_range.1 hmem), (all_lanes_iff k).1 hall, fun j hj hpass => ?_⟩
  have hnot := hlow j hj
  rw [(all_lanes_iff j).2 hpass] at hnot
  exact Bool.false_ne_true hnot

theorem lowestGroup_eq_none (hw : 0 < w) (h : lowestGroup first size ok w = none) {k : Nat} (hk : w * k + w ≤ size) :
    ¬ GroupPasses first ok w k := by
  rw [lowestGroup, Option.map_eq_none_iff, List.find?_eq_none] at h
  exact fun hpass => h k (List.mem_range.2 ((lt_groups_iff hw k).2 hk)) ((all_lanes_iff k).2 hpass)

end

/-- The choice looks at the lanes of the span alone. -/
theorem bestGroup_congr {first size limit : Nat} {ok ok' : Nat → Bool} (h : ∀ l, first ≤ l → l < first + size → ok l = ok' l) :
    bestGroup (first, size) limit ok = bestGroup (first, size) limit ok' := by
  have hgroup (w : Nat) (hw : w ∈ trainWidths size limit) : lowestGroup first size ok w = lowestGroup first size ok' w := by
    have hpos : 0 < w := by
      obtain ⟨hw, -⟩ := mem_trainWidths.1 hw
      omega
    refine congrArg (Option.map _) (List.find?_congr fun k hk => ?_)
    have hfit := (lt_groups_iff hpos k).1 (List.mem_range.1 hk)
    rw [Bool.eq_iff_iff, all_lanes_iff, all_lanes_iff]
    exact forall₂_congr fun i hi => by rw [h _ (by omega) (by omega)]
  rw [bestGroup_eq, bestGroup_eq, ← List.head?_filterMap, ← List.head?_filterMap, List.filterMap_congr hgroup]

/-- Settles O39: the widths descend, so a width that was passed over had no group. -/
theorem laneGroups : Obligations.LaneGroups := by
  intro first size limit ok hsize hlimit passes width
  have hpos {w : Nat} (hw : width w) : 0 < w := by
    obtain ⟨hw, -⟩ := hw
    omega
  refine ⟨fun g hg => ?_, fun hnone l hl => ?_⟩
  · rw [bestGroup_eq, List.findSome?_eq_some_iff] at hg
    obtain ⟨before, w, after, hsplit, hgroup, hbefore⟩ := hg
    have hw : width w := mem_trainWidths.1 (by rw [hsplit]; simp)
    obtain ⟨rfl, k, hfirst, hfit, hpass, hlow⟩ := lowestGroup_eq_some (hpos hw) hgroup
    refine ⟨hw, k, hfirst, hfit, hpass, hlow, fun w' j hw' hlt hfit' => ?_⟩
    have hmem : w' ∈ before ++ g.2 :: after := hsplit ▸ mem_trainWidths.2 hw'
    have hdesc := trainWidths_descend size limit
    rw [hsplit, List.pairwise_append, List.pairwise_cons] at hdesc
    obtain ⟨-, ⟨hafter, -⟩, -⟩ := hdesc
    have hpassed : w' ∈ before := by
      rcases List.mem_append.1 hmem with hb | ha
      · exact hb
      · rcases List.mem_cons.1 ha with heq | ha
        · omega
        · exact absurd (hafter w' ha) (by omega)
    exact lowestGroup_eq_none (hpos hw') (hbefore w' hpassed) hfit'
  · rw [bestGroup_eq, List.findSome?_eq_none_iff] at hnone
    have hone : lowestGroup first size ok 1 = none := hnone 1 (mem_trainWidths.2 ⟨.inl rfl, hlimit, by omega⟩)
    refine eq_false_of_ne_true fun hok => lowestGroup_eq_none Nat.one_pos hone (k := l) (by omega) fun i hi => ?_
    rwa [Nat.lt_one_iff.1 hi, one_mul]

end Sys2Proof.Machine
end

