-- ==== Sys2Proof/Proofs/PeerEntries.lean ====
section
/-!
PROOFS. Half-ports and entries of peers: what is read back after an update, and what sending leaves (11 R263 to R265, R274, R284).
-/
namespace Sys2Proof.Machine

/-! ### Half-ports (11 R263) -/

/-- An entry of a table after one entry was set. -/
theorem getElem_set_fin {α : Type} {n : Nat} (v : Vector α n) (k l : Fin n) (x : α) : (v.set k x)[l] = if l = k then x else v[l] := by
  by_cases h : l = k
  · subst h
    simp
  · have hne : k.val ≠ l.val := fun heq => h (Fin.ext heq.symm)
    simp [h, hne]

@[simp] theorem State.half_setHalf (s : State) (h : HalfId) (f : HalfPort → HalfPort) : (s.setHalf h f).half h = f (s.half h) := by
  simp [State.setHalf, State.half]

theorem State.half_setHalf_ne (s : State) {h k : HalfId} (hk : k ≠ h) (f : HalfPort → HalfPort) : (s.setHalf h f).half k = s.half k := by
  have hne : h.val ≠ k.val := fun heq => hk (Fin.ext heq.symm)
  simp [State.setHalf, State.half, hne]

/-! ### Peers (11 R274, R284) -/

section
variable {s : State} {p : Pid} {m : ModId}

/-- The entry of a module among some peers. -/
theorem State.peer_eq (s : State) (p : Pid) (m : ModId) : s.peer p m = (s.part p).peers.find? fun q => decide (q.id = m) := rfl

theorem State.peer_congr {u : State} (h : (u.part p).peers = (s.part p).peers) (m : ModId) : u.peer p m = s.peer p m := by
  rw [State.peer_eq, h, State.peer_eq]

theorem State.id_of_peer {q : Peer} (h : s.peer p m = some q) : q.id = m := of_decide_eq_true (List.find?_some h :)

theorem State.peerLost_eq (s : State) (p : Pid) (m : ModId) : s.peerLost p m = (s.peer p m).bind (·.lost) := rfl

theorem State.peer_modPeer {f : Peer → Peer} (hid : ∀ q, (f q).id = q.id) : (s.modPeer p m f).peer p m = (s.peer p m).map f := by
  have hkey : ((fun q : Peer => decide (q.id = m)) ∘ fun q : Peer => if q.id = m then f q else q) = fun q => decide (q.id = m) := by
    funext q
    simp only [Function.comp_apply]
    split
    · rw [hid]
    · rfl
  rw [State.peer_eq, State.peer_eq, State.modPeer, State.part_modPart, List.find?_map, hkey]
  refine Option.map_congr fun q hq => if_pos ?_
  exact State.id_of_peer hq

theorem State.peer_modPeer_ne {k : ModId} (hk : k ≠ m) {f : Peer → Peer} (hid : ∀ q, (f q).id = q.id) :
    (s.modPeer p m f).peer p k = s.peer p k := by
  have hkey : ((fun q : Peer => decide (q.id = k)) ∘ fun q : Peer => if q.id = m then f q else q) = fun q => decide (q.id = k) := by
    funext q
    simp only [Function.comp_apply]
    split
    · rw [hid]
    · rfl
  rw [State.peer_eq, State.peer_eq, State.modPeer, State.part_modPart, List.find?_map, hkey]
  refine (Option.map_congr fun q hq => ?_).trans Option.map_id'
  have hqk : q.id = k := State.id_of_peer (s := s) (p := p) hq
  exact if_neg fun hqm => hk (hqk.symm.trans hqm)

theorem State.ensurePeer_of_known {q : Peer} (h : s.peer p m = some q) : s.ensurePeer p m = s :=
  if_pos (List.any_eq_true.2 ⟨q, List.mem_of_find?_eq_some h, decide_eq_true (State.id_of_peer h)⟩)

theorem State.ensurePeer_of_unknown (h : s.peer p m = none) :
    s.ensurePeer p m = s.modPart p fun x => { x with peers := x.peers ++ [Peer.fresh m s.now] } :=
  if_neg fun hany => by
    obtain ⟨q, hq, hid⟩ := List.any_eq_true.1 hany
    exact List.find?_eq_none.1 h q hq hid

/-- The partition knows the module from now on. -/
theorem State.peer_ensurePeer (s : State) (p : Pid) (m : ModId) :
    (s.ensurePeer p m).peer p m = some ((s.peer p m).getD (Peer.fresh m s.now)) := by
  cases h : s.peer p m with
  | some q => rw [State.ensurePeer_of_known h, h, Option.getD_some]
  | none =>
    have hfind : (s.part p).peers.find? (fun q => decide (q.id = m)) = none := h
    have hfresh : [Peer.fresh m s.now].find? (fun q => decide (q.id = m)) = some (Peer.fresh m s.now) := by simp [Peer.fresh]
    rw [State.ensurePeer_of_unknown h, State.peer_eq, State.part_modPart, List.find?_append, hfind, Option.none_or, Option.getD_none, hfresh]

theorem State.peer_ensurePeer_of_known {k : ModId} {q : Peer} (h : s.peer p k = some q) : (s.ensurePeer p m).peer p k = some q := by
  cases hm : s.peer p m with
  | some _ => rw [State.ensurePeer_of_known hm, h]
  | none =>
    have hfind : (s.part p).peers.find? (fun q => decide (q.id = k)) = some q := h
    rw [State.ensurePeer_of_unknown hm, State.peer_eq, State.part_modPart, List.find?_append, hfind, Option.some_or]

end

/-! ### Frames that go out (11 R264, R265) -/

theorem State.trySend_eq_some {s t : State} {x : TxItem} (h : s.trySend x = some t) : ∃ q k, s.peer x.pid x.peer = some q ∧
    q.keyed = true ∧ q.frames < 2 ^ 40 ∧ s.txHalf x.pid q x.msg.vc (unitsOf x.msg.payload) = some k ∧ t = s.transmit x q k := by
  unfold State.trySend at h
  split at h
  · cases h
  · next q hq =>
    split at h
    · cases h
    · next hgo =>
      obtain ⟨k, hk, rfl⟩ := Option.map_eq_some_iff.1 h
      simp only [Bool.or_eq_true, Bool.not_eq_true', decide_eq_true_eq, not_or, Bool.not_eq_false, Nat.not_le] at hgo
      exact ⟨q, k, hq, hgo.1, hgo.2, hk, rfl⟩

/-- What holds of a state and of every state in which one more frame went out or the frames that wait are others holds after the
waiting frames went out. -/
theorem State.pump_induction {motive : State → Prop} {s : State} (start : motive s)
    (sends : ∀ t u x, motive t → t.trySend x = some u → motive u)
    (waits : ∀ t xs, motive t → motive { t with links := { t.links with txq := xs } }) : motive s.pump := by
  unfold State.pump
  refine waits _ _ (List.foldlRecOn _ _ (motive := fun r : State × List TxItem => motive r.1) start fun r hr x _ => ?_)
  split
  · exact hr
  · split
    · exact hr
    · next u hu => exact sends _ u x hr hu

/-- Without a frame that waits none goes out. -/
theorem State.pump_of_empty {s : State} (h : s.links.txq = []) : s.pump = s := by
  have hlinks : { s.links with txq := [] } = s.links := by rw [← h]
  simp only [State.pump, h, List.filter_nil, List.append_nil, List.foldl_nil, hlinks]

end Sys2Proof.Machine
end

