-- ==== Sys2Proof/Proofs/SteadyWork.lean ====
section
/-!
PROOFS. What the end of work leaves of the ports and of the peers: no port, lane or key changes, a lost peer stays lost, and a launch that
has ended stays ended (11 R263, R274, R284; 16 R372).
-/
namespace Sys2Proof.Machine

open Sys2Proof.Claims

/-- u keeps the ports of s but for what is on its way through them, the keys and the loss of every peer, and every launch that has ended. -/
structure Steady (s u : State) : Prop where
  links : ∃ h q, u.links = { s.links with half := h, txq := q }
  half : ∀ h, ∃ o w r, u.half h = { s.half h with out := o, owed := w, replay := r }
  lnkClk : u.pins.lnkClk = s.pins.lnkClk
  fenced : u.bind.fenced = s.bind.fenced
  gt : u.time.gt = s.time.gt
  peer : ∀ p m q, s.peer p m = some q → ∃ q', u.peer p m = some q' ∧ q'.keyed = q.keyed ∧ q'.lost = q.lost
  ended : ∀ p, (s.part p).launch = none → (u.part p).launch = none

namespace Steady

theorem refl (s : State) : Steady s s :=
  ⟨⟨_, _, rfl⟩, fun _ => ⟨_, _, _, rfl⟩, rfl, rfl, rfl, fun _ _ q hq => ⟨q, hq, rfl, rfl⟩, fun _ => id⟩

theorem trans {s t u : State} (a : Steady s t) (b : Steady t u) : Steady s u := by
  refine ⟨?_, fun h => ?_, b.lnkClk.trans a.lnkClk, b.fenced.trans a.fenced, b.gt.trans a.gt, fun p m q hq => ?_,
    fun p hp => b.ended p (a.ended p hp)⟩
  · obtain ⟨_, _, ha⟩ := a.links
    obtain ⟨_, _, hb⟩ := b.links
    exact ⟨_, _, by rw [hb, ha]⟩
  · obtain ⟨_, _, _, ha⟩ := a.half h
    obtain ⟨_, _, _, hb⟩ := b.half h
    exact ⟨_, _, _, by rw [hb, ha]⟩
  · obtain ⟨q₁, hq₁, hk₁, hl₁⟩ := a.peer p m q hq
    obtain ⟨q₂, hq₂, hk₂, hl₂⟩ := b.peer p m q₁ hq₁
    exact ⟨q₂, hq₂, hk₂.trans hk₁, hl₂.trans hl₁⟩

theorem ite {c : Prop} [Decidable c] {s a b : State} (ha : Steady s a) (hb : Steady s b) : Steady s (if c then a else b) := by
  split
  · exact ha
  · exact hb

theorem foldl {α : Type} {f : State → α → State} (hf : ∀ s x, Steady s (f s x)) (xs : List α) (s : State) : Steady s (xs.foldl f s) :=
  List.foldlRecOn xs f (Steady.refl s) fun t ht x _ => ht.trans (hf t x)

/-- Links and partitions as they were. -/
theorem of_fields {s u : State} (hl : u.links = s.links) (hp : u.parts = s.parts) (hc : u.pins.lnkClk = s.pins.lnkClk)
    (hf : u.bind.fenced = s.bind.fenced) (ht : u.time.gt = s.time.gt) : Steady s u := by
  have hpart (p : Pid) : u.part p = s.part p := by rw [State.part, hp, State.part]
  exact ⟨⟨_, _, hl⟩, fun h => ⟨_, _, _, by rw [State.half, hl, State.half]⟩, hc, hf, ht,
    fun p m q hq => ⟨q, (State.peer_congr (congrArg _ (hpart p)) m).trans hq, rfl, rfl⟩, fun p => by rw [hpart]; exact id⟩

/-- Work that leaves links and partitions as they were. -/
theorem of_work {s u : State} (h : Work s u) (hl : u.links = s.links) (hp : u.parts = s.parts) : Steady s u := by
  obtain ⟨_, htime⟩ := h.time
  obtain ⟨_, hpins⟩ := h.pins
  obtain ⟨_, _, hbind⟩ := h.bind
  exact of_fields hl hp (by rw [hpins]) (by rw [hbind]) (by rw [htime])

theorem of_hostOnly {s u : State} (h : HostOnly s u) (hw : Work s u) : Steady s u := of_work hw (by rw [h]) (by rw [h])

theorem of_siloWritten {s u : State} (h : SiloWritten s u) : Steady s u := by
  obtain ⟨_, _, _, _, rfl⟩ := h
  exact of_fields rfl rfl rfl rfl rfl

/-- A partition changes, not its peers, and no launch begins. -/
theorem modPart (s : State) (p : Pid) (f : Part → Part) (hp : (f (s.part p)).peers = (s.part p).peers)
    (hl : (s.part p).launch = none → (f (s.part p)).launch = none) : Steady s (s.modPart p f) := by
  refine ⟨⟨_, _, rfl⟩, fun _ => ⟨_, _, _, rfl⟩, rfl, rfl, rfl, fun k m q hq => ⟨q, ?_, rfl, rfl⟩, fun k hk => ?_⟩ <;> by_cases h : k = p
  · subst h
    exact (State.peer_congr ((congrArg _ (State.part_modPart ..)).trans hp) m).trans hq
  · exact (State.peer_congr (congrArg _ (State.part_modPart_ne _ _ _ _ h)) m).trans hq
  · subst h
    rw [State.part_modPart]
    exact hl hk
  · rw [State.part_modPart_ne _ _ _ _ h]
    exact hk

theorem modLaunch (s : State) (p : Pid) (f : Launch → Launch) : Steady s (s.modLaunch p f) :=
  modPart s p _ rfl fun h => by
    show (s.part p).launch.map f = none
    rw [h, Option.map_none]

theorem modTile (s : State) (t : TileId) (f : Tile → Tile) : Steady s (s.modTile t f) := of_fields rfl rfl rfl rfl rfl

theorem modCore (s : State) (t : TileId) (f : Core → Core) : Steady s (s.modCore t f) := of_fields rfl rfl rfl rfl rfl

theorem mapTiles (s : State) (which : TileId → Bool) (f : Tile → Tile) : Steady s (s.mapTiles which f) := of_work (Work.mapTiles s _ _)
  (State.mapTiles_links ..) (State.mapTiles_parts ..)

theorem sync (s : State) (y : SyncSt) : Steady s { s with sync := y } := of_fields rfl rfl rfl rfl rfl

theorem emit (s : State) (o : Output) : Steady s (s.emit o) := of_fields rfl rfl rfl rfl rfl

theorem skipFree (s : State) (n : Nat) : Steady s (s.skipFree n) := of_fields rfl rfl rfl rfl rfl

theorem setObj (s : State) (o : Nat) (x : BitVec 128) : Steady s (s.setObj o x) := of_fields rfl rfl rfl rfl rfl

theorem memctl (s : State) (m : MemSt) : Steady s { s with memctl := m } := of_fields rfl rfl rfl rfl rfl

/-! ### Sending (11 R264, R265) -/

theorem setHalf (s : State) (h : HalfId) (f : HalfPort → HalfPort)
    (hf : ∃ o w r, f (s.half h) = { s.half h with out := o, owed := w, replay := r }) : Steady s (s.setHalf h f) := by
  refine ⟨⟨_, _, rfl⟩, fun k => ?_, rfl, rfl, rfl, fun _ _ q hq => ⟨q, hq, rfl, rfl⟩, fun _ => id⟩
  by_cases hk : k = h
  · subst hk
    rwa [State.half_setHalf]
  · exact ⟨_, _, _, State.half_setHalf_ne s hk f⟩

theorem modPeer (s : State) (p : Pid) (m : ModId) (f : Peer → Peer)
    (hf : ∀ q, (f q).id = q.id ∧ (f q).keyed = q.keyed ∧ (f q).lost = q.lost) : Steady s (s.modPeer p m f) := by
  refine ⟨⟨_, _, rfl⟩, fun _ => ⟨_, _, _, rfl⟩, rfl, rfl, rfl, fun k n q hq => ?_, fun k hk => ?_⟩
  · by_cases h : k = p
    · subst h
      by_cases hn : n = m
      · subst hn
        exact ⟨f q, by rw [State.peer_modPeer fun q => (hf q).1, hq, Option.map_some], (hf q).2⟩
      · exact ⟨q, by rw [State.peer_modPeer_ne hn fun q => (hf q).1, hq], rfl, rfl⟩
    · exact ⟨q, (State.peer_congr (congrArg _ (State.part_modPart_ne _ _ _ _ h)) n).trans hq, rfl, rfl⟩
  · by_cases h : k = p
    · subst h
      rw [State.modPeer, State.part_modPart]
      exact hk
    · rw [State.modPeer, State.part_modPart_ne _ _ _ _ h]
      exact hk

theorem ensurePeer (s : State) (p : Pid) (m : ModId) : Steady s (s.ensurePeer p m) := by
  cases hm : s.peer p m with
  | some q => rw [State.ensurePeer_of_known hm]; exact refl s
  | none =>
    refine ⟨?_, ?_, ?_, ?_, ?_, fun k n q hq => ⟨q, ?_, rfl, rfl⟩, fun k hk => ?_⟩
    · rw [State.ensurePeer_of_unknown hm]; exact ⟨_, _, rfl⟩
    · rw [State.ensurePeer_of_unknown hm]; exact fun _ => ⟨_, _, _, rfl⟩
    · rw [State.ensurePeer_of_unknown hm]; rfl
    · rw [State.ensurePeer_of_unknown hm]; rfl
    · rw [State.ensurePeer_of_unknown hm]; rfl
    · by_cases h : k = p
      · subst h
        exact State.peer_ensurePeer_of_known hq
      · rw [State.ensurePeer_of_unknown hm]
        exact (State.peer_congr (congrArg _ (State.part_modPart_ne _ _ _ _ h)) n).trans hq
    · rw [State.ensurePeer_of_unknown hm]
      by_cases h : k = p
      · subst h
        rw [State.part_modPart]
        exact hk
      · rw [State.part_modPart_ne _ _ _ _ h]
        exact hk

theorem txq (s : State) (xs : List TxItem) : Steady s { s with links := { s.links with txq := xs } } :=
  ⟨⟨_, _, rfl⟩, fun _ => ⟨_, _, _, rfl⟩, rfl, rfl, rfl, fun _ _ q hq => ⟨q, hq, rfl, rfl⟩, fun _ => id⟩

theorem transmit (s : State) (x : TxItem) (q : Peer) (h : HalfId) : Steady s (s.transmit x q h) := by
  unfold State.transmit
  refine ((setHalf s h _ ?_).trans (modPeer _ _ _ _ ?_)).trans (emit _ _)
  · exact ⟨_, _, _, rfl⟩
  · exact fun _ => ⟨rfl, rfl, rfl⟩

theorem pump (s : State) : Steady s s.pump := by
  refine State.pump_induction (refl s) (fun t u x ht hu => ?_) fun t xs ht => ht.trans (txq t xs)
  obtain ⟨q, k, -, -, -, -, rfl⟩ := State.trySend_eq_some hu
  exact ht.trans (transmit t x q k)

theorem send (s : State) (p : Pid) (m : ModId) (x : Message) : Steady s (s.send p m x) :=
  ite (refl s) ((ensurePeer s p m).trans (ite (refl _) ((txq _ _).trans (pump _))))

theorem sendAbort (s : State) (p : Pid) : Steady s (s.sendAbort p) := foldl (fun t m => send t p m .abort) _ s

theorem dropTx (s : State) (which : Pid → ModId → Bool) : Steady s (s.dropTx which) := by
  refine ⟨⟨_, _, rfl⟩, fun h => ⟨(s.half h).out, (s.half h).owed, (s.half h).replay.filter fun b => !which b.id.pid b.id.peer, ?_⟩, rfl,
    rfl, rfl, fun _ _ q hq => ⟨q, hq, rfl, rfl⟩, fun _ => id⟩
  simp [State.half, State.dropTx]

/-! ### Events and completions (16 R370, R384) -/

theorem raisePf0 (s : State) (code : BitVec 16) (p : Option Pid) (a b : Nat) : Steady s (s.raisePf0 code p a b) :=
  of_hostOnly (HostOnly.raisePf0 ..) (Work.raisePf0 ..)

theorem raiseFn (s : State) (code : BitVec 16) (p : Pid) (a b : Nat) : Steady s (s.raiseFn code p a b) :=
  of_hostOnly (HostOnly.raiseFn ..) (Work.raiseFn ..)

theorem raiseBoth (s : State) (code : BitVec 16) (p : Option Pid) (a b : Nat) : Steady s (s.raiseBoth code p a b) :=
  of_hostOnly (HostOnly.raiseBoth ..) (Work.raiseBoth ..)

theorem complete (s : State) (n : Fn) (c : Cmd) (code : BitVec 16) (st info : Nat) : Steady s (s.complete n c code st info) :=
  of_hostOnly (HostOnly.complete ..) (Work.complete ..)

theorem finishCmd (s : State) (n : Fn) (cid : Nat) (p : Pid) (r : Option (Nat × Nat)) (code : BitVec 16) (st info : Nat) :
    Steady s (s.finishCmd n cid p r code st info) := by
  unfold State.finishCmd
  split
  · exact refl s
  · split
    · exact ite (complete ..) (of_fields rfl rfl rfl rfl rfl)
    · exact complete ..

/-! ### Storage (09 R227, R234) -/

theorem siloWrite (s : State) (p : Pid) (a : Nat) (bs : List Byte) : Steady s (s.siloWrite p a bs) :=
  of_siloWritten (SiloWritten.siloWrite s p a bs)

theorem siloRecord (s : State) (p : Pid) (a : Nat) (bs : List Byte) : Steady s (s.siloRecord p a bs) :=
  of_siloWritten (SiloWritten.siloRecord s p a bs)

theorem markPart (s : State) (p : Pid) (k : FlagKind) : Steady s (s.markPart p k) := by
  refine modPart s p _ ?_ fun h => ?_
  · split
    · rfl
    · split <;> rfl
  · rw [h]
    exact h

theorem markWhere (s : State) (k : FlagKind) (which : Pid → Bool) : Steady s (s.markWhere k which) :=
  foldl (fun t p => ite (markPart t p k) (refl t)) _ s

theorem touchEnd (s : State) (p : Pid) : Steady s (s.touchEnd p) := by
  refine modPart s p _ ?_ fun h => ?_
  · split <;> rfl
  · rw [h]
    exact h

theorem retirePc (s : State) (k : Nat) : Steady s (s.retirePc k) := by
  unfold State.retirePc
  split
  · exact refl s
  · exact ((memctl s _).trans (markWhere _ .mnt _)).trans (raisePf0 ..)

theorem pcBudget (s : State) (k : Nat) : Steady s (s.pcBudget k) :=
  ite (refl s) (ite (ite (refl s) ((memctl s _).trans (raisePf0 ..))) (ite (memctl s _) (retirePc s k)))

theorem raiseUncorrectable (s : State) (p : Option Pid) (dev : Nat) : Steady s (s.raiseUncorrectable p dev) :=
  (((memctl s _).trans (memctl _ _)).trans (ite (pcBudget _ _) (refl _))).trans (raiseBoth ..)

/-! ### The end of work (10 R258; 16 R372, R379) -/

theorem wakeHosts (s : State) (o : Nat) : Steady s (s.wakeHosts o) := by
  unfold State.wakeHosts
  refine Steady.trans (Steady.trans (ite (setObj s o _) (refl s)) (sync _ _)) (foldl (fun t w => ?_) _ _)
  split
  · split
    · exact refl t
    · exact complete ..
  · exact refl t

theorem entryStatus (s : State) (p : Pid) (img : List Byte) (i : Nat) (code : BitVec 16) (f : Nat) : Steady s (s.entryStatus p img i code f) := by
  unfold State.entryStatus
  split
  · exact refl s
  · exact siloRecord ..

theorem spoilEntry (s : State) (p : Pid) (l : Launch) (g : Program) (e : LinkEntry) (r : LinkRec) : Steady s (s.spoilEntry p l g e r) := by
  refine ite ?_ (refl s)
  unfold State.spoilDst
  split
  · exact refl s
  · exact ite (refl s) ((siloWrite ..).trans (skipFree _ _))

theorem endDone (s : State) (p : Pid) (r : LinkRec) : Steady s (s.endDone p r) := by
  unfold State.endDone
  split
  · exact refl s
  · exact (setObj ..).trans (wakeHosts ..)

theorem endEntries (s : State) (p : Pid) (code : BitVec 16) : Steady s (s.endEntries p code) := by
  unfold State.endEntries
  split
  · exact refl s
  · refine foldl (fun t e => ?_) _ s
    split
    · exact entryStatus ..
    · exact ((entryStatus ..).trans (spoilEntry ..)).trans (endDone ..)

theorem setChain (s : State) (p : Pid) (k : SlotId) (c : List Byte) : Steady s (s.setChain p k c) := by
  refine modPart s p _ ?_ fun h => ?_
  · split <;> rfl
  · split
    · exact h
    · exact h

theorem settleK (s : State) : Steady s s.settleK := of_fields rfl rfl rfl rfl rfl

theorem endHold (s : State) (p : Pid) : Steady s (s.endHold p) := mapTiles s _ _

theorem stopTiles (s : State) (p : Pid) : Steady s (s.stopTiles p) := mapTiles s _ _

theorem clearLaunch (s : State) (p : Pid) : Steady s (s.clearLaunch p) :=
  ((modPart s p _ (by rfl) fun _ => rfl).trans (endHold _ p)).trans (settleK _)

theorem putRecord (s : State) (p : Pid) (l : Launch) (bs : List Byte) : Steady s (s.putRecord p l bs) :=
  (siloRecord s p l.raddr bs).trans (modPart _ p (fun x => { x with results := x.results.set l.slot (some (BitVec.ofNat 4096 (leNat bs))) }) rfl id)

theorem failLaunch (s : State) (p : Pid) (code : BitVec 16) : Steady s (s.failLaunch p code) := by
  unfold State.failLaunch
  dsimp only
  split
  · exact refl s
  · exact trans ((((trans (endEntries s p eAborted) (skipFree _ 2)).trans (ite (putRecord ..) (refl _))).trans (setChain ..)).trans
      (clearLaunch ..)) (finishCmd ..)

theorem dropSync (s : State) (p : Pid) (hosts : Bool) : Steady s (s.dropSync p hosts) := by
  unfold State.dropSync
  dsimp only
  split
  · exact sync s _
  · exact trans (sync s _) (foldl wakeHosts _ _)

theorem finishSolve (s : State) (p : Pid) (q : QSolve) (r : List Byte) (code : BitVec 16) (st it : Nat) (w : Bool) :
    Steady s (s.finishSolve p q r code st it w) := by
  unfold State.finishSolve
  dsimp only
  split
  · exact ite (siloRecord ..) (refl s)
  · exact trans (ite (siloRecord ..) (refl s)) (finishCmd ..)

theorem modEngine (s : State) (e : EngId) (f : Engine → Engine) : Steady s (s.modEngine e f) := of_fields rfl rfl rfl rfl rfl

theorem modChan (s : State) (e : EngId) (c : ChanId) (f : Channel → Channel) : Steady s (s.modChan e c f) := of_fields rfl rfl rfl rfl rfl

theorem undoSolve (s : State) (e : EngId) (c : ChanId) : Steady s (s.undoSolve e c) := by
  unfold State.undoSolve
  split
  · exact refl s
  · exact of_fields rfl rfl rfl rfl rfl

theorem endChannel (s : State) (e : EngId) (c : ChanId) (code : BitVec 16) (w : Bool) : Steady s (s.endChannel e c code w) := by
  unfold State.endChannel
  split
  · exact refl s
  · exact (((undoSolve s e c).trans (modEngine ..)).trans (modChan ..)).trans (foldl (fun _ _ => finishSolve ..) _ _)

theorem endChannels (s : State) (which : ChanAlloc → Bool) (code : BitVec 16) (w : Bool) : Steady s (s.endChannels which code w) := by
  refine foldl (fun t e => foldl (fun t c => ?_) _ t) _ s
  split
  · exact refl t
  · exact ite (endChannel ..) (refl t)

theorem endCmds (s : State) (p : Pid) (save : Option (Fn × Nat)) (w : Bool) : Steady s (s.endCmds p save w) :=
  foldl (fun t n => foldl (fun t c => complete t n c eAborted 0 0) _ t) _ s

theorem endWork (s : State) (p : Pid) (code : BitVec 16) (save : Option (Fn × Nat)) (w : Bool) : Steady s (s.endWork p code save w) := by
  unfold State.endWork
  refine ((stopTiles s p).trans (dropSync _ p true)).trans (trans ?_ ((endChannels ..).trans (endCmds ..)))
  exact ite (failLaunch ..) ((modLaunch _ p _).trans (failLaunch ..))

theorem tileFault (s : State) (t : TileId) (k : FaultSrc) (cause r pc : Nat) (u : Bool) : Steady s (s.tileFault t k cause r pc u) := by
  unfold State.tileFault
  dsimp only
  split
  · exact trans (modTile s t _) (modTile ..)
  · exact trans (modTile s t _) (((sendAbort ..).trans (endWork ..)).trans (raiseBoth ..))

theorem coreFaultU (s : State) (t : TileId) (cause a : Nat) (u : Bool) : Steady s (s.coreFaultU t cause a u) := by
  unfold State.coreFaultU
  dsimp only
  exact (tileFault s t ..).trans (modTile ..)

theorem coreFault (s : State) (t : TileId) (cause a : Nat) : Steady s (s.coreFault t cause a) := coreFaultU ..

end Steady

end Sys2Proof.Machine
end

