-- ==== Sys2Proof/Proofs/SteadySync.lean ====
section
/-!
PROOFS. What sync operations and the end of link entries leave of the ports and of the peers, and of launches that have ended (10 R246 to
R258; 11 R276, R284).
-/
namespace Sys2Proof.Machine.Steady

/-! ### Flags on the way -/

/-- The launch of a partition changes within an update that leaves its peers. -/
theorem launchMap (s : State) (p : Pid) (f : Launch → Launch) :
    Steady s (s.modPart p fun x => { x with launch := x.launch.map f }) := modLaunch s p f

theorem lateRel (s : State) (n : Half) : Steady s { s with time := { s.time with lateRel := n } } := of_fields rfl rfl rfl rfl rfl

/-! ### Region outcomes (08 R202, R203) -/

theorem writeRlog {s u : State} {p : Pid} {x : Program} {l : Launch} {w : Nat} (h : s.writeRlog p x l w = some u) : Steady s u := by
  unfold State.writeRlog at h
  split at h
  · cases h; exact refl s
  · split at h
    · cases h
    · dsimp only at h
      split at h
      · split at h
        · cases h
        · cases h; exact (siloRecord ..).trans (siloRecord ..)
      · cases h; exact siloRecord ..

theorem coreUncorrectable (s : State) (t : TileId) (p : Pid) (a : Nat) : Steady s (s.coreUncorrectable t p a) :=
  (raiseUncorrectable ..).trans (coreFaultU ..)

theorem stopIssue (s : State) (p : Pid) : Steady s (s.stopIssue p) := (mapTiles s _ _).trans (launchMap ..)

theorem raiseOverflow (s : State) (p : Pid) (rid rung : Nat) : Steady s (s.raiseOverflow p rid rung) := (raiseFn ..).trans (launchMap ..)

theorem leadOutcome (s : State) (t : TileId) (p : Pid) (x : Program) (l : Launch) (r : RegionRec) (rung : Nat) (ovr : Bool) :
    Steady s (s.leadOutcome t p x l r rung ovr) := by
  unfold State.leadOutcome
  split
  · exact coreUncorrectable ..
  · next u hu => exact (writeRlog hu).trans (ite (raiseOverflow ..) (refl u))

theorem regionOutcome (s : State) (t : TileId) (flag : Bool) : Steady s (s.regionOutcome t flag) := by
  unfold State.regionOutcome
  split
  · next g p x _ _ =>
    split
    · next r l _ _ =>
      dsimp only
      have lead (rung : Nat) (ovr : Bool) : Steady s (if decide (x.logical t = some r.lead) then s.leadOutcome t p x l r rung ovr else s) :=
        ite (leadOutcome ..) (refl s)
      refine ite (modCore ..) (ite (ite (coreFault ..) ?_) ?_)
      · exact ite (lead ..) ((lead ..).trans (modCore ..))
      · exact ite (lead ..) (ite ((lead ..).trans (stopIssue ..)) ((lead ..).trans (modCore ..)))
    · exact refl s
  · exact refl s

/-! ### Waiters (10 R246, R247, R249) -/

theorem resume (s : State) (w : Waiter) (code : BitVec 16) (flag : Bool) : Steady s (s.resume w code flag) := by
  unfold State.resume
  split
  · split
    · exact modCore ..
    · exact ite (regionOutcome ..) (coreFault ..)
    · exact refl s
  · split
    · exact refl s
    · exact complete ..
  · exact launchMap ..

theorem answer (s : State) (who : Option Waiter) (code : Option (BitVec 16)) : Steady s (s.answer who code) := by
  unfold State.answer
  split
  · exact resume ..
  · exact refl s

theorem failWaiters (s : State) (o : Nat) (code : BitVec 16) : Steady s (s.failWaiters o code) :=
  (sync s _).trans (foldl (fun _ _ => resume ..) _ _)

theorem expireWaits (s : State) (o t : Nat) : Steady s (s.expireWaits o t) := (sync s _).trans (foldl (fun _ _ => resume ..) _ _)

theorem wake (s : State) (o : Nat) : Steady s (s.wake o) := by
  refine ite ?_ ((sync s _).trans (foldl (fun _ _ => resume ..) _ _))
  exact ((setObj ..).trans (sync ..)).trans (foldl (fun _ _ => resume ..) _ _)

/-! ### Barriers (10 R252 to R254) -/

theorem forwardRelease (s : State) (p : Pid) (o : Nat) (rel : Release) : Steady s (s.forwardRelease p o rel) :=
  (foldl (fun _ _ => send ..) _ s).trans (sync ..)

theorem overflowUnled (s : State) (ws : List Waiter) (flag : Bool) : Steady s (s.overflowUnled ws flag) :=
  ite (foldl (fun _ _ => raiseOverflow ..) _ s) (refl s)

theorem releaseNow (s : State) (o : Nat) (flag : Bool) (t : Nat) : Steady s (s.releaseNow o flag t) := by
  unfold State.releaseNow
  extract_lets e f arrived ws _ g k
  have hg : Steady s g := (expireWaits s o t).trans ((setObj e o (objRelease (e.obj o))).trans (sync f _))
  exact (hg.trans (overflowUnled ..)).trans (foldl (fun _ _ => resume ..) _ _)

theorem releaseLaunch (s : State) (p : Pid) (o r : Nat) (flag : Bool) (t : Nat) : Steady s (s.releaseLaunch p o r flag t) := by
  unfold State.releaseLaunch
  extract_lets tiles level ts e f
  have he : Steady s e := of_fields rfl rfl rfl rfl rfl
  exact (he.trans (modPart e p (fun x => x.addSlack o r) rfl id)).trans (releaseNow ..)

theorem hintWaiters (s : State) (o : Nat) : Steady s (s.hintWaiters o) := mapTiles s _ _

theorem takeRelease (s : State) (p : Pid) (o : Nat) (rel : Release) : Steady s (s.takeRelease p o rel) := by
  unfold State.takeRelease
  dsimp only
  split
  · exact (forwardRelease ..).trans (releaseNow ..)
  · refine (forwardRelease s p o rel).trans (ite ?_ (trans (ite (hintWaiters ..) (refl _)) (sync ..)))
    exact ((lateRel ..).trans (markPart ..)).trans (releaseLaunch ..)

theorem barrierFull (s : State) (p : Pid) (o : Nat) : Steady s (s.barrierFull p o) := by
  unfold State.barrierFull
  dsimp only
  refine ite (takeRelease ..) ?_
  split
  · exact failWaiters ..
  · exact (send ..).trans (sync ..)

theorem noteArrival (s : State) (p : Pid) (o n : Nat) : Steady s (s.modPart p fun y => y.noteArrival o n) := modPart s p _ rfl id

/-! ### Operations (10 R246, R252) -/

/-- Of two outcomes with a code each. -/
theorem iteFst {α : Type} {c : Prop} [Decidable c] {s : State} {a b : State × α} (ha : Steady s a.1) (hb : Steady s b.1) :
    Steady s (if c then a else b).1 := by
  split
  · exact ha
  · exact hb

/-- What an operation does after the waits that are past their limit. -/
theorem applyOp_expired (s : State) (p : Pid) (o : Nat) (op : SyncOp) (who : Option Waiter) (issue : Nat) :
    Steady (s.expireWaits o s.now) (s.applyOp p o op who issue).1 := by
  unfold State.applyOp
  extract_lets e x wait
  have hwait (t : State) : Steady t (wait t) := by
    cases who with
    | none => exact refl t
    | some w => exact sync t _
  have hwake (y : BitVec 128) : Steady e ((e.setObj o y).wake o) := (setObj e o y).trans (wake ..)
  have he : Steady e e := refl e
  refine iteFst he ?_
  cases op with
  | signal n => exact iteFst he (iteFst he (hwake _))
  | take n => exact iteFst he (iteFst (setObj ..) (hwait e))
  | arrive f =>
    refine iteFst he ?_
    extract_lets a b
    have hb : Steady e b := trans ((setObj e o _).trans (hwait _)) (ite (noteArrival ..) (refl a))
    exact iteFst (hb.trans (barrierFull ..)) hb
  | setf m => exact iteFst he (hwake _)
  | clrf m => exact iteFst he (hwake _)
  | wany m => exact iteFst he (iteFst he (hwait e))
  | wall m => exact iteFst he (iteFst he (hwait e))
  | adv v => exact iteFst he (hwake _)
  | wge v => exact iteFst he (iteFst he (hwait e))

theorem applyOp (s : State) (p : Pid) (o : Nat) (op : SyncOp) (who : Option Waiter) (issue : Nat) :
    Steady s (s.applyOp p o op who issue).1 := (expireWaits s o s.now).trans (applyOp_expired ..)

theorem childArrive (s : State) (p : Pid) (o : Nat) (child : ModId) (flag : Bool) : Steady s (s.childArrive p o child flag).1 := by
  unfold State.childArrive
  extract_lets e x mine _ f g
  have hf : Steady e g := (sync e _).trans (setObj _ o _)
  refine (expireWaits s o s.now).trans (iteFst (refl e) (iteFst (refl e) (iteFst (refl e) ?_)))
  exact ite (hf.trans (barrierFull ..)) hf

theorem noteOrder (s : State) (o rank : Nat) : Steady s (s.noteOrder o rank) := sync s _

theorem syncPeerEnd (s : State) (p : Pid) (m : ModId) (code : BitVec 16) : Steady s (s.syncPeerEnd p m code) := by
  unfold State.syncPeerEnd
  dsimp only
  exact ((sync s _).trans (foldl (fun _ _ => answer ..) _ _)).trans (foldl (fun _ _ => failWaiters ..) _ _)

/-! ### Link entries (11 R276, R284) -/

theorem signalDone (s : State) (p : Pid) (r : LinkRec) : Steady s (s.signalDone p r) := by
  unfold State.signalDone
  split
  · exact refl s
  · exact applyOp ..

theorem finishEntry (s : State) (p : Pid) (g : Program) (idx : Nat) (r : LinkRec) (code : BitVec 16) (flags : Nat) :
    Steady s (s.finishEntry p g idx r code flags) :=
  (((modLaunch s p _).trans (entryStatus ..)).trans (touchEnd ..)).trans (signalDone ..)

theorem failEntries (s : State) (p : Pid) (code : BitVec 16) (which : Program → LinkRec → Bool) : Steady s (s.failEntries p code which) := by
  unfold State.failEntries
  split
  · exact refl s
  · refine foldl (fun t e => ?_) _ s
    split
    · exact refl t
    · exact ite ((spoilEntry ..).trans (finishEntry ..)) (refl t)

/-- What depends on a peer ends; the peer's own entry stays as it is. -/
theorem endPeer (s : State) (p : Pid) (m : ModId) (code : BitVec 16) : Steady s (s.endPeer p m code) :=
  ((dropTx s _).trans (syncPeerEnd ..)).trans (failEntries ..)

/-! ### The rotation of link keys (15 R350) -/

theorem modRot (s : State) (p : Pid) (f : Rotation → Rotation) : Steady s (s.modRot p f) := of_fields rfl rfl rfl rfl rfl

theorem rotationDone (s : State) (w : Option (Fn × Nat)) : Steady s (s.rotationDone w) := by
  unfold State.rotationDone
  split
  · exact refl s
  · split
    · exact refl s
    · exact complete ..

theorem linkRotated (s : State) (p : Pid) : Steady s (s.linkRotated p) :=
  ite (((modRot ..).trans (rotationDone ..)).trans (raiseFn ..)) (refl s)

end Sys2Proof.Machine.Steady
end

