-- ==== Sys2Proof/Proofs/LinkRefutations.lean ====
section
/-!
PROOFS. The end of a link entry signals its DONE object; a wait there that is past its limit ends then (10 R249, R258), and where it was a
region check its tile faults (08 R202), which ends the launch that the entry belonged to (18 R414).
-/
namespace Sys2Proof.Machine

open Sys2Proof.Claims

section
variable {s u : State} {t : TileId} {p : Pid} {o : Nat}

/-! ### A core fault ends the launch (18 R414) -/

theorem State.launch_endWork (s : State) (p : Pid) (code : BitVec 16) : ((s.endWork p code none true).part p).launch = none :=
  ((Steady.endChannels ..).trans (Steady.endCmds ..)).ended p (State.launch_failLaunch ..)

theorem State.launch_coreFault (h : s.partOfTile t = some p) (cause a : Nat) : ((s.coreFault t cause a).part p).launch = none := by
  have hfault : ((s.tileFault t .core cause a (s.core t).pc false).part p).launch = none := by
    unfold State.tileFault
    extract_lets v
    have hv : v.partOfTile t = some p := h
    rw [hv]
    exact (Steady.raiseBoth ..).ended p (State.launch_endWork ..)
  exact (Steady.modTile ..).ended p hfault

/-! ### A region check past its limit (10 R249) -/

/-- The one wait is a region check of a tile of the partition at an object, past its limit. -/
structure OverdueCheck (s : State) (t : TileId) (p : Pid) (o : Nat) : Prop where
  tile : s.partOfTile t = some p
  checks : (s.core t).resume = some .rcheck
  waits : ∃ op stamp issue, s.sync.waits = [{ obj := o, who := .tile t, op := op, stamp := stamp, issue := issue }] ∧
    issue + s.waitLimit (.tile t) ≤ s.now

theorem State.partOfTile_congr (he : ∀ p, (u.part p).entry = (s.part p).entry) (t : TileId) : u.partOfTile t = s.partOfTile t := by
  simp only [State.partOfTile, State.partOfSheaf, he]

/-- The wait stands as long as waits, tiles, bindings and the time are as they were. -/
theorem OverdueCheck.congr (h : OverdueCheck s t p o) (hsync : u.sync = s.sync) (htiles : u.tiles = s.tiles) (hnow : u.now = s.now)
    (he : ∀ p, (u.part p).entry = (s.part p).entry) (hl : ∀ p, (u.part p).waitLim = (s.part p).waitLim) : OverdueCheck u t p o := by
  obtain ⟨op, stamp, issue, hw, hlim⟩ := h.waits
  have hlimit : u.waitLimit (.tile t) = s.waitLimit (.tile t) := State.waitLimit_congr he hl _
  refine ⟨(State.partOfTile_congr he t).trans h.tile, ?_, op, stamp, issue, by rw [hsync, hw], by rw [hlimit, hnow]; exact hlim⟩
  rw [State.core, State.tile, htiles]
  exact h.checks

theorem OverdueCheck.launch_expireWaits (h : OverdueCheck s t p o) : ((s.expireWaits o s.now).part p).launch = none := by
  obtain ⟨op, stamp, issue, hw, hlim⟩ := h.waits
  unfold State.expireWaits
  extract_lets gone ws _ v
  have hws : ws = [{ obj := o, who := .tile t, op := op, stamp := stamp, issue := issue }] := by simp [ws, gone, hw, hlim]
  have hcheck : (v.core t).resume = some .rcheck := h.checks
  have htile : v.partOfTile t = some p := h.tile
  have hfault : v.resume (.tile t) eTimeout false = v.coreFault t 0xC 0 := by
    unfold State.resume
    simp only [hcheck]
    exact if_neg (by decide)
  rw [hws, List.foldl_cons, List.foldl_nil, hfault]
  exact State.launch_coreFault htile ..

/-- An operation at the object ends the wait, and the launch with it. -/
theorem OverdueCheck.launch_applyOp (h : OverdueCheck s t p o) (op : SyncOp) (issue : Nat) :
    ((s.applyOp p o op none issue).1.part p).launch = none := (Steady.applyOp_expired ..).ended p h.launch_expireWaits

/-- An update of a launch leaves the rest of every partition. -/
theorem State.part_modLaunch_launch (s : State) (p q : Pid) (f : Launch → Launch) : ∃ l, (s.modLaunch p f).part q = { s.part q with launch := l } := by
  by_cases h : q = p
  · subst h
    exact ⟨_, State.part_modLaunch ..⟩
  · exact ⟨(s.part q).launch, State.part_modPart_ne _ _ _ _ h⟩

/-- So does the end of an entry whose DONE object it is. -/
theorem OverdueCheck.launch_finishEntry (h : OverdueCheck s t p o) {r : LinkRec} (hdone : (s.part p).objOf (r.dref % 2 ^ 16) = some o)
    (g : Program) (i : Nat) (code : BitVec 16) (flags : Nat) : ((s.finishEntry p g i r code flags).part p).launch = none := by
  unfold State.finishEntry
  extract_lets v
  have hstatus (w : State) : ∃ x, SiloWritten w x ∧ w.entryStatus p g.image i code flags = x := by
    unfold State.entryStatus
    split
    · exact ⟨_, SiloWritten.refl w, rfl⟩
    · exact ⟨_, SiloWritten.siloRecord .., rfl⟩
  obtain ⟨x, hx, hvx⟩ := hstatus v
  obtain ⟨_, _, _, _, hfields⟩ := hx
  rw [hvx]
  have hpart (q : Pid) : ∃ l, (x.touchEnd p).part q = { s.part q with launch := l } := by
    obtain ⟨l, hl⟩ := s.part_modLaunch_launch p q fun l =>
      { l with active := l.active.filter fun e => !decide (e.idx = i), inbox := l.inbox.filter fun a => !decide (a.entry = i) }
    have hxv : x.part q = v.part q := by rw [hfields]; rfl
    exact ⟨_, by rw [State.part_touchEnd, hxv, hl]⟩
  have hentry (q : Pid) : ((x.touchEnd p).part q).entry = (s.part q).entry := by
    obtain ⟨_, hq⟩ := hpart q
    rw [hq]
  have hlim (q : Pid) : ((x.touchEnd p).part q).waitLim = (s.part q).waitLim := by
    obtain ⟨_, hq⟩ := hpart q
    rw [hq]
  have hx : OverdueCheck (x.touchEnd p) t p o := h.congr (by rw [hfields]; rfl) (by rw [hfields]; rfl) (by rw [hfields]; rfl) hentry hlim
  have hobj : ((x.touchEnd p).part p).objOf (r.dref % 2 ^ 16) = some o := by rw [Part.objOf, hentry]; exact hdone
  rw [State.signalDone, hobj]
  exact hx.launch_applyOp ..

end

/-! ### Commands that end an entry (11 R276, R285) -/

section
variable {s : State} {t : TileId} {p : Pid} {o : Nat} {l : Launch} {g : Program} {e : LinkEntry} {r : LinkRec} {now : Nat}

/-- A PUT has no DST that its failure could spoil. -/
theorem State.spoilEntry_put (s : State) (p : Pid) (l : Launch) (g : Program) (e : LinkEntry) {r : LinkRec} (h : r.op = 1) :
    s.spoilEntry p l g e r = s := by
  have hdst : linkDst g.image r = none := by rw [linkDst, if_pos h]
  simp only [State.spoilEntry, State.spoilDst, hdst, ite_self]

/-- An abort frame of the target of a PUT, the one active entry. -/
theorem exec_abortFrame_put {src : ModId} {tag : Word} (hjob : (s.at_ now).partOfJob tag = some p) (hup : (s.at_ now).up = true)
    (hrun : (s.at_ now).running p = some (l, g)) (hactive : l.active = [e]) (hrec : linkRec g e.idx = some r) (hop : r.op = 1)
    (hinv : involves g r src = true) : ∃ flags, exec (.abortFrame src tag now) s =
      .next ((s.at_ now).finishEntry p g e.idx r eAborted flags) := by
  have hexec : exec (.abortFrame src tag now) s = execAbortFrame src tag now s := rfl
  rw [hexec, execAbortFrame]
  simp only [hjob, hup, if_true, State.failEntries, hrun, hactive, List.foldl_cons, List.foldl_nil, hrec, hinv, State.spoilEntry_put _ _ _ _ _ hop]
  exact ⟨_, rfl⟩

/-- A PUT whose transfers are acknowledged ends with OK. -/
theorem exec_linkEntryComplete_put (hquiet : ∀ q ∈ ((s.at_ now).part p).peers, q.early = []) (hlive : (s.at_ now).live p = some (l, g))
    (hfind : (l.active.find? fun y => decide (y.idx = e.idx)) = some e) (hrec : linkRec g e.idx = some r) (hop : r.op = 1) (hacked : e.unacked = [])
    (hphase : e.phase ≠ .awaitVerdict) : ∃ flags, exec (.linkEntryComplete p e.idx [] now) s =
      .next ((s.at_ now).finishEntry p g e.idx r cOk flags) := by
  have hexec : exec (.linkEntryComplete p e.idx [] now) s = execLinkEntryComplete p e.idx [] now s := rfl
  rw [hexec, execLinkEntryComplete]
  have hdst : linkDst g.image r = none := by rw [linkDst, if_pos hop]
  simp only [State.drainPart_of_no_early hquiet, hlive, hfind, hrec, hacked, hphase, hop, hdst, State.holdWrites, State.ackInputs,
    State.landEntry, List.isEmpty_nil, List.flatMap_nil, List.findSome?_nil, decide_true, decide_false, Bool.not_false, Bool.true_or,
    Bool.and_true, Bool.not_true, Bool.false_eq_true, if_true, if_false, Option.bind_none]
  exact ⟨_, rfl⟩

end

/-! ### The state of the counterexamples -/

/-- Entry 0, a PUT to module 9 with its transfers acknowledged, is active, and tile 0 checks a region at the entry's DONE object, a barrier,
past its limit of 0. -/
def checkingAtDone : State :=
  let s := (Tests.linking 1 [Tests.entry0 []]).setObj 0 (BitVec.ofNat 128 (2 ^ 126))
  let s := s.modCore 0 fun c => { c with status := .waiting, resume := some .rcheck }
  { s with sync := { s.sync with waits := [{ obj := 0, who := .tile 0, op := .arrive false, stamp := 0, issue := 0 }] } }.modPart 0 fun x =>
    { x with waitLim := 0 }

/-- Entry 0 of the test image. -/
def putEntry : LinkRec :=
  { op := 1, mode := 0, etype := 0, cvc := 0, group := 0, dln := 0, wcond := 0, resv := 0, tgt := 9, dval := 0, count := 8, src := 256,
    dst := 512, wref := 0, wval := 0, dref := 0, resv7 := 0 }

theorem linkRec_putEntry : linkRec Tests.linkJob 0 = some putEntry := by decide +kernel

theorem live_checkingAtDone : (checkingAtDone.at_ 0).live 0 = some (Tests.linkLaunch 1 [Tests.entry0 []], Tests.linkJob) := by decide +kernel

theorem overdueCheck_checkingAtDone : OverdueCheck (checkingAtDone.at_ 0) 0 0 0 :=
  ⟨by decide +kernel, by decide +kernel, .arrive false, 0, 0, by decide +kernel, by decide +kernel⟩

theorem launch_finishEntry_checkingAtDone (code : BitVec 16) (flags : Nat) :
    (((checkingAtDone.at_ 0).finishEntry 0 Tests.linkJob 0 putEntry code flags).part 0).launch = none :=
  overdueCheck_checkingAtDone.launch_finishEntry (by decide +kernel) ..

/-- The abort frame of module 9 ends the launch. -/
theorem exec_abortFrame_checkingAtDone : ∃ u, exec (.abortFrame 9 7 0) checkingAtDone = .next u ∧ (u.part 0).launch = none := by
  obtain ⟨flags, hexec⟩ := exec_abortFrame_put (s := checkingAtDone) (p := 0) (now := 0) (src := 9) (tag := 7) (e := Tests.entry0 [])
    (r := putEntry) (by decide +kernel) (by decide +kernel) (State.running_of_live live_checkingAtDone) rfl linkRec_putEntry rfl (by decide +kernel)
  exact ⟨_, hexec, launch_finishEntry_checkingAtDone ..⟩

/-- The end of the entry with OK ends the launch. -/
theorem exec_linkEntryComplete_checkingAtDone :
    ∃ u, exec (.linkEntryComplete 0 0 [] 0) checkingAtDone = .next u ∧ (u.part 0).launch = none := by
  obtain ⟨flags, hexec⟩ := exec_linkEntryComplete_put (s := checkingAtDone) (p := 0) (now := 0) (e := Tests.entry0 []) (r := putEntry)
    (by decide +kernel) live_checkingAtDone (by decide +kernel) linkRec_putEntry rfl rfl (by decide)
  exact ⟨_, hexec, launch_finishEntry_checkingAtDone ..⟩

/-- Refutes O43: the last clause, of an abort frame. The end of an entry signals its DONE object, where a region check that is past its
limit ends with a core fault, so that the launch is gone and no entry of it is left to compare. -/
theorem not_peersAndKeys : ¬ Obligations.PeersAndKeys := by
  unfold Obligations.PeersAndKeys
  intro h
  obtain ⟨-, -, -, -, -, -, -, -, -, -, -, -, -, habort⟩ := h checkingAtDone 0 9 0
  obtain ⟨u, hu, -, hactive, -⟩ := habort 7 _ _ (by decide +kernel) (by decide +kernel) (State.running_of_live live_checkingAtDone)
  obtain ⟨w, hw, hnone⟩ := exec_abortFrame_checkingAtDone
  rw [Host.Outcome.next.inj (hu.symm.trans hw), hnone] at hactive
  cases hactive

/-- Refutes O44: the clause of LINK_ENTRY_COMPLETE for a PUT. The entry's end signals its DONE object, where a region check that is past its
limit ends with a core fault, so that the launch is gone and no entry of it is left to compare. -/
theorem not_linkWorkList : ¬ Obligations.LinkWorkList := by
  unfold Obligations.LinkWorkList
  rintro ⟨-, h⟩
  obtain ⟨hstart, -⟩ := h checkingAtDone 0 0 _ _ live_checkingAtDone
  obtain ⟨-, -, -, -, hcomplete⟩ := hstart (by decide +kernel)
  obtain ⟨-, hput, -⟩ := hcomplete 0 putEntry (Tests.entry0 []) [] linkRec_putEntry (by decide +kernel)
  obtain ⟨u, hu, hactive, -⟩ := hput rfl rfl rfl rfl
  obtain ⟨w, hw, hnone⟩ := exec_linkEntryComplete_checkingAtDone
  rw [Host.Outcome.next.inj (hu.symm.trans hw), hnone] at hactive
  cases hactive

end Sys2Proof.Machine
end

