-- ==== Sys2Proof/Proofs/Training.lean ====
section
/-!
PROOFS. Halves that train or go DOWN: the state each is left in, and what of the other halves, of the lanes and of the module stays (11 R260,
R263, R269, R284).
-/
namespace Sys2Proof.Machine

open Sys2Proof.Claims

/-! ### Ports but for some halves -/

/-- u keeps the link registers, the lanes and the reference clock of s, and every half but those of a list, save for what is on its way. -/
structure PortsKept (hs : List HalfId) (s u : State) : Prop where
  links : ∃ h q, u.links = { s.links with half := h, txq := q }
  half : ∀ k, k ∉ hs → ∃ o w r, u.half k = { s.half k with out := o, owed := w, replay := r }
  lnkClk : u.pins.lnkClk = s.pins.lnkClk
  fenced : u.bind.fenced = s.bind.fenced
  gt : u.time.gt = s.time.gt

theorem Steady.portsKept {s u : State} (a : Steady s u) (hs : List HalfId) : PortsKept hs s u :=
  ⟨a.links, fun k _ => a.half k, a.lnkClk, a.fenced, a.gt⟩

namespace PortsKept

section
variable {s t u : State} {hs : List HalfId} {h k : HalfId}

theorem refl (s : State) (hs : List HalfId) : PortsKept hs s s := (Steady.refl s).portsKept hs

theorem trans {ks : List HalfId} (a : PortsKept hs s t) (b : PortsKept ks t u) (hsub : ks ⊆ hs) : PortsKept hs s u := by
  refine ⟨?_, fun k hk => ?_, b.lnkClk.trans a.lnkClk, b.fenced.trans a.fenced, b.gt.trans a.gt⟩
  · obtain ⟨_, _, ha⟩ := a.links
    obtain ⟨_, _, hb⟩ := b.links
    exact ⟨_, _, by rw [hb, ha]⟩
  · obtain ⟨_, _, _, ha⟩ := a.half k hk
    obtain ⟨_, _, _, hb⟩ := b.half k fun hin => hk (hsub hin)
    exact ⟨_, _, _, by rw [hb, ha]⟩

/-- A step that keeps the ports follows. -/
theorem steady (a : PortsKept hs s t) (b : Steady t u) : PortsKept hs s u := a.trans (b.portsKept hs) (List.Subset.refl hs)

theorem setHalf (s : State) {h : HalfId} (hh : h ∈ hs) (f : HalfPort → HalfPort) : PortsKept hs s (s.setHalf h f) :=
  ⟨⟨_, _, rfl⟩, fun k hk => ⟨_, _, _, State.half_setHalf_ne s (by rintro rfl; exact hk hh) f⟩, rfl, rfl, rfl⟩

theorem modPeer (s : State) (p : Pid) (m : ModId) (f : Peer → Peer) : PortsKept hs s (s.modPeer p m f) :=
  ⟨⟨_, _, rfl⟩, fun _ _ => ⟨_, _, _, rfl⟩, rfl, rfl, rfl⟩

/-! ### What stays -/

theorem state_eq (a : PortsKept hs s u) (hk : k ∉ hs) : (u.half k).state = (s.half k).state := by
  obtain ⟨_, _, _, hu⟩ := a.half k hk
  rw [hu]

theorem cfg_eq (a : PortsKept hs s u) : u.links.cfg = s.links.cfg := by
  obtain ⟨_, _, hu⟩ := a.links
  rw [hu]

theorem lanes_eq (a : PortsKept hs s u) : u.links.lanes = s.links.lanes := by
  obtain ⟨_, _, hu⟩ := a.links
  rw [hu]

theorem laneRet_eq (a : PortsKept hs s u) : u.links.laneRet = s.links.laneRet := by
  obtain ⟨_, _, hu⟩ := a.links
  rw [hu]

theorem modId_eq (a : PortsKept hs s u) : u.links.modId = s.links.modId := by
  obtain ⟨_, _, hu⟩ := a.links
  rw [hu]

theorem pfx_eq (a : PortsKept hs s u) : u.links.pfx = s.links.pfx := by
  obtain ⟨_, _, hu⟩ := a.links
  rw [hu]

theorem cfgOf_eq (a : PortsKept hs s u) (h : HalfId) : u.cfgOf h = s.cfgOf h := by rw [State.cfgOf, a.cfg_eq, State.cfgOf]

theorem mayTrain_eq (a : PortsKept hs s u) (h : HalfId) : u.mayTrain h = s.mayTrain h := by
  simp only [State.mayTrain, State.halfThere, State.fenced, a.cfgOf_eq, a.lnkClk, a.fenced]

end

/-! ### Lost peers and halves without traffic (11 R270, R284) -/

theorem losePeer (s : State) (p : Pid) (m : ModId) (cause : Nat) (hs : List HalfId) : PortsKept hs s (s.losePeer p m cause) := by
  unfold State.losePeer
  split
  · exact refl s hs
  · have hlost := ((Steady.ensurePeer s p m).portsKept hs).trans (modPeer _ p m fun q =>
      { q with lost := some ePeerLost, suspended := none, rekey := false, early := [] }) (List.Subset.refl hs)
    exact ((hlost.steady (Steady.endPeer ..)).steady (Steady.raiseBoth ..)).steady (Steady.linkRotated ..)

theorem halfLost (s : State) (h : HalfId) (m : ModId) (hs : List HalfId) : PortsKept hs s (s.halfLost h m) := by
  unfold State.halfLost
  split
  · exact refl s hs
  · refine List.foldlRecOn _ _ (motive := PortsKept hs s) (refl s hs) fun t ht p _ => ?_
    dsimp only
    split
    · exact ht.trans (losePeer ..) (List.Subset.refl hs)
    · exact ht

theorem dropHalf (s : State) (h : HalfId) (st : PortState) : PortsKept [h] s (s.dropHalf h st) := by
  have hstop : PortsKept [h] s (s.setHalf h fun x => x.stop st) := setHalf s (List.mem_singleton_self h) _
  unfold State.dropHalf
  dsimp only
  split
  · exact hstop.trans (halfLost _ _ _ []) (List.nil_subset _)
  · exact hstop

theorem failHalf (s : State) (h : HalfId) : PortsKept [h] s (s.failHalf h) := (dropHalf s h .failed).steady (Steady.raisePf0 ..)

end PortsKept

section
variable {s : State} {h : HalfId} {st : PortState}

/-- The half itself stops. -/
theorem State.half_dropHalf (s : State) (h : HalfId) (st : PortState) :
    ((s.dropHalf h st).half h).state = st ∧ ((s.dropHalf h st).half h).lanes = 0 := by
  have hstop : (s.setHalf h fun x => x.stop st).half h = (s.half h).stop st := State.half_setHalf ..
  unfold State.dropHalf
  dsimp only
  split
  · obtain ⟨_, _, _, hu⟩ := (PortsKept.halfLost (s.setHalf h fun x => x.stop st) h (s.half h).peer []).half h List.not_mem_nil
    rw [hu, hstop]
    exact ⟨rfl, rfl⟩
  · rw [hstop]
    exact ⟨rfl, rfl⟩

/-- A half that carried no traffic stops, and nothing else changes. -/
theorem State.dropHalf_of_idle (hidle : (s.half h).state ≠ .up ∧ (s.half h).state ≠ .retrain) (st : PortState) :
    s.dropHalf h st = s.setHalf h fun x => x.stop st := if_neg (not_or.2 hidle)

/-- Without a bound partition no peer is lost. -/
theorem State.halfLost_of_unbound (hfree : ∀ q, (s.part q).entry.st ≠ .bound) (h : HalfId) (m : ModId) : s.halfLost h m = s := by
  unfold State.halfLost
  split
  · rfl
  · refine List.foldlRecOn _ _ (motive := fun t => t = s) rfl fun t ht p _ => ?_
    subst ht
    simp [hfree p]

theorem State.dropHalf_of_unbound (hfree : ∀ q, (s.part q).entry.st ≠ .bound) (h : HalfId) (st : PortState) :
    s.dropHalf h st = s.setHalf h fun x => x.stop st := by
  have hlost := State.halfLost_of_unbound (s := s.setHalf h fun x => x.stop st) hfree h (s.half h).peer
  unfold State.dropHalf
  dsimp only
  split
  · exact hlost
  · rfl

end

/-! ### The start of a training (11 R262, R269) -/

theorem Steady.portSend (s : State) (h : HalfId) (m : Message) : Steady s (s.portSend h m) :=
  Steady.ite ((Steady.setHalf s h _ ⟨_, _, _, rfl⟩).trans (Steady.emit ..)) (Steady.refl s)

theorem Steady.sendNotices (s : State) (h : HalfId) : Steady s (s.sendNotices h) :=
  Steady.ite (Steady.refl s) (Steady.foldl (fun _ _ => Steady.portSend ..) _ s)

theorem Steady.markAll (s : State) (k : FlagKind) : Steady s (s.markAll k) := Steady.markWhere ..

theorem PortsKept.noteRetrain (s : State) (h : HalfId) : PortsKept [h] s (s.noteRetrain h) :=
  (PortsKept.setHalf s (List.mem_singleton_self h) _).steady (Steady.markAll ..)

theorem PortsKept.trainHalf (s : State) (h : HalfId) : PortsKept [h] s (s.trainHalf h) := by
  have hset (t : State) (f : HalfPort → HalfPort) : PortsKept [h] t (t.setHalf h f) := PortsKept.setHalf t (List.mem_singleton_self h) f
  unfold State.trainHalf
  split
  · split
    · exact PortsKept.refl s _
    · exact PortsKept.dropHalf s h .down
  · split
    · exact (((Steady.sendNotices s h).portsKept [h]).trans (hset _ _) (List.Subset.refl _)).trans (PortsKept.noteRetrain _ h) (List.Subset.refl _)
    · exact hset s _

/-- The state a half is in after its training was to start. -/
def State.afterTrain (s : State) (h : HalfId) : PortState := if s.mayTrain h then trained (s.half h).state else .down

theorem State.links_markAll (s : State) (k : FlagKind) : (s.markAll k).links = s.links := by
  rw [State.markAll, (FlagsMarked.markWhere ..).frame]

theorem State.half_markAll (s : State) (k : FlagKind) (h : HalfId) : (s.markAll k).half h = s.half h := by
  rw [State.half, State.links_markAll, State.half]

theorem State.half_noteRetrain (s : State) (h : HalfId) :
    (s.noteRetrain h).half h = { s.half h with rtcnt := min ((s.half h).rtcnt + 1) 0xFFFF } := by
  rw [State.noteRetrain, State.half_markAll, State.half_setHalf]

theorem State.half_noteRetrain_ne (s : State) {h k : HalfId} (hk : k ≠ h) : (s.noteRetrain h).half k = s.half k := by
  rw [State.noteRetrain, State.half_markAll, State.half_setHalf_ne _ hk]

theorem State.state_trainHalf (s : State) (h : HalfId) : ((s.trainHalf h).half h).state = s.afterTrain h := by
  unfold State.trainHalf State.afterTrain
  cases hm : s.mayTrain h with
  | false =>
    simp only [Bool.not_false, if_true, Bool.false_eq_true, if_false]
    split
    · assumption
    · exact (State.half_dropHalf ..).1
  | true =>
    simp only [Bool.not_true, Bool.false_eq_true, if_false, if_true]
    split
    · next hup =>
      rw [State.half_noteRetrain, State.half_setHalf, trained, if_pos (Or.inl hup)]
    · next hup =>
      rw [State.half_setHalf, trained]
      simp only [hup, false_or]

/-- Halves that train one after the other. -/
theorem PortsKept.trainHalves (hs : List HalfId) (s : State) : PortsKept hs s (hs.foldl State.trainHalf s) := by
  induction hs generalizing s with
  | nil => exact PortsKept.refl s _
  | cons h hs ih =>
    have hfirst : PortsKept (h :: hs) s (s.trainHalf h) :=
      (PortsKept.refl s (h :: hs)).trans (PortsKept.trainHalf s h) (by simp)
    exact hfirst.trans (ih _) (List.subset_cons_self _ _)

theorem State.state_trainHalves {hs : List HalfId} (hnodup : hs.Nodup) {h : HalfId} (hh : h ∈ hs) (s : State) :
    ((hs.foldl State.trainHalf s).half h).state = s.afterTrain h := by
  induction hs generalizing s with
  | nil => cases hh
  | cons k hs ih =>
    obtain ⟨hk, hnodup⟩ := List.nodup_cons.1 hnodup
    rw [List.foldl_cons]
    cases hh with
    | head => rw [(PortsKept.trainHalves hs _).state_eq hk, State.state_trainHalf]
    | tail _ hh =>
      have hne : h ≠ k := fun heq => hk (heq ▸ hh)
      rw [ih hnodup hh, State.afterTrain, (PortsKept.trainHalf s k).mayTrain_eq, (PortsKept.trainHalf s k).state_eq (by simpa using hne),
        State.afterTrain]

/-! ### What training leaves of the module (11 R269, R284) -/

/-- u differs from s in messages, links and partitions alone, and every binding is as in s. -/
structure Trained (s u : State) : Prop where
  sent : Sent s u
  entry : ∀ q, (u.part q).entry = (s.part q).entry

namespace Trained

theorem refl (s : State) : Trained s s := ⟨Sent.refl s, fun _ => rfl⟩

theorem trans {s t u : State} (a : Trained s t) (b : Trained t u) : Trained s u :=
  ⟨a.sent.trans b.sent, fun q => (b.entry q).trans (a.entry q)⟩

theorem setHalf (s : State) (h : HalfId) (f : HalfPort → HalfPort) : Trained s (s.setHalf h f) := ⟨rfl, fun _ => rfl⟩

theorem mem {s u : State} (a : Trained s u) : u.mem = s.mem := by rw [a.sent]

theorem tiles {s u : State} (a : Trained s u) : u.tiles = s.tiles := by rw [a.sent]

theorem engines {s u : State} (a : Trained s u) : u.engines = s.engines := by rw [a.sent]

theorem portSend (s : State) (h : HalfId) (m : Message) : Trained s (s.portSend h m) := by
  unfold State.portSend
  split
  · exact ⟨rfl, fun _ => rfl⟩
  · exact refl s

theorem sendNotices (s : State) (h : HalfId) : Trained s (s.sendNotices h) := by
  unfold State.sendNotices
  dsimp only
  split
  · exact refl s
  · exact List.foldlRecOn _ _ (motive := Trained s) (refl s) fun t ht o _ => ht.trans (portSend t o _)

theorem of_flagsMarked {s u : State} (a : FlagsMarked s u) : Trained s u := ⟨by rw [Sent, a.frame], a.entry⟩

theorem markAll (s : State) (k : FlagKind) : Trained s (s.markAll k) := of_flagsMarked (FlagsMarked.markWhere ..)

theorem noteRetrain (s : State) (h : HalfId) : Trained s (s.noteRetrain h) := (setHalf s h _).trans (markAll _ .tmg)

/-- No peer is lost when the half starts to train, or carried no traffic, or no partition is bound. -/
theorem trainHalf {s : State} {h : HalfId} (hq : s.mayTrain h = true ∨ ((s.half h).state ≠ .up ∧ (s.half h).state ≠ .retrain) ∨
    ∀ q, (s.part q).entry.st ≠ .bound) : Trained s (s.trainHalf h) := by
  unfold State.trainHalf
  split
  · next hmay =>
    split
    · exact refl s
    · rcases hq with hq | hidle | hfree
      · rw [hq] at hmay
        cases hmay
      · rw [State.dropHalf_of_idle hidle]
        exact setHalf s h _
      · rw [State.dropHalf_of_unbound hfree]
        exact setHalf s h _
  · split
    · exact ((sendNotices s h).trans (setHalf _ h _)).trans (noteRetrain _ h)
    · exact setHalf s h _

theorem trainHalves {hs : List HalfId} (hnodup : hs.Nodup) {s : State} (hq : (∀ h ∈ hs, s.mayTrain h = true ∨
    ((s.half h).state ≠ .up ∧ (s.half h).state ≠ .retrain)) ∨ ∀ q, (s.part q).entry.st ≠ .bound) : Trained s (hs.foldl State.trainHalf s) := by
  induction hs generalizing s with
  | nil => exact refl s
  | cons k hs ih =>
    obtain ⟨hk, hnodup⟩ := List.nodup_cons.1 hnodup
    have hfirst : Trained s (s.trainHalf k) := trainHalf <| hq.elim (fun hq => (hq k (List.mem_cons_self ..)).imp_right .inl) fun hfree => .inr (.inr hfree)
    refine hfirst.trans (ih hnodup (hq.imp (fun hq h hh => ?_) fun hfree q => ?_))
    · have hne : h ∉ [k] := fun hin => hk (List.mem_singleton.1 hin ▸ hh)
      rw [(PortsKept.trainHalf s k).mayTrain_eq, (PortsKept.trainHalf s k).state_eq hne]
      exact hq h (List.mem_cons_of_mem _ hh)
    · rw [hfirst.entry]
      exact hfree q

end Trained

/-! ### Ports (11 R262) -/

/-- The halves of the ports that a test of their configuration admits. -/
def State.halvesWhere (s : State) (which : PortCfg → Bool) : List HalfId :=
  ((List.finRange 8).filter fun p => which (s.links.cfg[p])).flatMap halvesOf

theorem nodup_halvesWhere (s : State) (which : PortCfg → Bool) : (s.halvesWhere which).Nodup := by
  have hall : ((List.finRange 8).flatMap halvesOf).Nodup := by decide
  exact hall.sublist (List.filter_sublist.flatMap _)

theorem mem_halvesWhere {s : State} {which : PortCfg → Bool} {h : HalfId} : h ∈ s.halvesWhere which ↔ which (s.cfgOf h) = true := by
  have hof (p : PortId) : h ∈ halvesOf p ↔ p = portOf h := by
    simp only [halvesOf, List.mem_cons, List.not_mem_nil, or_false, portOf, Fin.ext_iff]
    omega
  simp [State.halvesWhere, hof, State.cfgOf]

theorem State.trainPorts_eq (s : State) (which : PortCfg → Bool) : s.trainPorts which = (s.halvesWhere which).foldl State.trainHalf s := by
  have hgen (ps : List PortId) (t : State) (ht : t.links.cfg = s.links.cfg) :
      ps.foldl (fun s p => if which (s.links.cfg[p]) then s.trainPort p else s) t =
        ((ps.filter fun p => which (s.links.cfg[p])).flatMap halvesOf).foldl State.trainHalf t := by
    induction ps generalizing t with
    | nil => rfl
    | cons p ps ih =>
      rw [List.foldl_cons, List.filter_cons, ht]
      split
      · have hcfg : (t.trainPort p).links.cfg = s.links.cfg := (PortsKept.trainHalves _ _).cfg_eq.trans ht
        rw [ih _ hcfg, List.flatMap_cons, List.foldl_append]
        rfl
      · exact ih _ ht
  exact hgen _ s rfl

end Sys2Proof.Machine
end

