-- ==== Sys2Proof/Proofs/LinkRegisters.lean ====
section
/-!
PROOFS. Link registers and the link reference clock: what a write leaves and which ports it retrains (11 R261, R262, R270; 20 R453; 21 R470).
-/
namespace Sys2Proof.Machine

open Sys2Proof.Claims

section
variable {s : State} {p : PortId} {v : Half}

/-! ### Port configurations (11 R262) -/

theorem writePortCfg_refused (h : (portCfgOf v).epmd = 3) : s.writePortCfg p v = s := if_pos h

theorem writePortCfg_same (hold : s.links.cfg[p] = portCfgOf v) (hv : bit v 0 = false) : s.writePortCfg p v = s := by
  have hset : s.links.cfg.set p (portCfgOf v) = s.links.cfg := by rw [← hold]; exact Vector.set_getElem_self ..
  simp [State.writePortCfg, hold, hv, hset]

/-- The ports with a new configuration of one. -/
def State.configured (s : State) (p : PortId) (c : PortCfg) : State := { s with links := { s.links with cfg := s.links.cfg.set p c } }

theorem writePortCfg_trains (hepmd : (portCfgOf v).epmd ≠ 3) (h : s.links.cfg[p] ≠ portCfgOf v ∨ bit v 0 = true) :
    s.writePortCfg p v = ((s.configured p (portCfgOf v)).joinHalves p).trainPort p := by
  have hgo : (decide (s.links.cfg[p] ≠ portCfgOf v) || bit v 0) = true := by simpa using h
  unfold State.writePortCfg
  rw [if_neg hepmd]
  exact if_pos hgo

/-- The fields that a word of the register asks for. -/
theorem portCfgOf_eq (v : Half) : portCfgOf v =
    { maxw := BitVec.ofNat 2 (v.toNat / 256), split := bit v 7, eth := bit v 6, epmd := BitVec.ofNat 2 (v.toNat / 16), an := bit v 3,
      pfc := bit v 2, en := bit v 1 } := by
  rw [portCfgOf, ofNat_bits v 9 8 2 rfl, ofNat_bits v 5 4 2 rfl]
  rfl

/-- RETRAIN beside the fields that a port has: the same fields. -/
theorem portCfgOf_word (c : PortCfg) : portCfgOf (BitVec.ofNat 32 (c.word + 1)) = c ∧ bit (BitVec.ofNat 32 (c.word + 1)) 0 = true := by
  obtain ⟨maxw, split, eth, epmd, an, pfc, en⟩ := c
  revert maxw split eth epmd an pfc en
  decide +kernel

/-- The two halves of a port. -/
def half0 (p : PortId) : HalfId := ⟨2 * p.val, by omega⟩
def half1 (p : PortId) : HalfId := ⟨2 * p.val + 1, by omega⟩

@[simp] theorem portOf_half0 (p : PortId) : portOf (half0 p) = p := by simp [portOf, half0]

@[simp] theorem portOf_half1 (p : PortId) : portOf (half1 p) = p := by
  apply Fin.ext
  show (2 * p.val + 1) / 2 = p.val
  omega

theorem half0_ne_half1 (p : PortId) : half0 p ≠ half1 p := by simp [half0, half1]

theorem nodup_halvesOf (p : PortId) : (halvesOf p).Nodup := by
  simp [halvesOf]

theorem State.cfg_configured (s : State) (p : PortId) (c : PortCfg) : (s.configured p c).links.cfg[p] = c := Vector.getElem_set_self ..

theorem State.cfgOf_configured {h : HalfId} (hp : portOf h = p) (c : PortCfg) : (s.configured p c).cfgOf h = c := by
  subst hp
  exact State.cfg_configured ..

theorem State.mayTrain_half0 (s : State) (p : PortId) (c : PortCfg) :
    (s.configured p c).mayTrain (half0 p) = (c.en && s.pins.lnkClk && !s.fenced .port (half0 p).val) := by
  have heven : (half0 p).val % 2 = 0 := Nat.mul_mod_right ..
  rw [State.mayTrain, State.halfThere, State.cfgOf_configured (portOf_half0 p), heven]
  rfl

theorem State.mayTrain_half1 (s : State) (p : PortId) (c : PortCfg) :
    (s.configured p c).mayTrain (half1 p) = (c.split && c.en && s.pins.lnkClk && !s.fenced .port (half1 p).val) := by
  have hodd : (half1 p).val % 2 ≠ 0 := by simp [half1]
  rw [State.mayTrain, State.halfThere, State.cfgOf_configured (portOf_half1 p), decide_eq_false hodd]
  rfl

/-- The second half of a port that is not split goes DOWN, before the port trains. -/
theorem State.joinHalves_cases (s : State) (p : PortId) :
    ((s.links.cfg[p]).split = true ∧ s.joinHalves p = s) ∨ ((s.links.cfg[p]).split = false ∧ s.joinHalves p = s.dropHalf (half1 p) .down) := by
  cases h : (s.links.cfg[p]).split with
  | true => exact .inl ⟨rfl, if_pos h⟩
  | false => exact .inr ⟨rfl, if_neg (ne_true_of_eq_false h)⟩

theorem PortsKept.joinHalves (s : State) (p : PortId) : PortsKept [half1 p] s (s.joinHalves p) := by
  rcases s.joinHalves_cases p with ⟨-, h⟩ | ⟨-, h⟩
  · rw [h]
    exact PortsKept.refl s _
  · rw [h]
    exact PortsKept.dropHalf s _ .down

/-- A port that is configured and trains. -/
def State.reconfigured (s : State) (p : PortId) (c : PortCfg) : State := ((s.configured p c).joinHalves p).trainPort p

theorem PortsKept.reconfigured (s : State) (p : PortId) (c : PortCfg) : PortsKept (halvesOf p) (s.configured p c) (s.reconfigured p c) :=
  ((PortsKept.refl _ (halvesOf p)).trans (PortsKept.joinHalves _ p) (by simp [halvesOf, half1])).trans (PortsKept.trainHalves ..) (List.Subset.refl _)

theorem State.state_reconfigured_half0 (s : State) (p : PortId) (c : PortCfg) : ((s.reconfigured p c).half (half0 p)).state =
    if c.en && s.pins.lnkClk && !s.fenced .port (half0 p).val then trained (s.half (half0 p)).state else .down := by
  have hmem : half0 p ∈ halvesOf p := List.mem_cons_self ..
  have hne : half0 p ∉ [half1 p] := by simpa using half0_ne_half1 p
  have hkept := PortsKept.joinHalves (s.configured p c) p
  have hstate := State.state_trainHalves (nodup_halvesOf p) hmem ((s.configured p c).joinHalves p)
  rw [State.afterTrain, hkept.mayTrain_eq, hkept.state_eq hne, State.mayTrain_half0] at hstate
  exact hstate

theorem State.state_reconfigured_half1 (s : State) (p : PortId) (c : PortCfg) : ((s.reconfigured p c).half (half1 p)).state =
    if c.split && c.en && s.pins.lnkClk && !s.fenced .port (half1 p).val then trained (s.half (half1 p)).state else .down := by
  have hmem : half1 p ∈ halvesOf p := by simp [halvesOf, half1]
  have hkept := PortsKept.joinHalves (s.configured p c) p
  have hstate := State.state_trainHalves (nodup_halvesOf p) hmem ((s.configured p c).joinHalves p)
  rw [State.afterTrain, hkept.mayTrain_eq, State.mayTrain_half1] at hstate
  refine hstate.trans ?_
  rcases (s.configured p c).joinHalves_cases p with ⟨-, hjoin⟩ | ⟨hsplit, -⟩
  · rw [hjoin]
    rfl
  · rw [State.cfg_configured] at hsplit
    simp [hsplit]

/-- No peer is lost while both halves may train, or the second carried no traffic. -/
theorem Trained.reconfigured {c : PortCfg} (hen : c.en = true) (hclk : s.pins.lnkClk = true) (hfence : ∀ i : Fin 16, s.fenced .port i.val = false)
    (hquiet : c.split = true ∨ (s.half (half1 p)).state = .down) : Trained (s.configured p c) (s.reconfigured p c) := by
  have hmay0 : (s.configured p c).mayTrain (half0 p) = true := by simp [State.mayTrain_half0, hen, hclk, hfence (half0 p)]
  have hkept := PortsKept.joinHalves (s.configured p c) p
  have hhalves (q : HalfId → Prop) (h0 : q (half0 p)) (h1 : q (half1 p)) : ∀ h ∈ halvesOf p, q h := by
    intro h hh
    rcases List.mem_pair.1 hh with rfl | rfl
    · exact h0
    · exact h1
  rcases (s.configured p c).joinHalves_cases p with ⟨hsplit, hjoin⟩ | ⟨hsplit, hjoin⟩ <;> rw [State.cfg_configured] at hsplit
  · have hmay1 : (s.configured p c).mayTrain (half1 p) = true := by simp [State.mayTrain_half1, hsplit, hen, hclk, hfence (half1 p)]
    rw [State.reconfigured, hjoin]
    exact Trained.trainHalves (nodup_halvesOf p) (.inl (hhalves _ (.inl hmay0) (.inl hmay1)))
  · have hdown : (s.half (half1 p)).state = .down := hquiet.resolve_left (ne_true_of_eq_false hsplit)
    have hidle : ((s.configured p c).half (half1 p)).state ≠ .up ∧ ((s.configured p c).half (half1 p)).state ≠ .retrain := by
      show (s.half (half1 p)).state ≠ .up ∧ (s.half (half1 p)).state ≠ .retrain
      rw [hdown]
      exact ⟨nofun, nofun⟩
    have hstopped : (((s.configured p c).joinHalves p).half (half1 p)).state = .down := by
      rw [hjoin]
      exact (State.half_dropHalf ..).1
    have hjoined : Trained (s.configured p c) ((s.configured p c).joinHalves p) := by
      rw [hjoin, State.dropHalf_of_idle hidle]
      exact Trained.setHalf ..
    refine hjoined.trans (Trained.trainHalves (nodup_halvesOf p) (.inl (hhalves _ (.inl ?_) (.inr ?_))))
    · rw [hkept.mayTrain_eq, hmay0]
    · rw [hstopped]
      exact ⟨nofun, nofun⟩

end

/-! ### Ports that a register retrains (11 R261, R262; 21 R470) -/

section
variable {s : State} {which : PortCfg → Bool}

theorem PortsKept.trainPorts (s : State) (which : PortCfg → Bool) : PortsKept (s.halvesWhere which) s (s.trainPorts which) := by
  rw [State.trainPorts_eq]
  exact PortsKept.trainHalves ..

theorem State.state_trainPorts {h : HalfId} (hwhich : which (s.cfgOf h) = true) : ((s.trainPorts which).half h).state = s.afterTrain h := by
  rw [State.trainPorts_eq]
  exact State.state_trainHalves (nodup_halvesWhere s which) (mem_halvesWhere.2 hwhich) s

theorem Trained.trainPorts (hq : (∀ h, which (s.cfgOf h) = true → s.mayTrain h = true ∨ ((s.half h).state ≠ .up ∧ (s.half h).state ≠ .retrain)) ∨
    ∀ q, (s.part q).entry.st ≠ .bound) : Trained s (s.trainPorts which) := by
  rw [State.trainPorts_eq]
  exact Trained.trainHalves (nodup_halvesWhere s which) (hq.imp_left fun hq h hh => hq h (mem_halvesWhere.1 hh))

theorem State.en_of_mayTrain {h : HalfId} (hmay : s.mayTrain h = true) : (s.cfgOf h).en = true := by
  simp only [State.mayTrain, Bool.and_eq_true] at hmay
  exact hmay.1.1.2

theorem State.afterTrain_of_mayTrain {h : HalfId} (hmay : s.mayTrain h = true) : s.afterTrain h = trained (s.half h).state := if_pos hmay

end

/-! ### LNK_MOD_ID (11 R261) -/

section
variable {s : State} {v : Half}

theorem writeModId_refused (h : (∃ q, (s.part q).entry.st = .bound) ∨ (0x1FFF < v.toNat % 65536 ∧ v.toNat % 65536 ≠ 65535)) :
    s.writeModId v = s := by
  unfold State.writeModId
  rw [bits_low16]
  refine if_pos ?_
  rw [Bool.or_eq_true]
  rcases h with ⟨q, hq⟩ | ⟨hbig, hnone⟩
  · exact .inl (List.any_eq_true.2 ⟨q, List.mem_finRange q, decide_eq_true hq⟩)
  · right
    simp only [Bool.not_eq_true', Bool.or_eq_false_iff, decide_eq_false_iff_not]
    omega

/-- The module with an ID. -/
def State.identified (s : State) (m : ModId) : State := { s with links := { s.links with modId := m } }

theorem writeModId_taken (hfree : ∀ q, (s.part q).entry.st ≠ .bound) (h : v.toNat % 65536 ≤ 0x1FFF ∨ v.toNat % 65536 = 65535) :
    s.writeModId v = (s.identified (BitVec.ofNat 16 v.toNat)).trainPorts (·.en) := by
  have hid : BitVec.ofNat 16 (v.toNat % 65536) = BitVec.ofNat 16 v.toNat := BitVec.eq_of_toNat_eq (by simp)
  unfold State.writeModId
  simp only [bits_low16, hid]
  refine if_neg ?_
  rw [Bool.or_eq_true, not_or]
  constructor
  · intro hany
    obtain ⟨q, -, hq⟩ := List.any_eq_true.1 hany
    exact hfree q (of_decide_eq_true hq)
  · simp only [Bool.not_eq_true', Bool.or_eq_false_iff, decide_eq_false_iff_not]
    omega

end

/-! ### LNK_LANE_RET (11 R270) -/

/-- u differs from s in the lanes alone. -/
def LanesSet (s u : State) : Prop := u = { s with links := { s.links with lanes := u.links.lanes } }

theorem LanesSet.trans {s t u : State} (a : LanesSet s t) (b : LanesSet t u) : LanesSet s u := by
  rw [LanesSet, b, a]

theorem State.lanes_modLane (s : State) (l k : Fin 64) (f : Lane → Lane) :
    (s.modLane k f).links.lanes[l] = if l = k then f s.links.lanes[l] else s.links.lanes[l] := by
  refine (getElem_set_fin ..).trans (if_ctx_congr Iff.rfl (fun h => ?_) fun _ => rfl)
  rw [h]

/-- The lanes of a list that a test admits change, each once. -/
def State.modLanes (s : State) (ls : List (Fin 64)) (which : Fin 64 → Bool) (f : Lane → Lane) : State :=
  ls.foldl (fun s l => if which l then s.modLane l f else s) s

theorem LanesSet.modLanes (s : State) (ls : List (Fin 64)) (which : Fin 64 → Bool) (f : Lane → Lane) : LanesSet s (s.modLanes ls which f) := by
  refine List.foldlRecOn ls _ (motive := LanesSet s) rfl fun t ht l _ => ?_
  split
  · exact ht.trans rfl
  · exact ht

theorem State.lanes_modLanes {ls : List (Fin 64)} (hnodup : ls.Nodup) (s : State) (which : Fin 64 → Bool) (f : Lane → Lane) (l : Fin 64) :
    (s.modLanes ls which f).links.lanes[l] = if l ∈ ls ∧ which l = true then f s.links.lanes[l] else s.links.lanes[l] := by
  induction ls generalizing s with
  | nil => simp [State.modLanes]
  | cons k ls ih =>
    obtain ⟨hk, hnodup⟩ := List.nodup_cons.1 hnodup
    have hturn : (if which k then s.modLane k f else s).links.lanes[l] = if l = k ∧ which k = true then f s.links.lanes[l] else s.links.lanes[l] := by
      split
      · next hw => simp only [State.lanes_modLane, hw, and_true]
      · next hw => simp only [hw, Bool.false_eq_true, and_false, if_false]
    refine (ih hnodup _).trans ?_
    rw [hturn]
    by_cases hl : l = k
    · subst hl
      simp only [hk, false_and, if_false, true_and, List.mem_cons_self]
    · simp only [hl, false_and, if_false, List.mem_cons, false_or]

/-! ### The reference clock (21 R470) -/

/-- A half that is not DOWN yet goes DOWN. -/
def State.downHalf (s : State) (h : HalfId) : State := if (s.half h).state = .down then s else s.dropHalf h .down

theorem PortsKept.downHalf (s : State) (h : HalfId) : PortsKept [h] s (s.downHalf h) := by
  unfold State.downHalf
  split
  · exact PortsKept.refl s _
  · exact PortsKept.dropHalf s h .down

theorem State.state_downHalf (s : State) (h : HalfId) : ((s.downHalf h).half h).state = .down := by
  unfold State.downHalf
  split
  · assumption
  · exact (State.half_dropHalf ..).1

/-- Every half of a list goes DOWN. -/
def State.downHalves (s : State) (hs : List HalfId) : State := hs.foldl State.downHalf s

theorem PortsKept.downHalves (hs : List HalfId) (s : State) : PortsKept hs s (s.downHalves hs) :=
  List.foldlRecOn hs _ (motive := PortsKept hs s) (PortsKept.refl s hs) fun t ht h hh => ht.trans (PortsKept.downHalf t h) (by simpa using hh)

theorem State.state_downHalves {hs : List HalfId} {h : HalfId} {s : State} (hh : h ∈ hs ∨ (s.half h).state = .down) :
    ((s.downHalves hs).half h).state = .down := by
  induction hs generalizing s with
  | nil => exact hh.resolve_left List.not_mem_nil
  | cons k hs ih =>
    refine ih (or_iff_not_imp_left.2 fun hlater => ?_)
    by_cases heq : h = k
    · rw [heq]
      exact State.state_downHalf s k
    · rw [(PortsKept.downHalf s k).state_eq (by simpa using heq)]
      exact hh.resolve_left fun hin => (List.mem_cons.1 hin).elim heq hlater

/-- u differs from s in the links alone. -/
def LinksSet (s u : State) : Prop := u = { s with links := u.links }

theorem LinksSet.trans {s t u : State} (a : LinksSet s t) (b : LinksSet t u) : LinksSet s u := by
  rw [LinksSet, b, a]

/-- Halves without traffic go DOWN, and nothing but the links changes. -/
theorem State.downHalves_of_idle (hs : List HalfId) {s : State} (hidle : ∀ h, (s.half h).state ≠ .up ∧ (s.half h).state ≠ .retrain) :
    LinksSet s (s.downHalves hs) := by
  induction hs generalizing s with
  | nil => rfl
  | cons k hs ih =>
    have hstep : LinksSet s (s.downHalf k) := by
      unfold State.downHalf
      split
      · rfl
      · rw [State.dropHalf_of_idle (hidle k)]
        rfl
    have hlater (h : HalfId) : ((s.downHalf k).half h).state ≠ .up ∧ ((s.downHalf k).half h).state ≠ .retrain := by
      by_cases heq : h = k
      · rw [heq, State.state_downHalf]
        exact ⟨nofun, nofun⟩
      · rw [(PortsKept.downHalf s k).state_eq (by simpa using heq)]
        exact hidle h
    exact hstep.trans (ih hlater)

/-! ### Link registers (O41) -/

/-- A word of LNK_PORT_CFGp that is taken configures the port and trains it. -/
theorem exec_portReconfigure {s : State} {p : PortId} {v : Half} (hopen : s.setupOpen = true) :
    exec (.portReconfigure p v) s = .next (s.writePortCfg p v) := congrArg Host.Outcome.next (if_pos hopen)

theorem exec_retrain {s : State} {p : PortId} (hopen : s.setupOpen = true) :
    exec (.retrain p) s = .next (s.writePortCfg p (BitVec.ofNat 32 ((s.links.cfg[p]).word + 1))) := congrArg Host.Outcome.next (if_pos hopen)

theorem exec_lnkModId {s : State} {v : Half} (hopen : s.setupOpen = true) : exec (.lnkModId v) s = .next (s.writeModId v) :=
  congrArg Host.Outcome.next (if_pos hopen)

theorem exec_lnkLaneRet {s : State} {v : Word} (hopen : s.setupOpen = true) : exec (.lnkLaneRet v) s = .next (s.writeLaneRet v) :=
  congrArg Host.Outcome.next (if_pos hopen)

theorem exec_lnkEthPrefix {s : State} {v : Word} (hopen : s.setupOpen = true) : exec (.lnkEthPrefix v) s = .next (s.writeEthPrefix v) :=
  congrArg Host.Outcome.next (if_pos hopen)

theorem exec_linkRegister_closed {s : State} (hclosed : s.setupOpen = false) (p : PortId) (value : Half) (word : Word) :
    exec (.portReconfigure p value) s = .next s ∧ exec (.retrain p) s = .next s ∧ exec (.lnkModId value) s = .next s ∧
      exec (.lnkLaneRet word) s = .next s ∧ exec (.lnkEthPrefix word) s = .next s :=
  have hnot := ne_true_of_eq_false hclosed
  ⟨congrArg Host.Outcome.next (if_neg hnot), congrArg Host.Outcome.next (if_neg hnot), congrArg Host.Outcome.next (if_neg hnot),
    congrArg Host.Outcome.next (if_neg hnot), congrArg Host.Outcome.next (if_neg hnot)⟩

section
variable {s : State}

/-- What a port is left in after a configuration that is taken. -/
theorem reconfigured_spec (s : State) (p : PortId) (c : PortCfg) :
    let u := s.reconfigured p c
    u.links.cfg = s.links.cfg.set p c ∧ u.links.modId = s.links.modId ∧
      (c.en = false → (u.half (half0 p)).state = .down ∧ (u.half (half1 p)).state = .down) ∧
      (c.en = true → s.pins.lnkClk = true ∧ (∀ i : Fin 16, s.fenced .port i.val = false) →
        (u.half (half0 p)).state = trained (s.half (half0 p)).state ∧
        (c.split = true → (u.half (half1 p)).state = trained (s.half (half1 p)).state) ∧
        (c.split = false → (u.half (half1 p)).state = .down) ∧
        (c.split = true ∨ (s.half (half1 p)).state = .down → u.mem = s.mem ∧ u.tiles = s.tiles)) := by
  have hkept := PortsKept.reconfigured s p c
  refine ⟨hkept.cfg_eq, hkept.modId_eq, fun hen => ?_, fun hen ⟨hclk, hfence⟩ => ?_⟩
  · rw [State.state_reconfigured_half0, State.state_reconfigured_half1]
    simp [hen]
  · refine ⟨?_, fun hsplit => ?_, fun hsplit => ?_, fun hquiet => ?_⟩
    · rw [State.state_reconfigured_half0]
      simp [hen, hclk, hfence (half0 p)]
    · rw [State.state_reconfigured_half1]
      simp [hen, hclk, hsplit, hfence (half1 p)]
    · rw [State.state_reconfigured_half1]
      simp [hsplit]
    · have htrained := Trained.reconfigured hen hclk hfence hquiet
      exact ⟨htrained.mem, htrained.tiles⟩

theorem writeModId_spec {v : Half} (hfree : ∀ q, (s.part q).entry.st ≠ .bound) (h : v.toNat % 65536 ≤ 0x1FFF ∨ v.toNat % 65536 = 65535) :
    let u := s.writeModId v
    u.links.modId = BitVec.ofNat 16 v.toNat ∧ u.links.cfg = s.links.cfg ∧ u.mem = s.mem ∧ (∀ q, (u.part q).entry = (s.part q).entry) ∧
      ∀ h, s.mayTrain h = true → (u.half h).state = trained (s.half h).state := by
  rw [writeModId_taken hfree h]
  generalize BitVec.ofNat 16 v.toNat = m
  have htrained : Trained (s.identified m) ((s.identified m).trainPorts (·.en)) := Trained.trainPorts (.inr hfree)
  have hkept := PortsKept.trainPorts (s.identified m) (·.en)
  refine ⟨hkept.modId_eq, hkept.cfg_eq, htrained.mem, htrained.entry, fun h hmay => ?_⟩
  have hen : (s.cfgOf h).en = true := State.en_of_mayTrain hmay
  exact (State.state_trainPorts (s := s.identified m) (which := (·.en)) hen).trans (State.afterTrain_of_mayTrain hmay)

/-- The module without some of its lane retirements. -/
def State.unretired (s : State) (v : Word) : State := { s with links := { s.links with laneRet := s.links.laneRet &&& ~~~v } }

/-- A lane without failures. -/
def Lane.untried (x : Lane) : Lane := { x with fails := [], tries := 0 }

theorem State.writeLaneRet_eq (s : State) (v : Word) :
    s.writeLaneRet v = (s.unretired v).modLanes (List.finRange 64) (fun l => bit v l.val) Lane.untried := rfl

theorem writeLaneRet_spec (s : State) (word : Word) :
    let u := s.writeLaneRet word
    u = { s with links := { s.links with laneRet := s.links.laneRet &&& ~~~word, lanes := u.links.lanes } } ∧
      ∀ l : Fin 64, u.links.lanes[l] = if bit word l.val then { s.links.lanes[l] with fails := [], tries := 0 } else s.links.lanes[l] := by
  rw [State.writeLaneRet_eq]
  refine ⟨LanesSet.modLanes (s.unretired word) .., fun l => ?_⟩
  rw [State.lanes_modLanes (List.nodup_finRange 64)]
  simp only [List.mem_finRange, true_and]
  rfl

/-- The module with another Ethernet address range. -/
def State.prefixed (s : State) (v : Word) : State := { s with links := { s.links with pfx := v } }

theorem State.writeEthPrefix_eq (s : State) (v : Word) : s.writeEthPrefix v = (s.prefixed v).trainPorts (·.eth) := rfl

theorem writeEthPrefix_spec (s : State) (word : Word) :
    let u := s.writeEthPrefix word
    u.links.pfx = word ∧ u.links.cfg = s.links.cfg ∧
      (∀ h, s.mayTrain h = true → (s.cfgOf h).eth = true → (u.half h).state = trained (s.half h).state) ∧
      ((∀ h, (s.cfgOf h).eth = true → s.mayTrain h = true ∨ (s.half h).state = .down) → u.mem = s.mem ∧ u.tiles = s.tiles) := by
  rw [State.writeEthPrefix_eq]
  have hkept := PortsKept.trainPorts (s.prefixed word) (·.eth)
  refine ⟨hkept.pfx_eq, hkept.cfg_eq, fun h hmay heth => ?_, fun hquiet => ?_⟩
  · exact (State.state_trainPorts (s := s.prefixed word) (which := (·.eth)) heth).trans (State.afterTrain_of_mayTrain hmay)
  · have hidle (h : HalfId) (hdown : (s.half h).state = .down) : (s.half h).state ≠ .up ∧ (s.half h).state ≠ .retrain := by
      rw [hdown]
      exact ⟨nofun, nofun⟩
    have htrained : Trained (s.prefixed word) ((s.prefixed word).trainPorts (·.eth)) :=
      Trained.trainPorts (.inl fun h heth => (hquiet h heth).imp_right (hidle h))
    exact ⟨htrained.mem, htrained.tiles⟩

/-- The module with its link reference clock, or without it. -/
def State.clocked (s : State) (on : Bool) : State := { s with pins := { s.pins with lnkClk := on } }

theorem exec_lnkRefclkLoss (s : State) (now : Nat) : exec (.lnkRefclkLoss now) s = .next (((s.at_ now).clocked false).downHalves allHalves) := rfl

theorem lnkRefclkLoss_spec (s : State) (now : Nat) :
    ∃ u : State, exec (.lnkRefclkLoss now) s = .next u ∧ u.pins.lnkClk = false ∧ (∀ h, (u.half h).state = .down) ∧
      ((∀ h, (s.half h).state ≠ .up ∧ (s.half h).state ≠ .retrain) → u.mem = s.mem ∧ u.tiles = s.tiles ∧ u.parts = s.parts) := by
  refine ⟨_, exec_lnkRefclkLoss s now, (PortsKept.downHalves ..).lnkClk, fun h => State.state_downHalves (.inl (List.mem_finRange h)), fun hidle => ?_⟩
  rw [State.downHalves_of_idle (s := (s.at_ now).clocked false) allHalves hidle]
  exact ⟨rfl, rfl, rfl⟩

theorem exec_lnkRefclkReturn_up (hup : s.up = true) : exec .lnkRefclkReturn s = .next ((s.clocked true).trainPorts (·.en)) :=
  congrArg Host.Outcome.next (if_pos hup)

theorem State.mayTrain_clocked {h : HalfId} (hthere : s.halfThere h = true) (hen : (s.cfgOf h).en = true) (hfence : s.fenced .port h.val = false) :
    (s.clocked true).mayTrain h = true := by
  have hmay : (s.clocked true).mayTrain h = (s.halfThere h && (s.cfgOf h).en && true && !s.fenced .port h.val) := rfl
  rw [hmay, hthere, hen, hfence]
  rfl

theorem lnkRefclkReturn_spec (hup : s.up = true) : ∃ u : State, exec .lnkRefclkReturn s = .next u ∧ u.pins.lnkClk = true ∧
    ∀ h, s.halfThere h = true → (s.cfgOf h).en = true → s.fenced .port h.val = false → (u.half h).state = trained (s.half h).state :=
  ⟨_, exec_lnkRefclkReturn_up hup, (PortsKept.trainPorts ..).lnkClk, fun _ hthere hen hfence =>
    (State.state_trainPorts (s := s.clocked true) (which := (·.en)) hen).trans (State.afterTrain_of_mayTrain (State.mayTrain_clocked hthere hen hfence))⟩

end

/-- Settles O41, by the state in which the start of a training leaves each half of the ports that it names. -/
theorem linkRegisters : Obligations.LinkRegisters := by
  unfold Obligations.LinkRegisters
  refine ⟨fun s p value word hclosed => exec_linkRegister_closed hclosed p value word, fun s p value word hopen => ?_, fun s now =>
    ⟨lnkRefclkLoss_spec s now, fun hup => congrArg Host.Outcome.next (if_neg (ne_true_of_eq_false hup)), lnkRefclkReturn_spec⟩⟩
  intro n c quiet h0 h1
  have hc : portCfgOf value = c := portCfgOf_eq value
  rw [exec_portReconfigure hopen, exec_retrain hopen, exec_lnkModId hopen, exec_lnkLaneRet hopen, exec_lnkEthPrefix hopen]
  refine ⟨fun hepmd => ?_, fun hepmd hsame hquiet => ?_, fun hepmd hgo => ⟨_, rfl, ?_⟩, fun hepmd hen hquiet => ⟨_, rfl, ?_⟩, fun hrefused => ?_,
    fun hfree hid => ⟨_, rfl, writeModId_spec hfree hid⟩, ⟨_, rfl, writeLaneRet_spec s word⟩, ⟨_, rfl, writeEthPrefix_spec s word⟩⟩
  · rw [writePortCfg_refused (hc.symm ▸ hepmd)]
  · rw [writePortCfg_same (hsame.trans hc.symm) hquiet]
  · rw [writePortCfg_trains (hc.symm ▸ hepmd) (hc.symm ▸ hgo), hc]
    exact reconfigured_spec s p c
  · obtain ⟨hword, hretrain⟩ := portCfgOf_word s.links.cfg[p]
    rw [writePortCfg_trains (hword.symm ▸ hepmd) (.inr hretrain), hword]
    obtain ⟨hcfg, -, -, htrains⟩ := reconfigured_spec s p s.links.cfg[p]
    obtain ⟨hstate, -, -, hmem⟩ := htrains hen hquiet
    exact ⟨hcfg.trans (Vector.set_getElem_self ..), hstate, hmem⟩
  · rw [writeModId_refused hrefused]

end Sys2Proof.Machine
end

