-- ==== Sys2Proof/Proofs/LaneRetirement.lean ====
section
/-!
PROOFS. Lanes after a training of their port, and lanes that fail: what is left of each, and when it is retired (11 R269, R270).
-/
namespace Sys2Proof.Machine

open Sys2Proof.Claims

/-! ### A lane that failed (11 R269, R270) -/

/-- The lane after one more failure: tried again after 1 s, or retired the third time. -/
def Lane.failed (x : Lane) (now : Nat) : Lane :=
  let fails := (now :: x.fails).take 3
  { x with retrain := false, tries := x.tries + 1, fails := fails, retryAt := if thirdFailure fails then none else some (now + 1000000000) }

/-- The lane's third failure within 10 s. -/
def Lane.spent (x : Lane) (now : Nat) : Bool := thirdFailure ((now :: x.fails).take 3)

theorem Lane.failed_eq {x : Lane} {now : Nat} {b : Bool} (h : x.spent now = b) : x.failed now =
    { x with retrain := false, tries := x.tries + 1, fails := (now :: x.fails).take 3, retryAt := if b then none else some (now + 1000000000) } := by
  rw [← h]
  rfl

/-- u differs from s in lanes, lane retirements and what the host sees alone. -/
def LanesSettled (s u : State) : Prop :=
  u = { s with funcs := u.funcs, hostMem := u.hostMem, outputs := u.outputs, pins := u.pins
               links := { s.links with lanes := u.links.lanes, laneRet := u.links.laneRet } }

theorem LanesSettled.refl (s : State) : LanesSettled s s := rfl

theorem LanesSettled.trans {s t u : State} (a : LanesSettled s t) (b : LanesSettled t u) : LanesSettled s u := by
  rw [LanesSettled, b, a]

theorem LanesSettled.of_hostOnly {s u : State} (a : HostOnly s u) : LanesSettled s u := by
  rw [LanesSettled, a]

theorem LanesSettled.modLane (s : State) (k : Fin 64) (f : Lane → Lane) : LanesSettled s (s.modLane k f) := rfl

/-- A lane and whether it is retired. -/
def State.laneView (s : State) (k : Fin 64) : Lane × Bool := (s.links.lanes[k], bit s.links.laneRet k.val)

theorem State.links_failLane (s : State) (k : Fin 64) : (s.failLane k).links =
    { s.links with lanes := s.links.lanes.set k ((s.links.lanes[k]).failed s.now)
                   laneRet := if (s.links.lanes[k]).spent s.now then setBit s.links.laneRet k.val true else s.links.laneRet } := by
  have hraise (w : State) : (w.raisePf0 0x0303 none k.val 0).links = w.links := by rw [HostOnly.raisePf0 w 0x0303 none k.val 0]
  unfold State.failLane
  extract_lets fails out v
  cases hout : out with
  | true =>
    have hspent : (s.links.lanes[k]).spent s.now = true := hout
    rw [if_pos rfl, hraise, if_pos hspent]
    rfl
  | false =>
    have hspent : (s.links.lanes[k]).spent s.now = false := hout
    rw [if_neg Bool.false_ne_true, if_neg (ne_true_of_eq_false hspent)]
    rfl

theorem LanesSettled.failLane (s : State) (k : Fin 64) : LanesSettled s (s.failLane k) := by
  unfold State.failLane
  extract_lets fails out v
  split
  · exact LanesSettled.trans (t := { v with links := { v.links with laneRet := setBit v.links.laneRet k.val true } }) rfl
      (LanesSettled.of_hostOnly (HostOnly.raisePf0 ..))
  · rfl

/-- A failed lane is tried again or retired; every other lane stays. -/
theorem State.laneView_failLane (s : State) (k l : Fin 64) : (s.failLane k).laneView l =
    if l = k then ((s.links.lanes[k]).failed s.now, (s.links.lanes[k]).spent s.now || bit s.links.laneRet k.val) else s.laneView l := by
  have hbit : bit (setBit s.links.laneRet k.val true) l.val = (decide (l = k) || bit s.links.laneRet l.val) := by
    rw [setBit, if_pos rfl, bit, BitVec.getLsbD_or, BitVec.getLsbD_ofNat, Nat.testBit_two_pow, Bool.or_comm, decide_eq_true l.isLt, Bool.true_and]
    simp only [Fin.ext_iff, eq_comm, bit]
  rw [State.laneView, State.links_failLane]
  dsimp only
  rw [getElem_set_fin]
  by_cases h : l = k
  · subst h
    cases hs : (s.links.lanes[l]).spent s.now <;> simp [hbit]
  · cases hs : (s.links.lanes[k]).spent s.now <;> simp [hbit, h, State.laneView]

/-! ### The lanes of a port that trained (11 R260, R269) -/

/-- What the training of its port leaves of a lane. -/
def laneTrained (now : Nat) (failed : Bool) (x : Lane × Bool) : Lane × Bool :=
  if x.2 then x else if failed then (x.1.failed now, x.1.spent now) else ({ x.1 with retrain := false, retryAt := none, tries := 0 }, false)

/-- One lane of a half that trained. -/
def State.trainLane (s : State) (h : HalfId) (found : Training) (l : Nat) : State :=
  if bit s.links.laneRet (laneId h l).val then s
  else if bit found.failed l then s.failLane (laneId h l)
  else s.modLane (laneId h l) fun x => { x with retrain := false, retryAt := none, tries := 0 }

theorem State.trainedLanes_eq (s : State) (h : HalfId) (found : Training) : s.trainedLanes h found =
    (natRange (s.span h).1 ((s.span h).1 + (s.span h).2)).foldl (fun s l => s.trainLane h found l) s := rfl

theorem LanesSettled.trainLane (s : State) (h : HalfId) (found : Training) (l : Nat) : LanesSettled s (s.trainLane h found l) := by
  unfold State.trainLane
  split
  · exact LanesSettled.refl s
  · split
    · exact LanesSettled.failLane s _
    · exact LanesSettled.modLane s _ _

theorem State.laneView_trainLane (s : State) (h : HalfId) (found : Training) (l : Nat) (k : Fin 64) : (s.trainLane h found l).laneView k =
    if k = laneId h l then laneTrained s.now (bit found.failed l) (s.laneView k) else s.laneView k := by
  unfold State.trainLane laneTrained
  split
  · next hret =>
    split
    · next hk => rw [hk, State.laneView, if_pos hret]
    · rfl
  · next hret =>
    have hview : (s.laneView (laneId h l)).2 = false := eq_false_of_ne_true hret
    split
    · rw [State.laneView_failLane]
      refine if_ctx_congr Iff.rfl (fun hk => ?_) fun _ => rfl
      rw [hk, hview, if_neg Bool.false_ne_true, eq_false_of_ne_true hret, Bool.or_false]
      rfl
    · have hmod (f : Lane → Lane) : (s.modLane (laneId h l) f).laneView k =
          if k = laneId h l then (f (s.laneView k).1, (s.laneView k).2) else s.laneView k := by
        rw [State.laneView, State.lanes_modLane]
        split
        · rfl
        · rfl
      rw [hmod]
      refine if_ctx_congr Iff.rfl (fun hk => ?_) fun _ => rfl
      rw [hk, hview, if_neg Bool.false_ne_true]

theorem mem_natRange {lo hi l : Nat} : l ∈ natRange lo hi ↔ lo ≤ l ∧ l < hi := by
  simp only [natRange, List.mem_map, List.mem_range]
  exact ⟨fun ⟨i, hi, hl⟩ => by omega, fun _ => ⟨l - lo, by omega, by omega⟩⟩

theorem nodup_natRange (lo hi : Nat) : (natRange lo hi).Nodup := List.nodup_range.map fun _ _ h => Nat.add_right_cancel h

theorem laneId_inj (h : HalfId) {l k : Nat} (hl : l < 8) (hk : k < 8) : laneId h l = laneId h k ↔ l = k := by
  simp only [laneId, Fin.ofNat, Fin.mk.injEq]
  omega

theorem State.span_le (s : State) (h : HalfId) : (s.span h).1 + (s.span h).2 ≤ 8 := by
  unfold State.span
  split
  · simp only
    omega
  · simp

/-- The lanes of a list, each settled once. -/
theorem State.laneView_trainLanes {ls : List Nat} (hnodup : ls.Nodup) (hlt : ∀ l ∈ ls, l < 8) (s : State) (h : HalfId) (found : Training) {k : Nat}
    (hk : k < 8) : (ls.foldl (fun s l => s.trainLane h found l) s).laneView (laneId h k) =
      if k ∈ ls then laneTrained s.now (bit found.failed k) (s.laneView (laneId h k)) else s.laneView (laneId h k) := by
  induction ls generalizing s with
  | nil => simp
  | cons l ls ih =>
    obtain ⟨hl, hnodup⟩ := List.nodup_cons.1 hnodup
    obtain ⟨hl8, hlt⟩ := List.forall_mem_cons.1 hlt
    have hnow : (s.trainLane h found l).now = s.now := by rw [LanesSettled.trainLane s h found l]; rfl
    simp only [List.foldl_cons, ih hnodup hlt, State.laneView_trainLane, laneId_inj h hk hl8, hnow]
    by_cases heq : k = l
    · subst heq
      simp [hl]
    · simp [heq]

/-- Every lane of a half after its training. -/
theorem State.laneView_trainedLanes (s : State) (h : HalfId) (found : Training) {l : Nat} (hlo : (s.span h).1 ≤ l) (hhi : l < (s.span h).1 + (s.span h).2) :
    (s.trainedLanes h found).laneView (laneId h l) = laneTrained s.now (bit found.failed l) (s.laneView (laneId h l)) := by
  have hspan := s.span_le h
  rw [State.trainedLanes_eq, State.laneView_trainLanes (nodup_natRange ..) (fun l hl => by have := mem_natRange.1 hl; omega) s h found (by omega),
    if_pos (mem_natRange.2 ⟨hlo, hhi⟩)]

theorem LanesSettled.trainedLanes (s : State) (h : HalfId) (found : Training) : LanesSettled s (s.trainedLanes h found) :=
  List.foldlRecOn _ _ (motive := LanesSettled s) (LanesSettled.refl s) fun t ht l _ => ht.trans (LanesSettled.trainLane t h found l)

theorem State.laneOut_eq (s : State) (h : HalfId) (l : Nat) :
    s.laneOut h l = ((s.laneView (laneId h l)).2 || (s.laneView (laneId h l)).1.retrain || (s.laneView (laneId h l)).1.retryAt.isSome) := rfl

/-- Of the lanes of a half that trained those are out of use that were retired or failed. -/
theorem State.laneOut_trainedLanes (s : State) (h : HalfId) (found : Training) {l : Nat} (hlo : (s.span h).1 ≤ l)
    (hhi : l < (s.span h).1 + (s.span h).2) :
    (s.trainedLanes h found).laneOut h l = (bit s.links.laneRet (laneId h l).val || bit found.failed l) := by
  rw [State.laneOut_eq, State.laneView_trainedLanes s h found hlo hhi, laneTrained]
  cases hret : (s.laneView (laneId h l)).2 with
  | true =>
    have hbit : bit s.links.laneRet (laneId h l).val = true := hret
    simp [hret, hbit]
  | false =>
    have hbit : bit s.links.laneRet (laneId h l).val = false := hret
    cases hf : bit found.failed l with
    | false => simp [hbit]
    | true =>
      cases hs : (s.laneView (laneId h l)).1.spent s.now <;> simp_all [Lane.failed, Lane.spent]

end Sys2Proof.Machine
end

