-- ==== Sys2Proof/Proofs/PortTraining.lean ====
section
/-!
PROOFS. Ports that end a training, and lanes that retrain, return or are tried again (11 R260, R261, R267, R269, R270).
-/
namespace Sys2Proof.Machine

open Sys2Proof.Claims

section
variable {s : State} {h : HalfId} {found : Training} {now : Nat}

/-! ### The end of a training (11 R260, R261, R267) -/

theorem exec_portTrainingComplete_notDue (hnot : ¬ Trains s h) :
    exec (.portTrainingComplete h found now) s = .fault (.notDue "PORT_TRAINING_COMPLETE") := by
  have hexec : exec (.portTrainingComplete h found now) s = execPortTrainingComplete h found now s := rfl
  have hgate : (!(s.mayTrain h && s.modIdOk && decide (s.sec.idCause = 0) && decide ((s.half h).state = .training ∨ (s.half h).state = .retrain))) = true := by
    rw [Bool.not_eq_true', ← Bool.not_eq_true]
    simp only [Bool.and_eq_true, decide_eq_true_eq, and_assoc]
    exact hnot
  rw [hexec, execPortTrainingComplete]
  exact if_pos hgate

/-- The group is the widest of lanes that the peer can use, that did not fail and that are not retired. -/
theorem bestGroup_trainedLanes (s : State) (h : HalfId) (found : Training) :
    bestGroup (s.span h) (maxWidth (s.cfgOf h)) (fun l => bit found.usable l && !(s.trainedLanes h found).laneOut h l) =
      bestGroup (s.span h) (maxWidth (s.cfgOf h)) fun l => bit found.usable l && !bit found.failed l && !bit s.links.laneRet (laneId h l).val := by
  refine bestGroup_congr (first := (s.span h).1) (size := (s.span h).2) fun l hlo hhi => ?_
  rw [State.laneOut_trainedLanes s h found hlo hhi, Bool.not_or, Bool.and_assoc, Bool.and_comm (!bit found.failed l)]

theorem not_gate_of_trains (htrains : Trains s h) :
    ¬ (!(s.mayTrain h && s.modIdOk && decide (s.sec.idCause = 0) && decide ((s.half h).state = .training ∨ (s.half h).state = .retrain))) = true := by
  rw [Bool.not_eq_true', ← Bool.not_eq_true, not_not]
  simp only [Bool.and_eq_true, decide_eq_true_eq, and_assoc]
  exact htrains

theorem exec_portTrainingComplete_own (htrains : Trains s h) (hpeer : found.peer = s.links.modId) : exec (.portTrainingComplete h found now) s =
    .next (((s.at_ now).dropHalf h .down).raisePf0 0x0302 none (h.val / 2) s.links.modId.toNat) :=
  (if_neg (not_gate_of_trains htrains)).trans (if_pos hpeer)

theorem exec_portTrainingComplete_noVersion (htrains : Trains s h) (hpeer : found.peer ≠ s.links.modId)
    (hver : (s.cfgOf h).eth = false ∧ found.v10 = false ∧ found.v11 = false) :
    exec (.portTrainingComplete h found now) s = .next ((s.at_ now).dropHalf h .down) := by
  obtain ⟨heth, hv10, hv11⟩ := hver
  have hnone : (!(s.cfgOf h).eth && !found.v10 && !found.v11) = true := by rw [heth, hv10, hv11]; rfl
  exact (if_neg (not_gate_of_trains htrains)).trans ((if_neg hpeer).trans (if_pos hnone))

/-- A training that found a peer with a version in common ends by the group it chooses. -/
theorem exec_portTrainingComplete_group (htrains : Trains s h) (hpeer : found.peer ≠ s.links.modId)
    (hver : (s.cfgOf h).eth = true ∨ found.v10 = true ∨ found.v11 = true) {group : Option (Nat × Nat)}
    (hgroup : (bestGroup (s.span h) (maxWidth (s.cfgOf h)) fun l => bit found.usable l && !bit found.failed l && !bit s.links.laneRet (laneId h l).val) =
      group) : exec (.portTrainingComplete h found now) s =
        .next (group.elim (((s.at_ now).trainedLanes h found).failHalf h) fun g => ((s.at_ now).trainedLanes h found).raiseHalf h g found) := by
  have hsome : ¬ (!(s.cfgOf h).eth && !found.v10 && !found.v11) = true := by
    rcases hver with hv | hv | hv <;> simp [hv]
  have hlanes : LanesSettled (s.at_ now) ((s.at_ now).trainedLanes h found) := LanesSettled.trainedLanes ..
  have hspan : ((s.at_ now).trainedLanes h found).span h = (s.at_ now).span h := by rw [hlanes]; rfl
  have hcfg : ((s.at_ now).trainedLanes h found).cfgOf h = (s.at_ now).cfgOf h := by rw [hlanes]; rfl
  have hbest := (bestGroup_trainedLanes (s.at_ now) h found).trans hgroup
  refine (if_neg (not_gate_of_trains htrains)).trans ((if_neg hpeer).trans ((if_neg hsome).trans ?_))
  dsimp only
  rw [hspan, hcfg, hbest]
  cases group with
  | none => rfl
  | some g => rfl

/-- The lanes of the half, wherever they are as the training left them. -/
theorem lanes_trainedLanes {u : State} (hlanes : u.links.lanes = ((s.at_ now).trainedLanes h found).links.lanes)
    (hret : u.links.laneRet = ((s.at_ now).trainedLanes h found).links.laneRet) {l : Nat} (hlo : (s.span h).1 ≤ l)
    (hhi : l < (s.span h).1 + (s.span h).2) (hin : bit s.links.laneRet (laneId h l).val = false) :
    let old := s.links.lanes[laneId h l]
    let new := u.links.lanes[laneId h l]
    if bit found.failed l then new.fails = ((s.at_ now).now :: old.fails).take 3 ∧ new.retrain = false ∧
        bit u.links.laneRet (laneId h l).val = thirdFailure new.fails ∧
        new.retryAt = if thirdFailure new.fails then none else some ((s.at_ now).now + 1000000000)
      else new.retrain = false ∧ new.retryAt = none ∧ bit u.links.laneRet (laneId h l).val = false := by
  have hview := State.laneView_trainedLanes (s.at_ now) h found hlo hhi
  have hstart : (s.at_ now).laneView (laneId h l) = (s.links.lanes[laneId h l], false) := Prod.ext rfl hin
  rw [hstart, laneTrained, if_neg Bool.false_ne_true, State.laneView, ← hlanes, ← hret] at hview
  intro old new
  cases hf : bit found.failed l with
  | true =>
    rw [hf, if_pos rfl] at hview
    obtain ⟨hlane, hbit⟩ := Prod.mk.inj hview
    have hnew : new = old.failed (s.at_ now).now := hlane
    rw [if_pos rfl, hnew, hbit]
    exact ⟨rfl, rfl, rfl, rfl⟩
  | false =>
    rw [hf, if_neg Bool.false_ne_true] at hview
    obtain ⟨hlane, hbit⟩ := Prod.mk.inj hview
    have hnew : new = { old with retrain := false, retryAt := none, tries := 0 } := hlane
    rw [if_neg Bool.false_ne_true, hnew]
    exact ⟨rfl, rfl, hbit⟩

/-! ### The half goes UP -/

/-- A half that goes UP on a group. -/
def HalfPort.raise (x : HalfPort) (g : Nat × Nat) (eth : Bool) (found : Training) (now : Nat) : HalfPort :=
  { x with state := .up, peer := found.peer, lanes := groupLanes g, width := g.2, ver := if eth then 0 else if found.v11 then 2 else 1,
           skew := found.skew, trained := some now }

/-- The half is UP, and no frame has gone out yet. -/
def State.raised (s : State) (h : HalfId) (g : Nat × Nat) (found : Training) : State :=
  let v := s.setHalf h fun x => x.raise g (s.cfgOf h).eth found s.now
  { v with links := { v.links with paused := v.links.paused.set (portOf h) false, pausing := v.links.pausing.set (portOf h) false } }

theorem State.raiseHalf_eq (s : State) (h : HalfId) (g : Nat × Nat) (found : Training) : s.raiseHalf h g found = (s.raised h g found).pump := rfl

theorem State.half_raised (s : State) (h k : HalfId) (g : Nat × Nat) (found : Training) :
    (s.raised h g found).half k = (s.setHalf h fun x => x.raise g (s.cfgOf h).eth found s.now).half k := rfl

theorem half_raiseHalf (s : State) (h : HalfId) (g : Nat × Nat) (found : Training) : (s.raiseHalf h g found).half h =
    { (s.half h).raise g (s.cfgOf h).eth found s.now with
      out := ((s.raiseHalf h g found).half h).out, owed := ((s.raiseHalf h g found).half h).owed,
      replay := ((s.raiseHalf h g found).half h).replay } := by
  obtain ⟨_, _, _, hu⟩ := (Steady.pump (s.raised h g found)).half h
  rw [State.raiseHalf_eq, hu, State.half_raised, State.half_setHalf]

theorem Sent.raiseHalf (s : State) (h : HalfId) (g : Nat × Nat) (found : Training) : Sent s (s.raiseHalf h g found) :=
  Sent.trans (t := s.raised h g found) rfl (Sent.pump _)

theorem lanes_raiseHalf (s : State) (h : HalfId) (g : Nat × Nat) (found : Training) :
    (s.raiseHalf h g found).links.lanes = s.links.lanes ∧ (s.raiseHalf h g found).links.laneRet = s.links.laneRet := by
  obtain ⟨_, _, hu⟩ := (Steady.pump (s.raised h g found)).links
  rw [State.raiseHalf_eq, hu]
  exact ⟨rfl, rfl⟩

/-- Without a frame that waits nothing else changes. -/
theorem raiseHalf_quiet (hquiet : s.links.txq = []) (h : HalfId) (g : Nat × Nat) (found : Training) :
    (s.raiseHalf h g found).parts = s.parts ∧ ((s.raiseHalf h g found).half h).out = (s.half h).out ∧
      ∀ k, k ≠ h → (s.raiseHalf h g found).half k = s.half k := by
  rw [State.raiseHalf_eq, State.pump_of_empty (s := s.raised h g found) hquiet]
  refine ⟨rfl, ?_, fun k hk => ?_⟩
  · rw [State.half_raised, State.half_setHalf]
    rfl
  · rw [State.half_raised, State.half_setHalf_ne _ hk]

/-! ### The half fails -/

theorem half_failHalf (s : State) (h : HalfId) : ((s.failHalf h).half h).state = .failed ∧ ((s.failHalf h).half h).lanes = 0 := by
  have hlinks : (s.failHalf h).links = (s.dropHalf h .failed).links := by
    rw [State.failHalf, HostOnly.raisePf0 (s.dropHalf h .failed)]
  rw [State.half, hlinks]
  exact State.half_dropHalf s h .failed

/-- A half that carried no traffic fails, and of the module only what the host sees changes. -/
theorem HostOnly.failHalf_of_idle (hidle : (s.half h).state ≠ .up ∧ (s.half h).state ≠ .retrain) :
    HostOnly (s.setHalf h fun x => x.stop .failed) (s.failHalf h) := by
  rw [State.failHalf, State.dropHalf_of_idle hidle]
  exact HostOnly.raisePf0 ..

/-! ### The training of a port: the clauses (O40) -/

/-- The half is UP on the group that the training chose. -/
theorem portTrainingComplete_some (htrains : Trains s h) (hpeer : found.peer ≠ s.links.modId)
    (hver : (s.cfgOf h).eth = true ∨ found.v10 = true ∨ found.v11 = true) {g : Nat × Nat}
    (hgroup : (bestGroup (s.span h) (maxWidth (s.cfgOf h)) fun l => bit found.usable l && !bit found.failed l && !bit s.links.laneRet (laneId h l).val) =
      some g) : ∃ u : State, exec (.portTrainingComplete h found now) s = .next u ∧ u.mem = s.mem ∧ u.tiles = s.tiles ∧ u.engines = s.engines ∧
        (u.links.lanes = ((s.at_ now).trainedLanes h found).links.lanes ∧ u.links.laneRet = ((s.at_ now).trainedLanes h found).links.laneRet) ∧
        u.half h = { (s.half h).raise g (s.cfgOf h).eth found (s.at_ now).now with
          out := (u.half h).out, owed := (u.half h).owed, replay := (u.half h).replay } ∧
        (s.links.txq = [] → u.parts = s.parts ∧ (u.half h).out = (s.half h).out ∧ ∀ k, k ≠ h → u.half k = s.half k) := by
  refine ⟨_, exec_portTrainingComplete_group htrains hpeer hver hgroup, ?_⟩
  simp only [Option.elim_some]
  have hlanes : LanesSettled (s.at_ now) ((s.at_ now).trainedLanes h found) := LanesSettled.trainedLanes ..
  generalize (s.at_ now).trainedLanes h found = v at hlanes
  have hhalf (k : HalfId) : v.half k = s.half k := by rw [hlanes]; rfl
  have hcfg : v.cfgOf h = s.cfgOf h := by rw [hlanes]; rfl
  have hnow : v.now = (s.at_ now).now := by rw [hlanes]; rfl
  have hsent := Sent.raiseHalf v h g found
  refine ⟨by rw [hsent, hlanes]; rfl, by rw [hsent, hlanes]; rfl, by rw [hsent, hlanes]; rfl, lanes_raiseHalf v h g found, ?_, fun hquiet => ?_⟩
  · have hup := half_raiseHalf v h g found
    rw [hhalf, hcfg, hnow] at hup
    exact hup
  · have htxq : v.links.txq = [] := by rw [hlanes]; exact hquiet
    obtain ⟨hparts, hout, hothers⟩ := raiseHalf_quiet htxq h g found
    exact ⟨hparts.trans (by rw [hlanes]; rfl), hout.trans (by rw [hhalf]), fun k hk => (hothers k hk).trans (hhalf k)⟩

/-- Without a group the half fails. -/
theorem portTrainingComplete_none (htrains : Trains s h) (hpeer : found.peer ≠ s.links.modId)
    (hver : (s.cfgOf h).eth = true ∨ found.v10 = true ∨ found.v11 = true)
    (hgroup : (bestGroup (s.span h) (maxWidth (s.cfgOf h)) fun l => bit found.usable l && !bit found.failed l && !bit s.links.laneRet (laneId h l).val) =
      none) : ∃ u : State, exec (.portTrainingComplete h found now) s = .next u ∧ (u.half h).state = .failed ∧ (u.half h).lanes = 0 ∧
        (u.links.lanes = ((s.at_ now).trainedLanes h found).links.lanes ∧ u.links.laneRet = ((s.at_ now).trainedLanes h found).links.laneRet) ∧
        ((s.half h).state = .training → u.mem = s.mem ∧ u.tiles = s.tiles ∧ u.parts = s.parts ∧ ∀ k, k ≠ h → u.half k = s.half k) := by
  refine ⟨_, exec_portTrainingComplete_group htrains hpeer hver hgroup, ?_⟩
  simp only [Option.elim_none]
  have hlanes : LanesSettled (s.at_ now) ((s.at_ now).trainedLanes h found) := LanesSettled.trainedLanes ..
  generalize (s.at_ now).trainedLanes h found = v at hlanes
  have hhalf (k : HalfId) : v.half k = s.half k := by rw [hlanes]; rfl
  have hkept := PortsKept.failHalf v h
  obtain ⟨hstate, hnone⟩ := half_failHalf v h
  refine ⟨hstate, hnone, ⟨hkept.lanes_eq, hkept.laneRet_eq⟩, fun htraining => ?_⟩
  have hhost : HostOnly (v.setHalf h fun x => x.stop .failed) (v.failHalf h) := HostOnly.failHalf_of_idle (by
    rw [hhalf, htraining]
    exact ⟨nofun, nofun⟩)
  refine ⟨hhost.mem.trans (by rw [hlanes]; rfl), hhost.tiles.trans (by rw [hlanes]; rfl), hhost.parts.trans (by rw [hlanes]; rfl), fun k hk => ?_⟩
  have hother : (v.failHalf h).half k = (v.setHalf h fun x => x.stop .failed).half k := by rw [hhost]; rfl
  rw [hother, State.half_setHalf_ne _ hk, hhalf]

/-- The module's own ID, or no common version: the half goes DOWN. -/
theorem portTrainingComplete_down (htrains : Trains s h)
    (hdown : found.peer = s.links.modId ∨ ((s.cfgOf h).eth = false ∧ found.v10 = false ∧ found.v11 = false)) :
    ∃ u : State, exec (.portTrainingComplete h found now) s = .next u ∧ (u.half h).state = .down ∧
      ((s.half h).state = .training → u.mem = s.mem ∧ u.tiles = s.tiles ∧ u.parts = s.parts) := by
  have hstopped (u : State) (hu : HostOnly ((s.at_ now).dropHalf h .down) u) :
      (u.half h).state = .down ∧ ((s.half h).state = .training → u.mem = s.mem ∧ u.tiles = s.tiles ∧ u.parts = s.parts) := by
    have hhalf : u.half h = ((s.at_ now).dropHalf h .down).half h := by rw [hu]; rfl
    refine ⟨by rw [hhalf]; exact (State.half_dropHalf ..).1, fun htraining => ?_⟩
    have hidle : ((s.at_ now).half h).state ≠ .up ∧ ((s.at_ now).half h).state ≠ .retrain := by
      have hstate : ((s.at_ now).half h).state = .training := htraining
      rw [hstate]
      exact ⟨nofun, nofun⟩
    rw [State.dropHalf_of_idle hidle] at hu
    exact ⟨hu.mem, hu.tiles, hu.parts⟩
  by_cases hpeer : found.peer = s.links.modId
  · exact ⟨_, exec_portTrainingComplete_own htrains hpeer, hstopped _ (HostOnly.raisePf0 ..)⟩
  · exact ⟨_, exec_portTrainingComplete_noVersion htrains hpeer (hdown.resolve_left hpeer), hstopped _ (HostOnly.refl _)⟩

end

section
variable {s : State} {lane : Fin 64} {now : Nat}

/-! ### Lanes that retrain (11 R269) -/

theorem State.half_emit (s : State) (o : Output) (k : HalfId) : (s.emit o).half k = s.half k := rfl

theorem State.half_portSend (s : State) (h k : HalfId) (m : Message) : ∃ o, (s.portSend h m).half k = { s.half k with out := o } := by
  unfold State.portSend
  split
  · by_cases hk : k = h
    · subst hk
      exact ⟨_, (State.half_emit ..).trans (State.half_setHalf s k _)⟩
    · exact ⟨_, (State.half_emit ..).trans (State.half_setHalf_ne s hk _)⟩
  · exact ⟨_, rfl⟩

theorem State.half_sendNotices (s : State) (h k : HalfId) : ∃ o, (s.sendNotices h).half k = { s.half k with out := o } := by
  unfold State.sendNotices
  extract_lets m
  split
  · exact ⟨_, rfl⟩
  · refine List.foldlRecOn _ _ (motive := fun t : State => ∃ o, t.half k = { s.half k with out := o }) ⟨_, rfl⟩ fun t ht o _ => ?_
    obtain ⟨_, ht⟩ := ht
    obtain ⟨_, ho⟩ := t.half_portSend o k (.retrainNotice m)
    exact ⟨_, by rw [ho, ht]⟩

/-- A lane of an UP half starts to retrain. -/
def State.unlocked (s : State) (lane : Fin 64) : State := s.modLane lane fun x => { x with retrain := true, retryAt := none }

/-- The half trains with the lane, or the lane alone while a narrower group is left. -/
theorem State.retrainLane_cases (s : State) (lane : Fin 64) :
    ((s.half (s.halfOfLane lane)).ver = 2 ∧ ∃ g, s.retrainLane lane =
      ((s.unlocked lane).setHalf (s.halfOfLane lane) fun x => { x with lanes := groupLanes g }).noteRetrain (s.halfOfLane lane)) ∨
    s.retrainLane lane = (s.unlocked lane).trainHalf (s.halfOfLane lane) := by
  unfold State.retrainLane
  extract_lets h v g
  split
  · next hcond =>
    obtain ⟨hver, hsome⟩ := hcond
    obtain ⟨k, hk⟩ := Option.isSome_iff_exists.1 hsome
    refine .inl ⟨hver, k, ?_⟩
    have hsettle : v.settleLanes h = v.setHalf h fun x => { x with lanes := groupLanes k } := by
      have hbest : (bestGroup (v.half h).trainedGroup (v.half h).trainedGroup.2 fun l => !v.laneOut h l) = some k := hk
      simp only [State.settleLanes, hbest]
    rw [hsettle]
    rfl
  · exact .inr rfl

theorem State.trainHalf_of_up {h : HalfId} (hmay : s.mayTrain h = true) (hup : (s.half h).state = .up) :
    s.trainHalf h = ((s.sendNotices h).setHalf h fun x => { x with state := .retrain }).noteRetrain h := by
  have hgo : ¬ (!s.mayTrain h) = true := by simp [hmay]
  exact (if_neg hgo).trans (if_pos hup)

/-- An UP half whose lane retrains counts one retrain; the other halves send notices at most. -/
theorem retrainLane_spec (hup : (s.half (s.halfOfLane lane)).state = .up) (hmay : s.mayTrain (s.halfOfLane lane) = true) :
    let h := s.halfOfLane lane
    let u := s.retrainLane lane
    Trained (s.unlocked lane) u ∧ u.links.lanes = (s.unlocked lane).links.lanes ∧ (u.half h).rtcnt = min ((s.half h).rtcnt + 1) 0xFFFF ∧
      ((s.half h).ver ≠ 2 → (u.half h).state = .retrain) ∧ ((u.half h).state = .up ∨ (u.half h).state = .retrain) ∧
      ∀ k, k ≠ h → u.half k = { s.half k with out := (u.half k).out } := by
  intro h
  have hhalf (k : HalfId) : (s.unlocked lane).half k = s.half k := rfl
  rcases s.retrainLane_cases lane with ⟨hver, g, heq⟩ | heq
  · rw [heq]
    refine ⟨(Trained.setHalf ..).trans (Trained.noteRetrain ..), ?_, ?_, fun hnot => absurd hver hnot, ?_, fun k hk => ?_⟩
    · rw [State.noteRetrain, State.links_markAll]
      rfl
    · rw [State.half_noteRetrain, State.half_setHalf, hhalf]
    · left
      rw [State.half_noteRetrain, State.half_setHalf, hhalf]
      exact hup
    · rw [State.half_noteRetrain_ne _ hk, State.half_setHalf_ne _ hk, hhalf]
  · have htrain := State.trainHalf_of_up (s := s.unlocked lane) (h := h) hmay hup
    have hown : ((s.unlocked lane).trainHalf h).half h = { ((s.unlocked lane).sendNotices h).half h with
        state := .retrain, rtcnt := min ((((s.unlocked lane).sendNotices h).half h).rtcnt + 1) 0xFFFF } := by
      rw [htrain, State.half_noteRetrain, State.half_setHalf]
    obtain ⟨o, ho⟩ := (s.unlocked lane).half_sendNotices h h
    rw [ho, hhalf] at hown
    rw [heq]
    refine ⟨Trained.trainHalf (.inl hmay), (PortsKept.trainHalf ..).lanes_eq, by rw [hown], fun _ => by rw [hown], .inr (by rw [hown]), fun k hk => ?_⟩
    obtain ⟨_, hother⟩ := (s.unlocked lane).half_sendNotices h k
    rw [htrain, State.half_noteRetrain_ne _ hk, State.half_setHalf_ne _ hk, hother, hhalf]

theorem exec_laneRetrainStart_notDue (hnot : ¬ (s.halfUp (s.halfOfLane lane) = true ∧ bit (s.half (s.halfOfLane lane)).lanes (lane.val % 8) = true)) :
    exec (.laneRetrainStart lane now) s = .fault (.notDue "LANE_RETRAIN_START") := by
  rw [← Bool.and_eq_true] at hnot
  exact whenDue_of_not_due _ _ (eq_false_of_ne_true hnot)

theorem exec_laneRetrainStart_due (hup : s.halfUp (s.halfOfLane lane) = true) (hbit : bit (s.half (s.halfOfLane lane)).lanes (lane.val % 8) = true) :
    exec (.laneRetrainStart lane now) s = .next ((s.at_ now).retrainLane lane) := by
  have hdue : (s.halfUp (s.halfOfLane lane) && bit (s.half (s.halfOfLane lane)).lanes (lane.val % 8)) = true := by rw [hup, hbit]; rfl
  exact whenDue_of_due _ _ hdue

/-! ### Lanes that return, fail or are tried again (11 R269, R270) -/

theorem PortsKept.settleLanes (s : State) (h : HalfId) : PortsKept [h] s (s.settleLanes h) := by
  unfold State.settleLanes
  dsimp only
  split
  · exact PortsKept.failHalf s h
  · exact PortsKept.setHalf s (List.mem_singleton_self h) _

/-- An UP half settles on the lanes it has left. -/
theorem PortsKept.resettle (s : State) (h : HalfId) :
    PortsKept [h] s (if (s.half h).state = .up then (s.settleLanes h).markAll .tmg else s) := by
  split
  · exact (PortsKept.settleLanes s h).steady (Steady.markAll ..)
  · exact PortsKept.refl s _

/-- A lane that is back. -/
def State.returned (s : State) (lane : Fin 64) : State := s.modLane lane fun x => { x with retrain := false, tries := 0 }

theorem exec_laneRetrainEnd_notDue (hnot : (s.links.lanes[lane]).retrain = false) (ok : Bool) :
    exec (.laneRetrainEnd lane ok now) s = .fault (.notDue "LANE_RETRAIN_END") := by
  have hgate : (!(s.links.lanes[lane]).retrain) = true := by rw [hnot]; rfl
  exact if_pos hgate

theorem exec_laneRetrainEnd_ok (hdue : (s.links.lanes[lane]).retrain = true) : exec (.laneRetrainEnd lane true now) s =
    .next (if (s.half (s.halfOfLane lane)).state = .up then (((s.at_ now).returned lane).settleLanes (s.halfOfLane lane)).markAll .tmg
      else (s.at_ now).returned lane) := by
  have hgate : ¬ (!(s.links.lanes[lane]).retrain) = true := by rw [hdue]; exact Bool.false_ne_true
  exact if_neg hgate

theorem exec_laneRetrainEnd_failed (hdue : (s.links.lanes[lane]).retrain = true) :
    ∃ u, exec (.laneRetrainEnd lane false now) s = .next u ∧ PortsKept [s.halfOfLane lane] ((s.at_ now).failLane lane) u := by
  have hgate : ¬ (!(s.links.lanes[lane]).retrain) = true := by rw [hdue]; exact Bool.false_ne_true
  by_cases hret : bit ((s.at_ now).failLane lane).links.laneRet lane.val = true
  · exact ⟨_, (if_neg hgate).trans (if_pos hret), PortsKept.trainHalf ..⟩
  · exact ⟨_, (if_neg hgate).trans (if_neg hret), PortsKept.resettle ..⟩

theorem exec_laneRetryTimer_none (hnone : (s.links.lanes[lane]).retryAt = none) :
    exec (.laneRetryTimer lane now) s = .fault (.notDue "LANE_RETRY_TIMER") := by
  have hexec : exec (.laneRetryTimer lane now) s = execLaneRetryTimer lane now s := rfl
  have hv : ((s.at_ now).links.lanes[lane]).retryAt = none := hnone
  rw [hexec, execLaneRetryTimer]
  simp only [hv]
  rfl

theorem exec_laneRetryTimer_early {t : Nat} (hsome : (s.links.lanes[lane]).retryAt = some t) (ht : (s.at_ now).now < t) :
    exec (.laneRetryTimer lane now) s = .fault (.notDue "LANE_RETRY_TIMER") := by
  have hexec : exec (.laneRetryTimer lane now) s = execLaneRetryTimer lane now s := rfl
  have hv : ((s.at_ now).links.lanes[lane]).retryAt = some t := hsome
  rw [hexec, execLaneRetryTimer]
  simp only [hv, if_pos ht]
  rfl

theorem exec_laneRetryTimer_due {t : Nat} (hsome : (s.links.lanes[lane]).retryAt = some t) (ht : t ≤ (s.at_ now).now) :
    exec (.laneRetryTimer lane now) s = .next (if (s.half (s.halfOfLane lane)).state = .up ∧ (s.half (s.halfOfLane lane)).ver = 2 then
      ((s.at_ now).unlocked lane).noteRetrain (s.halfOfLane lane) else ((s.at_ now).unlocked lane).trainHalf (s.halfOfLane lane)) := by
  have hexec : exec (.laneRetryTimer lane now) s = execLaneRetryTimer lane now s := rfl
  have hv : ((s.at_ now).links.lanes[lane]).retryAt = some t := hsome
  rw [hexec, execLaneRetryTimer]
  simp only [hv, if_neg (Nat.not_lt.2 ht)]
  exact (apply_ite Host.Outcome.next _ _ _).symm

end

section
variable {s : State} {lane : Fin 64} {now : Nat}

theorem laneRetrainEnd_ok_spec (hdue : (s.links.lanes[lane]).retrain = true) :
    ∃ u : State, exec (.laneRetrainEnd lane true now) s = .next u ∧
      u.links.lanes = s.links.lanes.set lane { s.links.lanes[lane] with retrain := false, tries := 0 } ∧ u.links.laneRet = s.links.laneRet ∧
      ((s.half (s.halfOfLane lane)).state ≠ .up → u.mem = s.mem ∧ u.tiles = s.tiles ∧ u.links.half = s.links.half) := by
  have hkept := PortsKept.resettle ((s.at_ now).returned lane) (s.halfOfLane lane)
  refine ⟨_, exec_laneRetrainEnd_ok hdue, hkept.lanes_eq, hkept.laneRet_eq, fun hnot => ?_⟩
  rw [if_neg hnot]
  exact ⟨rfl, rfl, rfl⟩

/-- Three failures at most are kept, so that the third is the last. -/
theorem thirdFailure_take (xs : List Nat) :
    thirdFailure (xs.take 3) = true ↔ ∃ a b c, xs.take 3 = [a, b, c] ∧ a < c + 10000000000 := by
  match xs with
  | [] | [_] | [_, _] => simp [thirdFailure]
  | a :: b :: c :: rest => simp [thirdFailure]

theorem setBit_true (x : Word) (i : Nat) : setBit x i true = x ||| 1#64 <<< i := by
  have hbit : BitVec.ofNat 64 (2 ^ i) = 1#64 <<< i := BitVec.eq_of_toNat_eq (by simp [Nat.shiftLeft_eq])
  rw [setBit, if_pos rfl, hbit]

theorem laneRetrainEnd_failed_spec (hdue : (s.links.lanes[lane]).retrain = true) :
    ∃ u : State, exec (.laneRetrainEnd lane false now) s = .next u ∧
      let x := s.links.lanes[lane]
      let fails := ((s.at_ now).now :: x.fails).take 3
      ((∀ a b c, fails = [a, b, c] → c + 10000000000 ≤ a) → u.links.laneRet = s.links.laneRet ∧ u.links.lanes = s.links.lanes.set lane
        { x with retrain := false, tries := x.tries + 1, fails := fails, retryAt := some ((s.at_ now).now + 1000000000) }) ∧
      (∀ a b c, fails = [a, b, c] → a < c + 10000000000 → u.links.laneRet = s.links.laneRet ||| 1#64 <<< lane.val ∧
        u.links.lanes = s.links.lanes.set lane { x with retrain := false, tries := x.tries + 1, fails := fails, retryAt := none }) := by
  obtain ⟨u, hu, hkept⟩ := exec_laneRetrainEnd_failed (now := now) hdue
  refine ⟨u, hu, ?_⟩
  intro x fails
  have hlinks := State.links_failLane (s.at_ now) lane
  have hlanes : u.links.lanes = s.links.lanes.set lane (x.failed (s.at_ now).now) := hkept.lanes_eq.trans (by rw [hlinks]; rfl)
  have hret : u.links.laneRet = if x.spent (s.at_ now).now then setBit s.links.laneRet lane.val true else s.links.laneRet :=
    hkept.laneRet_eq.trans (by rw [hlinks]; rfl)
  rw [hlanes, hret]
  refine ⟨fun hold => ?_, fun a b c habc hlt => ?_⟩
  · have hnot : thirdFailure fails = false := by
      refine eq_false_of_ne_true fun hthird => ?_
      obtain ⟨a, b, c, habc, hlt⟩ := (thirdFailure_take _).1 hthird
      exact absurd (hold a b c habc) (Nat.not_le.2 hlt)
    have hspent : x.spent (s.at_ now).now = false := hnot
    rw [hspent]
    exact ⟨rfl, congrArg (s.links.lanes.set lane) (Lane.failed_eq hspent)⟩
  · have hthird : thirdFailure fails = true := (thirdFailure_take _).2 ⟨a, b, c, habc, hlt⟩
    have hspent : x.spent (s.at_ now).now = true := hthird
    rw [hspent]
    exact ⟨setBit_true .., congrArg (s.links.lanes.set lane) (Lane.failed_eq hspent)⟩

theorem laneRetryTimer_spec {t : Nat} (hsome : (s.links.lanes[lane]).retryAt = some t) (ht : t ≤ (s.at_ now).now) :
    ∃ u : State, exec (.laneRetryTimer lane now) s = .next u ∧
      u.links.lanes = s.links.lanes.set lane { s.links.lanes[lane] with retrain := true, retryAt := none } ∧ u.links.laneRet = s.links.laneRet ∧
      ((s.half (s.halfOfLane lane)).state = .up → (s.half (s.halfOfLane lane)).ver = 2 →
        u.half (s.halfOfLane lane) = { s.half (s.halfOfLane lane) with rtcnt := min ((s.half (s.halfOfLane lane)).rtcnt + 1) 0xFFFF } ∧
        u.mem = s.mem ∧ u.tiles = s.tiles) := by
  refine ⟨_, exec_laneRetryTimer_due hsome ht, ?_⟩
  by_cases hup : (s.half (s.halfOfLane lane)).state = .up ∧ (s.half (s.halfOfLane lane)).ver = 2
  · rw [if_pos hup]
    have hkept := PortsKept.noteRetrain ((s.at_ now).unlocked lane) (s.halfOfLane lane)
    have htrained := Trained.noteRetrain ((s.at_ now).unlocked lane) (s.halfOfLane lane)
    exact ⟨hkept.lanes_eq, hkept.laneRet_eq, fun _ _ => ⟨State.half_noteRetrain .., htrained.mem, htrained.tiles⟩⟩
  · rw [if_neg hup]
    have hkept := PortsKept.trainHalf ((s.at_ now).unlocked lane) (s.halfOfLane lane)
    exact ⟨hkept.lanes_eq, hkept.laneRet_eq, fun h2 hver => absurd ⟨h2, hver⟩ hup⟩

end

/-- Settles O40, by what the end of a training, a retrain and a failure leave of a half and of its lanes. -/
theorem portsAndLanes : Obligations.PortsAndLanes := by
  unfold Obligations.PortsAndLanes
  refine ⟨fun s h found now => ⟨exec_portTrainingComplete_notDue, fun htrains hpeer hver => ⟨fun g hgroup => ?_, fun hgroup => ?_⟩,
    portTrainingComplete_down⟩, fun s lane now => ⟨exec_laneRetrainStart_notDue, fun hlive hmay => ?_, exec_laneRetrainEnd_notDue,
      fun hdue => ⟨laneRetrainEnd_ok_spec hdue, laneRetrainEnd_failed_spec hdue⟩, exec_laneRetryTimer_none, fun t hsome =>
      ⟨exec_laneRetryTimer_early hsome, laneRetryTimer_spec hsome⟩⟩⟩
  · obtain ⟨u, hu, hmem, htiles, hengines, ⟨hlanes, hret⟩, hhalf, hquiet⟩ := portTrainingComplete_some (now := now) htrains hpeer hver hgroup
    exact ⟨u, hu, hmem, htiles, hengines, fun l hlo hhi hin => lanes_trainedLanes hlanes hret hlo hhi hin, hhalf, hquiet⟩
  · obtain ⟨u, hu, hstate, hnone, ⟨hlanes, hret⟩, hquiet⟩ := portTrainingComplete_none (now := now) htrains hpeer hver hgroup
    exact ⟨u, hu, hstate, hnone, fun l hlo hhi hin => lanes_trainedLanes hlanes hret hlo hhi hin, hquiet⟩
  · obtain ⟨hup, hbit⟩ := hlive
    have hstate : (s.half (s.halfOfLane lane)).state = .up := by
      rw [State.halfUp, Bool.and_eq_true] at hup
      exact of_decide_eq_true hup.2
    obtain ⟨htrained, hlanes, hrest⟩ := retrainLane_spec (s := s.at_ now) (lane := lane) hstate hmay
    exact ⟨_, exec_laneRetrainStart_due hup hbit, htrained.mem, htrained.tiles, htrained.engines, hlanes, hrest⟩

end Sys2Proof.Machine
end

