-- ==== Sys2Proof/Proofs/ReplayedFrames.lean ====
section
/-!
PROOFS. Frames that go out again, ICMPv6 on Ethernet ports and priority flow control (11 R262, R268, R271, R272).
-/
namespace Sys2Proof.Machine

open Sys2Proof.Claims

/-! ### Replay (11 R268, R272) -/

section
variable {s : State} {h : HalfId} {id : FrameId} {f : SentFrame}

/-- The port carries traffic and the frame's partition sends. -/
theorem framesOpen_iff : (s.halfUp h && s.framesOpen id.pid) = true ↔
    s.halfUp h = true ∧ (s.part id.pid).entry.st = .bound ∧ (s.part id.pid).entry.keyMoult = false := by
  simp only [State.framesOpen, Bool.and_eq_true, decide_eq_true_eq, Bool.not_eq_true']

theorem exec_replay_unbuffered (hnone : (s.half h).replay.find? (fun x => decide (x.id = id)) = none) :
    exec (.frameNak h id) s = .fault (.notDue "FRAME_NAK") ∧ exec (.datagramResend h id) s = .fault (.notDue "DATAGRAM_RESEND") := by
  have hbuf : s.buffered h id = none := hnone
  have hnak : exec (.frameNak h id) s = execFrameNak h id s := rfl
  have hresend : exec (.datagramResend h id) s = execDatagramResend h id s := rfl
  rw [hnak, hresend, execFrameNak, execDatagramResend]
  simp only [hbuf]
  exact ⟨rfl, rfl⟩

section
variable (hf : (s.half h).replay.find? (fun x => decide (x.id = id)) = some f)
include hf

theorem exec_frameNak_buffered : exec (.frameNak h id) s = whenDue (s.halfUp h && s.framesOpen id.pid) "FRAME_NAK" (s.resend h f) := by
  have hbuf : s.buffered h id = some f := hf
  have hnak : exec (.frameNak h id) s = execFrameNak h id s := rfl
  rw [hnak, execFrameNak]
  simp only [hbuf]

theorem exec_datagramResend_buffered : exec (.datagramResend h id) s =
    whenDue (s.halfUp h && s.framesOpen id.pid && f.dgram && decide (f.at_ + 20000 ≤ s.now)) "DATAGRAM_RESEND" (s.resend h f) := by
  have hbuf : s.buffered h id = some f := hf
  have hresend : exec (.datagramResend h id) s = execDatagramResend h id s := rfl
  rw [hresend, execDatagramResend]
  simp only [hbuf]

end

end

/-! ### ICMPv6 (11 R271, R272) -/

section
variable {s : State} {p : PortId}

theorem eq_ethAddress_iff (s : State) (p : PortId) (addr : BitVec 128) : addr = s.ethAddress s.links.modId p ↔
    addr.toNat = (s.links.pfx.toNat * 2 ^ 64 + s.links.modId.toNat * 256 + p.val) % 2 ^ 128 := by
  rw [← BitVec.toNat_inj, State.ethAddress, BitVec.toNat_ofNat]

theorem State.icmp_own {addr : BitVec 128} (hup : s.ethUp p = true) (hown : addr = s.ethAddress s.links.modId p) (answer : List Byte) :
    s.icmp p addr answer = s.emit (.net p answer) := by
  rw [State.icmp, hup, if_neg (by decide), if_pos hown]

theorem State.icmp_other {addr : BitVec 128} (hup : s.ethUp p = true) (hother : addr ≠ s.ethAddress s.links.modId p) (answer : List Byte) :
    s.icmp p addr answer = s.discardFrame := by
  rw [State.icmp, hup, if_neg (by decide), if_neg hother]

theorem State.icmp_down (hup : s.ethUp p = false) (addr : BitVec 128) (answer : List Byte) : s.icmp p addr answer = s := by
  rw [State.icmp, hup, if_pos (by decide)]

theorem exec_neighborSolicitation (s : State) (p : PortId) (addr : BitVec 128) :
    exec (.neighborSolicitation p addr) s = .next (s.icmp p addr (beBytes 16 addr.toNat)) := rfl

theorem exec_echoRequest (s : State) (p : PortId) (addr : BitVec 128) (payload : List Byte) :
    exec (.echoRequest p addr payload) s = .next (s.icmp p addr payload) := rfl

/-! ### Priority flow control (11 R262, R271) -/

/-- The data priority of the port pauses or goes on. -/
def State.paused (s : State) (p : PortId) (pause : Bool) : State := { s with links := { s.links with paused := s.links.paused.set p pause } }

theorem exec_priorityFlowControl_taken (hup : s.ethUp p = true) (hpfc : (s.links.cfg[p]).pfc = true) (pause : Bool) :
    exec (.priorityFlowControl p pause) s = .next (s.paused p pause).pump := by
  have hgo : (s.ethUp p && (s.links.cfg[p]).pfc) = true := by rw [hup, hpfc]; rfl
  exact congrArg Host.Outcome.next (if_pos hgo)

theorem exec_priorityFlowControl_ignored (h : s.ethUp p = false ∨ (s.links.cfg[p]).pfc = false) (pause : Bool) :
    exec (.priorityFlowControl p pause) s = .next s := by
  have hnot : ¬ (s.ethUp p && (s.links.cfg[p]).pfc) = true := by
    rw [Bool.and_eq_true]
    rintro ⟨hup, hpfc⟩
    rcases h with h | h
    · rw [h] at hup
      cases hup
    · rw [h] at hpfc
      cases hpfc
  exact congrArg Host.Outcome.next (if_neg hnot)

theorem priorityFlowControl_spec (hup : s.ethUp p = true) (hpfc : (s.links.cfg[p]).pfc = true) (pause : Bool) :
    ∃ u : State, exec (.priorityFlowControl p pause) s = .next u ∧ u.links.paused = s.links.paused.set p pause ∧ u.mem = s.mem ∧
      u.tiles = s.tiles ∧ (s.links.txq = [] → u = { s with links := { s.links with paused := s.links.paused.set p pause } }) := by
  obtain ⟨_, _, hlinks⟩ := (Steady.pump (s.paused p pause)).links
  have hsent := Sent.pump (s.paused p pause)
  exact ⟨_, exec_priorityFlowControl_taken hup hpfc pause, by rw [hlinks]; rfl, by rw [hsent]; rfl, by rw [hsent]; rfl,
    fun hquiet => State.pump_of_empty (s := s.paused p pause) hquiet⟩

end

end Sys2Proof.Machine
end

