-- ==== Sys2Proof/Proofs/SingleFrames.lean ====
section
/-!
PROOFS. A message of one frame: the half-port it takes, what it leaves of the pair and of the link, or that it waits (11 R264, R265, R266,
R274, R284).
-/
namespace Sys2Proof.Machine

open Sys2Proof.Claims

section
variable {s : State} {p : Pid} {m : ModId} {x : Message} {q : Peer} {k : HalfId} {c : Vc} {n : Nat}

/-! ### The half-port (11 R265, R266) -/

/-- The half has credit for the units of a channel, and its data priority does not pause. -/
def State.hasCredit (s : State) (q : Peer) (c : Vc) (n : Nat) (h : HalfId) : Bool :=
  if (s.cfgOf h).eth then peerRoom q.out c n && !(decide (c ≠ .vs) && s.links.paused[portOf h])
  else linkRoom (s.cfgOf h).split (s.links.half[h]).out c n

theorem State.txHalf_eq (s : State) (p : Pid) (q : Peer) (c : Vc) (n : Nat) : s.txHalf p q c n = (s.halvesTo p q.id).find? (s.hasCredit q c n) := rfl

theorem mem_halvesTo : k ∈ s.halvesTo p m ↔ bit (s.part p).entry.ports k.val = true ∧ (s.half k).state = .up ∧ s.reaches k m = true := by
  simp only [State.halvesTo, List.mem_filter, List.mem_finRange, true_and, Bool.and_eq_true, decide_eq_true_eq, and_assoc]
  rfl

theorem txHalf_spec (hid : q.id = m) (h : s.txHalf p q c n = some k) :
    (bit (s.part p).entry.ports k.val = true ∧ (s.half k).state = .up ∧ s.reaches k m = true) ∧ s.hasCredit q c n k = true := by
  subst hid
  rw [State.txHalf_eq] at h
  exact ⟨mem_halvesTo.1 (List.mem_of_find?_eq_some h), List.find?_some h⟩

/-- The bytes in flight stay below the receive buffers of the other end. -/
theorem linkRoom_bytes {split : Bool} {out : PerVc} (h : linkRoom split out c n = true) :
    (c = .vs → (out.vs + n) * 64 ≤ (if split then 2 ^ 13 else 2 ^ 14)) ∧
      (c ≠ .vs → (out.vd0 + out.vd1 + n) * 64 ≤ (if split then 516096 else 1032192)) := by
  cases c <;> cases split <;> simp only [linkRoom, PerVc.add, PerVc.set, PerVc.get, decide_eq_true_eq, if_true, Bool.false_eq_true, if_false] at h <;>
    simp <;> omega

theorem hasCredit_native (heth : (s.cfgOf k).eth = false) (h : s.hasCredit q c n k = true) :
    linkRoom (s.cfgOf k).split (s.half k).out c n = true := by
  rw [State.hasCredit, heth, if_neg Bool.false_ne_true] at h
  exact h

/-! ### What a frame leaves (11 R264, R265) -/

theorem State.send_lost (hm : s.moults p = false) (hq : s.peer p m = some q) (hl : q.lost ≠ none) : s.send p m x = s := by
  obtain ⟨code, hcode⟩ := Option.ne_none_iff_exists'.1 hl
  unfold State.send
  simp only [hm, Bool.false_and, State.ensurePeer_of_known hq, hq, Option.bind_some, hcode, Option.isSome_some, if_true, Bool.false_eq_true,
    if_false]

section
variable (hx : x.frames = [x]) (hm : s.moults p = false) (ht : s.links.txq = []) (hq : s.peer p m = some q)
include hx hm ht hq

/-- Without keys, key counter or credit the frame waits. -/
theorem State.send_one_waits (hl : q.lost = none) (hwait : q.keyed = false ∨ 2 ^ 40 ≤ q.frames ∨ s.txHalf p q x.vc (unitsOf x.payload) = none) :
    s.send p m x = s.queueOne p m x := by
  rw [State.send_one hx hm ht hq hl]
  refine State.pump_queueOne_waits ?_
  have hq' : (s.queueOne p m x).peer p m = some q := hq
  have htx : (s.queueOne p m x).txHalf p q x.vc (unitsOf x.payload) = s.txHalf p q x.vc (unitsOf x.payload) := rfl
  simp only [State.trySend, hq', htx]
  rcases hwait with hk | hfr | hnone
  · simp [hk]
  · rw [decide_eq_true hfr, Bool.or_true, if_pos rfl]
  · simp [hnone]

/-- With them it goes out. -/
theorem State.send_one_goes (hl : q.lost = none) (hk : q.keyed = true) (hfr : q.frames < 2 ^ 40) (htx : s.txHalf p q x.vc (unitsOf x.payload) = some k) :
    s.send p m x = { (s.queueOne p m x).transmit { pid := p, peer := m, msg := x } q k with
      links := { ((s.queueOne p m x).transmit { pid := p, peer := m, msg := x } q k).links with txq := [] } } := by
  have hq' : (s.queueOne p m x).peer p m = some q := hq
  have htx' : (s.queueOne p m x).txHalf p q x.vc (unitsOf x.payload) = some k := htx
  have hgo : (s.queueOne p m x).trySend { pid := p, peer := m, msg := x } =
      some ((s.queueOne p m x).transmit { pid := p, peer := m, msg := x } q k) := by
    simp only [State.trySend, hq', hk, Bool.not_true, Bool.false_or, decide_eq_false (Nat.not_le.2 hfr), htx', Option.map_some]
    rfl
  rw [State.send_one hx hm ht hq hl, State.pump_queueOne_goes hgo]

end

/-- The link takes the frame's credit, the pair counts it; every other half stays. -/
theorem half_transmit (s : State) (y : TxItem) (q : Peer) (k : HalfId) :
    (((s.transmit y q k).half k).out = if (s.cfgOf k).eth then (s.half k).out else (s.half k).out.add y.msg.vc (unitsOf y.msg.payload)) ∧
      ∀ h, h ≠ k → (s.transmit y q k).half h = s.half h := by
  unfold State.transmit
  extract_lets c n eth hp back hd f v
  have hhalf (h : HalfId) : ((v.modPeer y.pid y.peer fun y => { y with
      frames := y.frames + 1, tx := y.tx.add c 1, out := if eth then y.out.add c n else y.out,
      owed := if back && eth then PerVc.zero else y.owed }).emit (.frame hd y.msg)).half h = v.half h := rfl
  refine ⟨?_, fun h hne => ?_⟩
  · rw [hhalf, State.half_setHalf]
  · rw [hhalf, State.half_setHalf_ne _ hne]

theorem peer_transmit {y : TxItem} (hq : s.peer y.pid y.peer = some q) (r : Peer) (k : HalfId) :
    ∃ o, (s.transmit y r k).peer y.pid y.peer = some { q with
      frames := q.frames + 1, tx := q.tx.add y.msg.vc 1, owed := o,
      out := if (s.cfgOf k).eth then q.out.add y.msg.vc (unitsOf y.msg.payload) else q.out } := by
  unfold State.transmit
  extract_lets c n eth hp back hd f v
  have hpeer : v.peer y.pid y.peer = some q := hq
  refine ⟨if back && eth then PerVc.zero else q.owed, ?_⟩
  refine (State.peer_modPeer (s := v) (p := y.pid) (m := y.peer) (f := fun y => { y with
    frames := y.frames + 1, tx := y.tx.add c 1, out := if eth then y.out.add c n else y.out,
    owed := if back && eth then PerVc.zero else y.owed }) fun _ => rfl).trans ?_
  rw [hpeer]
  rfl

theorem output_transmit (s : State) (p : Pid) (m : ModId) (x : Message) (q : Peer) (k : HalfId) :
    ∃ hd, (s.transmit { pid := p, peer := m, msg := x } q k).outputs = .frame hd x :: s.outputs ∧ hd.half = k ∧ Heads s hd p m x.vc x.payload q ∧
      (hd.net = none ↔ (s.cfgOf k).eth = false) := by
  refine ⟨_, rfl, rfl, ⟨rfl, rfl, rfl, rfl, rfl, rfl⟩, ?_⟩
  cases h : (s.cfgOf k).eth with
  | false => simp only [Bool.false_eq_true, if_false]
  | true => simp only [if_true, reduceCtorEq, Bool.true_eq_false]

/-- The frame leaves under its header, and takes a number, a count of the key and its credit; nothing else changes. -/
theorem send_one_spec (hx : x.frames = [x]) (hm : s.moults p = false) (ht : s.links.txq = []) (hq : s.peer p m = some q) (hl : q.lost = none)
    (hk : q.keyed = true) (hfr : q.frames < 2 ^ 40) (htx : s.txHalf p q x.vc (unitsOf x.payload) = some k) :
    let u := s.send p m x
    let eth := (s.cfgOf k).eth
    u.links.txq = [] ∧ (∃ hd, u.outputs = .frame hd x :: s.outputs ∧ hd.half = k ∧ Heads s hd p m x.vc x.payload q ∧ (hd.net = none ↔ eth = false)) ∧
      (u.peer p m).map (fun y => (y.frames, y.tx)) = some (q.frames + 1, q.tx.add x.vc 1) ∧
      (u.half k).out = (if eth then (s.half k).out else (s.half k).out.add x.vc (unitsOf x.payload)) ∧
      (u.peer p m).map (·.out) = some (if eth then q.out.add x.vc (unitsOf x.payload) else q.out) ∧ (∀ h, h ≠ k → u.half h = s.half h) ∧
      u.mem = s.mem ∧ u.tiles = s.tiles ∧ u.sync = s.sync := by
  intro u eth
  obtain ⟨hout, hothers⟩ := half_transmit (s.queueOne p m x) { pid := p, peer := m, msg := x } q k
  obtain ⟨o, hpeer⟩ := peer_transmit (s := s.queueOne p m x) (y := { pid := p, peer := m, msg := x }) hq q k
  obtain ⟨hd, houtputs, hrest⟩ := output_transmit (s.queueOne p m x) p m x q k
  have hsent := Sent.send s p m x
  have hu := State.send_one_goes hx hm ht hq hl hk hfr htx
  refine ⟨by rw [show u = _ from hu], ⟨hd, (congrArg State.outputs hu).trans houtputs, hrest⟩, ?_, ?_, ?_, fun h hne => ?_,
    by rw [show u = _ from hsent], by rw [show u = _ from hsent], by rw [show u = _ from hsent]⟩
  · have hentry : u.peer p m = _ := (congrArg (State.peer · p m) hu).trans hpeer
    rw [hentry]
    rfl
  · exact (congrArg (fun w => (State.half w k).out) hu).trans hout
  · have hentry : u.peer p m = _ := (congrArg (State.peer · p m) hu).trans hpeer
    rw [hentry]
    rfl
  · exact (congrArg (State.half · h) hu).trans (hothers h hne)

end

end Sys2Proof.Machine
end

