-- ==== Sys2Proof/Proofs/FrameGates.lean ====
section
/-!
PROOFS. Frames as they arrive: what discards them, what asks for them again, and how a failed tag is counted (11 R264, R265, R266, R271,
R275; 14 R334).
-/
namespace Sys2Proof.Machine

open Sys2Proof.Claims

section
variable {s : State} {h : HalfId} {f : Frame} {now : Nat} {p : Pid} {q : Peer}

/-! ### The gates of FRAME_RECEIPT -/

/-- The frame's carrier is the port's and its payload is within 512 B. -/
def Fits (s : State) (h : HalfId) (f : Frame) : Prop :=
  ((f.carrier = .native ∧ (s.cfgOf h).eth = false) ∨ (f.carrier = .datagram ∧ (s.cfgOf h).eth = true)) ∧ f.payload ≤ 512

theorem misfit_iff : (badCarrier (s.cfgOf h).eth f.carrier || decide (frameMax < f.payload)) = true ↔ ¬ Fits s h f := by
  have hcarrier : badCarrier (s.cfgOf h).eth f.carrier = true ↔
      ¬ ((f.carrier = .native ∧ (s.cfgOf h).eth = false) ∨ (f.carrier = .datagram ∧ (s.cfgOf h).eth = true)) := by
    cases f.carrier <;> simp [badCarrier]
  rw [Bool.or_eq_true, hcarrier, decide_eq_true_eq, Fits, not_and_or, Nat.not_le]
  rfl

theorem exec_frameReceipt_down (hup : s.halfUp h = false) : exec (.frameReceipt h f now) s = .fault (.notDue "FRAME_RECEIPT") := by
  have hgate : (!s.halfUp h) = true := by rw [hup]; rfl
  exact if_pos hgate

section
variable (hup : s.halfUp h = true)
include hup

theorem exec_frameReceipt_misfit (hfits : ¬ Fits s h f) : exec (.frameReceipt h f now) s = .next (s.at_ now).discardFrame := by
  have hgate : ¬ (!s.halfUp h) = true := by rw [hup]; exact Bool.false_ne_true
  exact (if_neg hgate).trans (if_pos (misfit_iff.2 hfits))

variable (hfits : Fits s h f)
include hfits

theorem exec_frameReceipt_spoiled (hcrc : f.crcOk = false) : exec (.frameReceipt h f now) s = .next ((s.at_ now).askAgain h f) := by
  have hgate : ¬ (!s.halfUp h) = true := by rw [hup]; exact Bool.false_ne_true
  have hbad : (!f.crcOk) = true := by rw [hcrc]; rfl
  exact (if_neg hgate).trans ((if_neg (not_not.2 hfits ∘ misfit_iff.1)).trans (if_pos hbad))

variable (hcrc : f.crcOk = true)
include hcrc

/-- A credit frame of no job returns credits to the link. -/
theorem exec_frameReceipt_credit_jobless (hbody : f.body = .credit) (hjob : s.partOfJob f.jobTag = none) : exec (.frameReceipt h f now) s =
    .next ((s.at_ now).setHalf h fun y => { y with out := y.out.minus f.credits }).pump := by
  have hgate : ¬ (!s.halfUp h) = true := by rw [hup]; exact Bool.false_ne_true
  have hgood : ¬ (!f.crcOk) = true := by rw [hcrc]; exact Bool.false_ne_true
  have hv : (s.at_ now).partOfJob f.jobTag = none := hjob
  refine (if_neg hgate).trans ((if_neg (not_not.2 hfits ∘ misfit_iff.1)).trans ((if_neg hgood).trans ((if_pos hbody).trans ?_)))
  simp only [hv]

/-- One of a job returns them to the link, or on Ethernet to the pair. -/
theorem exec_frameReceipt_credit (hbody : f.body = .credit) (hjob : s.partOfJob f.jobTag = some p) : exec (.frameReceipt h f now) s =
    .next ((s.at_ now).takeCredits p f.src h f.credits).pump := by
  have hgate : ¬ (!s.halfUp h) = true := by rw [hup]; exact Bool.false_ne_true
  have hgood : ¬ (!f.crcOk) = true := by rw [hcrc]; exact Bool.false_ne_true
  have hv : (s.at_ now).partOfJob f.jobTag = some p := hjob
  refine (if_neg hgate).trans ((if_neg (not_not.2 hfits ∘ misfit_iff.1)).trans ((if_neg hgood).trans ((if_pos hbody).trans ?_)))
  simp only [hv]

variable (hbody : f.body ≠ .credit)
include hbody

theorem exec_frameReceipt_early (horder : (s.at_ now).frameInOrder f = false) :
    exec (.frameReceipt h f now) s = .fault (.notDue "FRAME_RECEIPT") := by
  have hgate : ¬ (!s.halfUp h) = true := by rw [hup]; exact Bool.false_ne_true
  have hgood : ¬ (!f.crcOk) = true := by rw [hcrc]; exact Bool.false_ne_true
  have hearly : (!(s.at_ now).frameInOrder f) = true := by rw [horder]; rfl
  exact (if_neg hgate).trans ((if_neg (not_not.2 hfits ∘ misfit_iff.1)).trans ((if_neg hgood).trans ((if_neg hbody).trans (if_pos hearly))))

theorem exec_frameReceipt_delivered (horder : (s.at_ now).frameInOrder f = true) :
    exec (.frameReceipt h f now) s = .next ((s.at_ now).deliver h f) := by
  have hgate : ¬ (!s.halfUp h) = true := by rw [hup]; exact Bool.false_ne_true
  have hgood : ¬ (!f.crcOk) = true := by rw [hcrc]; exact Bool.false_ne_true
  have htime : ¬ (!(s.at_ now).frameInOrder f) = true := by rw [horder]; exact Bool.false_ne_true
  exact (if_neg hgate).trans ((if_neg (not_not.2 hfits ∘ misfit_iff.1)).trans ((if_neg hgood).trans ((if_neg hbody).trans (if_neg htime))))

end

/-! ### Discarded frames (11 R266; 14 R334) -/

/-- u differs from s in links and messages alone, and counts what s counts. -/
structure RoomFreed (s u : State) : Prop where
  frame : u = { s with links := u.links, outputs := u.outputs }
  discards : u.links.discards = s.links.discards

theorem RoomFreed.freeLink (s : State) (h : HalfId) (c : Vc) (n : Nat) : RoomFreed s (s.freeLink h c n) := by
  unfold State.freeLink
  extract_lets v wait
  split
  · exact ⟨rfl, rfl⟩
  · exact ⟨rfl, rfl⟩

theorem RoomFreed.freeRoom (s : State) (h : HalfId) (f : Frame) : RoomFreed s (s.freeRoom h f) := by
  unfold State.freeRoom
  split
  · exact ⟨rfl, rfl⟩
  · exact RoomFreed.freeLink ..

theorem deliver_other (hdst : f.dst ≠ s.links.modId) : s.deliver h f = s.discardFrame.freeRoom h f := if_pos hdst

theorem deliver_jobless (hdst : f.dst = s.links.modId) (hjob : s.partOfJob f.jobTag = none) : s.deliver h f = (s.moultFrame f).freeRoom h f := by
  unfold State.deliver
  rw [if_neg (not_not.2 hdst), hjob]

theorem moultFrame_unknown (hmoult : s.moultOfJob f.jobTag = none) : s.moultFrame f = s.discardFrame := by
  have hv : s.discardFrame.moultOfJob f.jobTag = none := hmoult
  unfold State.moultFrame
  simp only [hv]

/-- The refusal of a remote operation leaves the count of discarded frames. -/
theorem moultFrame_spec (s : State) (f : Frame) : Sent s.discardFrame (s.moultFrame f) ∧
    (s.moultFrame f).links.discards = s.discardFrame.links.discards := by
  have hsend (p : Pid) (m : ModId) (x : Message) :
      Sent s.discardFrame (s.discardFrame.send p m x) ∧ (s.discardFrame.send p m x).links.discards = s.discardFrame.links.discards := by
    obtain ⟨_, _, hlinks⟩ := (Steady.send s.discardFrame p m x).links
    exact ⟨Sent.send .., by rw [hlinks]⟩
  unfold State.moultFrame
  extract_lets v
  split
  · exact hsend ..
  · exact hsend ..
  · exact ⟨Sent.refl _, rfl⟩

/-! ### Failed tags (11 R275) -/

/-- One more failed tag. -/
def State.authFailed (s : State) : State := { s with links := { s.links with authFail := satAdd s.links.authFail 1 } }

/-- A failed tag is counted, for the module and for the source, and the frame asked for again. -/
def State.untrusted (s : State) (p : Pid) (port : HalfId) (f : Frame) : State :=
  ((s.authFailed.ensurePeer p f.src).modPeer p f.src fun q => { q with fails := q.fails + 1 }).askAgain port f

theorem State.peer_untrusted (s : State) (p : Pid) (port : HalfId) (f : Frame) : (s.untrusted p port f).peer p f.src =
    some { (s.peer p f.src).getD (Peer.fresh f.src s.now) with fails := ((s.peer p f.src).getD (Peer.fresh f.src s.now)).fails + 1 } := by
  have hv : (s.authFailed.ensurePeer p f.src).peer p f.src = some ((s.peer p f.src).getD (Peer.fresh f.src s.now)) :=
    State.peer_ensurePeer s.authFailed p f.src
  refine (State.peer_modPeer (s := s.authFailed.ensurePeer p f.src) (p := p) (m := f.src) (f := fun q => { q with fails := q.fails + 1 })
    fun _ => rfl).trans ?_
  rw [hv]
  rfl

/-- The sixteenth failure in a row loses the peer, one that is not lost yet. -/
theorem State.tagFailure_eq {r : Peer} (hr : (s.untrusted p h f).peer p f.src = some r) :
    s.tagFailure p h f = if 16 ≤ r.fails then (s.untrusted p h f).losePeer p f.src 3 else s.untrusted p h f := by
  have hdef : s.tagFailure p h f = match (s.untrusted p h f).peer p f.src with
    | none => s.untrusted p h f
    | some q => if 16 ≤ q.fails then (s.untrusted p h f).losePeer p f.src 3 else s.untrusted p h f := rfl
  rw [hdef, hr]

theorem State.losePeer_lost {m : ModId} {r : Peer} (hr : s.peer p m = some r) (hlost : r.lost ≠ none) (cause : Nat) : s.losePeer p m cause = s := by
  obtain ⟨code, hcode⟩ := Option.ne_none_iff_exists'.1 hlost
  have hpeer : (s.peerLost p m).isSome = true := by rw [State.peerLost_eq, hr, Option.bind_some, hcode]; rfl
  exact if_pos hpeer

/-- A peer that is lost has the code E_PEER_LOST from then on. -/
theorem State.peerLost_losePeer {m : ModId} {r : Peer} (hr : s.peer p m = some r) (hlost : r.lost = none) (cause : Nat) :
    (s.losePeer p m cause).peerLost p m = some 0x0302 := by
  have hnot : ¬ (s.peerLost p m).isSome = true := by rw [State.peerLost_eq, hr, Option.bind_some, hlost]; exact Bool.false_ne_true
  unfold State.losePeer
  rw [if_neg hnot]
  extract_lets v
  have hv : v.peer p m = some { r with lost := some ePeerLost, suspended := none, rekey := false, early := [] } := by
    refine (State.peer_modPeer (s := s.ensurePeer p m) (p := p) (m := m)
      (f := fun q => { q with lost := some ePeerLost, suspended := none, rekey := false, early := [] }) fun _ => rfl).trans ?_
    rw [State.peer_ensurePeer, hr]
    rfl
  obtain ⟨w, hw, -, hwlost⟩ := (((Steady.endPeer v p m ePeerLost).trans (Steady.raiseBoth ..)).trans (Steady.linkRotated _ p)).peer p m _ hv
  rw [State.peerLost_eq, hw]
  exact hwlost

end

end Sys2Proof.Machine
end

