-- ==== Sys2Proof/Proofs/CountedPeers.lean ====
section
/-!
PROOFS. What sending and freed room leave of the entries of peers: their key's count, their numbers and their credits alone move; and credits
that come back, which never close a half-port (11 R264, R265, R272).
-/
namespace Sys2Proof.Machine

open Sys2Proof.Claims

/-- The peers of s are in u as they were, but for their key's count, the numbers sent and the credits. -/
def PeersCounted (s u : State) : Prop :=
  ∀ p m q, s.peer p m = some q → ∃ n t o w, u.peer p m = some { q with frames := n, tx := t, out := o, owed := w }

namespace PeersCounted

theorem refl (s : State) : PeersCounted s s := fun _ _ _ hq => ⟨_, _, _, _, hq⟩

theorem trans {s t u : State} (a : PeersCounted s t) (b : PeersCounted t u) : PeersCounted s u := fun p m q hq => by
  obtain ⟨_, _, _, _, ht⟩ := a p m q hq
  obtain ⟨_, _, _, _, hu⟩ := b p m _ ht
  exact ⟨_, _, _, _, hu⟩

theorem of_parts {s u : State} (h : u.parts = s.parts) : PeersCounted s u := fun p m q hq =>
  ⟨q.frames, q.tx, q.out, q.owed, (State.peer_congr (by rw [State.part, h, State.part]) m).trans hq⟩

theorem ite {c : Prop} [Decidable c] {s a b : State} (ha : PeersCounted s a) (hb : PeersCounted s b) : PeersCounted s (if c then a else b) := by
  split
  · exact ha
  · exact hb

theorem modPeer (s : State) (p : Pid) (m : ModId) (f : Peer → Peer) (hf : ∀ q, ∃ n t o w, f q = { q with frames := n, tx := t, out := o, owed := w }) :
    PeersCounted s (s.modPeer p m f) := fun k l q hq => by
  have hid (q : Peer) : (f q).id = q.id := by
    obtain ⟨_, _, _, _, hq⟩ := hf q
    rw [hq]
  obtain ⟨n, t, o, w, hfq⟩ := hf q
  by_cases hk : k = p
  · subst hk
    by_cases hl : l = m
    · subst hl
      exact ⟨n, t, o, w, by rw [State.peer_modPeer hid, hq, Option.map_some, hfq]⟩
    · exact ⟨q.frames, q.tx, q.out, q.owed, by rw [State.peer_modPeer_ne hl hid, hq]⟩
  · exact ⟨q.frames, q.tx, q.out, q.owed, (State.peer_congr (congrArg _ (State.part_modPart_ne _ _ _ _ hk)) l).trans hq⟩

theorem ensurePeer (s : State) (p : Pid) (m : ModId) : PeersCounted s (s.ensurePeer p m) := fun k l q hq => by
  refine ⟨q.frames, q.tx, q.out, q.owed, ?_⟩
  by_cases hk : k = p
  · subst hk
    exact State.peer_ensurePeer_of_known hq
  · cases hm : s.peer p m with
    | some _ => rw [State.ensurePeer_of_known hm, hq]
    | none =>
      rw [State.ensurePeer_of_unknown hm]
      exact (State.peer_congr (congrArg _ (State.part_modPart_ne _ _ _ _ hk)) l).trans hq

theorem transmit (s : State) (x : TxItem) (q : Peer) (h : HalfId) : PeersCounted s (s.transmit x q h) := by
  unfold State.transmit
  extract_lets c n eth hp back hd f v
  have hv : PeersCounted s v := of_parts rfl
  exact (hv.trans (modPeer v x.pid x.peer _ fun _ => ⟨_, _, _, _, rfl⟩)).trans (of_parts rfl)

theorem pump (s : State) : PeersCounted s s.pump := by
  refine State.pump_induction (refl s) (fun t u x ht hu => ?_) fun t xs ht => ht.trans (of_parts rfl)
  obtain ⟨q, k, -, -, -, -, rfl⟩ := State.trySend_eq_some hu
  exact ht.trans (transmit t x q k)

theorem send (s : State) (p : Pid) (m : ModId) (x : Message) : PeersCounted s (s.send p m x) := by
  unfold State.send
  refine ite (refl s) ?_
  have hmore (t : State) (xs : List TxItem) : PeersCounted t { t with links := { t.links with txq := xs } }.pump := by
    have hq : PeersCounted t { t with links := { t.links with txq := xs } } := of_parts rfl
    exact hq.trans (pump _)
  exact (ensurePeer s p m).trans (ite (refl _) (hmore _ _))

theorem freePeer (s : State) (p : Pid) (m : ModId) (c : Vc) (n : Nat) : PeersCounted s (s.freePeer p m c n) := by
  unfold State.freePeer
  extract_lets v
  have hv : PeersCounted s v := modPeer s p m _ fun _ => ⟨_, _, _, _, rfl⟩
  split
  · exact hv
  · refine ite hv (hv.trans ?_)
    exact (modPeer v p m _ fun _ => ⟨_, _, _, _, rfl⟩).trans (of_parts rfl)

theorem freeLink (s : State) (h : HalfId) (c : Vc) (n : Nat) : PeersCounted s (s.freeLink h c n) := by
  unfold State.freeLink
  extract_lets v wait
  exact ite (of_parts rfl) (of_parts rfl)

theorem freeUnits (s : State) (p : Pid) (m : ModId) (h : HalfId) (c : Vc) (n : Nat) : PeersCounted s (s.freeUnits p m h c n) :=
  ite (freePeer s p m c n) (freeLink s h c n)

theorem sendPfc (s : State) (h : HalfId) : PeersCounted s (s.sendPfc h) := by
  unfold State.sendPfc
  dsimp only
  exact ite (refl s) (of_parts rfl)

end PeersCounted

/-! ### Messages stay sent -/

/-- The messages of s are among those of u. -/
theorem outputs_pump (s : State) : s.outputs ⊆ s.pump.outputs := by
  refine State.pump_induction (motive := fun t => s.outputs ⊆ t.outputs) (List.Subset.refl _) (fun t u x ht hu => ?_) fun t xs ht => ht
  obtain ⟨q, k, -, -, -, -, rfl⟩ := State.trySend_eq_some hu
  exact List.Subset.trans ht (List.subset_cons_self _ _)

theorem outputs_freeUnits (s : State) (p : Pid) (m : ModId) (h : HalfId) (c : Vc) (n : Nat) : s.outputs ⊆ (s.freeUnits p m h c n).outputs := by
  unfold State.freeUnits State.freePeer State.freeLink
  dsimp only
  split
  · split
    · exact List.Subset.refl _
    · split
      · exact List.Subset.refl _
      · exact List.subset_cons_self _ _
  · split
    · exact List.Subset.refl _
    · exact List.subset_cons_self _ _

theorem outputs_sendPfc (s : State) (h : HalfId) : s.outputs ⊆ (s.sendPfc h).outputs := by
  unfold State.sendPfc
  dsimp only
  split
  · exact List.Subset.refl _
  · exact List.subset_cons_self _ _

/-! ### Credits that come back (11 R265, R272) -/

theorem linkRoom_minus {split : Bool} {out : PerVc} {c : Vc} {n : Nat} (h : linkRoom split out c n = true) (x : PerVc) :
    linkRoom split (out.minus x) c n = true := by
  cases c <;>
  · have hroom := of_decide_eq_true h
    refine decide_eq_true ?_
    simp only [PerVc.add, PerVc.set, PerVc.get, PerVc.minus] at hroom ⊢
    omega

theorem peerRoom_minus {out : PerVc} {c : Vc} {n : Nat} (h : peerRoom out c n = true) (x : PerVc) : peerRoom (out.minus x) c n = true := by
  have hroom := of_decide_eq_true h
  refine decide_eq_true ?_
  cases c <;> simp only [PerVc.add, PerVc.set, PerVc.get, PerVc.minus] at hroom ⊢ <;> omega

end Sys2Proof.Machine
end

