-- ==== Sys2Proof/Proofs/QuietOperations.lean ====
section
/-!
PROOFS. Operations on an object that nobody waits at: the code and the object afterwards, as the table of operations has them (10 R244, R246).
-/
namespace Sys2Proof.Machine

open Sys2Proof.Claims

/-! ### Word 0 of an object (10 R244) -/

/-- Upper half kept, lower half replaced. -/
theorem toNat_objSet0 (x : BitVec 128) (w : Word) : (objSet0 x w).toNat = x.toNat / 2 ^ 64 * 2 ^ 64 + w.toNat := by
  have hx := x.isLt
  have hw := w.isLt
  have hhigh : (BitVec.setWidth 128 (wordOf x 1) <<< 64).toNat = x.toNat / 2 ^ 64 * 2 ^ 64 := by
    simp only [wordOf, BitVec.toNat_shiftLeft, BitVec.toNat_setWidth, BitVec.toNat_ofNat, Nat.shiftRight_eq_div_pow, Nat.shiftLeft_eq, Nat.mul_one]
    omega
  have hlow : (BitVec.setWidth 128 w).toNat = w.toNat := by
    rw [BitVec.toNat_setWidth]
    omega
  rw [objSet0, BitVec.toNat_or, hhigh, hlow, Nat.mul_comm, ← Nat.two_pow_add_eq_or_of_lt hw]

theorem objSet0_eq (x : BitVec 128) (w : Word) : objSet0 x w = (x >>> 64 <<< 64) ||| BitVec.setWidth 128 w := by
  have hx := x.isLt
  have hword : BitVec.setWidth 128 (wordOf x 1) = x >>> 64 := BitVec.eq_of_toNat_eq (by
    simp only [wordOf, BitVec.toNat_setWidth, BitVec.toNat_ofNat, Nat.mul_one, BitVec.toNat_ushiftRight, Nat.shiftRight_eq_div_pow]
    omega)
  rw [objSet0, hword]

theorem objKind_objSet0 (x : BitVec 128) (w : Word) : objKind (objSet0 x w) = objKind x := by
  have hw := w.isLt
  simp only [objKind, bits_eq_div_mod, toNat_objSet0]
  omega

theorem objCount_objSet0 (x : BitVec 128) (w : Word) : objCount (objSet0 x w) = w.toNat % 2 ^ 32 := by
  simp only [objCount, bits_eq_div_mod, toNat_objSet0]
  omega

theorem objSet0_objSet0 (x : BitVec 128) (v w : Word) : objSet0 (objSet0 x v) w = objSet0 x w := by
  have hv := v.isLt
  refine BitVec.eq_of_toNat_eq ?_
  simp only [toNat_objSet0]
  omega

theorem objWord_eq (x : BitVec 128) : objWord x = BitVec.setWidth 64 x := by
  refine BitVec.eq_of_toNat_eq ?_
  simp [objWord, wordOf]

/-! ### Nobody waits (10 R246) -/

section
variable {s : State} {o : Nat}

theorem serveTakes_none {ws : List SyncWait} (h : ∀ w ∈ ws, w.obj ≠ o) (n : Nat) : serveTakes ws o n = (n, [], ws) := by
  induction ws with
  | nil => rfl
  | cons w ws ih =>
    obtain ⟨hw, hws⟩ := List.forall_mem_cons.1 h
    rw [serveTakes]
    split
    · rw [if_neg hw, ih hws]
    · rw [ih hws]

/-- Waking at an object where nobody waits leaves at most a semaphore's count stored again. -/
theorem State.wake_none (h : ∀ w ∈ s.sync.waits, w.obj ≠ o) :
    s.wake o = if objKind (s.obj o) = 0 then s.setObj o (objSet0 (s.obj o) (BitVec.ofNat 64 (objCount (s.obj o)))) else s := by
  have hnot (w : SyncWait) (hw : w ∈ s.sync.waits) : (decide (w.obj = o) && condHolds w.op (objWord (s.obj o))) = false := by simp [h w hw]
  have hnone : (s.sync.waits.filter fun w => decide (w.obj = o) && condHolds w.op (objWord (s.obj o))) = [] :=
    List.filter_eq_nil_iff.2 fun w hw => by simp [hnot w hw]
  have hstay : (s.sync.waits.filter fun w => !(decide (w.obj = o) && condHolds w.op (objWord (s.obj o)))) = s.sync.waits :=
    List.filter_eq_self.2 fun w hw => by simp [hnot w hw]
  simp only [State.wake, serveTakes_none h, hnone, hstay, List.foldl_nil]
  rfl

/-- A store to an object that nobody waits at, and the waking that follows it. -/
theorem State.wake_setObj (hwf : Tab.wf (0 : BitVec 128) s.sync.objs = true) (h : ∀ w ∈ s.sync.waits, w.obj ≠ o) {w : Word}
    (hcount : objKind (s.obj o) = 0 → w.toNat < 2 ^ 32) : let x := objSet0 (s.obj o) w
    ((s.setObj o x).wake o).obj o = x ∧ (∀ k, k ≠ o → ((s.setObj o x).wake o).obj k = s.obj k) ∧
      ∃ y, (s.setObj o x).wake o = { s with sync := y } := by
  intro x
  have hwf' : Tab.wf (0 : BitVec 128) (s.setObj o x).sync.objs = true := Tab.wf_put 0 _ o x hwf
  have hobj (k : Nat) : (s.setObj o x).obj k = if k = o then x else s.obj k := State.obj_setObj hwf o k x
  have hself : (s.setObj o x).obj o = x := by rw [hobj, if_pos rfl]
  rw [State.wake_none (s := s.setObj o x) h, hself, objKind_objSet0]
  split
  · next hkind =>
    have hagain : objSet0 x (BitVec.ofNat 64 (objCount x)) = x := by
      have hlt := hcount hkind
      have hw : BitVec.ofNat 64 (objCount x) = w := BitVec.eq_of_toNat_eq (by rw [objCount_objSet0, BitVec.toNat_ofNat]; omega)
      rw [hw, objSet0_objSet0]
    rw [hagain]
    refine ⟨?_, fun k hk => ?_, _, rfl⟩
    · rw [State.obj_setObj hwf', if_pos rfl]
    · rw [State.obj_setObj hwf', if_neg hk, hobj, if_neg hk]
  · exact ⟨hself, fun k hk => by rw [hobj, if_neg hk], _, rfl⟩

/-- An operation that does not wait, at an object that nobody waits at. -/
theorem State.applyOp_quiet {op : SyncOp} {r : BitVec 16 × BitVec 128} (p : Pid) (issue : Nat) (hop : notArrive op) (hposts : opWaits op = false)
    (hfence : s.fenced .syncBlock (o / 1024) = false) (hwf : Tab.wf (0 : BitVec 128) s.sync.objs = true) (h : ∀ w ∈ s.sync.waits, w.obj ≠ o)
    (hr : syncOutcome op (s.obj o) = some r) : ∃ y, s.applyOp p o op none issue = ({ s with sync := y }, some r.1) ∧
      ({ s with sync := y } : State).obj o = r.2 ∧ ∀ k, k ≠ o → ({ s with sync := y } : State).obj k = s.obj k := by
  have hexp : s.expireWaits o s.now = s := State.expireWaits_inTime fun w hw ho => absurd ho (h w hw)
  have hgo : ¬ s.fenced .syncBlock (o / 1024) = true := by rw [hfence]; exact Bool.false_ne_true
  have hstays {c : BitVec 16} (heq : s.applyOp p o op none issue = (s, some c)) (hc : (c, s.obj o) = r) :
      ∃ y, s.applyOp p o op none issue = ({ s with sync := y }, some r.1) ∧
        ({ s with sync := y } : State).obj o = r.2 ∧ ∀ k, k ≠ o → ({ s with sync := y } : State).obj k = s.obj k := by
    subst hc
    exact ⟨s.sync, heq, rfl, fun _ _ => rfl⟩
  have hstores {w : Word} (heq : s.applyOp p o op none issue = ((s.setObj o (objSet0 (s.obj o) w)).wake o, some cOk))
      (hcount : objKind (s.obj o) = 0 → w.toNat < 2 ^ 32) (hc : (0, objSet0 (s.obj o) w) = r) :
      ∃ y, s.applyOp p o op none issue = ({ s with sync := y }, some r.1) ∧
        ({ s with sync := y } : State).obj o = r.2 ∧ ∀ k, k ≠ o → ({ s with sync := y } : State).obj k = s.obj k := by
    subst hc
    obtain ⟨hself, hothers, y, hy⟩ := State.wake_setObj hwf h hcount
    rw [hy] at heq hself hothers
    exact ⟨y, heq, hself, hothers⟩
  unfold State.applyOp at hstays hstores ⊢
  rw [hexp] at hstays hstores ⊢
  simp only [if_neg hgo] at hstays hstores ⊢
  cases op with
  | signal n =>
    have hcode := Option.some.inj hr
    by_cases hk : objKind (s.obj o) ≠ 0
    · exact hstays (if_pos hk) ((if_pos hk).symm.trans hcode)
    · by_cases hbig : 0xFFFFFFFF < objCount (s.obj o) + n.toNat
      · exact hstays ((if_neg hk).trans (if_pos hbig)) (((if_neg hk).trans (if_pos hbig)).symm.trans hcode)
      · have hword : (BitVec.ofNat 64 (objCount (s.obj o) + n.toNat)).toNat < 2 ^ 32 := by
          rw [BitVec.toNat_ofNat]
          omega
        refine hstores ((if_neg hk).trans (if_neg hbig)) (fun _ => hword) ?_
        rw [objSet0_eq]
        exact ((if_neg hk).trans (if_neg hbig)).symm.trans hcode
  | setf m =>
    have hcode := Option.some.inj hr
    by_cases hk : objKind (s.obj o) ≠ 2
    · exact hstays (if_pos hk) ((if_pos hk).symm.trans hcode)
    · refine hstores (if_neg hk) (fun h0 => absurd (h0.symm.trans (not_not.1 hk)) (by decide)) ?_
      rw [objSet0_eq, objWord_eq]
      exact (if_neg hk).symm.trans hcode
  | clrf m =>
    have hcode := Option.some.inj hr
    by_cases hk : objKind (s.obj o) ≠ 2
    · exact hstays (if_pos hk) ((if_pos hk).symm.trans hcode)
    · refine hstores (if_neg hk) (fun h0 => absurd (h0.symm.trans (not_not.1 hk)) (by decide)) ?_
      rw [objSet0_eq, objWord_eq]
      exact (if_neg hk).symm.trans hcode
  | adv v =>
    have hcode := Option.some.inj hr
    by_cases hk : objKind (s.obj o) ≠ 3
    · exact hstays (if_pos hk) ((if_pos hk).symm.trans hcode)
    · refine hstores (if_neg hk) (fun h0 => absurd (h0.symm.trans (not_not.1 hk)) (by decide)) ?_
      rw [objSet0_eq, objWord_eq]
      exact (if_neg hk).symm.trans hcode
  | take n => cases hposts
  | arrive f => cases hop
  | wany m => cases hposts
  | wall m => cases hposts
  | wge v => cases hposts

end

end Sys2Proof.Machine
end

