-- ==== Sys2Proof/Proofs/StoredBytes.lean ====
section
/-!
PROOFS. Bytes stored to a range of the silo: each lands at its own device address (09 R218; 14 R328).
-/
namespace Sys2Proof.Machine

open Sys2Proof.Claims

/-- Distinct offsets of a silo have distinct device addresses. -/
theorem Part.devAddr_inj {x : Part} (hnodup : x.entry.gran.Nodup) {a b : Nat} (ha : a < x.siloSize) (hb : b < x.siloSize) (h : x.devAddr a = x.devAddr b) :
    a = b := by
  have hlt {c : Nat} (hc : c < x.siloSize) : c / granSize < x.entry.gran.length := Nat.div_lt_of_lt_mul (by rwa [Nat.mul_comm])
  rw [Part.devAddr, Part.devAddr, List.getElem?_eq_getElem (hlt ha), List.getElem?_eq_getElem (hlt hb), Option.getD_some, Option.getD_some] at h
  have hgran : x.entry.gran[a / granSize]'(hlt ha) = x.entry.gran[b / granSize]'(hlt hb) := by
    simp only [granSize] at h ⊢
    omega
  have hindex := (hnodup.getElem_inj_iff (hi := hlt ha) (hj := hlt hb)).1 hgran
  rw [hgran] at h
  have hmod : a % granSize = b % granSize := Nat.add_left_cancel h
  rw [← Nat.div_add_mod a granSize, ← Nat.div_add_mod b granSize, hindex, hmod]

/-- A fold of byte writes to distinct addresses stores every byte. -/
theorem read_foldl_write_mem {α : Type} (addr : α → Nat) (val : α → Byte) {xs : List α} {m : List Host.Cell} (hwf : Memory.wf m = true)
    (hinj : xs.Pairwise fun x y => addr x ≠ addr y) {x : α} (hx : x ∈ xs) :
    Memory.read (xs.foldl (fun m x => Memory.write m (addr x) (val x)) m) (addr x) = val x := by
  induction xs generalizing m with
  | nil => cases hx
  | cons y ys ih =>
    obtain ⟨hy, hys⟩ := List.pairwise_cons.1 hinj
    have hwf' := Memory.wf_write m (addr y) (val y) hwf
    cases hx with
    | head =>
      rw [List.foldl_cons, read_foldl_write addr val ys hwf' hy, Memory.read_write _ _ _ _ hwf, if_pos rfl]
    | tail _ hx => exact ih hwf' hys hx

/-- A range inside the silo takes its bytes, and no other byte changes. -/
theorem siloStored_siloWrite {s : State} {p : Pid} {a : Nat} {bs : List Byte} (hin : InSilo s p a bs.length) (hwf : Memory.wf s.mem = true) :
    SiloStored s (s.siloWrite p a bs) p a bs := by
  obtain ⟨hnodup, hsize, hkeys⟩ := hin
  refine ⟨fun i hi => ?_, fun b hb => read_siloWriteH 0 hwf hb⟩
  have hkeyed : ¬ s.keyless p = true := by
    intro hnone
    have hboth := of_decide_eq_true hnone
    have hkey := hkeys i hi
    rw [State.sectorKey, hboth] at hkey
    split at hkey
    · cases hkey
    · cases hkey
  have hmem : (bs[i], i) ∈ bs.zipIdx := List.mem_zipIdx_iff_getElem?.2 (List.getElem?_eq_getElem hi)
  have hinj : bs.zipIdx.Pairwise fun x y => (s.part p).devAddr (a + x.2) ≠ (s.part p).devAddr (a + y.2) := by
    have hindex {x : Byte × Nat} (hx : x ∈ bs.zipIdx) : a + x.2 < (s.part p).siloSize := by
      have hlt := (List.getElem?_eq_some_iff.1 (List.mem_zipIdx_iff_getElem?.1 hx)).1
      omega
    refine (List.pairwise_map.1 (List.nodup_zipIdx_map_snd bs)).imp_of_mem fun hx hy hne heq => hne ?_
    exact Nat.add_left_cancel (Part.devAddr_inj hnodup (hindex hx) (hindex hy) heq)
  have hread := read_foldl_write_mem (fun x : Byte × Nat => (s.part p).devAddr (a + x.2)) Prod.fst hwf hinj hmem
  rw [State.siloWrite, State.siloWriteH, if_neg hkeyed, List.getElem?_eq_getElem hi]
  exact hread

end Sys2Proof.Machine
end

