-- ==== Sys2Proof/Proofs/AcknowledgedFrames.lean ====
section
/-!
PROOFS. The header of a frame that came intact: the source's failures in a row are over, credits come back, and what has arrived leaves the
replay buffers; a pair that could send still can (11 R265, R268, R275).
-/
namespace Sys2Proof.Machine

open Sys2Proof.Claims

/-! ### A pair that can send (11 R264, R265) -/

section
variable {s u : State} {p : Pid} {m : ModId} {c : Vc} {n : Nat} {q r : Peer}

/-- A half-port that had credit and has it still. -/
theorem txHalf_isSome_mono (hid : r.id = q.id) (hentry : (u.part p).entry = (s.part p).entry) (hcfg : u.links.cfg = s.links.cfg)
    (hhalf : ∀ k, (u.half k).state = (s.half k).state ∧ (u.half k).peer = (s.half k).peer)
    (hcredit : ∀ k, s.hasCredit q c n k = true → u.hasCredit r c n k = true) (h : (s.txHalf p q c n).isSome = true) :
    (u.txHalf p r c n).isSome = true := by
  obtain ⟨k, hk⟩ := Option.isSome_iff_exists.1 h
  obtain ⟨⟨hport, hup, hreach⟩, hroom⟩ := txHalf_spec rfl hk
  obtain ⟨hstate, hpeer⟩ := hhalf k
  have hreach' : u.reaches k r.id = true := by
    have hlink (w : State) : w.reaches k q.id = ((w.cfgOf k).eth || decide ((w.half k).peer = q.id) || decide ((w.half k).peer = 0xFFFE)) := rfl
    rw [hid, hlink, State.cfgOf, hcfg, hpeer, ← State.cfgOf, ← hlink]
    exact hreach
  have hmem : k ∈ u.halvesTo p r.id := mem_halvesTo.2 ⟨by rw [hentry]; exact hport, hstate.trans hup, hreach'⟩
  rw [State.txHalf_eq, List.find?_isSome]
  exact ⟨k, hmem, hcredit k hroom⟩

theorem Ready.congr (h : Ready s p m c n q) (hlinks : u.links = s.links) (hparts : u.parts = s.parts) : Ready u p m c n q := by
  obtain ⟨hmoults, htxq, hpeer, hkeyed, hframes, hlost, hroom⟩ := h
  have hpart : u.part p = s.part p := by rw [State.part, hparts, State.part]
  have hhalf (k : HalfId) : u.half k = s.half k := by rw [State.half, hlinks, State.half]
  refine ⟨by rw [State.moults, hpart]; exact hmoults, by rw [hlinks]; exact htxq, (State.peer_congr (congrArg _ hpart) m).trans hpeer, hkeyed, hframes,
    hlost, txHalf_isSome_mono rfl (by rw [hpart]) (by rw [hlinks]) (fun k => by rw [hhalf]; exact ⟨rfl, rfl⟩) (fun k hk => ?_) hroom⟩
  rw [State.hasCredit, State.cfgOf, hlinks]
  exact hk

/-- The pair's entry changes, not its keys and not its credit. -/
theorem Ready.modPeer (h : Ready s p m c n q) {f : Peer → Peer} (hf : ∀ q, (f q).id = q.id)
    (hq : (f q).keyed = q.keyed ∧ (f q).frames = q.frames ∧ (f q).lost = q.lost ∧ (f q).out = q.out) : Ready (s.modPeer p m f) p m c n (f q) := by
  obtain ⟨hmoults, htxq, hpeer, hkeyed, hframes, hlost, hroom⟩ := h
  obtain ⟨hk, hfr, hl, hout⟩ := hq
  have hentry : ((s.modPeer p m f).part p).entry = (s.part p).entry := by rw [State.modPeer, State.part_modPart]
  refine ⟨by rw [State.moults, hentry]; exact hmoults, htxq, by rw [State.peer_modPeer hf, hpeer, Option.map_some], hk.trans hkeyed, by rwa [hfr],
    hl.trans hlost, txHalf_isSome_mono (hf q) hentry rfl (fun k => ⟨rfl, rfl⟩) (fun k hroom => ?_) hroom⟩
  rw [State.hasCredit, hout]
  exact hroom

theorem Heads.congr {hd : TxHeader} {len : Nat} (h : Heads u hd p m c len r) (hmod : u.links.modId = s.links.modId)
    (hentry : (u.part p).entry = (s.part p).entry) (htx : r.tx = q.tx) : Heads s hd p m c len q := by
  obtain ⟨hsrc, hdst, hjob, hvc, hlen, hseq⟩ := h
  exact ⟨hsrc.trans hmod, hdst, hjob.trans (by rw [hentry]), hvc, hlen, hseq.trans (by rw [htx])⟩

end

/-! ### The header (11 R265, R268, R275) -/

/-- The header of a frame that came intact has had its effect. -/
def State.acknowledged (s : State) (p : Pid) (port : HalfId) (f : Frame) : State :=
  ((s.modPeer p f.src fun q => { q with fails := 0 }).takeCredits p f.src port f.credits).dropArrived p f.src f.arrived

/-- The source's entry then. -/
def Peer.credited (q : Peer) (eth : Bool) (x : PerVc) : Peer := { q with fails := 0, out := if eth then q.out.minus x else q.out }

theorem State.acceptFrame_eq (s : State) (p : Pid) (port : HalfId) (q : Peer) (f : Frame) : s.acceptFrame p port q f =
    (if q.taken f then s.acknowledged p port f
     else if f.vc = .vs then
       (((s.acknowledged p port f).modPeer p f.src fun q => q.noteSync f.seq).takeSync p f).freeUnits p f.src port .vs (unitsOf f.payload)
     else (((s.acknowledged p port f).modPeer p f.src fun q => { q with early := q.early ++ [(port, f)] }).drainPeer p f.src).sendPfc port).pump := rfl

section
variable {s : State} {p : Pid} {port : HalfId} {f : Frame} {q : Peer}

theorem Sent.takeCredits (s : State) (p : Pid) (m : ModId) (h : HalfId) (x : PerVc) : Sent s (s.takeCredits p m h x) := by
  unfold State.takeCredits
  split
  · rfl
  · rfl

theorem Sent.acknowledged (s : State) (p : Pid) (port : HalfId) (f : Frame) : Sent s (s.acknowledged p port f) := by
  have hfails : Sent s (s.modPeer p f.src fun q => { q with fails := 0 }) := rfl
  exact (hfails.trans (Sent.takeCredits ..)).trans rfl

theorem Steady.takeCredits (s : State) (p : Pid) (m : ModId) (h : HalfId) (x : PerVc) : Steady s (s.takeCredits p m h x) :=
  Steady.ite (Steady.modPeer s p m _ fun _ => ⟨rfl, rfl, rfl⟩) (Steady.setHalf s h _ ⟨_, _, _, rfl⟩)

theorem Steady.dropArrived (s : State) (p : Pid) (m : ModId) (x : PerVc) : Steady s (s.dropArrived p m x) := by
  refine ⟨⟨_, _, rfl⟩, fun h => ⟨(s.half h).out, (s.half h).owed, (s.half h).replay.filter fun f =>
    !(decide (f.id.pid = p) && decide (f.id.peer = m) && decide (f.id.seq < x.get f.id.vc)), ?_⟩, rfl, rfl, rfl,
    fun _ _ q hq => ⟨q, hq, rfl, rfl⟩, fun _ => id⟩
  simp [State.half, State.dropArrived]

theorem Steady.acknowledged (s : State) (p : Pid) (port : HalfId) (f : Frame) : Steady s (s.acknowledged p port f) :=
  ((Steady.modPeer s p f.src (fun q => { q with fails := 0 }) fun _ => ⟨rfl, rfl, rfl⟩).trans (Steady.takeCredits ..)).trans (Steady.dropArrived ..)

theorem links_takeCredits (s : State) (p : Pid) (m : ModId) (h : HalfId) (x : PerVc) :
    ∃ hs, (s.takeCredits p m h x).links = { s.links with half := hs } := by
  unfold State.takeCredits
  split
  · exact ⟨_, rfl⟩
  · exact ⟨_, rfl⟩

theorem links_acknowledged (s : State) (p : Pid) (port : HalfId) (f : Frame) : ∃ hs, (s.acknowledged p port f).links = { s.links with half := hs } := by
  obtain ⟨hs, hlinks⟩ := links_takeCredits (s.modPeer p f.src fun q => { q with fails := 0 }) p f.src port f.credits
  exact ⟨_, by rw [State.acknowledged, State.dropArrived, hlinks]; rfl⟩

theorem peer_takeCredits (hq : s.peer p f.src = some q) (x : PerVc) :
    (s.takeCredits p f.src port x).peer p f.src = some { q with out := if (s.cfgOf port).eth then q.out.minus x else q.out } := by
  unfold State.takeCredits
  split
  · rw [State.peer_modPeer (f := fun y => { y with out := y.out.minus x }) fun _ => rfl, hq]
    rfl
  · exact hq

theorem peer_acknowledged (hq : s.peer p f.src = some q) :
    (s.acknowledged p port f).peer p f.src = some (q.credited (s.cfgOf port).eth f.credits) := by
  have hfails : (s.modPeer p f.src fun q => { q with fails := 0 }).peer p f.src = some { q with fails := 0 } := by
    rw [State.peer_modPeer (f := fun q => { q with fails := 0 }) fun _ => rfl, hq]
    rfl
  exact peer_takeCredits hfails f.credits

theorem entry_modPeer (s : State) (p k : Pid) (m : ModId) (f : Peer → Peer) : ((s.modPeer p m f).part k).entry = (s.part k).entry := by
  by_cases hk : k = p
  · subst hk
    rw [State.modPeer, State.part_modPart]
  · rw [State.modPeer, State.part_modPart_ne _ _ _ _ hk]

theorem entry_takeCredits (s : State) (p k : Pid) (m : ModId) (h : HalfId) (x : PerVc) : ((s.takeCredits p m h x).part k).entry = (s.part k).entry := by
  unfold State.takeCredits
  split
  · exact entry_modPeer ..
  · rfl

theorem entry_acknowledged (s : State) (p k : Pid) (port : HalfId) (f : Frame) : ((s.acknowledged p port f).part k).entry = (s.part k).entry :=
  (entry_takeCredits _ p k f.src port f.credits).trans (entry_modPeer ..)

/-- Of a half nothing moves but the credits that came back and its replay buffer. -/
theorem half_acknowledged (s : State) (p : Pid) (port k : HalfId) (f : Frame) : ∃ o r,
    (s.acknowledged p port f).half k = { s.half k with out := o, replay := r } ∧ (o = (s.half k).out ∨ o = (s.half k).out.minus f.credits) := by
  have hdrop (t : State) : ∃ r, (t.dropArrived p f.src f.arrived).half k = { t.half k with replay := r } :=
    ⟨(t.half k).replay.filter fun g => !(decide (g.id.pid = p) && decide (g.id.peer = f.src) && decide (g.id.seq < f.arrived.get g.id.vc)), by
      simp [State.half, State.dropArrived]⟩
  obtain ⟨r, hr⟩ := hdrop ((s.modPeer p f.src fun q => { q with fails := 0 }).takeCredits p f.src port f.credits)
  have hcredits : ∃ o, ((s.modPeer p f.src fun q => { q with fails := 0 }).takeCredits p f.src port f.credits).half k =
      { s.half k with out := o } ∧ (o = (s.half k).out ∨ o = (s.half k).out.minus f.credits) := by
    unfold State.takeCredits
    split
    · exact ⟨_, rfl, .inl rfl⟩
    · by_cases hk : k = port
      · subst hk
        exact ⟨_, State.half_setHalf .., .inr rfl⟩
      · exact ⟨_, State.half_setHalf_ne _ hk _, .inl rfl⟩
  obtain ⟨o, ho, hout⟩ := hcredits
  exact ⟨o, r, by rw [State.acknowledged, hr, ho], hout⟩

theorem Ready.acknowledged {c : Vc} {n : Nat} (h : Ready s p f.src c n q) (port : HalfId) :
    Ready (s.acknowledged p port f) p f.src c n (q.credited (s.cfgOf port).eth f.credits) := by
  obtain ⟨hmoults, htxq, hpeer, hkeyed, hframes, hlost, hroom⟩ := h
  obtain ⟨hs, hlinks⟩ := links_acknowledged s p port f
  have hentry := entry_acknowledged s p p port f
  refine ⟨by rw [State.moults, hentry]; exact hmoults, by rw [hlinks]; exact htxq, peer_acknowledged hpeer, hkeyed, hframes, hlost,
    txHalf_isSome_mono (q := q) rfl hentry (by rw [hlinks]) (fun k => ?_) (fun k hk => ?_) hroom⟩
  · obtain ⟨_, _, hk, -⟩ := half_acknowledged s p port k f
    rw [hk]
    exact ⟨rfl, rfl⟩
  · obtain ⟨o, r, hhalf, hout⟩ := half_acknowledged s p port k f
    have hcfg : (s.acknowledged p port f).cfgOf k = s.cfgOf k := by rw [State.cfgOf, hlinks, State.cfgOf]
    have hlink : (s.acknowledged p port f).links.half[k] = { s.half k with out := o, replay := r } := hhalf
    unfold State.hasCredit at hk ⊢
    rw [hcfg, hlink, hlinks]
    by_cases heth : (s.cfgOf k).eth = true
    · rw [if_pos heth] at hk ⊢
      obtain ⟨hpeer, hpaused⟩ := Bool.and_eq_true_iff.1 hk
      refine Bool.and_eq_true_iff.2 ⟨?_, hpaused⟩
      rw [Peer.credited]
      dsimp only
      split
      · exact peerRoom_minus hpeer _
      · exact hpeer
    · rw [if_neg heth] at hk ⊢
      rcases hout with rfl | rfl
      · exact hk
      · exact linkRoom_minus hk _

end

end Sys2Proof.Machine
end

