-- ==== Sys2Proof/Proofs/AcceptedFrames.lean ====
section
/-!
PROOFS. Frames from a peer whose tag agrees: second copies, and sync frames, which are taken at once (10 R247, R250; 11 R265, R284, R286).
-/
namespace Sys2Proof.Machine

open Sys2Proof.Claims

/-- A part of the entry that sending does not touch. -/
theorem PeersCounted.map {α : Type} {s u : State} {p : Pid} {m : ModId} {q : Peer} (h : PeersCounted s u) (hq : s.peer p m = some q) (g : Peer → α)
    (hg : ∀ q n t o w, g { q with frames := n, tx := t, out := o, owed := w } = g q) : (u.peer p m).map g = some (g q) := by
  obtain ⟨_, _, _, _, hu⟩ := h p m q hq
  rw [hu, Option.map_some, hg]

section
variable {s : State} {p : Pid} {port : HalfId} {f : Frame} {q : Peer}

theorem txq_acknowledged (s : State) (p : Pid) (port : HalfId) (f : Frame) : (s.acknowledged p port f).links.txq = s.links.txq := by
  obtain ⟨_, hlinks⟩ := links_acknowledged s p port f
  rw [hlinks]

/-! ### Delivery -/

theorem deliver_accepted (hdst : f.dst = s.links.modId) (hjob : s.partOfJob f.jobTag = some p) (hq : s.peer p f.src = some q) (htag : f.tagOk = true)
    (hkeyed : q.keyed = true) : s.deliver port f = s.acceptFrame p port q f := by
  unfold State.deliver
  rw [if_neg (not_not.2 hdst), hjob]
  simp only [hq, htag, hkeyed, Bool.and_self, if_true]

theorem deliver_untrusted (hdst : f.dst = s.links.modId) (hjob : s.partOfJob f.jobTag = some p) (hq : s.peer p f.src = some q)
    (hbad : f.tagOk = false ∨ q.keyed = false) : s.deliver port f = s.tagFailure p port f := by
  have hnot : ¬ (f.tagOk && q.keyed) = true := by
    rw [Bool.and_eq_true]
    rcases hbad with hbad | hbad
    · simp [hbad]
    · simp [hbad]
  unfold State.deliver
  rw [if_neg (not_not.2 hdst), hjob]
  simp only [hq, if_neg hnot]

theorem deliver_stranger (hdst : f.dst = s.links.modId) (hjob : s.partOfJob f.jobTag = some p) (hq : s.peer p f.src = none) :
    s.deliver port f = s.tagFailure p port f := by
  unfold State.deliver
  rw [if_neg (not_not.2 hdst), hjob]
  simp only [hq]

/-! ### Second copies (11 R286) -/

theorem acceptFrame_copy (hcopy : q.taken f = true) (hquiet : s.links.txq = []) : s.acceptFrame p port q f = s.acknowledged p port f := by
  rw [State.acceptFrame_eq, if_pos hcopy, State.pump_of_empty ((txq_acknowledged s p port f).trans hquiet)]

/-! ### Sync frames (10 R250; 11 R286) -/

/-- The frame's number is used, and its header has had its effect. -/
def State.syncNumbered (s : State) (p : Pid) (port : HalfId) (f : Frame) : State :=
  (s.acknowledged p port f).modPeer p f.src fun q => q.noteSync f.seq

theorem acceptFrame_sync (hnew : q.taken f = false) (hvs : f.vc = .vs) : s.acceptFrame p port q f =
    (((s.syncNumbered p port f).takeSync p f).freeUnits p f.src port .vs (unitsOf f.payload)).pump := by
  rw [State.acceptFrame_eq, if_neg (by rw [hnew]; exact Bool.false_ne_true), if_pos hvs]
  rfl

theorem Sent.syncNumbered (s : State) (p : Pid) (port : HalfId) (f : Frame) : Sent s (s.syncNumbered p port f) :=
  (Sent.acknowledged s p port f).trans rfl

theorem Steady.syncNumbered (s : State) (p : Pid) (port : HalfId) (f : Frame) : Steady s (s.syncNumbered p port f) :=
  (Steady.acknowledged s p port f).trans (Steady.modPeer _ p f.src (fun q => q.noteSync f.seq) fun _ => ⟨rfl, rfl, rfl⟩)

theorem entry_syncNumbered (s : State) (p k : Pid) (port : HalfId) (f : Frame) : ((s.syncNumbered p port f).part k).entry = (s.part k).entry :=
  (entry_modPeer ..).trans (entry_acknowledged ..)

theorem peer_syncNumbered (hq : s.peer p f.src = some q) :
    (s.syncNumbered p port f).peer p f.src = some ((q.credited (s.cfgOf port).eth f.credits).noteSync f.seq) := by
  rw [State.syncNumbered, State.peer_modPeer (f := fun q => q.noteSync f.seq) fun _ => rfl, peer_acknowledged hq, Option.map_some]

/-- Freed room and the frames that wait. -/
def State.roomFreed (s : State) (p : Pid) (port : HalfId) (f : Frame) : State := (s.freeUnits p f.src port .vs (unitsOf f.payload)).pump

theorem Sent.roomFreed (s : State) (p : Pid) (port : HalfId) (f : Frame) : Sent s (s.roomFreed p port f) := (Sent.freeUnits ..).trans (Sent.pump _)

theorem PeersCounted.roomFreed (s : State) (p : Pid) (port : HalfId) (f : Frame) : PeersCounted s (s.roomFreed p port f) :=
  PeersCounted.trans (PeersCounted.freeUnits s p f.src port .vs (unitsOf f.payload)) (PeersCounted.pump _)

theorem outputs_roomFreed (s : State) (p : Pid) (port : HalfId) (f : Frame) : s.outputs ⊆ (s.roomFreed p port f).outputs :=
  List.Subset.trans (outputs_freeUnits ..) (outputs_pump _)

/-- A keep-alive starts the test anew. -/
theorem acceptFrame_keepAlive (hq : s.peer p f.src = some q) (hnew : q.taken f = false) (hvs : f.vc = .vs) (hbody : f.body = .keepAlive) :
    Sent s (s.acceptFrame p port q f) ∧ ((s.acceptFrame p port q f).peer p f.src).map (fun x => (x.fails, x.lastAlive, x.suspended)) =
      some (0, max q.lastAlive s.now, none) := by
  have hnow : (s.syncNumbered p port f).now = s.now := by rw [State.now, Sent.syncNumbered s p port f, State.now]
  have htake : (s.syncNumbered p port f).takeSync p f = (s.syncNumbered p port f).takeAlive p f.src := by rw [State.takeSync, hbody]
  have hpeer : ((s.syncNumbered p port f).takeAlive p f.src).peer p f.src = _ :=
    (State.peer_modPeer (f := fun q => { q with lastAlive := max q.lastAlive (s.syncNumbered p port f).now, suspended := none }) fun _ => rfl).trans
      (congrArg _ (peer_syncNumbered hq))
  have hsent : Sent s ((s.syncNumbered p port f).takeAlive p f.src) := (Sent.syncNumbered s p port f).trans rfl
  rw [acceptFrame_sync hnew hvs, htake]
  refine ⟨hsent.trans (Sent.roomFreed ..), ?_⟩
  refine (PeersCounted.map (PeersCounted.roomFreed _ p port f) hpeer (fun x => (x.fails, x.lastAlive, x.suspended)) fun _ _ _ _ _ => rfl).trans ?_
  rw [hnow]
  rfl

/-- A remote operation takes effect at once, and its code goes back (10 R247). -/
theorem acceptFrame_syncOp {index : BitVec 16} {op : SyncOp} {o : Nat} {r : BitVec 16 × BitVec 128} (hnew : q.taken f = false) (hvs : f.vc = .vs)
    (hbody : f.body = .syncOp index op) (hop : notArrive op) (hposts : opWaits op = false) (hobj : (s.part p).objOf index.toNat = some o)
    (hfence : s.fenced .syncBlock (o / 1024) = false) (hwf : Tab.wf (0 : BitVec 128) s.sync.objs = true) (hnobody : ∀ w ∈ s.sync.waits, w.obj ≠ o)
    (hr : syncOutcome op (s.obj o) = some r) : let u := s.acceptFrame p port q f
    u.mem = s.mem ∧ u.tiles = s.tiles ∧ u.obj o = r.2 ∧ (∀ k, k ≠ o → u.obj k = s.obj k) ∧
      (Ready s p f.src .vs 1 q → ∃ hd, .frame hd (.ack f.seq r.1) ∈ u.outputs ∧ Heads s hd p f.src .vs 32 q) := by
  intro u
  have hentry := entry_syncNumbered s p p port f
  have hnumbered := Sent.syncNumbered s p port f
  have hobjs (k : Nat) : ((s.syncNumbered p port f).noteOrder o (moduleRank f.src)).obj k = s.obj k := by
    have hsync : (s.syncNumbered p port f).sync = s.sync := by rw [hnumbered]
    rw [State.noteOrder, hsync]
    rfl
  obtain ⟨y, happly, hself, hothers⟩ := State.applyOp_quiet (s := (s.syncNumbered p port f).noteOrder o (moduleRank f.src)) (r := r) p
    (s.syncNumbered p port f).now hop hposts (by rw [State.noteOrder, hnumbered]; exact hfence) (by rw [State.noteOrder, hnumbered]; exact hwf)
    (by rw [State.noteOrder, hnumbered]; exact hnobody) (by rw [hobjs]; exact hr)
  have htake : (s.syncNumbered p port f).takeSync p f = ({ s.syncNumbered p port f with sync := y } : State).send p f.src (.ack f.seq r.1) := by
    have hindex : ((s.syncNumbered p port f).part p).objOf index.toNat = some o := by rw [Part.objOf, hentry]; exact hobj
    rw [State.takeSync, hbody]
    simp only [State.takeRemote, hindex, hposts, Bool.false_eq_true, if_false, happly]
    rfl
  have hu : u = (({ s.syncNumbered p port f with sync := y } : State).send p f.src (.ack f.seq r.1)).roomFreed p port f := by
    rw [← htake]
    exact acceptFrame_sync hnew hvs
  have hsent : Sent { s.syncNumbered p port f with sync := y } u := by
    rw [hu]
    exact (Sent.send ..).trans (Sent.roomFreed ..)
  have hsync (k : Nat) : u.obj k = ({ s.syncNumbered p port f with sync := y } : State).obj k := by rw [State.obj, hsent, State.obj]
  refine ⟨by rw [hsent, hnumbered], by rw [hsent, hnumbered], (hsync o).trans hself, fun k hk => ?_, fun hready => ?_⟩
  · exact (hsync k).trans ((hothers k hk).trans (hobjs k))
  · have hnote : Ready (s.syncNumbered p port f) p f.src .vs 1 ((q.credited (s.cfgOf port).eth f.credits).noteSync f.seq) :=
      Ready.modPeer (Ready.acknowledged hready port) (f := fun q => q.noteSync f.seq) (fun _ => rfl) ⟨rfl, rfl, rfl, rfl⟩
    have hgo : Ready { s.syncNumbered p port f with sync := y } p f.src .vs 1 ((q.credited (s.cfgOf port).eth f.credits).noteSync f.seq) :=
      Ready.congr hnote rfl rfl
    obtain ⟨hd, hout, hheads⟩ := State.send_one_ready (x := .ack f.seq r.1) rfl (rfl : unitsOf 32 = 1) hgo
    obtain ⟨_, hlinks⟩ := links_acknowledged s p port f
    refine ⟨hd, ?_, Heads.congr hheads ?_ hentry rfl⟩
    · rw [hu]
      exact outputs_roomFreed _ p port f (by rw [hout]; exact List.mem_cons_self)
    · exact congrArg (·.modId) hlinks

/-- Whatever a sync frame does, no key of a pair comes or goes. -/
theorem Steady.takeSync (s : State) (p : Pid) (f : Frame) : Steady s (s.takeSync p f) := by
  unfold State.takeSync
  split
  · unfold State.takeRemote
    split
    · exact Steady.send ..
    · exact Steady.ite (Steady.send ..) (((Steady.noteOrder s _ _).trans (Steady.applyOp ..)).trans (Steady.send ..))
  · unfold State.takeArrival
    split
    · exact Steady.send ..
    · have harrive (o : Nat) (flag : Bool) := (Steady.noteOrder s o (moduleRank f.src)).trans (Steady.childArrive _ p o f.src flag)
      exact Steady.ite ((harrive _ _).trans (Steady.send ..)) ((harrive _ _).trans (Steady.send ..))
  · exact Steady.modPeer s p f.src _ fun _ => ⟨rfl, rfl, rfl⟩
  · exact Steady.refl s
  · exact Steady.refl s
  · exact Steady.refl s

theorem acceptFrame_keyed (hq : s.peer p f.src = some q) (hkeyed : q.keyed = true) (hnew : q.taken f = false) (hvs : f.vc = .vs) :
    ((s.acceptFrame p port q f).peer p f.src).map (·.keyed) = some true := by
  obtain ⟨r, hr, hrkeyed, -⟩ := ((Steady.syncNumbered s p port f).trans (Steady.takeSync _ p f)).peer p f.src q hq
  rw [acceptFrame_sync hnew hvs]
  exact (PeersCounted.map (PeersCounted.roomFreed _ p port f) hr (·.keyed) fun _ _ _ _ _ => rfl).trans (congrArg some (hrkeyed.trans hkeyed))

end

end Sys2Proof.Machine
end

