-- ==== Sys2Proof/Proofs/TakenPuts.lean ====
section
/-!
PROOFS. Pieces of puts: one that comes early waits, one whose granule waits for its clear is held, one in its turn is written and after the
last the transfer is acknowledged (11 R265, R266, R283; 14 R332).
-/
namespace Sys2Proof.Machine

open Sys2Proof.Claims

/-! ### The silo of a partition whose entry stays -/

section
variable {s u : State} {p : Pid} (hsent : Sent s u) (hentry : (u.part p).entry = (s.part p).entry) {a n : Nat}

theorem inSilo_congr (hentry : (u.part p).entry = (s.part p).entry) : (u.part p).inSilo a n = (s.part p).inSilo a n := by
  rw [Part.inSilo, Part.siloSize, hentry, Part.inSilo, Part.siloSize]

theorem devAddr_congr (hentry : (u.part p).entry = (s.part p).entry) : (u.part p).devAddr a = (s.part p).devAddr a := by
  rw [Part.devAddr, hentry, Part.devAddr]

include hsent

theorem sectorKey_congr (d : Nat) : u.sectorKey p d = s.sectorKey p d := State.sectorKey_congr (by rw [hsent]) (by rw [hsent]) p d

include hentry

theorem siloFenced_congr : u.siloFenced p a n = s.siloFenced p a n := by
  have hfenced : u.fenced .granule = s.fenced .granule := by funext g; rw [State.fenced, hsent, State.fenced]
  rw [State.siloFenced, Part.granules, hentry, hfenced, State.siloFenced, Part.granules]

theorem partialBad_congr : u.partialBad p a n = s.partialBad p a n := by
  have hmem : u.memctl = s.memctl := by rw [hsent]
  have hpending : u.granPending = s.granPending := by funext g; rw [State.granPending, hsent, State.granPending]
  have hbad : u.siloBad p = s.siloBad p := by
    funext b k
    simp only [State.siloBad, State.siloBadAt, hmem, hpending, devAddr_congr hentry, sectorKey_congr hsent]
  rw [State.partialBad, State.partialBadAt, hmem, hbad, State.partialBad, State.partialBadAt]

theorem InSilo.congr (h : InSilo s p a n) : InSilo u p a n := by
  obtain ⟨hnodup, hsize, hkeys⟩ := h
  refine ⟨by rw [hentry]; exact hnodup, by rw [Part.siloSize, hentry]; exact hsize, fun i hi => ?_⟩
  rw [sectorKey_congr hsent, devAddr_congr hentry]
  exact hkeys i hi

theorem SiloStored.congr {v : State} {bs : List Byte} (h : SiloStored u v p a bs) : SiloStored s v p a bs := by
  obtain ⟨hbytes, hothers⟩ := h
  have hmem : u.mem = s.mem := by rw [hsent]
  exact ⟨fun i hi => by rw [← devAddr_congr hentry]; exact hbytes i hi,
    fun x hx => (hothers x fun i hi => by rw [devAddr_congr hentry]; exact hx i hi).trans (by rw [hmem])⟩

end

/-! ### A piece in its turn (11 R283; 14 R332) -/

/-- After its last piece a put is acknowledged, with its first failure or OK. -/
def State.putEnded (s : State) (p : Pid) (m : ModId) (xfer : Nat) (last : Bool) : State :=
  if last then (s.send p m (.landed xfer (((s.peer p m).bind (·.torn)).getD cOk))).modPeer p m fun q => { q with torn := none } else s

section
variable {s : State} {p : Pid} {m : ModId} {xfer addr : Nat} {bs : List Byte} {last : Bool} {q : Peer}

/-- While a granule waits for its clear the piece is held, and the clears it needs move ahead. -/
theorem takePut_held (hin : (s.part p).inSilo addr bs.length = true) (hwait : s.siloWaiting p addr bs.length ≠ []) :
    ∃ b, s.takePut p m xfer addr bs last = ({ s with bind := b }, false) := by
  have hheld : s.holdWrites p [(addr, bs.length)] = some { s with bind := s.bind.moveAhead (s.siloWaiting p addr bs.length) } := by
    simp only [State.holdWrites, List.flatMap_cons, List.flatMap_nil, List.append_nil, List.isEmpty_iff, hwait, if_false]
  exact ⟨_, by rw [State.takePut, if_pos hin, hheld]⟩

/-- A piece that can be written is. -/
theorem takePut_written (hin : (s.part p).inSilo addr bs.length = true) (hwait : s.siloWaiting p addr bs.length = [])
    (hfence : s.siloFenced p addr bs.length = false) (hbad : s.partialBad p addr bs.length = false) :
    s.takePut p m xfer addr bs last = ((s.siloWrite p addr bs).putEnded p m xfer last, true) := by
  have hfree : s.holdWrites p [(addr, bs.length)] = none := by
    simp only [State.holdWrites, List.flatMap_cons, List.flatMap_nil, List.append_nil, hwait, List.isEmpty_nil, if_true]
  have hcheck : s.putCheck p addr bs.length = none := by
    simp [State.putCheck, firstFail, hin, hfence, hbad]
  rw [State.takePut, if_pos hin, hfree]
  simp only [State.writePut, hcheck]
  rfl

theorem Sent.putEnded (s : State) (p : Pid) (m : ModId) (xfer : Nat) (last : Bool) : Sent s (s.putEnded p m xfer last) := by
  unfold State.putEnded
  split
  · exact (Sent.send ..).trans rfl
  · exact Sent.refl s

theorem peer_putEnded (hq : s.peer p m = some q) :
    ∃ n t o w e, (s.putEnded p m xfer last).peer p m = some { q with frames := n, tx := t, out := o, owed := w, torn := e } := by
  unfold State.putEnded
  split
  · obtain ⟨n, t, o, w, hsent⟩ := PeersCounted.send s p m (.landed xfer (((s.peer p m).bind (·.torn)).getD cOk)) p m q hq
    exact ⟨n, t, o, w, none, by rw [State.peer_modPeer (f := fun q => { q with torn := none }) fun _ => rfl, hsent, Option.map_some]⟩
  · exact ⟨_, _, _, _, _, hq⟩

/-- A put of which no piece failed is acknowledged with OK. -/
theorem putEnded_landed (hready : Ready s p m .vs 1 q) (htorn : q.torn = none) (hlast : last = true) :
    ∃ hd, .frame hd (.landed xfer 0) ∈ (s.putEnded p m xfer last).outputs ∧ Heads s hd p m .vs 32 q := by
  obtain ⟨hd, hout, hheads⟩ := State.send_one_ready (x := .landed xfer cOk) rfl (rfl : unitsOf 32 = 1) hready
  obtain ⟨-, -, hq, -⟩ := hready
  have hcode : ((s.peer p m).bind (·.torn)).getD cOk = cOk := by rw [hq, Option.bind_some, htorn, Option.getD_none]
  refine ⟨hd, ?_, hheads⟩
  rw [State.putEnded, if_pos hlast, hcode]
  exact (hout ▸ List.mem_cons_self : .frame hd (.landed xfer cOk) ∈ (s.send p m (.landed xfer cOk)).outputs)

end

/-! ### Data frames that wait (11 R266) -/

section
variable {s : State} {p : Pid} {m : ModId} {port : HalfId} {f : Frame} {q : Peer}

/-- Of a single frame that waits on VD1 only that channel has something to take. -/
theorem drainPeer_single (hq : s.peer p m = some q) (hearly : q.early = [(port, f)]) (hvc : f.vc = .vd1) :
    s.drainPeer p m = s.drainChan p m .vd1 1 := by
  have hother : s.drainChan p m .vd0 1 = s := by
    simp [State.drainChan, hq, hearly, hvc]
  rw [State.drainPeer, hq, Option.map_some, Option.getD_some, hearly, List.length_singleton, hother]

theorem drainChan_early (hq : s.peer p m = some q) (hearly : q.early = [(port, f)]) (hseq : f.seq ≠ q.rx.vd1) : s.drainChan p m .vd1 1 = s := by
  simp [State.drainChan, hq, hearly, hseq, PerVc.get]

theorem find_single (hvc : f.vc = .vd1) (hseq : f.seq = q.rx.vd1) (hearly : q.early = [(port, f)]) :
    q.early.find? (fun x => decide (x.2.vc = Vc.vd1) && decide (x.2.seq = q.rx.get .vd1)) = some (port, f) := by
  simp [hearly, hvc, hseq, PerVc.get]

theorem drainChan_held (hq : s.peer p m = some q) (hearly : q.early = [(port, f)]) (hvc : f.vc = .vd1) (hseq : f.seq = q.rx.vd1) {t : State}
    (htake : s.takeData p f = (t, false)) : s.drainChan p m .vd1 1 = t := by
  unfold State.drainChan
  simp only [hq, find_single hvc hseq hearly, htake, Bool.not_false, if_true]

/-- The number of a frame that was taken is used, and the frame waits no more. -/
def Peer.tookData (q : Peer) (f : Frame) : Peer :=
  { q with rx := q.rx.add .vd1 1, early := q.early.filter fun y => !(decide (y.2.vc = .vd1) && decide (y.2.seq = f.seq)) }

theorem drainChan_taken (hq : s.peer p m = some q) (hearly : q.early = [(port, f)]) (hvc : f.vc = .vd1) (hseq : f.seq = q.rx.vd1) {t : State}
    (htake : s.takeData p f = (t, true)) : s.drainChan p m .vd1 1 =
      ((t.modPeer p m fun q => q.tookData f).freeUnits p m port .vd1 (unitsOf f.payload)).sendPfc port := by
  unfold State.drainChan
  simp only [hq, find_single hvc hseq hearly, htake, Bool.not_true, Bool.false_eq_true, if_false]
  rfl

/-- What a frame that was taken sends: credits for its room, the data priority's pause or its end, frames that waited. -/
def State.dataRoomFreed (s : State) (p : Pid) (port : HalfId) (f : Frame) : State :=
  (((s.freeUnits p f.src port .vd1 (unitsOf f.payload)).sendPfc port).sendPfc port).pump

theorem dataRoomFreed_spec (s : State) (p : Pid) (port : HalfId) (f : Frame) :
    Sent s (s.dataRoomFreed p port f) ∧ PeersCounted s (s.dataRoomFreed p port f) ∧ s.outputs ⊆ (s.dataRoomFreed p port f).outputs :=
  ⟨(((Sent.freeUnits ..).trans (Sent.sendPfc ..)).trans (Sent.sendPfc ..)).trans (Sent.pump _),
    (((PeersCounted.freeUnits s p f.src port .vd1 (unitsOf f.payload)).trans (PeersCounted.sendPfc _ port)).trans (PeersCounted.sendPfc _ port)).trans
      (PeersCounted.pump _),
    List.Subset.trans (outputs_freeUnits ..) (List.Subset.trans (outputs_sendPfc ..) (List.Subset.trans (outputs_sendPfc ..) (outputs_pump _)))⟩

end

/-! ### A put that came intact (11 R266, R283) -/

/-- A data frame waits for its turn, and its header has had its effect. -/
def State.joined (s : State) (p : Pid) (port : HalfId) (f : Frame) : State :=
  (s.acknowledged p port f).modPeer p f.src fun q => { q with early := q.early ++ [(port, f)] }

section
variable {s : State} {p : Pid} {port : HalfId} {f : Frame} {q : Peer}

theorem Sent.joined (s : State) (p : Pid) (port : HalfId) (f : Frame) : Sent s (s.joined p port f) := (Sent.acknowledged s p port f).trans rfl

theorem entry_joined (s : State) (p k : Pid) (port : HalfId) (f : Frame) : ((s.joined p port f).part k).entry = (s.part k).entry :=
  (entry_modPeer ..).trans (entry_acknowledged ..)

theorem siloWaiting_joined (a n : Nat) : (s.joined p port f).siloWaiting p a n = s.siloWaiting p a n :=
  State.siloWaiting_congr p (entry_joined s p p port f) (by rw [Sent.joined s p port f]) a n

theorem inSilo_joined {a n : Nat} (hin : InSilo s p a n) : ((s.joined p port f).part p).inSilo a n = true := by
  obtain ⟨-, hsize, -⟩ := hin
  rw [inSilo_congr (entry_joined s p p port f), Part.inSilo]
  exact decide_eq_true hsize

theorem Ready.joined {c : Vc} {n : Nat} (h : Ready s p f.src c n q) (hearly : q.early = []) :
    Ready (s.joined p port f) p f.src c n { q.credited (s.cfgOf port).eth f.credits with early := [(port, f)] } := by
  have hjoins := Ready.modPeer (Ready.acknowledged h port) (f := fun q => { q with early := q.early ++ [(port, f)] }) (fun _ => rfl)
    ⟨rfl, rfl, rfl, rfl⟩
  have hempty : (q.credited (s.cfgOf port).eth f.credits).early = [] := hearly
  simp only [hempty, List.nil_append] at hjoins
  exact hjoins

theorem takeData_put {xfer addr : Nat} {bs : List Byte} {last : Bool} (hbody : f.body = .put xfer addr bs last) (t : State) :
    t.takeData p f = t.takePut p f.src xfer addr bs last := by rw [State.takeData, hbody]

theorem not_taken (hearly : q.early = []) (hvc : f.vc = .vd1) (hnext : q.rx.vd1 ≤ f.seq) : q.taken f = false := by
  simp [Peer.taken, hvc, hearly, PerVc.get, hnext]

section
variable (hq : s.peer p f.src = some q) (hearly : q.early = [])
include hq hearly

theorem peer_joined : (s.joined p port f).peer p f.src = some { q.credited (s.cfgOf port).eth f.credits with early := [(port, f)] } := by
  rw [State.joined, State.peer_modPeer (f := fun q => { q with early := q.early ++ [(port, f)] }) fun _ => rfl, peer_acknowledged hq, Option.map_some,
    Peer.credited, hearly]
  rfl

variable (hvc : f.vc = .vd1)
include hvc

theorem acceptFrame_data (hnext : q.rx.vd1 ≤ f.seq) :
    s.acceptFrame p port q f = (((s.joined p port f).drainChan p f.src .vd1 1).sendPfc port).pump := by
  rw [State.acceptFrame_eq, if_neg (by rw [not_taken hearly hvc hnext]; exact Bool.false_ne_true), if_neg (by rw [hvc]; decide),
    ← drainPeer_single (peer_joined hq hearly) rfl hvc]
  rfl

/-- A frame before its turn stays. -/
theorem acceptFrame_early (hnext : q.rx.vd1 < f.seq) : let u := s.acceptFrame p port q f
    u.mem = s.mem ∧ u.tiles = s.tiles ∧ (u.peer p f.src).map (fun x => (x.rx, x.early)) = some (q.rx, [(port, f)]) := by
  intro u
  have hwaits := drainChan_early (peer_joined (port := port) hq hearly) rfl (Nat.ne_of_gt hnext)
  have hu : u = ((s.joined p port f).sendPfc port).pump :=
    (acceptFrame_data hq hearly hvc (Nat.le_of_lt hnext)).trans (by rw [hwaits])
  have hsent := ((Sent.joined s p port f).trans (Sent.sendPfc _ port)).trans (Sent.pump _)
  rw [hu]
  exact ⟨by rw [hsent], by rw [hsent],
    PeersCounted.map ((PeersCounted.sendPfc _ port).trans (PeersCounted.pump _)) (peer_joined hq hearly) (fun x => (x.rx, x.early)) fun _ _ _ _ _ => rfl⟩

section
variable {xfer addr : Nat} {bs : List Byte} {last : Bool} (hbody : f.body = .put xfer addr bs last) (hin : InSilo s p addr bs.length)
  (hseq : f.seq = q.rx.vd1)
include hbody hin hseq

/-- One whose granule waits for its clear stays too. -/
theorem acceptFrame_held (hwait : s.siloWaiting p addr bs.length ≠ []) : let u := s.acceptFrame p port q f
    u.mem = s.mem ∧ u.tiles = s.tiles ∧ (u.peer p f.src).map (fun x => (x.rx, x.early)) = some (q.rx, [(port, f)]) := by
  intro u
  obtain ⟨b, hput⟩ := takePut_held (m := f.src) (xfer := xfer) (last := last) (inSilo_joined (port := port) (f := f) hin)
    (by rw [siloWaiting_joined]; exact hwait)
  have hpeer := peer_joined (port := port) hq hearly
  have hheld := drainChan_held hpeer rfl hvc hseq ((takeData_put hbody _).trans hput)
  have hu : u = (({ s.joined p port f with bind := b } : State).sendPfc port).pump :=
    (acceptFrame_data hq hearly hvc (Nat.le_of_eq hseq.symm)).trans (by rw [hheld])
  have hsent := (Sent.sendPfc { s.joined p port f with bind := b } port).trans (Sent.pump _)
  have hjoined := Sent.joined s p port f
  rw [hu]
  exact ⟨by rw [hsent, hjoined], by rw [hsent, hjoined],
    PeersCounted.map ((PeersCounted.sendPfc _ port).trans (PeersCounted.pump _)) (s := { s.joined p port f with bind := b }) hpeer
      (fun x => (x.rx, x.early)) fun _ _ _ _ _ => rfl⟩

/-- One in its turn lands where it says, and after the last piece the transfer is acknowledged. -/
theorem acceptFrame_written (hwait : s.siloWaiting p addr bs.length = []) (hfence : s.siloFenced p addr bs.length = false)
    (hbad : s.partialBad p addr bs.length = false) (hwf : Memory.wf s.mem = true) : let u := s.acceptFrame p port q f
    SiloStored s u p addr bs ∧ u.tiles = s.tiles ∧ u.engines = s.engines ∧
      (u.peer p f.src).map (fun x => (x.rx.vd1, x.early)) = some (q.rx.vd1 + 1, []) ∧
      (last = true → q.torn = none → Ready s p f.src .vs 1 q → ∃ hd, .frame hd (.landed xfer 0) ∈ u.outputs ∧ Heads s hd p f.src .vs 32 q) := by
  intro u
  have hjoined := Sent.joined s p port f
  have hentry := entry_joined s p p port f
  have hpeer := peer_joined (port := port) hq hearly
  have hput := takePut_written (m := f.src) (xfer := xfer) (last := last) (inSilo_joined (port := port) (f := f) hin)
    (by rw [siloWaiting_joined]; exact hwait) (by rw [siloFenced_congr hjoined hentry]; exact hfence)
    (by rw [partialBad_congr hjoined hentry]; exact hbad)
  have htaken := drainChan_taken hpeer rfl hvc hseq ((takeData_put hbody _).trans hput)
  obtain ⟨_, _, _, _, hwritten⟩ := SiloWritten.siloWrite (s.joined p port f) p addr bs
  have hstored := siloStored_siloWrite (InSilo.congr hjoined hentry hin) (by rw [hjoined]; exact hwf)
  have hwpeer : ((s.joined p port f).siloWrite p addr bs).peer p f.src = _ := (State.peer_congr (by rw [hwritten]; rfl) f.src).trans hpeer
  obtain ⟨_, _, _, _, _, hended⟩ := peer_putEnded (xfer := xfer) (last := last) hwpeer
  have hsent := Sent.putEnded ((s.joined p port f).siloWrite p addr bs) p f.src xfer last
  have hu : u = ((((s.joined p port f).siloWrite p addr bs).putEnded p f.src xfer last).modPeer p f.src fun q => q.tookData f).dataRoomFreed p port f :=
    (acceptFrame_data hq hearly hvc (Nat.le_of_eq hseq.symm)).trans (by rw [htaken]; rfl)
  have htook := (State.peer_modPeer (f := fun q => q.tookData f) fun _ => rfl).trans (congrArg (Option.map _) hended)
  obtain ⟨hfreed, hcounted, houtputs⟩ := dataRoomFreed_spec
    ((((s.joined p port f).siloWrite p addr bs).putEnded p f.src xfer last).modPeer p f.src fun q => q.tookData f) p port f
  rw [← hu] at hfreed hcounted houtputs
  have hall : Sent ((s.joined p port f).siloWrite p addr bs) u :=
    (hsent.trans (rfl : Sent _ (State.modPeer _ p f.src fun q => q.tookData f))).trans hfreed
  refine ⟨?_, by rw [hall, hwritten, hjoined], by rw [hall, hwritten, hjoined], ?_, fun hlast htorn hready => ?_⟩
  · have hmem : u.mem = ((s.joined p port f).siloWrite p addr bs).mem := by rw [hall]
    refine SiloStored.congr hjoined hentry ?_
    rw [SiloStored, hmem]
    exact hstored
  · refine (PeersCounted.map hcounted htook (fun x => (x.rx.vd1, x.early)) fun _ _ _ _ _ => rfl).trans ?_
    simp [Peer.tookData, Peer.credited, hvc, PerVc.add, PerVc.set, PerVc.get]
  · have hgo : Ready ((s.joined p port f).siloWrite p addr bs) p f.src .vs 1 { q.credited (s.cfgOf port).eth f.credits with early := [(port, f)] } :=
      Ready.congr (Ready.joined hready hearly) (by rw [hwritten]) (by rw [hwritten])
    obtain ⟨hd, hout, hheads⟩ := putEnded_landed (xfer := xfer) hgo htorn hlast
    obtain ⟨_, hlinks⟩ := links_acknowledged s p port f
    exact ⟨hd, houtputs hout, Heads.congr hheads (by rw [hwritten]; exact congrArg (·.modId) hlinks) (by rw [hwritten]; exact hentry) rfl⟩

end

end

end

end Sys2Proof.Machine
end

