-- ==== Sys2Proof/Proofs/FramesReceived.lean ====
section
/-!
PROOFS. Messages sent in one frame, frames as they are received, replays, ICMPv6 and flow control (11 R264 to R266, R268, R271, R272, R274,
R275, R286).
-/
namespace Sys2Proof.Machine

open Sys2Proof.Claims

section
variable {s : State} {h : HalfId} {f : Frame} {now : Nat} {p : Pid} {q : Peer}

/-! ### Failed tags (11 R275) -/

theorem State.untrusted_eq (s : State) (p : Pid) (port : HalfId) (f : Frame) : s.untrusted p port f = { s with
    links := { s.links with authFail := satAdd s.links.authFail 1 }
    parts := (s.untrusted p port f).parts
    outputs := .port port (.nak f.src f.vc f.seq) :: s.outputs } := by
  have hensure (t : State) (m : ModId) : t.ensurePeer p m = { t with parts := (t.ensurePeer p m).parts } := by
    unfold State.ensurePeer
    split
    · rfl
    · rfl
  unfold State.untrusted
  rw [hensure]
  rfl

/-- The first failures leave the source as it is, and so do all of one that is lost. -/
theorem tagFailure_counted (hq : s.peer p f.src = some q) (hfew : q.fails < 15 ∨ q.lost ≠ none) :
    s.tagFailure p h f = s.untrusted p h f ∧ (s.untrusted p h f).peer p f.src = some { q with fails := q.fails + 1 } := by
  have hpeer := State.peer_untrusted s p h f
  rw [hq, Option.getD_some] at hpeer
  refine ⟨?_, hpeer⟩
  rw [State.tagFailure_eq hpeer]
  split
  · next hmany =>
    have hlost : q.lost ≠ none := by
      rcases hfew with hfew | hlost
      · exact absurd hmany (by simp only; omega)
      · exact hlost
    exact State.losePeer_lost hpeer hlost 3
  · rfl

/-- The sixteenth loses it. -/
theorem tagFailure_loses (hq : s.peer p f.src = some q) (hmany : 15 ≤ q.fails) (hlost : q.lost = none) :
    (s.tagFailure p h f).peerLost p f.src = some 0x0302 := by
  have hpeer := State.peer_untrusted s p h f
  rw [hq, Option.getD_some] at hpeer
  rw [State.tagFailure_eq hpeer, if_pos (by simp only; omega)]
  exact State.peerLost_losePeer hpeer hlost 3

/-- A source that was not known is, with one failure. -/
theorem tagFailure_stranger (hq : s.peer p f.src = none) : s.tagFailure p h f = s.untrusted p h f ∧
    (s.untrusted p h f).peer p f.src = some { Peer.fresh f.src s.now with fails := 1 } := by
  have hpeer := State.peer_untrusted s p h f
  rw [hq, Option.getD_none] at hpeer
  refine ⟨?_, hpeer⟩
  rw [State.tagFailure_eq hpeer, if_neg (by simp [Peer.fresh])]

/-! ### Credits (11 R265) -/

/-- A credit frame gives back credits, on a native link those of the half. -/
theorem exec_frameReceipt_native (hup : s.halfUp h = true) (hfits : Fits s h f) (hcrc : f.crcOk = true) (hbody : f.body = .credit)
    (heth : (s.cfgOf h).eth = false) : exec (.frameReceipt h f now) s =
      .next ((s.at_ now).setHalf h fun y => { y with out := y.out.minus f.credits }).pump := by
  cases hjob : s.partOfJob f.jobTag with
  | none => exact exec_frameReceipt_credit_jobless hup hfits hcrc hbody hjob
  | some p =>
    have hnot : ¬ ((s.at_ now).cfgOf h).eth = true := by
      have hcfg : ((s.at_ now).cfgOf h).eth = false := heth
      rw [hcfg]
      exact Bool.false_ne_true
    rw [exec_frameReceipt_credit hup hfits hcrc hbody hjob, State.takeCredits, if_neg hnot]

theorem creditFrame_spec (hup : s.halfUp h = true) (hfits : Fits s h f) (hcrc : f.crcOk = true) (hbody : f.body = .credit) :
    ∃ u, exec (.frameReceipt h f now) s = .next u ∧ u.mem = s.mem ∧ u.tiles = s.tiles ∧ (s.links.txq = [] →
      ((s.cfgOf h).eth = false → (u.half h).out = (s.half h).out.minus f.credits ∧ u.parts = s.parts) ∧
      (∀ p q, (s.cfgOf h).eth = true → s.partOfJob f.jobTag = some p → s.peer p f.src = some q →
        (u.peer p f.src).map (·.out) = some (q.out.minus f.credits) ∧ u.links = s.links)) := by
  cases heth : (s.cfgOf h).eth with
  | false =>
    have hsent := Sent.pump ((s.at_ now).setHalf h fun y => { y with out := y.out.minus f.credits })
    refine ⟨_, exec_frameReceipt_native hup hfits hcrc hbody heth, by rw [hsent]; rfl, by rw [hsent]; rfl, fun hquiet => ⟨fun _ => ?_,
      fun _ _ heth' => absurd heth' Bool.false_ne_true⟩⟩
    rw [State.pump_of_empty (s := (s.at_ now).setHalf h fun y => { y with out := y.out.minus f.credits }) hquiet]
    exact ⟨congrArg HalfPort.out (State.half_setHalf ..), rfl⟩
  | true =>
    cases hjob : s.partOfJob f.jobTag with
    | none =>
      have hsent := Sent.pump ((s.at_ now).setHalf h fun y => { y with out := y.out.minus f.credits })
      exact ⟨_, exec_frameReceipt_credit_jobless hup hfits hcrc hbody hjob, by rw [hsent]; rfl, by rw [hsent]; rfl, fun _ =>
        ⟨fun heth' => absurd heth'.symm Bool.false_ne_true, fun _ _ _ hsome => by cases hsome⟩⟩
    | some p =>
      have hsent := (Sent.takeCredits (s.at_ now) p f.src h f.credits).trans (Sent.pump _)
      refine ⟨_, exec_frameReceipt_credit hup hfits hcrc hbody hjob, by rw [hsent]; rfl, by rw [hsent]; rfl, fun hquiet =>
        ⟨fun heth' => absurd heth'.symm Bool.false_ne_true, fun k q _ hk hq => ?_⟩⟩
      cases hk
      have hgo : ((s.at_ now).cfgOf h).eth = true := heth
      have hlinks : ((s.at_ now).takeCredits p f.src h f.credits).links = s.links := by rw [State.takeCredits, if_pos hgo]; rfl
      have hpeer := peer_takeCredits (s := s.at_ now) (port := h) (q := q) hq f.credits
      rw [State.pump_of_empty (by rw [hlinks]; exact hquiet), hpeer, Option.map_some, hgo, if_pos rfl]
      exact ⟨rfl, hlinks⟩

/-! ### Frames for others (11 R266; 14 R334) -/

/-- A discarded frame is counted, and its room on the link is free again. -/
theorem discarded_spec (s : State) (h : HalfId) (f : Frame) : let u := s.discardFrame.freeRoom h f
    u.links.discards = satAdd s.links.discards 1 ∧ u = { s with links := u.links, outputs := u.outputs } := by
  intro u
  obtain ⟨hframe, hcount⟩ := RoomFreed.freeRoom s.discardFrame h f
  exact ⟨hcount, hframe⟩

theorem deliver_discards (hother : f.dst ≠ s.links.modId ∨ (s.partOfJob f.jobTag = none ∧ s.moultOfJob f.jobTag = none)) :
    s.deliver h f = s.discardFrame.freeRoom h f := by
  by_cases hdst : f.dst = s.links.modId
  · obtain ⟨hjob, hmoult⟩ := hother.resolve_left (not_not.2 hdst)
    rw [deliver_jobless hdst hjob, moultFrame_unknown hmoult]
  · exact deliver_other hdst

theorem deliver_moulting (hdst : f.dst = s.links.modId) (hjob : s.partOfJob f.jobTag = none) : let u := s.deliver h f
    u.links.discards = satAdd s.links.discards 1 ∧ u.mem = s.mem ∧ u.sync = s.sync ∧ u.tiles = s.tiles := by
  intro u
  have hu : u = (s.moultFrame f).freeRoom h f := deliver_jobless hdst hjob
  obtain ⟨hsent, hcount⟩ := moultFrame_spec s f
  obtain ⟨hframe, hsame⟩ := RoomFreed.freeRoom (s.moultFrame f) h f
  rw [hu]
  exact ⟨hsame.trans hcount, by rw [hframe, hsent]; rfl, by rw [hframe, hsent]; rfl, by rw [hframe, hsent]; rfl⟩

end

/-! ### The statement -/

/-- Settles O42, from the rules above for each way a frame goes out, comes in, or goes out again. -/
theorem framesReceived : Obligations.FramesReceived := by
  unfold Obligations.FramesReceived
  refine ⟨fun s p m x q hx hm ht hq => ?sent, fun s h f now => ?received, fun s h id => ?again, fun s p addr payload pause => ?icmp⟩
  case sent =>
    refine ⟨State.send_lost hm hq, fun hl hwait => ?_, fun h hl hk hfr htx => send_one_spec hx hm ht hq hl hk hfr htx, fun h htx => ?_⟩
    · exact (State.send_one_waits hx hm ht hq hl hwait).trans rfl
    · obtain ⟨⟨hport, hup, hreach⟩, hcredit⟩ := txHalf_spec (State.id_of_peer hq) htx
      exact ⟨hport, hup, hreach, fun heth => linkRoom_bytes (hasCredit_native heth hcredit)⟩
  case received =>
    refine ⟨exec_frameReceipt_down, exec_frameReceipt_misfit, exec_frameReceipt_spoiled, creditFrame_spec, fun hup hfits hcrc hbody =>
      ⟨exec_frameReceipt_early hup hfits hcrc hbody, fun horder hother => ?other, fun p horder hdst hjob _ => ?moulting, fun p horder hdst hjob => ?mine⟩⟩
    case other =>
      have hrun := exec_frameReceipt_delivered hup hfits hcrc hbody horder
      rw [deliver_discards (s := s.at_ now) hother] at hrun
      exact ⟨_, hrun, discarded_spec (s.at_ now) h f⟩
    case moulting =>
      exact ⟨_, exec_frameReceipt_delivered hup hfits hcrc hbody horder, deliver_moulting (s := s.at_ now) hdst hjob⟩
    have hrun := exec_frameReceipt_delivered hup hfits hcrc hbody horder
    refine ⟨fun hq => ?stranger, fun q hq hbad => ?untrusted, fun q hq htag hkeyed => ?accepted⟩
    case stranger =>
      obtain ⟨hcounted, hpeer⟩ := tagFailure_stranger (s := s.at_ now) (h := h) (p := p) hq
      have hframe := State.untrusted_eq (s.at_ now) p h f
      rw [deliver_stranger (s := s.at_ now) hdst hjob hq, hcounted] at hrun
      exact ⟨_, hrun, by rw [hframe]; rfl, by rw [hframe]; rfl, hpeer, by rw [hframe]; rfl⟩
    case untrusted =>
      rw [deliver_untrusted (s := s.at_ now) hdst hjob hq hbad] at hrun
      refine ⟨fun hfew => ?_, fun hmany hlost => ⟨_, hrun, tagFailure_loses (s := s.at_ now) hq hmany hlost⟩⟩
      obtain ⟨hcounted, hpeer⟩ := tagFailure_counted (s := s.at_ now) (h := h) hq hfew
      rw [hcounted] at hrun
      exact ⟨_, hrun, State.untrusted_eq (s.at_ now) p h f, hpeer⟩
    case accepted =>
      rw [deliver_accepted (s := s.at_ now) hdst hjob hq htag hkeyed] at hrun
      refine ⟨fun hcopy hquiet => ?copy, fun hnew hvs hbody => ?alive, fun index op o r hnew hvs hbody hop hposts hobj hfence hwf hnobody hr => ?sync,
        fun hnew hvs => ⟨_, hrun, acceptFrame_keyed (s := s.at_ now) hq hkeyed hnew hvs⟩, fun xfer addr bs last hbody hvc hearly hin => ?put⟩
      case copy =>
        rw [acceptFrame_copy (s := s.at_ now) hcopy hquiet] at hrun
        have hsent := Sent.acknowledged (s.at_ now) p h f
        refine ⟨_, hrun, by rw [hsent]; rfl, by rw [hsent]; rfl, by rw [hsent]; rfl, ?_⟩
        rw [peer_acknowledged (s := s.at_ now) hq]
        rfl
      case alive =>
        obtain ⟨hsent, hpeer⟩ := acceptFrame_keepAlive (s := s.at_ now) (port := h) hq hnew hvs hbody
        exact ⟨_, hrun, by rw [hsent]; rfl, by rw [hsent]; rfl, by rw [hsent]; rfl, hpeer⟩
      case sync =>
        exact ⟨_, hrun, acceptFrame_syncOp (s := s.at_ now) hnew hvs hbody hop hposts hobj hfence hwf hnobody hr⟩
      case put =>
        exact ⟨fun hnext => ⟨_, hrun, acceptFrame_early (s := s.at_ now) hq hearly hvc hnext⟩,
          fun hseq hwait => ⟨_, hrun, acceptFrame_held (s := s.at_ now) hq hearly hvc hbody hin hseq hwait⟩,
          fun hseq hwait hfence hbad hwf => ⟨_, hrun, acceptFrame_written (s := s.at_ now) hq hearly hvc hbody hin hseq hwait hfence hbad hwf⟩⟩
  case again =>
    refine ⟨exec_replay_unbuffered, fun f hf => ?_⟩
    rw [exec_frameNak_buffered hf, exec_datagramResend_buffered hf]
    refine ⟨fun hopens => ?_, fun hopens => ?_, fun hopens hdgram hlate => ?_, fun hnot => ?_⟩
    · exact whenDue_of_due _ _ (framesOpen_iff.2 hopens)
    · exact whenDue_of_not_due _ _ (Bool.eq_false_iff.2 (hopens ∘ framesOpen_iff.1))
    · refine whenDue_of_due _ _ ?_
      rw [framesOpen_iff.2 hopens, hdgram, decide_eq_true hlate]
      rfl
    · refine whenDue_of_not_due _ _ ?_
      rcases hnot with hclosed | hnative | hsoon
      · rw [Bool.eq_false_iff.2 (hclosed ∘ framesOpen_iff.1)]
        rfl
      · rw [hnative, Bool.and_false]
        rfl
      · rw [decide_eq_false (Nat.not_le.2 hsoon), Bool.and_false]
  case icmp =>
    refine ⟨fun hup hown => ?_, fun hup hother => ?_, fun hup => ?_, fun hoff => exec_priorityFlowControl_ignored hoff pause,
      fun hup hpfc => priorityFlowControl_spec hup hpfc pause⟩
    · have haddr := (eq_ethAddress_iff s p addr).2 hown
      rw [exec_neighborSolicitation, exec_echoRequest, State.icmp_own hup haddr, State.icmp_own hup haddr]
      exact ⟨rfl, rfl⟩
    · have haddr := hother ∘ (eq_ethAddress_iff s p addr).1
      rw [exec_neighborSolicitation, exec_echoRequest, State.icmp_other hup haddr, State.icmp_other hup haddr]
      exact ⟨rfl, rfl⟩
    · rw [exec_neighborSolicitation, exec_echoRequest, State.icmp_down hup, State.icmp_down hup]
      exact ⟨rfl, rfl⟩

end Sys2Proof.Machine
end

