-- ==== Sys2Proof/Proofs/HostControls.lean ====
section
/-!
PROOFS. ATS invalidations, the Mask bits of MSI-X, SR-IOV and FENCE (14 R327, R334; 16 R358, R369, R385).
-/
namespace Sys2Proof.Machine

section
variable {s : State} {fn : Fn}

/-! ### Translations, vectors, virtual functions (14 R327; 16 R358, R385) -/

theorem exec_atsInvalidation (page : BitVec 52) : exec (.atsInvalidation fn page) s = .next (if s.fnUp fn then
    s.modFunc fn fun f => { f with atc := f.atc.filter fun x => decide (x ≠ page) } else s) := by
  simp only [exec, execAtsInvalidation, decide_not]

theorem exec_srIovEnable (k : Nat) : exec (.srIovEnable k) s = .next (if s.fnUp 0 ∧ k ≤ 16 then { s with vfs := k } else s) := by
  simp only [exec, execSrIovEnable, Bool.and_eq_true, decide_eq_true_eq]

/-- Function n once the Mask bit of vector v is clear: no message of the vector is pending any more. -/
def State.unmask (s : State) (n : Fn) (v : Nat) : State :=
  s.modFunc n fun f => { f with unmasked := v :: f.unmasked, msixPend := f.msixPend.filter fun x => decide (x ≠ v) }

theorem exec_msixVectorUnmask_masked {v : Nat} (hup : s.fnUp fn = true) (hv : v < vectors fn)
    (hmask : (s.func fn).unmasked.contains v = false) : exec (.msixVectorUnmask fn v) s =
      .next (if (s.func fn).msixPend.contains v then (s.unmask fn v).emit (.msix fn v) else s.unmask fn v) := by
  simp only [exec, execMsixVectorUnmask, hup, hv, hmask, Bool.not_false, decide_true, Bool.and_true, if_true, State.unmask, decide_not]

/-- The message whose Pending Bit stands is sent, no other, and no other function changes (16 R385). -/
theorem exec_msixVectorUnmask_spec {v : Nat} (hup : s.fnUp fn = true) (hv : v < vectors fn)
    (hmask : (s.func fn).unmasked.contains v = false) :
    ∃ u : State, exec (.msixVectorUnmask fn v) s = .next u ∧ u = { s with funcs := u.funcs, outputs := u.outputs } ∧
      u.func fn = { s.func fn with unmasked := v :: (s.func fn).unmasked, msixPend := (s.func fn).msixPend.filter fun x => decide (x ≠ v) } ∧
      (∀ m, m ≠ fn → u.func m = s.func m) ∧
      u.outputs = if (s.func fn).msixPend.contains v then .msix fn v :: s.outputs else s.outputs := by
  have hsame : (s.unmask fn v).func fn = _ := s.func_modFunc fn _
  have hother : ∀ m, m ≠ fn → (s.unmask fn v).func m = s.func m := (s.modFunc_frame fn _).2
  refine ⟨_, exec_msixVectorUnmask_masked hup hv hmask, ?_⟩
  cases (s.func fn).msixPend.contains v with
  | true => exact ⟨rfl, hsame, hother, rfl⟩
  | false => exact ⟨rfl, hsame, hother, rfl⟩

/-! ### FENCE (14 R334; 16 R369) -/

/-- The commands that FENCE c, number cid, waits for: those fetched before it, of its ring alone where SCOPE = 0. -/
def fenceBefore (cmds : List Cmd) (cid : Nat) (c : Cmd) : List Cmd :=
  (cmds.takeWhile fun x => decide (x.cid ≠ cid)).filter fun x => bit (dw c.desc 1) 0 || decide (x.ring = c.ring)

theorem fenceBefore_eq_ite (cmds : List Cmd) (cid : Nat) (c : Cmd) : fenceBefore cmds cid c =
    if bit (dw c.desc 1) 0 then cmds.takeWhile fun x => !decide (x.cid = cid)
    else (cmds.takeWhile fun x => !decide (x.cid = cid)).filter fun x => decide (x.ring = c.ring) := by
  cases h : bit (dw c.desc 1) 0 with
  | true => simp [fenceBefore, h]
  | false => simp [fenceBefore, h]

theorem exec_fence_moulting (cid : Nat) (hst : s.fnState fn = .moulting) : exec (.fence fn cid) s = .fault (.notDue "FENCE") := by
  simp only [exec, execFence]
  cases s.findCmd fn cid with
  | none => rfl
  | some c => exact if_pos (.inr (.inr hst))

section
variable {cid : Nat} {c : Cmd} (hc : s.findCmd fn cid = some c) (hop : bits (dw c.desc 0) 63 56 = 0x32) (hup : s.up = true)
  (hst : s.fnState fn ≠ .moulting)
include hc hop hup hst

/-- A fetched FENCE checks its fields, then waits. -/
theorem exec_fence_fetched : exec (.fence fn cid) s =
    if headBad c.desc || !zeroFrom c.desc 2 || decide (1 < (dw c.desc 1).toNat) then .next (s.complete fn c eField 0 0)
    else whenDue (fenceBefore (s.func fn).cmds cid c).isEmpty "FENCE" (s.complete fn c cOk 0 0) := by
  simp only [exec, execFence, hc, hop, hup, hst, fenceBefore_eq_ite, ne_eq, not_true, Bool.not_true, Bool.false_eq_true, or_self, if_false]

theorem exec_fence_misformed (hbad : headBad c.desc = true ∨ zeroFrom c.desc 2 = false ∨ 1 < (dw c.desc 1).toNat) :
    exec (.fence fn cid) s = .next (s.complete fn c 0x0102 0 0) := by
  rw [exec_fence_fetched hc hop hup hst]
  exact if_pos (by simpa [or_assoc] using hbad)

section
variable (hhead : headBad c.desc = false) (hzero : zeroFrom c.desc 2 = true) (hscope : (dw c.desc 1).toNat ≤ 1)
include hhead hzero hscope

theorem exec_fence_formed : exec (.fence fn cid) s =
    whenDue (fenceBefore (s.func fn).cmds cid c).isEmpty "FENCE" (s.complete fn c cOk 0 0) := by
  rw [exec_fence_fetched hc hop hup hst]
  exact if_neg (by simpa [hhead, hzero] using hscope)

theorem exec_fence_completes (hnone : fenceBefore (s.func fn).cmds cid c = []) :
    exec (.fence fn cid) s = .next (s.complete fn c 0 0 0) := by
  rw [exec_fence_formed hc hop hup hst hhead hzero hscope]
  exact whenDue_of_due _ _ (List.isEmpty_iff.2 hnone)

theorem exec_fence_waits (hsome : fenceBefore (s.func fn).cmds cid c ≠ []) : exec (.fence fn cid) s = .fault (.notDue "FENCE") := by
  rw [exec_fence_formed hc hop hup hst hhead hzero hscope]
  exact whenDue_of_not_due _ _ (List.isEmpty_eq_false_iff.2 hsome)

end

end

end

/-! ### The statement -/

/-- Settles O28, one rule for each event. -/
theorem hostControls : Obligations.HostControls := by
  intro s fn
  refine ⟨exec_atsInvalidation, fun v hup hv hmask => ?unmask, exec_srIovEnable, fun cid c hc hop hup hst hhead hzero hscope => ?formed,
    fun cid hst => exec_fence_moulting cid hst, fun cid c hc hop hup hst hbad => exec_fence_misformed hc hop hup hst hbad⟩
  case unmask => exact exec_msixVectorUnmask_spec hup (vectors_eq fn ▸ hv) hmask
  case formed =>
    exact ⟨exec_fence_completes hc hop hup hst hhead hzero hscope, exec_fence_waits hc hop hup hst hhead hzero hscope⟩

end Sys2Proof.Machine
end

