-- ==== Sys2Proof/Proofs/SecurityFrames.lean ====
section
/-!
PROOFS. What leaves the security state alone: each named update of the state that writes no key, level, session or log entry.
-/
namespace Sys2Proof.Machine
open Sys2Proof.Claims

@[simp] theorem State.sec_ite (c : Prop) [Decidable c] (a b : State) : (if c then a else b).sec = if c then a.sec else b.sec :=
  apply_ite State.sec c a b

/-- A fold of updates that keep the security state keeps it. -/
@[simp] theorem State.foldl_sec {α : Type} (f : State → α → State) (h : ∀ s x, (f s x).sec = s.sec) (xs : List α) (s : State) :
    (xs.foldl f s).sec = s.sec :=
  List.foldlRecOn xs f (motive := fun t => t.sec = s.sec) rfl fun t ht x _ => (h t x).trans ht

section
variable (s : State)

@[simp] theorem State.tick_sec : (s.tick).sec = s.sec := by simp [State.tick]

@[simp] theorem State.countReruns_sec (t : TileId) (n : Nat) : (s.countReruns t n).sec = s.sec := by simp [State.countReruns]

@[simp] theorem State.countCorrected_sec (t : TileId) (n : Nat) : (s.countCorrected t n).sec = s.sec := by simp [State.countCorrected]

@[simp] theorem State.ensurePeer_sec (p : Pid) (m : ModId) : (s.ensurePeer p m).sec = s.sec := (Work.ensurePeer s p m).sec

@[simp] theorem State.modPeer_sec (p : Pid) (m : ModId) (f : Peer → Peer) : (s.modPeer p m f).sec = s.sec := (Work.modPeer s p m f).sec

@[simp] theorem State.setHalf_sec (h : HalfId) (f : HalfPort → HalfPort) : (s.setHalf h f).sec = s.sec := (Work.setHalf s h f).sec

@[simp] theorem State.pump_sec : (s.pump).sec = s.sec := (Work.pump s).sec

@[simp] theorem State.send_sec (p : Pid) (m : ModId) (x : Message) : (s.send p m x).sec = s.sec := (Work.send s p m x).sec

@[simp] theorem State.portSend_sec (h : HalfId) (m : Message) : (s.portSend h m).sec = s.sec := by simp [State.portSend]

@[simp] theorem State.dropTx_sec (which : Pid → ModId → Bool) : (s.dropTx which).sec = s.sec := by simp [State.dropTx]

@[simp] theorem State.freeLink_sec (h : HalfId) (c : Vc) (n : Nat) : (s.freeLink h c n).sec = s.sec := by simp [State.freeLink]

@[simp] theorem State.freePeer_sec (p : Pid) (m : ModId) (c : Vc) (n : Nat) : (s.freePeer p m c n).sec = s.sec := by
  simp only [State.freePeer]
  split <;> simp

@[simp] theorem State.freeUnits_sec (p : Pid) (m : ModId) (h : HalfId) (c : Vc) (n : Nat) : (s.freeUnits p m h c n).sec = s.sec :=
  by simp [State.freeUnits]

@[simp] theorem State.freeRoom_sec (h : HalfId) (f : Frame) : (s.freeRoom h f).sec = s.sec := by simp [State.freeRoom]

@[simp] theorem State.takeCredits_sec (p : Pid) (m : ModId) (h : HalfId) (x : PerVc) : (s.takeCredits p m h x).sec = s.sec :=
  by simp [State.takeCredits]

@[simp] theorem State.dropArrived_sec (p : Pid) (m : ModId) (x : PerVc) : (s.dropArrived p m x).sec = s.sec := by simp [State.dropArrived]

@[simp] theorem State.flushOverflow_sec (n : Fn) : (s.flushOverflow n).sec = s.sec := (Work.flushOverflow s n).sec

@[simp] theorem State.raise_sec (n : Fn) (e : Event) : (s.raise n e).sec = s.sec := (Work.raise s n e).sec

@[simp] theorem State.flushHeld_sec (n : Fn) : (s.flushHeld n).sec = s.sec := (Work.flushHeld s n).sec

@[simp] theorem State.raisePf0_sec (code : BitVec 16) (pid : Option Pid) (d2 d3 : Nat) : (s.raisePf0 code pid d2 d3).sec = s.sec :=
  (Work.raisePf0 s code pid d2 d3).sec

@[simp] theorem State.raiseFn_sec (code : BitVec 16) (p : Pid) (d2 d3 : Nat) : (s.raiseFn code p d2 d3).sec = s.sec :=
  (Work.raiseFn s code p d2 d3).sec

@[simp] theorem State.raiseBoth_sec (code : BitVec 16) (p : Option Pid) (d2 d3 : Nat) : (s.raiseBoth code p d2 d3).sec = s.sec :=
  (Work.raiseBoth s code p d2 d3).sec

@[simp] theorem State.complete_sec (n : Fn) (c : Cmd) (code : BitVec 16) (status info : Nat) : (s.complete n c code status info).sec = s.sec :=
  (Work.complete s n c code status info).sec

@[simp] theorem State.flushHost_sec : (s.flushHost).sec = s.sec := (Work.flushHost s).sec

@[simp] theorem State.startCmd_sec (n : Fn) (c : Cmd) : (s.startCmd n c).sec = s.sec := by simp [State.startCmd]

theorem State.holdWrites_sec {s t : State} {p : Pid} {rs : List (Nat × Nat)} (h : s.holdWrites p rs = some t) : t.sec = s.sec := by
  simp only [State.holdWrites] at h
  split at h
  · cases h
  · cases h
    rfl

@[simp] theorem State.siloWriteH_sec (p : Pid) (hint a : Nat) (bs : List Byte) : (s.siloWriteH p hint a bs).sec = s.sec :=
  (Work.siloWriteH s p hint a bs).sec

@[simp] theorem State.siloWrite_sec (p : Pid) (a : Nat) (bs : List Byte) : (s.siloWrite p a bs).sec = s.sec := (Work.siloWrite s p a bs).sec

@[simp] theorem State.siloZero_sec (p : Pid) (a n : Nat) : (s.siloZero p a n).sec = s.sec := (Work.siloZero s p a n).sec

@[simp] theorem State.siloRecord_sec (p : Pid) (a : Nat) (bs : List Byte) : (s.siloRecord p a bs).sec = s.sec := (Work.siloRecord s p a bs).sec

@[simp] theorem State.hintRead_sec (p : Pid) (hint a n : Nat) : (s.hintRead p hint a n).sec = s.sec := (Work.hintRead s p hint a n).sec

@[simp] theorem State.readLines_sec (p : Pid) (rs : List (Nat × Nat)) : (s.readLines p rs).sec = s.sec := (Work.readLines s p rs).sec

@[simp] theorem State.storeWrite_sec (t : TileId) (a : Nat) (bs : List Byte) : (s.storeWrite t a bs).sec = s.sec := (Work.storeWrite s t a bs).sec

@[simp] theorem State.settleK_sec : (s.settleK).sec = s.sec := (Work.settleK s).sec

@[simp] theorem State.markPart_sec (p : Pid) (k : FlagKind) : (s.markPart p k).sec = s.sec := (Work.markPart s p k).sec

@[simp] theorem State.markWhere_sec (k : FlagKind) (which : Pid → Bool) : (s.markWhere k which).sec = s.sec := (Work.markWhere s k which).sec

@[simp] theorem State.markAll_sec (k : FlagKind) : (s.markAll k).sec = s.sec := (Work.markAll s k).sec

@[simp] theorem State.markOthers_sec (p : Pid) : (s.markOthers p).sec = s.sec := (Work.markOthers s p).sec

@[simp] theorem State.touchEnd_sec (p : Pid) : (s.touchEnd p).sec = s.sec := (Work.touchEnd s p).sec

@[simp] theorem State.retirePc_sec (p : Nat) : (s.retirePc p).sec = s.sec := by
  unfold State.retirePc
  split <;> simp

@[simp] theorem State.pcBudget_sec (p : Nat) : (s.pcBudget p).sec = s.sec := by simp [State.pcBudget]

@[simp] theorem State.pcUe_sec (p : Nat) : (s.pcUe p).sec = s.sec := by simp [State.pcUe]

@[simp] theorem State.countUe_sec (dev : Nat) : (s.countUe dev).sec = s.sec := by simp [State.countUe]

@[simp] theorem State.countCe_sec : (s.countCe).sec = s.sec := by simp [State.countCe]

@[simp] theorem State.repairRow_sec (k : Nat × Nat × Nat) : (s.repairRow k).sec = s.sec := by simp [State.repairRow]

@[simp] theorem State.countPersistent_sec (dev : Nat) : (s.countPersistent dev).sec = s.sec := by simp [State.countPersistent]

@[simp] theorem State.setObj_sec (o : Nat) (x : BitVec 128) : (s.setObj o x).sec = s.sec := (Work.setObj s o x).sec

@[simp] theorem State.initObj_sec (o : Nat) (x : BitVec 128) : (s.initObj o x).sec = s.sec := by simp [State.initObj]

@[simp] theorem State.wakeHosts_sec (o : Nat) : (s.wakeHosts o).sec = s.sec := (Work.wakeHosts s o).sec

@[simp] theorem State.entryStatus_sec (p : Pid) (img : List Byte) (idx : Nat) (code : BitVec 16) (flags : Nat) :
    (s.entryStatus p img idx code flags).sec = s.sec := (Work.entryStatus s p img idx code flags).sec

@[simp] theorem State.spoilEntry_sec (p : Pid) (l : Launch) (g : Program) (e : LinkEntry) (r : LinkRec) : (s.spoilEntry p l g e r).sec = s.sec :=
  (Work.spoilEntry s p l g e r).sec

@[simp] theorem State.finishCmd_sec (n : Fn) (cid : Nat) (p : Pid) (rec : Option (Nat × Nat)) (code : BitVec 16) (status info : Nat) :
    (s.finishCmd n cid p rec code status info).sec = s.sec := (Work.finishCmd s n cid p rec code status info).sec

@[simp] theorem State.postWritten_sec : (s.postWritten).sec = s.sec := by
  refine State.foldl_sec _ (fun s n => State.foldl_sec _ (fun s c => ?_) _ _) _ _
  split <;> simp

@[simp] theorem State.putRecord_sec (p : Pid) (l : Launch) (bs : List Byte) : (s.putRecord p l bs).sec = s.sec := (Work.putRecord s p l bs).sec

@[simp] theorem State.setChain_sec (p : Pid) (k : SlotId) (c : List Byte) : (s.setChain p k c).sec = s.sec := (Work.setChain s p k c).sec

@[simp] theorem State.forgetWaits_sec (p : Pid) : (s.forgetWaits p).sec = s.sec := by simp [State.forgetWaits]

@[simp] theorem State.settleTimes_sec (l : Launch) : (s.settleTimes l).1.sec = s.sec := rfl

@[simp] theorem State.clearLaunch_sec (p : Pid) : (s.clearLaunch p).sec = s.sec := (Work.clearLaunch s p).sec

@[simp] theorem State.failLaunch_sec (p : Pid) (code : BitVec 16) : (s.failLaunch p code).sec = s.sec := (Work.failLaunch s p code).sec

@[simp] theorem State.refuseLaunch_sec (p : Pid) (code : BitVec 16) : (s.refuseLaunch p code).sec = s.sec := (Work.refuseLaunch s p code).sec

@[simp] theorem State.finishSolve_sec (p : Pid) (q : QSolve) (rec512 : List Byte) (code : BitVec 16) (status iter : Nat) (write : Bool) :
    (s.finishSolve p q rec512 code status iter write).sec = s.sec := (Work.finishSolve s p q rec512 code status iter write).sec

@[simp] theorem State.undoSolve_sec (e : EngId) (c : ChanId) : (s.undoSolve e c).sec = s.sec := (Work.undoSolve s e c).sec

@[simp] theorem State.restoreFactor_sec (e : EngId) (c : ChanId) (b : FactorBefore) : (s.restoreFactor e c b).sec = s.sec :=
  by simp [State.restoreFactor]

@[simp] theorem State.endChannels_sec (which : ChanAlloc → Bool) (code : BitVec 16) (write : Bool) : (s.endChannels which code write).sec = s.sec :=
  (Work.endChannels s which code write).sec

@[simp] theorem State.sendAbort_sec (p : Pid) : (s.sendAbort p).sec = s.sec := (Work.sendAbort s p).sec

@[simp] theorem State.endWork_sec (p : Pid) (launchCode : BitVec 16) (save : Option (Fn × Nat)) (write : Bool) :
    (s.endWork p launchCode save write).sec = s.sec := (Work.endWork s p launchCode save write).sec

@[simp] theorem State.tileFault_sec (t : TileId) (k : FaultSrc) (cause rec22 pc : Nat) (uncorrectable : Bool) :
    (s.tileFault t k cause rec22 pc uncorrectable).sec = s.sec := (Work.tileFault s t k cause rec22 pc uncorrectable).sec

@[simp] theorem State.coreFaultU_sec (t : TileId) (cause addr : Nat) (uncorrectable : Bool) : (s.coreFaultU t cause addr uncorrectable).sec = s.sec :=
  (Work.coreFaultU s t cause addr uncorrectable).sec

@[simp] theorem State.coreFault_sec (t : TileId) (cause addr : Nat) : (s.coreFault t cause addr).sec = s.sec := (Work.coreFault s t cause addr).sec

@[simp] theorem State.raiseUncorrectable_sec (p : Option Pid) (dev : Nat) : (s.raiseUncorrectable p dev).sec = s.sec :=
  by simp [State.raiseUncorrectable]

@[simp] theorem State.killLaunch_sec (p : Pid) (code : BitVec 16) : (s.killLaunch p code).sec = s.sec := (Work.killLaunch s p code).sec

@[simp] theorem State.retire_sec (t : TileId) (f : Core → Core) : (s.retire t f).sec = s.sec := (Work.retire s t f).sec

@[simp] theorem State.sendHint_sec (p : Pid) (idle : Bool) : (s.sendHint p idle).sec = s.sec := by
  unfold State.sendHint
  split <;> simp

@[simp] theorem State.storeAll_sec (t : TileId) (w : Nat) (xs : List (Nat × Nat)) : (s.storeAll t w xs).sec = s.sec := by simp [State.storeAll]

@[simp] theorem State.runMop_sec (t : TileId) (q : QMop) (counted : Bool) : (s.runMop t q counted).sec = s.sec := by simp [State.runMop]

@[simp] theorem State.dmaMove_sec (t : TileId) (p : Pid) (q : QDma) (x : Dma) : (s.dmaMove t p q x).sec = s.sec := by simp [State.dmaMove]

@[simp] theorem State.touchWatch_sec (p : Pid) (x : Wupd) (hit : Bool) : (s.touchWatch p x hit).sec = s.sec := by simp [State.touchWatch]

@[simp] theorem State.runWupd_sec (t : TileId) (p : Pid) (x : Wupd) : (s.runWupd t p x).sec = s.sec := by simp [State.runWupd]

@[simp] theorem State.runUpd_sec (t : TileId) (p : Pid) (op : UpdOp) : (s.runUpd t p op).sec = s.sec := by
  unfold State.runUpd
  split <;> simp

theorem State.writeRlog_sec {s t : State} {p : Pid} {x : Program} {l : Launch} {w : Nat} (h : s.writeRlog p x l w = some t) :
    t.sec = s.sec := by
  unfold State.writeRlog at h
  split at h
  · cases h
    rfl
  · dsimp only at h
    split at h
    · cases h
    · split at h
      · split at h
        · cases h
        · cases h
          simp
      · cases h
        simp

@[simp] theorem State.coreUncorrectable_sec (t : TileId) (p : Pid) (a : Nat) : (s.coreUncorrectable t p a).sec = s.sec :=
  by simp [State.coreUncorrectable]

@[simp] theorem State.stopIssue_sec (p : Pid) : (s.stopIssue p).sec = s.sec := by simp [State.stopIssue]

@[simp] theorem State.raiseOverflow_sec (p : Pid) (rid rung : Nat) : (s.raiseOverflow p rid rung).sec = s.sec := by simp [State.raiseOverflow]

@[simp] theorem State.leadOutcome_sec (t : TileId) (p : Pid) (x : Program) (l : Launch) (r : RegionRec) (rung : Nat) (ovr : Bool) :
    (s.leadOutcome t p x l r rung ovr).sec = s.sec := by
  unfold State.leadOutcome
  split
  · simp
  · rw [State.sec_ite, State.raiseOverflow_sec, ite_self, State.writeRlog_sec ‹_›]

@[simp] theorem State.regionOutcome_sec (t : TileId) (flag : Bool) : (s.regionOutcome t flag).sec = s.sec := by
  unfold State.regionOutcome
  split
  · split <;> simp
  · rfl

@[simp] theorem State.resume_sec (w : Waiter) (code : BitVec 16) (flag : Bool) : (s.resume w code flag).sec = s.sec := by
  unfold State.resume
  split
  · split <;> simp
  · split <;> simp
  · simp

@[simp] theorem State.failWaiters_sec (o : Nat) (code : BitVec 16) : (s.failWaiters o code).sec = s.sec := by simp [State.failWaiters]

@[simp] theorem State.wake_sec (o : Nat) : (s.wake o).sec = s.sec := by simp [State.wake]

@[simp] theorem State.expireWaits_sec (o t : Nat) : (s.expireWaits o t).sec = s.sec := by simp [State.expireWaits]

@[simp] theorem State.forwardRelease_sec (p : Pid) (o : Nat) (rel : Release) : (s.forwardRelease p o rel).sec = s.sec :=
  (Work.forwardRelease s p o rel).sec

@[simp] theorem State.overflowUnled_sec (ws : List Waiter) (flag : Bool) : (s.overflowUnled ws flag).sec = s.sec := by simp [State.overflowUnled]

@[simp] theorem State.releaseNow_sec (o : Nat) (flag : Bool) (t : Nat) : (s.releaseNow o flag t).sec = s.sec := by simp [State.releaseNow]

@[simp] theorem State.releaseLaunch_sec (p : Pid) (o : Nat) (r : Nat) (flag : Bool) (t : Nat) : (s.releaseLaunch p o r flag t).sec = s.sec :=
  by simp [State.releaseLaunch]

@[simp] theorem State.hintWaiters_sec (o : Nat) : (s.hintWaiters o).sec = s.sec := by simp [State.hintWaiters]

@[simp] theorem State.takeRelease_sec (p : Pid) (o : Nat) (rel : Release) : (s.takeRelease p o rel).sec = s.sec := by
  unfold State.takeRelease
  split <;> simp

@[simp] theorem State.barrierFull_sec (p : Pid) (o : Nat) : (s.barrierFull p o).sec = s.sec := by
  simp only [State.barrierFull]
  split
  · simp
  · split <;> simp

@[simp] theorem State.fst_sec_ite {α : Type} (c : Prop) [Decidable c] (a b : State × α) :
    (if c then a else b).1.sec = if c then a.1.sec else b.1.sec := apply_ite (fun r : State × α => r.1.sec) c a b

@[simp] theorem State.applyOp_sec (p : Pid) (o : Nat) (op : SyncOp) (who : Option Waiter) (issue : Nat) :
    (s.applyOp p o op who issue).1.sec = s.sec := by
  cases who <;> cases op <;> simp [State.applyOp]

@[simp] theorem State.childArrive_sec (p : Pid) (o : Nat) (child : ModId) (flag : Bool) : (s.childArrive p o child flag).1.sec = s.sec := by
  simp [State.childArrive]

@[simp] theorem State.answer_sec (who : Option Waiter) (code : Option (BitVec 16)) : (s.answer who code).sec = s.sec := by
  unfold State.answer
  split <;> simp

@[simp] theorem State.syncPeerEnd_sec (p : Pid) (m : ModId) (code : BitVec 16) : (s.syncPeerEnd p m code).sec = s.sec := by simp [State.syncPeerEnd]

@[simp] theorem State.sendSync_sec (t : TileId) (p : Pid) (ref : Word) (op : SyncOp) (r : Option Resume) : (s.sendSync t p ref op r).sec = s.sec := by
  simp only [State.sendSync]
  split <;> simp

@[simp] theorem State.noteOrder_sec (o rank : Nat) : (s.noteOrder o rank).sec = s.sec := by simp [State.noteOrder]

@[simp] theorem State.changeEntry_sec (p : Pid) (st : PState) : (s.changeEntry p st).sec = s.sec := by simp [State.changeEntry]

@[simp] theorem State.releaseChannels_sec (which : ChanAlloc → Bool) : (s.releaseChannels which).sec = s.sec := by simp [State.releaseChannels]

@[simp] theorem State.zeroUnits_sec (p : Pid) : (s.zeroUnits p).sec = s.sec := by simp [State.zeroUnits]

@[simp] theorem State.zeroObjects_sec (p : Pid) : (s.zeroObjects p).sec = s.sec := by simp [State.zeroObjects]

@[simp] theorem State.zeroLinkBuffers_sec (p : Pid) : (s.zeroLinkBuffers p).sec = s.sec := by simp [State.zeroLinkBuffers]

@[simp] theorem State.moult2_sec (p : Pid) : (s.moult2 p).sec = s.sec := by simp [State.moult2]

@[simp] theorem State.queueClears_sec (gs : List Nat) : (s.queueClears gs).sec = s.sec := by simp [State.queueClears]

@[simp] theorem State.moult4_sec (p : Pid) : (s.moult4 p).sec = s.sec := by
  simp only [State.moult4, State.raisePf0_sec]
  split
  · simp
  · split <;> simp

@[simp] theorem State.startKeyMoult_sec (p : Pid) (src : Source) (full : Bool) : (s.startKeyMoult p src full).sec = s.sec :=
  by simp [State.startKeyMoult]

@[simp] theorem State.discard_sec (n : Fn) : (s.discard n).1.sec = s.sec := rfl

@[simp] theorem State.writeRstCtl_sec (value : Half) : (s.writeRstCtl value).sec = s.sec := by simp [State.writeRstCtl]

@[simp] theorem State.writeVersion_sec (fn : Fn) (value : Half) : (s.writeVersion fn value).sec = s.sec := by simp [State.writeVersion]

@[simp] theorem State.writeRingCfg_sec (fn : Fn) (ring : RingId) (value : Half) : (s.writeRingCfg fn ring value).sec = s.sec :=
  by simp [State.writeRingCfg]

@[simp] theorem State.writeEvqCfg_sec (fn : Fn) (value : Half) : (s.writeEvqCfg fn value).sec = s.sec := by simp [State.writeEvqCfg]

@[simp] theorem State.readEvents_sec (n : Fn) (k : Nat) : (s.readEvents n k).sec = s.sec := by simp [State.readEvents]

@[simp] theorem State.placeChannels_sec (p : Pid) (k : SlotId) (img : List Byte) (ms : List ChanMap) : (s.placeChannels p k img ms).sec = s.sec := by
  refine State.foldl_sec _ (fun s m => ?_) _ _
  dsimp only
  split <;> simp

@[simp] theorem State.unloadSlot_sec (p : Pid) (k : SlotId) : (s.unloadSlot p k).sec = s.sec := by
  unfold State.unloadSlot
  split
  · rfl
  · rw [State.modPart_sec, State.releaseChannels_sec, State.endChannels_sec]

@[simp] theorem State.install_sec (p : Pid) (k : SlotId) (img : List Byte) (dst : Nat) (m : List EngId × List TileId) (ms : List ChanMap) :
    (s.install p k img dst m ms).sec = s.sec := by simp [State.install]

@[simp] theorem State.markPower_sec : (s.markPower).sec = s.sec := by simp [State.markPower]

@[simp] theorem State.checkFloors_sec : (s.checkFloors).sec = s.sec := by simp [State.checkFloors]

@[simp] theorem State.afterPower_sec : (s.afterPower).sec = s.sec := by simp [State.afterPower]

@[simp] theorem State.writeCap_sec (value : Half) : (s.writeCap value).sec = s.sec := by simp [State.writeCap]

@[simp] theorem State.writePolicy_sec (value : Half) : (s.writePolicy value).sec = s.sec := by simp [State.writePolicy]

@[simp] theorem State.setPk_sec (p : Pid) (k : Nat) : (s.setPk p k).sec = s.sec := by simp [State.setPk]

@[simp] theorem State.lowerPart_sec (p : Pid) : (s.lowerPart p).sec = s.sec := by simp [State.lowerPart]

@[simp] theorem State.raiseLim_sec (p : Pid) : (s.raiseLim p).sec = s.sec := by simp [State.raiseLim]

@[simp] theorem State.raisePart_sec (p : Pid) : (s.raisePart p).sec = s.sec := by simp [State.raisePart]

@[simp] theorem State.clampPk_sec : (s.clampPk).sec = s.sec := by simp [State.clampPk]

@[simp] theorem State.capLoop_sec (x : Sample) : (s.capLoop x).sec = s.sec := by simp [State.capLoop]

@[simp] theorem State.fastLimit_sec : (s.fastLimit).sec = s.sec := by simp [State.fastLimit]

@[simp] theorem State.reportUnmet_sec : (s.reportUnmet).sec = s.sec := by simp [State.reportUnmet]

@[simp] theorem State.limDie_sec (die : Fin 2) (f : EngId → BitVec 5) : (s.limDie die f).sec = s.sec := by simp [State.limDie]

@[simp] theorem State.dieHot_sec (die : Fin 2) (temp : Byte) : (s.dieHot die temp).sec = s.sec := by simp [State.dieHot]

@[simp] theorem State.dieCool_sec (die : Fin 2) : (s.dieCool die).sec = s.sec := by simp [State.dieCool]

@[simp] theorem State.requestDeep_sec : (s.requestDeep).sec = s.sec := by
  unfold State.requestDeep
  split
  · rfl
  · split <;> simp

@[simp] theorem State.trainAll_sec : (s.trainAll).sec = s.sec := by simp [State.trainAll]

@[simp] theorem State.leaveDeep_sec : (s.leaveDeep).sec = s.sec := by simp [State.leaveDeep]

@[simp] theorem State.sortDlog_sec (p : Pid) (l : Launch) (img : List Byte) : (s.sortDlog p l img).sec = s.sec := by
  unfold State.sortDlog
  split <;> simp

@[simp] theorem State.writeTable_sec (p : Pid) (img : List Byte) : (s.writeTable p img).sec = s.sec := by
  refine State.foldl_sec _ (fun s x => ?_) _ _
  split <;> simp

@[simp] theorem State.modLaunch_sec (p : Pid) (f : Launch → Launch) : (s.modLaunch p f).sec = s.sec := by simp [State.modLaunch]

@[simp] theorem State.beginTiles_sec (p : Pid) (x : Program) (h : Launch) : (s.beginTiles p x h).sec = s.sec := by simp [State.beginTiles]

@[simp] theorem State.startFlags_sec (p : Pid) : (s.startFlags p).sec = s.sec := by simp [State.startFlags]

@[simp] theorem State.evalWatch_sec (p : Pid) (step : Word) : (s.evalWatch p step).sec = s.sec := by simp [State.evalWatch]

@[simp] theorem State.closeLaunch_sec (p : Pid) (l : Launch) (x : Program) : (s.closeLaunch p l x).sec = s.sec := by simp [State.closeLaunch]

@[simp] theorem State.launchUnreadable_sec (p : Pid) : (s.launchUnreadable p).sec = s.sec := by simp [State.launchUnreadable]

@[simp] theorem State.readerFails_sec (r : Reader) (dev : Nat) : (s.readerFails r dev).sec = s.sec := by
  unfold State.readerFails
  split
  · rfl
  · split <;> simp
  · split <;> simp
  · split <;> simp
  · simp
  · split
    · rfl
    · split
      · dsimp only
        split <;> simp
      · rfl
  · simp
  · simp

@[simp] theorem State.clearGranule_sec (g : Nat) : (s.clearGranule g).sec = s.sec := by simp [State.clearGranule]

@[simp] theorem State.rotationDone_sec (w : Option (Fn × Nat)) : (s.rotationDone w).sec = s.sec := by
  exact (State.hostOnly_rotationDone s w).sec

@[simp] theorem State.raiseRotated_sec (p : Pid) (link : Bool) : (s.raiseRotated p link).sec = s.sec := by simp [State.raiseRotated]

@[simp] theorem State.addTransfer_sec (p : Pid) (idx : Nat) (m : ModId) : (s.addTransfer p idx m).sec = s.sec := by simp [State.addTransfer]

@[simp] theorem State.passOn_sec (p : Pid) (g : Program) (idx : Nat) (r : LinkRec) (rank : Nat) (carry : Bool) (data : List Byte)
    (skip : Option ModId) :
    (s.passOn p g idx r rank carry data skip).sec = s.sec := by simp [State.passOn]

@[simp] theorem State.countLink_sec (p : Pid) (shed cvt excl waited : Nat) : (s.countLink p shed cvt excl waited).sec = s.sec :=
  by simp [State.countLink]

@[simp] theorem State.signalDone_sec (p : Pid) (r : LinkRec) : (s.signalDone p r).sec = s.sec := by
  unfold State.signalDone
  split <;> simp

@[simp] theorem State.finishEntry_sec (p : Pid) (g : Program) (idx : Nat) (r : LinkRec) (code : BitVec 16) (flags : Nat) :
    (s.finishEntry p g idx r code flags).sec = s.sec := by simp [State.finishEntry]

@[simp] theorem State.failEntries_sec (p : Pid) (code : BitVec 16) (which : Program → LinkRec → Bool) :
    (s.failEntries p code which).sec = s.sec := by
  unfold State.failEntries
  split
  · rfl
  · refine State.foldl_sec _ (fun s e => ?_) _ _
    split <;> simp

@[simp] theorem State.endPeer_sec (p : Pid) (m : ModId) (code : BitVec 16) : (s.endPeer p m code).sec = s.sec := by simp [State.endPeer]

@[simp] theorem State.supply_sec (p : Pid) (l : Launch) (g : Program) (r : LinkRec) (e : LinkEntry) (v : Option Verdict) :
    (s.supply p l g r e v).sec = s.sec := by simp [State.supply]

@[simp] theorem State.appendDlog_sec (p : Pid) (img : List Byte) (rs : List DlogRec) : (s.appendDlog p img rs).sec = s.sec := by
  unfold State.appendDlog
  split <;> simp

@[simp] theorem State.defer_sec (p : Pid) (img : List Byte) (r : LinkRec) (d : Deadline) (step : Word) : (s.defer p img r d step).sec = s.sec :=
  by simp [State.defer]

@[simp] theorem State.resumeEntry_sec (p : Pid) (l : Launch) (g : Program) (idx : Nat) (r : LinkRec) (d : Deadline) (v : Verdict) :
    (s.resumeEntry p l g idx r d v).sec = s.sec := by
  simp only [State.resumeEntry]
  split
  · simp
  · split <;> simp

@[simp] theorem State.takeVerdict_sec (p : Pid) (l : Launch) (g : Program) (idx : Nat) (r : LinkRec) (d : Deadline)
    (excluded carrying waited : List Nat) :
    (s.takeVerdict p l g idx r d excluded carrying waited).sec = s.sec := by simp [State.takeVerdict]

@[simp] theorem State.sendVerdict_sec (p : Pid) (l : Launch) (g : Program) (idx : Nat) (r : LinkRec) (d : Deadline)
    (v : List Nat × List Nat × List Nat) :
    (s.sendVerdict p l g idx r d v).sec = s.sec := by simp [State.sendVerdict]

@[simp] theorem State.judge_sec (p : Pid) (l : Launch) (g : Program) (idx : Nat) (r : LinkRec) (d : Deadline) : (s.judge p l g idx r d).sec = s.sec :=
  by simp [State.judge]

@[simp] theorem State.takeNotice_sec (p : Pid) (g : Program) (idx : Nat) (r : LinkRec) (d : Deadline) (rank : Nat) (carry : Bool) :
    (s.takeNotice p g idx r d rank carry).sec = s.sec := by
  simp only [State.takeNotice]
  split <;> simp

@[simp] theorem State.sendEntry_sec (p : Pid) (l : Launch) (g : Program) (idx : Nat) (r : LinkRec) : (s.sendEntry p l g idx r).sec = s.sec := by
  simp only [State.sendEntry]
  split
  · simp
  · split <;> simp

@[simp] theorem State.startEntry_sec (p : Pid) (l : Launch) (g : Program) (idx : Nat) (r : LinkRec) : (s.startEntry p l g idx r).sec = s.sec := by
  simp only [State.startEntry]
  split
  · simp
  · split_ifs
    · simp
    · split <;> simp

@[simp] theorem State.landEntry_sec (p : Pid) (g : Program) (e : LinkEntry) (r : LinkRec) (v : Option Verdict) (inputs : List (Nat × List Byte)) :
    (s.landEntry p g e r v inputs).sec = s.sec := by
  simp only [State.landEntry, State.finishEntry_sec]
  split_ifs
  · rfl
  · split <;> simp
  · split <;> simp

@[simp] theorem State.discardFrame_sec : (s.discardFrame).sec = s.sec := by simp [State.discardFrame]

@[simp] theorem State.askAgain_sec (port : HalfId) (f : Frame) : (s.askAgain port f).sec = s.sec := by simp [State.askAgain]

@[simp] theorem State.writePut_sec (p : Pid) (src : ModId) (xfer addr : Nat) (bs : List Byte) (last : Bool) :
    (s.writePut p src xfer addr bs last).sec = s.sec := by
  unfold State.writePut
  split <;> simp

@[simp] theorem State.takePut_sec (p : Pid) (src : ModId) (xfer addr : Nat) (bs : List Byte) (last : Bool) :
    (s.takePut p src xfer addr bs last).1.sec = s.sec := by
  unfold State.takePut
  split
  · rename_i h
    split at h
    · exact State.holdWrites_sec h
    · cases h
  · simp

@[simp] theorem State.relay_sec (p : Pid) (l : Launch) (g : Program) (r : LinkRec) (src : ModId) (entry rank : Nat) (carry : Bool) :
    (s.relay p l g r src entry rank carry).sec = s.sec := by
  unfold State.relay
  split <;> simp

@[simp] theorem State.takeContribution_sec (p : Pid) (src : ModId) (entry rank : Nat) (carry : Bool) (bs : List Byte) (last : Bool) :
    (s.takeContribution p src entry rank carry bs last).1.sec = s.sec := by
  unfold State.takeContribution
  split
  · rfl
  · split
    · rfl
    · split <;> simp

@[simp] theorem State.takeData_sec (p : Pid) (f : Frame) : (s.takeData p f).1.sec = s.sec := by
  unfold State.takeData
  split <;> simp

@[simp] theorem State.sendPfc_sec (h : HalfId) : (s.sendPfc h).sec = s.sec := by simp [State.sendPfc]

@[simp] theorem State.drainChan_sec (p : Pid) (src : ModId) (c : Vc) (n : Nat) : (s.drainChan p src c n).sec = s.sec := by
  induction n generalizing s with
  | zero => rfl
  | succ n ih =>
    unfold State.drainChan
    split
    · rfl
    · split
      · rfl
      · dsimp only
        split <;> simp [ih]

@[simp] theorem State.drainPeer_sec (p : Pid) (src : ModId) : (s.drainPeer p src).sec = s.sec := by
  simp [State.drainPeer]

@[simp] theorem State.drainPart_sec (p : Pid) : (s.drainPart p).sec = s.sec := by simp [State.drainPart]

@[simp] theorem State.takeRemote_sec (p : Pid) (src : ModId) (seq : Nat) (index : BitVec 16) (op : SyncOp) :
    (s.takeRemote p src seq index op).sec = s.sec := by
  unfold State.takeRemote
  split <;> simp

@[simp] theorem State.takeArrival_sec (p : Pid) (src : ModId) (seq : Nat) (index : BitVec 16) (flag : Bool) :
    (s.takeArrival p src seq index flag).sec = s.sec := by
  unfold State.takeArrival
  split <;> simp

@[simp] theorem State.takeAlive_sec (p : Pid) (src : ModId) : (s.takeAlive p src).sec = s.sec := by simp [State.takeAlive]

@[simp] theorem State.takeSync_sec (p : Pid) (f : Frame) : (s.takeSync p f).sec = s.sec := by
  unfold State.takeSync
  split <;> simp

@[simp] theorem State.moultFrame_sec (f : Frame) : (s.moultFrame f).sec = s.sec := by
  simp only [State.moultFrame]
  split <;> simp

@[simp] theorem State.acceptFrame_sec (p : Pid) (port : HalfId) (q : Peer) (f : Frame) : (s.acceptFrame p port q f).sec = s.sec :=
  by simp [State.acceptFrame]

@[simp] theorem State.resend_sec (port : HalfId) (f : SentFrame) : (s.resend port f).sec = s.sec := by simp [State.resend]

@[simp] theorem State.icmp_sec (port : PortId) (addr : BitVec 128) (answer : List Byte) : (s.icmp port addr answer).sec = s.sec :=
  by simp [State.icmp]

@[simp] theorem State.sendAlive_sec (p : Pid) (m : ModId) : (s.sendAlive p m).sec = s.sec := by simp [State.sendAlive]

@[simp] theorem State.modLane_sec (lane : Fin 64) (f : Lane → Lane) : (s.modLane lane f).sec = s.sec := by simp [State.modLane]

@[simp] theorem State.sendNotices_sec (h : HalfId) : (s.sendNotices h).sec = s.sec := by simp [State.sendNotices]

@[simp] theorem State.noteRetrain_sec (h : HalfId) : (s.noteRetrain h).sec = s.sec := by simp [State.noteRetrain]

@[simp] theorem State.raiseHalf_sec (h : HalfId) (g : Nat × Nat) (found : Training) : (s.raiseHalf h g found).sec = s.sec := by
  simp [State.raiseHalf]

@[simp] theorem State.failLane_sec (lane : Fin 64) : (s.failLane lane).sec = s.sec := by simp [State.failLane]

@[simp] theorem State.trainedLanes_sec (h : HalfId) (found : Training) : (s.trainedLanes h found).sec = s.sec := by simp [State.trainedLanes]

@[simp] theorem State.writeLaneRet_sec (v : Word) : (s.writeLaneRet v).sec = s.sec := by simp [State.writeLaneRet]

@[simp] theorem State.sendTime_sec (h : HalfId) : (s.sendTime h).sec = s.sec := by simp [State.sendTime]

@[simp] theorem State.writeTimeCfg_sec (v : Half) : (s.writeTimeCfg v).sec = s.sec := by simp [State.writeTimeCfg]

@[simp] theorem State.writeBudget_sec (v : Half) : (s.writeBudget v).sec = s.sec := by simp [State.writeBudget]

@[simp] theorem State.dieWrite_sec (a : Nat) (bs : List Byte) : (s.dieWrite a bs).sec = s.sec := by simp [State.dieWrite]

@[simp] theorem State.writePlace_sec (p : Pid) (hint : Nat) (x : Place) (bs : List Byte) : (s.writePlace p hint x bs).sec = s.sec := by
  unfold State.writePlace
  split <;> simp

@[simp] theorem State.spoilPlace_sec (p : Pid) (hint : Nat) (x : Place) (n : Nat) : (s.spoilPlace p hint x n).sec = s.sec :=
  by simp [State.spoilPlace]

@[simp] theorem State.cutShort_sec (p : Pid) (hint : Nat) (x : Place) (bs : List Byte) (bad : Nat × Nat) :
    (s.cutShort p hint x bs bad).sec = s.sec :=
  by simp [State.cutShort]

theorem State.holdPlace_sec {s t : State} {p : Pid} {x : Place} {n : Nat} (h : s.holdPlace p x n = some t) : t.sec = s.sec := by
  unfold State.holdPlace at h
  split at h
  · exact State.holdWrites_sec h
  · cases h

@[simp] theorem State.runCopy_sec (p : Pid) (src dst : Place) (len hint : Nat) (host : HostReply) :
    (s.runCopy p src dst len hint host).1.sec = s.sec := by
  unfold State.runCopy
  extract_lets v w
  have hmark : v.sec = s.sec := by
    unfold v
    split <;> simp
  have hread : w.sec = v.sec := by
    unfold w
    split <;> simp
  clear_value v w
  rw [← hmark]
  split
  · simp
  · simp
  · dsimp only
    split
    · simp
    · split
      · rfl
      · simpa using hread

@[simp] theorem State.answerHost_sec (n : Fn) (c : Cmd) (buf : Nat) (bs : List Byte) (info : Nat) (host : HostReply) :
    (s.answerHost n c buf bs info host).sec = s.sec := by
  unfold State.answerHost
  split <;> simp

@[simp] theorem State.devFatal_sec (cause : Nat) : (s.devFatal cause).sec = s.sec := by simp [State.devFatal]

@[simp] theorem State.startBoot_sec : (s.startBoot).sec = s.sec := by simp [State.startBoot]

@[simp] theorem State.writeHif_sec (n : Fn) (off : Nat) (v : Word) : (s.writeHif n off v).sec = s.sec := by
  unfold State.writeHif
  dsimp only
  split
  · simp
  · split
    · simp
    · split
      · rfl
      · split
        · simp
        · split <;> simp

@[simp] theorem State.selfTest_sec (r : TestReport) : (s.selfTest r).sec = s.sec := by simp [State.selfTest]

@[simp] theorem State.retireAtBoot_sec (pc : Nat) : (s.retireAtBoot pc).sec = s.sec := by
  unfold State.retireAtBoot
  split
  · rfl
  · split <;> simp

@[simp] theorem State.enter_sec (st : Stage) : (s.enter st).sec = s.sec := by simp [State.enter]

@[simp] theorem State.hardFault_sec (t : TileId) (unit : Fin 3) (retries : Nat) : (s.hardFault t unit retries).sec = s.sec := by
  simp only [State.hardFault, State.raiseBoth_sec]
  split
  · simp
  · split
    · simp
    · split <;> simp

@[simp] theorem State.fenceSheaf_sec (e : Nat) : (s.fenceSheaf e).sec = s.sec := by
  simp only [State.fenceSheaf]
  split <;> simp

@[simp] theorem State.freeSent_sec (t : TileId) : (s.freeSent t).sec = s.sec := by simp [State.freeSent]

@[simp] theorem State.setStash_sec (t : TileId) (q n : Nat) : (s.setStash t q n).sec = s.sec := by
  unfold State.setStash
  split <;> simp

@[simp] theorem State.pushUpd_sec (t : TileId) (op : UpdOp) (off : Nat) : (s.pushUpd t op off).sec = s.sec := by simp [State.pushUpd]

@[simp] theorem State.failAtFetch_sec (n : Fn) (c : Cmd) : (s.failAtFetch n c).sec = s.sec := by
  unfold State.failAtFetch
  split <;> simp

@[simp] theorem State.accept_sec (n : Fn) (r : RingId) (data : Option (BitVec 512)) (viaAbort : Bool) : (s.accept n r data viaAbort).sec = s.sec := by
  unfold State.accept
  dsimp only
  split
  · simp
  · split <;> simp

@[simp] theorem State.ackInputs_sec (p : Pid) (g : Program) (r : LinkRec) (entry : Nat) (inputs : List (Nat × List Byte)) :
    (s.ackInputs p g r entry inputs).sec = s.sec := by simp [State.ackInputs]

@[simp] theorem State.say_sec (via : Source) (body : List Byte) : (s.say via body).sec = s.sec := by simp [State.say]

@[simp] theorem State.sayAttested_sec (via : Source) (body nonce : List Byte) : (s.sayAttested via body nonce).sec = s.sec :=
  by simp [State.sayAttested]

@[simp] theorem State.reply_sec (b : Binding) (body : List Byte) : (s.reply b body).sec = s.sec := by simp [State.reply]

@[simp] theorem State.takeAddress_sec (a : BitVec 7) : (s.takeAddress a).sec = s.sec := by simp [State.takeAddress]

@[simp] theorem State.popSolve_sec (e : EngId) (c : ChanId) (now : Nat) : (s.popSolve e c now).sec = s.sec := by simp [State.popSolve]

@[simp] theorem State.failSolve_sec (e : EngId) (c : ChanId) (a : ChanAlloc) (q : QSolve) (code : BitVec 16) :
    (s.failSolve e c a q code).sec = s.sec := by simp [State.failSolve]

@[simp] theorem State.failUnread_sec (e : EngId) (c : ChanId) (a : ChanAlloc) (q : QSolve) (addr : Nat) : (s.failUnread e c a q addr).sec = s.sec :=
  by simp [State.failUnread]

@[simp] theorem State.applyDelta_sec (a : ChanAlloc) (d : Nat × Nat × Num) : (s.applyDelta a d).sec = s.sec := by simp [State.applyDelta]

@[simp] theorem State.spoilOffload_sec (a : ChanAlloc) : (s.spoilOffload a).sec = s.sec := by simp [State.spoilOffload]

@[simp] theorem State.factorChan_sec (e : EngId) (c : ChanId) (a : ChanAlloc) : (s.factorChan e c a).sec = s.sec := by simp [State.factorChan]

@[simp] theorem State.breakFactor_sec (e : EngId) (c : ChanId) : (s.breakFactor e c).sec = s.sec := by simp [State.breakFactor]

@[simp] theorem State.warmMismatch_sec (e : EngId) (c : ChanId) (a : ChanAlloc) : (s.warmMismatch e c a).sec = s.sec := by simp [State.warmMismatch]

@[simp] theorem State.holdRun_sec (e : EngId) (c : ChanId) (q : QSolve) (rec512 : BitVec 512) (undo : List (Nat × Byte)) (warm : Option
    (Bool × Word × Nat)) (before : FactorBefore) :
    (s.holdRun e c q rec512 undo warm before).sec = s.sec := by simp [State.holdRun]

@[simp] theorem State.rangeRun_sec (e : EngId) (c : ChanId) (a : ChanAlloc) (q : QSolve) (iter : Nat) (factd warm wmis : Bool)
    (before : FactorBefore) :
    (s.rangeRun e c a q iter factd warm wmis before).sec = s.sec := by simp [State.rangeRun]

@[simp] theorem State.launchWrite_sec (p : Pid) (q : QSolve) : (s.launchWrite p q).sec = s.sec := by
  unfold State.launchWrite
  split <;> simp

@[simp] theorem State.writeRun_sec (e : EngId) (c : ChanId) (a : ChanAlloc) (q : QSolve) (y : System) (l : LoopEnd) (factd warm wmis : Bool)
    (before : FactorBefore) :
    (s.writeRun e c a q y l factd warm wmis before).sec = s.sec := by
  simp only [State.writeRun]
  split <;> simp

@[simp] theorem State.runLoop_sec (e : EngId) (c : ChanId) (a : ChanAlloc) (q : QSolve) (factd : Bool) (before : State) (h : before.sec = s.sec) :
    (s.runLoop e c a q factd before).sec = s.sec := by
  simp only [State.runLoop]
  split
  · simpa using h
  · split <;> simp

@[simp] theorem State.runForward_sec (e : EngId) (c : ChanId) (a : ChanAlloc) (q : QSolve) : (s.runForward e c a q).sec = s.sec := by
  simp only [State.runForward]
  split
  · simp
  · split
    · split <;> simp
    · simp

@[simp] theorem State.runSolve_sec (e : EngId) (c : ChanId) (a : ChanAlloc) (q : QSolve) : (s.runSolve e c a q).sec = s.sec :=
  by simp [State.runSolve]

@[simp] theorem State.retireChan_sec (e : EngId) (c : ChanId) (lane : Bool) : (s.retireChan e c lane).sec = s.sec := by simp [State.retireChan]

@[simp] theorem State.chanFault_sec (e : EngId) (c : ChanId) (lane : Bool) : (s.chanFault e c lane).sec = s.sec := by
  unfold State.chanFault
  split <;> simp

@[simp] theorem State.foundFault_sec (e : EngId) (c : ChanId) (fault : SolveFault) : (s.foundFault e c fault).sec = s.sec := by
  unfold State.foundFault
  split <;> simp

@[simp] theorem State.usePanel_sec (e : EngId) : (s.usePanel e).sec = s.sec := by simp [State.usePanel]

@[simp] theorem State.takeSolve_sec (e : EngId) (c : ChanId) (a : ChanAlloc) (q : QSolve) (before : Nat × Nat) :
    (s.takeSolve e c a q before).sec = s.sec := by
  unfold State.takeSolve
  split
  · simp
  · split
    · simp
    · simp
    · split
      · rw [State.modEngine_sec, State.holdWrites_sec ‹_›]
      · simp

@[simp] theorem State.sayTdisp_sec (body : List Byte) : (s.sayTdisp body).sec = s.sec := by simp [State.sayTdisp]

end

end Sys2Proof.Machine
end

