-- ==== Sys2Proof/Proofs/AttestationLedger.lean ====
section
/-!
PROOFS. The attestation log and LCHAIN as one value of the security state, and the updates of the security state that leave it alone
(15 R355).
-/
namespace Sys2Proof.Machine
open Sys2Proof.Claims

/-- What the attestation log and LCHAIN are in a security state: the entries, the hash chain, the count of lost entries (15 R355). -/
def SecSt.ledger (x : SecSt) : List (List Byte) × List Byte × Half := (x.log, x.lchain, x.lost)

@[simp] theorem SecSt.ledger_fold (x : SecSt) : (x.log, x.lchain, x.lost) = x.ledger := rfl

@[simp] theorem SecSt.ledger_mk (root dik ak transport device idCause peerMin drbgDown keyGen silo rot dbg attach dbgSess log lost lchain ver spdm
    caps algs sessions period tdi tdiSess ide) : SecSt.ledger ⟨root, dik, ak, transport, device, idCause, peerMin, drbgDown, keyGen, silo, rot,
    dbg, attach, dbgSess, log, lost, lchain, ver, spdm, caps, algs, sessions, period, tdi, tdiSess, ide⟩ = (log, lchain, lost) := rfl

@[simp] theorem SecSt.ledger_ite (c : Prop) [Decidable c] (x y : SecSt) : (if c then x else y).ledger = if c then x.ledger else y.ledger :=
  apply_ite SecSt.ledger c x y

/-- A fold of updates that keep the log keeps it. -/
@[simp] theorem State.foldl_ledger {α : Type} (f : State → α → State) (h : ∀ s x, (f s x).sec.ledger = s.sec.ledger) (xs : List α)
    (s : State) : (xs.foldl f s).sec.ledger = s.sec.ledger :=
  List.foldlRecOn xs f (motive := fun t => t.sec.ledger = s.sec.ledger) rfl fun t ht x _ => (h t x).trans ht

section
variable (s : State)

@[simp] theorem State.newKey_ledger : (s.newKey).sec.ledger = s.sec.ledger := rfl

@[simp] theorem State.freshSiloKey_ledger (p : Pid) : (s.freshSiloKey p).sec.ledger = s.sec.ledger := by simp [State.freshSiloKey]

@[simp] theorem State.eraseSiloKeys_ledger (p : Pid) : (s.eraseSiloKeys p).sec.ledger = s.sec.ledger := by simp [State.eraseSiloKeys]

@[simp] theorem State.doBind_ledger (r : BitVec 8192) : (s.doBind r).sec.ledger = s.sec.ledger := by simp [State.doBind]

@[simp] theorem State.tdiError_ledger (n : Fn) : (s.tdiError n).sec.ledger = s.sec.ledger := by simp [State.tdiError]

@[simp] theorem State.startMoult_ledger (p : Pid) (n : Fn) (cid : Nat) : (s.startMoult p n cid).sec.ledger = s.sec.ledger :=
  by simp [State.startMoult]

@[simp] theorem State.moult1_ledger (p : Pid) : (s.moult1 p).sec.ledger = s.sec.ledger := by simp [State.moult1]

@[simp] theorem State.moult3_ledger (p : Pid) : (s.moult3 p).sec.ledger = s.sec.ledger := by simp [State.moult3]

@[simp] theorem State.modRot_ledger (p : Pid) (f : Rotation → Rotation) : (s.modRot p f).sec.ledger = s.sec.ledger := rfl

@[simp] theorem State.startRotation_ledger (p : Pid) (n : Fn) (cid : Nat) : (s.startRotation p n cid).sec.ledger = s.sec.ledger :=
  by simp [State.startRotation]

@[simp] theorem State.endRotation_ledger (p : Pid) : (s.endRotation p).sec.ledger = s.sec.ledger := by simp [State.endRotation]

@[simp] theorem State.linkRotated_ledger (p : Pid) : (s.linkRotated p).sec.ledger = s.sec.ledger := by simp [State.linkRotated]

@[simp] theorem State.losePeer_ledger (p : Pid) (m : ModId) (cause : Nat) : (s.losePeer p m cause).sec.ledger = s.sec.ledger :=
  by simp [State.losePeer]

@[simp] theorem State.tagFailure_ledger (p : Pid) (port : HalfId) (f : Frame) : (s.tagFailure p port f).sec.ledger = s.sec.ledger := by
  simp only [State.tagFailure]
  split <;> simp

@[simp] theorem State.deliver_ledger (port : HalfId) (f : Frame) : (s.deliver port f).sec.ledger = s.sec.ledger := by
  unfold State.deliver
  split
  · simp
  · split
    · simp
    · split
      · simp
      · split <;> simp

@[simp] theorem State.keyPeer_ledger (p : Pid) (m : ModId) (cert : PeerCert) : (s.keyPeer p m cert).sec.ledger = s.sec.ledger :=
  by simp [State.keyPeer]

@[simp] theorem State.shake_ledger (p : Pid) (m : ModId) (cert : PeerCert) : (s.shake p m cert).sec.ledger = s.sec.ledger := by
  simp only [State.shake]
  split <;> simp

@[simp] theorem State.halfLost_ledger (h : HalfId) (peer : ModId) : (s.halfLost h peer).sec.ledger = s.sec.ledger := by simp [State.halfLost]

@[simp] theorem State.dropHalf_ledger (h : HalfId) (st : PortState) : (s.dropHalf h st).sec.ledger = s.sec.ledger := by simp [State.dropHalf]

@[simp] theorem State.failHalf_ledger (h : HalfId) : (s.failHalf h).sec.ledger = s.sec.ledger := by simp [State.failHalf]

@[simp] theorem State.trainHalf_ledger (h : HalfId) : (s.trainHalf h).sec.ledger = s.sec.ledger := by simp [State.trainHalf]

@[simp] theorem State.trainPort_ledger (p : PortId) : (s.trainPort p).sec.ledger = s.sec.ledger := by simp [State.trainPort]

@[simp] theorem State.trainPorts_ledger (which : PortCfg → Bool) : (s.trainPorts which).sec.ledger = s.sec.ledger := by simp [State.trainPorts]

@[simp] theorem State.settleLanes_ledger (h : HalfId) : (s.settleLanes h).sec.ledger = s.sec.ledger := by
  simp only [State.settleLanes]
  split <;> simp

@[simp] theorem State.retrainLane_ledger (lane : Fin 64) : (s.retrainLane lane).sec.ledger = s.sec.ledger := by simp [State.retrainLane]

@[simp] theorem State.joinHalves_ledger (p : PortId) : (s.joinHalves p).sec.ledger = s.sec.ledger := by simp [State.joinHalves]

@[simp] theorem State.writePortCfg_ledger (p : PortId) (v : Half) : (s.writePortCfg p v).sec.ledger = s.sec.ledger := by simp [State.writePortCfg]

@[simp] theorem State.writeModId_ledger (v : Half) : (s.writeModId v).sec.ledger = s.sec.ledger := by simp [State.writeModId]

@[simp] theorem State.writeEthPrefix_ledger (v : Word) : (s.writeEthPrefix v).sec.ledger = s.sec.ledger := by simp [State.writeEthPrefix]

@[simp] theorem State.setLevel_ledger (p : Pid) (level : Nat) (src : Option Source) : (s.setLevel p level src).sec.ledger = s.sec.ledger :=
  by simp [State.setLevel]

@[simp] theorem State.storeReg_ledger (off : Nat) (v : Word) : (s.storeReg off v).sec.ledger = s.sec.ledger := by
  unfold State.storeReg
  split
  · rfl
  · rfl
  · rfl
  · rfl
  · rfl
  · rfl
  · split <;> rfl

@[simp] theorem State.presetReg_ledger (off : Nat) (v : Word) : (s.presetReg off v).sec.ledger = s.sec.ledger := by
  unfold State.presetReg
  split
  · rw [State.writeBudget_sec]
  · rfl
  · rfl
  · rw [State.writeTimeCfg_sec]
  · rfl
  · rfl
  · exact State.storeReg_ledger s _ v
  · split
    · rfl
    · exact State.storeReg_ledger s off v

@[simp] theorem State.writeIndexed_ledger (off : Nat) (v : Word) : (s.writeIndexed off v).sec.ledger = s.sec.ledger := by
  have hdef : @State.writeIndexed = @State.writeIndexed := rfl
  conv_rhs at hdef => delta State.writeIndexed
  simp only [hdef]
  generalize slotAt 16 0x50100 8 off = perPart
  generalize slotAt 8 0x40100 8 off = perPort
  cases perPart with
  | some p =>
    dsimp only
    split <;> rfl
  | none =>
    cases perPort with
    | some p => exact State.writePortCfg_ledger s _ _
    | none =>
      dsimp only
      split
      · exact State.storeReg_ledger s off v
      · rfl

@[simp] theorem State.applyRecords_ledger (ownerOk presetOk : Bool) : (s.applyRecords ownerOk presetOk).sec.ledger = s.sec.ledger :=
  by simp [State.applyRecords]

@[simp] theorem State.failPorts_ledger (ports : List Nat) : (s.failPorts ports).sec.ledger = s.sec.ledger := by simp [State.failPorts]

@[simp] theorem State.fence_ledger (u : UnitId) : (s.fence u).sec.ledger = s.sec.ledger := by
  simp only [State.fence]
  split <;> simp

@[simp] theorem State.compareUnit_ledger (u : UnitId) (seen : UnitState) : (s.compareUnit u seen).sec.ledger = s.sec.ledger := by
  unfold State.compareUnit
  split <;> simp

@[simp] theorem State.modSession_ledger (id : BitVec 32) (f : Session → Session) : (s.modSession id f).sec.ledger = s.sec.ledger := rfl

@[simp] theorem State.leaveTenant_ledger (n : Fn) (next : Tdi) : (s.leaveTenant n next).sec.ledger = s.sec.ledger := by
  simp only [State.leaveTenant]
  split
  · simp
  · split <;> simp

@[simp] theorem State.loseSession_ledger (id : BitVec 32) : (s.loseSession id).sec.ledger = s.sec.ledger := by simp [State.loseSession]

/-- The command that waits for a rotation, if it is still there, completes with E_KEY (15 R344, R356). -/
def State.failWaiter (s : State) (w : Option (Fn × Nat)) : State :=
  match w with
  | none => s
  | some (n, cid) =>
    match s.findCmd n cid with
    | none => s
    | some c => s.complete n c eKey 0 0

theorem State.hostOnly_failWaiter (s : State) (w : Option (Fn × Nat)) : HostOnly s (s.failWaiter w) := by
  unfold State.failWaiter
  split
  · rfl
  · split
    · rfl
    · exact HostOnly.complete s _ _ _ _ _

theorem State.stopRotation_eq (s : State) (p : Pid) : s.stopRotation p =
    let t := (s.failWaiter (s.sec.rot[p]).waiter).failWaiter (s.sec.rot[p]).linkWaiter
    let ended : Rotation := { s.sec.rot[p] with waiter := none, linkWaiter := none, link := false }
    ({ t with sec := { t.sec with rot := t.sec.rot.set p ended } } : State).modPart p
      fun (x : Part) => { x with peers := x.peers.map fun (q : Peer) => { q with rekey := false } } := rfl

@[simp] theorem State.stopRotation_ledger (p : Pid) : (s.stopRotation p).sec.ledger = s.sec.ledger := by
  rw [State.stopRotation_eq, State.modPart_sec]
  have hsec := ((State.hostOnly_failWaiter s (s.sec.rot[p]).waiter).trans (State.hostOnly_failWaiter _ (s.sec.rot[p]).linkWaiter)).sec
  rw [hsec]
  rfl

@[simp] theorem State.setTdi_ledger (vf : Fn) (x : Tdi) (id : Option (BitVec 32)) : (s.setTdi vf x id).sec.ledger = s.sec.ledger := rfl

@[simp] theorem State.modIde_ledger (k : Fin 18) (f : Ide → Ide) : (s.modIde k f).sec.ledger = s.sec.ledger := rfl

end

end Sys2Proof.Machine
end

