-- ==== Sys2Proof/Proofs/AttestationLog.lean ====
section
/-!
PROOFS. The attestation log stays the preimage of LCHAIN (15 R355): what an entry and what each operation that writes the log do to it.
-/
namespace Sys2Proof.Machine
open Sys2Proof.Claims

@[simp] theorem beBytesN_length (n v : Nat) : (beBytesN n v).length = n := by
  induction n with
  | zero => rfl
  | succ n ih => rw [beBytesN, List.length_cons, ih]

@[simp] theorem leOf_length (n v : Nat) : (leOf n v).length = n := by
  rw [leOf, List.length_reverse, beBytesN_length]

theorem logEntry_length (ty pid level src epoch stamp : Nat) (detail : List Byte) :
    (logEntry ty pid level src epoch stamp detail).length = 64 := by
  simp [logEntry]

theorem satAdd_one_ne_zero (c : Half) : satAdd c 1 ≠ 0 := by
  unfold satAdd
  split
  · bv_omega
  · decide

/-- LogOk, said of the ledger, of which alone it speaks. -/
def LedgerOk (l : List (List Byte) × List Byte × Half) : Prop :=
  l.1.length ≤ 4096 ∧ (∀ e ∈ l.1, e.length = 64) ∧
    (l.2.2 = 0 → l.2.1 = l.1.foldl (fun c e => sha384 (c ++ e)) (List.replicate 48 0))

theorem logOk_iff (s : State) : LogOk s ↔ LedgerOk s.sec.ledger := Iff.rfl

end Sys2Proof.Machine

namespace Sys2Proof.Claims.LogOk
open Sys2Proof.Machine
section
variable {s u : State} {e : List Byte}

theorem of_ledger (hs : LogOk s) (h : u.sec.ledger = s.sec.ledger) : LogOk u := by
  rw [logOk_iff, h]
  exact hs

theorem update {x : SecSt} (hs : LogOk s) (h : x.ledger = s.sec.ledger) : LogOk { s with sec := x } := hs.of_ledger h

/-- A stored entry enters log and chain; one that is not stored is counted as lost (15 R355). -/
theorem append (hs : LogOk s) (he : e.length = 64) (h : u.sec.ledger = (s.sec.append e).ledger) : LogOk u := by
  obtain ⟨hlen, hall, hchain⟩ := hs
  unfold SecSt.append at h
  dsimp only at h
  split at h
  · rename_i hroom
    simp only [SecSt.ledger, Prod.mk.injEq] at h
    obtain ⟨hlog', hchain', hlost'⟩ := h
    refine ⟨?_, ?_, fun hl => ?_⟩
    · rw [hlog', List.length_append]
      exact hroom
    · rw [hlog']
      simpa [or_imp, forall_and, he] using hall
    · rw [hlog', hchain', List.foldl_append, hchain (hlost' ▸ hl)]
      rfl
  · simp only [SecSt.ledger, Prod.mk.injEq] at h
    obtain ⟨hlog', hchain', hlost'⟩ := h
    exact ⟨hlog' ▸ hlen, hlog' ▸ hall, fun hl => absurd (hlost' ▸ hl) (satAdd_one_ne_zero _)⟩

theorem ite {c : Prop} [Decidable c] (hs : LogOk s) (hu : LogOk u) : LogOk (if c then s else u) := by
  split
  · exact hs
  · exact hu

theorem attest (hs : LogOk s) (ty : Nat) (p : Option Pid) (level : Nat) (src : Source) (detail : List Byte) :
    LogOk (s.attest ty p level src detail) := hs.append (logEntry_length ..) rfl

end

section
variable {s : State} (hs : LogOk s)
include hs

theorem keyMoultEnd (p : Pid) : LogOk (s.keyMoultEnd p) := by
  have hfresh : LogOk (((s.freshSiloKey p).queueClears (s.part p).entry.gran).markAll .cont) := hs.of_ledger (by simp)
  exact (hfresh.attest 0x0005 (some p) ((s.freshSiloKey p).sec.dbg[p]).toNat (s.part p).entry.moultSrc []).of_ledger
    (by simp [State.keyMoultEnd])

theorem forceFull (p : Pid) (value : Half) (src : Source) : LogOk (s.forceFull p value src) :=
  (hs.attest 0x0004 (some p) 3 src []).of_ledger (by simp [State.forceFull])

theorem attachDebug (value : Half) (src : Source) : LogOk (s.attachDebug value src) := by
  simp only [State.attachDebug]
  split
  · refine ite (attest ?_ ..) ?_
    · exact hs.of_ledger (by simp)
    · exact hs.of_ledger (by simp)
  · split
    · exact hs.forceFull ..
    · have hset (p : Pid) (g : Nat) : LogOk (s.setLevel p g (some src)) := hs.of_ledger (by simp)
      exact (attest (hset _ _) ..).update rfl

/-- READY writes the BOOT entry. -/
theorem ready : LogOk s.ready := by
  refine hs.append (e := bootEntry s.mgmt.image s.mgmt.fatalRec.toNat s.time.runRoot.gt.toNat) (logEntry_length ..) ?_
  simp [State.ready, State.now]

theorem recovery : LogOk s.recovery := by
  unfold State.recovery
  exact ready (attest (hs.of_ledger (by simp)) ..)

theorem service : LogOk s.service := ready (hs.of_ledger rfl)

end

/-- After a reset the log is empty and LCHAIN 48 zero bytes. -/
theorem of_resetAll (s : State) (stage : Stage) (pins : PinSt) (vfs : Nat) : LogOk (s.resetAll stage pins vfs) :=
  ⟨Nat.zero_le _, fun _ h => absurd h List.not_mem_nil, fun _ => rfl⟩

theorem of_deviceReset (s : State) : LogOk s.deviceReset := of_resetAll ..

theorem of_perstReset (s : State) (pins : PinSt) : LogOk (s.perstReset pins) := (of_resetAll s .none { pins with pcieUp := false } 0).of_ledger rfl

/-- Only a stage that ends the boot writes the log. -/
theorem endStage {s t : State} {how : StageEnd} (hs : LogOk s) (h : s.endStage how = some t) : LogOk t := by
  unfold State.endStage at h
  split at h
  · split at h
    · rw [← Option.some.inj h]
      exact hs.of_ledger rfl
    · rw [← Option.some.inj h]
      exact hs.of_ledger (by rw [State.enter_sec]; rfl)
  · have hkeys : LogOk { s with sec := s.sec.bootKeys } := hs.of_ledger rfl
    dsimp only at h
    split at h
    · rw [← Option.some.inj h]
      exact hkeys.recovery
    · rw [← Option.some.inj h]
      exact hkeys.of_ledger (by rw [State.enter_sec, State.applyRecords_ledger]; rfl)
  · split at h
    · rw [← Option.some.inj h]
      exact hs.service
    · rw [← Option.some.inj h]
      exact hs.of_ledger (by rw [State.enter_sec, State.selfTest_sec])
  · dsimp only at h
    split at h
    · rw [← Option.some.inj h]
      exact hs.service
    · rw [← Option.some.inj h]
      exact hs.of_ledger (by rw [State.enter_sec, State.trainPorts_ledger, State.foldl_sec _ State.retireAtBoot_sec])
  · rw [← Option.some.inj h]
    exact ready (hs.of_ledger (by rw [State.enter_sec, State.failPorts_ledger]))
  · cases h

section
variable {s : State} (hs : LogOk s)
include hs

theorem writePwrCtl (v : Word) : LogOk (s.writePwrCtl v) :=
  ite (of_deviceReset s) (ite (hs.of_ledger (by simp)) (hs.of_ledger (by simp)))

theorem writeSetup (src : Source) (off : Nat) (v : Word) : LogOk (s.writeSetup src off v) := by
  unfold State.writeSetup
  dsimp only
  split
  · exact hs.of_ledger (by rw [State.writeRstCtl_sec])
  · exact hs.attachDebug ..
  · exact hs.of_ledger (by rw [State.writeBudget_sec])
  · exact hs.of_ledger (by rw [State.writeModId_ledger])
  · exact hs.of_ledger (by rw [State.writeLaneRet_sec])
  · exact hs.of_ledger (by rw [State.writeEthPrefix_ledger])
  · exact hs.of_ledger (by rw [State.writeTimeCfg_sec])
  · exact hs.of_ledger (by rw [State.writeCap_sec])
  · exact hs.of_ledger (by rw [State.writePolicy_sec])
  · exact hs.of_ledger rfl
  · exact hs.writePwrCtl v
  · exact hs.of_ledger (by rw [State.writeIndexed_ledger])

theorem writeReg (n : Fn) (src : Source) (off : Nat) (v : Word) : LogOk (s.writeReg n src off v) :=
  ite hs (ite (hs.of_ledger (by simp)) (ite (hs.writeSetup ..) hs))

end

end Sys2Proof.Claims.LogOk

namespace Sys2Proof.Machine
open Sys2Proof.Claims
/-! ### What commands do to the log -/

/-- What LogOk says of s it says of every state that the outcome leads to. -/
def KeepsLog (s : State) (o : Host.Outcome State Fault Refusal) : Prop := LogOk s → ∀ t, o = .next t → LogOk t

section
variable {s t u : State} {a b : Host.Outcome State Fault Refusal}

theorem KeepsLog.of_ledger (h : t.sec.ledger = s.sec.ledger) : KeepsLog s (.next t) := fun hs _ ht => by
  cases ht
  exact hs.of_ledger h

theorem KeepsLog.next (h : LogOk s → LogOk t) : KeepsLog s (.next t) := fun hs _ ht => by
  cases ht
  exact h hs

/-- A command that leads to t keeps the log where t has the ledger of s. -/
@[simp] theorem keepsLog_next : KeepsLog s (.next t) ↔ (LedgerOk s.sec.ledger → LedgerOk t.sec.ledger) :=
  ⟨fun h hs => h hs _ rfl, KeepsLog.next⟩

@[simp] theorem KeepsLog.notDue (m : String) : KeepsLog s (notDue m) := fun _ _ h => nomatch h

@[simp] theorem keepsLog_ite {c : Prop} [Decidable c] : KeepsLog s (if c then a else b) ↔ (c → KeepsLog s a) ∧ (¬ c → KeepsLog s b) := by
  split <;> simp [*]

@[simp] theorem keepsLog_whenDue (c : Bool) (m : String) : KeepsLog s (whenDue c m t) ↔ (c = true → KeepsLog s (.next t)) := by
  cases c <;> simp [whenDue]

variable {m : String} {i : Instr} {k : TileId} {eff : State → State}

@[simp] theorem KeepsLog.coreInstr (h : ∀ v, (eff v).sec = v.sec) : KeepsLog s (coreInstr m i k s eff) := by
  simp [Machine.coreInstr, h]

@[simp] theorem KeepsLog.coreWait (h : ∀ v, (eff v).sec = v.sec) (ready : Bool) : KeepsLog s (coreWait m i k s ready eff) := by
  simp [Machine.coreWait, h]

@[simp] theorem KeepsLog.updInstr (h : ∀ v, (eff v).sec = v.sec) : KeepsLog s (updInstr m i k s eff) := KeepsLog.coreWait h _

@[simp] theorem KeepsLog.vecInstr (h : ∀ v, (eff v).sec = v.sec) (ready ok : Bool) : KeepsLog s (vecInstr m i k s ready ok eff) :=
  KeepsLog.coreWait (by simp [h]) _

@[simp] theorem KeepsLog.syncInstr (rd rs1 : RegId) (op : Core → SyncOp) : KeepsLog s (syncInstr m i k rd rs1 op s) := by
  refine KeepsLog.coreInstr fun v => ?_
  dsimp only
  split <;> simp

end

section
variable {s : State} {f : State → State} {g : State → Session → State}

@[simp] theorem State.mctp_ledger (h : ∀ s, (f s).sec.ledger = s.sec.ledger) (b : Binding) : (s.mctp b f).sec.ledger = s.sec.ledger := by
  simp [State.mctp, h]

@[simp] theorem State.mctpFull_ledger (h : ∀ s, (f s).sec.ledger = s.sec.ledger) (b : Binding) : (s.mctpFull b f).sec.ledger = s.sec.ledger := by
  simp [State.mctpFull, h]

@[simp] theorem State.answerSpdm_ledger (h : ∀ s, (f s).sec.ledger = s.sec.ledger) (via : Source) :
    (s.answerSpdm via f).sec.ledger = s.sec.ledger := by
  simp [State.answerSpdm, h]

@[simp] theorem State.answerAfter_ledger (h : ∀ s, (f s).sec.ledger = s.sec.ledger) (via : Source) :
    (s.answerAfter via f).sec.ledger = s.sec.ledger := by
  simp [State.answerAfter, h]

@[simp] theorem State.inSession_ledger (h : ∀ s x, (g s x).sec.ledger = s.sec.ledger) (id : BitVec 32) :
    (s.inSession id g).sec.ledger = s.sec.ledger := by
  unfold State.inSession
  split <;> simp [h]

@[simp] theorem State.inUp_ledger (h : ∀ s x, (g s x).sec.ledger = s.sec.ledger) (id : BitVec 32) :
    (s.inUp id g).sec.ledger = s.sec.ledger := by
  simp [State.inUp, h]

@[simp] theorem State.tdisp_ledger (h : ∀ s, (f s).sec.ledger = s.sec.ledger) (id : BitVec 32) :
    (s.tdisp id f).sec.ledger = s.sec.ledger := by
  simp [State.tdisp, h]

end

end Sys2Proof.Machine
end

