-- ==== Sys2Proof/Proofs/AttestationCommands.lean ====
section
/-!
PROOFS. No command breaks the attestation log (15 R355), command by command. Most leave it alone: the frame lemmas of the operations they
use say so. Those that write it cite what its entries and resets do to it.
-/
namespace Sys2Proof.Machine
open Sys2Proof.Claims

section
variable (s : State)

theorem execMopadr_keepsLog (t : TileId) (rd rs1 rs2 : RegId) : KeepsLog s (execMopadr t rd rs1 rs2 s) := by simp [execMopadr]

theorem execMop_keepsLog (t : TileId) (rs1 : RegId) : KeepsLog s (execMop t rs1 s) := by
  refine KeepsLog.coreWait (fun v => ?_) _
  dsimp only
  split
  · simp
  · split <;> simp

theorem execMwait_keepsLog (t : TileId) (n : BitVec 6) : KeepsLog s (execMwait t n s) := by simp [execMwait]

theorem execBlockLoad_keepsLog (x : ArrayAt) : KeepsLog s (execBlockLoad x s) := by
  simp only [execBlockLoad]
  split <;> simp

theorem execPassStart_keepsLog (x : ArrayAt) (reruns : Fin 3) : KeepsLog s (execPassStart x reruns s) := by
  simp only [execPassStart]
  split <;> simp

theorem execMopComplete_keepsLog (x : ArrayAt) : KeepsLog s (execMopComplete x s) := by
  unfold execMopComplete
  dsimp only
  split
  · simp
  · split
    · simp
    · split <;> simp

theorem execOffloadMopStart_keepsLog (x : ArrayAt) (record : BitVec 256) : KeepsLog s (execOffloadMopStart x record s) := by
  simp [execOffloadMopStart]

theorem execLoadLevelStep_keepsLog (x : ArrayAt) : KeepsLog s (execLoadLevelStep x s) := by simp [execLoadLevelStep]

theorem execHintRampStep_keepsLog (x : TileAt) : KeepsLog s (execHintRampStep x s) := by simp [execHintRampStep]

theorem execHintLapse_keepsLog (t : TileId) (now : Nat) : KeepsLog s (execHintLapse t now s) := by
  simp only [execHintLapse]
  split <;> simp

theorem execSsig_keepsLog (t : TileId) (rd rs1 rs2 : RegId) : KeepsLog s (execSsig t rd rs1 rs2 s) := by simp [execSsig]

theorem execStake_keepsLog (t : TileId) (rd rs1 rs2 : RegId) : KeepsLog s (execStake t rd rs1 rs2 s) := by simp [execStake]

theorem execSarr_keepsLog (t : TileId) (rd rs1 rs2 : RegId) : KeepsLog s (execSarr t rd rs1 rs2 s) := by simp [execSarr]

theorem execSsetf_keepsLog (t : TileId) (rd rs1 rs2 : RegId) : KeepsLog s (execSsetf t rd rs1 rs2 s) := by simp [execSsetf]

theorem execSclrf_keepsLog (t : TileId) (rd rs1 rs2 : RegId) : KeepsLog s (execSclrf t rd rs1 rs2 s) := by simp [execSclrf]

theorem execSwany_keepsLog (t : TileId) (rd rs1 rs2 : RegId) : KeepsLog s (execSwany t rd rs1 rs2 s) := by simp [execSwany]

theorem execSwall_keepsLog (t : TileId) (rd rs1 rs2 : RegId) : KeepsLog s (execSwall t rd rs1 rs2 s) := by simp [execSwall]

theorem execSadv_keepsLog (t : TileId) (rd rs1 rs2 : RegId) : KeepsLog s (execSadv t rd rs1 rs2 s) := by simp [execSadv]

theorem execSwge_keepsLog (t : TileId) (rd rs1 rs2 : RegId) : KeepsLog s (execSwge t rd rs1 rs2 s) := by simp [execSwge]

theorem execSyncOperationArrival_keepsLog (id now : Nat) : KeepsLog s (execSyncOperationArrival id now s) := by
  unfold execSyncOperationArrival
  split
  · simp
  · split
    all_goals
      split
      all_goals
        dsimp only
        split
        · simp
        · split <;> simp

theorem execBarrierReleaseReceipt_keepsLog (p : Pid) (index : BitVec 16) (rel : Release) (now : Nat) :
    KeepsLog s (execBarrierReleaseReceipt p index rel now s) := by
  simp only [execBarrierReleaseReceipt]
  split <;> simp

theorem execLaunchBarrierHint_keepsLog (obj : Fin 65536) (now : Nat) : KeepsLog s (execLaunchBarrierHint obj now s) := by
  simp only [execLaunchBarrierHint]
  split <;> simp

theorem execLaunchBarrierRelease_keepsLog (obj : Fin 65536) (now : Nat) : KeepsLog s (execLaunchBarrierRelease obj now s) := by
  simp only [execLaunchBarrierRelease]
  split <;> simp

theorem execRemoteAck_keepsLog (id : Nat) (code : BitVec 16) : KeepsLog s (execRemoteAck id code s) := by
  unfold execRemoteAck
  split
  · simp
  · split <;> simp

theorem execWaitTimeout_keepsLog (w : Waiter) (now : Nat) : KeepsLog s (execWaitTimeout w now s) := by
  unfold execWaitTimeout
  dsimp only
  split
  · split <;> simp
  · split <;> simp

theorem execSignal_keepsLog (fn : Fn) (cid : Nat) : KeepsLog s (execSignal fn cid s) := by
  unfold execSignal
  split
  · split
    · simp
    · split
      · simp
      · split
        · split <;> simp
        · split <;> simp
  · simp

theorem execWait_keepsLog (fn : Fn) (cid : Nat) : KeepsLog s (execWait fn cid s) := by
  unfold execWait
  split
  · split
    · simp
    · split <;> simp
  · simp

theorem execFence_keepsLog (fn : Fn) (cid : Nat) : KeepsLog s (execFence fn cid s) := by
  unfold execFence
  split <;> simp

theorem execBind_keepsLog (fn : Fn) (cid : Nat) (record : Option (BitVec 8192)) : KeepsLog s (execBind fn cid record s) := by
  unfold execBind
  split
  · simp
  · split
    · simp
    · split
      · simp
      · split
        · simp
        · split
          · simp
          · split
            · simp
            · split <;> simp

theorem execUnbind_keepsLog (fn : Fn) (cid : Nat) : KeepsLog s (execUnbind fn cid s) := by
  unfold execUnbind
  split
  · simp
  · dsimp only
    split <;> simp

theorem execMoultStepEnd_keepsLog (p : Pid) (now : Nat) : KeepsLog s (execMoultStepEnd p now s) := by
  unfold execMoultStepEnd
  dsimp only
  have hmoult : ((s.at_ now).moult3 p).sec.ledger = s.sec.ledger := by rw [State.moult3_ledger, State.at_sec]
  split
  · exact .notDue _
  · split
    · exact .of_ledger (by rw [State.modPart_sec, State.moult1_ledger, State.at_sec])
    · exact .of_ledger (by rw [State.modPart_sec, State.moult2_sec, State.at_sec])
    · exact .next fun hs => .ite ((hs.of_ledger hmoult).keyMoultEnd p) (hs.of_ledger (by rw [State.modPart_sec, hmoult]))
    · exact .of_ledger (by rw [State.moult4_sec, State.at_sec])
    · exact .notDue _

theorem execAbort_keepsLog (fn : Fn) (cid : Nat) : KeepsLog s (execAbort fn cid s) := by
  unfold execAbort
  split
  · exact .notDue _
  · split
    · exact .notDue _
    · dsimp only
      split
      · exact .of_ledger (by rw [State.complete_sec])
      · split
        · exact .of_ledger (by rw [State.complete_sec])
        · split
          · exact .of_ledger (by rw [State.complete_sec, State.discard_sec, State.endWork_sec, State.sendAbort_sec])
          · exact .of_ledger (by
              rw [State.complete_sec, State.raise_sec, State.discard_sec, State.endWork_sec, State.sendAbort_sec])

theorem execGo_keepsLog (value : Half) : KeepsLog s (execGo value s) := by simp [execGo]

theorem State.withBind_sec (s : State) (b : BindSt) : State.sec { s with bind := b } = s.sec := rfl

theorem execPartitionResetEnd_keepsLog (now : Nat) : KeepsLog s (execPartitionResetEnd now s) := by
  unfold execPartitionResetEnd
  dsimp only
  split
  · exact .notDue _
  · exact .of_ledger (by
      rw [State.raisePf0_sec, State.withBind_sec, State.sec_ite, State.modFunc_sec, ite_self, State.zeroUnits_sec, State.endWork_sec,
        State.at_sec])

theorem execFlr_keepsLog (fn : Fn) : KeepsLog s (execFlr fn s) := by
  refine .of_ledger ?_
  rw [State.sec_ite]
  dsimp only
  split
  · rfl
  · split
    · rfl
    · rw [State.sec_ite, State.endWork_sec, State.sendAbort_sec, ite_self]
      rfl

theorem execHifVersionReq_keepsLog (fn : Fn) (value : Half) : KeepsLog s (execHifVersionReq fn value s) := by simp [execHifVersionReq]

theorem execHifRingCfg_keepsLog (fn : Fn) (ring : RingId) (value : Half) : KeepsLog s (execHifRingCfg fn ring value s) := by simp [execHifRingCfg]

theorem execHifEvqCfg_keepsLog (fn : Fn) (value : Half) : KeepsLog s (execHifEvqCfg fn value s) := by simp [execHifEvqCfg]

theorem execSqTail_keepsLog (fn : Fn) (page : Fin 128) (value : Half) : KeepsLog s (execSqTail fn page value s) := by
  unfold execSqTail
  split <;> simp

theorem execCqHead_keepsLog (fn : Fn) (page : Fin 128) (value : Half) : KeepsLog s (execCqHead fn page value s) := by
  unfold execCqHead
  split
  · simp
  · split <;> simp

theorem execAbortDb_keepsLog (fn : Fn) (page : Fin 128) (value : Half) : KeepsLog s (execAbortDb fn page value s) := by
  unfold execAbortDb
  split <;> simp

theorem execAtsInvalidation_keepsLog (fn : Fn) (page : BitVec 52) : KeepsLog s (execAtsInvalidation fn page s) := by simp [execAtsInvalidation]

theorem execMsixVectorUnmask_keepsLog (fn : Fn) (vec : Nat) : KeepsLog s (execMsixVectorUnmask fn vec s) := by simp [execMsixVectorUnmask]

theorem execSrIovEnable_keepsLog (vfs : Nat) : KeepsLog s (execSrIovEnable vfs s) := by simp [execSrIovEnable]

theorem execLoadProgram_keepsLog (fn : Fn) (cid : Nat) (image : HostReply) : KeepsLog s (execLoadProgram fn cid image s) := by
  unfold execLoadProgram
  split
  · dsimp only
    split
    · exact .notDue _
    · split
      · simp
      · split
        · exact .of_ledger (by rw [State.holdWrites_sec ‹_›])
        · split
          · simp
          · split
            · simp
            · simp
            · split
              · simp
              · split
                · exact .of_ledger (by rw [State.holdWrites_sec ‹_›]; simp)
                · simp
  · exact .notDue _

theorem execProgramUnload_keepsLog (fn : Fn) (cid : Nat) : KeepsLog s (execProgramUnload fn cid s) := by
  unfold execProgramUnload
  split
  · split
    · simp
    · dsimp only
      split <;> simp
  · simp

theorem execPwrCapCfg_keepsLog (value : Half) : KeepsLog s (execPwrCapCfg value s) := by simp [execPwrCapCfg]

theorem execPwrPolicy_keepsLog (value : Half) : KeepsLog s (execPwrPolicy value s) := by simp [execPwrPolicy]

theorem execRegulatorSample_keepsLog (sample : Sample) (now : Nat) : KeepsLog s (execRegulatorSample sample now s) := by simp [execRegulatorSample]

theorem execRailSettled_keepsLog (sheaf : EngId) : KeepsLog s (execRailSettled sheaf s) := by
  unfold execRailSettled
  split <;> simp

theorem execDieTempReading_keepsLog (die : Fin 2) (temp : Byte) (now : Nat) : KeepsLog s (execDieTempReading die temp now s) := by
  simp [execDieTempReading]

theorem execRegulatorWarning_keepsLog (die : Fin 2) (overCurrent : Bool) (status : BitVec 16) (now : Nat) :
    KeepsLog s (execRegulatorWarning die overCurrent status now s) := by
  simp [execRegulatorWarning]

theorem execRailWarningRelease_keepsLog (die : Fin 2) (now : Nat) : KeepsLog s (execRailWarningRelease die now s) := by
  simp only [execRailWarningRelease]
  split <;> simp

theorem execAgeingMonitorRead_keepsLog (die : Fin 2) (slow : Bool) (now : Nat) : KeepsLog s (execAgeingMonitorRead die slow now s) := by
  unfold execAgeingMonitorRead
  split
  · simp
  · dsimp only
    split
    · simp
    · split <;> simp

theorem execDeepIdleRequest_keepsLog : KeepsLog s (execDeepIdleRequest s) := by simp [execDeepIdleRequest]

theorem execDeepIdleEntered_keepsLog (now : Nat) : KeepsLog s (execDeepIdleEntered now s) := by simp [execDeepIdleEntered]

theorem execDeepIdleLeave_keepsLog : KeepsLog s (execDeepIdleLeave s) := by simp [execDeepIdleLeave]

theorem execDeepIdleExitEnd_keepsLog (now : Nat) : KeepsLog s (execDeepIdleExitEnd now s) := by simp [execDeepIdleExitEnd]

@[simp] theorem startLaunch_keepsLog (mnemonic : String) (opc : Nat) (timed : Bool) (fn : Fn) (cid : Nat) :
    KeepsLog s (startLaunch mnemonic opc timed fn cid s) := by
  unfold startLaunch
  split
  · split
    · simp
    · split <;> simp
  · simp

theorem execLaunch_keepsLog (fn : Fn) (cid : Nat) : KeepsLog s (execLaunch fn cid s) := by simp [execLaunch]

theorem execLaunchAt_keepsLog (fn : Fn) (cid : Nat) : KeepsLog s (execLaunchAt fn cid s) := by simp [execLaunchAt]

theorem execLaunchReady_keepsLog (p : Pid) (now : Nat) : KeepsLog s (execLaunchReady p now s) := by
  unfold execLaunchReady
  dsimp only
  split
  · simp
  · split
    · simp
    · split
      · simp
      · split
        · simp
        · split
          · simp
          · simp
          · refine .of_ledger ?_
            rw [State.modLaunch_sec]
            split
            · rw [State.writeTable_sec, State.at_sec]
            · rw [State.sec_ite, State.siloRecord_sec, ite_self, State.writeTable_sec, State.at_sec]

theorem execLaunchHint_keepsLog (p : Pid) (now : Nat) : KeepsLog s (execLaunchHint p now s) := by
  unfold execLaunchHint
  dsimp only
  split <;> simp

theorem execLaunchRelease_keepsLog (p : Pid) (now : Nat) : KeepsLog s (execLaunchRelease p now s) := by
  simp only [execLaunchRelease]
  split <;> simp

theorem execLaunchComplete_keepsLog (p : Pid) (now : Nat) : KeepsLog s (execLaunchComplete p now s) := by
  unfold execLaunchComplete
  dsimp only
  split
  · simp
  · split
    · simp
    · split <;> simp

theorem execMemoryReadError_keepsLog (addr : Nat) (how : ReadError) (reader : Reader) (now : Nat) :
    KeepsLog s (execMemoryReadError addr how reader now s) := by
  unfold execMemoryReadError
  split
  · dsimp only
    split
    · simp
    · split <;> simp
  · dsimp only
    split
    · simp
    · split <;> simp
  · dsimp only
    split
    · simp
    · split <;> simp
  · dsimp only
    split
    · simp
    · split
      · simp
      · split <;> simp

theorem execMigrationComplete_keepsLog (now : Nat) : KeepsLog s (execMigrationComplete now s) := by
  unfold execMigrationComplete
  dsimp only
  split
  · simp
  · split <;> simp

theorem execErrorWindowEnd_keepsLog (now : Nat) : KeepsLog s (execErrorWindowEnd now s) := by simp [execErrorWindowEnd]

theorem execStackTempReading_keepsLog (m : StackId) (temp : Byte) (now : Nat) : KeepsLog s (execStackTempReading m temp now s) := by
  unfold execStackTempReading
  split
  · simp
  · dsimp only
    split
    · split <;> simp
    · split <;> simp

theorem execKeyRotate_keepsLog (fn : Fn) (cid : Nat) : KeepsLog s (execKeyRotate fn cid s) := by
  unfold execKeyRotate
  split
  · simp
  · dsimp only
    split
    · simp
    · split <;> simp

theorem execSweepPage_keepsLog (p : Pid) (now : Nat) : KeepsLog s (execSweepPage p now s) := by
  unfold execSweepPage
  dsimp only
  split
  · simp
  · split <;> simp

theorem execKeyRotateLink_keepsLog (fn : Fn) (cid : Nat) : KeepsLog s (execKeyRotateLink fn cid s) := by
  unfold execKeyRotateLink
  split
  · simp
  · dsimp only
    split
    · simp
    · split <;> simp

theorem execVerdict_keepsLog (p : Pid) (entry : Nat) (excluded carrying waited : List Nat) (now : Nat) :
    KeepsLog s (execVerdict p entry excluded carrying waited now s) := by
  unfold execVerdict
  dsimp only
  split
  · simp
  · split <;> simp

theorem execReadyNotice_keepsLog (p : Pid) (entry : Nat) (rank : Nat) (carry : Bool) (now : Nat) :
    KeepsLog s (execReadyNotice p entry rank carry now s) := by
  unfold execReadyNotice
  dsimp only
  split
  · simp
  · split <;> simp

theorem execDeadlineClose_keepsLog (p : Pid) (entry : Nat) (now : Nat) : KeepsLog s (execDeadlineClose p entry now s) := by
  unfold execDeadlineClose
  dsimp only
  split
  · simp
  · split <;> simp

theorem execFrameReceipt_keepsLog (port : HalfId) (frame : Frame) (now : Nat) : KeepsLog s (execFrameReceipt port frame now s) := by
  unfold execFrameReceipt
  split
  · simp
  · split
    · dsimp only
      split
      · simp
      · split
        · simp
        · split <;> simp
    · simp

theorem execFrameNak_keepsLog (port : HalfId) (frame : FrameId) : KeepsLog s (execFrameNak port frame s) := by
  unfold execFrameNak
  split <;> simp

theorem execDatagramResend_keepsLog (port : HalfId) (frame : FrameId) : KeepsLog s (execDatagramResend port frame s) := by
  unfold execDatagramResend
  split <;> simp

theorem execNeighborSolicitation_keepsLog (port : PortId) (target : BitVec 128) : KeepsLog s (execNeighborSolicitation port target s) := by
  simp [execNeighborSolicitation]

theorem execEchoRequest_keepsLog (port : PortId) (dst : BitVec 128) (payload : List Byte) : KeepsLog s (execEchoRequest port dst payload s) := by
  simp [execEchoRequest]

theorem execPriorityFlowControl_keepsLog (port : PortId) (pause : Bool) : KeepsLog s (execPriorityFlowControl port pause s) := by
  simp [execPriorityFlowControl]

theorem execLinkHandshake_keepsLog (p : Pid) (peer : ModId) (cert : PeerCert) (now : Nat) : KeepsLog s (execLinkHandshake p peer cert now s) := by
  simp [execLinkHandshake]

theorem execRekey_keepsLog (p : Pid) (peer : PeerAt) : KeepsLog s (execRekey p peer s) := by simp [execRekey]

theorem execKeepaliveSend_keepsLog (now : Nat) : KeepsLog s (execKeepaliveSend now s) := by simp [execKeepaliveSend]

theorem execKeepaliveTimeout_keepsLog (p : Pid) (peer : ModId) (now : Nat) : KeepsLog s (execKeepaliveTimeout p peer now s) := by
  simp [execKeepaliveTimeout]

theorem execRetrainNotice_keepsLog (p : Pid) (peer : ModId) (now : Nat) : KeepsLog s (execRetrainNotice p peer now s) := by simp [execRetrainNotice]

theorem execRetrainSuspensionExpiry_keepsLog (p : Pid) (peer : ModId) (now : Nat) : KeepsLog s (execRetrainSuspensionExpiry p peer now s) := by
  simp only [execRetrainSuspensionExpiry]
  split <;> simp

theorem execUnbindFrame_keepsLog (src : ModId) (jobTag : Word) (epoch : Half) (sigOk : Bool) (now : Nat) :
    KeepsLog s (execUnbindFrame src jobTag epoch sigOk now s) := by
  simp only [execUnbindFrame]
  split <;> simp

theorem execAbortFrame_keepsLog (src : ModId) (jobTag : Word) (now : Nat) : KeepsLog s (execAbortFrame src jobTag now s) := by
  simp only [execAbortFrame]
  split <;> simp

theorem execPortTrainingComplete_keepsLog (port : HalfId) (found : Training) (now : Nat) :
    KeepsLog s (execPortTrainingComplete port found now s) := by
  unfold execPortTrainingComplete
  dsimp only
  split
  · simp
  · split
    · simp
    · split
      · simp
      · split <;> simp

theorem execLaneRetrainStart_keepsLog (lane : Fin 64) (now : Nat) : KeepsLog s (execLaneRetrainStart lane now s) := by simp [execLaneRetrainStart]

theorem execLaneRetrainEnd_keepsLog (lane : Fin 64) (ok : Bool) (now : Nat) : KeepsLog s (execLaneRetrainEnd lane ok now s) := by
  simp [execLaneRetrainEnd]

theorem execLaneRetryTimer_keepsLog (lane : Fin 64) (now : Nat) : KeepsLog s (execLaneRetryTimer lane now s) := by
  simp only [execLaneRetryTimer]
  split <;> simp

theorem execPortReconfigure_keepsLog (port : PortId) (value : Half) : KeepsLog s (execPortReconfigure port value s) := by simp [execPortReconfigure]

theorem execRetrain_keepsLog (port : PortId) : KeepsLog s (execRetrain port s) := by simp [execRetrain]

theorem execLnkModId_keepsLog (value : Half) : KeepsLog s (execLnkModId value s) := by simp [execLnkModId]

theorem execLnkLaneRet_keepsLog (value : Word) : KeepsLog s (execLnkLaneRet value s) := by simp [execLnkLaneRet]

theorem execLnkEthPrefix_keepsLog (value : Word) : KeepsLog s (execLnkEthPrefix value s) := by simp [execLnkEthPrefix]

theorem execLnkRefclkLoss_keepsLog (now : Nat) : KeepsLog s (execLnkRefclkLoss now s) := by simp [execLnkRefclkLoss]

theorem execLnkRefclkReturn_keepsLog : KeepsLog s (execLnkRefclkReturn s) := by simp [execLnkRefclkReturn]

theorem execTimeMessageSend_keepsLog (now : Nat) : KeepsLog s (execTimeMessageSend now s) := by simp [execTimeMessageSend]

theorem execTimeMessageReceipt_keepsLog (port : HalfId) (upstream : Word) (echo : TimeEcho) (now : Nat) :
    KeepsLog s (execTimeMessageReceipt port upstream echo now s) := by
  simp [execTimeMessageReceipt]

theorem execCounterSlew_keepsLog : KeepsLog s (execCounterSlew s) := by simp [execCounterSlew]

theorem execHoldoverEntry_keepsLog (now : Nat) : KeepsLog s (execHoldoverEntry now s) := by simp [execHoldoverEntry]

theorem execSynTimeUnlock_keepsLog (now : Nat) : KeepsLog s (execSynTimeUnlock now s) := by simp [execSynTimeUnlock]

theorem execSynTimeCfg_keepsLog (value : Half) : KeepsLog s (execSynTimeCfg value s) := by simp [execSynTimeCfg]

theorem execMemBudgetCfg_keepsLog (value : Half) : KeepsLog s (execMemBudgetCfg value s) := by simp [execMemBudgetCfg]

theorem execCopy_keepsLog (fn : Fn) (cid : Nat) (host : HostReply) : KeepsLog s (execCopy fn cid host s) := by
  unfold execCopy
  split
  · dsimp only
    split
    · simp
    · split
      · simp
      · simp
      · split
        · simp
        · split
          · exact .of_ledger (by rw [State.holdPlace_sec ‹_›])
          · simp
  · simp

theorem execFill_keepsLog (fn : Fn) (cid : Nat) : KeepsLog s (execFill fn cid s) := by
  unfold execFill
  split
  · dsimp only
    split
    · simp
    · split
      · simp
      · split
        · simp
        · split
          · exact .of_ledger (by rw [State.holdPlace_sec ‹_›])
          · split <;> simp
  · simp

theorem execQuery_keepsLog (fn : Fn) (cid : Nat) (host : HostReply) : KeepsLog s (execQuery fn cid host s) := by
  unfold execQuery
  split
  · simp
  · dsimp only
    split
    · simp
    · split <;> simp

theorem execDigestRead_keepsLog (fn : Fn) (cid : Nat) (host : HostReply) : KeepsLog s (execDigestRead fn cid host s) := by
  unfold execDigestRead
  split
  · dsimp only
    split
    · simp
    · split <;> simp
  · simp

theorem execDbgAttach_keepsLog (value : Half) (src : Source) : KeepsLog s (execDbgAttach value src s) := by
  exact .next fun hs => .ite (hs.attachDebug value src) hs

theorem execJtagAttach_keepsLog (value : Half) : KeepsLog s (execJtagAttach value s) := by
  exact .next fun hs => .ite ((hs.attachDebug value .jtag).of_ledger rfl) hs

theorem execDebugHalt_keepsLog (p : Pid) : KeepsLog s (execDebugHalt p s) := by simp [execDebugHalt]

theorem execDebugSingleStep_keepsLog (t : TileId) : KeepsLog s (execDebugSingleStep t s) := by
  unfold execDebugSingleStep
  split <;> simp

theorem execDevrst_keepsLog (by_ : ResetBy) : KeepsLog s (execDevrst by_ s) := by
  cases by_ with
  | register => exact .next fun hs => .ite (.of_deviceReset s) hs
  | management => exact .next fun hs => .ite (.of_deviceReset s) hs
  | fatal => exact (keepsLog_whenDue ..).2 fun _ => .next fun _ => .of_deviceReset s

theorem execDeviceFatalFault_keepsLog (cause : Fin 5) (now : Nat) : KeepsLog s (execDeviceFatalFault cause now s) := by
  exact (keepsLog_whenDue ..).2 fun _ => .next fun hs => .ite (.of_deviceReset _) (hs.of_ledger (by simp))

theorem execFatalResetTimer_keepsLog (now : Nat) : KeepsLog s (execFatalResetTimer now s) := by
  simp only [execFatalResetTimer]
  split
  · simp
  · exact (keepsLog_whenDue ..).2 fun _ => .next fun _ => .of_deviceReset _

theorem execThermalTrip_keepsLog (by_ : TripBy) (now : Nat) : KeepsLog s (execThermalTrip by_ now s) := by
  exact (keepsLog_whenDue ..).2 fun _ => .next fun _ => .of_perstReset ..

theorem execInputApplied_keepsLog : KeepsLog s (execInputApplied s) := by simp [execInputApplied]

theorem execPowerLoss_keepsLog : KeepsLog s (execPowerLoss s) := by
  exact (keepsLog_whenDue ..).2 fun _ => .next fun _ => .of_perstReset ..

theorem execInputSag_keepsLog : KeepsLog s (execInputSag s) := by simp [execInputSag]

theorem execInputSagEnd_keepsLog : KeepsLog s (execInputSagEnd s) := by simp [execInputSagEnd]

theorem execPerstAssert_keepsLog : KeepsLog s (execPerstAssert s) := by
  exact .next fun hs => .ite (hs.of_ledger rfl) (.of_perstReset ..)

theorem execPerstRelease_keepsLog (sincePwrgd : Nat) : KeepsLog s (execPerstRelease sincePwrgd s) := by simp [execPerstRelease]

theorem execPerstHoldExpiry_keepsLog : KeepsLog s (execPerstHoldExpiry s) := by simp [execPerstHoldExpiry]

theorem execPeRefclkLoss_keepsLog : KeepsLog s (execPeRefclkLoss s) := by simp [execPeRefclkLoss]

theorem execPeRefclkReturn_keepsLog : KeepsLog s (execPeRefclkReturn s) := by simp [execPeRefclkReturn]

theorem execRegisterWrite_keepsLog (fn : Fn) (offset : BitVec 24) (eight : Bool) (value : Word) :
    KeepsLog s (execRegisterWrite fn offset eight value s) := by
  exact .next fun hs => .ite hs (hs.writeReg ..)

theorem execBootStageEnd_keepsLog (how : StageEnd) : KeepsLog s (execBootStageEnd how s) := by
  unfold execBootStageEnd
  split
  · exact .notDue _
  · split
    · exact .notDue _
    · exact .next fun hs => hs.endStage ‹_›

theorem execTileHardFault_keepsLog (t : TileId) (unit : Fin 3) (retries : Nat) (now : Nat) : KeepsLog s (execTileHardFault t unit retries now s) := by
  simp [execTileHardFault]

theorem execBindingAudit_keepsLog (seen : List (UnitId × UnitState)) (now : Nat) : KeepsLog s (execBindingAudit seen now s) := by
  simp [execBindingAudit]

theorem execCsrr_keepsLog (t : TileId) (rd : RegId) (csr : Csr) : KeepsLog s (execCsrr t rd csr s) := by simp [execCsrr]

theorem execCsrw_keepsLog (t : TileId) (csr : Csr) (rs1 : RegId) : KeepsLog s (execCsrw t csr rs1 s) := by simp [execCsrw]

theorem execHalt_keepsLog (t : TileId) : KeepsLog s (execHalt t s) := by simp [execHalt]

theorem execRbegin_keepsLog (t : TileId) (rs1 rs2 : RegId) : KeepsLog s (execRbegin t rs1 rs2 s) := by simp [execRbegin]

theorem execRcheck_keepsLog (t : TileId) : KeepsLog s (execRcheck t s) := by
  refine KeepsLog.coreWait (fun v => ?_) _
  split
  · split <;> simp
  · simp

theorem execRcmpb_keepsLog (t : TileId) : KeepsLog s (execRcmpb t s) := by simp [execRcmpb]

theorem execRcmpe_keepsLog (t : TileId) : KeepsLog s (execRcmpe t s) := by simp [execRcmpe]

theorem execStasha_keepsLog (t : TileId) (rd rs1 rs2 : RegId) : KeepsLog s (execStasha t rd rs1 rs2 s) := by simp [execStasha]

theorem execStashr_keepsLog (t : TileId) (rs1 rs2 : RegId) : KeepsLog s (execStashr t rs1 rs2 s) := by simp [execStashr]

theorem execSolve_keepsLog (t : TileId) (rs1 : RegId) : KeepsLog s (execSolve t rs1 s) := by
  refine KeepsLog.coreWait (fun v => ?_) _
  split
  · simp
  · split
    · simp
    · split <;> simp

theorem execSwait_keepsLog (t : TileId) (rs1 rs2 : RegId) : KeepsLog s (execSwait t rs1 rs2 s) := by
  refine KeepsLog.coreWait (fun v => ?_) _
  split
  · simp
  · split <;> simp

theorem execVectorSleep_keepsLog (t : TileId) : KeepsLog s (execVectorSleep t s) := by simp [execVectorSleep]

theorem execDma_keepsLog (t : TileId) (rs1 : RegId) : KeepsLog s (execDma t rs1 s) := by
  refine KeepsLog.coreWait (fun v => ?_) _
  dsimp only
  split
  · simp
  · split <;> simp

theorem execDwait_keepsLog (t : TileId) (n : BitVec 6) : KeepsLog s (execDwait t n s) := by simp [execDwait]

theorem execDmaTransferRun_keepsLog (t : TileId) : KeepsLog s (execDmaTransferRun t s) := by
  unfold execDmaTransferRun
  split
  · dsimp only
    split
    · exact .notDue _
    · split
      · simp
      · split
        · rename_i hheld
          split at hheld
          · exact .of_ledger (by rw [State.holdWrites_sec hheld])
          · cases hheld
        · simp
        · simp
  · exact .notDue _

theorem execDmaTransferComplete_keepsLog (t : TileId) : KeepsLog s (execDmaTransferComplete t s) := by
  unfold execDmaTransferComplete
  split
  · simp
  · split
    · simp
    · dsimp only
      split <;> simp

theorem execWupd_keepsLog (t : TileId) (rs1 : RegId) : KeepsLog s (execWupd t rs1 s) := by
  refine KeepsLog.updInstr fun v => ?_
  dsimp only
  split
  · simp
  · split
    · simp
    · split <;> simp

theorem execUwait_keepsLog (t : TileId) (n : BitVec 6) : KeepsLog s (execUwait t n s) := by simp [execUwait]

theorem execNclr_keepsLog (t : TileId) (a : Fin 4) : KeepsLog s (execNclr t a s) := by simp [execNclr]

theorem execNsq_keepsLog (t : TileId) (rd rs1 rs2 : RegId) (gfmt : BitVec 4) (a : Fin 4) : KeepsLog s (execNsq t rd rs1 rs2 gfmt a s) := by
  simp [execNsq]

theorem execNst_keepsLog (t : TileId) (rs1 : RegId) (a : Fin 4) : KeepsLog s (execNst t rs1 a s) := by simp [execNst]

theorem execNadd_keepsLog (t : TileId) (rs1 : RegId) (a : Fin 4) : KeepsLog s (execNadd t rs1 a s) := by simp [execNadd]

theorem execUpdateOperationRun_keepsLog (t : TileId) (reruns : Fin 3) : KeepsLog s (execUpdateOperationRun t reruns s) := by
  unfold execUpdateOperationRun
  split <;> simp

theorem execUpdateOperationComplete_keepsLog (t : TileId) : KeepsLog s (execUpdateOperationComplete t s) := by
  unfold execUpdateOperationComplete
  split
  · simp
  · split
    · simp
    · dsimp only
      split <;> simp

theorem execDescriptorFetch_keepsLog (data : Option (BitVec 512)) : KeepsLog s (execDescriptorFetch data s) := by
  unfold execDescriptorFetch
  split
  · simp
  · split <;> simp

@[simp] theorem hostSolve_keepsLog (mnemonic : String) (opc : Nat) (fn : Fn) (cid : Nat) : KeepsLog s (hostSolve mnemonic opc fn cid s) := by
  unfold hostSolve
  split
  · split <;> simp
  · simp

theorem execSolveDelta_keepsLog (fn : Fn) (cid : Nat) : KeepsLog s (execSolveDelta fn cid s) := by simp [execSolveDelta]

theorem execSolveAdjoint_keepsLog (fn : Fn) (cid : Nat) : KeepsLog s (execSolveAdjoint fn cid s) := by simp [execSolveAdjoint]

theorem execLinkEntryStart_keepsLog (p : Pid) (now : Nat) : KeepsLog s (execLinkEntryStart p now s) := by
  unfold execLinkEntryStart
  dsimp only
  split
  · simp
  · split
    · simp
    · split
      · simp
      · split
        · simp
        · simp
        · simp
        · simp
        · split <;> simp

theorem execTransferAck_keepsLog (p : Pid) (entry : Nat) (peer : ModId) : KeepsLog s (execTransferAck p entry peer s) := by
  unfold execTransferAck
  split <;> simp

theorem execLinkEntryComplete_keepsLog (p : Pid) (entry : Nat) (inputs : List (Nat × List Byte)) (now : Nat) :
    KeepsLog s (execLinkEntryComplete p entry inputs now s) := by
  unfold execLinkEntryComplete
  dsimp only
  have hdrain : ((s.at_ now).drainPart p).sec = s.sec := by rw [State.drainPart_sec, State.at_sec]
  split
  · exact .notDue _
  · split
    · rename_i l g _ _ _ e r _ _
      generalize (if r.dln = 0 then none else l.verdictOf entry) = v
      split
      · exact .notDue _
      · split
        · exact .of_ledger (by rw [State.killLaunch_sec, State.raiseUncorrectable_sec, hdrain])
        · split
          · exact .of_ledger (by rw [State.holdWrites_sec ‹_›, hdrain])
          · split
            · exact .of_ledger (by rw [State.killLaunch_sec, State.raiseUncorrectable_sec, hdrain])
            · exact .of_ledger (by rw [State.landEntry_sec, State.ackInputs_sec, hdrain])
    · exact .notDue _

theorem execGranuleClearComplete_keepsLog (now : Nat) : KeepsLog s (execGranuleClearComplete now s) := by
  simp only [execGranuleClearComplete]
  split <;> simp

theorem execGetVersion_keepsLog (via : Source) : KeepsLog s (execGetVersion via s) := by simp [execGetVersion]

theorem execGetCapabilities_keepsLog (hello : SpdmHello) : KeepsLog s (execGetCapabilities hello s) := by
  unfold execGetCapabilities
  split <;> simp

theorem execNegotiateAlgorithms_keepsLog (via : Source) (asym : SpdmAsym) (offersSecp384 offersAesGcm : Bool) :
    KeepsLog s (execNegotiateAlgorithms via asym offersSecp384 offersAesGcm s) := by
  simp [execNegotiateAlgorithms]

theorem execGetDigests_keepsLog (via : Source) : KeepsLog s (execGetDigests via s) := by simp [execGetDigests]

theorem execGetCertificate_keepsLog (via : Source) (slot : Nat) (offset length : Nat) : KeepsLog s (execGetCertificate via slot offset length s) := by
  simp [execGetCertificate]

theorem execChallenge_keepsLog (via : Source) (slot : Nat) (nonce : BitVec 256) : KeepsLog s (execChallenge via slot nonce s) := by
  simp [execChallenge]

theorem execGetMeasurements_keepsLog (via : Source) (index : Byte) (nonce : BitVec 256) (signed : Option Nat) :
    KeepsLog s (execGetMeasurements via index nonce signed s) := by
  refine .of_ledger (State.answerAfter_ledger (fun v => ?_) via)
  split
  · simp
  · simp
  · split <;> simp

theorem execUnsupportedRequest_keepsLog (via : Source) (code : Byte) : KeepsLog s (execUnsupportedRequest via code s) := by
  simp [execUnsupportedRequest]

theorem execKeyExchange_keepsLog (via : Source) (req : SpdmKeyReq) (now : Nat) : KeepsLog s (execKeyExchange via req now s) := by
  simp [execKeyExchange]

theorem execFinish_keepsLog (session : BitVec 32) (macOk : Bool) (period : Byte) (now : Nat) :
    KeepsLog s (execFinish session macOk period now s) := by
  simp [execFinish]

theorem execEndSession_keepsLog (session : BitVec 32) : KeepsLog s (execEndSession session s) := by simp [execEndSession]

theorem execKeyUpdate_keepsLog (session : BitVec 32) : KeepsLog s (execKeyUpdate session s) := by simp [execKeyUpdate]

theorem execHeartbeat_keepsLog (session : BitVec 32) (now : Nat) : KeepsLog s (execHeartbeat session now s) := by simp [execHeartbeat]

theorem execHeartbeatTimeout_keepsLog (session : BitVec 32) (now : Nat) : KeepsLog s (execHeartbeatTimeout session now s) := by
  simp only [execHeartbeatTimeout]
  split <;> simp

theorem execSpdmSessionLoss_keepsLog (session : BitVec 32) (now : Nat) : KeepsLog s (execSpdmSessionLoss session now s) := by
  simp [execSpdmSessionLoss]

theorem execDrbgHealthFailure_keepsLog : KeepsLog s (execDrbgHealthFailure s) := by simp [execDrbgHealthFailure]

theorem execSetEndpointId_keepsLog (b : Binding) (eid : Byte) : KeepsLog s (execSetEndpointId b eid s) := by simp [execSetEndpointId]

theorem execGetEndpointId_keepsLog (b : Binding) : KeepsLog s (execGetEndpointId b s) := by simp [execGetEndpointId]

theorem execGetMctpVersionSupport_keepsLog (b : Binding) (msgType : Byte) : KeepsLog s (execGetMctpVersionSupport b msgType s) := by
  simp [execGetMctpVersionSupport]

theorem execGetMessageTypeSupport_keepsLog (b : Binding) : KeepsLog s (execGetMessageTypeSupport b s) := by simp [execGetMessageTypeSupport]

theorem execGetVendorDefinedMessageSupport_keepsLog (b : Binding) (selector : Byte) :
    KeepsLog s (execGetVendorDefinedMessageSupport b selector s) := by
  simp [execGetVendorDefinedMessageSupport]

theorem execEntdaa_keepsLog (address : BitVec 7) : KeepsLog s (execEntdaa address s) := by simp [execEntdaa]

theorem execSetdasa_keepsLog (static dynamic : BitVec 7) : KeepsLog s (execSetdasa static dynamic s) := by simp [execSetdasa]

theorem execSeteventreceiver_keepsLog (b : Binding) (eid : Byte) (enable : Bool) : KeepsLog s (execSeteventreceiver b eid enable s) := by
  simp [execSeteventreceiver]

theorem execSensorRefresh_keepsLog (id : BitVec 16) (reading : Int) : KeepsLog s (execSensorRefresh id reading s) := by simp [execSensorRefresh]

theorem execRegRead_keepsLog (b : Binding) (offset : BitVec 24) : KeepsLog s (execRegRead b offset s) := by
  refine .of_ledger (State.mctp_ledger (fun v => ?_) b)
  simp

theorem execRegWrite_keepsLog (b : Binding) (offset : BitVec 24) (value : Word) : KeepsLog s (execRegWrite b offset value s) := by
  exact .next fun hs => .ite (.ite hs (hs.writeReg ..)) hs

theorem execDevReset_keepsLog (b : Binding) : KeepsLog s (execDevReset b s) := by
  exact .next fun hs => .ite (.ite hs (.of_deviceReset s)) hs

theorem execAttlogRead_keepsLog (b : Binding) (first : Nat) : KeepsLog s (execAttlogRead b first s) := by simp [execAttlogRead]

theorem execForceRecovery_keepsLog (b : Binding) : KeepsLog s (execForceRecovery b s) := by simp [execForceRecovery]

theorem execRequestupdate_keepsLog (b : Binding) (c : Component) (size : Nat) : KeepsLog s (execRequestupdate b c size s) := by
  simp [execRequestupdate]

theorem execFirmwareDataReceipt_keepsLog (data : List Byte) : KeepsLog s (execFirmwareDataReceipt data s) := by simp [execFirmwareDataReceipt]

theorem execTransfercomplete_keepsLog : KeepsLog s (execTransfercomplete s) := by simp [execTransfercomplete]

theorem execUpdateVerifyEnd_keepsLog (how : VerifyEnd) : KeepsLog s (execUpdateVerifyEnd how s) := by
  unfold execUpdateVerifyEnd
  split <;> simp

theorem execApplycomplete_keepsLog : KeepsLog s (execApplycomplete s) := by
  refine (keepsLog_whenDue ..).2 fun _ => .next fun hs => .ite (.of_deviceReset _) ?_
  have hflash : LogOk { s with mgmt := { s.mgmt.writeFlash with progress := 100, fwuCode := cOk, data := [], dataNeed := 0 } } :=
    hs.of_ledger rfl
  exact (hflash.attest ..).of_ledger (by rw [State.reply_sec])

theorem execActivatefirmware_keepsLog : KeepsLog s (execActivatefirmware s) := by simp [execActivatefirmware]

theorem execCancelupdate_keepsLog : KeepsLog s (execCancelupdate s) := by simp [execCancelupdate]

theorem execInt_keepsLog (t : TileId) (op : IntOp) (rd rs1 rs2 : RegId) : KeepsLog s (execInt t op rd rs1 rs2 s) := by simp [execInt]

theorem execInti_keepsLog (t : TileId) (op : IntOp) (rd rs1 : RegId) (imm : Word) : KeepsLog s (execInti t op rd rs1 imm s) := by simp [execInti]

theorem execBr_keepsLog (t : TileId) (op : BrOp) (rd rs1 rs2 : RegId) (offset : Word) : KeepsLog s (execBr t op rd rs1 rs2 offset s) := by
  simp [execBr]

theorem execLs_keepsLog (t : TileId) (op : LsOp) (corrected : Nat) : KeepsLog s (execLs t op corrected s) := by
  simp only [execLs]
  split <;> simp

theorem execFp_keepsLog (t : TileId) (op : FpOp) (rnd : Rnd) (rd rs1 rs2 rs3 : RegId) : KeepsLog s (execFp t op rnd rd rs1 rs2 rs3 s) := by
  simp [execFp]

theorem execCvt_keepsLog (t : TileId) (cvc : BitVec 4) (fmtD fmtS : BitVec 4) (rd rs1 : RegId) : KeepsLog s (execCvt t cvc fmtD fmtS rd rs1 s) := by
  simp [execCvt]

theorem execSolveCommandHead_keepsLog (e : EngId) (now : Nat) (retries : Nat) (fault : SolveFault) :
    KeepsLog s (execSolveCommandHead e now retries fault s) := by
  unfold execSolveCommandHead
  split
  · simp
  · split <;> simp

theorem execSolveCommandEnd_keepsLog (e : EngId) (now : Nat) : KeepsLog s (execSolveCommandEnd e now s) := by
  unfold execSolveCommandEnd
  split
  · simp
  · split <;> simp

theorem execGetTdispVersion_keepsLog (session : BitVec 32) : KeepsLog s (execGetTdispVersion session s) := by simp [execGetTdispVersion]

theorem execGetTdispCapabilities_keepsLog (session : BitVec 32) : KeepsLog s (execGetTdispCapabilities session s) := by
  simp [execGetTdispCapabilities]

theorem execLockInterfaceRequest_keepsLog (session : BitVec 32) (vf : Fn) : KeepsLog s (execLockInterfaceRequest session vf s) := by
  simp [execLockInterfaceRequest]

theorem execGetDeviceInterfaceReport_keepsLog (session : BitVec 32) (vf : Fn) : KeepsLog s (execGetDeviceInterfaceReport session vf s) := by
  refine .of_ledger (State.tdisp_ledger (fun v => ?_) session)
  split
  · simp
  · split <;> simp

theorem execGetDeviceInterfaceState_keepsLog (session : BitVec 32) (vf : Fn) : KeepsLog s (execGetDeviceInterfaceState session vf s) := by
  simp [execGetDeviceInterfaceState]

theorem execStartInterfaceRequest_keepsLog (session : BitVec 32) (vf : Fn) : KeepsLog s (execStartInterfaceRequest session vf s) := by
  simp [execStartInterfaceRequest]

theorem execStopInterfaceRequest_keepsLog (session : BitVec 32) (vf : Fn) (now : Nat) : KeepsLog s (execStopInterfaceRequest session vf now s) := by
  simp [execStopInterfaceRequest]

theorem execLockedConfigWrite_keepsLog (vf : Fn) (now : Nat) : KeepsLog s (execLockedConfigWrite vf now s) := by simp [execLockedConfigWrite]

theorem execIdeKmQuery_keepsLog (session : BitVec 32) : KeepsLog s (execIdeKmQuery session s) := by simp [execIdeKmQuery]

theorem execIdeKmKeyProgram_keepsLog (session : BitVec 32) (stream : Fin 18) (keySet : Bool) :
    KeepsLog s (execIdeKmKeyProgram session stream keySet s) := by
  simp [execIdeKmKeyProgram]

theorem execIdeKmKeySetGo_keepsLog (session : BitVec 32) (stream : Fin 18) (keySet : Bool) :
    KeepsLog s (execIdeKmKeySetGo session stream keySet s) := by
  simp [execIdeKmKeySetGo]

theorem execIdeKmKeySetStop_keepsLog (session : BitVec 32) (stream : Fin 18) (keySet : Bool) :
    KeepsLog s (execIdeKmKeySetStop session stream keySet s) := by
  simp [execIdeKmKeySetStop]

theorem execVclaim_keepsLog (t : TileId) (rd rs1 : RegId) (ew : Ew) (grp : Grp) : KeepsLog s (execVclaim t rd rs1 ew grp s) := by simp [execVclaim]

theorem execVls_keepsLog (t : TileId) (op : VLsOp) : KeepsLog s (execVls t op s) := by
  unfold execVls
  split
  · dsimp only
    split
    · simp
    · split
      · simp
      · split <;> simp
  · dsimp only
    split
    · simp
    · split
      · simp
      · split <;> simp

theorem execVint_keepsLog (t : TileId) (op : VIntOp) : KeepsLog s (execVint t op s) := by simp [execVint]

theorem execVfp_keepsLog (t : TileId) (op : VFpOp) : KeepsLog s (execVfp t op s) := by
  unfold execVfp
  split <;> simp

theorem execVcvt_keepsLog (t : TileId) (op : VCvtOp) : KeepsLog s (execVcvt t op s) := by simp [execVcvt]

theorem execVred_keepsLog (t : TileId) (op : VRedOp) : KeepsLog s (execVred t op s) := by
  unfold execVred
  split <;> simp

theorem exec_keepsLog : ∀ (c : Instr) (s : State), KeepsLog s (exec c s)
  | .loadProgram fn cid image, s => execLoadProgram_keepsLog s fn cid image
  | .programUnload fn cid, s => execProgramUnload_keepsLog s fn cid
  | .launch fn cid, s => execLaunch_keepsLog s fn cid
  | .launchAt fn cid, s => execLaunchAt_keepsLog s fn cid
  | .launchReady p now, s => execLaunchReady_keepsLog s p now
  | .launchHint p now, s => execLaunchHint_keepsLog s p now
  | .launchRelease p now, s => execLaunchRelease_keepsLog s p now
  | .launchComplete p now, s => execLaunchComplete_keepsLog s p now
  | .copy fn cid host, s => execCopy_keepsLog s fn cid host
  | .fill fn cid, s => execFill_keepsLog s fn cid
  | .solveDelta fn cid, s => execSolveDelta_keepsLog s fn cid
  | .solveAdjoint fn cid, s => execSolveAdjoint_keepsLog s fn cid
  | .signal fn cid, s => execSignal_keepsLog s fn cid
  | .wait fn cid, s => execWait_keepsLog s fn cid
  | .fence fn cid, s => execFence_keepsLog s fn cid
  | .bind fn cid record, s => execBind_keepsLog s fn cid record
  | .unbind fn cid, s => execUnbind_keepsLog s fn cid
  | .moultStepEnd p now, s => execMoultStepEnd_keepsLog s p now
  | .keyRotate fn cid, s => execKeyRotate_keepsLog s fn cid
  | .keyRotateLink fn cid, s => execKeyRotateLink_keepsLog s fn cid
  | .query fn cid host, s => execQuery_keepsLog s fn cid host
  | .digestRead fn cid host, s => execDigestRead_keepsLog s fn cid host
  | .abort fn cid, s => execAbort_keepsLog s fn cid
  | .sqTail fn page value, s => execSqTail_keepsLog s fn page value
  | .cqHead fn page value, s => execCqHead_keepsLog s fn page value
  | .abortDb fn page value, s => execAbortDb_keepsLog s fn page value
  | .descriptorFetch data, s => execDescriptorFetch_keepsLog s data
  | .atsInvalidation fn page, s => execAtsInvalidation_keepsLog s fn page
  | .hifVersionReq fn value, s => execHifVersionReq_keepsLog s fn value
  | .hifRingCfg fn ring value, s => execHifRingCfg_keepsLog s fn ring value
  | .hifEvqCfg fn value, s => execHifEvqCfg_keepsLog s fn value
  | .registerWrite fn offset eight value, s => execRegisterWrite_keepsLog s fn offset eight value
  | .pwrCapCfg value, s => execPwrCapCfg_keepsLog s value
  | .pwrPolicy value, s => execPwrPolicy_keepsLog s value
  | .deepIdleRequest, s => execDeepIdleRequest_keepsLog s
  | .deepIdleEntered now, s => execDeepIdleEntered_keepsLog s now
  | .deepIdleLeave, s => execDeepIdleLeave_keepsLog s
  | .deepIdleExitEnd now, s => execDeepIdleExitEnd_keepsLog s now
  | .devrst by_, s => execDevrst_keepsLog s by_
  | .go value, s => execGo_keepsLog s value
  | .partitionResetEnd now, s => execPartitionResetEnd_keepsLog s now
  | .dbgAttach value src, s => execDbgAttach_keepsLog s value src
  | .portReconfigure port value, s => execPortReconfigure_keepsLog s port value
  | .retrain port, s => execRetrain_keepsLog s port
  | .lnkModId value, s => execLnkModId_keepsLog s value
  | .lnkLaneRet value, s => execLnkLaneRet_keepsLog s value
  | .lnkEthPrefix value, s => execLnkEthPrefix_keepsLog s value
  | .synTimeCfg value, s => execSynTimeCfg_keepsLog s value
  | .memBudgetCfg value, s => execMemBudgetCfg_keepsLog s value
  | .int t op rd rs1 rs2, s => execInt_keepsLog s t op rd rs1 rs2
  | .inti t op rd rs1 imm, s => execInti_keepsLog s t op rd rs1 imm
  | .ls t op corrected, s => execLs_keepsLog s t op corrected
  | .br t op rd rs1 rs2 offset, s => execBr_keepsLog s t op rd rs1 rs2 offset
  | .fp t op rnd rd rs1 rs2 rs3, s => execFp_keepsLog s t op rnd rd rs1 rs2 rs3
  | .cvt t cvc fmtD fmtS rd rs1, s => execCvt_keepsLog s t cvc fmtD fmtS rd rs1
  | .mopadr t rd rs1 rs2, s => execMopadr_keepsLog s t rd rs1 rs2
  | .mop t rs1, s => execMop_keepsLog s t rs1
  | .mwait t n, s => execMwait_keepsLog s t n
  | .dma t rs1, s => execDma_keepsLog s t rs1
  | .dwait t n, s => execDwait_keepsLog s t n
  | .solve t rs1, s => execSolve_keepsLog s t rs1
  | .swait t rs1 rs2, s => execSwait_keepsLog s t rs1 rs2
  | .ssig t rd rs1 rs2, s => execSsig_keepsLog s t rd rs1 rs2
  | .stake t rd rs1 rs2, s => execStake_keepsLog s t rd rs1 rs2
  | .sarr t rd rs1 rs2, s => execSarr_keepsLog s t rd rs1 rs2
  | .ssetf t rd rs1 rs2, s => execSsetf_keepsLog s t rd rs1 rs2
  | .sclrf t rd rs1 rs2, s => execSclrf_keepsLog s t rd rs1 rs2
  | .swany t rd rs1 rs2, s => execSwany_keepsLog s t rd rs1 rs2
  | .swall t rd rs1 rs2, s => execSwall_keepsLog s t rd rs1 rs2
  | .sadv t rd rs1 rs2, s => execSadv_keepsLog s t rd rs1 rs2
  | .swge t rd rs1 rs2, s => execSwge_keepsLog s t rd rs1 rs2
  | .wupd t rs1, s => execWupd_keepsLog s t rs1
  | .uwait t n, s => execUwait_keepsLog s t n
  | .nclr t a, s => execNclr_keepsLog s t a
  | .nsq t rd rs1 rs2 gfmt a, s => execNsq_keepsLog s t rd rs1 rs2 gfmt a
  | .nst t rs1 a, s => execNst_keepsLog s t rs1 a
  | .nadd t rs1 a, s => execNadd_keepsLog s t rs1 a
  | .csrr t rd csr, s => execCsrr_keepsLog s t rd csr
  | .csrw t csr rs1, s => execCsrw_keepsLog s t csr rs1
  | .halt t, s => execHalt_keepsLog s t
  | .rbegin t rs1 rs2, s => execRbegin_keepsLog s t rs1 rs2
  | .rcheck t, s => execRcheck_keepsLog s t
  | .rcmpb t, s => execRcmpb_keepsLog s t
  | .rcmpe t, s => execRcmpe_keepsLog s t
  | .stasha t rd rs1 rs2, s => execStasha_keepsLog s t rd rs1 rs2
  | .stashr t rs1 rs2, s => execStashr_keepsLog s t rs1 rs2
  | .vclaim t rd rs1 ew grp, s => execVclaim_keepsLog s t rd rs1 ew grp
  | .vls t op, s => execVls_keepsLog s t op
  | .vint t op, s => execVint_keepsLog s t op
  | .vfp t op, s => execVfp_keepsLog s t op
  | .vcvt t op, s => execVcvt_keepsLog s t op
  | .vred t op, s => execVred_keepsLog s t op
  | .vectorSleep t, s => execVectorSleep_keepsLog s t
  | .blockLoad x, s => execBlockLoad_keepsLog s x
  | .passStart x reruns, s => execPassStart_keepsLog s x reruns
  | .mopComplete x, s => execMopComplete_keepsLog s x
  | .offloadMopStart x record, s => execOffloadMopStart_keepsLog s x record
  | .loadLevelStep x, s => execLoadLevelStep_keepsLog s x
  | .hintRampStep x, s => execHintRampStep_keepsLog s x
  | .hintLapse t now, s => execHintLapse_keepsLog s t now
  | .dmaTransferRun t, s => execDmaTransferRun_keepsLog s t
  | .dmaTransferComplete t, s => execDmaTransferComplete_keepsLog s t
  | .updateOperationRun t reruns, s => execUpdateOperationRun_keepsLog s t reruns
  | .updateOperationComplete t, s => execUpdateOperationComplete_keepsLog s t
  | .solveCommandHead e now retries fault, s => execSolveCommandHead_keepsLog s e now retries fault
  | .syncOperationArrival id now, s => execSyncOperationArrival_keepsLog s id now
  | .barrierReleaseReceipt p index rel now, s => execBarrierReleaseReceipt_keepsLog s p index rel now
  | .launchBarrierHint obj now, s => execLaunchBarrierHint_keepsLog s obj now
  | .launchBarrierRelease obj now, s => execLaunchBarrierRelease_keepsLog s obj now
  | .remoteAck id code, s => execRemoteAck_keepsLog s id code
  | .waitTimeout w now, s => execWaitTimeout_keepsLog s w now
  | .timeMessageSend now, s => execTimeMessageSend_keepsLog s now
  | .timeMessageReceipt port upstream echo now, s => execTimeMessageReceipt_keepsLog s port upstream echo now
  | .counterSlew, s => execCounterSlew_keepsLog s
  | .holdoverEntry now, s => execHoldoverEntry_keepsLog s now
  | .synTimeUnlock now, s => execSynTimeUnlock_keepsLog s now
  | .portTrainingComplete port found now, s => execPortTrainingComplete_keepsLog s port found now
  | .laneRetrainStart lane now, s => execLaneRetrainStart_keepsLog s lane now
  | .laneRetrainEnd lane ok now, s => execLaneRetrainEnd_keepsLog s lane ok now
  | .laneRetryTimer lane now, s => execLaneRetryTimer_keepsLog s lane now
  | .frameReceipt port frame now, s => execFrameReceipt_keepsLog s port frame now
  | .frameNak port frame, s => execFrameNak_keepsLog s port frame
  | .datagramResend port frame, s => execDatagramResend_keepsLog s port frame
  | .neighborSolicitation port target, s => execNeighborSolicitation_keepsLog s port target
  | .echoRequest port dst payload, s => execEchoRequest_keepsLog s port dst payload
  | .linkHandshake p peer cert now, s => execLinkHandshake_keepsLog s p peer cert now
  | .rekey p peer, s => execRekey_keepsLog s p peer
  | .keepaliveSend now, s => execKeepaliveSend_keepsLog s now
  | .keepaliveTimeout p peer now, s => execKeepaliveTimeout_keepsLog s p peer now
  | .retrainNotice p peer now, s => execRetrainNotice_keepsLog s p peer now
  | .retrainSuspensionExpiry p peer now, s => execRetrainSuspensionExpiry_keepsLog s p peer now
  | .unbindFrame src jobTag epoch sigOk now, s => execUnbindFrame_keepsLog s src jobTag epoch sigOk now
  | .abortFrame src jobTag now, s => execAbortFrame_keepsLog s src jobTag now
  | .linkEntryStart p now, s => execLinkEntryStart_keepsLog s p now
  | .transferAck p entry peer, s => execTransferAck_keepsLog s p entry peer
  | .linkEntryComplete p entry inputs now, s => execLinkEntryComplete_keepsLog s p entry inputs now
  | .readyNotice p entry rank carry now, s => execReadyNotice_keepsLog s p entry rank carry now
  | .deadlineClose p entry now, s => execDeadlineClose_keepsLog s p entry now
  | .verdict p entry excluded carrying waited now, s => execVerdict_keepsLog s p entry excluded carrying waited now
  | .memoryReadError addr how reader now, s => execMemoryReadError_keepsLog s addr how reader now
  | .migrationComplete now, s => execMigrationComplete_keepsLog s now
  | .errorWindowEnd now, s => execErrorWindowEnd_keepsLog s now
  | .stackTempReading m temp now, s => execStackTempReading_keepsLog s m temp now
  | .granuleClearComplete now, s => execGranuleClearComplete_keepsLog s now
  | .sweepPage p now, s => execSweepPage_keepsLog s p now
  | .regulatorSample sample now, s => execRegulatorSample_keepsLog s sample now
  | .railSettled sheaf, s => execRailSettled_keepsLog s sheaf
  | .dieTempReading die temp now, s => execDieTempReading_keepsLog s die temp now
  | .regulatorWarning die overCurrent status now, s => execRegulatorWarning_keepsLog s die overCurrent status now
  | .railWarningRelease die now, s => execRailWarningRelease_keepsLog s die now
  | .thermalTrip by_ now, s => execThermalTrip_keepsLog s by_ now
  | .ageingMonitorRead die slow now, s => execAgeingMonitorRead_keepsLog s die slow now
  | .inputApplied, s => execInputApplied_keepsLog s
  | .powerLoss, s => execPowerLoss_keepsLog s
  | .perstAssert, s => execPerstAssert_keepsLog s
  | .perstRelease sincePwrgd, s => execPerstRelease_keepsLog s sincePwrgd
  | .bootStageEnd how, s => execBootStageEnd_keepsLog s how
  | .flr fn, s => execFlr_keepsLog s fn
  | .peRefclkLoss, s => execPeRefclkLoss_keepsLog s
  | .lnkRefclkLoss now, s => execLnkRefclkLoss_keepsLog s now
  | .tileHardFault t unit retries now, s => execTileHardFault_keepsLog s t unit retries now
  | .bindingAudit seen now, s => execBindingAudit_keepsLog s seen now
  | .fatalResetTimer now, s => execFatalResetTimer_keepsLog s now
  | .getVersion via, s => execGetVersion_keepsLog s via
  | .getCapabilities hello, s => execGetCapabilities_keepsLog s hello
  | .negotiateAlgorithms via asym offersSecp384 offersAesGcm, s => execNegotiateAlgorithms_keepsLog s via asym offersSecp384 offersAesGcm
  | .getDigests via, s => execGetDigests_keepsLog s via
  | .getCertificate via slot offset length, s => execGetCertificate_keepsLog s via slot offset length
  | .challenge via slot nonce, s => execChallenge_keepsLog s via slot nonce
  | .getMeasurements via index nonce signed, s => execGetMeasurements_keepsLog s via index nonce signed
  | .keyExchange via req now, s => execKeyExchange_keepsLog s via req now
  | .finish session macOk period now, s => execFinish_keepsLog s session macOk period now
  | .endSession session, s => execEndSession_keepsLog s session
  | .keyUpdate session, s => execKeyUpdate_keepsLog s session
  | .heartbeat session now, s => execHeartbeat_keepsLog s session now
  | .heartbeatTimeout session now, s => execHeartbeatTimeout_keepsLog s session now
  | .unsupportedRequest via code, s => execUnsupportedRequest_keepsLog s via code
  | .getTdispVersion session, s => execGetTdispVersion_keepsLog s session
  | .getTdispCapabilities session, s => execGetTdispCapabilities_keepsLog s session
  | .lockInterfaceRequest session vf, s => execLockInterfaceRequest_keepsLog s session vf
  | .getDeviceInterfaceReport session vf, s => execGetDeviceInterfaceReport_keepsLog s session vf
  | .getDeviceInterfaceState session vf, s => execGetDeviceInterfaceState_keepsLog s session vf
  | .startInterfaceRequest session vf, s => execStartInterfaceRequest_keepsLog s session vf
  | .stopInterfaceRequest session vf now, s => execStopInterfaceRequest_keepsLog s session vf now
  | .lockedConfigWrite vf now, s => execLockedConfigWrite_keepsLog s vf now
  | .spdmSessionLoss session now, s => execSpdmSessionLoss_keepsLog s session now
  | .ideKmQuery session, s => execIdeKmQuery_keepsLog s session
  | .ideKmKeyProgram session stream keySet, s => execIdeKmKeyProgram_keepsLog s session stream keySet
  | .ideKmKeySetGo session stream keySet, s => execIdeKmKeySetGo_keepsLog s session stream keySet
  | .ideKmKeySetStop session stream keySet, s => execIdeKmKeySetStop_keepsLog s session stream keySet
  | .drbgHealthFailure, s => execDrbgHealthFailure_keepsLog s
  | .debugHalt p, s => execDebugHalt_keepsLog s p
  | .debugSingleStep t, s => execDebugSingleStep_keepsLog s t
  | .setEndpointId b eid, s => execSetEndpointId_keepsLog s b eid
  | .getEndpointId b, s => execGetEndpointId_keepsLog s b
  | .getMctpVersionSupport b msgType, s => execGetMctpVersionSupport_keepsLog s b msgType
  | .getMessageTypeSupport b, s => execGetMessageTypeSupport_keepsLog s b
  | .getVendorDefinedMessageSupport b selector, s => execGetVendorDefinedMessageSupport_keepsLog s b selector
  | .entdaa address, s => execEntdaa_keepsLog s address
  | .setdasa static dynamic, s => execSetdasa_keepsLog s static dynamic
  | .seteventreceiver b eid enable, s => execSeteventreceiver_keepsLog s b eid enable
  | .sensorRefresh id reading, s => execSensorRefresh_keepsLog s id reading
  | .regRead b offset, s => execRegRead_keepsLog s b offset
  | .regWrite b offset value, s => execRegWrite_keepsLog s b offset value
  | .devReset b, s => execDevReset_keepsLog s b
  | .attlogRead b first, s => execAttlogRead_keepsLog s b first
  | .forceRecovery b, s => execForceRecovery_keepsLog s b
  | .requestupdate b c size, s => execRequestupdate_keepsLog s b c size
  | .firmwareDataReceipt data, s => execFirmwareDataReceipt_keepsLog s data
  | .transfercomplete, s => execTransfercomplete_keepsLog s
  | .updateVerifyEnd how, s => execUpdateVerifyEnd_keepsLog s how
  | .applycomplete, s => execApplycomplete_keepsLog s
  | .activatefirmware, s => execActivatefirmware_keepsLog s
  | .cancelupdate, s => execCancelupdate_keepsLog s
  | .solveCommandEnd e now, s => execSolveCommandEnd_keepsLog s e now
  | .peRefclkReturn, s => execPeRefclkReturn_keepsLog s
  | .lnkRefclkReturn, s => execLnkRefclkReturn_keepsLog s
  | .perstHoldExpiry, s => execPerstHoldExpiry_keepsLog s
  | .inputSag, s => execInputSag_keepsLog s
  | .inputSagEnd, s => execInputSagEnd_keepsLog s
  | .deviceFatalFault cause now, s => execDeviceFatalFault_keepsLog s cause now
  | .priorityFlowControl port pause, s => execPriorityFlowControl_keepsLog s port pause
  | .msixVectorUnmask fn vec, s => execMsixVectorUnmask_keepsLog s fn vec
  | .srIovEnable vfs, s => execSrIovEnable_keepsLog s vfs
  | .jtagAttach value, s => execJtagAttach_keepsLog s value

theorem step_keepsLog (s : State) : KeepsLog s (step s) := by
  unfold step
  split
  · exact .of_ledger (by rw [State.tick_sec])
  · exact fun hs => exec_keepsLog _ _ (hs.of_ledger rfl)

end

/-- Settles O60: only READY, recovery, an attach, a detach, a moult's end, an applied update and a reset write the log or LCHAIN, and
each keeps it; every other command leaves both alone. -/
theorem attestationLogHolds : Obligations.AttestationLogHolds := fun s t hs h => step_keepsLog s hs t h

end Sys2Proof.Machine
end

