-- ==== Sys2Proof/Proofs/DebugViews.lean ====
section
/-!
PROOFS. Debug attach, detach, forced FULL, halt and single step (15 R354, R355; 21 R462): a write of DBG_ATTACH is one of three
operations, each with what it does to levels, holders, log, cores and key moult.
-/
namespace Sys2Proof.Machine
open Sys2Proof.Claims

/-! ### The fields of DBG_ATTACH -/

theorem bits_level (value : Half) : bits value 1 0 = value.toNat % 4 := by simp [bits]

theorem bits_pid (value : Half) : bits value 19 16 = value.toNat / 65536 % 16 := by simp [bits, Nat.shiftRight_eq_div_pow]

theorem ofNat_bits_granted (attach : Half) : BitVec.ofNat 2 (bits attach 3 2) = BitVec.ofNat 2 (attach.toNat / 4) := by
  apply BitVec.eq_of_toNat_eq
  simp [bits, Nat.shiftRight_eq_div_pow]

/-! ### The log entry of an attach -/

theorem SecSt.append_eq (x : SecSt) (e : List Byte) : x.append e = { x with
    lchain := sha384 (x.lchain ++ e), log := if x.log.length < 4096 then x.log ++ [e] else x.log
    lost := if x.log.length < 4096 then x.lost else satAdd x.lost 1 } := by
  unfold SecSt.append
  dsimp only
  split <;> rfl

section
variable (s : State) (ty level : Nat) (p : Pid) (src : Source) (detail : List Byte)

theorem State.attest_sec : (s.attest ty (some p) level src detail).sec =
    s.sec.append (logEntry ty p.val level (srcCode src) (s.part p).entry.epoch.toNat s.now detail) := rfl

theorem State.attest_dbg : (s.attest ty (some p) level src detail).sec.dbg = s.sec.dbg := by rw [State.attest_sec, SecSt.append_eq]

theorem State.attest_dbgSess : (s.attest ty (some p) level src detail).sec.dbgSess = s.sec.dbgSess := by
  rw [State.attest_sec, SecSt.append_eq]

theorem State.attest_tdi : (s.attest ty (some p) level src detail).sec.tdi = s.sec.tdi := by rw [State.attest_sec, SecSt.append_eq]

theorem State.attest_log : (s.attest ty (some p) level src detail).sec.log = if s.sec.log.length < 4096 then s.sec.log ++
    [logEntry ty p.val level (srcCode src) (s.part p).entry.epoch.toNat s.now detail] else s.sec.log := by
  rw [State.attest_sec, SecSt.append_eq]

end

/-! ### Levels -/

section
variable (s : State) (p : Pid) (level : Nat) (src : Option Source)

theorem State.setLevel_sec_eq : (s.setLevel p level src).sec =
    { s.sec with dbg := s.sec.dbg.set p (BitVec.ofNat 2 level), dbgSess := s.sec.dbgSess.set p src } := by
  rw [State.setLevel, State.sec_ite, State.mapTiles_sec, ite_self]

theorem State.setLevel_eq : s.setLevel p level src = { s with tiles := (s.setLevel p level src).tiles, sec := (s.setLevel p level src).sec } := by
  unfold State.setLevel
  dsimp only
  split <;> rfl

theorem State.tile_setLevel_full (t : TileId) : (s.setLevel p 3 src).tile t = s.tile t := rfl

/-- Below FULL no core of the partition stays halted. -/
theorem State.tile_setLevel {level : Nat} (h : level ≠ 3) (t : TileId) : (s.setLevel p level src).tile t =
    if s.onPart p t then { s.tile t with core := { (s.tile t).core with dbgHalt := false, dbgSteps := 0 } } else s.tile t := by
  rw [State.setLevel, if_neg h, State.tile_mapTiles]
  rfl

theorem State.core_setLevel (t : TileId) : ((s.setLevel p level src).core t).g = (s.core t).g ∧
    ((s.setLevel p level src).core t).pc = (s.core t).pc := by
  by_cases h : level = 3
  · subst h
    exact ⟨rfl, rfl⟩
  · rw [State.core, State.tile_setLevel s p src h]
    split <;> exact ⟨rfl, rfl⟩

end

theorem State.tenant_iff (s : State) (p : Pid) : s.tenant p = true ↔ (s.part p).entry.st = .bound ∧
    (s.sec.tdi[(s.part p).entry.hfn] = .locked ∨ s.sec.tdi[(s.part p).entry.hfn] = .run) := by
  simp [State.tenant]

/-! ### The three operations of DBG_ATTACH -/

/-- LEVEL 0: no level, no holder, no FULL to come; an entry where there was a level or a holder. -/
def State.detachDebug (s : State) (p : Pid) (value : Half) (src : Source) : State :=
  let t := (s.setLevel p 0 none).modPart p fun x => { x with entry := { x.entry with moultFull := false } }
  let u : State := { t with sec := { t.sec with attach := attachWord value 0 } }
  if decide (s.sec.dbg[p] ≠ 0) || (s.sec.dbgSess[p]).isSome then u.attest 0x0003 (some p) 0 src [] else u

/-- A level granted at once, with its entry. -/
def State.grantDebug (s : State) (p : Pid) (level : Nat) (value : Half) (src : Source) : State :=
  let t := (s.setLevel p level (some src)).attest 0x0002 (some p) level src []
  { t with sec := { t.sec with attach := attachWord value level } }

theorem State.attachDebug_eq (s : State) (value : Half) (src : Source) {p : Pid} (hp : value.toNat / 65536 % 16 = p.val) :
    s.attachDebug value src = if value.toNat % 4 = 0 then s.detachDebug p value src
      else if s.tenant p = true ∧ value.toNat % 4 = 3 ∧ bit value 31 = true then s.forceFull p value src
      else s.grantDebug p (grantNow (s.tenant p) (value.toNat % 4)) value src := by
  have hpid (h : bits value 19 16 < 16) : (⟨bits value 19 16, h⟩ : Pid) = p := Fin.ext ((bits_pid value).trans hp)
  simp only [State.attachDebug, hpid, bits_level, Bool.and_eq_true, decide_eq_true_eq, and_assoc]
  rfl

section
variable {s : State} {p : Pid} {value : Half} {src : Source}

theorem State.attachDebug_grants (hp : value.toNat / 65536 % 16 = p.val) (h0 : value.toNat % 4 ≠ 0)
    (hf : ¬ (s.tenant p = true ∧ value.toNat % 4 = 3 ∧ bit value 31 = true)) :
    s.attachDebug value src = s.grantDebug p (grantNow (s.tenant p) (value.toNat % 4)) value src := by
  rw [State.attachDebug_eq s value src hp, if_neg h0, if_neg hf]

theorem State.attachDebug_forces (hp : value.toNat / 65536 % 16 = p.val) (ht : s.tenant p = true) (h3 : value.toNat % 4 = 3)
    (hb : bit value 31 = true) : s.attachDebug value src = s.forceFull p value src := by
  rw [State.attachDebug_eq s value src hp, if_neg (by omega), if_pos ⟨ht, h3, hb⟩]

theorem State.attachDebug_detaches (hp : value.toNat / 65536 % 16 = p.val) (h0 : value.toNat % 4 = 0) :
    s.attachDebug value src = s.detachDebug p value src := by
  rw [State.attachDebug_eq s value src hp, if_pos h0]

/-- What a grant does: nothing but tiles and security state changes. -/
theorem State.grantDebug_frame (s : State) (p : Pid) (level : Nat) (value : Half) (src : Source) : s.grantDebug p level value src =
    { s with tiles := (s.grantDebug p level value src).tiles, sec := (s.grantDebug p level value src).sec } := by
  unfold State.grantDebug State.attest
  rw [State.setLevel_eq]

theorem State.grantDebug_dbg (s : State) (p : Pid) (level : Nat) (value : Half) (src : Source) :
    (s.grantDebug p level value src).sec.dbg = s.sec.dbg.set p (BitVec.ofNat 2 level) :=
  (State.attest_dbg ..).trans (by rw [State.setLevel_sec_eq])

theorem State.grantDebug_dbgSess (s : State) (p : Pid) (level : Nat) (value : Half) (src : Source) :
    (s.grantDebug p level value src).sec.dbgSess = s.sec.dbgSess.set p (some src) :=
  (State.attest_dbgSess ..).trans (by rw [State.setLevel_sec_eq])

theorem State.grantDebug_log (s : State) (p : Pid) (level : Nat) (value : Half) (src : Source) :
    (s.grantDebug p level value src).sec.log = if s.sec.log.length < 4096 then s.sec.log ++
      [logEntry 0x0002 p.val level (srcCode src) (s.part p).entry.epoch.toNat s.now []] else s.sec.log := by
  refine (State.attest_log ..).trans ?_
  rw [State.setLevel_sec_eq, State.setLevel_eq]
  rfl

theorem State.withSec_tiles (s : State) (x : SecSt) : State.tiles { s with sec := x } = s.tiles := rfl

theorem State.withSec_mem (s : State) (x : SecSt) : State.mem { s with sec := x } = s.mem := rfl

theorem State.tile_grantDebug (s : State) (p : Pid) (level : Nat) (value : Half) (src : Source) (t : TileId) :
    (s.grantDebug p level value src).tile t = (s.setLevel p level (some src)).tile t := by
  rw [State.tile, State.grantDebug, State.withSec_tiles, State.attest, State.withSec_tiles, State.tile]

/-! ### Detach -/

theorem State.detachDebug_frame (s : State) (p : Pid) (value : Half) (src : Source) : s.detachDebug p value src =
    { (s.setLevel p 0 none).modPart p fun x => { x with entry := { x.entry with moultFull := false } } with
      sec := (s.detachDebug p value src).sec } := by
  unfold State.detachDebug
  dsimp only
  split <;> rfl

theorem State.detachDebug_levels (s : State) (p : Pid) (value : Half) (src : Source) :
    (s.detachDebug p value src).sec.dbg = s.sec.dbg.set p 0 ∧ (s.detachDebug p value src).sec.dbgSess = s.sec.dbgSess.set p none := by
  unfold State.detachDebug
  dsimp only
  split
  · rw [State.attest_dbg, State.attest_dbgSess, State.modPart_sec, State.setLevel_sec_eq]
    exact ⟨rfl, rfl⟩
  · dsimp only
    rw [State.modPart_sec, State.setLevel_sec_eq]
    exact ⟨rfl, rfl⟩

theorem State.mem_setLevel (s : State) (p : Pid) (level : Nat) (src : Option Source) : (s.setLevel p level src).mem = s.mem := by
  rw [State.setLevel_eq]

theorem State.mem_detachDebug (s : State) (p : Pid) (value : Half) (src : Source) : (s.detachDebug p value src).mem = s.mem := by
  rw [State.detachDebug_frame, State.withSec_mem, State.modPart_mem, State.mem_setLevel]

theorem State.dbgHalt_detachDebug (s : State) (p : Pid) (value : Half) (src : Source) {t : TileId} (ht : s.onPart p t = true) :
    ((s.detachDebug p value src).core t).dbgHalt = false := by
  have htile : (s.detachDebug p value src).tile t = (s.setLevel p 0 none).tile t := by
    rw [State.tile, State.detachDebug_frame, State.withSec_tiles, State.modPart_tiles, State.tile]
  rw [State.core, htile, State.tile_setLevel s p none (by decide), if_pos ht]

/-! ### Forced FULL -/

theorem State.tdiError_parts (s : State) (n : Fn) : (s.tdiError n).parts = s.parts := by
  unfold State.tdiError
  split <;> rfl

theorem State.tdiError_sec_of_locked {s : State} {n : Fn} (h : s.sec.tdi[n] = .locked ∨ s.sec.tdi[n] = .run) :
    (s.tdiError n).sec = { s.sec with tdi := s.sec.tdi.set n .error, tdiSess := s.sec.tdiSess.set n none } := by
  rw [State.tdiError, if_pos h]

theorem State.part_dropTx (s : State) (which : Pid → ModId → Bool) (p : Pid) : (s.dropTx which).part p = s.part p := rfl

/-- The entry of a partition whose key moult starts. -/
theorem State.entry_startKeyMoult {s : State} {p : Pid} (src : Source) (full : Bool) (hst : (s.part p).entry.st = .bound)
    (hkey : (s.part p).entry.keyMoult = false) : ((s.startKeyMoult p src full).part p).entry =
      { (s.part p).entry with mstep := 1, keyMoult := true, moultSrc := src, moultFull := full } := by
  rw [State.startKeyMoult, if_pos ⟨hst, by simp [hkey]⟩, State.part_dropTx, State.part_modPart]

/-- FORCED_FULL is in the log and its event is raised. -/
def State.fullReported (s : State) (p : Pid) (src : Source) : State :=
  let t := s.attest 0x0004 (some p) 3 src []
  t.raiseBoth 0x0402 (some p) (p.val + srcCode src * 16) (t.part p).entry.epoch.toNat

theorem State.fullReported_sec (s : State) (p : Pid) (src : Source) :
    (s.fullReported p src).sec = (s.attest 0x0004 (some p) 3 src []).sec := (HostOnly.raiseBoth ..).sec

theorem State.fullReported_parts (s : State) (p : Pid) (src : Source) : (s.fullReported p src).parts = s.parts :=
  (HostOnly.raiseBoth ..).parts

@[simp] theorem State.fullReported_part (s : State) (p : Pid) (src : Source) : (s.fullReported p src).part p = s.part p :=
  congrArg (·[p]) (s.fullReported_parts p src)

/-- The interface goes to ERROR and the key moult starts that grants FULL at its end. -/
def State.fullMoult (s : State) (p : Pid) (value : Half) (src : Source) : State :=
  let t := (s.tdiError (s.part p).entry.hfn).startKeyMoult p src true
  { t with sec := { t.sec with attach := attachWord value (t.sec.dbg[p]).toNat, dbgSess := t.sec.dbgSess.set p (some src) } }

theorem State.forceFull_eq (s : State) (p : Pid) (value : Half) (src : Source) :
    s.forceFull p value src = (s.fullReported p src).fullMoult p value src := by
  simp only [State.forceFull, State.fullMoult, State.fullReported]

theorem State.fullMoult_sec {s : State} {p : Pid} {n : Fn} (value : Half) (src : Source) (hn : (s.part p).entry.hfn = n)
    (hlocked : s.sec.tdi[n] = .locked ∨ s.sec.tdi[n] = .run) : (s.fullMoult p value src).sec =
    { s.sec with
      tdi := s.sec.tdi.set n .error, tdiSess := s.sec.tdiSess.set n none
      attach := attachWord value (s.sec.dbg[p]).toNat, dbgSess := s.sec.dbgSess.set p (some src) } := by
  subst hn
  unfold State.fullMoult
  dsimp only
  rw [State.startKeyMoult_sec, State.tdiError_sec_of_locked hlocked]

theorem State.entry_fullMoult {s : State} {p : Pid} (value : Half) (src : Source) (hst : (s.part p).entry.st = .bound)
    (hkey : (s.part p).entry.keyMoult = false) : ((s.fullMoult p value src).part p).entry =
      { (s.part p).entry with mstep := 1, keyMoult := true, moultSrc := src, moultFull := true } := by
  have hpart : (s.tdiError (s.part p).entry.hfn).part p = s.part p := by
    rw [State.part, State.tdiError_parts, State.part]
  have hentry := State.entry_startKeyMoult (s := s.tdiError (s.part p).entry.hfn) src true (by rwa [hpart]) (by rwa [hpart])
  rw [hpart] at hentry
  exact hentry

/-- The levels, the interface, the partition's entry and the log after a forced FULL on a tenant session. -/
theorem State.forceFull_spec {s : State} {p : Pid} (value : Half) (src : Source) (ht : s.tenant p = true)
    (hkey : (s.part p).entry.keyMoult = false) :
    (s.forceFull p value src).sec.dbg = s.sec.dbg ∧ (s.forceFull p value src).sec.tdi[(s.part p).entry.hfn] = .error ∧
      ((s.forceFull p value src).part p).entry =
        { (s.part p).entry with mstep := 1, keyMoult := true, moultSrc := src, moultFull := true } ∧
      (s.forceFull p value src).sec.log = (s.attest 0x0004 (some p) 3 src []).sec.log := by
  obtain ⟨hst, htdi⟩ := (State.tenant_iff s p).1 ht
  have hpart := State.fullReported_part s p src
  have hentry := State.entry_fullMoult value src (by rwa [hpart]) (by rwa [hpart])
  rw [hpart] at hentry
  have hsec := State.fullMoult_sec value src (congrArg (·.entry.hfn) hpart) (by rwa [State.fullReported_sec, State.attest_tdi])
  rw [State.fullReported_sec] at hsec
  rw [State.forceFull_eq, hsec]
  exact ⟨State.attest_dbg .., Vector.getElem_set_self _, hentry, rfl⟩

/-! ### Halt and single step -/

theorem State.markPart_eq (s : State) (p : Pid) (k : FlagKind) : s.markPart p k = { s with parts := (s.markPart p k).parts } := rfl

theorem State.tiles_markPart (s : State) (p : Pid) (k : FlagKind) : (s.markPart p k).tiles = s.tiles := rfl

theorem State.part_markPart_ne (s : State) {p q : Pid} (k : FlagKind) (h : q ≠ p) : (s.markPart p k).part q = s.part q :=
  State.part_modPart_ne _ _ _ _ h

/-- The partition's cores stop issuing. -/
def State.haltCores (s : State) (p : Pid) : State :=
  s.mapTiles (s.onPart p) fun x => { x with core := { x.core with dbgHalt := true, dbgSteps := 0 } }

/-- One more instruction may issue. -/
def State.stepCore (s : State) (t : TileId) : State := s.modCore t fun c => { c with dbgSteps := c.dbgSteps + 1 }

theorem execDebugHalt_eq (s : State) (p : Pid) :
    execDebugHalt p s = .next (if s.sec.dbg[p] = 3 then (s.haltCores p).markPart p .tmg else s) := rfl

theorem execDebugSingleStep_eq {s : State} {t : TileId} {p : Pid} (ht : s.partOfTile t = some p) :
    execDebugSingleStep t s = .next (if s.sec.dbg[p] = 3 ∧ (s.core t).dbgHalt then (s.stepCore t).markPart p .tmg else s) := by
  simp only [execDebugSingleStep, ht]
  rfl

/-- Marking the launch after a change of tiles: tiles and partitions are all that changes, other partitions stay. -/
theorem State.markPart_of_tiles {s u : State} (hu : u = { s with tiles := u.tiles }) (p : Pid) (k : FlagKind) :
    u.markPart p k = { s with tiles := (u.markPart p k).tiles, parts := (u.markPart p k).parts } ∧
      ∀ q, q ≠ p → (u.markPart p k).part q = s.part q := by
  refine ⟨?_, fun q hq => ?_⟩
  · rw [State.tiles_markPart, State.markPart_eq, hu]
  · rw [State.part_markPart_ne _ _ hq, hu]
    rfl

end

/-- Settles O48: a write of DBG_ATTACH is a detach, a forced FULL or a grant by its fields, and under FULL alone a halt and a step
reach the cores. -/
theorem debugViews : Obligations.DebugViews := by
  intro s value p hp level tenant granted
  have hgrant : grantNow (s.tenant p) level = granted := by
    simp only [grantNow, Bool.and_eq_true, decide_eq_true_eq, State.tenant_iff]
    rfl
  refine ⟨fun hclosed => ⟨fun src => ?_, ?_⟩, fun src hopen h0 hforce => ?_, fun src hopen h0 => ?_, fun src hopen ht hkey h3 hb => ?_,
    fun hopen => ?_, fun hlow => ⟨?_, fun t ht => ?_⟩, fun hfull => ⟨?_, fun t ht hhalt => ?_⟩⟩
  · simp [exec, execDbgAttach, hclosed]
  · simp [exec, execJtagAttach, hclosed]
  · have hdo : s.attachDebug value src = s.grantDebug p granted value src := by
      rw [← hgrant]
      exact State.attachDebug_grants hp h0 fun h => hforce ⟨(State.tenant_iff s p).1 h.1, h.2⟩
    refine ⟨s.grantDebug p granted value src, by simp [exec, execDbgAttach, hopen, hdo], State.grantDebug_frame .., State.grantDebug_dbg ..,
      State.grantDebug_dbgSess .., State.grantDebug_log .., fun t h3 => ?_, fun t => ?_⟩
    · rw [State.tile_grantDebug, h3, State.tile_setLevel_full]
    · rw [State.core, State.tile_grantDebug]
      exact State.core_setLevel s p granted (some src) t
  · have hdo : s.attachDebug value src = s.detachDebug p value src := State.attachDebug_detaches hp h0
    obtain ⟨hdbg, hsess⟩ := State.detachDebug_levels s p value src
    exact ⟨s.detachDebug p value src, by simp [exec, execDbgAttach, hopen, hdo], hdbg, hsess, State.mem_detachDebug ..,
      fun t ht => State.dbgHalt_detachDebug s p value src ht⟩
  · have ht' := (State.tenant_iff s p).2 ht
    have hdo : s.attachDebug value src = s.forceFull p value src := State.attachDebug_forces hp ht' h3 hb
    obtain ⟨hdbg, htdi, hentry, hlog⟩ := State.forceFull_spec value src ht' hkey
    exact ⟨s.forceFull p value src, by simp [exec, execDbgAttach, hopen, hdo], hdbg, htdi, hentry, hlog.trans (State.attest_log ..)⟩
  · refine ⟨s.attachDebug value .jtag, _, by simp [exec, execDbgAttach, hopen], by simp [exec, execJtagAttach, hopen]; rfl, ?_⟩
    rw [← ofNat_bits_granted]
    rfl
  · exact (execDebugHalt_eq s p).trans (by rw [if_neg hlow])
  · exact (execDebugSingleStep_eq ht).trans (by rw [if_neg fun h => hlow h.1])
  · obtain ⟨hframe, hothers⟩ := State.markPart_of_tiles (s := s) (u := s.haltCores p) rfl p .tmg
    refine ⟨(s.haltCores p).markPart p .tmg, (execDebugHalt_eq s p).trans (by rw [if_pos hfull]), hframe, hothers, fun t => ?_⟩
    rw [State.tile, State.tiles_markPart]
    exact State.tile_mapTiles ..
  · obtain ⟨hframe, hothers⟩ := State.markPart_of_tiles (s := s) (u := s.stepCore t) rfl p .tmg
    exact ⟨(s.stepCore t).markPart p .tmg, (execDebugSingleStep_eq ht).trans (by rw [if_pos ⟨hfull, hhalt⟩]), hframe, hothers,
      State.tiles_markPart ..⟩

end Sys2Proof.Machine
end

