-- ==== Sys2Proof/Proofs/SpdmRequests.lean ====
section
/-!
PROOFS. The SPDM responder's requests before a session, and its measurements (15 R339 to R341, R344; 19 R434): who is answered at all,
then what each request that is heard says and changes.
-/
namespace Sys2Proof.Machine
open Sys2Proof.Claims

/-! ### Who is answered -/

section
variable {s : State} {via : Source} (f : State → State)

theorem State.answerSpdm_away (h : s.reachable via = false) : s.answerSpdm via f = s := by simp [State.answerSpdm, h]

theorem State.answerSpdm_recovery (h : s.reachable via = true) (hr : s.mgmt.recov = true) :
    s.answerSpdm via f = s.say via [0x7F, 0x07] := by
  simp only [State.answerSpdm, h, hr]
  rfl

theorem State.answerSpdm_noIdentity (h : s.reachable via = true) (hr : s.mgmt.recov = false) (hid : s.sec.idCause ≠ 0) :
    s.answerSpdm via f = s.say via [0x7F, 0x05, 0x01, 0x04] := by
  rw [State.answerSpdm, if_neg (by simp [h]), if_neg (by simp [hr]), if_pos hid]
  rfl

theorem State.answerSpdm_heard (h : Hears s via) : s.answerSpdm via f = f s := by
  obtain ⟨hreach, hrec, hid⟩ := h
  rw [State.answerSpdm, if_neg (by simp [hreach]), if_neg (by simp [hrec]), if_neg (by simp [hid])]

theorem State.answerAfter_heard (h : Hears s via) (ha : s.sec.algs = true) : s.answerAfter via f = f s := by
  rw [State.answerAfter, State.answerSpdm_heard _ h, if_pos ha]

theorem State.answerAfter_early (h : Hears s via) (ha : s.sec.algs = false) : s.answerAfter via f = s.say via [0x7F, 0x04] := by
  rw [State.answerAfter, State.answerSpdm_heard _ h, if_neg (by simp [ha])]
  rfl

end

/-- The requests that are answered only after the negotiation of algorithms. -/
theorem exec_eq_answerAfter (s : State) (via : Source) (slot offset length : Nat) (nonce : BitVec 256) (index : Byte) (signed : Option Nat) :
    ∀ r ∈ ([.getDigests via, .getCertificate via slot offset length, .challenge via slot nonce,
      .getMeasurements via index nonce signed] : List Instr), ∃ f, exec r s = .next (s.answerAfter via f) := by
  simp only [List.mem_cons, List.not_mem_nil, or_false, forall_eq_or_imp, forall_eq]
  exact ⟨⟨_, rfl⟩, ⟨_, rfl⟩, ⟨_, rfl⟩, ⟨_, rfl⟩⟩

theorem exec_eq_answerSpdm (s : State) (via : Source) (slot offset length : Nat) (nonce : BitVec 256) (index code : Byte)
    (theirs : List Byte) (asym : SpdmAsym) (b2 b3 : Bool) (signed : Option Nat) :
    ∀ r ∈ ([.getVersion via, .getCapabilities { via := via, versions := theirs }, .negotiateAlgorithms via asym b2 b3, .getDigests via,
      .getCertificate via slot offset length, .challenge via slot nonce, .getMeasurements via index nonce signed,
      .unsupportedRequest via code] : List Instr), ∃ f, exec r s = .next (s.answerSpdm via f) := by
  simp only [List.mem_cons, List.not_mem_nil, or_false, forall_eq_or_imp, forall_eq]
  exact ⟨⟨_, rfl⟩, ⟨_, rfl⟩, ⟨_, rfl⟩, ⟨_, rfl⟩, ⟨_, rfl⟩, ⟨_, rfl⟩, ⟨_, rfl⟩, ⟨_, rfl⟩⟩

/-! ### Negotiation -/

/-- The version in use is the highest of 1.0 to 1.3 that the requester names. -/
theorem commonVersion_eq_some {theirs : List Byte} {best : Byte} (hmem : best ∈ theirs) (hlo : 0x10 ≤ best.toNat) (hhi : best.toNat ≤ 0x13)
    (hbest : ∀ x ∈ theirs, x.toNat ≤ best.toNat ∨ 0x13 < x.toNat) : commonVersion theirs = some best := by
  have hhigher (y : Byte) (hy : best.toNat < y.toNat) (hy' : y.toNat ≤ 0x13) : y ∉ theirs := fun h => by
    have := hbest y h
    omega
  have hcases : best = 0x13#8 ∨ best = 0x12#8 ∨ best = 0x11#8 ∨ best = 0x10#8 := by bv_omega
  obtain rfl | rfl | rfl | rfl := hcases
  · simp [commonVersion, spdmVersions, hmem]
  · simp [commonVersion, spdmVersions, hmem, hhigher 0x13#8 (by decide) (by decide)]
  · simp [commonVersion, spdmVersions, hmem, hhigher 0x13#8 (by decide) (by decide), hhigher 0x12#8 (by decide) (by decide)]
  · simp [commonVersion, spdmVersions, hmem, hhigher 0x13#8 (by decide) (by decide), hhigher 0x12#8 (by decide) (by decide),
      hhigher 0x11#8 (by decide) (by decide)]

theorem commonVersion_eq_none {theirs : List Byte} (h : ∀ x ∈ theirs, x.toNat < 0x10 ∨ 0x13 < x.toNat) : commonVersion theirs = none := by
  have hout (y : Byte) (hlo : 0x10 ≤ y.toNat) (hhi : y.toNat ≤ 0x13) : y ∉ theirs := fun hy => by
    have := h y hy
    omega
  simp [commonVersion, spdmVersions, hout 0x13#8 (by decide) (by decide), hout 0x12#8 (by decide) (by decide),
    hout 0x11#8 (by decide) (by decide), hout 0x10#8 (by decide) (by decide)]

section
variable {s : State} {via : Source} {theirs : List Byte}

theorem exec_getCapabilities_common {v : Byte} (h : Hears s via) (hv : s.sec.ver = true) (hc : commonVersion theirs = some v) :
    exec (.getCapabilities { via := via, versions := theirs }) s = .next { s with
      sec := { s.sec with caps := true, spdm := v }, outputs := .spdm via [0x61] :: s.outputs } := by
  rw [exec, execGetCapabilities, State.answerSpdm_heard _ h, if_neg (by simp [hv])]
  simp only [hc]
  rfl

theorem exec_getCapabilities_mismatch (h : Hears s via) (hv : s.sec.ver = true) (hc : commonVersion theirs = none) :
    exec (.getCapabilities { via := via, versions := theirs }) s = said s via [0x7F, 0x41] := by
  rw [exec, execGetCapabilities, State.answerSpdm_heard _ h, if_neg (by simp [hv])]
  simp only [hc]
  rfl

theorem exec_getCapabilities_early (h : Hears s via) (hv : s.sec.ver = false) :
    exec (.getCapabilities { via := via, versions := theirs }) s = said s via [0x7F, 0x04] := by
  rw [exec, execGetCapabilities, State.answerSpdm_heard _ h, if_pos (by simp [hv])]
  rfl

theorem exec_negotiateAlgorithms_heard {asym : SpdmAsym} {b2 b3 : Bool} (h : Hears s via) (hc : s.sec.caps = true) :
    exec (.negotiateAlgorithms via asym b2 b3) s = .next ({ s with
      sec := { s.sec with algs := asym.brainpool && asym.sha && asym.measSha && b2 && b3 } }.say via (algsReply asym b2 b3)) := by
  rw [exec, execNegotiateAlgorithms, State.answerSpdm_heard _ h, if_pos hc]

theorem exec_negotiateAlgorithms_early {asym : SpdmAsym} {b2 b3 : Bool} (h : Hears s via) (hc : s.sec.caps = false) :
    exec (.negotiateAlgorithms via asym b2 b3) s = said s via [0x7F, 0x04] := by
  rw [exec, execNegotiateAlgorithms, State.answerSpdm_heard _ h, if_neg (by simp [hc])]
  rfl

end

/-! ### Measurements -/

theorem sha384_length (bs : List Byte) : (sha384 bs).length = 48 := by simp [sha384]

section
variable (s : State) (k : Nat)

theorem State.measureBlock_length : (s.measureBlock k).length = (s.measurement k).length + 7 := by
  simp only [State.measureBlock, List.length_append, List.length_cons, List.length_nil, leBytes_length]
  omega

theorem State.measureBlock_index : (s.measureBlock k).take 2 = [BitVec.ofNat 8 k, 1] := rfl

theorem State.measureBlock_content : (s.measureBlock k).drop 7 = s.measurement k := rfl

/-- The block's size and the content's length, each in two bytes. -/
theorem State.measureBlock_lengths (h : (s.measurement k).length + 3 < 2 ^ 16) :
    leNat (((s.measureBlock k).drop 2).take 2) = (s.measurement k).length + 3 ∧
      leNat (((s.measureBlock k).drop 5).take 2) = (s.measurement k).length := by
  have hsize : ((s.measureBlock k).drop 2).take 2 = leBytes 2 ((s.measurement k).length + 3) := rfl
  have hcount : ((s.measureBlock k).drop 5).take 2 = leBytes 2 (s.measurement k).length := rfl
  rw [hsize, hcount, leNat_leBytes, leNat_leBytes, Nat.mod_eq_of_lt h, Nat.mod_eq_of_lt (by omega)]
  exact ⟨rfl, rfl⟩

end

theorem State.measureBlocks_all (s : State) : s.measureBlocks 0xFF = some (7 :: [1, 2, 3, 4, 5, 6, 7].flatMap s.measureBlock) := rfl

theorem State.measureBlocks_one (s : State) {k : Nat} (h1 : 1 ≤ k) (h7 : k ≤ 7) :
    s.measureBlocks (BitVec.ofNat 8 k) = some (1 :: s.measureBlock k) := by
  have hk : (BitVec.ofNat 8 k).toNat = k := by simp; omega
  rw [State.measureBlocks, if_neg (by bv_omega), if_neg (by bv_omega), if_pos (by omega), hk]
  rfl

theorem State.measureBlocks_none (s : State) {index : Byte} (h8 : 8 ≤ index.toNat) (hff : index ≠ 0xFF) : s.measureBlocks index = none := by
  rw [State.measureBlocks, if_neg (by bv_omega), if_neg hff, if_neg (by omega)]

section
variable {s : State} {via : Source} {index : Byte} (nonce : BitVec 256) (h : Hears s via) (ha : s.sec.algs = true)
include h ha

theorem exec_getMeasurements_none (hb : s.measureBlocks index = none) (signed : Option Nat) :
    exec (.getMeasurements via index nonce signed) s = said s via [0x7F, 0x01] := by
  rw [exec, execGetMeasurements, State.answerAfter_heard _ h ha]
  simp only [hb]
  rfl

theorem exec_getMeasurements_some {b : List Byte} (hb : s.measureBlocks index = some b) :
    exec (.getMeasurements via index nonce none) s = said s via (0x60 :: b) ∧
      (∀ slot, slot ≠ 0 → exec (.getMeasurements via index nonce (some slot)) s = said s via [0x7F, 0x01]) ∧
      exec (.getMeasurements via index nonce (some 0)) s = saidSigned s via (0x60 :: b) (leBytes 32 nonce.toNat) := by
  refine ⟨?_, fun slot hslot => ?_, ?_⟩
  · rw [exec, execGetMeasurements, State.answerAfter_heard _ h ha]
    simp only [hb]
    rfl
  · rw [exec, execGetMeasurements, State.answerAfter_heard _ h ha]
    simp only [hb, if_neg hslot]
    rfl
  · rw [exec, execGetMeasurements, State.answerAfter_heard _ h ha]
    simp only [hb, if_true]
    rfl

/-! ### The chain -/

theorem exec_getDigests_heard : exec (.getDigests via) s = said s via ([0x01] ++ sha384 s.chain) := by
  rw [exec, execGetDigests, State.answerAfter_heard _ h ha]
  rfl

theorem exec_getCertificate_heard (slot offset length : Nat) : exec (.getCertificate via slot offset length) s =
    if 2 ^ 16 < length then said s via [0x7F, 0x07]
    else if slot = 0 then said s via ([0x02] ++ (s.chain.drop offset).take length) else said s via [0x7F, 0x01] := by
  rw [exec, execGetCertificate, State.answerAfter_heard _ h ha]
  unfold maxTransfer
  split
  · rfl
  · split <;> rfl

theorem exec_challenge_heard (slot : Nat) : exec (.challenge via slot nonce) s =
    if slot = 0 then saidSigned s via ([0x03] ++ sha384 s.chain) (leBytes 32 nonce.toNat) else said s via [0x7F, 0x01] := by
  rw [exec, execChallenge, State.answerAfter_heard _ h ha]
  split <;> rfl

end

/-- Settles O49: the way a request comes, recovery and the identity decide whether it is heard; the negotiated state decides the rest. -/
theorem spdmRequests : Obligations.SpdmRequests := by
  refine ⟨fun s k _ _ => ⟨rfl, rfl, rfl, rfl, rfl, rfl, rfl, rfl, sha384_length _, beBytesN_length .., sha384_length _,
    s.measureBlock_length k, s.measureBlock_index k, s.measureBlock_content k, s.measureBlock_lengths k⟩, ?_⟩
  intro s via slot offset length nonce index code theirs asym b2 b3 signed chain hello requests later
  refine ⟨fun r hr => ?_, fun h => ⟨?_,
    fun best hv hmem hlo hhi hbest => exec_getCapabilities_common h hv (commonVersion_eq_some hmem hlo hhi hbest),
    fun hv hnone => exec_getCapabilities_mismatch h hv (commonVersion_eq_none hnone), fun hv => exec_getCapabilities_early h hv,
    fun hc => exec_negotiateAlgorithms_heard h hc, fun hc hmiss => ⟨_, exec_negotiateAlgorithms_heard h hc, ?_⟩,
    fun hc => exec_negotiateAlgorithms_early h hc, ?_, fun ha r hr => ?_, fun ha => ⟨exec_getDigests_heard h ha, fun hl => ?_, fun hl => ?_,
      exec_challenge_heard nonce h ha 0, fun hslot => ⟨fun hl => ?_, ?_⟩, fun h8 hff =>
        exec_getMeasurements_none nonce h ha (s.measureBlocks_none h8 hff) signed, ?_⟩⟩⟩
  · obtain ⟨f, hf⟩ := exec_eq_answerSpdm s via slot offset length nonce index code theirs asym b2 b3 signed r hr
    rw [hf]
    refine ⟨fun haway => ?_, fun hreach hrec => ?_, fun hreach hrec hid => ?_⟩
    · rw [State.answerSpdm_away f haway]
    · rw [State.answerSpdm_recovery f hreach hrec]
      rfl
    · rw [State.answerSpdm_noIdentity f hreach hrec hid]
      rfl
  · rw [exec, execGetVersion, State.answerSpdm_heard _ h]
    rfl
  · have hfalse : (asym.brainpool && asym.sha && asym.measSha && b2 && b3) = false := by
      simp only [Bool.and_eq_false_iff]
      tauto
    rw [hfalse]
    rfl
  · rw [exec, execUnsupportedRequest, State.answerSpdm_heard _ h]
    rfl
  · obtain ⟨f, hf⟩ := exec_eq_answerAfter s via slot offset length nonce index signed r hr
    rw [hf, State.answerAfter_early f h ha]
    rfl
  · rw [exec_getCertificate_heard h ha, if_neg (by omega), if_pos rfl]
  · rw [exec_getCertificate_heard h ha, if_pos (by omega)]
  · rw [exec_getCertificate_heard h ha, if_neg (by omega), if_neg hslot]
  · rw [exec_challenge_heard nonce h ha, if_neg hslot]
  · intro measures
    have hmeasures {i : Byte} {b : List Byte} (hb : s.measureBlocks i = some b) : measures i b := by
      obtain ⟨hplain, hother, hsigned⟩ := exec_getMeasurements_some nonce h ha hb
      exact ⟨hplain, hother slot, hsigned⟩
    exact ⟨hmeasures rfl, hmeasures s.measureBlocks_all, fun k h1 h7 => hmeasures (s.measureBlocks_one h1 h7)⟩

end Sys2Proof.Machine
end

