-- ==== Sys2Proof/Proofs/TenantSessions.lean ====
section
/-!
PROOFS. An interface leaves its tenant session and a session is lost (15 R352): what becomes of the interface, of its partition's key
and of everything else.
-/
namespace Sys2Proof.Machine
open Sys2Proof.Claims

/-- CONFIG_LOCKED or RUN. -/
abbrev Tdi.tenant (x : Tdi) : Prop := x = .locked ∨ x = .run

/-! ### A key moult starts -/

/-- The entry after at most the start of a key moult. -/
def MoultStarted (e e' : Entry) : Prop := e'.st = e.st ∧ e'.hfn = e.hfn ∧ (e.keyMoult = true → e'.keyMoult = true)

theorem MoultStarted.refl (e : Entry) : MoultStarted e e := ⟨rfl, rfl, id⟩

theorem MoultStarted.trans {a b c : Entry} (h : MoultStarted a b) (k : MoultStarted b c) : MoultStarted a c := by
  obtain ⟨hst, hfn, hkey⟩ := h
  obtain ⟨hst', hfn', hkey'⟩ := k
  exact ⟨hst'.trans hst, hfn'.trans hfn, hkey' ∘ hkey⟩

/-- The function that holds a partition is told by states and functions of the entries alone. -/
theorem State.partOfFn_congr {s t : State} (h : ∀ p, MoultStarted (s.part p).entry (t.part p).entry) (n : Fn) :
    t.partOfFn n = s.partOfFn n := by
  unfold State.partOfFn
  congr 1
  funext p
  obtain ⟨hst, hfn, -⟩ := h p
  rw [hst, hfn]

theorem State.startKeyMoult_mem (s : State) (p : Pid) (src : Source) (full : Bool) : (s.startKeyMoult p src full).mem = s.mem := by
  unfold State.startKeyMoult
  split <;> rfl

theorem State.startKeyMoult_tiles (s : State) (p : Pid) (src : Source) (full : Bool) : (s.startKeyMoult p src full).tiles = s.tiles := by
  unfold State.startKeyMoult
  split <;> rfl

theorem State.moultStarted_startKeyMoult (s : State) (p q : Pid) (src : Source) (full : Bool) :
    MoultStarted (s.part q).entry ((s.startKeyMoult p src full).part q).entry := by
  unfold State.startKeyMoult
  split
  · rw [State.part_dropTx]
    by_cases hq : q = p
    · subst hq
      rw [State.part_modPart]
      exact ⟨rfl, rfl, fun _ => rfl⟩
    · rw [State.part_modPart_ne _ _ _ _ hq]
      exact .refl _
  · exact .refl _

theorem State.keyMoult_startKeyMoult {s : State} {p : Pid} (src : Source) (full : Bool) (hst : (s.part p).entry.st = .bound) :
    ((s.startKeyMoult p src full).part p).entry.keyMoult = true := by
  by_cases hkey : (s.part p).entry.keyMoult = true
  · exact (State.moultStarted_startKeyMoult s p p src full).2.2 hkey
  · rw [State.entry_startKeyMoult src full hst (by simpa using hkey)]

/-! ### An interface leaves its tenant session -/

section
variable (s : State) (n : Fn) (x : Tdi)

theorem State.leaveTenant_cases : s.leaveTenant n x = s.setTdi n x none ∨
    ∃ p, s.leaveTenant n x = (s.setTdi n x none).startKeyMoult p .tdisp false := by
  unfold State.leaveTenant
  dsimp only
  split
  · exact .inl rfl
  · split
    · exact .inl rfl
    · exact .inr ⟨_, rfl⟩

variable {s n}

theorem State.leaveTenant_of_tenant {p : Pid} (h : s.sec.tdi[n].tenant) (hp : s.partOfFn n = some p) :
    s.leaveTenant n x = (s.setTdi n x none).startKeyMoult p .tdisp false := by
  have hp' : (s.setTdi n x none).partOfFn n = some p := hp
  unfold State.setTdi at hp'
  simp only [State.leaveTenant, hp', h, decide_true, Bool.not_true, Bool.false_eq_true, if_false]
  rfl

theorem State.leaveTenant_of_not_tenant (h : ¬ s.sec.tdi[n].tenant) : s.leaveTenant n x = s.setTdi n x none := by
  simp only [State.leaveTenant, h, decide_false, Bool.not_false, if_true]
  rfl

variable (s n)

theorem State.leaveTenant_sec : (s.leaveTenant n x).sec =
    { s.sec with tdi := s.sec.tdi.set n x, tdiSess := s.sec.tdiSess.set n none } := by
  obtain h | ⟨p, h⟩ := State.leaveTenant_cases s n x
  · rw [h]
    rfl
  · rw [h, State.startKeyMoult_sec]
    rfl

theorem State.leaveTenant_mem : (s.leaveTenant n x).mem = s.mem := by
  obtain h | ⟨p, h⟩ := State.leaveTenant_cases s n x
  · rw [h]
    rfl
  · rw [h, State.startKeyMoult_mem]
    rfl

theorem State.leaveTenant_tiles : (s.leaveTenant n x).tiles = s.tiles := by
  obtain h | ⟨p, h⟩ := State.leaveTenant_cases s n x
  · rw [h]
    rfl
  · rw [h, State.startKeyMoult_tiles]
    rfl

theorem State.moultStarted_leaveTenant (q : Pid) : MoultStarted (s.part q).entry ((s.leaveTenant n x).part q).entry := by
  obtain h | ⟨p, h⟩ := State.leaveTenant_cases s n x
  · rw [h]
    exact .refl _
  · rw [h]
    exact State.moultStarted_startKeyMoult (s.setTdi n x none) p q .tdisp false

theorem State.tdi_leaveTenant : (s.leaveTenant n x).sec.tdi[n] = x := by
  rw [State.leaveTenant_sec]
  exact Vector.getElem_set_self _

theorem State.tdiSess_leaveTenant : (s.leaveTenant n x).sec.tdiSess[n] = none := by
  rw [State.leaveTenant_sec]
  exact Vector.getElem_set_self _

theorem State.tdi_leaveTenant_ne {m : Fn} (h : m ≠ n) : (s.leaveTenant n x).sec.tdi[m] = s.sec.tdi[m] := by
  rw [State.leaveTenant_sec]
  exact Vector.getElem_set_ne n.isLt m.isLt fun e => h (Fin.ext e.symm)

theorem State.tdiSess_leaveTenant_ne {m : Fn} (h : m ≠ n) : (s.leaveTenant n x).sec.tdiSess[m] = s.sec.tdiSess[m] := by
  rw [State.leaveTenant_sec]
  exact Vector.getElem_set_ne n.isLt m.isLt fun e => h (Fin.ext e.symm)

variable {s n}

/-- The partition of a function whose interface leaves CONFIG_LOCKED or RUN has a key moult. -/
theorem State.keyMoult_leaveTenant {p : Pid} (h : s.sec.tdi[n].tenant) (hp : s.partOfFn n = some p) (hst : (s.part p).entry.st = .bound) :
    ((s.leaveTenant n x).part p).entry.keyMoult = true := by
  rw [State.leaveTenant_of_tenant x h hp]
  exact State.keyMoult_startKeyMoult (s := s.setTdi n x none) .tdisp false hst

end

/-! ### A session is lost -/

/-- What the loss of a session does at one function. -/
def State.loseAt (id : BitVec 32) (s : State) (n : Fn) : State :=
  if s.sec.tdiSess[n] = some id ∧ s.sec.tdi[n].tenant then s.leaveTenant n .error else s

/-- The session's entry is gone. -/
def State.dropSession (s : State) (id : BitVec 32) : State :=
  { s with sec := { s.sec with sessions := s.sec.sessions.filter fun x => !decide (x.id = id) } }

theorem State.loseSession_eq (s : State) (id : BitVec 32) : s.loseSession id = allFns.foldl (State.loseAt id) (s.dropSession id) := rfl

section
variable {id : BitVec 32} {s t : State} {n m : Fn}

theorem State.loseAt_of_held (h : t.sec.tdiSess[n] = some id) (ht : t.sec.tdi[n].tenant) : t.loseAt id n = t.leaveTenant n .error :=
  if_pos ⟨h, ht⟩

theorem State.loseAt_of_free (h : t.sec.tdiSess[n] = none) : t.loseAt id n = t := if_neg fun k => by simp [h] at k

theorem State.loseAt_cases (id : BitVec 32) (t : State) (m : Fn) : t.loseAt id m = t ∨ t.loseAt id m = t.leaveTenant m .error := by
  unfold State.loseAt
  split
  · exact .inr rfl
  · exact .inl rfl

theorem State.loseAt_keeps (id : BitVec 32) (t : State) (m : Fn) : (t.loseAt id m).mem = t.mem ∧ (t.loseAt id m).tiles = t.tiles ∧
    (t.loseAt id m).sec.sessions = t.sec.sessions := by
  obtain h | h := State.loseAt_cases id t m
  · rw [h]
    exact ⟨rfl, rfl, rfl⟩
  · rw [h, State.leaveTenant_sec]
    exact ⟨State.leaveTenant_mem .., State.leaveTenant_tiles .., rfl⟩

/-- Memory, tiles and the other sessions do not see the loss of a session. -/
theorem State.loseSession_keeps (s : State) (id : BitVec 32) : (s.loseSession id).mem = s.mem ∧ (s.loseSession id).tiles = s.tiles ∧
    (s.loseSession id).sec.sessions = s.sec.sessions.filter fun x => !decide (x.id = id) := by
  rw [State.loseSession_eq]
  refine List.foldlRecOn allFns (State.loseAt id) (b := s.dropSession id) (motive := fun t => t.mem = s.mem ∧ t.tiles = s.tiles ∧
    t.sec.sessions = s.sec.sessions.filter fun x => !decide (x.id = id)) ⟨rfl, rfl, rfl⟩ fun t ht m _ => ?_
  obtain ⟨hmem, htiles, hsess⟩ := State.loseAt_keeps id t m
  rw [hmem, htiles, hsess]
  exact ht

/-- The interface of n as s has it, and no partition without more than a key moult. -/
def HeldAt (s : State) (n : Fn) (t : State) : Prop := t.sec.tdi[n] = s.sec.tdi[n] ∧ t.sec.tdiSess[n] = s.sec.tdiSess[n] ∧
  ∀ q, MoultStarted (s.part q).entry (t.part q).entry

/-- The interface of n in ERROR, bound to no session, the partition that n held in s in a key moult. -/
def LostAt (s : State) (n : Fn) (t : State) : Prop := t.sec.tdi[n] = .error ∧ t.sec.tdiSess[n] = none ∧
  ∀ p, s.partOfFn n = some p → (s.part p).entry.st = .bound → (t.part p).entry.keyMoult = true

theorem LostAt.loseAt (id : BitVec 32) (h : LostAt s n t) (m : Fn) : LostAt s n (t.loseAt id m) := by
  by_cases hm : m = n
  · rw [hm, State.loseAt_of_free h.2.1]
    exact h
  · obtain hk | hk := State.loseAt_cases id t m
    · rw [hk]
      exact h
    · obtain ⟨htdi, hsess, hkey⟩ := h
      rw [hk]
      refine ⟨?_, ?_, fun p hp hst => ?_⟩
      · rw [State.tdi_leaveTenant_ne t m .error (Ne.symm hm), htdi]
      · rw [State.tdiSess_leaveTenant_ne t m .error (Ne.symm hm), hsess]
      · obtain ⟨-, -, hmono⟩ := State.moultStarted_leaveTenant t m .error p
        exact hmono (hkey p hp hst)

theorem HeldAt.loseAt (id : BitVec 32) (h : HeldAt s n t) (hm : n ≠ m) : HeldAt s n (t.loseAt id m) := by
  obtain hk | hk := State.loseAt_cases id t m
  · rw [hk]
    exact h
  · obtain ⟨htdi, hsess, hentry⟩ := h
    rw [hk]
    exact ⟨(State.tdi_leaveTenant_ne t m .error hm).trans htdi, (State.tdiSess_leaveTenant_ne t m .error hm).trans hsess,
      fun q => (hentry q).trans (State.moultStarted_leaveTenant t m .error q)⟩

theorem HeldAt.lost (h : HeldAt s n t) (hid : s.sec.tdiSess[n] = some id) (hten : s.sec.tdi[n].tenant) : LostAt s n (t.loseAt id n) := by
  obtain ⟨htdi, hsess, hentry⟩ := h
  rw [← htdi] at hten
  rw [State.loseAt_of_held (hsess.trans hid) hten]
  refine ⟨State.tdi_leaveTenant .., State.tdiSess_leaveTenant .., fun p hp hst => ?_⟩
  rw [← State.partOfFn_congr hentry n] at hp
  rw [← (hentry p).1] at hst
  exact State.keyMoult_leaveTenant .error hten hp hst

theorem lostAt_foldl (hid : s.sec.tdiSess[n] = some id) (hten : s.sec.tdi[n].tenant) : ∀ (ms : List Fn) {t : State}, HeldAt s n t → n ∈ ms →
    LostAt s n (ms.foldl (State.loseAt id) t)
  | [], _, _, hn => absurd hn List.not_mem_nil
  | m :: ms, t, h, hn => by
    rw [List.foldl_cons]
    by_cases hm : n = m
    · subst hm
      exact List.foldlRecOn ms _ (motive := LostAt s n) (h.lost hid hten) fun u hu k _ => hu.loseAt id k
    · exact lostAt_foldl hid hten ms (h.loseAt id hm) ((List.mem_cons.1 hn).resolve_left hm)

/-- Every interface that the lost session locked is in ERROR, its partition in a key moult. -/
theorem lostAt_loseSession (hid : s.sec.tdiSess[n] = some id) (hten : s.sec.tdi[n].tenant) : LostAt s n (s.loseSession id) :=
  lostAt_foldl hid hten allFns (t := s.dropSession id) ⟨rfl, rfl, fun _ => .refl _⟩ (List.mem_finRange n)

end

end Sys2Proof.Machine
end

