-- ==== Sys2Proof/Proofs/SpdmSessions.lean ====
section
/-!
PROOFS. SPDM sessions from the key exchange to their end, and the failure of the random bit generator (15 R340, R344, R352, R356).
-/
namespace Sys2Proof.Machine
open Sys2Proof.Claims

/-! ### Rotations end -/

/-- A rotation that no command waits for and that rotates no link keys. -/
def Rotation.ended (r : Rotation) : Rotation := { r with waiter := none, linkWaiter := none, link := false }

/-- The rotations of these partitions end. -/
def endRotations (rot : Vector Rotation 16) (ps : List Pid) : Vector Rotation 16 := ps.foldl (fun v (p : Pid) => v.set p (v[p]).ended) rot

theorem endRotations_get (ps : List Pid) (q : Pid) (rot : Vector Rotation 16) :
    (endRotations rot ps)[q] = if q ∈ ps then (rot[q]).ended else rot[q] := by
  induction ps generalizing rot with
  | nil => rfl
  | cons p ps ih =>
    have hset : (rot.set p (rot[p]).ended)[q] = if q = p then (rot[q]).ended else rot[q] := by
      split
      · next hq =>
        subst hq
        exact Vector.getElem_set_self _
      · next hq => exact Vector.getElem_set_ne p.isLt q.isLt fun e => hq (Fin.ext e.symm)
    have hfold : endRotations rot (p :: ps) = endRotations (rot.set p (rot[p]).ended) ps := rfl
    rw [hfold, ih, hset]
    by_cases hq : q = p
    · simp [hq, Rotation.ended]
    · simp [hq]

section
variable (s : State) (p : Pid)

/-- The commands that wait for a partition's rotations have failed. -/
def State.failRotation : State := (s.failWaiter (s.sec.rot[p]).waiter).failWaiter (s.sec.rot[p]).linkWaiter

theorem State.hostOnly_failRotation : HostOnly s (s.failRotation p) :=
  (State.hostOnly_failWaiter s _).trans (State.hostOnly_failWaiter _ _)

theorem State.stopRotation_sec : (s.stopRotation p).sec = { s.sec with rot := s.sec.rot.set p (s.sec.rot[p]).ended } := by
  rw [State.stopRotation_eq, State.modPart_sec]
  exact congrArg (fun x : SecSt => { x with rot := x.rot.set p (s.sec.rot[p]).ended }) (State.hostOnly_failRotation s p).sec

theorem State.stopRotation_mem : (s.stopRotation p).mem = s.mem := by
  rw [State.stopRotation_eq, State.modPart_mem]
  exact (State.hostOnly_failRotation s p).mem

theorem State.stopRotation_tiles : (s.stopRotation p).tiles = s.tiles := by
  rw [State.stopRotation_eq, State.modPart_tiles]
  exact (State.hostOnly_failRotation s p).tiles

end

theorem State.stopRotations_sec (ps : List Pid) (s : State) :
    (ps.foldl State.stopRotation s).sec = { s.sec with rot := endRotations s.sec.rot ps } := by
  induction ps generalizing s with
  | nil => rfl
  | cons p ps ih =>
    rw [List.foldl_cons, ih, State.stopRotation_sec]
    rfl

theorem State.stopRotations_keep (ps : List Pid) (s : State) :
    (ps.foldl State.stopRotation s).mem = s.mem ∧ (ps.foldl State.stopRotation s).tiles = s.tiles := by
  refine List.foldlRecOn ps State.stopRotation (b := s) (motive := fun t => t.mem = s.mem ∧ t.tiles = s.tiles) ⟨rfl, rfl⟩ fun t ht p _ => ?_
  rw [State.stopRotation_mem, State.stopRotation_tiles]
  exact ht

/-- The partitions with a rotation that goes on. -/
def State.rotating (s : State) : List Pid := allParts.filter fun p => (s.sec.rot[p]).active || (s.sec.rot[p]).link

/-- No key can be drawn any more. -/
def State.withoutDrbg (s : State) : State := { s with sec := { s.sec with drbgDown := true } }

theorem exec_drbgHealthFailure {s : State} (hup : s.up = true) (hd : s.sec.drbgDown = false) :
    exec .drbgHealthFailure s = .next (s.rotating.foldl State.stopRotation s.withoutDrbg) := by
  rw [exec, execDrbgHealthFailure, if_neg (by simp [hup, hd])]
  rfl

theorem exec_sweepPage_withoutDrbg {u : State} (hd : u.sec.drbgDown = true) (p : Pid) (now : Nat) :
    exec (.sweepPage p now) u = .fault (.notDue "SWEEP_PAGE") := by
  have hdown : (!((u.at_ now).sec.rot[p]).active || (u.at_ now).sec.drbgDown) = true := by
    rw [State.at_sec, hd, Bool.or_true]
  exact if_pos hdown

/-- After the failure of the random bit generator each rotation that went on has ended. -/
theorem rotations_drbgHealthFailure (s : State) (p : Pid) :
    let u := s.rotating.foldl State.stopRotation s.withoutDrbg
    (u.sec.rot[p]).active = (s.sec.rot[p]).active ∧ ((s.sec.rot[p]).active = true ∨ (s.sec.rot[p]).link = true →
      (u.sec.rot[p]).waiter = none ∧ (u.sec.rot[p]).linkWaiter = none ∧ (u.sec.rot[p]).link = false) := by
  intro u
  have hrot : u.sec.rot[p] = if p ∈ s.rotating then (s.sec.rot[p]).ended else s.sec.rot[p] := by
    rw [State.stopRotations_sec]
    exact endRotations_get _ p s.sec.rot
  rw [hrot]
  refine ⟨?_, fun hon => ?_⟩
  · split <;> rfl
  · have hmem : p ∈ s.rotating := List.mem_filter.2 ⟨List.mem_finRange p, by simpa using hon⟩
    rw [if_pos hmem]
    exact ⟨rfl, rfl, rfl⟩

/-! ### A session number not in use -/

/-- The n-th candidate for a session number: the requester's half below, n above. -/
def sessionCandidate (req : BitVec 16) (n : Nat) : BitVec 32 := BitVec.ofNat 32 (req.toNat + 2 ^ 16 * n)

theorem sessionCandidate_toNat (req : BitVec 16) {n : Nat} (h : n < 18) : (sessionCandidate req n).toNat = req.toNat + 2 ^ 16 * n := by
  have := req.isLt
  rw [sessionCandidate, BitVec.toNat_ofNat, Nat.mod_eq_of_lt (by omega)]

theorem State.session_eq_none {s : State} {id : BitVec 32} (h : id ∉ s.sec.sessions.map (·.id)) : s.session id = none := by
  rw [State.session, List.find?_eq_none]
  intro x hx
  simpa using fun e : x.id = id => h (e ▸ List.mem_map_of_mem hx)

theorem State.mem_ids_of_session {s : State} {id : BitVec 32} (h : s.session id ≠ none) : id ∈ s.sec.sessions.map (·.id) := by
  by_contra hn
  exact h (State.session_eq_none hn)

/-- Of 18 candidates one is free while at most 17 sessions stand. -/
theorem State.exists_free_candidate {s : State} (req : BitVec 16) (h : s.sec.sessions.length < 17) :
    ∃ n ∈ List.range 18, s.session (sessionCandidate req n) = none := by
  by_contra hall
  push Not at hall
  have hnodup : ((List.range 18).map (sessionCandidate req)).Nodup := by
    refine List.Nodup.map_on (fun a ha b hb hab => ?_) List.nodup_range
    have := congrArg BitVec.toNat hab
    rw [sessionCandidate_toNat req (List.mem_range.1 ha), sessionCandidate_toNat req (List.mem_range.1 hb)] at this
    omega
  have hsub : (List.range 18).map (sessionCandidate req) ⊆ s.sec.sessions.map (·.id) := fun id hid => by
    obtain ⟨n, hn, rfl⟩ := List.mem_map.1 hid
    exact State.mem_ids_of_session (hall n hn)
  have hle := (List.subperm_of_subset hnodup hsub).length_le
  simp only [List.length_map, List.length_range] at hle
  omega

theorem State.session_freshSession {s : State} (req : BitVec 16) (h : s.sec.sessions.length < 17) :
    s.session (s.freshSession req) = none ∧ (s.freshSession req).toNat % 65536 = req.toNat := by
  obtain ⟨n, hn, hfree⟩ := State.exists_free_candidate req h
  obtain ⟨k, hk⟩ := Option.isSome_iff_exists.1 ((List.find?_isSome (p := fun n => (s.session (sessionCandidate req n)).isNone)).2
    ⟨n, hn, by rw [hfree]; rfl⟩)
  have hid : s.freshSession req = sessionCandidate req k := congrArg (fun o : Option Nat => sessionCandidate req (o.getD 0)) hk
  have hlt := List.mem_range.1 (List.mem_of_find?_eq_some hk)
  have hnone := List.find?_some (p := fun n => (s.session (sessionCandidate req n)).isNone) hk
  have hreq := req.isLt
  rw [hid, sessionCandidate_toNat req hlt]
  exact ⟨Option.isNone_iff_eq_none.1 hnone, by omega⟩

/-! ### Requests within a session -/

section
variable {s : State} {id : BitVec 32} {x : Session} (f : State → Session → State)

theorem State.inSession_none (h : s.session id = none) : s.inSession id f = s := by simp [State.inSession, h]

theorem State.inSession_heard (h : s.session id = some x) (hv : Hears s x.via) : s.inSession id f = f s x := by
  simp only [State.inSession, h]
  exact State.answerSpdm_heard _ hv

theorem State.inUp_none (h : s.session id = none) : s.inUp id f = s := State.inSession_none _ h

theorem State.inUp_early (h : s.session id = some x) (hup : x.up = false) (hv : Hears s x.via) :
    s.inUp id f = s.say x.via [0x7F, 0x04] :=
  (State.inSession_heard _ h hv).trans (if_neg (by simp [hup]))

theorem State.inUp_up (h : UpSession s id x) : s.inUp id f = f s x := by
  obtain ⟨hs, hup, hv⟩ := h
  exact (State.inSession_heard _ hs hv).trans (if_pos hup)

end

/-- The time of a request does not decide whether it is heard. -/
theorem hears_at {s : State} {via : Source} (h : Hears s via) (now : Nat) : Hears (s.at_ now) via := h

theorem upSession_at {s : State} {id : BitVec 32} {x : Session} (h : UpSession s id x) (now : Nat) : UpSession (s.at_ now) id x := h

/-- A session of a number not in use, with a key of its own. -/
def State.openSession (s : State) (via : Source) (req : BitVec 16) : State :=
  let id := s.freshSession req
  let t := s.newKey
  let x : Session := { id := id, via := via, up := false, period := t.sec.period, last := t.now, keyGen := t.sec.keyGen }
  State.sayAttested { t with sec := { t.sec with sessions := t.sec.sessions ++ [x] } } via ([0x64] ++ leBytes 4 id.toNat) []

theorem State.openSession_frame (s : State) (via : Source) (req : BitVec 16) : s.openSession via req = { s with
    sec := (s.openSession via req).sec, outputs := (s.openSession via req).outputs, freeCtr := (s.openSession via req).freeCtr } := rfl

theorem State.openSession_sec (s : State) (via : Source) (req : BitVec 16) : (s.openSession via req).sec =
    { s.sec with keyGen := s.sec.keyGen + 1, sessions := s.sec.sessions ++
      [{ id := s.freshSession req, via := via, up := false, period := s.sec.period, last := s.now, keyGen := s.sec.keyGen + 1 }] } := rfl

theorem exec_keyExchange_heard {s : State} {via : Source} (req : SpdmKeyReq) (now : Nat) (h : Hears s via) (ha : s.sec.algs = true) :
    exec (.keyExchange via req now) s = .next (if req.slot ≠ 0 then (s.at_ now).say via errInvalid
      else if s.sec.drbgDown then (s.at_ now).say via (errCode eKey)
      else if 17 ≤ s.sec.sessions.length then (s.at_ now).say via errSessions
      else (s.at_ now).openSession via req.session) := by
  have heard := State.answerAfter_heard (s := s.at_ now) (fun t => if req.slot ≠ 0 then t.say via errInvalid
    else if t.sec.drbgDown then t.say via (errCode eKey)
    else if maxSessions ≤ t.sec.sessions.length then t.say via errSessions
    else t.openSession via req.session) (hears_at h now) ha
  exact congrArg Host.Outcome.next heard

theorem exec_heartbeatTimeout_none {s : State} {id : BitVec 32} (h : s.session id = none) (now : Nat) :
    exec (.heartbeatTimeout id now) s = .fault (.notDue "HEARTBEAT_TIMEOUT") := by
  have h' : (s.at_ now).session id = none := h
  simp only [exec, execHeartbeatTimeout, h']
  rfl

theorem exec_heartbeatTimeout {s : State} {id : BitVec 32} {x : Session} (h : s.session id = some x) (now : Nat) :
    exec (.heartbeatTimeout id now) s =
      whenDue (x.up && decide (x.last + x.period * 1000000000 ≤ (s.at_ now).now)) "HEARTBEAT_TIMEOUT" ((s.at_ now).loseSession id) := by
  have h' : (s.at_ now).session id = some x := h
  simp only [exec, execHeartbeatTimeout, h']

/-- Silence for a period is the end of a session that is up. -/
theorem exec_heartbeatTimeout_due {s : State} {id : BitVec 32} {x : Session} (h : UpSession s id x) {now : Nat}
    (hdue : x.last + x.period * 1000000000 ≤ (s.at_ now).now) : exec (.heartbeatTimeout id now) s = .next ((s.at_ now).loseSession id) := by
  obtain ⟨hs, hup, -⟩ := h
  rw [exec_heartbeatTimeout hs now, hup, Bool.true_and, decide_eq_true hdue]
  rfl

theorem exec_heartbeatTimeout_early {s : State} {id : BitVec 32} {x : Session} (h : UpSession s id x) {now : Nat}
    (hnot : (s.at_ now).now < x.last + x.period * 1000000000) :
    exec (.heartbeatTimeout id now) s = .fault (.notDue "HEARTBEAT_TIMEOUT") := by
  obtain ⟨hs, hup, -⟩ := h
  rw [exec_heartbeatTimeout hs now, hup, Bool.true_and, decide_eq_false (Nat.not_le.2 hnot)]
  rfl

/-- The session is gone, and so are the tenant sessions of the interfaces that it locked. -/
def SessionGone (s : State) (id : BitVec 32) (u : State) : Prop :=
  u.sec.sessions = s.sec.sessions.filter (fun y => decide (y.id ≠ id)) ∧
    ∀ n : Fn, s.sec.tdiSess[n] = some id → s.sec.tdi[n] = .locked ∨ s.sec.tdi[n] = .run → LostAt s n u

theorem sessionGone_loseSession (s : State) (id : BitVec 32) : SessionGone s id (s.loseSession id) := by
  obtain ⟨-, -, hsess⟩ := State.loseSession_keeps s id
  refine ⟨hsess.trans (List.filter_congr fun y _ => decide_not.symm), fun n hid hten => lostAt_loseSession hid hten⟩

theorem SessionGone.say {s u : State} {id : BitVec 32} (h : SessionGone s id u) (via : Source) (body : List Byte) :
    SessionGone s id (u.say via body) := h

/-- FINISH with a wrong MAC ends the session. -/
theorem exec_finish_fails {s : State} {id : BitVec 32} {x : Session} (hx : s.session id = some x) (hup : x.up = false)
    (hv : Hears s x.via) (period : Byte) (now : Nat) :
    exec (.finish id false period now) s = .next (((s.at_ now).loseSession id).say x.via errDecrypt) := by
  refine (congrArg Host.Outcome.next (State.inSession_heard (s := s.at_ now) _ hx hv)).trans ?_
  rw [if_neg (by simp [hup]), if_pos (by decide)]

theorem exec_finish_succeeds {s : State} {id : BitVec 32} {x : Session} (hx : s.session id = some x) (hup : x.up = false)
    (hv : Hears s x.via) (period : Byte) (now : Nat) : exec (.finish id true period now) s = .next { s.at_ now with
      sec := { s.sec with sessions := s.sec.sessions.map fun y => if y.id = id then
        { y with up := true, period := if period = 0 then s.sec.period else period.toNat, last := (s.at_ now).now } else y }
      outputs := .spdm x.via [0x65] :: s.outputs } := by
  refine (congrArg Host.Outcome.next (State.inSession_heard (s := s.at_ now) _ hx hv)).trans ?_
  rw [if_neg (by simp [hup]), if_neg (by decide)]
  rfl

section
variable {s : State} {id : BitVec 32} {x : Session} (h : UpSession s id x)
include h

theorem exec_finish_up (mac : Bool) (period : Byte) (now : Nat) :
    exec (.finish id mac period now) s = said (s.at_ now) x.via [0x7F, 0x04] := by
  obtain ⟨hs, hup, hv⟩ := h
  refine (congrArg Host.Outcome.next (State.inSession_heard (s := s.at_ now) _ hs hv)).trans ?_
  rw [if_pos hup]
  rfl

theorem exec_heartbeat_up (now : Nat) : exec (.heartbeat id now) s = .next { s.at_ now with
    sec := { s.sec with sessions := s.sec.sessions.map fun y => if y.id = id then { y with last := (s.at_ now).now } else y }
    outputs := .spdm x.via [0x68] :: s.outputs } :=
  congrArg Host.Outcome.next (State.inUp_up _ (upSession_at h now))

theorem exec_keyUpdate_up (hd : s.sec.drbgDown = false) : exec (.keyUpdate id) s = .next { s with
    sec := { s.sec with keyGen := s.sec.keyGen + 1, sessions := s.sec.sessions.map fun y => if y.id = id then
      { y with keyGen := s.sec.keyGen + 1 } else y }
    outputs := .spdm x.via [0x69] :: s.outputs } := by
  refine (congrArg Host.Outcome.next (State.inUp_up _ h)).trans ?_
  rw [if_neg (by simp [hd])]
  rfl

theorem exec_keyUpdate_withoutDrbg (hd : s.sec.drbgDown = true) : exec (.keyUpdate id) s = said s x.via [0x7F, 0x05, 0x03, 0x04] := by
  refine (congrArg Host.Outcome.next (State.inUp_up _ h)).trans ?_
  rw [if_pos hd]
  rfl

theorem exec_endSession_up : exec (.endSession id) s = .next ((s.say x.via [0x6C]).loseSession id) :=
  congrArg Host.Outcome.next (State.inUp_up _ h)

end

/-- What the session was is not told by what is said. -/
theorem SessionGone.of_say {s u : State} {id : BitVec 32} {via : Source} {body : List Byte} (h : SessionGone (s.say via body) id u) :
    SessionGone s id u := h

theorem SessionGone.of_at {s u : State} {id : BitVec 32} {now : Nat} (h : SessionGone (s.at_ now) id u) : SessionGone s id u := h

section
variable {s : State} {id : BitVec 32} (h : s.session id = none)
include h

theorem exec_finish_none (mac : Bool) (period : Byte) (now : Nat) : exec (.finish id mac period now) s = .next (s.at_ now) :=
  congrArg Host.Outcome.next (State.inSession_none (s := s.at_ now) _ h)

theorem exec_endSession_none : exec (.endSession id) s = .next s := congrArg Host.Outcome.next (State.inUp_none _ h)

theorem exec_keyUpdate_none : exec (.keyUpdate id) s = .next s := congrArg Host.Outcome.next (State.inUp_none _ h)

theorem exec_heartbeat_none (now : Nat) : exec (.heartbeat id now) s = .next (s.at_ now) :=
  congrArg Host.Outcome.next (State.inUp_none (s := s.at_ now) _ h)

end

section
variable {s : State} {id : BitVec 32} {x : Session} (h : s.session id = some x) (hup : x.up = false) (hv : Hears s x.via)
include h hup hv

theorem exec_endSession_early : exec (.endSession id) s = said s x.via [0x7F, 0x04] :=
  congrArg Host.Outcome.next (State.inUp_early _ h hup hv)

theorem exec_keyUpdate_early : exec (.keyUpdate id) s = said s x.via [0x7F, 0x04] :=
  congrArg Host.Outcome.next (State.inUp_early _ h hup hv)

theorem exec_heartbeat_early (now : Nat) : exec (.heartbeat id now) s = said (s.at_ now) x.via [0x7F, 0x04] :=
  congrArg Host.Outcome.next (State.inUp_early (s := s.at_ now) _ h hup hv)

end

theorem exec_spdmSessionLoss (s : State) (id : BitVec 32) (now : Nat) :
    exec (.spdmSessionLoss id now) s = .next ((s.at_ now).loseSession id) := rfl

/-- The failure of the random bit generator: no key is drawn any more and no rotation goes on. -/
theorem drbgHealthFailure_spec (s : State) :
    (s.up = false ∨ s.sec.drbgDown = true → exec .drbgHealthFailure s = .next s) ∧
    (s.up = true → s.sec.drbgDown = false → ∃ u : State, exec .drbgHealthFailure s = .next u ∧ u.sec.drbgDown = true ∧ u.mem = s.mem ∧
      u.tiles = s.tiles ∧ u.sec.silo = s.sec.silo ∧ u.sec.keyGen = s.sec.keyGen ∧
      (∀ p : Pid, (u.sec.rot[p]).active = (s.sec.rot[p]).active ∧ ((s.sec.rot[p]).active = true ∨ (s.sec.rot[p]).link = true →
        (u.sec.rot[p]).waiter = none ∧ (u.sec.rot[p]).linkWaiter = none ∧ (u.sec.rot[p]).link = false)) ∧
      ∀ (p : Pid) (now : Nat), exec (.sweepPage p now) u = .fault (.notDue "SWEEP_PAGE")) := by
  refine ⟨fun hoff => congrArg Host.Outcome.next (if_pos (by simpa using hoff)), fun hup hd => ?_⟩
  have hsec : (s.rotating.foldl State.stopRotation s.withoutDrbg).sec =
      { s.sec with drbgDown := true, rot := endRotations s.sec.rot s.rotating } := State.stopRotations_sec ..
  obtain ⟨hmem, htiles⟩ := State.stopRotations_keep s.rotating s.withoutDrbg
  exact ⟨_, exec_drbgHealthFailure hup hd, by rw [hsec], hmem, htiles, by rw [hsec], by rw [hsec], rotations_drbgHealthFailure s,
    exec_sweepPage_withoutDrbg (by rw [hsec])⟩

/-- Settles O50: the failure of the generator ends each rotation that goes on; a session is opened, brought up, kept and lost by its
messages. -/
theorem spdmSessions : Obligations.SpdmSessions := by
  refine ⟨drbgHealthFailure_spec, ?_⟩
  intro s via req id x period now v others gone
  have hgone (u : State) (h : SessionGone s id u) : gone u := h
  have hlost : SessionGone s id (v.loseSession id) := (sessionGone_loseSession v id).of_at
  refine ⟨fun h ha => ⟨fun hslot => ?_, fun hslot hd => ?_, fun hslot hd hfull => ?_, fun hslot hd hroom => ?_⟩,
    fun hnone => ⟨exec_finish_none hnone true period now, exec_endSession_none hnone, exec_keyUpdate_none hnone,
      exec_finish_none hnone false period now, exec_heartbeat_none hnone now, exec_heartbeatTimeout_none hnone now⟩,
    fun hx hup hv => ⟨exec_endSession_early hx hup hv, exec_keyUpdate_early hx hup hv, exec_heartbeat_early hx hup hv now, ?_,
      exec_finish_succeeds hx hup hv period now, _, exec_finish_fails hx hup hv period now, hgone _ (hlost.say x.via errDecrypt)⟩,
    fun hx => ⟨exec_heartbeat_up hx now, exec_keyUpdate_up hx, exec_keyUpdate_withoutDrbg hx, fun mac => exec_finish_up hx mac period now,
      ⟨_, exec_endSession_up hx, hgone _ (sessionGone_loseSession _ id).of_say⟩,
      fun hdue => ⟨_, exec_heartbeatTimeout_due hx hdue, hgone _ hlost⟩, fun hnot => exec_heartbeatTimeout_early hx hnot⟩,
    _, exec_spdmSessionLoss s id now, hgone _ hlost, (State.loseSession_keeps v id).1, (State.loseSession_keeps v id).2.1⟩
  · rw [exec_keyExchange_heard req now h ha, if_pos hslot]
    rfl
  · rw [exec_keyExchange_heard req now h ha, if_neg (not_not.2 hslot), if_pos hd]
    rfl
  · rw [exec_keyExchange_heard req now h ha, if_neg (not_not.2 hslot), if_neg (by simp [hd]), if_pos hfull]
    rfl
  · obtain ⟨hfree, hhalf⟩ := State.session_freshSession (s := v) req.session hroom
    refine ⟨v.openSession via req.session, v.freshSession req.session, ?_, State.openSession_frame .., hfree, hhalf, State.openSession_sec ..⟩
    rw [exec_keyExchange_heard req now h ha, if_neg (not_not.2 hslot), if_neg (by simp [hd]), if_neg (by omega)]
  · rw [exec_heartbeatTimeout hx now, hup]
    rfl

end Sys2Proof.Machine
end

