-- ==== Sys2Proof/Proofs/InterfacesAndStreams.lean ====
section
/-!
PROOFS. TDISP messages, interface states and IDE key sets (15 R351, R352).
-/
namespace Sys2Proof.Machine
open Sys2Proof.Claims

/-! ### Which messages are taken -/

section
variable {s : State} {id : BitVec 32} {x : Session} (f : State → State) (h : UpSession s id x)
include h

theorem State.tdisp_elsewhere (hv : x.via ≠ .pf0) : s.tdisp id f = s.say x.via [0x7F, 0x07] :=
  (State.inUp_up _ h).trans (if_neg hv)

theorem State.tdisp_pf0 (hv : x.via = .pf0) : s.tdisp id f = f s := (State.inUp_up _ h).trans (if_pos hv)

end

theorem exec_eq_tdisp (s : State) (id : BitVec 32) (vf : Fn) (k : Fin 18) (b : Bool) :
    ∀ r ∈ ([.getTdispVersion id, .getTdispCapabilities id, .lockInterfaceRequest id vf, .getDeviceInterfaceReport id vf,
      .getDeviceInterfaceState id vf, .startInterfaceRequest id vf, .ideKmQuery id, .ideKmKeyProgram id k b, .ideKmKeySetGo id k b,
      .ideKmKeySetStop id k b] : List Instr), ∃ f, exec r s = .next (s.tdisp id f) := by
  simp only [List.mem_cons, List.not_mem_nil, or_false, forall_eq_or_imp, forall_eq]
  exact ⟨⟨_, rfl⟩, ⟨_, rfl⟩, ⟨_, rfl⟩, ⟨_, rfl⟩, ⟨_, rfl⟩, ⟨_, rfl⟩, ⟨_, rfl⟩, ⟨_, rfl⟩, ⟨_, rfl⟩, ⟨_, rfl⟩⟩

/-! ### Conditions -/

theorem isTdi_iff (vf : Fn) : isTdi vf = true ↔ vf ≠ 0 := by
  simp only [isTdi, decide_eq_true_eq, ne_eq, Fin.ext_iff]
  rfl

theorem State.lockedBy_iff (s : State) (id : BitVec 32) (vf : Fn) :
    s.lockedBy id vf = true ↔ s.sec.tdiSess[vf] = some id ∧ s.sec.tdi[vf].tenant := by
  simp [State.lockedBy]

/-- What STOP_INTERFACE_REQUEST asks for: the interface is locked by the session, or in ERROR. -/
theorem stoppable_iff (s : State) (id : BitVec 32) (vf : Fn) :
    (s.lockedBy id vf || (isTdi vf && decide (s.sec.tdi[vf] = .error))) = true ↔
      (s.sec.tdiSess[vf] = some id ∧ s.sec.tdi[vf].tenant) ∨ (vf ≠ 0 ∧ s.sec.tdi[vf] = .error) := by
  rw [Bool.or_eq_true, Bool.and_eq_true, State.lockedBy_iff, isTdi_iff, decide_eq_true_eq]

/-! ### The report -/

theorem State.tdiReport_length (s : State) (vf : Fn) (p : Pid) : (s.tdiReport vf p).length = 61 := by simp [State.tdiReport]

/-- After the four ranges stand the partition and its epoch. -/
theorem State.tdiReport_owner (s : State) (vf : Fn) (p : Pid) :
    ((s.tdiReport vf p).drop 32).take 5 = BitVec.ofNat 8 p.val :: leBytes 4 (s.part p).entry.epoch.toNat := rfl

/-! ### Answers on PF0's mailbox -/

/-- The answer of TDISP_ERROR. -/
abbrev tdispRefused (s : State) : Host.Outcome State Fault Refusal := said s .pf0 [0x7E, 0x7F]

/-- The interface's new state and session, with the answer. -/
abbrev saidTdi (s : State) (vf : Fn) (y : Tdi) (w : Option (BitVec 32)) (body : List Byte) : Host.Outcome State Fault Refusal :=
  .next { s with sec := { s.sec with tdi := s.sec.tdi.set vf y, tdiSess := s.sec.tdiSess.set vf w }, outputs := .spdm .pf0 body :: s.outputs }

/-- The stream's new key sets, with the answer. -/
abbrev saidKeys (s : State) (k : Fin 18) (y : Ide) (body : List Byte) : Host.Outcome State Fault Refusal :=
  .next { s with sec := { s.sec with ide := s.sec.ide.set k y }, outputs := .spdm .pf0 body :: s.outputs }

section
variable {s : State} {id : BitVec 32} {x : Session} (h : UpSession s id x) (hv : x.via = .pf0)
include h hv

theorem exec_getTdispVersion_pf0 : exec (.getTdispVersion id) s = said s .pf0 [0x7E, 0x01, 0x10] :=
  congrArg Host.Outcome.next (State.tdisp_pf0 _ h hv)

theorem exec_getTdispCapabilities_pf0 : exec (.getTdispCapabilities id) s = said s .pf0 [0x7E, 0x02] :=
  congrArg Host.Outcome.next (State.tdisp_pf0 _ h hv)

theorem exec_lockInterfaceRequest_pf0 (vf : Fn) : exec (.lockInterfaceRequest id vf) s =
    if vf ≠ 0 ∧ s.fnState vf = .bound ∧ s.sec.tdi[vf] = .unlocked then saidTdi s vf .locked (some id) [0x7E, 0x03] else tdispRefused s := by
  refine (congrArg Host.Outcome.next (State.tdisp_pf0 _ h hv)).trans ?_
  simp only [Bool.and_eq_true, decide_eq_true_eq, isTdi_iff, and_assoc]
  split <;> rfl

theorem exec_startInterfaceRequest_pf0 (vf : Fn) : exec (.startInterfaceRequest id vf) s =
    if s.sec.tdiSess[vf] = some id ∧ s.sec.tdi[vf] = .locked then saidTdi s vf .run (some id) [0x7E, 0x06] else tdispRefused s := by
  refine (congrArg Host.Outcome.next (State.tdisp_pf0 _ h hv)).trans ?_
  simp only [Bool.and_eq_true, decide_eq_true_eq]
  split <;> rfl

theorem exec_getDeviceInterfaceState_pf0 (vf : Fn) : exec (.getDeviceInterfaceState id vf) s =
    if vf = 0 then tdispRefused s else said s .pf0 [0x7E, 0x05, tdiCode s.sec.tdi[vf]] := by
  refine (congrArg Host.Outcome.next (State.tdisp_pf0 _ h hv)).trans ?_
  by_cases h0 : vf = 0
  · rw [if_pos h0, if_neg (by simp [isTdi_iff, h0])]
    rfl
  · rw [if_neg h0, if_pos ((isTdi_iff vf).2 h0)]
    rfl

theorem exec_getDeviceInterfaceReport_locked {vf : Fn} {p : Pid} (hp : s.partOfFn vf = some p) (hid : s.sec.tdiSess[vf] = some id)
    (hten : s.sec.tdi[vf].tenant) : exec (.getDeviceInterfaceReport id vf) s = said s .pf0 ([0x7E, 0x04] ++ s.tdiReport vf p) := by
  refine (congrArg Host.Outcome.next (State.tdisp_pf0 _ h hv)).trans ?_
  simp only [hp, (State.lockedBy_iff s id vf).2 ⟨hid, hten⟩, if_true]
  rfl

theorem exec_getDeviceInterfaceReport_refused {vf : Fn} (hno : s.partOfFn vf = none ∨ ¬ s.lockedBy id vf = true) :
    exec (.getDeviceInterfaceReport id vf) s = tdispRefused s := by
  refine (congrArg Host.Outcome.next (State.tdisp_pf0 _ h hv)).trans ?_
  cases hp : s.partOfFn vf with
  | none => rfl
  | some p =>
    have hfree : ¬ s.lockedBy id vf = true := hno.resolve_left (by simp [hp])
    simp only [hfree]
    rfl

theorem exec_ideKmQuery_pf0 : exec (.ideKmQuery id) s = said s .pf0 [0x7E, 0x01] :=
  congrArg Host.Outcome.next (State.tdisp_pf0 _ h hv)

theorem exec_ideKmKeyProgram_pf0 (k : Fin 18) (b : Bool) : exec (.ideKmKeyProgram id k b) s =
    if s.sec.ide[k].active = some b then said s .pf0 [0x7F, 0x01] else saidKeys s k { s.sec.ide[k] with
      prog := if b then (s.sec.ide[k].prog.1, true) else (true, s.sec.ide[k].prog.2) } [0x7E, 0x03] := by
  refine (congrArg Host.Outcome.next (State.tdisp_pf0 _ h hv)).trans ?_
  split <;> rfl

theorem exec_ideKmKeySetGo_pf0 (k : Fin 18) (b : Bool) : exec (.ideKmKeySetGo id k b) s =
    if s.sec.ide[k].has b then saidKeys s k { s.sec.ide[k] with active := some b } [0x7E, 0x05]
    else said s .pf0 [0x7F, 0x01] := by
  refine (congrArg Host.Outcome.next (State.tdisp_pf0 _ h hv)).trans ?_
  split <;> rfl

theorem exec_ideKmKeySetStop_pf0 (k : Fin 18) (b : Bool) : exec (.ideKmKeySetStop id k b) s = saidKeys s k { s.sec.ide[k] with
    prog := if b then (s.sec.ide[k].prog.1, false) else (false, s.sec.ide[k].prog.2)
    active := if s.sec.ide[k].active = some b then none else s.sec.ide[k].active } [0x7E, 0x05] :=
  congrArg Host.Outcome.next (State.tdisp_pf0 _ h hv)

/-! ### The interface is stopped -/

theorem exec_stopInterfaceRequest_stops {vf : Fn} (now : Nat)
    (hc : (s.sec.tdiSess[vf] = some id ∧ s.sec.tdi[vf].tenant) ∨ (vf ≠ 0 ∧ s.sec.tdi[vf] = .error)) :
    exec (.stopInterfaceRequest id vf now) s = .next (((s.at_ now).leaveTenant vf .unlocked).say .pf0 [0x7E, 0x07]) := by
  refine (congrArg Host.Outcome.next (State.tdisp_pf0 _ (upSession_at h now) hv)).trans ?_
  rw [if_pos ((stoppable_iff (s.at_ now) id vf).2 hc)]
  rfl

theorem exec_stopInterfaceRequest_refused {vf : Fn} (now : Nat)
    (hc : ¬ ((s.sec.tdiSess[vf] = some id ∧ s.sec.tdi[vf].tenant) ∨ (vf ≠ 0 ∧ s.sec.tdi[vf] = .error))) :
    exec (.stopInterfaceRequest id vf now) s = tdispRefused (s.at_ now) := by
  refine (congrArg Host.Outcome.next (State.tdisp_pf0 _ (upSession_at h now) hv)).trans ?_
  rw [if_neg (mt (stoppable_iff (s.at_ now) id vf).1 hc)]
  rfl

end

/-! ### The locked configuration is written -/

theorem exec_lockedConfigWrite (s : State) (vf : Fn) (now : Nat) : exec (.lockedConfigWrite vf now) s =
    .next (if (s.at_ now).fnUp vf && decide (s.at_ now).sec.tdi[vf].tenant then (s.at_ now).leaveTenant vf .error else s.at_ now) := rfl

theorem exec_lockedConfigWrite_locked {s : State} {vf : Fn} (now : Nat) (hup : s.fnUp vf = true) (hten : s.sec.tdi[vf].tenant) :
    exec (.lockedConfigWrite vf now) s = .next ((s.at_ now).leaveTenant vf .error) := by
  rw [exec_lockedConfigWrite, if_pos]
  rw [Bool.and_eq_true, decide_eq_true_eq]
  exact ⟨hup, hten⟩

theorem exec_lockedConfigWrite_idle {s : State} {vf : Fn} (now : Nat) (h : s.fnUp vf = false ∨ ¬ s.sec.tdi[vf].tenant) :
    exec (.lockedConfigWrite vf now) s = .next (s.at_ now) := by
  rw [exec_lockedConfigWrite, if_neg]
  rw [Bool.and_eq_true, decide_eq_true_eq]
  rintro ⟨hup, hten⟩
  exact h.elim (fun hdown => Bool.noConfusion (hdown.symm.trans hup)) fun hfree => hfree hten

/-! ### What an answer leaves alone -/

section
variable (s : State) (via : Source) (body : List Byte)

theorem State.say_mem : (s.say via body).mem = s.mem := rfl

theorem State.say_tiles : (s.say via body).tiles = s.tiles := rfl

theorem State.say_parts : (s.say via body).parts = s.parts := rfl

theorem State.part_say (p : Pid) : (s.say via body).part p = s.part p := rfl

end

/-- An interface in ERROR leaves no tenant session: no partition changes. -/
theorem State.leaveTenant_parts_of_error {s : State} {vf : Fn} (y : Tdi) (h : s.sec.tdi[vf] = .error) :
    (s.leaveTenant vf y).parts = s.parts := by
  rw [State.leaveTenant_of_not_tenant y (by simp [Tdi.tenant, h])]
  rfl

/-- As keyMoult_leaveTenant, at the time of the message. -/
theorem State.keyMoult_leaveTenant_at {s : State} {vf : Fn} {p : Pid} (y : Tdi) (now : Nat) (hten : s.sec.tdi[vf].tenant)
    (hp : s.partOfFn vf = some p) (hst : (s.part p).entry.st = .bound) :
    (((s.at_ now).leaveTenant vf y).part p).entry.keyMoult = true :=
  State.keyMoult_leaveTenant (s := s.at_ now) y hten hp hst

/-- Settles O51: the session and PF0's mailbox decide which messages are taken, the interface's state and the key set's what they do. -/
theorem interfacesAndStreams : Obligations.InterfacesAndStreams := by
  intro s id x vf k b now h v requests refused tdi locked ide keys
  refine ⟨fun hv => ⟨fun r hr => ?_, ?_⟩, fun hv => ⟨exec_getTdispVersion_pf0 h hv, exec_getTdispCapabilities_pf0 h hv,
    exec_lockInterfaceRequest_pf0 h hv vf, exec_startInterfaceRequest_pf0 h hv vf, exec_getDeviceInterfaceState_pf0 h hv vf,
    fun p hp hid hten => ⟨_, exec_getDeviceInterfaceReport_locked h hv hp hid hten, s.tdiReport_length vf p, s.tdiReport_owner vf p⟩,
    fun hno => exec_getDeviceInterfaceReport_refused h hv ?_, fun hfree herr => exec_stopInterfaceRequest_refused h hv now ?_,
    fun hid hten => ⟨_, exec_stopInterfaceRequest_stops h hv now (.inl ⟨hid, hten⟩), ?_, ?_, ?_, ?_, ?_⟩,
    fun h0 herr => ⟨_, exec_stopInterfaceRequest_stops h hv now (.inr ⟨h0, herr⟩), ?_, ?_⟩,
    exec_ideKmQuery_pf0 h hv, fun hother => ?_, fun hsame => ?_, exec_ideKmKeySetGo_pf0 h hv k b, exec_ideKmKeySetStop_pf0 h hv k b⟩,
    fun hup hten => ⟨_, exec_lockedConfigWrite_locked now hup hten, State.tdi_leaveTenant .., State.leaveTenant_tiles ..,
      State.leaveTenant_mem .., fun p hp hst => State.keyMoult_leaveTenant_at .error now hten hp hst⟩,
    exec_lockedConfigWrite_idle now⟩
  · obtain ⟨f, hf⟩ := exec_eq_tdisp s id vf k b r hr
    rw [hf, State.tdisp_elsewhere f h hv]
    rfl
  · exact congrArg Host.Outcome.next (State.tdisp_elsewhere _ (upSession_at h now) hv)
  · rw [State.lockedBy_iff]
    exact hno.imp_right fun hfree ⟨hid, hten⟩ => hfree.elim (· hid) (· hten)
  · rintro (⟨hid, hten⟩ | ⟨h0, he⟩)
    · exact hfree.elim (· hid) (· hten)
    · exact herr.elim h0 (· he)
  · rw [State.say_mem, State.leaveTenant_mem, State.at_mem]
  · rw [State.say_tiles, State.leaveTenant_tiles, State.at_tiles]
  · rw [State.say_sec, State.tdi_leaveTenant]
  · rw [State.say_sec, State.tdiSess_leaveTenant]
  · intro p hp hst
    rw [State.part_say]
    exact State.keyMoult_leaveTenant_at .unlocked now hten hp hst
  · rw [State.say_sec, State.tdi_leaveTenant]
  · exact (State.say_parts ..).trans (State.leaveTenant_parts_of_error .unlocked herr)
  · rw [exec_ideKmKeyProgram_pf0 h hv, if_neg hother]
  · rw [exec_ideKmKeyProgram_pf0 h hv, if_pos hsame]

end Sys2Proof.Machine
end
